-- ==== Sys2Proof/Word.lean ====
section
/-! DEFINITION. The words of the part: 32-bit registers, 16-bit hammer words, bytes. -/

namespace Sys2Proof

/-- A register word (R40). -/
abbrev Word := BitVec 32
/-- A hammer data word (R206). -/
abbrev HWord := BitVec 16
/-- A byte of an addressed memory. -/
abbrev Byte := BitVec 8

end Sys2Proof
end

