-- ==== Sys2Proof/Syntax.lean ====
section
/-! DEFINITION. The commands of the block: one constructor per row of the spec's table, and the operand types they
carry. Indices are plain numbers; WellFormed says their ranges. -/

namespace Sys2Proof

/-- Who makes an access: host software, a hammer of a billet, or a unit of the part acting for a billet. -/
inductive Who where
  | host
  | hammer (b h : Nat)
  | unit (b : Nat)
deriving DecidableEq, Repr

/-- The hammer that executes an instruction, and the words the encoding takes (R225, R227). -/
structure HAt where
  b : Nat
  h : Nat
  words : Nat
deriving DecidableEq, Repr

/-- A register or immediate operand (R233, R236). -/
inductive Opd where
  | reg (g : Nat)
  | imm (v : HWord)
deriving DecidableEq, Repr

/-- A target: absolute, in the quarter of the instruction, through a register (native or class 00), or relative
(R231, R243). -/
inductive Tgt where
  | abs (t : Nat)
  | page (t12 : Nat)
  | reg (g : Nat)
  | pageReg (g : Nat)
  | rel (rel5 : Nat)
deriving DecidableEq, Repr

/-- The genlock pins (R66). -/
inductive GlkPin where
  | h
  | v
  | f
deriving DecidableEq, Repr

/-- What a GDDR6 read found (R313, R314). -/
inductive EccErr where
  | none
  | corrected
  | uncorrectable
  | edc
deriving DecidableEq, Repr

/-- A write at GDDR6's pins: its bytes, and whether the pins' check finds a mismatch (R313). -/
structure PinWrite where
  data : List Byte
  edc : Bool
deriving DecidableEq, Repr

/-- A beam flag change of a port (R55, R74, R76). -/
inductive BeamFlag where
  | activeStart
  | activeEnd
  | hsStart
  | hsEnd
  | vsStart
  | vsEnd
deriving DecidableEq, Repr

/-- The supply of a PIO bank: none, or within a class (R431). -/
inductive BankSupply where
  | off
  | v18
  | v25
  | v33
  | v50
deriving DecidableEq, Repr

/-- A clock domain (R463): of a billet, or of the package block from `pciePhy` on, which is named under billet 0. -/
inductive ClkDomain where
  | forge
  | anvil
  | cluster (k : Nat)
  | port (p : Nat)
  | gddr (c : Nat)
  | writeClock (d : Nat)
  | laneTx (l : Nat)
  | laneRx (l : Nat)
  | lanePcs (l : Nat)
  | flux
  | fluxRx (side : Nat)
  | reference
  | sensing
  | retention
  | pciePhy
  | pcieCore
  | spi
  | jtag
  | ember
  | temper
  | retimer (hop : Nat)
deriving DecidableEq, Repr

/-- The twin's frame stamp (R410, R73, R418): its frame number, whether its REF is the twin, ID and ROLE, the next
sequence numbers of its 32 raster senders (by package port) and 8 audio senders, and the one-way link delay that the
echo of a stamp measured for this frame (R408). -/
structure TwinStamp where
  frame : Nat
  refTwin : Bool
  id : Bool
  active : Bool
  seqs : List Nat
  delay : Nat
deriving DecidableEq, Repr

/-- A line record (R419): package port, port frame [15:0], active line index, CRC, and UNDER. -/
structure LineRec where
  port : Nat
  frame : Nat
  line : Nat
  crc : Nat
  under : Bool
deriving DecidableEq, Repr

/-- A takeover message (R423). -/
structure TakeMsg where
  frame : Nat
  line : Nat
  cause : Nat
deriving DecidableEq, Repr

/-- A receive-flow hand-off notice (R417): the layer, the frame's media identity, the package position of readiness. -/
structure Notice where
  billet : Nat
  layer : Nat
  ident : Nat
  frame : Nat
  line : Nat
deriving DecidableEq, Repr

/-- A control message of the twin (R425, R426, R409); pairing carries what R409 compares. -/
inductive TwinCtl where
  | detach
  | attach
  | resync
  | pairing (part step ctrl porten : Nat)
deriving DecidableEq, Repr

/-- What the link carried for a resync (R426): the bytes of the memory regions in order, the pixel-state words by
BAR0 offset, and the strike words by port, copy and word. -/
structure ResyncData where
  mem : List (BitVec 8)
  pix : List (Nat × BitVec 32)
  strikes : List (Nat × BitVec 32)
deriving DecidableEq, Repr

/-- What FUSE programs (R484, R530). -/
inductive FuseOp where
  | keyHash (slot : Nat) (hash : Nat)
  | revoke (slot : Nat)
  | secure
  | svn
deriving DecidableEq, Repr


/-- The commands: one constructor per row of spec/opcode_table.json, in its order. -/
inductive Instr where
  /-- REGISTER_WRITE (R13). A write to a register field with no behaviour of its own acts as its access type states. -/
  | registerWrite (who : Who) (addr : Nat) (v : Word)
  /-- BROADCAST_ALIAS_WRITE (R25). A write through the broadcast alias becomes one line commit addressed to every present billet, or is discarded outside the accepted ranges. -/
  | broadcastAliasWrite (who : Who) (off : Nat) (v : Word)
  /-- LINE_COMMIT_ISSUE (R26). A committed write is taken up by its originating billet and gets its issue tick and target line. -/
  | lineCommitIssue (who : Who) (addr : Nat) (v : Word)
  /-- COMMIT_HOLD (R33). HOLD written 1 starts collecting the context's committed writes. -/
  | commitHold (b k : Nat)
  /-- COMMIT_GROUP_ISSUE (R33). HOLD written 0 issues the collected writes as one commit group. -/
  | commitGroupIssue (b k : Nat)
  /-- COMMIT_ACCEPT (R334). A waiting commit takes commit-store entries in every addressed billet and is accepted. -/
  | commitAccept (id : Nat)
  /-- COMMIT_RECEIVE (R31). A commit delivered over the broadcast class arrives at a billet. -/
  | commitReceive (id b : Nat) (poisoned : Bool)
  /-- SEAL (R27). At L(n-1):D0 every billet publishes the set of commits it has received for line n. -/
  | sealPublish
  /-- SEAL_SET_RECEIVE (R27). A billet receives another billet's seal set and judges which commits apply and which are late. -/
  | sealSetReceive (dst src : Nat)
  /-- PACKAGE_LINE_START (R45). The package dot counter reaches the end of its line and the next package line starts. -/
  | packageLineStart
  /-- PKG_REG_APPLY (R47). A package-beam register write applies 32 package dots after acceptance in every billet. -/
  | pkgRegApply
  /-- GENLOCK_EDGE (R66). An active GLK edge arrives as a reference event and is measured. -/
  | genlockEdge (pin : GlkPin) (rising : Bool)
  /-- PTP_ALIGNMENT_POINT (R66). The tick reaches a PTP alignment point t_k, a reference event. -/
  | ptpAlignmentPoint (k : Nat)
  /-- REF_LOST (R72). No reference event within four predicted periods enters holdover. -/
  | refLost
  /-- PORT_LINE_START (R53). A raster port's line starts at package L n:D(DOT_OFS), cutting its previous line if short. -/
  | portLineStart (b p : Nat)
  /-- PORT_CHANNEL_START (R466). An enabled port starts counting at the first package frame start after its synthesiser has locked. -/
  | portChannelStart (b p : Nat)
  /-- PORT_MATCH (R77). A port match comparator reaches its position and fires. -/
  | portMatch (b p k : Nat)
  /-- BEAM_STAMP_LATCH_READ (R62). A read of the DL word latches the rest of the beam stamp for the accessor. -/
  | beamStampLatchRead (who : Who) (b p : Nat)
  /-- LINE_EVALUATION (R119). At L(n-1):D30 the line-n values are known, demands are reserved and fetches begin. -/
  | lineEvaluation
  /-- FETCH_DATA_RETURN (R326). A fetched 64-byte unit arrives in Anvil, or a decode error returns zeros. -/
  | fetchDataReturn (b unit : Nat) (err : EccErr)
  /-- ANVIL_GROUP_COMPOSE (R175). Anvil composes one 4-pixel group of the port it serves. -/
  | anvilGroupCompose (b p g : Nat)
  /-- GROUP_DEADLINE (R175). A group not composed by its deadline leaves as background or with late pieces as fallback. -/
  | groupDeadline (b p g : Nat)
  /-- PIXEL_GROUP_LEAVE (R533). A composed group leaves Anvil at its leaving instant through the output stage. -/
  | pixelGroupLeave (b p g : Nat)
  /-- LIVE_EDGE (R82). An untagged live-register write reaches its live edge and applies 4 anvil clocks later. -/
  | liveEdge (b i : Nat)
  /-- STRIKE_SWAP_REQUEST (R91). Writing SWAP requests a copy swap at the next cursor boundary. -/
  | strikeSwapRequest (b p : Nat)
  /-- STRIKE_DATA_ACCESS (R92). An access to STK_PORTp_DATA reads or writes the strike word at ACC and advances WORD. -/
  | strikeDataAccess (who : Who) (b p : Nat) (w : Option Word)
  /-- REFLEX_ARM (R99). Writing ARM arms a one-shot reflex slot. -/
  | reflexArm (b k : Nat)
  /-- PCACHE_INVALIDATE (R123). INV written 1 invalidates the tile pattern cache at the next line start. -/
  | pcacheInvalidate (b : Nat)
  /-- WRITEBACK_FRAME_DONE (R184). The last writeback row lands and LAST_IDX and WBFRM are updated. -/
  | writebackFrameDone (b p : Nat)
  /-- HAMMER_RUN (R194). CTRL.RUN written 1 starts a halted hammer at ENTRY. -/
  | hammerRun (who : Who) (b h : Nat)
  /-- HAMMER_STOP (R194). CTRL.RUN written 0 halts the hammer at its next boundary. -/
  | hammerStop (who : Who) (b h : Nat)
  /-- HAMMER_STEP (R194). CTRL.STEP executes one instruction of a halted hammer. -/
  | hammerStep (who : Who) (b h : Nat)
  /-- HAMMER_RESET (R195). CTRL.RESET returns the hammer's core state to reset. -/
  | hammerReset (who : Who) (b h : Nat)
  /-- SERVICE_MODE_WRITE (R219). A write of CTRL.SVC enters or leaves service mode on a keeper. -/
  | serviceModeWrite (who : Who) (b h : Nat) (on : Bool)
  /-- PMDATA_ACCESS (R197). A PMDATA access reads or writes program memory at PMADDR while HALTED and advances it. -/
  | pmdataAccess (who : Who) (b h : Nat) (w : Option Word)
  /-- DMDATA_ACCESS (R199). A host DMDATA access reads or writes an X or Y bank word and advances DMADDR. -/
  | dmdataAccess (who : Who) (b h : Nat) (w : Option Word)
  /-- DBGDATA_ACCESS (R194). A DBGDATA access reads or writes the item named by DBGSEL while HALTED. -/
  | dbgdataAccess (who : Who) (b h : Nat) (w : Option Word)
  /-- PIO_OWN_WRITE (R214). A PIO_OWNj write changes pin ownership if permitted, else sets PRIVERR. -/
  | pioOwnWrite (who : Who) (b j : Nat) (v : Word)
  /-- NOP (R230). No operation. -/
  | hNop (u : HAt)
  /-- MOV (R232). Copies a register or immediate into a register. -/
  | hMov (u : HAt) (gd : Nat) (x : Opd)
  /-- MOVI (R231). Loads a zero-extended 5-bit immediate. -/
  | hMovi (u : HAt) (g imm5 : Nat)
  /-- ADDI (R231). Adds a sign-extended 5-bit immediate. -/
  | hAddi (u : HAt) (g imm5 : Nat)
  /-- ADD (R233). Adds modulo 2^16. -/
  | hAdd (u : HAt) (gd : Nat) (x : Opd)
  /-- SUB (R233). Subtracts modulo 2^16. -/
  | hSub (u : HAt) (gd : Nat) (x : Opd)
  /-- AND (R233). Bitwise AND. -/
  | hAnd (u : HAt) (gd : Nat) (x : Opd)
  /-- OR (R233). Bitwise OR. -/
  | hOr (u : HAt) (gd : Nat) (x : Opd)
  /-- XOR (R233). Bitwise XOR. -/
  | hXor (u : HAt) (gd : Nat) (x : Opd)
  /-- SHL (R233). Shifts left with zero fill. -/
  | hShl (u : HAt) (gd : Nat) (x : Opd)
  /-- SHR (R233). Shifts right with zero fill. -/
  | hShr (u : HAt) (gd : Nat) (x : Opd)
  /-- ASR (R233). Shifts right copying bit 15. -/
  | hAsr (u : HAt) (gd : Nat) (x : Opd)
  /-- NOT (R233). Bitwise complement. -/
  | hNot (u : HAt) (gd gs : Nat)
  /-- NEG (R233). Two's-complement negation. -/
  | hNeg (u : HAt) (g : Nat)
  /-- SWAPB (R233). Swaps the bytes of a register. -/
  | hSwapb (u : HAt) (g : Nat)
  /-- CEQ (R233). Writes 1 when equal, else 0. -/
  | hCeq (u : HAt) (gd : Nat) (x : Opd)
  /-- CNE (R233). Writes 1 when not equal, else 0. -/
  | hCne (u : HAt) (gd : Nat) (x : Opd)
  /-- CLT (R233). Signed less-than compare. -/
  | hClt (u : HAt) (gd : Nat) (x : Opd)
  /-- CLTU (R233). Unsigned less-than compare. -/
  | hCltu (u : HAt) (gd : Nat) (x : Opd)
  /-- CLE (R233). Signed less-or-equal compare. -/
  | hCle (u : HAt) (gd : Nat) (x : Opd)
  /-- CLEU (R233). Unsigned less-or-equal compare. -/
  | hCleu (u : HAt) (gd : Nat) (x : Opd)
  /-- CARRY (R233). Writes the carry out of an unsigned sum. -/
  | hCarry (u : HAt) (gd gs : Nat)
  /-- LD (R204). Loads a data word, issuing a window read where the address lies in a window. -/
  | hLd (u : HAt) (g : Nat) (a : Opd)
  /-- LD_POSTINC (R231). Loads through a register and increments it. -/
  | hLdPostinc (u : HAt) (g ga : Nat)
  /-- ST (R204). Stores a data word, posting it to a window where applicable. -/
  | hSt (u : HAt) (a : Opd) (g : Nat)
  /-- ST_POSTINC (R231). Stores through a register and increments it. -/
  | hStPostinc (u : HAt) (ga g : Nat)
  /-- LOAD_RETURN (R204). A window load completes and its register becomes usable. -/
  | loadReturn (b h : Nat) (decodeError : Bool)
  /-- STORE_COMPLETE (R204). A posted store is accepted by its target and leaves the write buffer. -/
  | storeComplete (b h : Nat) (decodeError : Bool)
  /-- ACCESS_DEADLINE_MISS (R205). A remote access not done by its deadline completes with DLMISS. -/
  | accessDeadlineMiss (b h : Nat) (load : Bool)
  /-- MUL (R241). Multiplies into a0. -/
  | hMul (u : HAt) (gx gy : Nat)
  /-- MAC (R241). Multiplies and accumulates. -/
  | hMac (u : HAt) (acc : Bool) (gx gy : Nat)
  /-- MACD (R242). Multiplies X and Y bank words into an accumulator and increments pointers; service mode only. -/
  | hMacd (u : HAt) (acc : Bool) (gx gy : Nat)
  /-- MOVL (R228). Moves accumulator bits [15:0] to a register. -/
  | hMovl (u : HAt) (g : Nat) (acc : Bool)
  /-- MOVH (R228). Moves accumulator bits [31:16] to a register. -/
  | hMovh (u : HAt) (g : Nat) (acc : Bool)
  /-- SATH (R241). Returns the saturated high word of an accumulator. -/
  | hSath (u : HAt) (g : Nat) (acc : Bool)
  /-- MOVA (R241). Loads an accumulator with a register shifted left 16. -/
  | hMova (u : HAt) (acc : Bool) (g : Nat)
  /-- CLR_ACC (R241). Clears an accumulator. -/
  | hClrAcc (u : HAt) (acc : Bool)
  /-- ADDA (R241). Adds a1 to a0. -/
  | hAdda (u : HAt)
  /-- TLI (R240). Interpolates linearly in the table at TBASE. -/
  | hTli (u : HAt) (gd gs : Nat)
  /-- SETB (R239). Sets a bit of the bit space. -/
  | hSetb (u : HAt) (n : Nat)
  /-- CLRB (R239). Clears a bit of the bit space. -/
  | hClrb (u : HAt) (n : Nat)
  /-- TGLB (R239). Toggles a bit of the bit space. -/
  | hTglb (u : HAt) (n : Nat)
  /-- MOVB (R239). Copies a bit into a register. -/
  | hMovb (u : HAt) (g n : Nat)
  /-- STB (R239). Writes a register's truth into a bit. -/
  | hStb (u : HAt) (n g : Nat)
  /-- ANDB (R239). ANDs a bit into a register. -/
  | hAndb (u : HAt) (g n : Nat)
  /-- ORB (R239). ORs a bit into a register. -/
  | hOrb (u : HAt) (g n : Nat)
  /-- XORB (R239). XORs a bit into a register. -/
  | hXorb (u : HAt) (g n : Nat)
  /-- WAITB (R221). Waits until a bit reaches a value or the deadline. -/
  | hWaitb (u : HAt) (n : Nat) (v : Bool)
  /-- WAITL (R221). Waits until the own port's line reaches a value or the deadline. -/
  | hWaitl (u : HAt) (g : Nat)
  /-- WAIT_CONDITION_MET (R221). A waiting hammer's condition holds and it resumes 2 cycles later. -/
  | waitConditionMet (b h : Nat)
  /-- WAIT_DEADLINE (R222). A wait's deadline passes and it completes with DLMISS. -/
  | waitDeadline (b h : Nat)
  /-- BZ (R243). Branches if a register is zero. -/
  | hBz (u : HAt) (g : Nat) (t : Tgt)
  /-- BNZ (R243). Branches if a register is non-zero. -/
  | hBnz (u : HAt) (g : Nat) (t : Tgt)
  /-- DJNZ (R243). Decrements and branches if non-zero. -/
  | hDjnz (u : HAt) (g : Nat) (t : Tgt)
  /-- BR (R231). Relative branch. -/
  | hBr (u : HAt) (t : Tgt)
  /-- JMP (R243). Jumps to a target. -/
  | hJmp (u : HAt) (t : Tgt)
  /-- CALL (R243). Pushes the return address and jumps. -/
  | hCall (u : HAt) (t : Tgt)
  /-- RET (R215). Pops the PC. -/
  | hRet (u : HAt)
  /-- RETI (R217). Returns from an interrupt or trap, restoring IE and SM. -/
  | hReti (u : HAt)
  /-- RPT (R244). Repeats the next instruction n times without interruption. -/
  | hRpt (u : HAt) (n : Nat)
  /-- RPTI (R245). Repeats the next instruction with an interruptible register count. -/
  | hRpti (u : HAt) (g : Nat)
  /-- MOVS (R246). Copies a string of words. -/
  | hMovs (u : HAt)
  /-- FILLS (R246). Fills a string of words with g12. -/
  | hFills (u : HAt)
  /-- CMPS (R246). Compares two strings. -/
  | hCmps (u : HAt)
  /-- SCANS (R246). Scans a string for g12. -/
  | hScans (u : HAt)
  /-- EI (R249). Sets IE at the next boundary. -/
  | hEi (u : HAt)
  /-- DI (R249). Clears IE at the next boundary. -/
  | hDi (u : HAt)
  /-- HALT (R193). Sleeps with IE = 1 or halts with IE = 0. -/
  | hHalt (u : HAt)
  /-- SVC (R250). Enters the SVC trap. -/
  | hSvc (u : HAt)
  /-- TRAP (R250). Enters the TRAP trap. -/
  | hTrap (u : HAt)
  /-- ILLEGAL_ENCODING (R227). An encoding naming no instruction raises the ILLEGAL trap. -/
  | illegalEncoding (u : HAt)
  /-- INTERRUPT_ACCEPT (R260). At a boundary the hammer accepts the winning eligible source and vectors to it. -/
  | interruptAccept (b h : Nat)
  /-- IRQ_SOURCE_SENSE (R256). A source input changes or pulses and its pending or withdrawn state is updated. -/
  | irqSourceSense (b id : Nat)
  /-- IRQ_STATE_MESSAGE (R263). Interrupt state of a remote source arrives at its target hammer over Flux. -/
  | irqStateMessage (b id : Nat)
  /-- CLAIM (R264). A core-page read of CLAIM takes the winning source into service. -/
  | claim (b h : Nat)
  /-- COMPLETE (R266). A write of an ID to COMPLETE clears its in-service slot. -/
  | complete (b h id : Nat)
  /-- IC_SRC_WRITE (R258). A write of IC_SRCi changes sensing, enable, priority or target, clearing or moving pending state. -/
  | icSrcWrite (b i : Nat) (v : Word)
  /-- PRIVATE_SOFTWARE_SET (R253). A write of IC_PSETh raises private IDs 28-31. -/
  | privateSoftwareSet (b h : Nat) (v : Word)
  /-- SOFTWARE_SOURCE_SET (R254). A write of IC_SWSETj sets shared software source inputs. -/
  | softwareSourceSet (b j : Nat) (v : Word)
  /-- SOFTWARE_SOURCE_CLEAR (R254). A write of IC_SWCLRj clears shared software source inputs. -/
  | softwareSourceClear (b j : Nat) (v : Word)
  /-- EMBER_ENTER (R271). EMBER entry arms the wake slots or is abandoned by an asserted level slot. `ins` names the inputs
  of R270 that are 1, each as 512 × CLASS + INDEX. -/
  | emberEnter (ins : List Nat)
  /-- EMBER_WAKE (R272). An enabled wake slot is seen and the part wakes and restores in order. `ins` as in EMBER_ENTER. -/
  | emberWake (ins : List Nat)
  /-- EMBER_TIMER_EXPIRE (R270). EMB_TIMER reaches 0 in EMBER and its wake input becomes 1. -/
  | emberTimerExpire
  /-- SWAGE_COPY (R278). GO with OP COPY copies the source rectangle. -/
  | swageCopy (b u : Nat)
  /-- SWAGE_FILL (R278). GO with OP FILL fills the rectangle with FG. -/
  | swageFill (b u : Nat)
  /-- SWAGE_KEYCOPY (R278). GO with OP KEYCOPY copies pixels that differ from KEY. -/
  | swageKeycopy (b u : Nat)
  /-- SWAGE_ALPHA (R280). GO with OP ALPHA blends the source over the destination. -/
  | swageAlpha (b u : Nat)
  /-- SWAGE_LINE (R281). GO with OP LINE draws a line in FG. -/
  | swageLine (b u : Nat)
  /-- SWAGE_RECT (R278). GO with OP RECT draws a rectangle outline. -/
  | swageRect (b u : Nat)
  /-- SWAGE_PATROP (R279). GO with OP PATROP applies a ternary raster operation. -/
  | swagePatrop (b u : Nat)
  /-- SWAGE_ILLEGAL_OP (R283). An illegal operation ends at once with ILLOP and DONE. -/
  | swageIllegalOp (b u : Nat)
  /-- SWAGE_ABORT (R292). ABORT ends a running or waiting operation after its current unit. -/
  | swageAbort (b u : Nat)
  /-- SWAGE_WAIT_RELEASE (R290). The awaited Tongs channel's DONE releases a waiting operation. -/
  | swageWaitRelease (b u : Nat)
  /-- SWAGE_WAIT_DEADLINE (R290). A waiting operation's deadline passes and it ends with DLMISS. -/
  | swageWaitDeadline (b u : Nat)
  /-- SWAGE_DONE (R291). All writes are accepted; DONE, DONEPOS and PERF are set. -/
  | swageDone (b u : Nat)
  /-- SWAGE_WATERMARK (R291). WMK rows become complete and WMARK is set. -/
  | swageWatermark (b u : Nat)
  /-- TONGS_GO (R299). GO arms, resumes or triggers a channel according to its state. -/
  | tongsGo (b ch : Nat)
  /-- TONGS_TRIGGER (R298). A trigger event runs a unit of work or adds to PEND. -/
  | tongsTrigger (b ch : Nat)
  /-- TONGS_DRAIN (R303). DRAIN stops issuing bursts and pauses the channel once in-flight bursts land. -/
  | tongsDrain (b ch : Nat)
  /-- TONGS_DISABLE (R304). EN written 0 stops the channel at once in IDLE. -/
  | tongsDisable (b ch : Nat)
  /-- TONGS_BURST_COMPLETE (R300). A burst's write is accepted. -/
  | tongsBurstComplete (b ch : Nat)
  /-- TONGS_DEADLINE (R302). A channel's deadline passes and it ends in ERROR with DLMISS. -/
  | tongsDeadline (b ch : Nat)
  /-- MEM_TRAIN (R310). TRAIN written 1 starts training the billet's GDDR6. -/
  | memTrain (b : Nat)
  /-- TRAINING_DONE (R310). Training ends, setting TRAINED, CAP4G, ECC_ON or FAIL: bit c of `trained` says that channel c
  trained, `cap4g` whether the devices are of 4 GiB, none where their densities differ. -/
  | trainingDone (b trained : Nat) (cap4g : Option Bool)
  /-- ECC_FILL_DONE (R311). The zero fill after ECC training completes. -/
  | eccFillDone (b : Nat)
  /-- GDDR6_SLOT (R320). At a slot boundary the arbiter decides the owner of the next slot. -/
  | gddr6Slot (b ch : Nat)
  /-- ARB_SWAP_REQUEST (R323). SWAP written 1 requests a slot-table swap. -/
  | arbSwapRequest (b : Nat)
  /-- GDDR6_WRITE_ACCEPT (R321). A write enters its channel's write buffer and invalidates touched cache lines. -/
  | gddr6WriteAccept (b req addr : Nat) (w : PinWrite)
  /-- GDDR6_READ_RETURN (R314). Read data returns, corrected or as an uncorrectable decode error. -/
  | gddr6ReadReturn (b req addr : Nat) (err : EccErr)
  /-- FREEZE_WRITE (R329). A FREEZE.MASK write freezes or releases requesters. -/
  | freezeWrite (b : Nat) (v : Word)
  /-- FREEZE_DRAINED (R329). No frozen requester holds a tag or write entry and DRAINED is set. -/
  | freezeDrained (b : Nat)
  /-- FLUX_REQUEST (R333). A Flux request arrives at its target and is performed or answered not performed. `addr` below
  2^32 is an offset of billet `dst`'s register window, from 2^32 up an address of its GDDR6, from 2 × 2^32 up one of its
  hearth RAM. -/
  | fluxRequest (b dst : Nat) (rw : Option Word) (addr margin : Nat) (poisoned : Bool)
  /-- FLUX_RESPONSE (R333). A Flux response arrives and frees its transaction, or is discarded late. -/
  | fluxResponse (b : Nat) (late poisoned : Bool)
  /-- TUYERE_FRAME (R339). A 96 kHz frame starts and runs source load, program and bus stage. -/
  | tuyereFrame
  /-- TUYERE_ENABLE (R343). TUY_CTRL.EN written 1 starts Tuyere from its start state. -/
  | tuyereEnable
  /-- DELAY_CLEAR_DONE (R343). The delay memory clear completes and DLYCLR reads 0. -/
  | delayClearDone
  /-- VOICE_NONE (R346). A voice command of code 00 does nothing. -/
  | voiceNone (v : Nat)
  /-- VOICE_LOAD (R346). LOAD copies the shadow descriptor to the active one. -/
  | voiceLoad (v : Nat)
  /-- KEYON (R346). KEYON loads the descriptor and restarts the voice in ATTACK. -/
  | keyon (v : Nat)
  /-- KEYOFF (R346). KEYOFF puts the envelope into RELEASE. -/
  | keyoff (v : Nat)
  /-- VOICE_READ_RETURN (R350). A voice's PCM unit returns from billet 0's GDDR6. -/
  | voiceReadReturn (v unit : Nat)
  /-- PROGRAM_WORD_WRITE (R354). A TUY_PDATA access writes a program word and advances PACC. -/
  | programWordWrite (w : Option Word)
  /-- PROGRAM_SWAP (R353). SWAP makes the shadow program copy active at the next source load. -/
  | programSwap
  /-- GAIN_RAMP (R360). A TUY_GRAMP write starts a ramp of a slot's gain. -/
  | gainRamp (v : Word)
  /-- PARAMETER_ACCESS (R361). A TUY_MDATA access reads or writes a parameter word and advances MACC. -/
  | parameterAccess (w : Option Word)
  /-- TUYERE_FRAME_READ (R359). A TUY_FRAME read latches the high frame bits. -/
  | tuyereFrameRead (who : Who)
  /-- BUS_GMIN_READ (R363). A read of TUY_BUSb_GMIN returns and resets the least gain. -/
  | busGminRead (bus : Nat)
  /-- BUS_PEAK_READ (R363). A read of TUY_BUSb_PEAK returns and clears the peak. -/
  | busPeakRead (bus : Nat)
  /-- CONVERTER_SETTLED (R352). A converter ends its mute and fade-in and sets SETTLED. -/
  | converterSettled (k : Nat)
  /-- CONVERTER_INPUT_LOST (R352). A converter sees no FS or samples for its limit and sets NOCLK. -/
  | converterInputLost (k : Nat)
  /-- TDM_FRAME_SYNC (R351). A TDM port frame of slots is received and sent. -/
  | tdmFrameSync (n : Nat) (slots : List Word)
  /-- LINK_STATE_CHANGE (R372). Block lock and FEC alignment held 1 ms sets LINK_UP, or loss clears it. -/
  | linkStateChange (b l : Nat) (up : Bool)
  /-- FRAME_RECEIVE (R374). A received Ethernet frame is classified and delivered or dropped. -/
  | frameReceive (b l : Nat) (frame : List Byte)
  /-- RECEIVE_FRAME_END (R393). A receive flow's frame ends and is handed off once its writes are accepted. -/
  | receiveFrameEnd (b f : Nat)
  /-- RASTER_PACKET_RELEASE (R383). A paced raster packet's TRS interval expires and it is released. -/
  | rasterPacketRelease (b p : Nat)
  /-- AUDIO_PACKET_BUILD (R398). An audio sender builds and releases a packet each packet time. -/
  | audioPacketBuild (g : Nat)
  /-- TRANSMIT_FRAME_START (R373). An idle lane starts the next waiting frame in service order. -/
  | transmitFrameStart (b l : Nat)
  /-- FIRMWARE_TX_SEND (R379). The part sends the transmit ring entry at HEAD and writes DONE. -/
  | firmwareTxSend (b : Nat)
  /-- DELAY_REQ_SEND (R402). The Delay_Req interval expires and a Delay_Req is sent. -/
  | delayReqSend
  /-- PTP_HOLDOVER (R405). No Sync for four intervals enters HOLDOVER. -/
  | ptpHoldover
  /-- PTP_GMPORT_WRITE (R404). A GMPORT write applies GMID, clears mpd and integ and arms the step. -/
  | ptpGmportWrite (v : Word)
  /-- PTP_RESTEP (R404). RESTEP arms the PTP step. -/
  | ptpRestep
  /-- PTP_ENABLE (R405). LNK_PTP_CTRL.EN written 1 enters LISTENING and arms the step. -/
  | ptpEnable
  /-- QUENCH_ENABLE (R412). QCH_CTRL.EN written 1 sets the part's role under ROLEREQ. -/
  | quenchEnable
  /-- ROLE_DECIDE (R412). A part with ID 1 decides its requested role 1.0 ms after EN. -/
  | roleDecide
  /-- TWIN_LINK_LOST (R408). No valid flit for 1,200 forge cycles loses the link. -/
  | twinLinkLost
  /-- TWIN_FRAME_STAMP_RECEIVE (R410). The twin's frame stamp arrives for FALIGN, REF and sequence alignment. -/
  | twinFrameStampReceive (m : TwinStamp)
  /-- LINE_RECORD_RECEIVE (R420). The twin's line record arrives and is compared with the own record. -/
  | lineRecordReceive (m : LineRec)
  /-- LINE_RECORD_MISS (R420). A record finds no partner within 4 package lines. -/
  | lineRecordMiss
  /-- TAKE (R422). TAKE on the shadow triggers a takeover of cause 1. -/
  | take
  /-- YIELD (R422). YIELD on the active triggers a takeover of cause 2. -/
  | yield
  /-- TAKEOVER_MESSAGE (R423). The twin's takeover message arrives naming boundary B. -/
  | takeoverMessage (m : TakeMsg)
  /-- TWIN_PEER_CHANGE (R413). The TWIN_PEER input changes level. -/
  | twinPeerChange (level : Bool)
  /-- DETACH (R425). DETACH puts both parts in DETACHED at the next line start. -/
  | detach
  /-- ATTACH (R425). ATTACH puts both parts in ATTACHED at the next frame start. -/
  | attach
  /-- RESYNC (R426). RESYNC on the shadow starts copying the regions from the active part. -/
  | resync
  /-- RESYNC_DONE (R427). Every region has been written; RSDONE and DETACHED follow. -/
  | resyncDone (d : ResyncData)
  /-- HANDOFF_NOTICE (R417). A receive-flow hand-off notice arrives and the aligned hand-off is issued when both match. -/
  | handoffNotice (m : Notice)
  /-- HANDOFF_NOTICE_WITHDRAW (R417). A notice unmatched for HWAIT frames is withdrawn and its slot freed. -/
  | handoffNoticeWithdraw
  /-- MAILBOX_SEND (R428). A write of QCH_MBOUT15 sends all sixteen words to the twin. -/
  | mailboxSend (v : Word)
  /-- MAILBOX_RECEIVE (R428). A mailbox message replaces MBIN and sets MBOX. -/
  | mailboxReceive (ws : List Word)
  /-- PIN_CFG_WRITE (R435). A PIO_PINn_CFG write acts at once or starts a function switch. -/
  | pinCfgWrite (b n : Nat) (v : Word)
  /-- PIN_SWITCH_END (R435). The break ends, the new function drives and a held write is applied. -/
  | pinSwitchEnd (b n : Nat)
  /-- BANK_VSEL_WRITE (R431). A VSEL write changes the bank's class and VIOOK at once. -/
  | bankVselWrite (b k : Nat) (v : Word)
  /-- BANK_SUPPLY_CHANGE (R431). A bank supply enters or leaves its class and drivers and observe paths follow. -/
  | bankSupplyChange (b k : Nat) (cls : BankSupply)
  /-- PIN_LEVEL_CHANGE (R434). A pin's filtered level changes and feeds its observers. -/
  | pinLevelChange (b n : Nat) (level : Bool)
  /-- MATCHER_TIMEOUT (R441). A SEQ state without advance for TMO units returns to 0. -/
  | matcherTimeout (b k : Nat)
  /-- MATCHER_CONFIG_WRITE (R440). A write to an enabled matcher reloads its previous value and restarts SEQ. -/
  | matcherConfigWrite (b k r : Nat) (v : Word)
  /-- TICK_STEP_HI_WRITE (R445). A STEP_HI write is held for the next STEP_LO. -/
  | tickStepHiWrite (v : Word)
  /-- TICK_STEP_LO_WRITE (R445). A STEP_LO write schedules a signed step of the tick. -/
  | tickStepLoWrite (v : Word)
  /-- TICK_STEP_APPLY (R445). The step is added to the tick at least 8 cycles after the write. -/
  | tickStepApply
  /-- TICK_LATCH_READ (R447). A TICK_LO read latches the high tick bits. -/
  | tickLatchRead (who : Who) (b : Nat)
  /-- COMPARE_ARM (R448). A CTRL write with EN = 1 or a T_LO write while enabled arms the channel. -/
  | compareArm (b k r : Nat) (v : Word)
  /-- COMPARE_STOP (R451). A CTRL write with EN = 0 stops the channel. -/
  | compareStop (b k r : Nat) (v : Word)
  /-- COMPARE_FIRE (R448). The tick reaches T and the channel fires. -/
  | compareFire (b k : Nat)
  /-- COMPARE_WRAP (R449). A PERIOD channel's count reaches PERIOD, wraps and fires. -/
  | compareWrap (b k : Nat)
  /-- CAPTURE (R453). A capture channel accepts an edge and records tick and stamp. -/
  | capture (b c : Nat)
  /-- CAPTURE_LATCH_READ (R455). A CAPc_TLO read latches the capture record. -/
  | captureLatchRead (who : Who) (b c : Nat)
  /-- TALLY_WRAP (R457). A Tally counter wraps and sets WRAP. -/
  | tallyWrap (b k : Nat)
  /-- TALLY_CLEAR (R457). CLR sets the counter to 0. -/
  | tallyClear (b k : Nat)
  /-- TALLY_LATCH_READ (R459). A CNT_LO or SNAP_LO read latches its high half. -/
  | tallyLatchRead (who : Who) (b k : Nat) (snap : Bool)
  /-- POWER_ON_RESET (R460). VIN below the threshold holds or raises a power-on or brown-out reset. -/
  | powerOnReset
  /-- PIN_RESET (R478). RESET_N held low for 100 ns raises a PIN reset. -/
  | pinReset
  /-- THERMAL_RESET (R475). A junction sensor at 160 °C raises a THERMAL reset. -/
  | thermalReset
  /-- CLOCK_RESET (R467). Loss of a Flux receive or forge clock raises a CLOCK reset. -/
  | clockReset
  /-- SOFT_RESET (R478). KEY 0x5A with PKG = 1 raises a SOFT reset. -/
  | softReset (v : Word)
  /-- WATCHDOG_KICK (R480). A GRST_KICK write of 0xC3 reloads the watchdog; any other value resets. -/
  | watchdogKick (v : Word)
  /-- WATCHDOG_EXPIRY (R480). The watchdog reaches 0 and raises a WDOG reset. -/
  | watchdogExpiry
  /-- RESET_RELEASE (R479). Every billet leaves reset together, the beam starts and boot begins. -/
  | resetRelease (bootSel : Nat)
  /-- BOOT_GO (R485). BOOT_CTRL.GO continues a host boot with the image at BOOT_IMGADDR. -/
  | bootGo
  /-- CLOCK_LOSS (R465). A domain's clock is lost and its crossings are flushed. -/
  | clockLoss (b : Nat) (dom : ClkDomain)
  /-- SYNTH_LOCK_LOSS (R466). A port synthesiser loses lock and the port stops. -/
  | synthLockLoss (b p : Nat)
  /-- SYNTH_LOCK (R466). A port synthesiser reaches lock. -/
  | synthLock (b p : Nat)
  /-- TEMPER_CURRENT_CHECK (R473). Every 1 µs measured current is compared with grants and a short prediction tightens. -/
  | temperCurrentCheck (use : List Nat)
  /-- TEMP_SENSOR_READ (R474). Every 1 ms the case temperature sets the ceiling and TALARM. -/
  | tempSensorRead (t tj : Int)
  /-- POWER_STATE_REQUEST (R476). A TMP_PWRREQ write requests a power state entered at the frame start or at once. -/
  | powerStateRequest (v : Word)
  /-- HOST_RESET (R501). A PCIe fundamental, hot or FLR reset resets the host port only. -/
  | hostReset
  /-- PCIE_MEMORY_WRITE (R490). A PCIe Memory Write to BAR0 is performed as posted 32-bit writes. -/
  | pcieMemoryWrite (addr : Nat) (data : List Byte)
  /-- PCIE_MEMORY_READ (R490). A PCIe Memory Read is performed after earlier writes and completed. -/
  | pcieMemoryRead (addr n : Nat)
  /-- HOST_ACCESS_DEADLINE (R491). A host access not done within a frame ends with DLMISS. -/
  | hostAccessDeadline
  /-- SPI_WRITE (R488). SPI command 0x02 performs 32-bit writes at advancing addresses. -/
  | spiWrite (addr : Nat) (bytes : List Byte)
  /-- SPI_READ (R488). SPI command 0x0B performs 32-bit reads at advancing addresses. -/
  | spiRead (addr n : Nat)
  /-- SPI_STATUS (R488). SPI command 0x05 returns the status byte. -/
  | spiStatus
  /-- SPI_BAD_COMMAND (R488). Another command byte is ignored until CS_N rises and sets SPIERR. -/
  | spiBadCommand (cmd : Nat)
  /-- DATA_PORT_ACCESS (R493). A DPk_DATA or aperture access moves one word at ADDR and advances the port. -/
  | dataPortAccess (k : Nat) (w : Option Word)
  /-- DATA_PORT_ADDR_WRITE (R493). A DPk_ADDR write loads addr and row and clears the row count. -/
  | dataPortAddrWrite (k : Nat) (v : Word)
  /-- DATA_PORT_PREFETCH (R495). A prefetch read returns a word ahead along the port's sequence. -/
  | dataPortPrefetch (k : Nat)
  /-- DATA_PORT_WORD_ACCEPT (R494). A posted data-port word is accepted by its target and PEND falls. -/
  | dataPortWordAccept (k : Nat)
  /-- DOORBELL (R498). A HST_DOORBELL write rings a doorbell on a billet. -/
  | doorbell (v : Word)
  /-- HOST_IRQ_SET (R499). A HST_HIRQSET write sets host interrupt bits. -/
  | hostIrqSet (v : Word)
  /-- EXTEST (R529). EXTEST holds the part in reset with pads driven from the boundary register. -/
  | extest
  /-- IDCODE (R527). IDCODE selects the device ID register. -/
  | idcode
  /-- SAMPLE_PRELOAD (R526). SAMPLE/PRELOAD selects the boundary register without disturbing the part. -/
  | samplePreload
  /-- HIGHZ (R529). HIGHZ holds the part in reset with pads high-Z. -/
  | highz
  /-- CLAMP (R529). CLAMP holds the part in reset with pads clamped. -/
  | clamp
  /-- EXTEST_PULSE (R526). EXTEST_PULSE tests AC-coupled balls under IEEE 1149.6. -/
  | extestPulse
  /-- EXTEST_TRAIN (R526). EXTEST_TRAIN tests AC-coupled balls under IEEE 1149.6. -/
  | extestTrain
  /-- FUSE (R484). FUSE programs the OTP through JTAG. -/
  | fuse (op : FuseOp)
  /-- BYPASS (R526). Any other instruction code selects the bypass register. -/
  | bypass
  /-- TEST_RESET_EXIT (R529). Leaving a test instruction releases the part as after a PIN reset. -/
  | testResetExit
  /-- PORT_BEAM_FLAG_CHANGE (R55). A port's dot counter reaches H_ACT_START, HS_START, HS_END or a VS position, so its DE, HBLANK, HS and VS levels change and the first-active-dot, HS-start and VS-start events are raised. -/
  | portBeamFlagChange (b p : Nat) (f : BeamFlag)
  /-- DOMAIN_CLOCK_RETURN (R465). A held clock domain's clock returns, and the domain restarts with its reset values. -/
  | domainClockReturn (b : Nat) (dom : ClkDomain)
  /-- TWIN_CONTROL_MESSAGE (R425). A detach, attach, resync or pairing message from the twin arrives and puts this part into DETACHED, ATTACHED or RESYNC, or re-judges pairing. -/
  | twinControlMessage (m : TwinCtl)
  /-- BOOT_STEP_COMPLETE (R481). A boot step (QSPI read, authentication or section writes) ends, and the sequencer advances, retries with image B, or sets DONE, FAIL or WAITHOST. -/
  | bootStepComplete (ok : Bool)
  /-- RETRAIN_COMPLETE (R312). A 2,000 ns GDDR6 retrain ends, the channels carry data again and MEM_STAT.BUSY clears. -/
  | retrainComplete (b : Nat)
  /-- PCIE_LINK_CHANGE (R487). The PCIe link trains up or goes down, setting HST_STAT LINKUP, WIDTH and SPEED. -/
  | pcieLinkChange (up : Bool) (width speed : Nat)
  /-- PCIE_CONFIG_ACCESS (R487). A PCIe configuration read or write reaches the Type 0 header and its capabilities, including BAR0 and the D0 or D3hot power state. -/
  | pcieConfigAccess (reg : Nat) (w : Option Word)
  /-- PTP_DISABLE (R405). LNK_PTP_CTRL.EN written 0 puts the PTP slave in DISABLED. -/
  | ptpDisable
  /-- QUENCH_DISABLE (R412). QCH_CTRL.EN written 0 makes the part unpaired, with STATE off and TWIN_ACTIVE and TWIN_FAULT inactive. -/
  | quenchDisable
  /-- TUYERE_DISABLE (R343). TUY_CTRL.EN written 0 stops the frames, sends 0 on every sink, makes every AMP_EN pin inactive and stops every TDM port. -/
  | tuyereDisable
  /-- PORT_EN_WRITE (R466). A BEL_PORTp_CTRL write of EN starts the port's synthesiser when EN is 1, or requests the channel stop when EN is 0. -/
  | portEnWrite (b p : Nat) (v : Word)
  /-- LANE_CTRL_WRITE (R371). A LNK_Ll_CTRL write sets the lane mode, refusing the twin mode with MODEERR where it is not allowed, and starts auto-negotiation and link training. -/
  | laneCtrlWrite (b l : Nat) (v : Word)
  /-- CAPTURE_CHANNEL_WRITE (R452). A TIM_CAPc_CTRL write of EN, ARM or PIN loads the capture filter and edge selection from the present level and restarts the prescaler count. -/
  | captureChannelWrite (b c r : Nat) (v : Word)
  /-- TAP_RESET (R478). JTAG TRST_N asserted resets the test access port only, selecting IDCODE. -/
  | tapReset
deriving DecidableEq, Repr

end Sys2Proof
end

