-- ==== Sys2Proof/Config.lean ====
section
/-! DEFINITION. What an implementation fixes (the variant and its figures) and the free values: constants with no
body, for the values the spec leaves open (log entry 3). -/

namespace Sys2Proof

/-- The three variants (R2). -/
inductive Variant where
  | ux8_2
  | ux8_4
  | ux8_8
deriving DecidableEq, Repr

/-- Billets of the variant (R2). -/
def Variant.billets : Variant → Nat
  | .ux8_2 => 2
  | .ux8_4 => 4
  | .ux8_8 => 8

/-- Reset value of TMP_BUDGET and TMP_CEIL (R2, file 17). -/
def Variant.budgetReset : Variant → Nat
  | .ux8_2 => 0x1B8
  | .ux8_4 => 0x348
  | .ux8_8 => 0x640

/-- The free values: nothing constrains the number at an index. A step applies them to a counter held in State, so
every use is fresh. -/
opaque Config.free : Nat → Nat

/-- How far the transfer decode of a video component lies from the exact result (R155), which is open within one
code: a function of TF and of the component as a fraction. -/
opaque Config.tfDev : Nat → Int → Nat → Int

/-- How far a component of the YCbCr conversion lies from the exact result (R181): a function of the matrix, the
component and the pixel. -/
opaque Config.yccDev : Nat → Nat → Nat → Nat → Nat → Int

/-- How far a filter result over cell taps lies from the exact one (R158: weights exact to 1/256): a function of the
exact result as a fraction. -/
opaque Config.cellDev : Int → Nat → Int

/-- Whether Ember's interrupt input is asserted: the spec names the source (R254) and states no condition. -/
opaque Config.emberSource : BitVec 32 → Bool

/-- Where within two codes of the exact result the sine of a phase lies (R348). -/
opaque Config.sineDev : Nat → Nat

/-- Whether a quotient the spec rounds in no stated way is rounded up: the limiter's Q0.24 values (R363). -/
opaque Config.roundUp : Int → Nat → Bool

/-- What a byte of a memory holds that nothing has written since its contents became undefined (R310, R317): by the
occasion, numbered from 1, and the address. -/
opaque Config.eraByte : Nat → Nat → BitVec 8

end Sys2Proof
end

