-- ==== Sys2Proof/Machine/Table.lean ====
section
/-! DEFINITION. Sparse tables in one canonical form (keys strictly rising, nothing listed that equals what an
unlisted key reads as), and the bit-field and sign helpers every family uses. -/

namespace Sys2Proof.Machine

/-- A sparse table: pairs of key and value. What an unlisted key reads as is given by a default function. -/
abbrev Tbl (α : Type) := List (Nat × α)

/-- The value at key `k`: the listed one, or the default. -/
def Tbl.get {α : Type} (d : Nat → α) : Tbl α → Nat → α
  | [], k => d k
  | (k', v) :: t, k => if k = k' then v else Tbl.get d t k

/-- The table without key `k`. -/
def Tbl.erase {α : Type} (m : Tbl α) (k : Nat) : Tbl α := m.filter (fun e => decide (e.1 ≠ k))

/-- Put `v` at key `k`, keeping the keys rising. -/
def Tbl.put {α : Type} : Tbl α → Nat → α → Tbl α
  | [], k, v => [(k, v)]
  | (k', v') :: t, k, v =>
    if k < k' then (k, v) :: (k', v') :: t
    else if k = k' then (k, v) :: t
    else (k', v') :: Tbl.put t k v

/-- Write `v` at key `k`: a value equal to the default is not listed. -/
def Tbl.set {α : Type} [DecidableEq α] (d : Nat → α) (m : Tbl α) (k : Nat) (v : α) : Tbl α :=
  if v = d k then Tbl.erase m k else Tbl.put m k v

/-- Change the value at key `k` by `f`. -/
def Tbl.upd {α : Type} [DecidableEq α] (d : Nat → α) (m : Tbl α) (k : Nat) (f : α → α) : Tbl α :=
  Tbl.set d m k (f (Tbl.get d m k))

/-- The canonical form: keys strictly rising and no default listed. -/
def Tbl.wf {α : Type} [DecidableEq α] (d : Nat → α) : Tbl α → Bool
  | [] => true
  | [(k, v)] => decide (v ≠ d k)
  | (k, v) :: (k', v') :: t => decide (v ≠ d k) && decide (k < k') && Tbl.wf d ((k', v') :: t)

/-- Write a run of values at rising keys from `k` with step `st`. -/
def Tbl.setRun {α : Type} [DecidableEq α] (d : Nat → α) (m : Tbl α) (k st : Nat) : List α → Tbl α
  | [] => m
  | v :: vs => Tbl.setRun d (Tbl.set d m k v) (k + st) st vs

/-- Read `n` values at rising keys from `k` with step `st`. -/
def Tbl.getRun {α : Type} (d : Nat → α) (m : Tbl α) (k st : Nat) : Nat → List α
  | 0 => []
  | n + 1 => Tbl.get d m k :: Tbl.getRun d m (k + st) st n

/-- Bits `hi` down to `lo` of a natural number. -/
def bits (n hi lo : Nat) : Nat := (n >>> lo) % 2 ^ (hi + 1 - lo)

/-- Field [hi:lo] of a register word, as a number. -/
def fld (w : Word) (hi lo : Nat) : Nat := bits w.toNat hi lo

/-- Bit `i` of a register word. -/
def bit (w : Word) (i : Nat) : Bool := w.getLsbD i

/-- The word with field [hi:lo] replaced by the low bits of `v`. -/
def setFld (w : Word) (hi lo v : Nat) : Word :=
  let m : Nat := (2 ^ (hi + 1 - lo) - 1) <<< lo
  (w &&& ~~~(BitVec.ofNat 32 m)) ||| (BitVec.ofNat 32 ((v % 2 ^ (hi + 1 - lo)) <<< lo))

/-- The word with bit `i` set to `b`. -/
def setBit (w : Word) (i : Nat) (b : Bool) : Word := setFld w i i (if b then 1 else 0)

/-- A register word of a number. -/
def wd (n : Nat) : Word := BitVec.ofNat 32 n

/-- The low `n` bits of `x` read as two's complement. -/
def sx (n x : Nat) : Int :=
  let y := x % 2 ^ n
  if y < 2 ^ (n - 1) then (y : Int) else (y : Int) - 2 ^ n

/-- An integer narrowed to `n` bits, two's complement. -/
def narrow (n : Nat) (i : Int) : Nat := (i % (2 ^ n : Int)).toNat

/-- An integer held within two bounds. -/
def clampI (lo hi i : Int) : Int := if i < lo then lo else if hi < i then hi else i

/-- Division of integers truncated toward zero. -/
def tdiv (a b : Int) : Int := Int.tdiv a b

/-- A truth value as a bit. -/
def b2n (b : Bool) : Nat := if b then 1 else 0

/-- Apply `f` for every element of a list, from the left. -/
def forAll {α β : Type} (l : List α) (f : β → α → β) (b : β) : β := l.foldl f b

/-- The numbers below `n`, rising. -/
def upto (n : Nat) : List Nat := List.range n

end Sys2Proof.Machine
end

