-- ==== Sys2Proof/Machine/RegTable.lean ====
section
/-! DEFINITION. The register map (R13, R14, R38-R40): for every register its offset, its copies, its reset word
and, by access type, which of its bits a write or a read acts on. Offsets below 0x80_0000 are offsets in a billet's
window; the others are BAR0 offsets. Bits in no mask are reserved or read-only (R14). -/

namespace Sys2Proof.Machine

/-- One register heading of the spec: `dims` lists stride and count of its copies, widest first. -/
structure RegRow where
  base : Nat
  dims : List (Nat × Nat)
  reset : Nat
  rw : Nat
  rws : Nat
  w1c : Nat
  w1s : Nat
  wo : Nat
  rc : Nat
deriving DecidableEq, Repr

/-- Rows of the BEL_ block of a billet window. -/
def rowsBel : List RegRow :=
  [
    ⟨0x0, [], 0x80000, 0xFF0FFF, 0x0, 0x0, 0x0, 0x0, 0x0⟩,  -- BEL_PKG_CTRL
    ⟨0x4, [], 0xC35, 0x0, 0xFFFF, 0x0, 0x0, 0x0, 0x0⟩,  -- BEL_PKG_HTOTAL
    ⟨0x8, [], 0x320, 0x0, 0xFFFF, 0x0, 0x0, 0x0, 0x0⟩,  -- BEL_PKG_VTOTAL
    ⟨0xC, [], 0x0, 0x0, 0xFFFFFFFF, 0x0, 0x0, 0x0, 0x0⟩,  -- BEL_PKG_VACT
    ⟨0x10, [], 0x0, 0xFFFFFF, 0x0, 0x0, 0x0, 0x0, 0x0⟩,  -- BEL_PKG_OFS
    ⟨0x14, [], 0x780001, 0xFFFFFFFF, 0x0, 0x0, 0x0, 0x0, 0x0⟩,  -- BEL_PKG_RATE
    ⟨0x100, [(256, 4)], 0x0, 0x7F, 0x0, 0x0, 0x0, 0x0, 0x0⟩,  -- BEL_PORTp_CTRL
    ⟨0x104, [(256, 4)], 0x0, 0x0, 0xFFFF, 0x0, 0x0, 0x0, 0x0⟩,  -- BEL_PORTp_HTOTAL
    ⟨0x108, [(256, 4)], 0x0, 0x0, 0xFFFFFFFF, 0x0, 0x0, 0x0, 0x0⟩,  -- BEL_PORTp_HACT
    ⟨0x10C, [(256, 4)], 0x0, 0x0, 0xFFFFFFFF, 0x0, 0x0, 0x0, 0x0⟩,  -- BEL_PORTp_HSYNC
    ⟨0x110, [(256, 4)], 0x0, 0x0, 0xFFFFFFFF, 0x0, 0x0, 0x0, 0x0⟩,  -- BEL_PORTp_VSYNC
    ⟨0x114, [(256, 4)], 0x0, 0x0, 0xFFFF, 0x0, 0x0, 0x0, 0x0⟩,  -- BEL_PORTp_DOTOFS
    ⟨0x118, [(256, 4)], 0x0, 0x0, 0x0, 0xE00, 0x0, 0x0, 0x0⟩,  -- BEL_PORTp_STAT
    ⟨0x11C, [(256, 4)], 0x0, 0x0, 0x0, 0x0, 0x0, 0x0, 0x0⟩,  -- BEL_PORTp_FREQ
    ⟨0x18, [], 0x0, 0x0, 0x0, 0xF80, 0x0, 0x0, 0x0⟩,  -- BEL_PKG_STAT
    ⟨0x1C, [], 0x0, 0x0, 0x0, 0x0, 0x0, 0x0, 0x0⟩,  -- BEL_PKG_ERR
    ⟨0x20, [], 0x0, 0x0, 0x0, 0x0, 0x0, 0x0, 0x0⟩,  -- BEL_PKG_RATEEST
    ⟨0x24, [], 0x0, 0x0, 0x0, 0x0, 0x0, 0x0, 0x0⟩,  -- BEL_PKG_SLIPS
    ⟨0x120, [(256, 4), (4, 4)], 0x0, 0xFFFFFFFF, 0x0, 0x0, 0x0, 0x0, 0x0⟩,  -- BEL_PORTp_MATCHk
    ⟨0x130, [(256, 4)], 0x0, 0xFF, 0x0, 0x0, 0x0, 0x0, 0x0⟩,  -- BEL_PORTp_MCTRL
    ⟨0x134, [(256, 4)], 0x0, 0x0, 0x0, 0x7FF, 0x0, 0x0, 0x0⟩,  -- BEL_PORTp_EVT
    ⟨0x138, [(256, 4)], 0x0, 0x7FF, 0x0, 0x0, 0x0, 0x0, 0x0⟩,  -- BEL_PORTp_IRQEN
    ⟨0x30, [], 0x0, 0x0, 0x0, 0x7FF, 0x0, 0x0, 0x0⟩,  -- BEL_PKG_EVT
    ⟨0x34, [], 0x0, 0x7FF, 0x0, 0x0, 0x0, 0x0, 0x0⟩,  -- BEL_PKG_IRQEN
    ⟨0x28, [], 0x0, 0xFFFFFFFF, 0x0, 0x0, 0x0, 0x0, 0x0⟩  -- BEL_PKG_FMATCH_LO
  ] ++
  [
    ⟨0x2C, [], 0x0, 0x1FFFF, 0x0, 0x0, 0x0, 0x0, 0x0⟩,  -- BEL_PKG_FMATCH_HI
    ⟨0x40, [], 0x0, 0x0, 0x0, 0x0, 0x0, 0x0, 0x0⟩,  -- BEL_PKG_DL
    ⟨0x50, [], 0x0, 0x0, 0x0, 0x0, 0x0, 0x0, 0x0⟩,  -- BEL_PKG_RAW_DL
    ⟨0x140, [(256, 4)], 0x0, 0x0, 0x0, 0x0, 0x0, 0x0, 0x0⟩,  -- BEL_PORTp_DL
    ⟨0x150, [(256, 4)], 0x0, 0x0, 0x0, 0x0, 0x0, 0x0, 0x0⟩,  -- BEL_PORTp_RAW_DL
    ⟨0x44, [], 0x0, 0x0, 0x0, 0x0, 0x0, 0x0, 0x0⟩,  -- BEL_PKG_FLM
    ⟨0x54, [], 0x0, 0x0, 0x0, 0x0, 0x0, 0x0, 0x0⟩,  -- BEL_PKG_RAW_FLM
    ⟨0x144, [(256, 4)], 0x0, 0x0, 0x0, 0x0, 0x0, 0x0, 0x0⟩,  -- BEL_PORTp_FLM
    ⟨0x154, [(256, 4)], 0x0, 0x0, 0x0, 0x0, 0x0, 0x0, 0x0⟩,  -- BEL_PORTp_RAW_FLM
    ⟨0x48, [], 0x0, 0x0, 0x0, 0x0, 0x0, 0x0, 0x0⟩,  -- BEL_PKG_FH
    ⟨0x58, [], 0x0, 0x0, 0x0, 0x0, 0x0, 0x0, 0x0⟩,  -- BEL_PKG_RAW_FH
    ⟨0x148, [(256, 4)], 0x0, 0x0, 0x0, 0x0, 0x0, 0x0, 0x0⟩,  -- BEL_PORTp_FH
    ⟨0x158, [(256, 4)], 0x0, 0x0, 0x0, 0x0, 0x0, 0x0, 0x0⟩  -- BEL_PORTp_RAW_FH
  ]

/-- Rows of the STK_ block of a billet window. -/
def rowsStk : List RegRow :=
  [
    ⟨0x8000, [(64, 4)], 0x0, 0x1F00, 0x1, 0x0, 0x2, 0x0, 0x0⟩,  -- STK_PORTp_CTRL
    ⟨0x8004, [(64, 4)], 0x0, 0x1FFF1FFF, 0x0, 0x0, 0x0, 0x0, 0x0⟩,  -- STK_PORTp_COUNT
    ⟨0x8008, [(64, 4)], 0x0, 0x13FFF, 0x0, 0x0, 0x0, 0x0, 0x0⟩,  -- STK_PORTp_ACC
    ⟨0x800C, [(64, 4)], 0x0, 0xFFFFFFFF, 0x0, 0x0, 0x0, 0x0, 0x0⟩,  -- STK_PORTp_DATA
    ⟨0x8010, [(64, 4)], 0x0, 0x0, 0x0, 0x1F, 0x0, 0x0, 0x0⟩,  -- STK_PORTp_STAT
    ⟨0x8014, [(64, 4)], 0x0, 0x0, 0x0, 0x0, 0x0, 0x0, 0x0⟩,  -- STK_PORTp_OVR_CNT
    ⟨0x8018, [(64, 4)], 0x0, 0x0, 0x0, 0x0, 0x0, 0x0, 0x0⟩,  -- STK_PORTp_SKIP_CNT
    ⟨0x801C, [(64, 4)], 0x0, 0x0, 0x0, 0x0, 0x0, 0x0, 0x0⟩,  -- STK_PORTp_LOAD
    ⟨0x8020, [(64, 4)], 0x0, 0x0, 0x0, 0x0, 0x0, 0x0, 0x0⟩,  -- STK_PORTp_ERR
    ⟨0x8400, [(16, 16)], 0x0, 0xD00FFFFF, 0x0, 0x0, 0x20000000, 0x0, 0x0⟩,  -- STK_RFXk_CTRL
    ⟨0x8404, [(16, 16)], 0x0, 0xFFFFFFFF, 0x0, 0x0, 0x0, 0x0, 0x0⟩,  -- STK_RFXk_VALUE
    ⟨0x8408, [(16, 16)], 0x0, 0x0, 0x0, 0x0, 0x0, 0x0, 0x0⟩,  -- STK_RFXk_CNT
    ⟨0x8500, [], 0x0, 0x0, 0x0, 0xFFFFFFFF, 0x0, 0x0, 0x0⟩  -- STK_RFX_STAT
  ]

/-- Rows of the ANV_ block of a billet window. -/
def rowsAnv : List RegRow :=
  [
    ⟨0x10000, [(128, 8)], 0x0, 0xFFF3B, 0x0, 0x0, 0x0, 0x0, 0x0⟩,  -- ANV_Gn_CTRL
    ⟨0x10004, [(128, 8)], 0x0, 0x3F0F77, 0x0, 0x0, 0x0, 0x0, 0x0⟩,  -- ANV_Gn_GEOM
    ⟨0x10008, [(128, 8)], 0x0, 0xFFFFFFC0, 0x0, 0x0, 0x0, 0x0, 0x0⟩,  -- ANV_Gn_MAPBASE
    ⟨0x1000C, [(128, 8)], 0x0, 0xFFFFFFC0, 0x0, 0x0, 0x0, 0x0, 0x0⟩,  -- ANV_Gn_DBASE
    ⟨0x10010, [(128, 8)], 0x0, 0x7FFFFFFF, 0x0, 0x0, 0x0, 0x0, 0x0⟩,  -- ANV_Gn_BMPSIZE
    ⟨0x10014, [(128, 8)], 0x0, 0x3FFF, 0x0, 0x0, 0x0, 0x0, 0x0⟩,  -- ANV_Gn_STRIDE
    ⟨0x10018, [(128, 8)], 0x0, 0x1FFFF, 0x0, 0x0, 0x0, 0x0, 0x0⟩,  -- ANV_Gn_HSCROLL
    ⟨0x1001C, [(128, 8)], 0x0, 0x7FFF, 0x0, 0x0, 0x0, 0x0, 0x0⟩,  -- ANV_Gn_VSCROLL
    ⟨0x10020, [(128, 8)], 0x0, 0xFFFFFFFC, 0x0, 0x0, 0x0, 0x0, 0x0⟩,  -- ANV_Gn_LSBASE
    ⟨0x10024, [(128, 8)], 0x0, 0xFFFFFFFC, 0x0, 0x0, 0x0, 0x0, 0x0⟩,  -- ANV_Gn_CSBASE
    ⟨0x10028, [(128, 8)], 0x30, 0x77, 0x0, 0x0, 0x0, 0x0, 0x0⟩,  -- ANV_Gn_SCRCFG
    ⟨0x1002C, [(128, 8)], 0x0, 0xF0F, 0x0, 0x0, 0x0, 0x0, 0x0⟩,  -- ANV_Gn_MOSAIC
    ⟨0x10030, [(128, 8)], 0x0, 0xFFFFFFFF, 0x0, 0x0, 0x0, 0x0, 0x0⟩,  -- ANV_Gn_FALLBACK
    ⟨0x10034, [(128, 8)], 0x0, 0x0, 0x0, 0x0, 0x0, 0x0, 0x0⟩,  -- ANV_Gn_COST
    ⟨0x10038, [(128, 8)], 0x0, 0x0, 0x0, 0x7, 0x0, 0x0, 0x0⟩,  -- ANV_Gn_STAT
    ⟨0x1003C, [(128, 8)], 0x0, 0x0, 0x0, 0x0, 0x0, 0x0, 0x0⟩,  -- ANV_Gn_UNDER
    ⟨0x10400, [], 0x1, 0x1, 0x0, 0x0, 0x2, 0x0, 0x0⟩,  -- ANV_PCACHE_CTRL
    ⟨0x10404, [], 0x0, 0x0, 0x0, 0x0, 0x0, 0x0, 0x0⟩,  -- ANV_PCACHE_HIT
    ⟨0x10408, [], 0x0, 0x0, 0x0, 0x0, 0x0, 0x0, 0x0⟩,  -- ANV_PCACHE_MISS
    ⟨0x1040C, [], 0x0, 0x77777777, 0x0, 0x0, 0x0, 0x0, 0x0⟩  -- ANV_IRQEN
  ]

/-- Rows of the SPR_ block of a billet window. -/
def rowsSpr : List RegRow :=
  [
    ⟨0x18000, [], 0x0, 0x3, 0x0, 0x0, 0x0, 0x0, 0x0⟩,  -- SPR_CTRL
    ⟨0x18004, [], 0x1000200, 0x1FF03FF, 0x0, 0x0, 0x0, 0x0, 0x0⟩,  -- SPR_LIMIT
    ⟨0x18008, [], 0x0, 0xFFFFFFFF, 0x0, 0x0, 0x0, 0x0, 0x0⟩,  -- SPR_FALLBACK
    ⟨0x1800C, [], 0x0, 0x0, 0x0, 0x1FF, 0x0, 0x0, 0x0⟩,  -- SPR_STAT
    ⟨0x18010, [], 0x0, 0x1FF, 0x0, 0x0, 0x0, 0x0, 0x0⟩,  -- SPR_IRQEN
    ⟨0x18014, [], 0x0, 0x0, 0x0, 0x0, 0x0, 0x0, 0x0⟩,  -- SPR_DROP_CNT
    ⟨0x18018, [], 0x0, 0x0, 0x0, 0x0, 0x0, 0x0, 0x0⟩,  -- SPR_TRUNC_CNT
    ⟨0x1801C, [], 0x0, 0x0, 0x0, 0x0, 0x0, 0x0, 0x0⟩,  -- SPR_UNDER
    ⟨0x18020, [], 0x0, 0x0, 0x0, 0x0, 0x0, 0x0, 0x0⟩,  -- SPR_COST
    ⟨0x18024, [], 0x0, 0x0, 0x0, 0x0, 0x0, 0x0, 0x0⟩,  -- SPR_LOAD
    ⟨0x18028, [], 0x0, 0x0, 0x0, 0x0, 0x0, 0x0, 0x0⟩,  -- SPR_PEAK
    ⟨0x18030, [], 0x0, 0x0, 0x0, 0x0, 0x0, 0x0, 0x0⟩,  -- SPR_COLL_CNT
    ⟨0x18034, [], 0x0, 0x0, 0x0, 0x0, 0x0, 0x0, 0x0⟩,  -- SPR_COLL_OVF
    ⟨0x18038, [], 0x0, 0x0, 0x0, 0x0, 0x0, 0x0, 0x0⟩,  -- SPR_COLL_FRM_LO
    ⟨0x1803C, [], 0x0, 0x0, 0x0, 0x0, 0x0, 0x0, 0x0⟩,  -- SPR_COLL_FRM_HI
    ⟨0x18040, [], 0x0, 0x0, 0x0, 0x0, 0x0, 0x0, 0x0⟩,  -- SPR_GHIT_LO
    ⟨0x18044, [], 0x0, 0x0, 0x0, 0x0, 0x0, 0x0, 0x0⟩,  -- SPR_GHIT_HI
    ⟨0x18800, [(8, 64)], 0x0, 0xFFFFFFFF, 0x0, 0x0, 0x0, 0x0, 0x0⟩,  -- SPR_CMATg_LO
    ⟨0x18804, [(8, 64)], 0x0, 0xFFFFFFFF, 0x0, 0x0, 0x0, 0x0, 0x0⟩,  -- SPR_CMATg_HI
    ⟨0x19000, [(8, 256)], 0x0, 0x0, 0x0, 0x0, 0x0, 0x0, 0x0⟩,  -- SPR_COLLTABi_PAIR
    ⟨0x19004, [(8, 256)], 0x0, 0x0, 0x0, 0x0, 0x0, 0x0, 0x0⟩  -- SPR_COLLTABi_POS
  ]

/-- Rows of the VID_ block of a billet window. -/
def rowsVid : List RegRow :=
  [
    ⟨0x20000, [(256, 4)], 0x0, 0xFF0FFFFF, 0x0, 0x0, 0x0, 0x0, 0x0⟩,  -- VID_Vn_CTRL
    ⟨0x20004, [(256, 4)], 0x0, 0x7FFFFFFF, 0x0, 0x0, 0x0, 0x0, 0x0⟩,  -- VID_Vn_SRCSIZE
    ⟨0x20008, [(256, 4)], 0x0, 0x3FFF, 0x0, 0x0, 0x0, 0x0, 0x0⟩,  -- VID_Vn_STRIDE
    ⟨0x2000C, [(256, 4)], 0x0, 0xFFFFFFFF, 0x0, 0x0, 0x0, 0x0, 0x0⟩,  -- VID_Vn_DSTPOS
    ⟨0x20010, [(256, 4)], 0x0, 0xFFFFFFFF, 0x0, 0x0, 0x0, 0x0, 0x0⟩,  -- VID_Vn_DSTSIZE
    ⟨0x20014, [(256, 4)], 0x10000, 0xFFFFF, 0x0, 0x0, 0x0, 0x0, 0x0⟩,  -- VID_Vn_HSTEP
    ⟨0x20018, [(256, 4)], 0x10000, 0xFFFFF, 0x0, 0x0, 0x0, 0x0, 0x0⟩,  -- VID_Vn_VSTEP
    ⟨0x2001C, [(256, 4)], 0x0, 0xFFFFFFFF, 0x0, 0x0, 0x0, 0x0, 0x0⟩,  -- VID_Vn_HINIT
    ⟨0x20020, [(256, 4)], 0x0, 0xFFFFFFFF, 0x0, 0x0, 0x0, 0x0, 0x0⟩,  -- VID_Vn_VINIT
    ⟨0x20024, [(256, 4)], 0xFF, 0x3FF, 0x0, 0x0, 0x0, 0x0, 0x0⟩,  -- VID_Vn_BLEND
    ⟨0x20028, [(256, 4)], 0x0, 0xFFFFFFFF, 0x0, 0x0, 0x0, 0x0, 0x0⟩,  -- VID_Vn_FALLBACK
    ⟨0x20030, [(256, 4), (4, 4)], 0x0, 0xFFFFFFC0, 0x0, 0x0, 0x0, 0x0, 0x0⟩,  -- VID_Vn_BUFk_BASE
    ⟨0x20040, [(256, 4)], 0x0, 0xFFFF0003, 0x0, 0x0, 0x0, 0x0, 0x0⟩,  -- VID_Vn_HANDOFF
    ⟨0x20044, [(256, 4)], 0x100, 0x0, 0x0, 0x0, 0x0, 0x0, 0x0⟩,  -- VID_Vn_BUFSTAT
    ⟨0x20048, [(256, 4)], 0x0, 0x0, 0x0, 0xFF, 0x0, 0x0, 0x0⟩,  -- VID_Vn_STAT
    ⟨0x2004C, [(256, 4)], 0x0, 0x0, 0x0, 0x0, 0x0, 0x0, 0x0⟩,  -- VID_Vn_UNDER
    ⟨0x20050, [(256, 4)], 0x0, 0x0, 0x0, 0x0, 0x0, 0x0, 0x0⟩,  -- VID_Vn_COST
    ⟨0x20054, [(256, 4)], 0x0, 0x0, 0x0, 0x0, 0x0, 0x0, 0x0⟩,  -- VID_Vn_STORE
    ⟨0x20060, [(256, 4)], 0x0, 0x0, 0x0, 0x0, 0x0, 0x0, 0x0⟩,  -- VID_Vn_RING
    ⟨0x20058, [(256, 4)], 0x0, 0x0, 0x0, 0x0, 0x0, 0x0, 0x0⟩,  -- VID_Vn_CNT
    ⟨0x2005C, [(256, 4)], 0x0, 0x0, 0x0, 0x0, 0x0, 0x0, 0x0⟩,  -- VID_Vn_CT_MARGIN
    ⟨0x20400, [], 0x0, 0xFFFFFFFF, 0x0, 0x0, 0x0, 0x0, 0x0⟩,  -- VID_IRQEN
    ⟨0x24000, [(4096, 4), (2048, 2), (16, 64), (4, 4)], 0x0, 0x3FF03FF, 0x0, 0x0, 0x0, 0x0, 0x0⟩,  -- VID_Vn_COEFbH
    ⟨0x24400, [(4096, 4), (2048, 2), (12, 64), (4, 3)], 0x0, 0x3FF03FF, 0x0, 0x0, 0x0, 0x0, 0x0⟩  -- VID_Vn_COEFbV
  ]

/-- Rows of the CMP_ block of a billet window. -/
def rowsCmp : List RegRow :=
  [
    ⟨0x30000, [], 0x0, 0x0, 0x1FFFF, 0x0, 0x0, 0x0, 0x0⟩,  -- CMP_BAND_X0
    ⟨0x30004, [], 0x0, 0x0, 0x1FFF, 0x0, 0x0, 0x0, 0x0⟩,  -- CMP_BAND_W
    ⟨0x3000C, [], 0x0, 0x0, 0x0, 0x0, 0x0, 0x0, 0x0⟩,  -- CMP_BAND_STAT
    ⟨0x30010, [(4, 4)], 0x0, 0x0, 0x1FFF1FFF, 0x0, 0x0, 0x0, 0x0⟩,  -- CMP_PORT_SPANp
    ⟨0x30800, [(64, 4)], 0x20080200, 0x3FFFFFFF, 0x0, 0x0, 0x0, 0x0, 0x0⟩,  -- CMP_PORTp_LGAIN
    ⟨0x30804, [(64, 4)], 0x0, 0xBFFFFFFF, 0x0, 0x0, 0x0, 0x0, 0x0⟩,  -- CMP_PORTp_LFORCE
    ⟨0x30808, [(64, 4)], 0xFFFF0000, 0xFFFFFFFF, 0x0, 0x0, 0x0, 0x0, 0x0⟩,  -- CMP_PORTp_LWIN
    ⟨0x3080C, [(64, 4)], 0x0, 0x3, 0x0, 0x0, 0x0, 0x0, 0x0⟩,  -- CMP_PORTp_LMODE
    ⟨0x30020, [], 0x0, 0x7F7F7F7F, 0x0, 0x0, 0x0, 0x0, 0x0⟩,  -- CMP_IRQEN
    ⟨0x30030, [], 0x0, 0xF, 0x0, 0x100, 0x0, 0x0, 0x0⟩,  -- CMP_LPP_CTRL
    ⟨0x30100, [(256, 4), (4, 8)], 0x0, 0xFF0FFF0F, 0x0, 0x0, 0x0, 0x0, 0x0⟩,  -- CMP_PORTp_PLISTk
    ⟨0x30120, [(256, 4)], 0x0, 0x3FFFFFFF, 0x0, 0x0, 0x0, 0x0, 0x0⟩,  -- CMP_PORTp_BG
    ⟨0x30124, [(256, 4)], 0x0, 0xFFFFFFFF, 0x0, 0x0, 0x0, 0x0, 0x0⟩,  -- CMP_PORTp_KEY
    ⟨0x30128, [(256, 4)], 0x0, 0x371, 0x0, 0x0, 0x0, 0x0, 0x0⟩,  -- CMP_PORTp_OCTRL
    ⟨0x3012C, [(256, 4)], 0x0, 0xEFFF0FFF, 0x0, 0x0, 0x0, 0x0, 0x0⟩,  -- CMP_PORTp_LUTW
    ⟨0x30130, [(256, 4)], 0x0, 0x33F, 0x0, 0x0, 0x0, 0x0, 0x0⟩,  -- CMP_PORTp_WBCTRL
    ⟨0x30134, [(256, 4)], 0x0, 0xFFFFFFC0, 0x0, 0x0, 0x0, 0x0, 0x0⟩,  -- CMP_PORTp_WBBASE
    ⟨0x30138, [(256, 4)], 0x0, 0xFFFF3FFF, 0x0, 0x0, 0x0, 0x0, 0x0⟩,  -- CMP_PORTp_WBPITCH
    ⟨0x3013C, [(256, 4)], 0x0, 0x0, 0x0, 0x0, 0x0, 0x0, 0x0⟩,  -- CMP_PORTp_WBSTAT
    ⟨0x30140, [(256, 4)], 0x0, 0x0, 0x0, 0x0, 0x0, 0x0, 0x0⟩,  -- CMP_PORTp_WBFRM
    ⟨0x30144, [(256, 4)], 0x10000, 0xFFFF0FFF, 0x0, 0x0, 0x0, 0x0, 0x0⟩,  -- CMP_PORTp_DARKCFG
    ⟨0x30148, [(256, 4)], 0x0, 0x0, 0x0, 0x0, 0x0, 0x0, 0x0⟩,  -- CMP_PORTp_LIT
    ⟨0x3014C, [(256, 4)], 0x0, 0x0, 0x0, 0x0, 0x0, 0x0, 0x0⟩,  -- CMP_PORTp_DARKCNT
    ⟨0x30150, [(256, 4)], 0x0, 0x0, 0x0, 0x1F, 0x0, 0x0, 0x0⟩,  -- CMP_PORTp_STAT
    ⟨0x30154, [(256, 4)], 0x0, 0x0, 0x0, 0x0, 0x0, 0x0, 0x0⟩  -- CMP_PORTp_UNDPIX
  ] ++
  [
    ⟨0x30158, [(256, 4)], 0x0, 0x0, 0x0, 0x0, 0x0, 0x0, 0x0⟩  -- CMP_PORTp_UNDPOS
  ]

/-- Rows of the HMR_ block of a billet window. -/
def rowsHmr : List RegRow :=
  [
    ⟨0x40000, [(4096, 16)], 0x8, 0x9, 0x0, 0x0, 0x6, 0x0, 0x0⟩,  -- HMR_Hh_CTRL
    ⟨0x40004, [(4096, 16)], 0x8010, 0x0, 0x0, 0x3F00, 0x0, 0x0, 0x0⟩,  -- HMR_Hh_STAT
    ⟨0x40008, [(4096, 16)], 0x0, 0x3FFF3FFF, 0x0, 0x0, 0x0, 0x0, 0x0⟩,  -- HMR_Hh_ENTRY
    ⟨0x4000C, [(4096, 16)], 0x200, 0x3FF, 0x0, 0x0, 0x0, 0x0, 0x0⟩,  -- HMR_Hh_PWIN
    ⟨0x40010, [(4096, 16)], 0x0, 0x7F, 0x0, 0x0, 0x0, 0x0, 0x0⟩,  -- HMR_Hh_HWIN
    ⟨0x40014, [(4096, 16)], 0x0, 0x33, 0x0, 0x0, 0x0, 0x0, 0x0⟩,  -- HMR_Hh_CFG
    ⟨0x40018, [(4096, 16)], 0xFFFF, 0xFFFF, 0x0, 0x0, 0x0, 0x0, 0x0⟩,  -- HMR_Hh_DEADLINE
    ⟨0x4001C, [(4096, 16)], 0x0, 0xFFFF, 0x0, 0x0, 0x0, 0x0, 0x0⟩,  -- HMR_Hh_TBASE
    ⟨0x40020, [(4096, 16), (4, 3)], 0x0, 0x3EFFF80, 0x0, 0x0, 0x0, 0x0, 0x0⟩,  -- HMR_Hh_FBWk
    ⟨0x4002C, [(4096, 16)], 0x0, 0x0, 0x0, 0x0, 0x0, 0x0, 0x0⟩,  -- HMR_Hh_TRAP
    ⟨0x40030, [(4096, 16)], 0x0, 0x3FFF, 0x0, 0x0, 0x0, 0x0, 0x0⟩,  -- HMR_Hh_PMADDR
    ⟨0x40034, [(4096, 16)], 0x0, 0x3FFF, 0x0, 0x0, 0x0, 0x0, 0x0⟩,  -- HMR_Hh_PMDATA
    ⟨0x40038, [(4096, 16)], 0x0, 0x1FFF, 0x0, 0x0, 0x0, 0x0, 0x0⟩,  -- HMR_Hh_DMADDR
    ⟨0x4003C, [(4096, 16)], 0x0, 0xFFFF, 0x0, 0x0, 0x0, 0x0, 0x0⟩,  -- HMR_Hh_DMDATA
    ⟨0x40040, [(4096, 16)], 0x0, 0x1F, 0x0, 0x0, 0x0, 0x0, 0x0⟩,  -- HMR_Hh_DBGSEL
    ⟨0x40044, [(4096, 16)], 0x0, 0xFFFF, 0x0, 0x0, 0x0, 0x0, 0x0⟩,  -- HMR_Hh_DBGDATA
    ⟨0x40048, [(4096, 16)], 0x0, 0x0, 0x0, 0x0, 0x0, 0x0, 0x0⟩,  -- HMR_Hh_PINERRCNT
    ⟨0x40050, [(4096, 16)], 0x0, 0x0, 0x0, 0x0, 0x0, 0x0, 0x0⟩,  -- HMR_Hh_CLAIM
    ⟨0x40054, [(4096, 16)], 0x0, 0x0, 0x0, 0x0, 0x0, 0x3FF, 0x0⟩,  -- HMR_Hh_COMPLETE
    ⟨0x40058, [(4096, 16)], 0x0, 0x0, 0x0, 0x0, 0x0, 0x0, 0x0⟩,  -- HMR_Hh_INSVC01
    ⟨0x40060, [(4096, 16)], 0x0, 0xFFFFFFFC, 0x0, 0x0, 0x0, 0x0, 0x0⟩,  -- HMR_Hh_IPRI0
    ⟨0x40064, [(4096, 16)], 0x0, 0xFFFFFFFF, 0x0, 0x0, 0x0, 0x0, 0x0⟩,  -- HMR_Hh_IPRI1
    ⟨0x40068, [(4096, 16)], 0x4, 0x0, 0x0, 0x10, 0x0, 0x0, 0x0⟩,  -- HMR_Hh_ISTAT
    ⟨0x4006C, [(4096, 16)], 0x0, 0x0, 0x0, 0xFFFFFFFE, 0x0, 0x0, 0x0⟩,  -- HMR_Hh_PPEND
    ⟨0x40070, [(4096, 16)], 0x0, 0xFFFFFFFE, 0x0, 0x0, 0x0, 0x0, 0x0⟩  -- HMR_Hh_PEN
  ] ++
  [
    ⟨0x4005C, [(4096, 16)], 0x0, 0x0, 0x0, 0x0, 0x0, 0x0, 0x0⟩  -- HMR_Hh_INSVC23
  ]

/-- Rows of the IC_ block of a billet window. -/
def rowsIc : List RegRow :=
  [
    ⟨0x50080, [(4, 992)], 0x0, 0xFC00070F, 0x0, 0x2000000, 0x0, 0x0, 0x0⟩,  -- IC_SRCi
    ⟨0x51000, [(4, 16)], 0x0, 0x0, 0x0, 0x0, 0xF, 0x0, 0x0⟩,  -- IC_PSETh
    ⟨0x51100, [(4, 16)], 0x0, 0x0, 0x0, 0x0, 0xFFFFFFFF, 0x0, 0x0⟩,  -- IC_SWSETj
    ⟨0x51140, [(4, 16)], 0x0, 0x0, 0x0, 0xFFFFFFFF, 0x0, 0x0, 0x0⟩,  -- IC_SWCLRj
    ⟨0x51200, [], 0x0, 0x0, 0x0, 0x0, 0x0, 0x0, 0x0⟩,  -- IC_LOSTCNT
    ⟨0x51204, [], 0x0, 0x0, 0x0, 0x0, 0x0, 0x0, 0x0⟩  -- IC_LOSTID
  ]

/-- Rows of the SWG_ block of a billet window. -/
def rowsSwg : List RegRow :=
  [
    ⟨0x60000, [(256, 2)], 0x0, 0xFFFF37, 0x0, 0x0, 0xC0000000, 0x0, 0x0⟩,  -- SWG_u_CMD
    ⟨0x60004, [(256, 2)], 0x0, 0xFFFFFFC0, 0x0, 0x0, 0x0, 0x0, 0x0⟩,  -- SWG_u_DBASE
    ⟨0x6000C, [(256, 2)], 0x0, 0x3FFF3FFF, 0x0, 0x0, 0x0, 0x0, 0x0⟩,  -- SWG_u_PITCH
    ⟨0x60010, [(256, 2)], 0x0, 0xFFFFFFFF, 0x0, 0x0, 0x0, 0x0, 0x0⟩,  -- SWG_u_DPOS
    ⟨0x60018, [(256, 2)], 0x0, 0xFFFFFFFF, 0x0, 0x0, 0x0, 0x0, 0x0⟩,  -- SWG_u_SIZE
    ⟨0x6001C, [(256, 2)], 0x0, 0xFFFFFFFF, 0x0, 0x0, 0x0, 0x0, 0x0⟩,  -- SWG_u_FG
    ⟨0x60028, [(256, 2)], 0x0, 0xFFFFFFFF, 0x0, 0x0, 0x0, 0x0, 0x0⟩,  -- SWG_u_PATLO
    ⟨0x60030, [(256, 2)], 0xFFFF, 0x9F00FFFF, 0x0, 0x0, 0x0, 0x0, 0x0⟩,  -- SWG_u_SYNC
    ⟨0x60034, [(256, 2)], 0x0, 0x1FFFF, 0x0, 0x0, 0x0, 0x0, 0x0⟩,  -- SWG_u_WMK
    ⟨0x60038, [(256, 2)], 0x0, 0xFF, 0x0, 0x0, 0x0, 0x0, 0x0⟩,  -- SWG_u_CLIPCTL
    ⟨0x60040, [(256, 2), (8, 4)], 0x0, 0xFFFFFFFF, 0x0, 0x0, 0x0, 0x0, 0x0⟩,  -- SWG_u_CLIPk_TL
    ⟨0x60060, [(256, 2)], 0x0, 0xFFFFFFC0, 0x0, 0x0, 0x0, 0x0, 0x0⟩,  -- SWG_u_FBASE
    ⟨0x60064, [(256, 2)], 0x0, 0xBFFF00FF, 0x0, 0x0, 0x0, 0x0, 0x0⟩,  -- SWG_u_FCFG
    ⟨0x60068, [(256, 2)], 0x0, 0xFFFFFFFF, 0x0, 0x0, 0x0, 0x0, 0x0⟩,  -- SWG_u_FMAP
    ⟨0x60070, [(256, 2)], 0x0, 0x0, 0x0, 0xFF, 0x0, 0x0, 0x0⟩,  -- SWG_u_STAT
    ⟨0x60074, [(256, 2)], 0x0, 0xFF, 0x0, 0x0, 0x0, 0x0, 0x0⟩,  -- SWG_u_IRQEN
    ⟨0x60078, [(256, 2)], 0x0, 0x0, 0x0, 0x0, 0x0, 0x0, 0x0⟩,  -- SWG_u_PERF
    ⟨0x6007C, [(256, 2)], 0x0, 0x0, 0x0, 0x0, 0x0, 0x0, 0x0⟩,  -- SWG_u_DONEPOS
    ⟨0x60008, [(256, 2)], 0x0, 0xFFFFFFC0, 0x0, 0x0, 0x0, 0x0, 0x0⟩,  -- SWG_u_SBASE
    ⟨0x60014, [(256, 2)], 0x0, 0xFFFFFFFF, 0x0, 0x0, 0x0, 0x0, 0x0⟩,  -- SWG_u_SPOS
    ⟨0x60020, [(256, 2)], 0x0, 0xFFFFFFFF, 0x0, 0x0, 0x0, 0x0, 0x0⟩,  -- SWG_u_BG
    ⟨0x60024, [(256, 2)], 0x0, 0xFFFFFFFF, 0x0, 0x0, 0x0, 0x0, 0x0⟩,  -- SWG_u_KEY
    ⟨0x6002C, [(256, 2)], 0x0, 0xFFFFFFFF, 0x0, 0x0, 0x0, 0x0, 0x0⟩,  -- SWG_u_PATHI
    ⟨0x60044, [(256, 2), (8, 4)], 0x0, 0xFFFFFFFF, 0x0, 0x0, 0x0, 0x0, 0x0⟩  -- SWG_u_CLIPk_BR
  ]

/-- Rows of the TNG_ block of a billet window. -/
def rowsTng : List RegRow :=
  [
    ⟨0x68000, [(32, 32)], 0x0, 0x7F00F1, 0x0, 0x0, 0x6, 0x0, 0x0⟩,  -- TNG_CHc_CTRL
    ⟨0x68004, [(32, 32)], 0x0, 0xFFFF077F, 0x0, 0x0, 0x0, 0x0, 0x0⟩,  -- TNG_CHc_TRIG
    ⟨0x68008, [(32, 32)], 0x0, 0x1FFFE0, 0x0, 0x0, 0x0, 0x0, 0x0⟩,  -- TNG_CHc_DESC
    ⟨0x6800C, [(32, 32)], 0x0, 0x0, 0x0, 0x7F, 0x0, 0x0, 0x0⟩,  -- TNG_CHc_STAT
    ⟨0x68010, [(32, 32)], 0x0, 0x0, 0x0, 0x0, 0x0, 0x0, 0x0⟩,  -- TNG_CHc_CUR
    ⟨0x68014, [(32, 32)], 0x0, 0x0, 0x0, 0x0, 0x0, 0x0, 0x0⟩,  -- TNG_CHc_REM
    ⟨0x68018, [(32, 32)], 0x0, 0x0, 0x0, 0x0, 0x0, 0x0, 0x0⟩,  -- TNG_CHc_RUNCHK
    ⟨0x6801C, [(32, 32)], 0x0, 0x0, 0x0, 0x0, 0x0, 0x0, 0x0⟩  -- TNG_CHc_CNT
  ]

/-- Rows of the MEM_, ARB_ block of a billet window. -/
def rowsMem : List RegRow :=
  [
    ⟨0x70000, [], 0x10, 0x11F, 0x0, 0x0, 0x80000000, 0x0, 0x0⟩,  -- MEM_CFG
    ⟨0x70004, [], 0x0, 0x0, 0x0, 0x0, 0x0, 0x0, 0x0⟩,  -- MEM_STAT
    ⟨0x70008, [], 0x0, 0x80FFFFFF, 0x0, 0x0, 0x0, 0x0, 0x0⟩,  -- MEM_RETRAIN
    ⟨0x7000C, [], 0x0, 0x0, 0x0, 0x0, 0x0, 0x0, 0x0⟩,  -- MEM_ECCCNT
    ⟨0x70010, [], 0x0, 0x0, 0x0, 0x0, 0x0, 0x0, 0x0⟩,  -- MEM_ECCADDR
    ⟨0x70014, [], 0x0, 0x0, 0x0, 0xF, 0x0, 0x0, 0x0⟩,  -- MEM_EVT
    ⟨0x7001C, [], 0x0, 0x80000000, 0x0, 0x0, 0x0, 0x0, 0x0⟩,  -- MEM_SCRUB
    ⟨0x70020, [], 0x0, 0x0, 0x0, 0x0, 0x0, 0x0, 0x0⟩,  -- MEM_EDCCNT
    ⟨0x70800, [], 0x4040, 0x40007F7F, 0x0, 0x0, 0x80000000, 0x0, 0x0⟩,  -- ARB_CTRL
    ⟨0x70804, [], 0x0, 0xFFE, 0x0, 0x0, 0x0, 0x0, 0x0⟩,  -- ARB_FREEZE
    ⟨0x70840, [(4, 8)], 0xFFFFFFFF, 0xFFFFFFFF, 0x0, 0x0, 0x0, 0x0, 0x0⟩,  -- ARB_SLOTA_j
    ⟨0x70880, [(4, 4)], 0x0, 0x0, 0x0, 0x0, 0x0, 0x0, 0x0⟩,  -- ARB_BUDGETc
    ⟨0x708A0, [], 0xC0, 0x3FF, 0x0, 0x0, 0x0, 0x0, 0x0⟩,  -- ARB_TAG
    ⟨0x708A4, [], 0x0, 0x0, 0x0, 0x0, 0x0, 0x0, 0x0⟩,  -- ARB_STALL
    ⟨0x708A8, [], 0x0, 0x0, 0x0, 0x0, 0x0, 0x0, 0x0⟩,  -- ARB_OVER
    ⟨0x708C0, [], 0xFFFFFFFF, 0x0, 0x0, 0x0, 0x0, 0x0, 0x0⟩,  -- ARB_HINT0
    ⟨0x708D0, [], 0x0, 0x0, 0x0, 0xF, 0x0, 0x0, 0x0⟩,  -- ARB_EVT
    ⟨0x70018, [], 0x0, 0xF, 0x0, 0x0, 0x0, 0x0, 0x0⟩,  -- MEM_IRQEN
    ⟨0x70860, [(4, 8)], 0xFFFFFFFF, 0xFFFFFFFF, 0x0, 0x0, 0x0, 0x0, 0x0⟩,  -- ARB_SLOTB_j
    ⟨0x708C4, [], 0xFFFFFFFF, 0x0, 0x0, 0x0, 0x0, 0x0, 0x0⟩,  -- ARB_HINT1
    ⟨0x708D4, [], 0x0, 0xF, 0x0, 0x0, 0x0, 0x0, 0x0⟩  -- ARB_IRQEN
  ]

/-- Rows of the FLX_ block of a billet window. -/
def rowsFlx : List RegRow :=
  [
    ⟨0x80F00, [], 0x0, 0x0, 0x0, 0x0, 0x0, 0x0, 0x0⟩,  -- FLX_CMT_LATE
    ⟨0x80F04, [], 0x0, 0x0, 0x0, 0x0, 0x0, 0x0, 0x0⟩,  -- FLX_CMT_OVF
    ⟨0x80F08, [], 0x0, 0x0, 0x0, 0x3, 0x0, 0x0, 0x0⟩,  -- FLX_CMT_EVT
    ⟨0x80F40, [(4, 17)], 0x0, 0xFFFF0003, 0x0, 0x4, 0x0, 0x0, 0x0⟩,  -- FLX_CMT_CTXk
    ⟨0x80000, [], 0x0, 0x0, 0x0, 0x0, 0x0, 0x0, 0x0⟩,  -- FLX_TXN
    ⟨0x80004, [], 0x0, 0x0, 0x0, 0x0, 0x0, 0x0, 0x0⟩,  -- FLX_STALL
    ⟨0x80010, [], 0x0, 0x0, 0x0, 0x7, 0x0, 0x0, 0x0⟩,  -- FLX_EVT
    ⟨0x80008, [], 0x0, 0x0, 0x0, 0x0, 0x0, 0x0, 0x0⟩,  -- FLX_LATERSP
    ⟨0x8000C, [], 0x0, 0x0, 0x0, 0x0, 0x0, 0x0, 0x0⟩,  -- FLX_POISON
    ⟨0x80014, [], 0x0, 0x7, 0x0, 0x0, 0x0, 0x0, 0x0⟩  -- FLX_IRQEN
  ]

/-- Rows of the LNK_ block of a billet window. -/
def rowsLnk : List RegRow :=
  [
    ⟨0x90000, [(64, 4)], 0x0, 0x37F, 0x0, 0x0, 0x0, 0x0, 0x0⟩,  -- LNK_Ll_CTRL
    ⟨0x90004, [(64, 4)], 0x0, 0x0, 0x0, 0xF00, 0x0, 0x0, 0x0⟩,  -- LNK_Ll_STAT
    ⟨0x91000, [(64, 16)], 0x0, 0xFFDFE3FF, 0x0, 0x0, 0x0, 0x0, 0x0⟩,  -- LNK_RXFf_CTRL
    ⟨0x91004, [(64, 16)], 0x0, 0xFFFFF3FF, 0x0, 0x0, 0x0, 0x0, 0x0⟩,  -- LNK_RXFf_SETA
    ⟨0x91010, [(64, 16)], 0x0, 0x0, 0x0, 0x7F, 0x0, 0x0, 0x0⟩,  -- LNK_RXFf_STAT
    ⟨0x92000, [(64, 4)], 0x0, 0xFBFFFFE0, 0x0, 0x0, 0x0, 0x0, 0x0⟩,  -- LNK_TXPp_CTRL
    ⟨0x92004, [(64, 4)], 0x0, 0xFFFF7FFF, 0x0, 0x0, 0x0, 0x0, 0x0⟩,  -- LNK_TXPp_ADDRA
    ⟨0x92010, [(64, 4)], 0x0, 0xFFFF1FFF, 0x0, 0x0, 0x0, 0x0, 0x0⟩,  -- LNK_TXPp_PKT
    ⟨0x9201C, [(64, 4)], 0x0, 0x0, 0x0, 0x1F, 0x0, 0x0, 0x0⟩,  -- LNK_TXPp_STAT
    ⟨0x93000, [], 0x0, 0x3FF000F, 0x0, 0x0, 0x0, 0x0, 0x0⟩,  -- LNK_FWRX_CFG
    ⟨0x93004, [], 0x0, 0x1FF, 0x0, 0x0, 0x0, 0x0, 0x0⟩,  -- LNK_FWRX_PTR
    ⟨0x93014, [], 0x0, 0x0, 0x0, 0xF, 0x0, 0x0, 0x0⟩,  -- LNK_FWEVT
    ⟨0x93800, [], 0x7F0D00, 0xC0FF0F7F, 0x0, 0x0, 0x20000000, 0x0, 0x0⟩,  -- LNK_PTP_CTRL
    ⟨0x9381C, [], 0x0, 0x0, 0x0, 0xF00, 0x0, 0x0, 0x0⟩,  -- LNK_PTP_STAT
    ⟨0x90008, [(64, 4)], 0x0, 0xF00, 0x0, 0x0, 0x0, 0x0, 0x0⟩,  -- LNK_Ll_IRQEN
    ⟨0x9000C, [(64, 4)], 0x0, 0xFFFFFFFF, 0x0, 0x0, 0x0, 0x0, 0x0⟩,  -- LNK_Ll_MACLO
    ⟨0x90010, [(64, 4)], 0x0, 0xFFFF, 0x0, 0x0, 0x0, 0x0, 0x0⟩,  -- LNK_Ll_MACHI
    ⟨0x90014, [(64, 4)], 0x0, 0x0, 0x0, 0x0, 0x0, 0x0, 0x0⟩,  -- LNK_Ll_RXFRM
    ⟨0x90018, [(64, 4)], 0x0, 0x0, 0x0, 0x0, 0x0, 0x0, 0x0⟩,  -- LNK_Ll_RXERR
    ⟨0x9001C, [(64, 4)], 0x0, 0x0, 0x0, 0x0, 0x0, 0x0, 0x0⟩,  -- LNK_Ll_RXDROP
    ⟨0x90020, [(64, 4)], 0x0, 0x0, 0x0, 0x0, 0x0, 0x0, 0x0⟩,  -- LNK_Ll_TXFRM
    ⟨0x90024, [(64, 4)], 0x0, 0x0, 0x0, 0x0, 0x0, 0x0, 0x0⟩,  -- LNK_Ll_TXDROP
    ⟨0x90028, [(64, 4)], 0x0, 0x0, 0x0, 0x0, 0x0, 0x0, 0x0⟩,  -- LNK_Ll_FECCNT
    ⟨0x91008, [(64, 16)], 0x0, 0xFFFFF3FF, 0x0, 0x0, 0x0, 0x0, 0x0⟩,  -- LNK_RXFf_SETB
    ⟨0x9100C, [(64, 16)], 0x0, 0xFFF0FFF, 0x0, 0x0, 0x0, 0x0, 0x0⟩  -- LNK_RXFf_VLAN
  ] ++
  [
    ⟨0x91014, [(64, 16)], 0x0, 0x7F, 0x0, 0x0, 0x0, 0x0, 0x0⟩,  -- LNK_RXFf_IRQEN
    ⟨0x91018, [(64, 16)], 0x0, 0x0, 0x0, 0x0, 0x0, 0x0, 0x0⟩,  -- LNK_RXFf_PKTA
    ⟨0x9101C, [(64, 16)], 0x0, 0x0, 0x0, 0x0, 0x0, 0x0, 0x0⟩,  -- LNK_RXFf_PKTB
    ⟨0x91020, [(64, 16)], 0x0, 0x0, 0x0, 0x0, 0x0, 0x0, 0x0⟩,  -- LNK_RXFf_LOST
    ⟨0x91024, [(64, 16)], 0x0, 0x0, 0x0, 0x0, 0x0, 0x0, 0x0⟩,  -- LNK_RXFf_DUP
    ⟨0x92008, [(64, 4)], 0x0, 0xFFFF7FFF, 0x0, 0x0, 0x0, 0x0, 0x0⟩,  -- LNK_TXPp_ADDRB
    ⟨0x9200C, [(64, 4)], 0x0, 0xFFF0FFF, 0x0, 0x0, 0x0, 0x0, 0x0⟩,  -- LNK_TXPp_VLAN
    ⟨0x92014, [(64, 4)], 0x0, 0xFFFFFFFF, 0x0, 0x0, 0x0, 0x0, 0x0⟩,  -- LNK_TXPp_SSRC
    ⟨0x92018, [(64, 4)], 0x0, 0xFFFF007F, 0x0, 0x0, 0x0, 0x0, 0x0⟩,  -- LNK_TXPp_RTP
    ⟨0x92020, [(64, 4)], 0x0, 0x1F, 0x0, 0x0, 0x0, 0x0, 0x0⟩,  -- LNK_TXPp_IRQEN
    ⟨0x92024, [(64, 4)], 0x0, 0x0, 0x0, 0x0, 0x0, 0x0, 0x0⟩,  -- LNK_TXPp_SEQ
    ⟨0x92028, [(64, 4)], 0x0, 0x0, 0x0, 0x0, 0x0, 0x0, 0x0⟩,  -- LNK_TXPp_CNT
    ⟨0x92400, [(64, 8)], 0x0, 0xBBFFFFFE, 0x0, 0x0, 0x0, 0x0, 0x0⟩,  -- LNK_TXAg_CTRL
    ⟨0x92404, [(64, 8)], 0x0, 0xFFFF7FFF, 0x0, 0x0, 0x0, 0x0, 0x0⟩,  -- LNK_TXAg_ADDRA
    ⟨0x92408, [(64, 8)], 0x0, 0xFFFF7FFF, 0x0, 0x0, 0x0, 0x0, 0x0⟩,  -- LNK_TXAg_ADDRB
    ⟨0x9240C, [(64, 8)], 0x0, 0xFFF0FFF, 0x0, 0x0, 0x0, 0x0, 0x0⟩,  -- LNK_TXAg_VLAN
    ⟨0x92414, [(64, 8)], 0x0, 0xFFFFFFFF, 0x0, 0x0, 0x0, 0x0, 0x0⟩,  -- LNK_TXAg_SSRC
    ⟨0x92418, [(64, 8)], 0x0, 0xFFFF007F, 0x0, 0x0, 0x0, 0x0, 0x0⟩,  -- LNK_TXAg_RTP
    ⟨0x9241C, [(64, 8)], 0x0, 0x0, 0x0, 0x1F, 0x0, 0x0, 0x0⟩,  -- LNK_TXAg_STAT
    ⟨0x92420, [(64, 8)], 0x0, 0x1F, 0x0, 0x0, 0x0, 0x0, 0x0⟩,  -- LNK_TXAg_IRQEN
    ⟨0x92424, [(64, 8)], 0x0, 0x0, 0x0, 0x0, 0x0, 0x0, 0x0⟩,  -- LNK_TXAg_SEQ
    ⟨0x92428, [(64, 8)], 0x0, 0x0, 0x0, 0x0, 0x0, 0x0, 0x0⟩,  -- LNK_TXAg_CNT
    ⟨0x93008, [], 0x0, 0x3FF000F, 0x0, 0x0, 0x0, 0x0, 0x0⟩,  -- LNK_FWTX_CFG
    ⟨0x9300C, [], 0x0, 0x1FF, 0x0, 0x0, 0x0, 0x0, 0x0⟩,  -- LNK_FWTX_PTR
    ⟨0x93010, [], 0x0, 0xFFFFFFFF, 0x0, 0x0, 0x0, 0x0, 0x0⟩  -- LNK_FWFILT
  ] ++
  [
    ⟨0x93018, [], 0x0, 0xF, 0x0, 0x0, 0x0, 0x0, 0x0⟩,  -- LNK_FWIRQEN
    ⟨0x9301C, [], 0x0, 0x0, 0x0, 0x0, 0x0, 0x0, 0x0⟩,  -- LNK_FWDROP
    ⟨0x93804, [], 0x0, 0xFFFFFFFF, 0x0, 0x0, 0x0, 0x0, 0x0⟩,  -- LNK_PTP_GMID_HI
    ⟨0x93808, [], 0x0, 0xFFFFFFFF, 0x0, 0x0, 0x0, 0x0, 0x0⟩,  -- LNK_PTP_GMID_LO
    ⟨0x9380C, [], 0x0, 0xFFFF, 0x0, 0x0, 0x0, 0x0, 0x0⟩,  -- LNK_PTP_GMPORT
    ⟨0x93810, [], 0x801, 0xFFFF, 0x0, 0x0, 0x0, 0x0, 0x0⟩,  -- LNK_PTP_SERVO
    ⟨0x93814, [], 0xF4240, 0xFFFFFFFF, 0x0, 0x0, 0x0, 0x0, 0x0⟩,  -- LNK_PTP_STEPNS
    ⟨0x93818, [], 0x64, 0xFFFF, 0x0, 0x0, 0x0, 0x0, 0x0⟩,  -- LNK_PTP_LOCKWIN
    ⟨0x93820, [], 0x0, 0xF00, 0x0, 0x0, 0x0, 0x0, 0x0⟩,  -- LNK_PTP_IRQEN
    ⟨0x93824, [], 0x0, 0x0, 0x0, 0x0, 0x0, 0x0, 0x0⟩,  -- LNK_PTP_OFS
    ⟨0x93828, [], 0x0, 0x0, 0x0, 0x0, 0x0, 0x0, 0x0⟩,  -- LNK_PTP_MPD
    ⟨0x9382C, [], 0x0, 0x0, 0x0, 0x0, 0x0, 0x0, 0x0⟩,  -- LNK_PTP_ADJ
    ⟨0x93830, [], 0x0, 0x0, 0x0, 0x0, 0x0, 0x0, 0x0⟩,  -- LNK_PTP_CNT
    ⟨0x90400, [(32, 32), (4, 4)], 0x0, 0xFFFFFFFF, 0x0, 0x0, 0x0, 0x0, 0x0⟩,  -- LNK_ADDRk_W
    ⟨0x90410, [(32, 32)], 0x0, 0xFFFFFFFF, 0x0, 0x0, 0x0, 0x0, 0x0⟩,  -- LNK_ADDRk_MACLO
    ⟨0x90414, [(32, 32)], 0x0, 0x8000FFFF, 0x0, 0x0, 0x0, 0x0, 0x0⟩  -- LNK_ADDRk_MACHI
  ]

/-- Rows of the PIO_, TIM_ block of a billet window. -/
def rowsPio : List RegRow :=
  [
    ⟨0xA0F00, [(4, 12)], 0x0, 0x8F8F8F8F, 0x0, 0x0, 0x0, 0x0, 0x0⟩,  -- PIO_OWNj
    ⟨0xA0000, [(4, 48)], 0x2000000, 0xFFFFFFFF, 0x0, 0x0, 0x0, 0x0, 0x0⟩,  -- PIO_PINn_CFG
    ⟨0xA0100, [(4, 3)], 0x3, 0x3, 0x0, 0x600, 0x0, 0x0, 0x0⟩,  -- PIO_BANKk_CFG
    ⟨0xA0110, [], 0x0, 0xFFFFFFFF, 0x0, 0x0, 0x0, 0x0, 0x0⟩,  -- PIO_OUT_LO
    ⟨0xA0200, [(32, 16)], 0x0, 0xF03FFFFF, 0x0, 0x0, 0x0, 0x0, 0x0⟩,  -- PIO_PMk_CTRL
    ⟨0xA021C, [(32, 16)], 0x0, 0x0, 0x0, 0x3, 0x0, 0x0, 0x0⟩,  -- PIO_PMk_STAT
    ⟨0xA0800, [], 0x0, 0x0, 0x0, 0x0, 0x0, 0x0, 0x0⟩,  -- TIM_TICK_LO
    ⟨0xA081C, [], 0x0, 0x0, 0x0, 0x3, 0x0, 0x0, 0x0⟩,  -- TIM_TICKSTAT
    ⟨0xA1000, [(32, 64)], 0x0, 0xF0000000, 0x0, 0x0, 0x0, 0x0, 0x0⟩,  -- TIM_CMPk_CTRL
    ⟨0xA1018, [(32, 64)], 0x0, 0x0, 0x0, 0x7, 0x0, 0x0, 0x0⟩,  -- TIM_CMPk_STAT
    ⟨0xA1800, [(32, 16)], 0x0, 0xDCB0003F, 0x0, 0x0, 0x20000000, 0x0, 0x0⟩,  -- TIM_CAPc_CTRL
    ⟨0xA1804, [(32, 16)], 0x1, 0xFF0FFF, 0x0, 0x0, 0x0, 0x0, 0x0⟩,  -- TIM_CAPc_FILT
    ⟨0xA181C, [(32, 16)], 0x0, 0x0, 0x0, 0x6, 0x0, 0x0, 0x0⟩,  -- TIM_CAPc_STAT
    ⟨0xA0114, [], 0x0, 0xFFFF, 0x0, 0x0, 0x0, 0x0, 0x0⟩,  -- PIO_OUT_HI
    ⟨0xA0118, [], 0x0, 0xFFFFFFFF, 0x0, 0x0, 0x0, 0x0, 0x0⟩,  -- PIO_OE_LO
    ⟨0xA011C, [], 0x0, 0xFFFF, 0x0, 0x0, 0x0, 0x0, 0x0⟩,  -- PIO_OE_HI
    ⟨0xA0120, [], 0x0, 0x0, 0x0, 0x0, 0x0, 0x0, 0x0⟩,  -- PIO_IN_LO
    ⟨0xA0124, [], 0x0, 0x0, 0x0, 0x0, 0x0, 0x0, 0x0⟩,  -- PIO_IN_HI
    ⟨0xA0128, [], 0x0, 0x0, 0x0, 0xFFFFFFFF, 0x0, 0x0, 0x0⟩,  -- PIO_EDGE_LO
    ⟨0xA012C, [], 0x0, 0x0, 0x0, 0xFFFF, 0x0, 0x0, 0x0⟩,  -- PIO_EDGE_HI
    ⟨0xA0130, [], 0x0, 0x0, 0x0, 0x0, 0x0, 0x0, 0x0⟩,  -- PIO_SW_LO
    ⟨0xA0134, [], 0x0, 0x0, 0x0, 0x0, 0x0, 0x0, 0x0⟩,  -- PIO_SW_HI
    ⟨0xA0204, [(32, 16)], 0x0, 0xFFFFFFFF, 0x0, 0x0, 0x0, 0x0, 0x0⟩,  -- PIO_PMk_MASK
    ⟨0xA0208, [(32, 16)], 0x0, 0xFFFFFFFF, 0x0, 0x0, 0x0, 0x0, 0x0⟩,  -- PIO_PMk_V0
    ⟨0xA020C, [(32, 16)], 0x0, 0xFFFFFFFF, 0x0, 0x0, 0x0, 0x0, 0x0⟩  -- PIO_PMk_V1
  ] ++
  [
    ⟨0xA0210, [(32, 16)], 0x0, 0xFFFFFFFF, 0x0, 0x0, 0x0, 0x0, 0x0⟩,  -- PIO_PMk_V2
    ⟨0xA0214, [(32, 16)], 0x0, 0xFFFFFFFF, 0x0, 0x0, 0x0, 0x0, 0x0⟩,  -- PIO_PMk_V3
    ⟨0xA0218, [(32, 16)], 0x0, 0x0, 0x0, 0x0, 0x0, 0x0, 0x0⟩,  -- PIO_PMk_CNT
    ⟨0xA0804, [], 0x0, 0x0, 0x0, 0x0, 0x0, 0x0, 0x0⟩,  -- TIM_TICK_HI
    ⟨0xA0808, [], 0x0, 0x0, 0x0, 0x0, 0x0, 0x0, 0x0⟩,  -- TIM_TICK_RAW_LO
    ⟨0xA080C, [], 0x0, 0x0, 0x0, 0x0, 0x0, 0x0, 0x0⟩,  -- TIM_TICK_RAW_HI
    ⟨0xA0810, [], 0x0, 0x0, 0x0, 0x0, 0x0, 0xFFFFFFFF, 0x0⟩,  -- TIM_TICK_STEP_LO
    ⟨0xA0814, [], 0x0, 0x0, 0x0, 0x0, 0x0, 0xFFFFFFFF, 0x0⟩,  -- TIM_TICK_STEP_HI
    ⟨0xA0818, [], 0x0, 0xFFFFFFFF, 0x0, 0x0, 0x0, 0x0, 0x0⟩,  -- TIM_TICK_ADJ
    ⟨0xA1004, [(32, 64)], 0x0, 0xFFFFFFFF, 0x0, 0x0, 0x0, 0x0, 0x0⟩,  -- TIM_CMPk_T_LO
    ⟨0xA1008, [(32, 64)], 0x0, 0xFFFFFFFF, 0x0, 0x0, 0x0, 0x0, 0x0⟩,  -- TIM_CMPk_T_HI
    ⟨0xA100C, [(32, 64)], 0x0, 0x0, 0xFFFFFFFF, 0x0, 0x0, 0x0, 0x0⟩,  -- TIM_CMPk_PERIOD
    ⟨0xA1010, [(32, 64)], 0x0, 0x0, 0xFFFFFFFF, 0x0, 0x0, 0x0, 0x0⟩,  -- TIM_CMPk_DUTY
    ⟨0xA1014, [(32, 64)], 0x0, 0x0, 0x0, 0x0, 0x0, 0x0, 0x0⟩,  -- TIM_CMPk_COUNT
    ⟨0xA1808, [(32, 16)], 0x0, 0x0, 0x0, 0x0, 0x0, 0x0, 0x0⟩,  -- TIM_CAPc_TLO
    ⟨0xA180C, [(32, 16)], 0x0, 0x0, 0x0, 0x0, 0x0, 0x0, 0x0⟩,  -- TIM_CAPc_THI
    ⟨0xA1810, [(32, 16)], 0x0, 0x0, 0x0, 0x0, 0x0, 0x0, 0x0⟩,  -- TIM_CAPc_DL
    ⟨0xA1814, [(32, 16)], 0x0, 0x0, 0x0, 0x0, 0x0, 0x0, 0x0⟩,  -- TIM_CAPc_FLM
    ⟨0xA1818, [(32, 16)], 0x0, 0x0, 0x0, 0x0, 0x0, 0x0, 0x0⟩  -- TIM_CAPc_FH
  ]

/-- Rows of the TAL_ block of a billet window. -/
def rowsTal : List RegRow :=
  [
    ⟨0xB0000, [(32, 16)], 0x0, 0xB07F00FF, 0x0, 0x0, 0x40000000, 0x0, 0x0⟩,  -- TAL_k_CTRL
    ⟨0xB0014, [(32, 16)], 0x0, 0x0, 0x0, 0x1, 0x0, 0x0, 0x0⟩,  -- TAL_k_STAT
    ⟨0xB0004, [(32, 16)], 0x0, 0x0, 0x0, 0x0, 0x0, 0x0, 0x0⟩,  -- TAL_k_CNT_LO
    ⟨0xB0008, [(32, 16)], 0x0, 0x0, 0x0, 0x0, 0x0, 0x0, 0x0⟩,  -- TAL_k_CNT_HI
    ⟨0xB000C, [(32, 16)], 0x0, 0x0, 0x0, 0x0, 0x0, 0x0, 0x0⟩,  -- TAL_k_SNAP_LO
    ⟨0xB0010, [(32, 16)], 0x0, 0x0, 0x0, 0x0, 0x0, 0x0, 0x0⟩  -- TAL_k_SNAP_HI
  ]

/-- Rows of the CLK_ block of a billet window. -/
def rowsClk : List RegRow :=
  [
    ⟨0xC0000, [], 0x0, 0x0, 0x0, 0x0, 0x0, 0x0, 0x0⟩,  -- CLK_STAT
    ⟨0xC0004, [], 0x0, 0x0, 0x0, 0x10F, 0x0, 0x0, 0x0⟩,  -- CLK_EVT
    ⟨0xC0008, [], 0x0, 0x10F, 0x0, 0x0, 0x0, 0x0, 0x0⟩,  -- CLK_IRQEN
    ⟨0xC000C, [], 0x0, 0x0, 0x0, 0x0, 0x0, 0x0, 0x0⟩  -- CLK_XADDR
  ]

/-- Rows of the palette RAM block of a billet window. -/
def rowsPal : List RegRow :=
  [
    ⟨0xD0000, [(4, 16384)], 0x0, 0xFFFFFFFF, 0x0, 0x0, 0x0, 0x0, 0x0⟩  -- PAL_RAM
  ]

/-- Rows of the sprite table block of a billet window: memory, whose Reserved bits read as written (log entry 36). -/
def rowsSpt : List RegRow :=
  [
    ⟨0xE0000, [(4, 16384)], 0x0, 0xFFFFFFFF, 0x0, 0x0, 0x0, 0x0, 0x0⟩  -- SPR_TABLE
  ]

/-- Rows of BAR0 from 0x800_000. -/
def rowsG800 : List RegRow :=
  [
    ⟨0x800000, [], 0xB080002, 0x0, 0x0, 0x0, 0x0, 0x0, 0x0⟩,  -- ID_PART
    ⟨0x800004, [], 0x20, 0x0, 0x0, 0x0, 0x0, 0x0, 0x0⟩,  -- ID_STEP
    ⟨0x800008, [], 0x3, 0x0, 0x0, 0x0, 0x0, 0x0, 0x0⟩  -- ID_CONFIG
  ]

/-- Rows of BAR0 from 0x801_000. -/
def rowsG801 : List RegRow :=
  [
    ⟨0x801000, [], 0x1000, 0xFF00, 0x0, 0x0, 0x0, 0x0, 0x0⟩,  -- TMP_CFG
    ⟨0x801004, [], 0x1B8, 0xFFFF, 0x0, 0x0, 0x0, 0x0, 0x0⟩,  -- TMP_BUDGET
    ⟨0x801008, [], 0x0, 0x0, 0x0, 0x0, 0x0, 0x0, 0x0⟩,  -- TMP_CEIL
    ⟨0x80100C, [], 0x0, 0x0, 0x0, 0x0, 0x0, 0x0, 0x0⟩,  -- TMP_TEMP
    ⟨0x801010, [], 0x3E8, 0xFFFF, 0x0, 0x0, 0x0, 0x0, 0x0⟩,  -- TMP_TALARM
    ⟨0x801014, [], 0x0, 0x0, 0x0, 0x0, 0x0, 0x0, 0x0⟩,  -- TMP_LEVEL
    ⟨0x801018, [], 0x0, 0x0, 0x0, 0x3F, 0x0, 0x0, 0x0⟩,  -- TMP_EVT
    ⟨0x801030, [], 0x0, 0x7, 0x0, 0x0, 0x0, 0x0, 0x0⟩,  -- TMP_PWRREQ
    ⟨0x801034, [], 0x0, 0x0, 0x0, 0x0, 0x0, 0x0, 0x0⟩,  -- TMP_PWRSTAT
    ⟨0x80101C, [], 0x0, 0x3F, 0x0, 0x0, 0x0, 0x0, 0x0⟩,  -- TMP_IRQEN
    ⟨0x801020, [], 0x0, 0x0, 0x0, 0x0, 0x0, 0x0, 0x0⟩,  -- TMP_SHORTCNT
    ⟨0x801100, [(4, 8)], 0x0, 0x0, 0x0, 0x0, 0x0, 0x0, 0x0⟩  -- TMP_Bb_USE
  ]

/-- Rows of BAR0 from 0x802_000. -/
def rowsG802 : List RegRow :=
  [
    ⟨0x802000, [], 0x0, 0xFF7, 0x0, 0x0, 0x0, 0x0, 0x0⟩,  -- QCH_CTRL
    ⟨0x802004, [], 0x0, 0x0, 0x0, 0x0, 0x1F, 0x0, 0x0⟩,  -- QCH_CMD
    ⟨0x802008, [], 0x0, 0x0, 0x0, 0x0, 0x0, 0x0, 0x0⟩,  -- QCH_STAT
    ⟨0x80200C, [], 0x0, 0x0, 0x0, 0x3FFF, 0x0, 0x0, 0x0⟩,  -- QCH_EVT
    ⟨0x802014, [], 0x0, 0xFFFFFFFF, 0x0, 0x0, 0x0, 0x0, 0x0⟩,  -- QCH_PORTEN
    ⟨0x802018, [], 0x100004, 0xFFFF00FF, 0x0, 0x0, 0x0, 0x0, 0x0⟩,  -- QCH_MMCFG
    ⟨0x80201C, [], 0x0, 0x3F, 0x0, 0x0, 0x0, 0x0, 0x0⟩,  -- QCH_FMASK
    ⟨0x802020, [], 0x0, 0x0, 0x0, 0x0, 0x0, 0x0, 0x0⟩,  -- QCH_LINKDLY
    ⟨0x802028, [], 0x0, 0x0, 0x0, 0x0, 0x0, 0x0, 0x0⟩,  -- QCH_MMCNT
    ⟨0x802030, [], 0x0, 0x0, 0x0, 0x0, 0x0, 0x0, 0x0⟩,  -- QCH_MMPOS
    ⟨0x802038, [], 0x0, 0x0, 0x0, 0x0, 0x0, 0x0, 0x0⟩,  -- QCH_TOPOS
    ⟨0x802040, [], 0x302, 0xFFFF, 0x0, 0x0, 0x0, 0x0, 0x0⟩,  -- QCH_HCFG
    ⟨0x802048, [], 0x0, 0x0, 0x0, 0x0, 0x0, 0x0, 0x0⟩,  -- QCH_PEERID
    ⟨0x802080, [], 0x0, 0x3F, 0x0, 0x0, 0x0, 0x0, 0x0⟩,  -- QCH_RSCTRL
    ⟨0x802084, [], 0x0, 0x0, 0x0, 0x0, 0x0, 0x0, 0x0⟩,  -- QCH_RSSTAT
    ⟨0x802010, [], 0x0, 0x3FFF, 0x0, 0x0, 0x0, 0x0, 0x0⟩,  -- QCH_IRQEN
    ⟨0x802024, [], 0x0, 0x0, 0x0, 0x0, 0x0, 0x0, 0x0⟩,  -- QCH_MATCHCNT
    ⟨0x80202C, [], 0x0, 0x0, 0x0, 0x0, 0x0, 0x0, 0x0⟩,  -- QCH_MISSCNT
    ⟨0x802034, [], 0x0, 0x0, 0x0, 0x0, 0x0, 0x0, 0x0⟩,  -- QCH_MMFRM
    ⟨0x80203C, [], 0x0, 0x0, 0x0, 0x0, 0x0, 0x0, 0x0⟩,  -- QCH_TOFRM
    ⟨0x802044, [], 0x0, 0x0, 0x0, 0x0, 0x0, 0x0, 0x0⟩,  -- QCH_HDROPCNT
    ⟨0x802088, [], 0x0, 0x0, 0x0, 0x0, 0x0, 0x0, 0x0⟩,  -- QCH_RSBYTES
    ⟨0x802400, [(4, 16)], 0x0, 0xFFFFFFFF, 0x0, 0x0, 0x0, 0x0, 0x0⟩,  -- QCH_MBOUTj
    ⟨0x802440, [(4, 16)], 0x0, 0x0, 0x0, 0x0, 0x0, 0x0, 0x0⟩,  -- QCH_MBINj
    ⟨0x802100, [(16, 32)], 0x0, 0xFFFFFFFF, 0x0, 0x0, 0x0, 0x0, 0x0⟩  -- QCH_RGNk_BASE
  ] ++
  [
    ⟨0x802104, [(16, 32)], 0x0, 0xC0000007, 0x0, 0x0, 0x0, 0x0, 0x0⟩,  -- QCH_RGNk_SPACE
    ⟨0x802108, [(16, 32)], 0x0, 0xFFFFFFFF, 0x0, 0x0, 0x0, 0x0, 0x0⟩  -- QCH_RGNk_LEN64
  ]

/-- Rows of BAR0 from 0x803_000. -/
def rowsG803 : List RegRow :=
  [
    ⟨0x803004, [], 0x0, 0x0, 0x0, 0x3, 0x0, 0x0, 0x0⟩,  -- EMB_STAT
    ⟨0x803008, [], 0x0, 0xFFFFFFFF, 0x0, 0x0, 0x0, 0x0, 0x0⟩,  -- EMB_TIMER
    ⟨0x803010, [], 0x0, 0x0, 0x0, 0x0, 0x0, 0x0, 0x0⟩,  -- EMB_HIT_LO
    ⟨0x803014, [], 0x0, 0x0, 0x0, 0x0, 0x0, 0x0, 0x0⟩,  -- EMB_HIT_HI
    ⟨0x803100, [(4, 48)], 0x0, 0xFF0001FF, 0x0, 0x0, 0x0, 0x0, 0x0⟩  -- EMB_WAKEk
  ]

/-- Rows of BAR0 from 0x808_000. -/
def rowsG808 : List RegRow :=
  [
    ⟨0x808000, [], 0x0, 0x1, 0x0, 0x0, 0x0, 0x0, 0x0⟩,  -- TUY_CTRL
    ⟨0x808004, [], 0x0, 0x0, 0x0, 0x0, 0x0, 0x0, 0x0⟩,  -- TUY_STAT
    ⟨0x808008, [], 0x0, 0x0, 0x0, 0x0, 0x0, 0x0, 0x0⟩,  -- TUY_FRAME
    ⟨0x808010, [], 0x0, 0x0, 0x0, 0x7FF, 0x0, 0x0, 0x0⟩,  -- TUY_EVT
    ⟨0x808020, [], 0x0, 0x40000000, 0x0, 0x0, 0x80000000, 0x0, 0x0⟩,  -- TUY_PCTRL
    ⟨0x808024, [], 0x0, 0x3FFF3FFF, 0x0, 0x0, 0x0, 0x0, 0x0⟩,  -- TUY_PLEN
    ⟨0x808028, [], 0x0, 0x17FFF, 0x0, 0x0, 0x0, 0x0, 0x0⟩,  -- TUY_PACC
    ⟨0x808038, [], 0x0, 0x0, 0x0, 0x0, 0x0, 0xF0003FFF, 0x0⟩,  -- TUY_GRAMP
    ⟨0x808040, [], 0x0, 0x0, 0x0, 0x0, 0x0, 0xC00001FF, 0x0⟩,  -- TUY_VKEY
    ⟨0x808080, [(4, 32)], 0x0, 0xFFF0FFF, 0x0, 0x0, 0x0, 0x0, 0x0⟩,  -- TUY_DLYL
    ⟨0x808200, [(32, 8)], 0x0, 0x7FF, 0x0, 0x0, 0x0, 0x0, 0x0⟩,  -- TUY_TDMn_CTRL
    ⟨0x808300, [(4, 32)], 0x0, 0x0, 0x0, 0x0, 0x0, 0x0, 0x0⟩,  -- TUY_CVk_STAT
    ⟨0x808400, [(4, 48)], 0x0, 0xBFBFBFBF, 0x0, 0x0, 0x0, 0x0, 0x0⟩,  -- TUY_SINKj
    ⟨0x808800, [(16, 64)], 0xC800000, 0x8FFFFFFF, 0x0, 0x0, 0x0, 0x0, 0x0⟩,  -- TUY_BUSb_LIM
    ⟨0x808804, [(16, 64)], 0x1000000, 0xFF7FFFFF, 0x0, 0x0, 0x0, 0x0, 0x0⟩,  -- TUY_BUSb_SIL
    ⟨0x808C00, [], 0x0, 0x0, 0x0, 0x0, 0x0, 0x0, 0x0⟩,  -- TUY_SILNOW_LO
    ⟨0x808C40, [(8, 8)], 0x0, 0xFFFFFFFF, 0x0, 0x0, 0x0, 0x0, 0x0⟩,  -- TUY_AMPk_LO
    ⟨0x808C80, [], 0x0, 0xFFFF, 0x0, 0x0, 0x0, 0x0, 0x0⟩,  -- TUY_AMPCFG
    ⟨0x80800C, [], 0x0, 0x0, 0x0, 0x0, 0x0, 0x0, 0x0⟩,  -- TUY_FRAME_HI
    ⟨0x808018, [], 0x0, 0x0, 0x0, 0x0, 0x0, 0x0, 0x0⟩,  -- TUY_SKIPCNT
    ⟨0x80801C, [], 0x0, 0x0, 0x0, 0x0, 0x0, 0x0, 0x0⟩,  -- TUY_SATCNT
    ⟨0x80803C, [], 0x0, 0x0, 0x0, 0x0, 0x0, 0x0, 0x0⟩,  -- TUY_VUNDERCNT
    ⟨0x80802C, [], 0x0, 0xFFFFFFFF, 0x0, 0x0, 0x0, 0x0, 0x0⟩,  -- TUY_PDATA
    ⟨0x808034, [], 0x0, 0xFFFFFFFF, 0x0, 0x0, 0x0, 0x0, 0x0⟩,  -- TUY_MDATA
    ⟨0x808C04, [], 0x0, 0x0, 0x0, 0x0, 0x0, 0x0, 0x0⟩  -- TUY_SILNOW_HI
  ] ++
  [
    ⟨0x808C08, [], 0x0, 0x0, 0x0, 0xFFFFFFFF, 0x0, 0x0, 0x0⟩,  -- TUY_SEVT_SIL_LO
    ⟨0x808C0C, [], 0x0, 0x0, 0x0, 0xFFFFFFFF, 0x0, 0x0, 0x0⟩,  -- TUY_SEVT_SIL_HI
    ⟨0x808C10, [], 0x0, 0x0, 0x0, 0xFFFFFFFF, 0x0, 0x0, 0x0⟩,  -- TUY_SEVT_NSIL_LO
    ⟨0x808C14, [], 0x0, 0x0, 0x0, 0xFFFFFFFF, 0x0, 0x0, 0x0⟩,  -- TUY_SEVT_NSIL_HI
    ⟨0x808C18, [], 0x0, 0xFFFFFFFF, 0x0, 0x0, 0x0, 0x0, 0x0⟩,  -- TUY_SIRQEN_SIL_LO
    ⟨0x808C1C, [], 0x0, 0xFFFFFFFF, 0x0, 0x0, 0x0, 0x0, 0x0⟩,  -- TUY_SIRQEN_SIL_HI
    ⟨0x808C20, [], 0x0, 0xFFFFFFFF, 0x0, 0x0, 0x0, 0x0, 0x0⟩,  -- TUY_SIRQEN_NSIL_LO
    ⟨0x808C24, [], 0x0, 0xFFFFFFFF, 0x0, 0x0, 0x0, 0x0, 0x0⟩,  -- TUY_SIRQEN_NSIL_HI
    ⟨0x808014, [], 0x0, 0x7FF, 0x0, 0x0, 0x0, 0x0, 0x0⟩,  -- TUY_IRQEN
    ⟨0x808030, [], 0x0, 0xFFF, 0x0, 0x0, 0x0, 0x0, 0x0⟩,  -- TUY_MACC
    ⟨0x808048, [], 0x0, 0xFFFFFF, 0x0, 0x0, 0x0, 0x0, 0x0⟩,  -- TUY_GTGT
    ⟨0x808100, [(4, 16)], 0x0, 0x0, 0x0, 0x0, 0x0, 0x0, 0x0⟩,  -- TUY_VACTj
    ⟨0x808140, [(4, 16)], 0x0, 0x0, 0x0, 0xFFFFFFFF, 0x0, 0x0, 0x0⟩,  -- TUY_VDONEj
    ⟨0x808808, [(16, 64)], 0x0, 0x0, 0x0, 0x0, 0x0, 0x0, 0x1FFFFFF⟩,  -- TUY_BUSb_GMIN
    ⟨0x80880C, [(16, 64)], 0x0, 0x0, 0x0, 0x0, 0x0, 0x0, 0xFFFFFFFF⟩,  -- TUY_BUSb_PEAK
    ⟨0x808C44, [(8, 8)], 0x0, 0xFFFFFFFF, 0x0, 0x0, 0x0, 0x0, 0x0⟩  -- TUY_AMPk_HI
  ]

/-- Rows of BAR0 from 0x80C_000: the voice shadow words, memory whose Reserved bits read as written (log entry 36). -/
def rowsG80C : List RegRow :=
  [
    ⟨0x80C000, [(32, 512), (4, 8)], 0x0, 0xFFFFFFFF, 0x0, 0x0, 0x0, 0x0, 0x0⟩  -- TUY_VOICEv_Wi
  ]

/-- Rows of BAR0 from 0x810_000. -/
def rowsG810 : List RegRow :=
  [
    ⟨0x810000, [], 0x0, 0x0, 0x0, 0x0, 0x0, 0x0, 0x0⟩,  -- HST_STAT
    ⟨0x810004, [], 0x0, 0x0, 0x0, 0x3F, 0x0, 0x0, 0x0⟩,  -- HST_ERR
    ⟨0x810010, [], 0x0, 0x0, 0x0, 0x0, 0x0, 0xFFFF070F, 0x0⟩,  -- HST_DOORBELL
    ⟨0x810014, [], 0x0, 0x0, 0x0, 0xFFFF, 0x0, 0x0, 0x0⟩,  -- HST_HIRQ
    ⟨0x810008, [], 0x0, 0x3F, 0x0, 0x0, 0x0, 0x0, 0x0⟩,  -- HST_ERRIRQEN
    ⟨0x81000C, [], 0x0, 0x0, 0x0, 0x0, 0x0, 0x0, 0x0⟩,  -- HST_ERRADDR
    ⟨0x810018, [], 0x0, 0x0, 0x0, 0x0, 0xFFFF, 0x0, 0x0⟩,  -- HST_HIRQSET
    ⟨0x81001C, [], 0x0, 0xFFFF, 0x0, 0x0, 0x0, 0x0, 0x0⟩  -- HST_HIRQEN
  ]

/-- Rows of BAR0 from 0x811_000. -/
def rowsG811 : List RegRow :=
  [
    ⟨0x811000, [], 0x0, 0x0, 0x0, 0xF00, 0x0, 0x0, 0x0⟩,  -- BOOT_STAT
    ⟨0x811010, [], 0x0, 0x0, 0x0, 0x0, 0x0, 0x0, 0x0⟩,  -- BOOT_OTP
    ⟨0x811004, [], 0x0, 0xF, 0x0, 0x0, 0x0, 0x0, 0x0⟩,  -- BOOT_IRQEN
    ⟨0x811008, [], 0x0, 0x0, 0x0, 0x0, 0x1, 0x0, 0x0⟩,  -- BOOT_CTRL
    ⟨0x81100C, [], 0x0, 0xFFFFFFFF, 0x0, 0x0, 0x0, 0x0, 0x0⟩  -- BOOT_IMGADDR
  ]

/-- Rows of BAR0 from 0x812_000. -/
def rowsG812 : List RegRow :=
  [
    ⟨0x812000, [], 0x0, 0x0, 0x0, 0x0, 0x0, 0x0, 0x0⟩,  -- GCLK_STAT
    ⟨0x812100, [], 0x1, 0x0, 0x0, 0x0, 0x0, 0x0, 0x0⟩,  -- GRST_CAUSE
    ⟨0x812104, [], 0x0, 0x0, 0x0, 0x0, 0x0, 0xFF000001, 0x0⟩,  -- GRST_CTRL
    ⟨0x812108, [], 0x0, 0xFFFF, 0x0, 0x0, 0x80000000, 0x0, 0x0⟩,  -- GRST_WDOG
    ⟨0x812004, [], 0x0, 0x0, 0x0, 0x3, 0x0, 0x0, 0x0⟩,  -- GCLK_EVT
    ⟨0x812008, [], 0x0, 0x3, 0x0, 0x0, 0x0, 0x0, 0x0⟩,  -- GCLK_IRQEN
    ⟨0x81210C, [], 0x0, 0x0, 0x0, 0x0, 0x0, 0xFF, 0x0⟩  -- GRST_KICK
  ]

/-- Rows of BAR0 from 0x820_000. -/
def rowsG820 : List RegRow :=
  [
    ⟨0x820000, [(64, 4)], 0x0, 0x80003700, 0x0, 0x0, 0x0, 0x0, 0x0⟩,  -- DPk_CTRL
    ⟨0x820004, [(64, 4)], 0x0, 0xFFFFFFFC, 0x0, 0x0, 0x0, 0x0, 0x0⟩,  -- DPk_ADDR
    ⟨0x82000C, [(64, 4)], 0x0, 0xFFFF, 0x0, 0x0, 0x0, 0x0, 0x0⟩,  -- DPk_ROW
    ⟨0x820014, [(64, 4)], 0x0, 0xFFFFFFFF, 0x0, 0x0, 0x0, 0x0, 0x0⟩,  -- DPk_DATA
    ⟨0x820018, [(64, 4)], 0x0, 0x0, 0x0, 0xE, 0x0, 0x0, 0x0⟩,  -- DPk_STAT
    ⟨0x820008, [(64, 4)], 0x0, 0xFFFFFFFC, 0x0, 0x0, 0x0, 0x0, 0x0⟩,  -- DPk_STRIDE
    ⟨0x820010, [(64, 4)], 0x0, 0xFFFFFFFC, 0x0, 0x0, 0x0, 0x0, 0x0⟩,  -- DPk_PITCH
    ⟨0x82001C, [(64, 4)], 0x0, 0x0, 0x0, 0x0, 0x0, 0x0, 0x0⟩  -- DPk_CNT
  ]

/-- The rows a billet offset can belong to. -/
def billetRows (off : Nat) : List RegRow :=
  match off / 0x8000 with
  | 0 => rowsBel
  | 1 => rowsStk
  | 2 => rowsAnv
  | 3 => rowsSpr
  | 4 => rowsVid
  | 6 => rowsCmp
  | 8 => rowsHmr
  | 10 => rowsIc
  | 12 => rowsSwg
  | 13 => rowsTng
  | 14 => rowsMem
  | 16 => rowsFlx
  | 18 => rowsLnk
  | 20 => rowsPio
  | 22 => rowsTal
  | 24 => rowsClk
  | 26 => rowsPal
  | 28 => rowsSpt
  | 5 => rowsVid
  | 9 => rowsHmr
  | 15 => []
  | 27 => rowsPal
  | 29 => rowsSpt
  | _ => []

/-- The rows a BAR0 offset at or above 0x80_0000 can belong to. -/
def globalRows (addr : Nat) : List RegRow :=
  match addr / 0x1000 with
  | 0x800 => rowsG800
  | 0x801 => rowsG801
  | 0x802 => rowsG802
  | 0x803 => rowsG803
  | 0x808 => rowsG808
  | 0x80C => rowsG80C
  | 0x810 => rowsG810
  | 0x811 => rowsG811
  | 0x812 => rowsG812
  | 0x820 => rowsG820
  | 0x80D => rowsG80C
  | 0x80E => rowsG80C
  | 0x80F => rowsG80C
  | _ => []

/-- Is the distance `r` from a row's base one of its copies? -/
def inDims : Nat → List (Nat × Nat) → Bool
  | r, [] => r == 0
  | r, (st, c) :: t => r / st < c && inDims (r % st) t

/-- Does the row hold the register at this offset? -/
def RegRow.holds (r : RegRow) (a : Nat) : Bool := r.base ≤ a && inDims (a - r.base) r.dims

/-- The register window of a billet, 1 MiB each (R38). -/
def windowSize : Nat := 0x100000

/-- The BAR0 offset of a register of billet `b`. -/
def baddr (b off : Nat) : Nat := b * windowSize + off

/-- The row of a BAR0 offset, where the variant has a register there (R4, R14, R38, R39): nothing in the window of
an absent billet, in no block, and for the registers that billet 0 alone holds (commit context 16 of R33, the audio
senders of R398 and the PTP slave of R401) nothing in the other billets. -/
def regRow (v : Variant) (addr : Nat) : Option RegRow :=
  if addr % 4 ≠ 0 then none
  else if addr < 0x800000 then
    let b := addr / windowSize
    let off := addr % windowSize
    if v.billets ≤ b then none
    else if 2 ≤ b && off == 0x30030 then none
    else if b ≠ 0 && (off == 0x80F80 || (0x92400 ≤ off && off < 0x92600) || (0x93800 ≤ off && off < 0x93840)) then none
    else (billetRows off).find? (·.holds off)
  else (globalRows addr).find? (·.holds addr)

/-- Reset word of a video coefficient (R159): linear interpolation. -/
def coefReset (off : Nat) : Nat :=
  let w := off % 0x800
  if w < 0x400 then
    let p := w / 16
    match w % 16 / 4 with
    | 1 => (256 - 4 * p) <<< 16
    | 2 => 4 * p
    | _ => 0
  else if w < 0x700 then
    let p := (w - 0x400) / 12
    match (w - 0x400) % 12 / 4 with
    | 1 => ((4 * p) <<< 16) + (256 - 4 * p)
    | _ => 0
  else 0

/-- The reset word of the register at a BAR0 offset: the heading's whole word, but for the words that differ by
variant (ID_PART, ID_CONFIG, TMP_BUDGET, TMP_CEIL), by hammer (HMR_CTRL and HMR_STAT of H0) or by rule (R159). -/
def regReset (v : Variant) (addr : Nat) : Word :=
  match regRow v addr with
  | none => 0#32
  | some r =>
    let off := addr % windowSize
    if addr = 0x800000 then wd (0x0B080000 + v.billets)
    else if addr = 0x800008 then wd (2 ^ v.billets - 1)
    else if addr = 0x801004 || addr = 0x801008 then wd v.budgetReset
    else if addr < 0x800000 && off = 0x40000 then 0x8#32
    else if addr < 0x800000 && off = 0x40004 then 0x8010#32
    else if addr < 0x800000 && 0x24000 ≤ off && off < 0x28000 then wd (coefReset off)
    else wd r.reset

end Sys2Proof.Machine
end

