-- ==== Sys2Proof/Machine/State.lean ====
section
/-! DEFINITION. The state of the package as plain data, and the state at the release of reset. -/

namespace Sys2Proof.Machine

/-- Why the machine stops with a fault. No meaning raises one: the spec gives every command an effect. -/
inductive Fault where
  /-- Raised by nothing; kept so that the outcome type is inhabited. Safe. -/
  | none
deriving DecidableEq, Repr

/-- Why a command is refused. -/
inductive Refusal where
  /-- The command has no meaning in this model yet; raised by its arm of `exec`. Safe. -/
  | notModelled (mnemonic : String)
deriving DecidableEq, Repr

/-- The state of a meaning's answer. -/
abbrev Out (σ : Type) := Host.Outcome σ Fault Refusal

/-- The package beam (R45-R52). -/
structure Beam where
  /-- The beam counts (not in reset, not in EMBER). -/
  running : Bool
  /-- Dot, line and frame counters (R45). -/
  dot : Nat
  line : Nat
  frame : Nat
  /-- Forge cycle within the dot, 0 to 3. -/
  phase : Nat
  /-- Values in force (R48). -/
  htotal : Nat
  vtotal : Nat
  vactStart : Nat
  vact : Nat
  /-- Package dots of the running line, the slip of its end apart. -/
  lineLen : Nat
  /-- The running line is a jam line (R68), and the frame number it loads where the reference gives one. -/
  jam : Bool
  jamLoad : Option Nat
  /-- The end of the running line was set under R49. -/
  cut : Bool
  /-- The frame ends at the end of the running line under R49. -/
  cutFrame : Bool
  /-- The frame ends at the end of the running line although its last line is another: by R49 or a jam (R94, R146). -/
  sudden : Bool
  /-- Slips carried to a later line end (R50). -/
  carried : Int
  /-- Forge cycle at which the running line and the running frame began. -/
  lineAt : Nat
  frameAt : Nat
  /-- Line ends since reset, for the m of R70. -/
  ends : Nat
deriving DecidableEq, Repr

/-- What a bit-write operation does to its bit (R212). -/
inductive BitOp where
  | set
  | clr
  | tgl
deriving DecidableEq, Repr

/-- A write accepted for a package-beam register, waiting for its application point (R47). -/
structure PkgWrite where
  addr : Nat
  val : Word
  due : Nat
  /-- A write of one bit (R212). -/
  bitOp : Option (Nat × BitOp)
deriving DecidableEq, Repr

/-- Loop states of BEL_PKG_STAT (file 02). -/
inductive GlState where
  | freeRun
  | acquiring
  | jamPending
  | tracking
  | holdover
deriving DecidableEq, Repr

/-- The locking loop (R65-R73). -/
structure Genlock where
  st : GlState
  rate : Int
  acc : Int
  owed : Int
  locked : Bool
  refPresent : Bool
  /-- Both parts selected REF = twin (R73): free run until REF is written again. -/
  conflict : Bool
  /-- Forge cycle of the last reference event, and line ends counted there. -/
  lastEv : Option Nat
  lastEnds : Nat
  /-- First interval of the count, intervals seen, their sum (R67). -/
  first : Nat
  seen : Nat
  sum : Nat
  /-- Mean interval after acquisition, in forge cycles. -/
  period : Nat
  /-- Runs of measurements inside and outside the window, and at the rate limit (R70, R71). -/
  good : Nat
  bad : Nat
  limit : Nat
  /-- Package frame starts until the next measured one (R66 frame pairing). -/
  pair : Nat
  /-- Forge cycles of the last two measured package events, newest first. -/
  pkgAt : Option Nat
  pkgBefore : Option Nat
  /-- A reference event waiting for its package event, and its m of R70. -/
  waitEv : Option Nat
  waitM : Nat
  /-- Line number of the last GLK_H edge once a GLK_V edge has numbered the lines (R66). -/
  refLine : Option Nat
  /-- A GLK_V edge was seen and the next GLK_H edge is line 0. -/
  armV : Bool
  /-- This acquisition follows a loss (R72): jams only with REJAM. -/
  again : Bool
  /-- Frame number the next jam loads, where the reference gives one (R68). -/
  jamFrame : Option Nat
  /-- The jam's target, forge cycles, once predicted (R68). -/
  jamAt : Option Nat
  /-- The GLK_F level (R66). -/
  glkF : Bool
deriving DecidableEq, Repr

/-- Port timing values in force (R53-R60). -/
structure PortCfg where
  hTotal : Nat
  hAct : Nat
  hActStart : Nat
  hsStart : Nat
  hsEnd : Nat
  vsStart : Nat
  vsEnd : Nat
  dotOfs : Nat
  hsPol : Bool
  vsPol : Bool
  dePol : Bool
deriving DecidableEq, Repr

/-- A raster port's channel (R53-R60, R466). -/
structure Port where
  running : Bool
  /-- EN as requested; a stop waits for the next line start. -/
  enabled : Bool
  synOn : Bool
  synLock : Bool
  line : Nat
  frame : Nat
  /-- Forge cycle of the port line's start, the package dots of the package line it belongs to, and the slip made at
  the end of that line (R54). -/
  lineAt : Nat
  lineDots : Nat
  slip : Int
  /-- The port's line of the running package line has begun. -/
  begun : Bool
  /-- Enabled and locked at the last package frame start, the channel starts in this frame's line 0 (R58, R466). -/
  armed : Bool
  /-- A package line that ended before this port's line of the same number began: frame, line (R53). -/
  missed : Option (Nat × Nat)
  /-- Line VTOTAL - 1 of the running frame has begun: `next` is what takes effect (R58). -/
  sampled : Bool
  /-- Timing in force, and the timing accepted in time for the next frame start (R58); from package L0:D0 `cfg` holds
  the new DOT_OFS, the rest from port line 0. -/
  cfg : PortCfg
  next : PortCfg
  /-- Beam flag levels raised by PORT_BEAM_FLAG_CHANGE: DE, HBLANK, HS, VS (R55, R74). -/
  de : Bool
  hblank : Bool
  hs : Bool
  vs : Bool
  /-- A package HTOTAL took the pixel clock out of range: stop at the next line start (R60). -/
  stopNext : Bool
  /-- The line-latched values this port's line uses (R57, R80). -/
  view : Tbl Word
  /-- The band words in force and the LUTs for the same line. -/
  viewEff : Tbl Word
  viewLut : Tbl Nat
deriving DecidableEq, Repr

/-- One write of a commit: to a BAR0 address, or to an offset in every billet; of the whole word, or of one bit of it
(R212). -/
structure CWrite where
  all : Bool
  addr : Nat
  val : Word
  bitOp : Option (Nat × BitOp) := none
deriving DecidableEq, Repr

/-- A line commit or commit group (R24-R33). -/
structure Commit where
  /-- Order of acceptance within its context (R29). -/
  id : Nat
  tick : Nat
  billet : Nat
  ctx : Nat
  writes : List CWrite
  /-- Target line and frame; the line given at the issue (FLX_CMT_EVT.LAST_LINE). -/
  line : Nat
  frame : Nat
  orig : Nat
  accepted : Bool
  /-- Billets that received it; billets that received it before the seal of its line. -/
  recv : List Nat
  inSeal : List Nat
  /-- A billet received it poisoned (R335). -/
  poisoned : Bool
deriving DecidableEq, Repr

/-- The commit system: contexts that collect, commits under way, the seal in progress (R26-R33). -/
structure Commits where
  /-- Collected writes of a context, keyed 32 × billet + context (R33). -/
  held : Tbl (List CWrite)
  /-- Contexts whose group overflowed: their writes issue singly until HOLD is written 1 again (R33). -/
  single : Tbl Bool
  /-- Issued commits, not yet applied. -/
  live : List Commit
  /-- Next order number. -/
  next : Nat
  /-- The line whose seal exchange is under way, as (frame, line). -/
  sealOf : Option (Nat × Nat)
  /-- Seal sets delivered, as (receiver, sender). -/
  got : List (Nat × Nat)
  /-- The exchange has been judged; commits that apply at the next line start, by order number. -/
  judged : Bool
  ready : List Nat
deriving DecidableEq, Repr

/-- A strike entry (R86). -/
structure Strike where
  line : Nat
  dot : Nat
  bc : Bool
  off : Nat
  val : Word
  tag : Nat
deriving DecidableEq, Repr

/-- A strike list's cursor (R89-R97). -/
structure Cursor where
  en : Bool
  /-- Entry the cursor stands at in the active copy. -/
  idx : Nat
  /-- Strikes deferred to the next line under R96, oldest first. -/
  carried : List Strike
  /-- Latched strikes fetched for a line and not yet issued: frame and line, strikes. -/
  latched : List ((Nat × Nat) × List Strike)
  /-- Live strikes waiting for their pixel, with the frame and line they act on. -/
  live : List ((Nat × Nat) × Strike)
  /-- Executed so far in this frame, and the largest count on one line. -/
  exec : Nat
  peak : Nat
  /-- The boundary of R91 has been passed in the running frame. -/
  passed : Bool
  /-- The access window's user: who set the pointer last, or accessed first since reset (R93). -/
  user : Option Who
  /-- Another has accessed the window since then: its words are undefined. -/
  clash : Bool
deriving DecidableEq, Repr

/-- An untagged live write on its way to its live edge (R82). `key` orders equal edges (R84). -/
structure LiveWrite where
  key : Nat
  off : Nat
  val : Word
  /-- A write of one bit (R212). -/
  bitOp : Option (Nat × BitOp)
  /-- Forge cycle of the live edge, once reached. -/
  edge : Option Nat
deriving DecidableEq, Repr

/-- Run states (R193). -/
inductive RunState where
  | halted
  | running
  | waiting
  | sleeping
  | off
deriving DecidableEq, Repr

/-- What a wait waits for (R221). -/
inductive WaitFor where
  | line (v : Nat)
  | bit (n : Nat) (v : Bool)
deriving DecidableEq, Repr

/-- A deadline as a package-beam position: frame, line and dot (R222). -/
structure Deadline where
  frame : Nat
  line : Nat
  dot : Nat
deriving DecidableEq, Repr

/-- A wait in progress: its condition, the words of its instruction and its deadline (R222). -/
structure Wait where
  what : WaitFor
  words : Nat
  dead : Deadline
deriving DecidableEq, Repr

/-- Where a load's value goes: a register, or a register combined with a far bit (R212, R239). -/
inductive LoadDst where
  | reg (g : Nat)
  | bitMov (g i : Nat)
  | bitAnd (g i : Nat)
  | bitOr (g i : Nat)
  | bitXor (g i : Nat)
deriving DecidableEq, Repr

/-- What a window access reaches, fixed at its issue (R201, R202, R211). -/
inductive Target where
  /-- A byte offset of the own billet's hearth RAM. -/
  | hearth (off : Nat)
  /-- A register by its BAR0 address. -/
  | reg (addr : Nat)
deriving DecidableEq, Repr

/-- The outstanding window load (R204): its target, whether it is a register's odd word, the PC of the access, its
deadline (R222), and the register that its post-increment has changed, with the value before (R251). -/
structure PendLoad where
  dst : LoadDst
  target : Target
  odd : Bool
  pc : Nat
  dead : Deadline
  undo : Option (Nat × HWord)
deriving DecidableEq, Repr

/-- What a posted store writes (R203, R204, R212). -/
inductive StoreKind where
  | half (v : HWord)
  | word (v : Word)
  | bit (i : Nat) (op : BitOp)
deriving DecidableEq, Repr

/-- A posted store in the write buffer (R204), with the deadline and the post-increment of its access (R222, R251). -/
structure PendStore where
  kind : StoreKind
  target : Target
  pc : Nat
  dead : Deadline
  undo : Option (Nat × HWord)
deriving DecidableEq, Repr

/-- A hammer's core state (R192-R223). -/
structure Hammer where
  run : RunState
  pc : Nat
  g : Tbl HWord
  a0 : BitVec 40
  a1 : BitVec 40
  ie : Bool
  sm : Bool
  trapAct : Bool
  stack : Tbl HWord
  sp : Nat
  depth : Nat
  /-- Read-high and write-high latches, and the register the last peripheral access read at its even word (R203). -/
  readHigh : HWord
  writeHigh : HWord
  lastEven : Option Nat
  load : Option PendLoad
  stores : List PendStore
  wait : Option Wait
  /-- Levels 640 and 641 (R209). -/
  dlMiss : Bool
  noRun : Bool
  /-- CTRL.STEP was written while HALTED: one instruction is to be executed (R194). -/
  stepReq : Bool
  /-- Repeats the RPT under way has still to run, 0 where there is none, and the address of the repeated instruction
  (R244). -/
  rptLeft : Nat
  rptAt : Nat
  /-- The hammer halts once the instruction under way has ended: CTRL.RUN = 0 within a RPT, or a step that stalls (R194). -/
  haltAsk : Bool
  /-- A BUSERR trap that waits for the boundary: the PC of its access, and the post-increment to undo (R251). -/
  trapDue : Option (Nat × Option (Nat × HWord))
  /-- The access within the instruction under way that fails (R205, R247): how many of its kind come before it, whether it
  misses its deadline, whether it is a write. It stands only while one command is carried out. -/
  failing : Option (Nat × Bool × Bool)
deriving DecidableEq, Repr

/-- A shared interrupt source (R252-R268). -/
structure IrqSrc where
  /-- Input as last sampled. -/
  level : Bool
  /-- Edge latch, held at the source's billet. -/
  pend : Bool
  /-- The controller has seen it asserted since its last completion (R256). -/
  fresh : Bool
  /-- In service at the target. -/
  inSvc : Bool
  /-- Pending as the target hammer holds it (R263). -/
  atTarget : Bool
  /-- A claim or a completion is travelling back to the source's billet (R263). -/
  claimBack : Bool
  doneBack : Bool
deriving DecidableEq, Repr

/-- An in-service slot of a hammer (R264-R267): the source's billet (the hammer's own for a private ID) and ID. -/
structure Slot where
  valid : Bool
  withdrawn : Bool
  billet : Nat
  id : Nat
deriving DecidableEq, Repr


/-- A Tally counter (R456-R458). -/
structure Tally where
  cnt : Nat
  snap : Nat
  /-- Forge cycle + 1 of the last count, of the last snapshot and of the last wrap; 0 for none. -/
  countAt : Nat
  snapAt : Nat
  wrapAt : Nat
deriving DecidableEq, Repr

/-- What a pad does in EMBER and until its first CFG write after the wake (R438). -/
inductive SleepPad where
  | low
  | high
  | highZ
deriving DecidableEq, Repr

/-- A PIO pin (R431-R438); its CFG word stands in the registers. -/
structure Pin where
  /-- The pad's level, the level after the synchroniser, the level after the filter. -/
  pad : Bool
  sync : Bool
  filt : Bool
  /-- Forge cycle in which the first synchroniser stage took the present level (R453). -/
  edgeAt : Nat
  /-- Output latch and output enable. -/
  latch : Bool
  oe : Bool
  /-- A switch is in progress, and the write held during it (R435, R436). -/
  switching : Bool
  held : Option Word
  /-- First forge cycle after the last switch, its BRK and PARK (R435). -/
  swEnd : Nat
  brk : Nat
  park : Nat
  sleep : Option SleepPad
deriving DecidableEq, Repr

/-- A PIO bank's supply (R430, R431). -/
structure Bank where
  supply : BankSupply
  /-- VIOOK as last seen. -/
  ok : Bool
deriving DecidableEq, Repr

/-- A pattern matcher (R439-R442): previous value, SEQ state, forge cycle of its last advance. -/
structure Matcher where
  prev : Word
  st : Nat
  advAt : Nat
deriving DecidableEq, Repr

/-- The tick's control (R443-R445): which increment of the pattern is next, the held STEP_HI, the steps waiting
with the cycle they are due, and the last step applied. -/
structure TickCtl where
  phase : Nat
  hi : Word
  steps : List (Nat × Nat)
  lastAt : Nat
  lastBy : Nat
deriving DecidableEq, Repr

/-- A compare channel (R448-R451). -/
structure Compare where
  t : Nat
  period : Bool
  armed : Bool
  running : Bool
  fired : Bool
  count : Nat
  /-- PERIOD and DUTY in force; forge cycle + 1 of the last wrap. -/
  per : Nat
  duty : Nat
  wrapAt : Nat
deriving DecidableEq, Repr

/-- A capture channel (R452-R455): the accepted level, selected changes since the last capture, the record. -/
structure Capture where
  level : Bool
  changes : Nat
  tick : Nat
  dot : Nat
  line : Nat
  frame : Nat
  lag : Nat
  /-- Forge cycle + 1 of the last record; 0 for none. -/
  recAt : Nat
deriving DecidableEq, Repr

/-- The legacy parallel pixel port of billet 0 or 1 (R188, R189). -/
structure Legacy where
  en : Bool
  port : Nat
  /-- Driving: enabled, its port running and within the clock limit. -/
  run : Bool
  /-- The pixel on the pins: R, G, B of 8 bits. -/
  rgb : Nat
deriving DecidableEq, Repr

/-- A pixel a plane delivers (R104): transparent flag, 12-bit linear components, alpha, priority, and whether it is
the plane's fallback colour. -/
structure Px where
  t : Bool
  r : Nat
  g : Nat
  b : Nat
  a : Nat
  p : Nat
  fb : Bool
deriving DecidableEq, Repr

/-- A 64-byte unit a plane fetches for a line (R119): planes 0-7 graphic layers, 8 sprites, 9-12 video layers. -/
structure FetchUnit where
  plane : Nat
  /-- What it supplies within the plane: a tile column, a sprite, a source row. -/
  tag : Nat
  /-- Byte address divided by 64; hearth RAM lies from 2^32 bytes up. -/
  unit : Nat
  frame : Nat
  line : Nat
  data : Option (List Byte)
  /-- It counted as late for its line (R176), or for a video row on the line named. -/
  late : Option (Nat × Nat)
  granted : Bool
  /-- It holds a read tag (R328); what memory held at its grant, and whether that was a decode error. -/
  hold : Bool
  got : Option (List Byte × Bool)
deriving DecidableEq, Repr

/-- The line-latched registers a line uses, as known at its evaluation (R119). -/
structure LineView where
  frame : Nat
  line : Nat
  regs : Tbl Word
  eff : Tbl Word
deriving DecidableEq, Repr

/-- A column store's load (R116): first entry loaded, table base, and whether a load counted as late. -/
structure ColStore where
  on : Bool
  j0 : Nat
  base : Nat
  hearth : Bool
  late : Bool
deriving DecidableEq, Repr

/-- A slotted sprite on a line (R136, R137): its index and words, and the canvas columns kept. -/
structure SprSlot where
  idx : Nat
  w0 : Word
  w1 : Word
  w2 : Word
  w3 : Word
  c0 : Int
  c1 : Int
deriving DecidableEq, Repr

/-- The slots of a line (R135). -/
structure SprLine where
  frame : Nat
  line : Nat
  slots : List SprSlot
deriving DecidableEq, Repr

/-- A recorded collision (R145). -/
structure CollEntry where
  i : Nat
  j : Nat
  x : Nat
  y : Nat
deriving DecidableEq, Repr

/-- The sprite plane's working report (R145, R146) and peaks. -/
structure CollWork where
  list : List CollEntry
  ovf : Nat
  ghit : Nat
  under : Bool
  depth : Bool
  /-- Pairs met on lines not yet closed: frame, line and the leftmost column of each pair. -/
  found : List (Nat × Nat × CollEntry)
  /-- Frame of the last active line, and whether the close position is still to come. -/
  frame : Nat
  due : Bool
  /-- The line at which the report closes, as the dimensions stand: frame and line. -/
  close : Nat × Nat
  peakVis : Nat
  peakPix : Nat
deriving DecidableEq, Repr

/-- A row of a cut-through ring (R170): input row, columns written, package frame it began in, and what arrived:
first column, column after the last, forge cycle. -/
structure RingRow where
  row : Nat
  cols : Nat
  frame : Nat
  arrivals : List (Nat × Nat × Nat)
deriving DecidableEq, Repr

/-- Values a video layer sampled at its flip (R150). -/
structure VidCfg where
  ctrl : Word
  srcW : Nat
  srcH : Nat
  stride : Nat
  dstX : Nat
  dstY : Nat
  dstW : Nat
  dstH : Nat
  hstep : Nat
  vstep : Nat
  hinit : Int
  vinit : Int
  base : Nat
deriving DecidableEq, Repr

/-- What the lines before a layer's last flip show (R150): the frame fields, RANGE, whether a slot is shown, the ring. -/
structure VidWas where
  cfg : VidCfg
  range : Bool
  shown : Bool
  ring : Nat
deriving DecidableEq, Repr

/-- A video layer (R148-R170). -/
structure Video where
  /-- Slots: 0 FREE, 1 FILLING, 2 READY, 3 SHOWING; their SEQ. -/
  slots : List Nat
  seqs : List Nat
  shown : Bool
  showSeq : Nat
  cfg : VidCfg
  /-- The flip check failed: fallback over the rectangle (R161). -/
  range : Bool
  x0 : Nat
  x1 : Nat
  ws : Nat
  lines : Nat
  ring : Nat
  /-- Source rows fetched so far in the frame, prefill rows left, prefill rows a line, and lines of prefill left. -/
  nextRow : Nat
  preLeft : Nat
  preRate : Nat
  preLines : Nat
  /-- SEQ of the layer's last hardware hand-off. -/
  hwSeq : Nat
  /-- The cut-through ring, its bytes, the pixels that fell back before their column came, and the least margin. -/
  rows : Tbl RingRow
  bytes : List Host.Cell
  waiting : List (Nat × Nat × Nat)
  margin : Option Int
  /-- Bases of the four slots as sampled at the flip, the line of the last flip, and what lines before it show. -/
  bases : List Nat
  flipAt : Nat × Nat
  was : VidWas
  /-- Commits whose hand-offs the flip has taken before their line (R164), by order number. -/
  seen : List Nat
deriving DecidableEq, Repr

/-- A composed pixel of a port: 12-bit components, whether an entry took a fallback pixel (R177), and whether LMODE
blanked it. -/
structure OutPx where
  r : Nat
  g : Nat
  b : Nat
  under : Bool
  blank : Bool
deriving DecidableEq, Repr

/-- A composed group waiting to leave (R175), its pixels as composed. -/
structure Group where
  g : Nat
  px : List OutPx
deriving DecidableEq, Repr

/-- A writeback unit on its way to memory: row, address in the own billet, bytes. -/
structure WbUnit where
  row : Nat
  addr : Nat
  data : List Byte
deriving DecidableEq, Repr

/-- A frame of a writeback whose last rows are still on their way when the next frame begins (R184, R185): control word,
slot or ring index, frame number, a row lost, units. -/
structure WbOld where
  ctrl : Word
  slot : Nat
  frame : Nat
  lost : Bool
  q : List WbUnit
deriving DecidableEq, Repr

/-- A port's output side (R175-R190). -/
structure PortOut where
  /-- Composed groups of the running line not yet sent, and the next group to compose. -/
  groups : List Group
  nextG : Nat
  sentG : Nat
  /-- Pixels of groups sent that have not yet reached their own leaving instant (R533): active dot and pixel. -/
  due : List (Nat × OutPx)
  /-- The line's pixels: as composed, and as they left after step 4. -/
  tap1 : List OutPx
  tap0 : List OutPx
  /-- OFMT and MATRIX of the frame (R180). -/
  ofmt : Nat
  matrix : Nat
  /-- Lit pixels so far, dark run, and whether this frame's count is closed (R190). -/
  lit : Nat
  darkRun : Nat
  /-- The first fallback pixel of the frame has been recorded (R177). -/
  undSeen : Bool
  /-- The running line was cut short under R20. -/
  shortAt : Option (Nat × Nat)
  /-- The last whole active line as it left: frame, line, pixels. -/
  sent : Option (Nat × Nat × List OutPx)
  /-- Writeback of the frame (R183-R186): active, control, base, pitch word, slot or ring index, frame number. -/
  wbOn : Bool
  wbCtrl : Word
  wbBase : Nat
  wbStride : Nat
  wbSlot : Nat
  wbNext : Nat
  wbFrame : Nat
  wbRows : Nat
  wbLost : Bool
  wbDone : Bool
  wbQ : List WbUnit
  /-- The frame before, while rows of it are on their way. -/
  wbOld : Option WbOld
deriving DecidableEq, Repr

/-- A write buffer entry (R321): requester, 64-byte unit, and whether it still needs the slot of its read (R314). -/
structure WriteEnt where
  req : Nat
  unit : Nat
  rmw : Bool
deriving DecidableEq, Repr

/-- A read of a requester other than Anvil (R320, R328): requester, whose work it serves, unit number, and its state: 0
waiting for a tag, 1 holding one, 2 granted, 3 returned; the data as read, and whether it is a decode error. -/
structure MemRead where
  req : Nat
  src : Nat
  unit : Nat
  st : Nat
  data : List Byte
  bad : Bool
deriving DecidableEq, Repr

/-- A channel's walk of the slot table (R322): entry met next, copy walked, slots since training, owner of the next
slot. -/
structure Chan where
  pos : Nat
  copyB : Bool
  slots : Nat
  owner : Nat
  /-- Anvil units granted for the newest line and for the one before (R322). -/
  granted : Nat
  before : Nat
  /-- Times the walk has wrapped. -/
  rounds : Nat
  /-- Check units cached, most recently used first, and those to be fetched (R315). -/
  checks : List Nat
  checkQ : List Nat
deriving DecidableEq, Repr

/-- A billet's GDDR6 controller and arbiter (R307-R329). -/
structure MemCtl where
  training : Bool
  /-- RATE and ECC as sampled at TRAIN (R311). -/
  rate : Nat
  ecc : Bool
  filling : Bool
  retrain : Bool
  /-- Forge cycle of the last retrain or training, and package frames since. -/
  rtAt : Nat
  rtFrames : Nat
  chans : List Chan
  /-- Write buffer entries, oldest first (R321). -/
  wbuf : List WriteEnt
  /-- Reads of requesters 5 to 11 (R320). -/
  reads : List MemRead
  /-- Slot numbers of each requester's last grants (R324). -/
  grants : Tbl (List Nat)
  /-- A swap waits for L0:D0 (R323), and a swap was made in the running fetch window (R325). -/
  swapHeld : Bool
  lastB : List Nat
  /-- The figures of the line before. -/
  prevB : List Nat
  /-- Wraps that the walks in step have made (R322). -/
  round : Nat
  /-- Reservation charged for the most recent line (R125, R315), and grants counted against it. -/
  resv : Nat
  charged : Nat
  /-- 64-bit words known to hold a single-bit error, and an uncorrectable one (R314, R316): address divided by 8. -/
  soft : List Nat
  hard : List Nat
  /-- Units the scrub has walked in its pass (R316). -/
  scrub : Nat
deriving DecidableEq, Repr

/-- A frame in a lane's transmit buffer (R373): service class (0 PTP, 1 audio, 2 raster, 3 firmware), its bytes with FCS,
and the STAT register of its sender, 0 where it has none. -/
structure TxFrame where
  cls : Nat
  data : List Byte
  stat : Nat
deriving DecidableEq, Repr

/-- A lane's transmit side (R373): waiting frames, the frame started last, and the forge cycle from which the lane is
idle. -/
structure Lane where
  queue : List TxFrame
  onWire : Option TxFrame
  idleAt : Nat
deriving DecidableEq, Repr

/-- A raster packet that waits for its release (R383): its line, the release time in quarter forge cycles, and its copies
as (lane, frame). -/
structure HeldPacket where
  line : Nat
  due : Nat
  copies : List (Nat × List Byte)
deriving DecidableEq, Repr

/-- A raster sender (R380-R385): what it accepted for the frame, the role of the running line (R424), active dots of
the line already in packets, the tick at the port's L0:D0, packets waiting for their release, and the release time of the
line's packet before, in quarter forge cycles. -/
structure RasterTx where
  on : Bool
  proto : Bool
  ofmt : Nat
  active : Bool
  sent : Nat
  tick0 : Nat
  held : List HeldPacket
  lastRel : Option Nat
deriving DecidableEq, Repr

/-- The frame a video receive flow is writing (R391); `last` is the number of its last packet once it has come. -/
structure RxFrame where
  ident : Nat
  layer : Nat
  slot : Option Nat
  gap : Bool
  last : Option Nat
deriving DecidableEq, Repr

/-- A receive flow (R389-R399): newest number accepted, the numbers accepted in the window, the next number to be
judged lost with the count accepted from it on, the frame under way and the last one seen, a partial 4:2:2 group (row, first pixel, samples), frames
ended and waiting for their writes, forge cycle + 1 of the last packet of sets A and B, audio samples by media time,
and the newest media time handed over. -/
structure RxFlow where
  newest : Option Nat
  seen : List Nat
  judged : Option (Nat × Nat)
  frame : Option RxFrame
  lastId : Option Nat
  group : Option (Nat × Nat × List Nat)
  done : List RxFrame
  atA : Nat
  atB : Nat
  aud : List (Nat × List Int)
  handed : Option Nat
deriving DecidableEq, Repr

/-- The PTP slave (R401-R405). -/
structure Ptp where
  haveMpd : Bool
  mpd : Int
  integ : Int
  armed : Bool
  good : Nat
  bad : Nat
  /-- GMID and GMPORT in force. -/
  gmid : Nat
  gmport : Nat
  /-- A two-step Sync waiting for its Follow_Up: sequenceId, t2, correction. -/
  wait : Option (Nat × Int × Int)
  /-- The Sync used last: t1, t2, correction. -/
  last : Option (Int × Int × Int)
  srcIp : Nat
  srcMac : Nat
  /-- The last Delay_Req: sequenceId, its tick once sent, and the Sync used before it. -/
  req : Option (Nat × Option Nat × Int × Int × Int)
  reqSeq : Nat
  logInt : Int
  /-- Ticks of the last Sync used and of the last Delay_Req. -/
  syncAt : Nat
  reqAt : Option Nat
deriving DecidableEq, Repr

/-- A line record that waits for its partner (R420), with the package line ends counted when it came. -/
structure RecWait where
  port : Nat
  frame : Nat
  line : Nat
  crc : Nat
  under : Bool
  ends : Nat
deriving DecidableEq, Repr

/-- A notice that waits (R417): a receive flow's finished frame at its layer, the package position of readiness, and
the slot where it is the own part's. -/
structure NoticeWait where
  billet : Nat
  layer : Nat
  ident : Nat
  frame : Nat
  line : Nat
  slot : Nat
deriving DecidableEq, Repr

/-- Quench (R407-R428); its registers stand with the others. -/
structure Quench where
  /-- The part holds role ACTIVE (meaningful while EN = 1). -/
  active : Bool
  /-- A requested role is still to be decided (R412). -/
  deciding : Bool
  /-- The forge cycle in which it is (R412). -/
  decideAt : Nat
  /-- The link is up. -/
  link : Bool
  /-- STATE: 0 off, 1 linking, 2 attached, 3 armed, 4 detached, 5 resync, 6 pairing error. -/
  st : Nat
  /-- The TWIN_PEER level. -/
  peer : Bool
  /-- DETACH waits for the next line start; ATTACH for the next frame start (R425). -/
  detachNext : Bool
  attachNext : Bool
  falign : Bool
  /-- What the twin told for pairing: part, step, CTRL, PORTEN. -/
  twin : Option (Nat × Nat × Nat × Nat)
  twinActive : Bool
  /-- The twin's last frame stamp: frame, its start on the own forge clock, sequence numbers. -/
  stamp : Option (Nat × Nat × List Nat)
  /-- A takeover pending: boundary frame and line, cause, and whether this part's role changes. -/
  pend : Option (Nat × Nat × Nat × Bool)
  own : List RecWait
  theirs : List RecWait
  /-- Compared ports whose port frame has started since comparison became possible (R421). -/
  ready : Nat
  /-- The package frame in progress counts for arming, and every line matched so far. -/
  armFrame : Bool
  armGood : Bool
  /-- Package frames of mismatches: blamed on this part, on the twin, unattributed. -/
  mmLocal : List Nat
  mmTwin : List Nat
  mmUnattr : List Nat
  /-- Sequence alignment (R418): in lockstep already aligned once, and the additions due at the next frame start. -/
  aligned : Bool
  seqAdd : List Nat
  seqOwn : List Nat
  notices : List NoticeWait
  twinNotices : List NoticeWait
deriving DecidableEq, Repr

/-- A voice (R346-R350): active descriptor, envelope state (0 idle, 1 attack, 2 decay, 3 sustain, 4 release) and level,
PCM position in 2^-20 samples, phase, noise state, the sample for the next source load, and PCM units held. -/
structure Voice where
  desc : List Word
  st : Nat
  env : Nat
  pos : Nat
  phase : Nat
  lfsr : Nat
  out : Int
  units : List (Nat × List Byte)
deriving DecidableEq, Repr

/-- An output bus (R362-R367): LIM.EN in force, gain, the 96 inputs received and not yet output (oldest first), the
window's peak and frame count, silent windows in a row, not silent, output, least gain and largest input since the
last reads. -/
structure Bus where
  on : Bool
  g : Nat
  win : List Int
  wpeak : Nat
  wcount : Nat
  quiet : Nat
  loud : Bool
  y : Int
  gmin : Nat
  peak : Nat
deriving DecidableEq, Repr

/-- A gain ramp (R360): slot, first gain, target, K, frames done. -/
structure Ramp where
  slot : Nat
  g0 : Int
  tgt : Int
  k : Nat
  j : Nat
deriving DecidableEq, Repr

/-- A converter (R352): frames since settling started (none: stopped), and its conditions. -/
structure Conv where
  age : Option Nat
  settled : Bool
  lost : Bool
  rateErr : Bool
  /-- Measured rate in Hz, the measurement over 1,024 frames before, tick of the last frame sync. -/
  hz : Nat
  meas : Nat
  seenAt : Nat
deriving DecidableEq, Repr

/-- Tuyere (R338-R369); its registers stand with the others. -/
structure Tuyere where
  running : Bool
  /-- Index of the frame in progress under R338 (at EN that of the tick), frames since EN (R359), no frame has begun since
  EN, and the forge cycle in which the frame in progress began; its slots that have run, and its bus stage has (R339). -/
  kTick : Option Nat
  k : Nat
  fresh : Bool
  frameAt : Nat
  ran : Nat
  staged : Bool
  /-- The delay memory is being cleared, and the forge cycle of EN (R343). -/
  clearing : Bool
  clearAt : Nat
  /-- TUY register words in force (R341). -/
  eff : Tbl Word
  nodes : Tbl Int
  slotSt : Tbl (List Int)
  ramps : List Ramp
  rampLate : List (Nat × Int)
  delay : Tbl Int
  voices : Tbl Voice
  cmds : List (Nat × Nat)
  /-- Program words: copy × 24,576 + word; and the latched word 1 with its key (R354). -/
  prog : Tbl Word
  progLatch : Option (Nat × Word)
  copyB : Bool
  swap : Bool
  par : Tbl Word
  parEff : Tbl Word
  buses : Tbl Bus
  convs : Tbl Conv
  /-- AMP_EN pins asserted, by k, and TUY_AMPCFG has been written since the package reset (R511). -/
  amp : Nat
  ampCfg : Bool
  /-- TDM slots last received and last sent, by 16 × port + slot. -/
  tdmIn : Tbl Word
  tdmOut : Tbl Word
  /-- Samples the sinks last sent, by sink. -/
  sinks : Tbl Int
  /-- Output sides powered down (R369). -/
  down : Nat
deriving DecidableEq, Repr

/-- A Swage unit (R276-R292): running, waiting with its deadline, the parameter words of the operation, the destination
pieces still to be written as (row, first and last column), a piece held by the fence, the forge cycle it started, the
operation has ended in an error or abort. -/
structure Swage where
  busy : Bool
  waiting : Bool
  deadFrame : Nat
  deadLine : Nat
  op : Tbl Word
  todo : List (Nat × Nat × Nat)
  held : Bool
  startAt : Nat
  rows : Nat
  wmk : Bool
deriving DecidableEq, Repr

/-- A Tongs channel (R294-R304): state, pending triggers, the descriptor (hearth offset and its eight words), row and
word reached, running check, deadline as package frame and line, a descriptor has been read, and events heard that have
not yet triggered (R298). -/
structure Tongs where
  st : Nat
  trig : Nat
  pend : Nat
  descAt : Nat
  desc : List Word
  loaded : Bool
  row : Nat
  word : Nat
  chk : Nat
  deadline : Option (Nat × Nat)
deriving DecidableEq, Repr

/-- Temper (R468-R474) and the power state (R476): yield steps taken (Swage 4, Tongs 3, hammers 3, in order), lines on
which the last step could have been undone, measured currents of the last millisecond (newest first), how many of
them each holder may use and its configuration when they were taken, the case temperature in 1/8 °C, the state in force,
a request waiting, where DOZE was left, and the forge cycles of the last current check and the last sensor read. -/
structure Temper where
  steps : Nat
  calm : Nat
  sense : List (List Nat)
  since : Tbl Nat
  conf : Tbl Nat
  tcase : Int
  senseOk : Bool
  state : Nat
  req : Option Nat
  leftAt : Nat
  checkAt : Nat
  sensorAt : Nat
deriving DecidableEq, Repr

/-- Reset, boot and the one-time programmable memory (R478-R485): the part is held in reset, a test instruction holds
it, BOOT_SEL as sampled, the boot step in progress (0 none), image B in use, the image is the host's, its base in
billet 0's GDDR6, the header read, the MEM_CFG the memories were trained under, the boot logic waits for GO, the junction has not cooled
since a THERMAL reset (R475), and the forge cycle in which the watchdog was loaded (R480). -/
structure Boot where
  held : Bool
  sel : Nat
  step : Nat
  imgB : Bool
  host : Bool
  base : Nat
  header : List Byte
  cfg : Nat
  waiting : Bool
  hot : Bool
  wdogAt : Nat
deriving DecidableEq, Repr

/-- The OTP (R484). -/
structure Otp where
  slot0 : Option Nat
  slot1 : Option Nat
  revoke : Nat
  secure : Bool
  svn : Nat
deriving DecidableEq, Repr

/-- Ember (R269-R275): the part is in EMBER, slots whose input was 1 when last sampled, the state left at entry. -/
structure Ember where
  on : Bool
  levels : List Nat
  left : Nat
deriving DecidableEq, Repr

/-- A data port (R492-R495): row start, words in the row, and prefetched words by address. -/
structure DPort where
  row : Nat
  n : Nat
  pref : List (Nat × Word)
deriving DecidableEq, Repr

/-- A posted host write (R490, R491): its data port (4 for a register write), DPk_CTRL as it stood, address, value, and the
frame and line of its deadline. -/
structure Posted where
  port : Nat
  ctl : Word
  addr : Nat
  val : Word
  dead : Nat × Nat
deriving DecidableEq, Repr

/-- The host port (R487-R502): completion data of the last host read, configuration space words, posted writes not yet
accepted (oldest first), the test access port's instruction, the word addresses of reads that wait for earlier writes with
their deadline, and the host interrupt bits set in a forge cycle, that cycle + 1 first. -/
structure HostPort where
  out : List Word
  cfg : Tbl Word
  posted : List Posted
  ir : Nat
  wait : List Nat
  waitDead : Nat × Nat
  irqSet : Nat × Word
deriving DecidableEq, Repr

/-- The whole package. -/
structure State where
  /-- Fixed for the run: which variant the package is (R2). -/
  variant : Variant
  /-- Forge cycles since the release of reset. -/
  now : Nat
  /-- Index of the next free value (log entry 3). -/
  freeCount : Nat
  /-- The registers, keyed by BAR0 offset; an unlisted register holds its reset word. -/
  regs : Tbl Word
  /-- RWS words in force, where the boundary of their chapter has made them so; unlisted ones are at reset. -/
  eff : Tbl Word
  /-- Latch sets of R62, keyed (18 × billet + accessor) × 2^24 + BAR0 offset. -/
  latches : Tbl Word
  beam : Beam
  pkgQueue : List PkgWrite
  genlock : Genlock
  /-- Raster ports, keyed 4 × billet + port. -/
  ports : Tbl Port
  /-- Forge cycle + 1 of the last occurrence of a beam event, keyed 128 × billet + event (R75). -/
  evtAt : Tbl Nat
  /-- Sticky bits of each hammer's bit space as a number, keyed 16 × billet + hammer (R209). -/
  sticky : Tbl Nat
  commits : Commits
  /-- Strike RAM words, keyed port × 32,768 + copy × 16,384 + word (R89). -/
  strikeRam : Tbl Word
  cursors : Tbl Cursor
  /-- Untagged live writes per billet (R82). -/
  liveQ : Tbl (List LiveWrite)
  /-- Live registers as the pixels see them, 4 anvil clocks behind an untagged write's edge (R82). -/
  liveOut : Tbl Word
  /-- A latched reflex fire waiting to be accepted, by 16 × billet + slot: its commit's order number (R100). -/
  reflexWait : Tbl (Option Nat)
  hammers : Tbl Hammer
  /-- Program memories, keyed hammer × 16,384 + address (R196). -/
  progMem : Tbl (BitVec 14)
  /-- X and Y banks, keyed hammer × 8,192 + address (R198). -/
  banks : Tbl HWord
  /-- Private bits 0-255 of each hammer as a number (R208). -/
  privBits : Tbl Nat
  irq : Tbl IrqSrc
  /-- Private pending bits per hammer as a number (R253). -/
  ppend : Tbl Nat
  /-- In-service slots, keyed hammer × 4 + priority (R264). -/
  slots : Tbl Slot
  /-- Hearth RAM, keyed billet × 2 MiB + offset, as bytes (R317). -/
  hearth : List Host.Cell
  /-- GDDR6, keyed by global address (R34). -/
  gddr : List Host.Cell
  /-- The occasions on which the contents became undefined: of each billet's GDDR6 (R310), of hearth RAM (R317); 0 for
  none. Stored bytes stand relative to the byte an unwritten address then holds. -/
  gddrEra : Tbl Nat
  hearthEra : Nat
  /-- 64-bit words of hearth RAM known to be uncorrectable, by key divided by 8 (R317). -/
  hearthBad : List Nat
  /-- The tick: whole nanoseconds, and the fraction in units of 2^-32 (R443). -/
  tick : Nat
  tickFrac : Nat
  tallies : Tbl Tally
  /-- Pins, keyed 48 × billet + pin. -/
  pins : Tbl Pin
  /-- Legacy pixel ports, by billet. -/
  legacy : Tbl Legacy
  /-- PIO banks, keyed 4 × billet + bank. -/
  pioBanks : Tbl Bank
  /-- Matchers and capture channels, keyed 16 × billet + number; compare channels, 64 × billet + number. -/
  matchers : Tbl Matcher
  tickCtl : TickCtl
  compares : Tbl Compare
  captures : Tbl Capture
  /-- Fetch units of each billet (R119). -/
  fetches : Tbl (List FetchUnit)
  /-- Lines evaluated last, newest first. -/
  lineViews : List LineView
  /-- Column stores, keyed 8 × billet + layer. -/
  colStores : Tbl ColStore
  /-- Tile pattern cache lines, unit and data, most recently used first, keyed 512 × billet + set (R121). -/
  pcache : Tbl (List (Nat × List Byte))
  sprLines : Tbl (List SprLine)
  coll : Tbl CollWork
  /-- Video layers, keyed 4 × billet + layer. -/
  videos : Tbl Video
  /-- Output LUTs, keyed (((4 × billet + port) × 2 + bank) × 3 + component) × 4,096 + entry (R178). -/
  luts : Tbl Nat
  outs : Tbl PortOut
  /-- Hardware hand-offs to be issued at the next package line start (R163): billet, layer, slot, HSRC of the writer. -/
  handQ : List (Nat × Nat × Nat × Nat)
  memCtl : Tbl MemCtl
  /-- Lanes and raster senders, keyed 4 × billet + number; receive flows, 16 × billet + flow. -/
  lanes : Tbl Lane
  rasterTx : Tbl RasterTx
  /-- Media time of the end of the last packet built, by audio sender (R398). -/
  audioTx : Tbl (Option Nat)
  flows : Tbl RxFlow
  ptp : Ptp
  quench : Quench
  tuy : Tuyere
  /-- Swage units, keyed 2 × billet + unit; Tongs channels, 32 × billet + channel. -/
  swages : Tbl Swage
  tongs : Tbl Tongs
  temper : Temper
  boot : Boot
  otp : Otp
  /-- The QSPI NOR flash the boot logic reads. -/
  flash : List Host.Cell
  ember : Ember
  dports : Tbl DPort
  hostPort : HostPort
  /-- Clock domains held for want of their clock (R465). -/
  heldDoms : List (Nat × ClkDomain)
  /-- Commands waiting, first in first out. -/
  pending : List Instr
deriving DecidableEq, Repr

/-- Port timing at reset. -/
def PortCfg.zero : PortCfg := ⟨0, 0, 0, 0, 0, 0, 0, 0, false, false, false⟩

/-- A port at reset. -/
def Port.init : Port :=
  { running := false, enabled := false, synOn := false, synLock := false, line := 0, frame := 0, lineAt := 0,
    lineDots := 0, slip := 0, begun := false, armed := false, missed := none, sampled := false, cfg := .zero, next := .zero, de := false, hblank := false,
    hs := false, vs := false, stopNext := false, view := [], viewEff := [], viewLut := [] }

/-- The package beam at the release of reset: F0 L0:D0 with the reset timing (R45). -/
def Beam.init : Beam :=
  { running := true, dot := 0, line := 0, frame := 0, phase := 0, htotal := 3125, vtotal := 800, vactStart := 0,
    vact := 0, lineLen := 3125, jam := false, jamLoad := none, cut := false, cutFrame := false, sudden := false, carried := 0, lineAt := 0,
    frameAt := 0, ends := 0 }

/-- The locking loop at reset: free run (R65). -/
def Genlock.init : Genlock :=
  { st := .freeRun, rate := 0, acc := 0, owed := 0, locked := false, refPresent := false, conflict := false,
    lastEv := none, lastEnds := 0, first := 0, seen := 0, sum := 0, period := 0, good := 0, bad := 0, limit := 0,
    pair := 0, pkgAt := none, pkgBefore := none, waitEv := none, waitM := 1, refLine := none, armV := false, again := false, jamFrame := none,
    jamAt := none, glkF := false }

/-- No commit under way. -/
def Commits.init : Commits :=
  { held := [], single := [], live := [], next := 0, sealOf := none, got := [], judged := false, ready := [] }

/-- A strike cursor at reset (R89). -/
def Cursor.init : Cursor :=
  { en := false, idx := 0, carried := [], latched := [], live := [], exec := 0, peak := 0,
    passed := false, user := none, clash := false }

/-- A hammer at reset (R195, R218): H0 of a billet is its keeper and holds SM = 1. -/
def Hammer.init (i : Nat) : Hammer :=
  { run := .halted, pc := 0, g := [], a0 := 0, a1 := 0, ie := false, sm := i % 16 == 0, trapAct := false,
    stack := [], sp := 0, depth := 0, readHigh := 0, writeHigh := 0, lastEven := none, load := none, stores := [],
    wait := none, dlMiss := false, noRun := false, stepReq := false, rptLeft := 0, rptAt := 0,
    haltAsk := false, trapDue := none, failing := none }

/-- A shared source at reset. -/
def IrqSrc.init : IrqSrc := ⟨false, false, false, false, false, false, false⟩

/-- An empty in-service slot. -/
def Slot.init : Slot := ⟨false, false, 0, 0⟩

def Tally.init : Tally := ⟨0, 0, 0, 0, 0⟩

/-- A pin at reset: levels, latch and enable 0 (R431, R434). -/
def Pin.init : Pin := ⟨false, false, false, 0, false, false, false, none, 0, 0, 0, none⟩

def Legacy.init : Legacy := ⟨false, 0, false, 0⟩

def Bank.init : Bank := ⟨.off, false⟩

def Matcher.init : Matcher := ⟨0, 0, 0⟩

def TickCtl.init : TickCtl := ⟨0, 0, [], 0, 0⟩

def Compare.init : Compare := ⟨0, false, false, false, false, 0, 0, 0, 0⟩

def Capture.init : Capture := ⟨false, 0, 0, 0, 0, 0, 0, 0⟩

def ColStore.init : ColStore := ⟨false, 0, 0, false, false⟩

def CollWork.init : CollWork := ⟨[], 0, 0, false, false, [], 0, false, (0, 0), 0, 0⟩

def VidCfg.zero : VidCfg := ⟨0, 0, 0, 0, 0, 0, 0, 0, 65536, 65536, 0, 0, 0⟩

/-- A video layer at reset: four FREE slots (R162), none shown (R165). -/
def Video.init : Video :=
  { slots := [0, 0, 0, 0], seqs := [0, 0, 0, 0], shown := false, showSeq := 0, cfg := .zero, range := false, x0 := 0,
    x1 := 0, ws := 0, lines := 0, ring := 0, nextRow := 0, preLeft := 0, preRate := 0, preLines := 0, hwSeq := 0,
    rows := [], bytes := [], waiting := [], margin := none, bases := [0, 0, 0, 0], flipAt := (0, 0),
    was := ⟨.zero, false, false, 0⟩, seen := [] }

def PortOut.init : PortOut :=
  { groups := [], nextG := 0, sentG := 0, due := [], tap1 := [], tap0 := [], ofmt := 0, matrix := 0, lit := 0, darkRun := 0,
    undSeen := false, shortAt := none, sent := none, wbOn := false, wbCtrl := 0, wbBase := 0, wbStride := 0, wbSlot := 0,
    wbNext := 0, wbFrame := 0, wbRows := 0, wbLost := false, wbDone := false, wbQ := [], wbOld := none }

def Chan.init : Chan := ⟨0, false, 0, 15, 0, 0, 0, [], []⟩

def MemCtl.init : MemCtl :=
  { training := false, rate := 16, ecc := false, filling := false, retrain := false, rtAt := 0, rtFrames := 0,
    chans := [.init, .init, .init, .init], wbuf := [], reads := [], grants := [], swapHeld := false,
    lastB := [0, 0, 0, 0], prevB := [0, 0, 0, 0], round := 0, resv := 0, charged := 0, soft := [], hard := [],
    scrub := 0 }

/-- An output LUT at reset holds the identity (R178). -/
def lutReset (k : Nat) : Nat := k % 4096

def Lane.init : Lane := ⟨[], none, 0⟩

def RasterTx.init : RasterTx := ⟨false, false, 0, true, 0, 0, [], none⟩

def RxFlow.init : RxFlow :=
  { newest := none, seen := [], judged := none, frame := none, lastId := none, group := none, done := [], atA := 0,
    atB := 0, aud := [], handed := none }

def Ptp.init : Ptp :=
  { haveMpd := false, mpd := 0, integ := 0, armed := false, good := 0, bad := 0, gmid := 0, gmport := 0, wait := none,
    last := none, srcIp := 0, srcMac := 0, req := none, reqSeq := 0, logInt := 0,
    syncAt := 0, reqAt := none }

/-- Quench at reset: off, and ROLE reads 1 while EN = 0 (file 15). -/
def Quench.init : Quench :=
  { active := true, deciding := false, decideAt := 0, link := false, st := 0, peer := false, detachNext := false, attachNext := false,
    falign := false, twin := none, twinActive := false, stamp := none, pend := none, own := [], theirs := [], ready := 0,
    armFrame := false, armGood := false, mmLocal := [], mmTwin := [], mmUnattr := [], aligned := false, seqAdd := [],
    seqOwn := [], notices := [], twinNotices := [] }

def Voice.init : Voice := ⟨[], 0, 0, 0, 0, 0, 0, []⟩

def Bus.init : Bus := ⟨false, 0, [], 0, 0, 0, false, 0, 0, 0⟩

def Conv.init : Conv := ⟨none, false, false, false, 0, 0, 0⟩

def Tuyere.init : Tuyere :=
  { running := false, kTick := none, k := 0, clearing := false, eff := [], nodes := [], slotSt := [], ramps := [],
    rampLate := [], delay := [], voices := [], cmds := [], prog := [], progLatch := none, copyB := false, swap := false,
    par := [], parEff := [], buses := [], convs := [], amp := 0, tdmIn := [], tdmOut := [], sinks := [], down := 0,
    fresh := false, frameAt := 0, ran := 0, staged := true, clearAt := 0, ampCfg := false }

def Swage.init : Swage := ⟨false, false, 0, 0, [], [], false, 0, 0, false⟩

def Tongs.init : Tongs := ⟨0, 0, 0, 0, [], false, 0, 0, 0, none⟩

def Temper.init : Temper := ⟨0, 0, [], [], [], 0, false, 0, none, 0, 0, 0⟩

/-- At the release of reset the boot logic has begun at step 1 with BOOT_SEL 00 (R479, R481). -/
def Boot.init : Boot := ⟨false, 0, 1, false, false, 0, [], 0x10, false, false, 0⟩

/-- The OTP as shipped (R530). -/
def Otp.init : Otp := ⟨none, none, 0, false, 0⟩

def Ember.init : Ember := ⟨false, [], 0⟩

def DPort.init : DPort := ⟨0, 0, []⟩

def HostPort.init : HostPort := ⟨[], [], [], 1, [], (0, 0), (0, 0#32)⟩

/-- The package at the release of reset (R45, R195, R479), as the variant with eight billets. Where the spec states
no reset value the field holds the value of log entry 2. -/
def State.reset : State :=
  { variant := .ux8_8, now := 0, freeCount := 0, regs := [], eff := [], latches := [], beam := .init, pkgQueue := [],
    genlock := .init, ports := [], evtAt := [], sticky := [], commits := .init, strikeRam := [], cursors := [], liveQ := [], liveOut := [],
    reflexWait := [], hammers := [], progMem := [], banks := [], privBits := [], irq := [], ppend := [], slots := [],
    hearth := [], gddr := [], gddrEra := [], hearthEra := 0, hearthBad := [],
    tick := 0, tickFrac := 0, tallies := [], pins := [], legacy := [], pioBanks := [], matchers := [], tickCtl := .init, compares := [],
    captures := [],
    fetches := [], lineViews := [], colStores := [], pcache := [], sprLines := [], coll := [], videos := [], luts := [], outs := [], handQ := [],
    memCtl := [],
    lanes := [], rasterTx := [], audioTx := [], flows := [], ptp := .init, quench := .init, tuy := .init, swages := [], tongs := [],
    temper := .init, boot := .init, otp := .init, flash := [], ember := .init, dports := [], hostPort := .init, heldDoms := [],
    pending := [] }

end Sys2Proof.Machine
end

