-- ==== Sys2Proof/Machine/Ops.lean ====
section
/-! DEFINITION. The named operations over registers, memories and records that every family uses. -/

namespace Sys2Proof.Machine

/-- Billets of the package. -/
def State.n (s : State) : Nat := s.variant.billets

/-- Is billet `b` in the package (R3)? -/
def State.present (s : State) (b : Nat) : Bool := b < s.variant.billets

/-- The register at a BAR0 offset, as stored. -/
def State.reg (s : State) (a : Nat) : Word := Tbl.get (regReset s.variant) s.regs a

/-- Store a register word. -/
def State.setReg (s : State) (a : Nat) (v : Word) : State :=
  { s with regs := Tbl.set (regReset s.variant) s.regs a v }

/-- The register at an offset of billet `b`. -/
def State.breg (s : State) (b off : Nat) : Word := s.reg (baddr b off)

/-- Store a register of billet `b`. -/
def State.setBreg (s : State) (b off : Nat) (v : Word) : State := s.setReg (baddr b off) v

/-- Field [hi:lo] of a register of billet `b`. -/
def State.bf (s : State) (b off hi lo : Nat) : Nat := fld (s.breg b off) hi lo

/-- Set the bits of `m` in a register: sticky status bits. -/
def State.orReg (s : State) (a m : Nat) : State := s.setReg a (s.reg a ||| wd m)

/-- Clear the bits of `m` in a register. -/
def State.clrReg (s : State) (a m : Nat) : State := s.setReg a (s.reg a &&& ~~~ (wd m))

/-- Add `n` to a register, wrapping at 2^32. -/
def State.addReg (s : State) (a n : Nat) : State := s.setReg a (s.reg a + wd n)

/-- Replace field [hi:lo] of a register. -/
def State.setRf (s : State) (a hi lo n : Nat) : State := s.setReg a (setFld (s.reg a) hi lo n)

/-- Add `n` to field [hi:lo] of a register, wrapping within the field. -/
def State.addRf (s : State) (a hi lo n : Nat) : State := s.setRf a hi lo (fld (s.reg a) hi lo + n)

/-- The RWS word in force at a BAR0 offset. -/
def State.inForce (s : State) (a : Nat) : Word := Tbl.get (regReset s.variant) s.eff a

/-- Make the RWS word at `a` the word in force. -/
def State.takeEffect (s : State) (a : Nat) : State :=
  { s with eff := Tbl.set (regReset s.variant) s.eff a (s.reg a) }

/-- A value with one bit operated on (R212). -/
def bitApply (w : Word) (i : Nat) (op : BitOp) : Word :=
  match op with
  | .set => setBit w i true
  | .clr => setBit w i false
  | .tgl => setBit w i (!bit w i)

/-- The next free value, as a number (log entry 3). -/
def State.freeNat (s : State) : Nat := Config.free s.freeCount

/-- Advance past the free value just used. -/
def State.nextFree (s : State) : State := { s with freeCount := s.freeCount + 1 }

/-- A free value held within `lo..hi` of integers. -/
def freeWithin (x : Nat) (lo hi : Int) : Int :=
  if hi < lo then lo else lo + ((x : Int) % (hi - lo + 1))

/-- Does frame `a` precede frame `b` (R64)? -/
def framePrec (a b : Nat) : Bool :=
  let d := (b + 2 ^ 48 - a % 2 ^ 48) % 2 ^ 48
  1 ≤ d && d ≤ 2 ^ 47

/-- Does a line, named by frame and number, come before another (R64)? -/
def linePrec (a b : Nat × Nat) : Bool := framePrec a.1 b.1 || (a.1 = b.1 && a.2 < b.2)

/-- Index of hammer `b.Hh` (R12). -/
def hidx (b h : Nat) : Nat := 16 * b + h

/-- Index of port `b.p` (R12). -/
def pidx (b p : Nat) : Nat := 4 * b + p

def State.port (s : State) (b p : Nat) : Port := Tbl.get (fun _ => Port.init) s.ports (pidx b p)

def State.setPort (s : State) (b p : Nat) (x : Port) : State :=
  { s with ports := Tbl.set (fun _ => Port.init) s.ports (pidx b p) x }

def State.cursor (s : State) (b p : Nat) : Cursor := Tbl.get (fun _ => Cursor.init) s.cursors (pidx b p)

def State.setCursor (s : State) (b p : Nat) (x : Cursor) : State :=
  { s with cursors := Tbl.set (fun _ => Cursor.init) s.cursors (pidx b p) x }

def State.hammer (s : State) (b h : Nat) : Hammer := Tbl.get Hammer.init s.hammers (hidx b h)

def State.setHammer (s : State) (b h : Nat) (x : Hammer) : State :=
  { s with hammers := Tbl.set Hammer.init s.hammers (hidx b h) x }

def State.src (s : State) (b id : Nat) : IrqSrc := Tbl.get (fun _ => IrqSrc.init) s.irq (1024 * b + id)

def State.setSrc (s : State) (b id : Nat) (x : IrqSrc) : State :=
  { s with irq := Tbl.set (fun _ => IrqSrc.init) s.irq (1024 * b + id) x }

def State.slot (s : State) (b h l : Nat) : Slot := Tbl.get (fun _ => Slot.init) s.slots (4 * hidx b h + l)

def State.setSlot (s : State) (b h l : Nat) (x : Slot) : State :=
  { s with slots := Tbl.set (fun _ => Slot.init) s.slots (4 * hidx b h + l) x }

/-- What an unlisted byte of a memory reads as (log entry 4). -/
def memDefault : Nat → Byte := fun _ => 0

/-- One byte of a memory. -/
def memByte (m : List Host.Cell) (a : Nat) : Byte := Tbl.get memDefault m a

/-- Write one byte of a memory. -/
def memSet (m : List Host.Cell) (a : Nat) (v : Byte) : List Host.Cell := Tbl.set memDefault m a v

/-- Write bytes from an address up. -/
def memSets (m : List Host.Cell) (a : Nat) (vs : List Byte) : List Host.Cell := Tbl.setRun memDefault m a 1 vs

/-- Read `n` bytes from an address up. -/
def memBytes (m : List Host.Cell) (a n : Nat) : List Byte := Tbl.getRun memDefault m a 1 n

/-- The canonical form of a byte memory. -/
def Memory.wf (m : List Host.Cell) : Bool := Tbl.wf memDefault m

/-- A little-endian number of bytes. -/
def leNat : List Byte → Nat
  | [] => 0
  | b :: t => b.toNat + 256 * leNat t

/-- `n` little-endian bytes of a number. -/
def leBytes : Nat → Nat → List Byte
  | 0, _ => []
  | n + 1, x => BitVec.ofNat 8 x :: leBytes n (x / 256)

/-- A big-endian number of bytes. -/
def beNat (l : List Byte) : Nat := l.foldl (fun acc b => acc * 256 + b.toNat) 0

/-- `n` big-endian bytes of a number. -/
def beBytes (n x : Nat) : List Byte := (leBytes n x).reverse

/-- A little-endian 32-bit word of a memory. -/
def memWord (m : List Host.Cell) (a : Nat) : Word := wd (leNat (memBytes m a 4))

/-- Write a little-endian 32-bit word. -/
def memSetWord (m : List Host.Cell) (a : Nat) (v : Word) : List Host.Cell := memSets m a (leBytes 4 v.toNat)

/-- The end of a billet's usable GDDR6 (R35): 0 before training has succeeded, when nothing is usable (R310), and in
DOZE, where accesses end with a decode error (R476). -/
def State.memEnd (s : State) (b : Nat) : Nat :=
  let st := s.breg b 0x70004
  if !s.present b || fld st 3 0 ≠ 15 || bit st 7 || s.temper.state = 2 then 0
  else match bit st 5, bit st 4 with
    | false, false => 0x80000000
    | false, true => 0x70000000
    | true, false => 0x100000000
    | true, true => 0xE0000000

/-- Is a global address usable (R36)? -/
def State.memOk (s : State) (ga : Nat) : Bool := ga % 2 ^ 32 < s.memEnd (ga / 2 ^ 32)

/-- What a byte holds that nothing has written since the contents became undefined the `era`-th time (R310, R317). -/
def eraByte (era a : Nat) : Byte := if era = 0 then 0 else Config.eraByte era a

/-- The byte a GDDR6 address holds. -/
def State.gbyte (s : State) (ga : Nat) : Byte :=
  memByte s.gddr ga ^^^ eraByte (Tbl.get (fun _ => 0) s.gddrEra (ga / 2 ^ 32)) ga

/-- The stored form of a byte for a GDDR6 address. -/
def State.gstore (s : State) (ga : Nat) (v : Byte) : Byte :=
  v ^^^ eraByte (Tbl.get (fun _ => 0) s.gddrEra (ga / 2 ^ 32)) ga

/-- Read of GDDR6 with its decode error (R36): zeros outside the usable range. -/
def State.gread (s : State) (ga n : Nat) : List Byte :=
  (upto n).map (fun i => if s.memOk (ga + i) then s.gbyte (ga + i) else 0)

/-- The bytes of a write that lie in the usable range, put into a memory. -/
def gwriteList (s : State) : Nat → List Byte → List Host.Cell → List Host.Cell
  | _, [], m => m
  | ga, v :: vs, m => gwriteList s (ga + 1) vs (if s.memOk ga then memSet m ga (s.gstore ga v) else m)

/-- Drop the lines of 64-byte units `u` to `u + n` of billet `b` from its tile pattern cache (R122). -/
def cacheDrop (pc : Tbl (List (Nat × List Byte))) (b u : Nat) : Nat → Tbl (List (Nat × List Byte))
  | 0 => pc
  | n + 1 =>
    let key := 512 * b + (u + n) % 512
    cacheDrop (Tbl.set (fun _ => []) pc key ((Tbl.get (fun _ => []) pc key).filter (fun e => e.1 ≠ u + n))) b u n

/-- Write of GDDR6 (R36): discarded outside the usable range. The tile pattern cache sees it (R122). -/
def State.gwrite (s : State) (ga : Nat) (vs : List Byte) : State :=
  let u := ga % 2 ^ 32 / 64
  let last := (ga % 2 ^ 32 + vs.length - 1) / 64
  { s with gddr := gwriteList s ga vs s.gddr,
           pcache := if vs = [] then s.pcache else cacheDrop s.pcache (ga / 2 ^ 32) u (last + 1 - u) }

/-- Bytes of one billet's hearth RAM (R317). -/
def hearthSize : Nat := 0x200000

/-- The byte a hearth RAM key holds. -/
def State.hbyte (s : State) (k : Nat) : Byte := memByte s.hearth k ^^^ eraByte s.hearthEra k

def State.hread (s : State) (b off n : Nat) : List Byte :=
  (upto n).map (fun i => s.hbyte (b * hearthSize + (off + i) % hearthSize))

/-- Do `n` bytes of a billet's hearth RAM touch a word known to be uncorrectable (R317)? -/
def State.hbad (s : State) (b off n : Nat) : Bool :=
  (upto n).any (fun i => s.hearthBad.contains ((b * hearthSize + (off + i) % hearthSize) / 8))

/-- A word of a billet's hearth RAM turns out to be uncorrectable (R317). -/
def State.hspoil (s : State) (b off : Nat) : State :=
  let w := (b * hearthSize + off % hearthSize) / 8
  { s with hearthBad := w :: s.hearthBad.filter (· ≠ w) }

/-- Bytes put into a billet's hearth RAM, wrapping at its size. -/
def hwriteList (era b : Nat) : Nat → List Byte → List Host.Cell → List Host.Cell
  | _, [], m => m
  | off, v :: vs, m =>
    let k := b * hearthSize + off % hearthSize
    hwriteList era b (off + 1) vs (memSet m k (v ^^^ eraByte era k))

def State.hwrite (s : State) (b off : Nat) (vs : List Byte) : State :=
  { s with hearth := hwriteList s.hearthEra b off vs s.hearth,
           hearthBad := if s.hearthBad = [] then [] else s.hearthBad.filter (fun w =>
             !(upto 8).all (fun j => (upto vs.length).any (fun i => b * hearthSize + (off + i) % hearthSize = 8 * w + j))) }

/-- Latch set an accessor uses on billet `b` (R62): host 0, own hammers 1-16, everyone else 17. -/
def latchSet (who : Who) (b : Nat) : Nat :=
  match who with
  | .host => 0
  | .hammer b' h => if b' = b then 1 + h else 17
  | .unit _ => 17

/-- A latched word (R62). -/
def State.latched (s : State) (who : Who) (b a : Nat) : Word :=
  Tbl.get (fun _ => 0#32) s.latches ((18 * b + latchSet who b) * 2 ^ 24 + a)

/-- Latch a word for an accessor (R62). -/
def State.latch (s : State) (who : Who) (b a : Nat) (v : Word) : State :=
  { s with latches := Tbl.set (fun _ => 0#32) s.latches ((18 * b + latchSet who b) * 2 ^ 24 + a) v }

/-- Do `f` for every billet of the package. -/
def State.eachBillet (s : State) (f : State → Nat → State) : State := (upto s.n).foldl f s

/-- Bits set in a number, below 2^`n`. -/
def bitList (n x : Nat) : List Nat := (upto n).filter (fun i => x.testBit i)

/-- Set bit `i` of a number. -/
def natSet (x i : Nat) : Nat := x ||| (1 <<< i)

/-- Clear bit `i` of a number. -/
def natClr (x i : Nat) : Nat := if x.testBit i then x - (1 <<< i) else x

end Sys2Proof.Machine
end

