-- ==== Sys2Proof/Machine/Crypto.lean ====
section
/-! DEFINITION. The two algorithms that R483 names by their standards, SHA-256 (FIPS 180-4) and ECDSA over P-256
(FIPS 186-4). PRESUMED (log entry 12): the spec names them and leaves their text to the standards. -/

namespace Sys2Proof.Machine

/-! ### SHA-256 -/

/-- The round constants. -/
def shaK : List Nat :=
  [0x428A2F98, 0x71374491, 0xB5C0FBCF, 0xE9B5DBA5, 0x3956C25B, 0x59F111F1, 0x923F82A4, 0xAB1C5ED5,
   0xD807AA98, 0x12835B01, 0x243185BE, 0x550C7DC3, 0x72BE5D74, 0x80DEB1FE, 0x9BDC06A7, 0xC19BF174] ++
  [0xE49B69C1, 0xEFBE4786, 0x0FC19DC6, 0x240CA1CC, 0x2DE92C6F, 0x4A7484AA, 0x5CB0A9DC, 0x76F988DA,
   0x983E5152, 0xA831C66D, 0xB00327C8, 0xBF597FC7, 0xC6E00BF3, 0xD5A79147, 0x06CA6351, 0x14292967] ++
  [0x27B70A85, 0x2E1B2138, 0x4D2C6DFC, 0x53380D13, 0x650A7354, 0x766A0ABB, 0x81C2C92E, 0x92722C85,
   0xA2BFE8A1, 0xA81A664B, 0xC24B8B70, 0xC76C51A3, 0xD192E819, 0xD6990624, 0xF40E3585, 0x106AA070] ++
  [0x19A4C116, 0x1E376C08, 0x2748774C, 0x34B0BCB5, 0x391C0CB3, 0x4ED8AA4A, 0x5B9CCA4F, 0x682E6FF3,
   0x748F82EE, 0x78A5636F, 0x84C87814, 0x8CC70208, 0x90BEFFFA, 0xA4506CEB, 0xBEF9A3F7, 0xC67178F2]

/-- The initial hash value. -/
def shaInit : List Nat :=
  [0x6A09E667, 0xBB67AE85, 0x3C6EF372, 0xA54FF53A, 0x510E527F, 0x9B05688C, 0x1F83D9AB, 0x5BE0CD19]

/-- A 32-bit rotation to the right. -/
def rotr (n x : Nat) : Nat := (x >>> n) ||| (x <<< (32 - n)) % 2 ^ 32

def shaSig0 (x : Nat) : Nat := rotr 7 x ^^^ rotr 18 x ^^^ (x >>> 3)
def shaSig1 (x : Nat) : Nat := rotr 17 x ^^^ rotr 19 x ^^^ (x >>> 10)
def shaSum0 (x : Nat) : Nat := rotr 2 x ^^^ rotr 13 x ^^^ rotr 22 x
def shaSum1 (x : Nat) : Nat := rotr 6 x ^^^ rotr 11 x ^^^ rotr 25 x

/-- The next words of the message schedule: `w` holds the words so far, newest first. -/
def shaExtend : Nat → List Nat → List Nat
  | 0, w => w
  | n + 1, w =>
    let g := fun i => w.getD i 0
    shaExtend n (((shaSig1 (g 1) + g 6 + shaSig0 (g 14) + g 15) % 2 ^ 32) :: w)

/-- The eight working words after the rounds. -/
def shaRounds : List Nat → List Nat → List Nat → List Nat
  | [a, b, c, d, e, f, g, h], k :: ks, w :: ws =>
    let t1 := h + shaSum1 e + ((e &&& f) ^^^ ((0xFFFFFFFF - e) &&& g)) + k + w
    let t2 := shaSum0 a + ((a &&& b) ^^^ (a &&& c) ^^^ (b &&& c))
    shaRounds [(t1 + t2) % 2 ^ 32, a, b, c, (d + t1) % 2 ^ 32, e, f, g] ks ws
  | v, _, _ => v

/-- Big-endian words of a block, oldest first. -/
def shaWords (block : List Byte) : List Nat := (upto 16).map (fun i => beNat ((block.drop (4 * i)).take 4))

/-- One 64-byte block. -/
def shaBlock (hash : List Nat) (block : List Byte) : List Nat :=
  let w := (shaExtend 48 (shaWords block).reverse).reverse
  (hash.zip (shaRounds hash shaK w)).map (fun x => (x.1 + x.2) % 2 ^ 32)

def shaBlocks : Nat → List Nat → List Byte → List Nat
  | 0, hash, _ => hash
  | n + 1, hash, m => shaBlocks n (shaBlock hash (m.take 64)) (m.drop 64)

/-- SHA-256 of bytes, as a number. -/
def sha256 (m : List Byte) : Nat :=
  let zerosN := (119 - m.length % 64) % 64
  let padded := m ++ [0x80#8] ++ List.replicate zerosN 0#8 ++ beBytes 8 (m.length * 8)
  (shaBlocks (padded.length / 64) shaInit padded).foldl (fun acc w => acc * 2 ^ 32 + w) 0

/-! ### P-256 -/

/-- The field prime, the group order, the curve's b, and the base point. -/
def p256 : Nat := 0xFFFFFFFF00000001000000000000000000000000FFFFFFFFFFFFFFFFFFFFFFFF
def p256n : Nat := 0xFFFFFFFF00000000FFFFFFFFFFFFFFFFBCE6FAADA7179E84F3B9CAC2FC632551
def p256b : Nat := 0x5AC635D8AA3A93E7B3EBBD55769886BC651D06B0CC53B0F63BCE3C3E27D2604B
def p256g : Nat × Nat :=
  (0x6B17D1F2E12C4247F8BCE6E563A440F277037D812DEB33A0F4A13945D898C296,
   0x4FE342E2FE1A7F9B8EE7EB4A7C0F9E162BCE33576B315ECECBB6406837BF51F5)

/-- `b ^ e` modulo `m`, for an exponent below 2^fuel. -/
def powMod (m : Nat) : Nat → Nat → Nat → Nat
  | 0, _, _ => 1 % m
  | fuel + 1, b, e =>
    let r := powMod m fuel (b * b % m) (e / 2)
    if e % 2 = 1 then r * b % m else r

/-- The inverse modulo a prime. -/
def invMod (m x : Nat) : Nat := powMod m 256 (x % m) (m - 2)

/-- A point of the curve; none is the point at infinity. -/
abbrev EcPoint := Option (Nat × Nat)

/-- Addition of points. -/
def ecAdd (x y : EcPoint) : EcPoint :=
  match x, y with
  | none, q => q
  | q, none => q
  | some (x1, y1), some (x2, y2) =>
    if x1 = x2 && (y1 + y2) % p256 = 0 then none
    else
      let m :=
        if x1 = x2 then (3 * x1 * x1 + (p256 - 3)) * invMod p256 (2 * y1) % p256
        else (y2 + p256 - y1) * invMod p256 (x2 + p256 - x1) % p256
      let x3 := (m * m + 2 * p256 - x1 - x2) % p256
      some (x3, (m * (x1 + p256 - x3) + p256 - y1) % p256)

/-- A multiple of a point, for a factor below 2^fuel. -/
def ecMul : Nat → Nat → EcPoint → EcPoint
  | 0, _, _ => none
  | fuel + 1, k, q =>
    let r := ecMul fuel (k / 2) (ecAdd q q)
    if k % 2 = 1 then ecAdd r q else r

/-- Is the pair a point of the curve? -/
def onCurve (x y : Nat) : Bool :=
  x < p256 && y < p256 && (y * y) % p256 = (x * x * x + (p256 - 3) * x + p256b) % p256

/-- Is (r, t) a signature of the hash under the key? -/
def ecdsaValid (kx ky r t hash : Nat) : Bool :=
  if !onCurve kx ky || r = 0 || p256n ≤ r || t = 0 || p256n ≤ t then false
  else
    let w := invMod p256n t
    match ecAdd (ecMul 256 (hash * w % p256n) (some p256g)) (ecMul 256 (r * w % p256n) (some (kx, ky))) with
    | none => false
    | some (x, _) => x % p256n = r

end Sys2Proof.Machine
end

