-- ==== Sys2Proof/Machine/Irq.lean ====
section
/-! DEFINITION. Interrupt sources: inputs, sensing, pending state, private events (file 10). -/

namespace Sys2Proof.Machine

def State.pin (s : State) (b n : Nat) : Pin := Tbl.get (fun _ => Pin.init) s.pins (48 * b + n)

def State.setPin (s : State) (b n : Nat) (x : Pin) : State :=
  { s with pins := Tbl.set (fun _ => Pin.init) s.pins (48 * b + n) x }

/-- Offset of a core register of hammer `h`. -/
def hoff (h o : Nat) : Nat := 0x40000 + 0x1000 * h + o

/-- Private pending bits of a hammer (R253). -/
def State.ppendOf (s : State) (b h : Nat) : Nat := Tbl.get (fun _ => 0) s.ppend (hidx b h)

def State.setPpend (s : State) (b h x : Nat) : State :=
  { s with ppend := Tbl.set (fun _ => 0) s.ppend (hidx b h) x }

/-- A private event (R253): sets the pending bit, or is merged and counted in ISTAT.PLOST (R257). -/
def raisePrivate (s : State) (b h id : Nat) : State :=
  let p := s.ppendOf b h
  if p.testBit id then s.addRf (baddr b (hoff h 0x68)) 15 8 1
  else s.setPpend b h (natSet p id)

/-- Fields of IC_SRCi (file 10). -/
def icSrc (s : State) (b id : Nat) : Word := s.breg b (0x50000 + 4 * id)
def srcEn (s : State) (b id : Nat) : Bool := bit (icSrc s b id) 31
def srcPri (s : State) (b id : Nat) : Nat := fld (icSrc s b id) 27 26
def srcTBillet (s : State) (b id : Nat) : Nat := fld (icSrc s b id) 10 8
def srcTHammer (s : State) (b id : Nat) : Nat := fld (icSrc s b id) 3 0

/-- Pulse sources (R254). -/
def isPulse (id : Nat) : Bool := (48 ≤ id && id < 64) || (112 ≤ id && id < 208)

/-- The SENSE in force (R255): 101-111 are taken as 000, and a pulse source is sensed as 010. -/
def srcSense (s : State) (b id : Nat) : Nat :=
  if isPulse id then 2
  else
    let x := fld (icSrc s b id) 30 28
    if x ≤ 4 then x else 0

def isEdge (sense : Nat) : Bool := 2 ≤ sense

/-- Is a sampled input asserted under a level SENSE (R255)? -/
def asserted (sense : Nat) (level : Bool) : Bool := if sense = 1 then !level else level

/-- Pending at the source's billet (R256). -/
def srcPending (s : State) (b id : Nat) : Bool :=
  let x := s.src b id
  let se := srcSense s b id
  if isEdge se then x.pend else asserted se x.level && !x.inSvc && x.fresh

/-- Pending and free to be claimed: a source in service becomes pending at a target only after its completion (R268). -/
def srcOpen (s : State) (b id : Nat) : Bool := srcPending s b id && !(s.src b id).inSvc && !(s.src b id).claimBack

/-- Pending as the target hammer sees it (R263): at once on the same billet, by message on another. -/
def pendingAtTarget (s : State) (b id : Nat) : Bool :=
  if srcTBillet s b id = b then srcOpen s b id else (s.src b id).atTarget

/-- An event of an edge-sensed source: sets the latch, or is merged and counted (R256, R257). -/
def irqEvent (s : State) (b id : Nat) : State :=
  let x := s.src b id
  if x.pend then (s.addReg (baddr b 0x51200) 1).setReg (baddr b 0x51204) (wd id)
  else s.setSrc b id { x with pend := true }

/-- A pulse source fires (R254). -/
def pulseIrq (s : State) (b id : Nat) : State := if s.present b then irqEvent s b id else s

/-- Any of the enabled bits set. -/
def anyBit (v m : Word) : Bool := (v &&& m) != 0#32

/-- The input of a shared source (R254 and the chapters it names). -/
def srcInput (s : State) (b id : Nat) : Bool :=
  let r := fun off => s.breg b off
  let z := fun a => s.reg a
  if id < 36 then
    let p := id - 32
    32 ≤ id && anyBit (r (0x134 + 0x100 * p)) (r (0x138 + 0x100 * p))
  else if id = 36 then anyBit (r 0x30) (r 0x34)
  else if id = 37 then
    (upto 4).any (fun p => (fld (r (0x8010 + 0x40 * p)) 4 0) &&& (fld (r (0x8000 + 0x40 * p)) 12 8) != 0)
      || r 0x8500 != 0#32
  else if id = 38 then (upto 8).any (fun n => (fld (r (0x10038 + 0x80 * n)) 2 0) &&& (fld (r 0x1040C) (4 * n + 2) (4 * n)) != 0)
  else if id = 39 then anyBit (r 0x1800C) (r 0x18010)
  else if id = 40 then (upto 4).any (fun n => (fld (r (0x20048 + 0x100 * n)) 7 0) &&& (fld (r 0x20400) (8 * n + 7) (8 * n)) != 0)
  else if id = 41 then (upto 4).any (fun p => (fld (r (0x30150 + 0x100 * p)) 6 0) &&& (fld (r 0x30020) (8 * p + 6) (8 * p)) != 0)
  else if id = 42 then bit (r 0x80F08) 0
  else if id = 43 then bit (r 0x80F08) 1
  else if id = 44 then (upto 16).any (fun h => bit (r (hoff h 4)) 8)
  else if id < 64 then false
  else if id < 112 then (s.pin b (id - 64)).filt
  else if id < 208 then false
  else if id < 240 then
    let c := id - 208
    (fld (r (0x6800C + 0x20 * c)) 6 0) &&& (fld (r (0x68000 + 0x20 * c)) 22 16) != 0
  else if id < 242 then
    let u := id - 240
    (fld (r (0x60070 + 0x100 * u)) 7 0) &&& (fld (r (0x60074 + 0x100 * u)) 7 0) != 0
  else if id = 242 then anyBit (r 0x70014) (r 0x70018)
  else if id = 243 then anyBit (r 0x708D0) (r 0x708D4) || anyBit (r 0x80010) (r 0x80014)
  else if id < 248 then
    let l := id - 244
    (fld (r (0x90004 + 0x40 * l)) 11 8) &&& (fld (r (0x90008 + 0x40 * l)) 11 8) != 0
  else if id = 248 then
    (upto 16).any (fun f => anyBit (r (0x91010 + 0x40 * f)) (r (0x91014 + 0x40 * f)))
      || (upto 4).any (fun p => anyBit (r (0x9201C + 0x40 * p)) (r (0x92020 + 0x40 * p)))
      || (upto 8).any (fun g => anyBit (r (0x9241C + 0x40 * g)) (r (0x92420 + 0x40 * g)))
      || anyBit (r 0x93014) (r 0x93018)
  else if id < 512 && b ≠ 0 then false
  else if id = 249 then (fld (r 0x9381C) 11 8) &&& (fld (r 0x93820) 11 8) != 0
  else if id = 256 then anyBit (z 0x80200C) (z 0x802010)
  else if id = 257 then anyBit (z 0x801018) (z 0x80101C)
  else if id = 258 then anyBit (z 0x808010) (z 0x808014)
  else if id = 259 then (upto 4).any (fun i => anyBit (z (0x808C08 + 4 * i)) (z (0x808C18 + 4 * i)))
  else if id = 260 then anyBit (z 0x810004) (z 0x810008)
  else if id = 261 then (fld (z 0x811000) 15 8) &&& (fld (z 0x811004) 3 0) != 0
  else if id = 262 then anyBit (z 0x812004) (z 0x812008) || (upto s.n).any (fun c => anyBit (s.breg c 0xC0004) (s.breg c 0xC0008))
  else if id = 263 then Config.emberSource (z 0x803004)
  else if id < 512 then false
  else if id < 1024 then (r (0x51100 + 4 * ((id - 512) / 32))).getLsbD (id % 32)
  else false

/-- Mark the slot of billet `tb` that holds this source as withdrawn (R267). -/
def markWithdrawn (s : State) (b id tb : Nat) : State :=
  (upto 16).foldl (fun s h => (upto 4).foldl (fun s l =>
    let x := s.slot tb h l
    if x.valid && x.billet = b && x.id = id then s.setSlot tb h l { x with withdrawn := true } else s) s) s

/-- The controller samples a source's input (R255, R256, R267). -/
def irqSense (s : State) (b id : Nat) : State :=
  let x := s.src b id
  let new := srcInput s b id
  let se := srcSense s b id
  let s1 := s.setSrc b id { x with level := new }
  if isPulse id then s
  else if isEdge se then
    let ev := (se = 2 && !x.level && new) || (se = 3 && x.level && !new) || (se = 4 && x.level != new)
    if ev then irqEvent s1 b id else s1
  else
    let a := asserted se new
    let s2 := s1.setSrc b id { x with level := new, fresh := x.fresh || a }
    if x.inSvc && !a then markWithdrawn s2 b id b else s2

/-- IRQ_SOURCE_SENSE (R256): the input of a source changes and its pending or withdrawn state is updated. -/
def execIrqSourceSense (b id : Nat) (s : State) : Out State :=
  .next (if s.present b && 32 ≤ id && id < 1024 then irqSense s b id else s)

/-- Interrupt state of a source is exchanged with the other billets (R263): claims and completions travel back, the
pending state travels out to a remote target, and a remote slot learns of a withdrawal (R267). -/
def irqExchange (s : State) (b id : Nat) : State :=
  let x := s.src b id
  let x1 := if x.claimBack then { x with pend := false, inSvc := true, claimBack := false } else x
  let x2 := if x1.doneBack then { x1 with inSvc := false, fresh := false, doneBack := false } else x1
  let s1 := s.setSrc b id x2
  let s2 := s1.setSrc b id { x2 with atTarget := srcTBillet s b id ≠ b && srcOpen s1 b id }
  if x2.inSvc && !isEdge (srcSense s b id) && !asserted (srcSense s b id) x2.level then
    ((upto s.n).filter (· ≠ b)).foldl (fun s tb => markWithdrawn s b id tb) s2
  else s2

/-- IRQ_STATE_MESSAGE (R263). -/
def execIrqStateMessage (b id : Nat) (s : State) : Out State :=
  .next (if s.present b && 32 ≤ id && id < 1024 then irqExchange s b id else s)

end Sys2Proof.Machine
end

