-- ==== Sys2Proof/Machine/Tally.lean ====
section
/-! DEFINITION. Tally counters (R456-R459). -/

namespace Sys2Proof.Machine

def State.tally (s : State) (b k : Nat) : Tally := Tbl.get (fun _ => Tally.init) s.tallies (16 * b + k)

def State.setTally (s : State) (b k : Nat) (x : Tally) : State :=
  { s with tallies := Tbl.set (fun _ => Tally.init) s.tallies (16 * b + k) x }

/-- Offset of a register of Tally k. -/
def taloff (k o : Nat) : Nat := 0xB0000 + 0x20 * k + o

/-- Counter k counts one event: at most one per forge cycle, wrapping at 2^48 with the sticky bit and the pulse of
R457; a count in the cycle of a snapshot is in the snapshot (R458). -/
def tallyCount (s : State) (b k : Nat) : State :=
  let x := s.tally b k
  if x.countAt = s.now + 1 then s
  else
    let c := x.cnt + 1
    let wrap := c = 2 ^ 48
    let c' := if wrap then 0 else c
    let late := x.snapAt = s.now + 1
    let snapClr := bit (s.breg b (taloff k 0)) 29
    let x' := { x with
      cnt := if late && snapClr then x.cnt else c',
      snap := if late then (x.snap + 1) % 2 ^ 48 else x.snap, countAt := s.now + 1,
      wrapAt := if wrap then s.now + 1 else x.wrapAt }
    let s1 := s.setTally b k x'
    if wrap then pulseIrq (s1.orReg (baddr b (taloff k 0x14)) 1) b (192 + k) else s1

/-- Source `src` of billet `b` has an event: every enabled counter that names it counts (R456). -/
def tallySource (s : State) (b src : Nat) : State :=
  (upto 16).foldl (fun s k =>
    let c := s.breg b (taloff k 0)
    if bit c 31 && fld c 7 0 = src then tallyCount s b k else s) s

/-- Snapshots at beam event `e` (R458). -/
def tallySnap (s : State) (b e : Nat) : State :=
  (upto 16).foldl (fun s k =>
    let c := s.breg b (taloff k 0)
    if bit c 28 && fld c 22 16 = e then
      let x := s.tally b k
      s.setTally b k { x with snap := x.cnt, snapAt := s.now + 1, cnt := if bit c 29 then 0 else x.cnt }
    else s) s

/-- CLR (R457): the counter becomes 0 before the count of its cycle. -/
def tallyClear (s : State) (b k : Nat) : State :=
  let x := s.tally b k
  s.setTally b k { x with cnt := if x.countAt = s.now + 1 then 1 else 0 }

/-- TALLY_WRAP (R457): a counter at 2^48 - 1 counts, wraps to 0, sets WRAP and pulses its source. -/
def execTallyWrap (b k : Nat) (s : State) : Out State :=
  .next (if s.present b && k < 16 && (s.tally b k).cnt = 2 ^ 48 - 1 then tallyCount s b k else s)

/-- TALLY_CLEAR (R457). -/
def execTallyClear (b k : Nat) (s : State) : Out State :=
  .next (if s.present b && k < 16 then tallyClear s b k else s)

/-- A read of CNT_LO or SNAP_LO latches its high half for that accessor (R459). -/
def tallyLatch (s : State) (who : Who) (b k : Nat) (snap : Bool) : State × Word :=
  let x := s.tally b k
  let v := if snap then x.snap else x.cnt
  (s.latch who b (baddr b (taloff k (if snap then 0x10 else 0x8))) (wd (bits v 47 32)), wd v)

/-- TALLY_LATCH_READ (R459). -/
def execTallyLatchRead (who : Who) (b k : Nat) (snap : Bool) (s : State) : Out State :=
  .next (if s.present b && k < 16 then (tallyLatch s who b k snap).1 else s)

end Sys2Proof.Machine
end

