-- ==== Sys2Proof/Machine/Trigger.lean ====
section
/-! DEFINITION. Where a Tongs channel hears the events that its TRIG names (R298). -/

namespace Sys2Proof.Machine

def State.tong (s : State) (b c : Nat) : Tongs := Tbl.get (fun _ => Tongs.init) s.tongs (32 * b + c)

def State.setTong (s : State) (b c : Nat) (x : Tongs) : State :=
  { s with tongs := Tbl.set (fun _ => Tongs.init) s.tongs (32 * b + c) x }

/-- A register of Tongs channel c (file 11). -/
def tnga (b c o : Nat) : Nat := baddr b (0x68000 + 0x20 * c + o)

/-- TRIG.TYPE, codes 101-111 taken as 000 (R298). -/
def tngType (s : State) (b c : Nat) : Nat :=
  let t := fld (s.reg (tnga b c 4)) 10 8
  if t ≤ 4 then t else 0

/-- Does TRIG of the channel name trigger `sel` of a type (R298)? A DONE event is another channel's. -/
def tngHears (s : State) (b c ty sel : Nat) : Bool :=
  tngType s b c = ty && fld (s.reg (tnga b c 4)) 6 0 % (match ty with
    | 1 => 64
    | 2 => 32
    | 3 => 128
    | _ => 16) = sel && !(ty = 2 && c = sel)

/-- An event of a type occurs (R298): each armed, running or paused channel of the billet that names it has a trigger
to take. -/
def tngSignal (s : State) (b ty sel : Nat) : State :=
  { s with tongs := s.tongs.map (fun kv =>
      if kv.1 / 32 = b && (kv.2.st = 1 || kv.2.st = 2 || kv.2.st = 3) && tngHears s b (kv.1 % 32) ty sel
      then (kv.1, { kv.2 with trig := kv.2.trig + 1 }) else kv) }

/-- Note that the DONE event of channel `c` comes in this forge cycle (R299). -/
def noteDone (s : State) (b c : Nat) : State :=
  { s with evtAt := Tbl.set (fun _ => 0) s.evtAt (2048 + 32 * b + c) (s.now + 1) }

/-- Has channel `c` set DONE in this forge cycle (R299)? -/
def doneNow (s : State) (b c : Nat) : Bool := Tbl.get (fun _ => 0) s.evtAt (2048 + 32 * b + c) = s.now + 1

end Sys2Proof.Machine
end

