-- ==== Sys2Proof/Machine/Events.lean ====
section
/-! DEFINITION. Beam events (R74-R78): the EVT registers, the hammers' sticky copies, the private interrupts, Tally. -/

namespace Sys2Proof.Machine

/-- Sticky bits of a hammer's bit space (R209). -/
def State.stickyOf (s : State) (b h : Nat) : Nat := Tbl.get (fun _ => 0) s.sticky (hidx b h)

def State.setSticky (s : State) (b h x : Nat) : State :=
  { s with sticky := Tbl.set (fun _ => 0) s.sticky (hidx b h) x }

/-- Set sticky bit `n` in every hammer of a billet (R209). -/
def stickyAll (s : State) (b n : Nat) : State :=
  (upto 16).foldl (fun s h => s.setSticky b h (natSet (s.stickyOf b h) n)) s

/-- A hammer's own port, CFG.PORTSEL (file 08). -/
def portSel (s : State) (b h : Nat) : Nat := s.bf b (hoff h 0x14) 1 0

/-- The sticky flag an event sets (R74), as a bit of the bit space. -/
def eventFlag (e : Nat) : Option Nat :=
  if e < 64 then
    let p := e / 16
    match e % 16 with
    | 0 => some (512 + 16 * p + 8)
    | 1 => some (512 + 16 * p + 9)
    | 3 => some (512 + 16 * p + 15)
    | 6 => some (512 + 16 * p + 10)
    | 7 => some (512 + 16 * p + 11)
    | 8 => some (512 + 16 * p + 12)
    | 9 => some (512 + 16 * p + 13)
    | 10 => some (512 + 16 * p + 14)
    | _ => none
  else match e with
    | 64 => some 584
    | 65 => some 585
    | 68 => some 586
    | 69 => some 587
    | 72 => some 588
    | 73 => some 589
    | 74 => some 590
    | 71 => some 591
    | _ => none

/-- The private interrupt a port event raises in the hammers whose own port it is (R253). -/
def eventPrivate (k : Nat) : Option Nat :=
  match k with
  | 0 => some 17
  | 1 => some 18
  | 6 => some 19
  | 7 => some 20
  | 8 => some 21
  | 9 => some 22
  | 3 => some 23
  | 10 => some 24
  | _ => none

/-- Note that event `e` of billet `b` occurs in this forge cycle (R75). -/
def noteEvent (s : State) (b e : Nat) : State :=
  { s with evtAt := Tbl.set (fun _ => 0) s.evtAt (128 * b + e) (s.now + 1) }

/-- Has event `e` of billet `b` occurred in this forge cycle (R75)? -/
def evtNow (s : State) (b e : Nat) : Bool := Tbl.get (fun _ => 0) s.evtAt (128 * b + e) = s.now + 1

/-- The EVT bits, from event `e0` on, whose events have occurred in this forge cycle: a clear leaves them set (R75). -/
def evtKept (s : State) (b e0 : Nat) : Nat := (((upto 11).filter (fun i => evtNow s b (e0 + i))).map (2 ^ ·)).sum

/-- A hammer's sticky flag `n` was set in this forge cycle: a clear leaves it set (R75). -/
def flagKept (s : State) (b n : Nat) : Bool := (upto 75).any (fun e => eventFlag e = some n && evtNow s b e)

/-- Beam event `e` on billet `b` (R74-R76, R78, R253, R298, R456, R458). -/
def beamEvent (s : State) (b e : Nat) : State :=
  let s0 := noteEvent s b e
  let s1 :=
    if e < 64 then
      (if e % 16 ≤ 10 then s0.orReg (baddr b (0x134 + 0x100 * (e / 16))) (2 ^ (e % 16)) else s0)
    else if e ≤ 74 then s0.orReg (baddr b 0x30) (2 ^ (e - 64)) else s0
  let s2 := match eventFlag e with
    | some n => stickyAll s1 b n
    | none => s1
  let s3 :=
    if e < 64 then
      match eventPrivate (e % 16) with
      | some id => (upto 16).foldl (fun s h => if portSel s b h = e / 16 then raisePrivate s b h id else s) s2
      | none => s2
    else if e = 65 then (upto 16).foldl (fun s h => raisePrivate s b h 25) s2
    else s2
  tallySnap (tallySource (tngSignal s3 b 3 e) b e) b e

/-- A package beam event on every billet (R22). -/
def pkgEvent (s : State) (e : Nat) : State := s.eachBillet (fun s b => beamEvent s b e)

end Sys2Proof.Machine
end

