-- ==== Sys2Proof/Machine/Commit.lean ====
section
/-! DEFINITION. Line commits: contexts, issue, acceptance, seal and application (R23-R33, R334, R335, R532). -/

namespace Sys2Proof.Machine

/-- Live registers of a port (R81): LGAIN, LFORCE, LWIN, LMODE. -/
def isLive (off : Nat) : Bool := 0x30800 ≤ off && off < 0x30900 && off % 0x40 < 0x10

/-- Offsets of the ANV_, SPR_, VID_ and CMP_ blocks, the palette RAM and the sprite table (R24, R25, R87). -/
def inLatchedBlocks (off : Nat) : Bool := (0x10000 ≤ off && off < 0x40000) || (0xD0000 ≤ off && off < 0xF0000)

/-- The line-latched bits of the register at a billet offset (R80): its RW and RWS fields, unless it is live. -/
def latchedMask (v : Variant) (off : Nat) : Nat :=
  if inLatchedBlocks off && !isLive off then
    match regRow v off with
    | some r => r.rw ||| r.rws
    | none => 0
  else 0

/-- Replace the bits of `m` in an old word by those of a new one. -/
def mergeBits (m : Nat) (old new : Word) : Word := (old &&& ~~~ (wd m)) ||| (new &&& wd m)

/-- The plain write of R13: RW and RWS fields take the value, W1C bits clear, W1S bits set, the rest stay. -/
def plainWrite (r : RegRow) (old v : Word) : Word :=
  (mergeBits (r.rw ||| r.rws) old v &&& ~~~ (v &&& wd r.w1c)) ||| (v &&& wd r.w1s)

/-- Address of a commit context register (file 01). -/
def ctxAddr (b k : Nat) : Nat := baddr b (0x80F40 + 4 * k)

/-- The commit context of an originator (R33): hammer h its own, host software context 16 of billet 0. Other units
write no line-latched register of their own; one that did would use its billet's context 26 (log entry 10). -/
def ctxOf : Who → Nat × Nat
  | .host => (0, 16)
  | .hammer b h => (b, h)
  | .unit b => (b, 26)

/-- The billets a write addresses. -/
def CWrite.billets (n : Nat) (w : CWrite) : List Nat := if w.all then upto n else [w.addr / windowSize]

/-- The billets a commit addresses. -/
def Commit.addressed (n : Nat) (c : Commit) : List Nat :=
  (upto n).filter (fun b => c.writes.any (fun w => (w.billets n).contains b))

/-- The position of the line after (frame, line), in the frame length in force (R26). -/
def lineAfter (s : State) (fl : Nat × Nat) : Nat × Nat :=
  if fl.2 + 1 < s.beam.vtotal then (fl.1, fl.2 + 1) else ((fl.1 + 1) % 2 ^ 48, 0)

/-- The running line. -/
def hereLine (s : State) : Nat × Nat := (s.beam.frame, s.beam.line)

/-- Count a deferral in every addressed billet: a group counts as its writes (R27, R30). -/
def countDefer (s : State) (c : Commit) (off evt : Nat) : State :=
  (c.addressed s.n).foldl (fun s b =>
    ((s.addReg (baddr b off) c.writes.length).orReg (baddr b 0x80F08) evt).setRf (baddr b 0x80F08) 31 16 c.orig) s

/-- Late under R27 or R532. -/
def countLate (s : State) (c : Commit) : State := countDefer s c 0x80F00 1

/-- Replace the commits under way. -/
def State.setLive (s : State) (l : List Commit) : State := { s with commits := { s.commits with live := l } }

/-- Entries of billet `b`'s commit store that accepted commits hold beyond the reserves (R334): strike contexts
17-20 take their port's 128 first. -/
def sharedUsed (s : State) (b : Nat) : Nat :=
  let l := s.commits.live.filter (fun c => c.accepted && (c.addressed s.n).contains b)
  let isStrike := fun (c : Commit) => 17 ≤ c.ctx && c.ctx ≤ 20
  let plain := ((l.filter (fun c => !isStrike c)).map (·.writes.length)).sum
  let beyond := (upto s.n).map (fun o => ((upto 4).map (fun p =>
    ((l.filter (fun c => c.billet = o && c.ctx = 17 + p)).map (·.writes.length)).sum - 128)).sum)
  plain + beyond.sum

/-- Can the commit take its entries in every billet it addresses (R334)? -/
def storeRoom (s : State) (c : Commit) : Bool :=
  let t := s.setLive (s.commits.live ++ [{ c with accepted := true }])
  (c.addressed s.n).all (fun b => sharedUsed t b ≤ 2048)

/-- A commit of the same context stands before it unaccepted (R33). -/
def stalledBehind (s : State) (c : Commit) : Bool :=
  s.commits.live.any (fun d => !d.accepted && d.billet = c.billet && d.ctx = c.ctx && d.id < c.id)

/-- Accept the commit with this order number, if its turn has come and its entries are free (R26, R33, R334). The
originating billet holds it from then on. -/
def acceptCommit (s : State) (id : Nat) : State :=
  match s.commits.live.find? (fun c => c.id = id && !c.accepted) with
  | none => s
  | some c =>
    let rest := s.setLive (s.commits.live.filter (fun d => d.id ≠ id))
    if !stalledBehind s c && storeRoom rest c then
      let s1 := s.setLive (s.commits.live.map (fun d =>
        if d.id = id then { d with accepted := true, recv := [d.billet] } else d))
      { s1 with reflexWait := s1.reflexWait.filter (fun kv => kv.2 ≠ some id) }
    else s

/-- Issue a commit: issue tick and target line are fixed here (R26); it is accepted in the same cycle where its
entries are free. -/
def issueCommit (s : State) (billet ctx : Nat) (writes : List CWrite) (target : Nat × Nat) (orig : Nat)
    (late : Bool) : State :=
  let c : Commit := { id := s.commits.next, tick := s.tick, billet := billet, ctx := ctx, writes := writes,
                      line := target.2, frame := target.1, orig := orig, accepted := false, recv := [],
                      inSeal := [], poisoned := false }
  let s1 := { s with commits := { s.commits with live := s.commits.live ++ [c], next := s.commits.next + 1 } }
  acceptCommit (if late then countLate s1 c else s1) c.id

/-- Issue under a context's TGT_EN and TGT_LINE (R26). -/
def issueFrom (s : State) (billet ctx : Nat) (writes : List CWrite) : State :=
  let r := if ctx ≤ 16 then s.reg (ctxAddr billet ctx) else 0#32
  let here := hereLine s
  let l1 := lineAfter s here
  let l2 := lineAfter s l1
  if bit r 1 then
    let t := fld r 31 16
    if s.beam.vtotal ≤ t then
      let tgt := ((here.1 + 1) % 2 ^ 48, 0)
      issueCommit s billet ctx writes (if tgt = l1 then l2 else tgt) t true
    else
      let tgt := if here.2 < t then (here.1, t) else ((here.1 + 1) % 2 ^ 48, t)
      if tgt = l1 then issueCommit s billet ctx writes l2 t true
      else issueCommit s billet ctx writes tgt t false
  else issueCommit s billet ctx writes l2 l2.2 false

/-- Key of a context. -/
def ctxKey (b k : Nat) : Nat := 32 * b + k

def heldOf (s : State) (key : Nat) : List CWrite := Tbl.get (fun _ => []) s.commits.held key

def setHeld (s : State) (key : Nat) (l : List CWrite) : State :=
  { s with commits := { s.commits with held := Tbl.set (fun _ => []) s.commits.held key l } }

def isSingle (s : State) (key : Nat) : Bool := Tbl.get (fun _ => false) s.commits.single key

def setSingle (s : State) (key : Nat) (v : Bool) : State :=
  { s with commits := { s.commits with single := Tbl.set (fun _ => false) s.commits.single key v } }

/-- A committed write of a context (R33): collected while HOLD = 1, the 65th closing the group; else issued. -/
def commitWrite (s : State) (billet ctx : Nat) (w : CWrite) : State :=
  let key := ctxKey billet ctx
  let hold := ctx ≤ 16 && bit (s.reg (ctxAddr billet ctx)) 0
  if hold && !isSingle s key then
    let l := heldOf s key
    if l.length < 64 then setHeld s key (l ++ [w])
    else
      let s1 := issueFrom (setHeld s key []) billet ctx l
      issueFrom (setSingle (s1.orReg (ctxAddr billet ctx) 4) key true) billet ctx [w]
  else issueFrom s billet ctx [w]

/-- HOLD written 1 (R33): start collecting. -/
def holdOn (s : State) (b k : Nat) : State := setSingle (s.orReg (ctxAddr b k) 1) (ctxKey b k) false

/-- HOLD written 0 (R33): the collected writes issue as one group. -/
def holdOff (s : State) (b k : Nat) : State :=
  let l := heldOf s (ctxKey b k)
  let s1 := setSingle (setHeld (s.clrReg (ctxAddr b k) 1) (ctxKey b k) []) (ctxKey b k) false
  if l = [] then s1 else issueFrom s1 b k l

/-- Does the context exist (R33)? -/
def ctxExists (s : State) (b k : Nat) : Bool := s.present b && (k < 16 || (k = 16 && b = 0))

/-- COMMIT_HOLD (R33). -/
def execCommitHold (b k : Nat) (s : State) : Out State := .next (if ctxExists s b k then holdOn s b k else s)

/-- COMMIT_GROUP_ISSUE (R33). -/
def execCommitGroupIssue (b k : Nat) (s : State) : Out State := .next (if ctxExists s b k then holdOff s b k else s)

/-- LINE_COMMIT_ISSUE (R24, R26): a write to line-latched bits is taken up by its originating billet. -/
def lineCommit (s : State) (who : Who) (addr : Nat) (v : Word) : State :=
  let (b, k) := ctxOf who
  if addr < 0x800000 && s.present (addr / windowSize) && latchedMask s.variant (addr % windowSize) ≠ 0
  then commitWrite s b k { all := false, addr := addr, val := v } else s

def execLineCommitIssue (who : Who) (addr : Nat) (v : Word) (s : State) : Out State := .next (lineCommit s who addr v)

/-- Record an error of the host port (file 18): the bit and the BAR0 offset. -/
def hostErr (s : State) (i addr : Nat) : State := (s.orReg 0x810004 (2 ^ i)).setReg 0x81000C (wd addr)

/-- The bits of a write that act at once in a latched block (R80): W1C and W1S fields. -/
def immediateBits (s : State) (addr : Nat) (v : Word) : State :=
  match regRow s.variant addr with
  | some r => s.setReg addr ((s.reg addr &&& ~~~ (v &&& wd r.w1c)) ||| (v &&& wd r.w1s))
  | none => s

/-- A write through the broadcast alias (R25, R85): one line commit to every billet; other offsets and live
registers are discarded, the latter recorded in HST_ERR.LIVEBC. -/
def aliasWrite (s : State) (who : Who) (off : Nat) (v : Word) : State :=
  if !inLatchedBlocks off || off % 4 ≠ 0 then s
  else if isLive off then hostErr s 1 (0x900000 + off)
  else
    let s1 := s.eachBillet (fun s b => immediateBits s (baddr b off) v)
    if latchedMask s.variant off = 0 then s1
    else commitWrite s1 (ctxOf who).1 (ctxOf who).2 { all := true, addr := off, val := v }

/-- BROADCAST_ALIAS_WRITE (R25). -/
def execBroadcastAliasWrite (who : Who) (off : Nat) (v : Word) (s : State) : Out State := .next (aliasWrite s who off v)

/-- COMMIT_ACCEPT (R334). -/
def execCommitAccept (id : Nat) (s : State) : Out State := .next (acceptCommit s id)

/-- A commit arrives at a billet over the broadcast class (R31, R335). -/
def receiveCommit (s : State) (id b : Nat) (poisoned : Bool) : State :=
  let s1 := s.setLive (s.commits.live.map (fun c =>
    if c.id = id && c.accepted && (c.addressed s.n).contains b && !c.recv.contains b then
      { c with recv := c.recv ++ [b], poisoned := c.poisoned || poisoned } else c))
  if poisoned && s.commits.live.any (fun c => c.id = id && c.accepted) then
    (s1.addReg (baddr b 0x8000C) 1).orReg (baddr b 0x80010) 4 else s1

/-- COMMIT_RECEIVE (R31). -/
def execCommitReceive (id b : Nat) (poisoned : Bool) (s : State) : Out State :=
  .next (if s.present b then receiveCommit s id b poisoned else s)

/-- The commit reached every billet it addresses before its seal (R27); its own billet needs no delivery. -/
def Commit.sealed (n : Nat) (c : Commit) : Bool :=
  c.accepted && !c.poisoned && (c.addressed n).all (fun b => c.inSeal.contains b)

/-- Move a commit to another line. -/
def Commit.move (c : Commit) (fl : Nat × Nat) : Commit := { c with frame := fl.1, line := fl.2, inSeal := [] }

/-- Judge the seal in progress (R27, R335): the commits every addressed billet received apply; the others targeted
at the line are late to the next; poisoned ones are discarded. -/
def judgeSeal (s : State) : State :=
  match s.commits.sealOf with
  | none => s
  | some fl =>
    if s.commits.judged then s
    else
      let mine := fun (c : Commit) => c.frame = fl.1 && c.line = fl.2
      let ok := s.commits.live.filter (fun c => mine c && c.sealed s.n)
      let late := s.commits.live.filter (fun c => mine c && !c.sealed s.n && !c.poisoned)
      let nx := lineAfter s fl
      let kept := (s.commits.live.filter (fun c => !(mine c && c.poisoned))).map (fun c =>
        if mine c && !c.sealed s.n then c.move nx else c)
      let s1 := { s with commits := { s.commits with live := kept, judged := true, ready := ok.map (·.id) } }
      late.foldl countLate s1

/-- The seal of the next line (R27): every billet publishes what it has received. -/
def sealLine (s : State) : State :=
  let fl := lineAfter s (hereLine s)
  { s with commits := { s.commits with
      live := s.commits.live.map (fun c => if c.frame = fl.1 && c.line = fl.2 then { c with inSeal := c.recv } else c),
      sealOf := some fl, got := [], judged := false, ready := [] } }

/-- SEAL (R27): at D0 of the running line. -/
def execSeal (s : State) : Out State := .next (if s.beam.running && s.now < s.beam.lineAt + 4 then sealLine s else s)

/-- A billet receives another's seal set; when every set is everywhere the seal is judged (R27). -/
def sealSet (s : State) (dst src : Nat) : State :=
  let got := if s.commits.got.contains (dst, src) then s.commits.got else s.commits.got ++ [(dst, src)]
  let s1 := { s with commits := { s.commits with got := got } }
  if s.commits.sealOf.isSome && got.length = s.n * (s.n - 1) then judgeSeal s1 else s1

/-- SEAL_SET_RECEIVE (R27). -/
def execSealSetReceive (dst src : Nat) (s : State) : Out State :=
  .next (if s.present dst && s.present src && dst ≠ src then sealSet s dst src else s)

/-- The order of application (R29). -/
def Commit.before (c d : Commit) : Bool :=
  c.tick < d.tick || (c.tick = d.tick && (c.billet < d.billet || (c.billet = d.billet &&
    (c.ctx < d.ctx || (c.ctx = d.ctx && c.id ≤ d.id)))))

/-- Insert in R29 order. -/
def insertCommit (c : Commit) : List Commit → List Commit
  | [] => [c]
  | d :: t => if c.before d then c :: d :: t else d :: insertCommit c t

/-- Commits in R29 order. -/
def sortCommits (l : List Commit) : List Commit := l.foldl (fun acc c => insertCommit c acc) []

/-- Split at the 512th write (R30): a commit that would pass it, and every one after it, waits. -/
def takeFirst512 : Nat → List Commit → List Commit × List Commit
  | _, [] => ([], [])
  | used, c :: t =>
    if used + c.writes.length ≤ 512 then
      let r := takeFirst512 (used + c.writes.length) t
      (c :: r.1, r.2)
    else ([], c :: t)

end Sys2Proof.Machine
end

