-- ==== Sys2Proof/Machine/Takeover.lean ====
section
/-! DEFINITION. Triggers of a takeover of the twin pair, and the local fault sources (R414, R422, R423). -/

namespace Sys2Proof.Machine

/-- A Quench register (file 15). -/
def qcha (o : Nat) : Nat := 0x802000 + o

/-- EN, and ID. -/
def qchOn (s : State) : Bool := bit (s.reg (qcha 0)) 0
def qchId (s : State) : Bool := bit (s.reg (qcha 0)) 1

def setQch (s : State) (x : Quench) : State := { s with quench := x }

/-- Raise events of QCH_EVT. -/
def qchEvt (s : State) (m : Nat) : State := s.orReg (qcha 0xC) m

/-- The part holds role ACTIVE as one of a pair (R412). -/
def pairActive (s : State) : Bool := qchOn s && s.quench.active
def pairShadow (s : State) : Bool := qchOn s && !s.quench.active

/-- The `k`-th line after a position. -/
def linesAfter (s : State) (fl : Nat × Nat) : Nat → Nat × Nat
  | 0 => fl
  | k + 1 => linesAfter s (lineAfter s fl) k

/-- The boundary B (R423): the first package line start at least 2,400 forge cycles from now, at the line lengths in
force. -/
def boundaryB (s : State) : Nat × Nat :=
  let first := s.beam.lineAt + 4 * s.beam.lineLen - s.now
  let line := max 1 (4 * s.beam.htotal)
  linesAfter s (hereLine s) (1 + (2400 - first + line - 1) / line)

/-- A trigger of a takeover by this part (R422, R423): taken only while none is pending. -/
def takeTrigger (s : State) (cause : Nat) : State :=
  if qchOn s && s.quench.pend.isNone then
    let b := boundaryB s
    setQch s { s.quench with pend := some (b.1, b.2, cause, true) }
  else s

/-- Local fault source `i` (R414): LFAULT when FMASK names it; on an armed active part a takeover of cause 4 (R422). -/
def localFault (s : State) (i : Nat) : State :=
  if bit (s.reg (qcha 0x1C)) i then
    let s1 := qchEvt s 8
    if pairActive s && s.quench.st = 3 then takeTrigger s1 4 else s1
  else s

end Sys2Proof.Machine
end

