-- ==== Sys2Proof/Machine/Colour.lean ====
section
/-! DEFINITION. Colour arithmetic: widening, the decode table, pixel formats, palette lookup (R111-R113, R178-R181),
and the view of the registers one line uses. -/

namespace Sys2Proof.Machine

/-- The registers as one line of one billet sees them (R119, R57), with the band words in force. -/
structure View where
  variant : Variant
  b : Nat
  regs : Tbl Word
  eff : Tbl Word
deriving DecidableEq, Repr

/-- A register of the view, by billet offset. -/
def View.w (x : View) (off : Nat) : Word := Tbl.get (regReset x.variant) x.regs (baddr x.b off)

/-- A field of a register of the view. -/
def View.f (x : View) (off hi lo : Nat) : Nat := fld (x.w off) hi lo

/-- A flag of a register of the view. -/
def View.i (x : View) (off i : Nat) : Bool := bit (x.w off) i

/-- A band or span word in force (R21). -/
def View.e (x : View) (off : Nat) : Word := Tbl.get (regReset x.variant) x.eff (baddr x.b off)

/-- First canvas column and width of the band (R17). -/
def View.bandX (x : View) : Nat := fld (x.e 0x30000) 16 0
def View.bandW (x : View) : Nat := 16 * min 4096 (fld (x.e 0x30004) 12 0)

/-- Start column and width of port p's span (R18). -/
def View.spanX (x : View) (p : Nat) : Nat := x.bandX + 16 * fld (x.e (0x30010 + 4 * p)) 12 0
def View.spanW (x : View) (p : Nat) : Nat := 16 * fld (x.e (0x30010 + 4 * p)) 28 16

/-- The present registers as a view. -/
def State.viewNow (s : State) (b : Nat) : View := ⟨s.variant, b, s.regs, s.eff⟩

/-- The greatest `n` below 2^`k` above `base` for which `ok` holds, by halving; `ok base` is taken to hold. -/
def searchUp (ok : Nat → Bool) (base : Nat) : Nat → Nat
  | 0 => base
  | k + 1 => if ok (base + 2 ^ k) then searchUp ok (base + 2 ^ k) k else searchUp ok base k

/-- round(4,095 × (num/den)^2.4), exactly. -/
def powTf (num den : Nat) : Nat :=
  searchUp (fun n => decide ((2 * n - 1) ^ 5 * den ^ 12 ≤ 2 ^ 5 * 4095 ^ 5 * num ^ 12)) 0 12

/-- round(a/b) of non-negative numbers, halves up. -/
def roundDiv (a b : Nat) : Nat := (2 * a + b) / (2 * b)

/-- round(4,095 × f(num/den)) with f of IEC 61966-2-1 (R112). -/
def srgbTf (num den : Nat) : Nat :=
  if 100000 * num ≤ 4045 * den then roundDiv (4095 * 100 * num) (1292 * den)
  else powTf (1000 * num + 55 * den) (1055 * den)

/-- The decode step of R112. -/
def decode10 (c : Nat) : Nat := srgbTf c 1023

/-- Widen a component of 5, 8 or 10 bits to 12-bit linear (R112). -/
def widen (width c : Nat) (coded : Bool) : Nat :=
  match width, coded with
  | 5, false => c * 128 + c * 4 + c / 8
  | 5, true => decode10 (c * 32 + c)
  | 8, false => c * 16 + c / 16
  | 8, true => decode10 (c * 4 + c / 64)
  | _, false => c * 4 + c / 256
  | _, true => decode10 c

/-- A transparent pixel. -/
def Px.clear : Px := ⟨true, 0, 0, 0, 0, 0, false⟩

/-- An ARGB 8-8-8-8 word as a pixel: alpha 0 is transparent (R111, R113). -/
def px8888 (w : Nat) (coded : Bool) (p : Nat) : Px :=
  let a := bits w 31 24
  if a = 0 then .clear
  else ⟨false, widen 8 (bits w 23 16) coded, widen 8 (bits w 15 8) coded, widen 8 (bits w 7 0) coded, a, p, false⟩

/-- A fallback pixel (R118, R139, R167). -/
def pxFallback (w : Word) (coded : Bool) (p : Nat) : Px := { px8888 w.toNat coded p with fb := true, p := p }

/-- Bits of a pixel by FMT (R111). -/
def bppOf (fmt : Nat) : Nat := 4 * 2 ^ fmt

/-- A stored pixel in colour (R111-R113): the palette serves FMT 0 and 1. -/
def pxOf (x : View) (fmt : Nat) (d32 coded trans0 : Bool) (pbase bank p raw : Nat) : Px :=
  if fmt < 2 then
    if raw = 0 && trans0 then .clear
    else
      let entry := (1024 * pbase + bank * (if fmt = 0 then 16 else 256) + raw) % 16384
      px8888 (x.w (0xD0000 + 4 * entry)).toNat coded p
  else if fmt = 2 then
    if bits raw 15 15 = 0 then .clear
    else ⟨false, widen 5 (bits raw 14 10) coded, widen 5 (bits raw 9 5) coded, widen 5 (bits raw 4 0) coded, 255, p, false⟩
  else if d32 then
    let a := bits raw 31 30
    if a = 0 then .clear
    else ⟨false, widen 10 (bits raw 29 20) coded, widen 10 (bits raw 19 10) coded, widen 10 (bits raw 9 0) coded, a * 85, p, false⟩
  else px8888 raw coded p

/-- A fetched value, or the unit that is missing: its tag and number. -/
abbrev Got (α : Type) := Except (Nat × Nat) α

/-- Present units of a plane, by tag and number. -/
abbrev Look := Nat → Nat → Option (List Byte)

/-- `n` little-endian bytes at a byte address, within one unit. -/
def rdUnit (look : Look) (tag addr n : Nat) : Got Nat :=
  match look tag (addr / 64) with
  | some d => .ok (leNat ((d.drop (addr % 64)).take n))
  | none => .error (tag, addr / 64)

/-- Every unit that a value needs and `look` lacks, where no unit's data decides which others are needed; at most
`fuel` of them. -/
def lacks {α : Type} (f : Look → Got α) : Nat → Look → List (Nat × Nat)
  | 0, _ => []
  | fuel + 1, look =>
    match f look with
    | .ok _ => []
    | .error e =>
      if (look e.1 e.2).isSome then []
      else e :: lacks f fuel (fun t u => if t = e.1 && u = e.2 then some (List.replicate 64 0) else look t u)

/-- Every unit a value reads, present or not, as far as the present ones tell: at most `fuel`; `shown` are those already
found. -/
def reads {α : Type} (f : Look → Got α) (real : Look) : Nat → Look → List (Nat × Nat)
  | 0, _ => []
  | fuel + 1, shown =>
    match f shown with
    | .ok _ => []
    | .error e =>
      if (shown e.1 e.2).isSome then []
      else e :: (match real e.1 e.2 with
        | some d => reads f real fuel (fun t u => if t = e.1 && u = e.2 then some d else shown t u)
        | none => [])

/-- A hearth RAM address as fetch units number it (R120). -/
def hearthAddr (a : Nat) : Nat := 2 ^ 58 + a % hearthSize

/-- A pixel of `bpp` bits at a bit offset from a byte address (R109). -/
def rdPixel (look : Look) (tag addr bitOfs bpp : Nat) : Got Nat := do
  let n ← rdUnit look tag (addr + bitOfs / 8) ((bpp + 7) / 8)
  if bpp = 4 then pure (if bitOfs % 8 = 0 then n % 16 else n / 16) else pure n

end Sys2Proof.Machine
end

