-- ==== Sys2Proof/Machine/Layers.lean ====
section
/-! DEFINITION. Graphic layers: coordinates, maps, patterns, bitmaps, and the fetch demand (R102-R126). -/

namespace Sys2Proof.Machine

/-- Offset of a register of layer Gn. -/
def goff (n o : Nat) : Nat := 0x10000 + 0x80 * n + o

/-- Tags of a layer's fetch units: a tile pattern uses its tile column before the map repeats, so that each row piece
on the canvas is one (R126). -/
def tagMap : Nat := 20000
def tagLine : Nat := 20001
def tagBmp : Nat := 20002
def tagCol : Nat := 20003

/-- A layer's registers, taken apart (R105-R118). -/
structure Layer where
  en : Bool
  bitmap : Bool
  tile : Nat
  fmt : Nat
  d32 : Bool
  coded : Bool
  trans0 : Bool
  bpri : Nat
  clipX : Bool
  clipY : Bool
  lsEn : Bool
  csEn : Bool
  mapH : Bool
  lsH : Bool
  csH : Bool
  mw : Nat
  mh : Nat
  mapW : Nat
  bank : Nat
  pbase : Nat
  mapBase : Nat
  dBase : Nat
  stride : Nat
  hs : Nat
  vs : Nat
  lsBase : Nat
  csBase : Nat
  lsShift : Nat
  csShift : Nat
  mosH : Nat
  mosV : Nat
  fallback : Word
deriving DecidableEq, Repr

/-- Layer Gn as the view's registers give it. -/
def layerOf (x : View) (n : Nat) : Layer :=
  let c := x.w (goff n 0)
  let g := x.w (goff n 4)
  let t := if bit c 3 then 16 else 8
  let bm := bit c 1
  let sz := x.w (goff n 0x10)
  let mwc := fld g 2 0
  let mhc := if bit c 3 then min 6 (fld g 6 4) else fld g 6 4
  let sc := x.w (goff n 0x28)
  let mo := x.w (goff n 0x2C)
  { en := bit c 0, bitmap := bm, tile := t, fmt := fld c 5 4, d32 := bit c 10, coded := bit c 11, trans0 := bit c 12,
    bpri := fld c 9 8, clipX := bit c 13, clipY := bit c 14, lsEn := bit c 15, csEn := bit c 16, mapH := bit c 17,
    lsH := bit c 18, csH := bit c 19,
    mw := if bm then fld sz 15 0 + 1 else 32 * 2 ^ mwc * t,
    mh := if bm then fld sz 30 16 + 1 else 32 * 2 ^ mhc * t,
    mapW := 32 * 2 ^ mwc, bank := fld g 21 16, pbase := fld g 11 8,
    mapBase := (x.w (goff n 8)).toNat, dBase := (x.w (goff n 0xC)).toNat, stride := fld (x.w (goff n 0x14)) 13 0 * 64,
    hs := fld (x.w (goff n 0x18)) 16 0, vs := fld (x.w (goff n 0x1C)) 14 0,
    lsBase := (x.w (goff n 0x20)).toNat, csBase := (x.w (goff n 0x24)).toNat,
    lsShift := min 4 (fld sc 2 0), csShift := max 3 (fld sc 6 4), mosH := fld mo 3 0 + 1, mosV := fld mo 11 8 + 1,
    fallback := x.w (goff n 0x30) }

/-- A table address in GDDR6 or hearth RAM (R103, R120). -/
def tableAddr (hearth : Bool) (a : Nat) : Nat := if hearth then hearthAddr a else a

/-- Is column index `j` outside the loaded store (R116)? None is before the first load (log entry 47). -/
def colOut (cs : ColStore) (j : Nat) : Bool := cs.on && (j < cs.j0 || cs.j0 + 1024 ≤ j)

/-- The column store's word for index `j` (R116): 0 before a load and outside the loaded range. -/
def colEntry (cs : ColStore) (look : Look) (j : Nat) : Got Nat :=
  if !cs.on || colOut cs j then .ok 0
  else if cs.late then .error (tagCol, tableAddr cs.hearth (cs.base + 4 * j) / 64)
  else rdUnit look tagCol (tableAddr cs.hearth (cs.base + 4 * j)) 4

/-- Layer coordinates of a canvas pixel (R105, R115-R117). -/
def layerXY (l : Layer) (cs : ColStore) (look : Look) (x y : Nat) : Got (Nat × Nat) := do
  let xs := x - x % l.mosH
  let ys := y - y % l.mosV
  let e ← if l.lsEn then rdUnit look tagLine (tableAddr l.lsH (l.lsBase + 4 * (ys / 2 ^ l.lsShift))) 4 else pure 0
  let v ← if l.csEn then colEntry cs look (xs / 2 ^ l.csShift) else pure 0
  pure ((xs + l.hs + e % 2 ^ 17) % 2 ^ 17, (ys + l.vs + e / 2 ^ 17 + v % 2 ^ 15) % 2 ^ 15)

/-- The pixel of tile mode (R107-R109) at layer column `lx0`, before the map repeats, and row `ly`. -/
def tilePx (v : View) (l : Layer) (look : Look) (lx0 ly : Nat) : Got Px := do
  let t := l.tile
  let lx := lx0 % l.mw
  let m ← rdUnit look tagMap (tableAddr l.mapH (l.mapBase + 4 * (ly / t * l.mapW + lx / t))) 4
  let px := if m.testBit 26 then t - 1 - lx % t else lx % t
  let py := if m.testBit 27 then t - 1 - ly % t else ly % t
  let bpp := bppOf l.fmt
  let addr := l.dBase + (m % 2 ^ 20) * (t * t * bpp / 8)
  let raw ← rdPixel look (lx0 / t) addr ((py * t + px) * bpp) bpp
  pure (pxOf v l.fmt l.d32 l.coded l.trans0 l.pbase (bits m 25 20) (bits m 29 28) raw)

/-- The pixel of bitmap mode (R110). -/
def bmpPx (v : View) (l : Layer) (look : Look) (lx ly : Nat) : Got Px := do
  let bpp := bppOf l.fmt
  let raw ← rdPixel look tagBmp (l.dBase + ly * l.stride) (lx * bpp) bpp
  pure (pxOf v l.fmt l.d32 l.coded l.trans0 l.pbase l.bank l.bpri raw)

/-- The pixel a layer delivers for canvas pixel (x, y) of an active line (R104-R118), or the unit it waits for. -/
def layerPx (v : View) (n : Nat) (cs : ColStore) (look : Look) (x y : Nat) : Got Px := do
  let l := layerOf v n
  if !l.en then pure .clear
  else
    let (lx, ly) ← layerXY l cs look x y
    if (l.clipX && l.mw ≤ lx) || (l.clipY && l.mh ≤ ly) then pure .clear
    else
      let ly' := ly % l.mh
      if l.bitmap then bmpPx v l look (lx % l.mw) ly' else tilePx v l look lx ly'

/-- The layer's fallback pixel (R118). -/
def layerFallback (v : View) (n : Nat) : Px :=
  let l := layerOf v n
  pxFallback l.fallback l.coded (if l.bitmap then l.bpri else 0)

/-- Does the pixel use a column index outside the loaded store (R116)? -/
def layerCsOvr (v : View) (n : Nat) (cs : ColStore) (x : Nat) : Bool :=
  let l := layerOf v n
  l.en && l.csEn && colOut cs ((x - x % l.mosH) / 2 ^ l.csShift)

/-- ceil(a / b). -/
def ceilDiv' (a b : Nat) : Nat := (a + b - 1) / b

/-- First entry of a column store load (R116). -/
def colFirst (v : View) (l : Layer) : Nat := (v.bandX - 16) / 2 ^ l.csShift

/-- Entries a column store load needs, at most 1,024 (R116, R124). -/
def colNeed (v : View) (l : Layer) : Nat :=
  min 1024 ((v.bandX + v.bandW - 1) / 2 ^ l.csShift - colFirst v l + 1)

/-- Band columns not clipped by CLIPX (R124). -/
def layerWf (v : View) (l : Layer) : Nat :=
  if l.lsEn || l.csEn || !l.clipX then v.bandW
  else ((upto v.bandW).filter (fun i =>
    let x := v.bandX + i
    decide ((x - x % l.mosH + l.hs) % 2 ^ 17 < l.mw))).length

/-- The demand of layer Gn for a line (R124): `y` is the canvas row of an active line, `load` the column load. -/
def layerDemand (v : View) (n : Nat) (y : Option Nat) (load : Bool) : Nat :=
  let l := layerOf v n
  if !l.en then 0
  else
    let col := if load && l.csEn && !l.csH then ceilDiv' (4 * colNeed v l) 64 + 1 else 0
    match y with
    | none => col
    | some y =>
      let wb := v.bandW
      let wf := layerWf v l
      let c := 2 ^ l.csShift
      let k := if 1 < l.mosH then 1 else 0
      let ly := (y - y % l.mosV + l.vs) % 2 ^ 15
      if (l.clipY && !l.lsEn && !l.csEn && l.mh ≤ ly) || wf = 0 then col
      else
        let ls := if l.lsEn && !l.lsH then 1 else 0
        let bpp := bppOf l.fmt
        let body :=
          if l.bitmap then
            (if l.csEn then ceilDiv' wb c * (ceilDiv' (c * bpp) 512 + 1) + k else ceilDiv' (wf * bpp) 512 + 2 + k)
          else
            let nn := ceilDiv' wf l.tile + 1 + k + (if l.csEn then ceilDiv' wb c else 0)
            nn + (if l.mapH then 0 else if l.csEn then nn else ceilDiv' nn 16 + 2)
        body + ls + col

/-- The units a pixel waits for, as found by asking for it. -/
def missingOf {α : Type} (g : Got α) : List (Nat × Nat) :=
  match g with
  | .ok _ => []
  | .error e => [e]

/-- The units of layer Gn still missing for canvas row y of the band. -/
def layerMissing (v : View) (n : Nat) (cs : ColStore) (look : Look) (y : Nat) : List (Nat × Nat) :=
  (upto v.bandW).flatMap (fun i => missingOf (layerPx v n cs look (v.bandX + i) y))

end Sys2Proof.Machine
end

