-- ==== Sys2Proof/Machine/Sprites.lean ====
section
/-! DEFINITION. The sprite plane: visible set, slots, ceiling, pixels, collision pairs (R128-R145). -/

namespace Sys2Proof.Machine

/-- Fields of a descriptor (R129). -/
def sprX (w0 : Word) : Int := sx 18 (fld w0 17 0)
def sprY (w1 : Word) : Int := sx 16 (fld w1 15 0)
def sprW (w1 : Word) : Nat := 8 * (fld w1 20 16 + 1)
def sprH (w1 : Word) : Nat := 8 * (fld w1 25 21 + 1)
def sprFmt (w1 : Word) : Nat := fld w1 29 27

/-- Bits per pixel of a sprite format (R130). -/
def sprBpp (w1 : Word) : Nat := bppOf (min 3 (sprFmt w1))

/-- Descriptors with EN = 1, in index order; only a written word 0 can have it. -/
def sprEnabled (v : View) : List Nat :=
  v.regs.filterMap (fun kv =>
    let o := kv.1 - baddr v.b 0xE0000
    if baddr v.b 0xE0000 ≤ kv.1 && kv.1 < baddr v.b 0xF0000 && o % 16 = 0 && bit kv.2 18 then some (o / 16) else none)

/-- A descriptor with the canvas columns of it that lie in the band, on the canvas of R17. -/
def sprSlotOf (v : View) (i : Nat) : SprSlot :=
  let w := fun k => v.w (0xE0000 + 16 * i + 4 * k)
  let x := sprX (w 0)
  let lo := max x (v.bandX : Int)
  let hi := min (x + sprW (w 1)) ((min 131072 (v.bandX + v.bandW) : Nat) : Int)
  ⟨i, w 0, w 1, w 2, w 3, lo, max lo hi⟩

/-- Would it be visible on canvas row y, its FMT apart (R131)? -/
def sprOnRow (k : SprSlot) (y : Nat) : Bool :=
  sprY k.w1 ≤ y && (y : Int) < sprY k.w1 + sprH k.w1 && y < 32768 && k.c0 < k.c1

/-- What the evaluation of a line decides (R135-R137). -/
structure SprEval where
  slots : List SprSlot
  visible : Nat
  pix : Nat
  dropped : Nat
  truncated : Nat
  fmtErr : Bool
deriving DecidableEq, Repr

/-- Apply the pixel ceiling in slot order (R137): kept slots, pixels fetched, sprites truncated or emptied. -/
def sprCeil (ceil : Nat) : Nat → Bool → List SprSlot → List SprSlot × Nat × Nat
  | used, _, [] => ([], used, 0)
  | used, closed, k :: t =>
    let wv := (k.c1 - k.c0).toNat
    if closed then
      let r := sprCeil ceil used true t
      ({ k with c1 := k.c0 } :: r.1, r.2.1, r.2.2 + 1)
    else if used + wv ≤ ceil then
      let r := sprCeil ceil (used + wv) false t
      (k :: r.1, r.2.1, r.2.2)
    else
      let r := sprCeil ceil ceil true t
      ({ k with c1 := k.c0 + ((ceil - used : Nat) : Int) } :: r.1, r.2.1, r.2.2 + 1)

/-- The plane's evaluation for canvas row y (R135-R137). -/
def sprEval (v : View) (y : Nat) : SprEval :=
  let cand := ((sprEnabled v).map (sprSlotOf v)).filter (fun k => sprOnRow k y)
  let bad := cand.any (fun k => 5 ≤ sprFmt k.w1)
  let vis := cand.filter (fun k => sprFmt k.w1 < 5)
  let slotMax := min 512 (v.f 0x18004 9 0)
  let ceil := 64 * min 256 (v.f 0x18004 24 16)
  let r := sprCeil ceil 0 false (vis.take slotMax)
  { slots := r.1, visible := vis.length, pix := r.2.1, dropped := vis.length - slotMax, truncated := r.2.2, fmtErr := bad }

/-- Stored row and column of a canvas pixel of a sprite (R132). -/
def sprRC (k : SprSlot) (x : Int) (y : Nat) : Nat × Nat :=
  let w := sprW k.w1
  let h := sprH k.w1
  let r := ((y : Int) - sprY k.w1).toNat
  let c := (x - sprX k.w0).toNat
  (if bit k.w0 20 then h - 1 - r else r, if bit k.w0 19 then w - 1 - c else c)

/-- PATBASE of a slot. -/
def sprBase (k : SprSlot) : Nat := fld k.w2 31 6 * 64

/-- The units of a slot's fetched columns (R138), as unit numbers. -/
def sprUnits (k : SprSlot) (y : Nat) : List Nat :=
  if k.c1 ≤ k.c0 then []
  else
    let bpp := sprBpp k.w1
    let a := sprRC k k.c0 y
    let z := sprRC k (k.c1 - 1) y
    let lo := min a.2 z.2
    let hi := max a.2 z.2
    let b0 := (a.1 * sprW k.w1 + lo) * bpp
    let b1 := (a.1 * sprW k.w1 + hi + 1) * bpp - 1
    (upto (b1 / 512 - b0 / 512 + 1)).map (fun i => sprBase k / 64 + b0 / 512 + i)

/-- The plane's demand (R138). -/
def sprDemand (slots : List SprSlot) (y : Nat) : Nat := ((slots.map (fun k => (sprUnits k y).length))).sum

/-- One sprite's pixel (R132, R133): transparent when not drawn; its alpha is a_out. -/
def sprPx (v : View) (look : Look) (k : SprSlot) (x y : Nat) : Got Px := do
  let bpp := sprBpp k.w1
  let rc := sprRC k x y
  let raw ← rdPixel look k.idx (sprBase k) ((rc.1 * sprW k.w1 + rc.2) * bpp) bpp
  let p := pxOf v (min 3 (sprFmt k.w1)) (sprFmt k.w1 = 4) (bit k.w1 30) (bit k.w1 31) (fld k.w3 9 6) (fld k.w3 5 0) (fld k.w0 22 21) raw
  pure (if p.t then p else { p with a := p.a * (fld k.w3 23 16 + 1) / 256 })

/-- The slots that keep canvas column x. -/
def sprAt (slots : List SprSlot) (x : Nat) : List SprSlot := slots.filter (fun k => k.c0 ≤ (x : Int) && (x : Int) < k.c1)

/-- What each covering sprite gives at a pixel; a missing unit gives the plane's fallback (R139). -/
def sprPixels (v : View) (look : Look) (slots : List SprSlot) (x y : Nat) : List (SprSlot × Px) :=
  (sprAt slots x).map (fun k =>
    match sprPx v look k x y with
    | .ok p => (k, p)
    | .error _ => (k, pxFallback (v.w 0x18008) false (fld k.w0 22 21)))

/-- The pixel the plane delivers (R134, R139): the front-most drawn or fallback pixel whose alpha is not 0. -/
def sprDelivered : List (SprSlot × Px) → Px
  | [] => .clear
  | (_, p) :: t => if !p.t && p.a ≠ 0 then p else sprDelivered t

/-- The priorities of the transparent fallback pixels in front of the delivered one (R139, R177). -/
def sprClearFb : List (SprSlot × Px) → List Nat
  | [] => []
  | (_, p) :: t => if !p.t && p.a ≠ 0 then [] else (if p.fb then [p.p] else []) ++ sprClearFb t

/-- Do the groups of two sprites collide (R142)? -/
def groupsCollide (v : View) (a b : Nat) : Bool :=
  let row := fun g h => bit (v.w (0x18800 + 8 * g + 4 * (h / 32))) (h % 32)
  row a b || row b a

/-- Pixels that take part in collision, front-most first (R143). -/
def sprTaking (ps : List (SprSlot × Px)) : List SprSlot :=
  (ps.filter (fun e => bit e.1.w0 30 && !e.2.t && !e.2.fb)).map (·.1)

/-- All pairs of a list, the earlier first. -/
def pairsOf {α : Type} : List α → List (α × α)
  | [] => []
  | a :: t => t.map (fun b => (a, b)) ++ pairsOf t

/-- The colliding pairs at a pixel (R144). -/
def sprPairs (v : View) (take : List SprSlot) (x y : Nat) : List CollEntry :=
  ((pairsOf (take.take 4)).filter (fun e => groupsCollide v (fld e.1.w0 29 24) (fld e.2.w0 29 24))).map
    (fun e => ⟨e.1.idx, e.2.idx, x, y⟩)

end Sys2Proof.Machine
end

