-- ==== Sys2Proof/Machine/Video.lean ====
section
/-! DEFINITION. Video layers: slots and hand-off, flip, store figures, row fetches, scaling and conversion
(R148-R170). -/

namespace Sys2Proof.Machine

def State.video (s : State) (b n : Nat) : Video := Tbl.get (fun _ => Video.init) s.videos (4 * b + n)

def State.setVideo (s : State) (b n : Nat) (x : Video) : State :=
  { s with videos := Tbl.set (fun _ => Video.init) s.videos (4 * b + n) x }

/-- Offset of a register of layer Vn. -/
def voff (n o : Nat) : Nat := 0x20000 + 0x100 * n + o
def vaddr (b n o : Nat) : Nat := baddr b (voff n o)

/-! ### Slots -/

def slotState (x : Video) (k : Nat) : Nat := x.slots.getD k 0

def setSlotState (x : Video) (k st : Nat) : Video := { x with slots := x.slots.set k st }

/-- The slot in a state, if any. -/
def slotIn (x : Video) (st : Nat) : Option Nat := (upto 4).find? (fun k => slotState x k = st)

/-- BUFSTAT (file 06), kept in step with the slots. -/
def vidBufstat (s : State) (b n : Nat) : State :=
  let x := s.video b n
  let st := (upto 4).foldl (fun acc k => acc + slotState x k * 4 ^ k) 0
  s.setReg (vaddr b n 0x44) (wd (x.showSeq % 2 ^ 16 * 2 ^ 16 + b2n (!x.shown) * 256 + st))

/-! ### Geometry -/

def vidEn (c : VidCfg) : Bool := bit c.ctrl 0
def vidCut (c : VidCfg) : Bool := bit c.ctrl 1
def vidNear (c : VidCfg) : Bool := bit c.ctrl 2

/-! ### Hand-off -/

/-- A hand-off makes a slot READY (R162, R163): another READY slot is dropped. -/
def handOff (s : State) (b n slot seq : Nat) : State :=
  let x := s.video b n
  let drop := match slotIn x 2 with
    | some k => decide (k ≠ slot)
    | none => false
  let x1 := match slotIn x 2 with
    | some k => if k ≠ slot then setSlotState x k 0 else x
    | none => x
  let x2 := { setSlotState x1 slot 2 with seqs := x1.seqs.set slot seq }
  let s1 := s.setVideo b n x2
  let s2 := if drop then (s1.orReg (vaddr b n 0x48) 0x10).addRf (vaddr b n 0x58) 31 16 1 else s1
  vidBufstat s2 b n

/-- HSRC in force, as sampled at the flip (R163): 11 is taken as 00. -/
def hsrcOf (c : Word) : Nat := if fld c 11 10 = 3 then 0 else fld c 11 10

/-- Does the layer take hand-offs of the writer `src` (R163, R169)? In cut-through mode they do not apply. -/
def takesFrom (x : Video) (src : Nat) : Bool := !vidCut x.cfg && hsrcOf x.cfg.ctrl = src

/-- A committed write to HANDOFF by software (R163), in commit `id`; one that the flip has taken is not made again. -/
def softHandOff (s : State) (b n id : Nat) (old new : Word) : State :=
  let x := s.video b n
  if takesFrom x 0 && fld old 31 16 ≠ fld new 31 16 && !x.seen.contains id then
    handOff s b n (fld new 1 0) (fld new 31 16)
  else s

/-- A hardware hand-off (R163), in commit `id`: ignored unless the HSRC of its writer, in bits [3:2], is in force. -/
def hardHandOff (s : State) (b n id : Nat) (v : Word) : State :=
  let x := s.video b n
  if takesFrom x (fld v 3 2) && fld v 3 2 ≠ 0 && !x.seen.contains id then handOff s b n (fld v 1 0) (fld v 31 16) else s

/-- A hardware writer takes the lowest FREE slot and marks it FILLING (R163). -/
def takeSlot (s : State) (b n : Nat) : State × Option Nat :=
  let x := s.video b n
  if vidCut x.cfg then (s, none)
  else
    match slotIn x 0 with
    | some k => (vidBufstat (s.setVideo b n (setSlotState x k 1)) b n, some k)
    | none => (s, none)

/-- A slot that is FILLING returns to FREE (R163, R185). -/
def dropSlot (s : State) (b n k : Nat) : State :=
  let x := s.video b n
  if slotState x k = 1 then vidBufstat (s.setVideo b n (setSlotState x k 0)) b n else s

/-- Every FILLING slot returns to FREE (R163). -/
def dropFilling (s : State) (b n : Nat) : State := (upto 4).foldl (fun s k => dropSlot s b n k) s

/-- Source centre of an output column or row, 16.16 (R156). -/
def vidXc (c : VidCfg) (x : Nat) : Int := c.hinit + ((x : Int) - c.dstX) * c.hstep
def vidYc (c : VidCfg) (r : Nat) : Int := c.vinit + (r : Int) * c.vstep

/-- Clamp an index to 0..n-1 (R157). -/
def clampN (n : Nat) (i : Int) : Nat := (clampI 0 ((n : Int) - 1) i).toNat

/-- First and last source columns the band's pixels read, none when the rectangle misses the band (R160). -/
def vidCols (v : View) (c : VidCfg) : Option (Nat × Nat) :=
  let lo := max c.dstX v.bandX
  let hi := min (c.dstX + c.dstW) (v.bandX + v.bandW)
  if hi ≤ lo then none
  else
    let h4 := 4 * max c.hstep 65536
    let a := vidXc c lo - h4
    let z := vidXc c (hi - 1) + h4
    some (clampN c.srcW (a / 65536), clampN c.srcW (z / 65536))

/-- Highest row output row r needs (R166). -/
def vidRmax (c : VidCfg) (r : Nat) : Nat :=
  let yc := vidYc c r
  let m : Int :=
    if vidNear c then (yc + 32768) / 65536
    else if c.vstep ≤ 65536 then yc / 65536 + 3
    else -((-(yc + 3 * c.vstep)) / 65536) - 1
  clampN c.srcH m

/-- Lowest row output row r needs. -/
def vidRmin (c : VidCfg) (r : Nat) : Nat :=
  let yc := vidYc c r
  let m : Int :=
    if vidNear c then (yc + 32768) / 65536
    else if c.vstep ≤ 65536 then yc / 65536 - 2
    else (yc - 3 * c.vstep) / 65536
  clampN c.srcH m

/-- Rows held resident (R160). -/
def vidL (c : VidCfg) : Nat := if vidNear c then 2 else ceilDiv' (6 * max c.vstep 65536) 65536 + 1

/-- Units of a row (R166). -/
def vidU (c : VidCfg) (x0 x1 : Nat) : Nat :=
  if bit c.ctrl 3 then ceilDiv' (4 * (x1 + 1 - x0)) 64 + 1 else ceilDiv' (16 * (x1 / 6 - x0 / 6 + 1)) 64 + 1

/-- The 64-byte units of a source row's columns, as unit numbers. -/
def vidRowUnits (c : VidCfg) (x0 x1 row : Nat) : List Nat :=
  let start := c.base + row * c.stride
  let (lo, hi) := if bit c.ctrl 3 then (4 * x0, 4 * x1 + 3)
    else (16 * (x0 / 6), 16 * (min (c.srcW - 1) (x1 + 1) / 6) + 15)
  (upto ((start + hi) / 64 - (start + lo) / 64 + 1)).map (fun i => (start + lo) / 64 + i)

/-- The frame fields as sampled at the flip (R150, R156). -/
def vidSample' (v : View) (n showing : Nat) : VidCfg × Bool :=
  let st := fun o => fld (v.w (voff n o)) 19 0
  let cl := fun (x : Nat) => min 524288 (max 4096 x)
  let sz := v.w (voff n 4)
  let dp := v.w (voff n 0xC)
  let ds := v.w (voff n 0x10)
  ({ ctrl := v.w (voff n 0), srcW := fld sz 15 0 + 1, srcH := fld sz 30 16 + 1, stride := fld (v.w (voff n 8)) 13 0 * 64,
     dstX := fld dp 16 0, dstY := fld dp 31 17, dstW := fld ds 16 0 + 1, dstH := fld ds 31 17 + 1,
     hstep := cl (st 0x14), vstep := cl (st 0x18), hinit := sx 32 (v.w (voff n 0x1C)).toNat,
     vinit := sx 32 (v.w (voff n 0x20)).toNat, base := (v.w (voff n (0x30 + 4 * showing))).toNat },
   cl (st 0x14) ≠ st 0x14 || cl (st 0x18) ≠ st 0x18)

/-- The cut-through conditions of R169; `fmtOk` says that the flow's format equals FMT. -/
def ctOk (v : View) (n : Nat) (c : VidCfg) (fmtOk : Bool) : Bool :=
  fld (v.w (voff n 0x14)) 19 0 = 65536 && fld (v.w (voff n 0x18)) 19 0 = 65536 && vidNear c &&
    c.hinit % 65536 = 0 && c.vinit % 65536 = 0 && fmtOk

/-! ### Flip -/

/-- The slots at a flip (R164): READY becomes SHOWING, else the SHOWING slot repeats and REPEAT is set. -/
def flipSlots (s : State) (b n : Nat) : State :=
  let x := s.video b n
  match slotIn x 2 with
  | some k =>
    let x1 := match slotIn x 3 with
      | some j => setSlotState x j 0
      | none => x
    s.setVideo b n { setSlotState x1 k 3 with shown := true, showSeq := x.seqs.getD k 0 }
  | none => (s.orReg (vaddr b n 0x48) 0x20).addRf (vaddr b n 0x58) 15 0 1

/-- The flip of layer Vn (R150, R160-R166), the evaluation of line `fl`: `fmtOk` for R169. Lines before it go on with
what the frame before showed, and keep its fetched rows. -/
def vidFlip (s : State) (v : View) (n : Nat) (fmtOk : Bool) (fl : Nat × Nat) : State :=
  let b := v.b
  let c0 := v.w (voff n 0)
  let prev := s.video b n
  let s1 := if hsrcOf c0 ≠ hsrcOf prev.cfg.ctrl then dropFilling s b n else s
  let s2 := if bit c0 1 then s1 else flipSlots s1 b n
  let x := s2.video b n
  let (c, clamped) := vidSample' v n ((slotIn x 3).getD 0)
  let cols := vidCols v c
  let (x0, x1) := cols.getD (0, 0)
  let ws := if cols.isNone then 0 else x1 + 1 - x0
  let l := vidL c
  let ring := if vidCut c && ws ≠ 0 then 98304 / ws else 0
  let bad := 98304 < ws * l || (!vidCut c && s.beam.vtotal < s.beam.vact + 8) || (vidCut c && !ctOk v n c fmtOk)
  let live := vidEn c && !bad && !vidCut c && x.shown && c.dstY < s.beam.vact && ws ≠ 0
  let r0 := if live then vidRmax c 0 + 1 - vidRmin c 0 else 0
  let x' : Video := { x with cfg := c, range := bad, x0 := x0, x1 := x1, ws := ws, lines := l, ring := ring,
                             nextRow := vidRmin c 0, preLeft := r0, preRate := ceilDiv' r0 8, preLines := 8,
                             rows := if vidCut c then x.rows else [], bytes := if vidCut c then x.bytes else [],
                             waiting := if vidCut c then x.waiting else [], flipAt := fl,
                             bases := (upto 4).map (fun k => (v.w (voff n (0x30 + 4 * k))).toNat),
                             was := ⟨x.cfg, x.range, prev.shown, x.ring⟩ }
  let shownL := if vidCut c then min 255 ring else min 255 l
  let s3 := ((s2.setVideo b n x').setReg (vaddr b n 0x54) (wd (shownL * 2 ^ 24 + ws))).setReg (vaddr b n 0x60) (wd ring)
  let s4 := { s3 with fetches := Tbl.upd (fun _ => []) s3.fetches b (fun l => l.filter (fun u =>
    u.plane ≠ 9 + n || !linePrec (u.frame, u.line) x.flipAt)) }
  vidBufstat (s4.orReg (vaddr b n 0x48) (0x80 + (if clamped then 8 else 0) + (if bad then 4 else 0))) b n

/-- The rows a layer fetches on the evaluation of a line that shows canvas row `y`, if any (R166). -/
def vidRows (x : Video) (y : Option Nat) : List Nat :=
  let c := x.cfg
  if !vidEn c || x.range || vidCut c || !x.shown || x.ws = 0 then []
  else
    let pre := if x.preLines = 0 then 0 else min x.preRate x.preLeft
    let a := (upto pre).map (fun i => x.nextRow + i)
    let z := match y with
      | none => []
      | some y =>
        if c.dstY < y && y < c.dstY + c.dstH then
          let r := y - c.dstY
          (upto (vidRmax c r - vidRmax c (r - 1))).map (fun i => vidRmax c (r - 1) + 1 + i)
        else []
    a ++ z

/-- After an evaluation: the prefill advances. -/
def vidAdvance (x : Video) : Video :=
  let pre := if x.preLines = 0 then 0 else min x.preRate x.preLeft
  { x with nextRow := x.nextRow + pre, preLeft := x.preLeft - pre, preLines := x.preLines - 1 }

/-! ### Pixels -/

/-- Bytes of a source row: row, byte offset, count. -/
abbrev RowRead := Nat → Nat → Nat → Got Nat

/-- A 10-bit sample of a 6-pixel group (R151). -/
def groupSample (rd : RowRead) (row col i : Nat) : Got Nat := do
  let w ← rd row (16 * (col / 6) + 4 * (i / 3)) 4
  pure (bits w (10 * (i % 3) + 9) (10 * (i % 3)))

/-- The three 12-bit samples of a source pixel (R151-R153): R, G, B or Y, Cb, Cr. -/
def srcPixel (rd : RowRead) (rgb : Bool) (srcW row col : Nat) : Got (Nat × Nat × Nat) := do
  if rgb then
    let w ← rd row (4 * col) 4
    pure (bits w 29 20 * 4, bits w 19 10 * 4, bits w 9 0 * 4)
  else
    let k := col % 6
    let y ← groupSample rd row col (2 * k + 1)
    let e := k - k % 2
    let cb ← groupSample rd row col (2 * e)
    let cr ← groupSample rd row col (2 * e + 2)
    if k % 2 = 0 || col + 1 = srcW then pure (y * 4, cb * 4, cr * 4)
    else
      let k' := (col + 1) % 6
      let cb' ← groupSample rd row (col + 1) (2 * k')
      let cr' ← groupSample rd row (col + 1) (2 * k' + 2)
      pure (y * 4, (cb + cb' + 1) / 2 * 4, (cr + cr' + 1) / 2 * 4)

/-- A signed 10-bit coefficient (R159): tap `t` of phase `p`. -/
def vidCoef (v : View) (n bank : Nat) (vert : Bool) (p t : Nat) : Int :=
  let a := 0x24000 + 0x1000 * n + 0x800 * bank + (if vert then 0x400 + 12 * p else 16 * p) + 4 * (t / 2)
  sx 10 (if t % 2 = 0 then fld (v.w a) 9 0 else fld (v.w a) 25 16)

/-- Source positions a filter reads and their weights (R158): for each tap, source index and weight over the step
(a point tap has one source of weight 1 over 1). Over cells sample i covers [i, i + 1), as the rows of the worked
set-up of file 06 have it. -/
def tapSources (taps c0 : Nat) (pos : Int) (step : Nat) (t : Nat) : List (Int × Nat) × Nat :=
  if step ≤ 65536 then ([(pos / 65536 - c0 + t, 1)], 1)
  else
    let lo := pos - (taps / 2 : Nat) * (step : Int) + t * (step : Int)
    let hi := lo + step
    let i0 := lo / 65536
    let i1 := (hi - 1) / 65536
    (((upto ((i1 - i0).toNat + 1)).map (fun j =>
        let i := i0 + j
        (i, (min hi ((i + 1) * 65536) - max lo (i * 65536)).toNat))).filter (fun e => e.2 ≠ 0), step)

/-- A filter over a source function (R158): rounded, clamped to 0-4,095; a result over cell taps is open within the
exactness of its weights. -/
def filterAt (coef : Nat → Int) (taps c0 : Nat) (pos : Int) (step n : Nat) (src : Nat → Got Nat) : Got Nat := do
  let den : Int := if step ≤ 65536 then 1 else step
  let sum ← (upto taps).foldlM (fun (acc : Int) t => do
    let m ← (tapSources taps c0 pos step t).1.foldlM (fun (a : Int) e => do
      let x ← src (clampN n e.1)
      pure (a + x * e.2)) 0
    pure (acc + coef t * m)) (0 : Int)
  let exact := (sum + 128 * den) / (256 * den)
  let span : Int := ((upto taps).map (fun t => (coef t).natAbs)).sum * 160 / 256 + 1
  let dev := if step ≤ 65536 then 0 else clampI (-span) span (Config.cellDev sum den.toNat)
  pure (clampI 0 4095 (exact + dev)).toNat

/-- The filtered samples of an output position (R152, R158). -/
def vidFiltered (v : View) (n : Nat) (c : VidCfg) (rd : RowRead) (x r : Nat) : Got (Nat × Nat × Nat) := do
  let bank := if bit c.ctrl 9 then 1 else 0
  let xc := vidXc c x
  let yc := vidYc c r
  let hp := (xc % 65536).toNat / 1024
  let vp := (yc % 65536).toNat / 1024
  let comp := fun (k : Nat) (t : Nat × Nat × Nat) => if k = 0 then t.1 else if k = 1 then t.2.1 else t.2.2
  let hor := fun (k row : Nat) =>
    filterAt (vidCoef v n bank false hp) 8 3 xc c.hstep c.srcW (fun col => do
      let t ← srcPixel rd (bit c.ctrl 3) c.srcW row col
      pure (comp k t))
  let one := fun (k : Nat) =>
    if vidNear c then hor k (clampN c.srcH ((yc + 32768) / 65536))
    else filterAt (vidCoef v n bank true vp) 6 2 yc c.vstep c.srcH (hor k)
  let a ← one 0
  let b ← one 1
  let d ← one 2
  pure (a, b, d)

/-- Kr and Kb in units of 1/10,000 (R154). -/
def matrixK (m : Nat) : Nat × Nat := if m = 1 then (2990, 1140) else if m = 2 then (2627, 593) else (2126, 722)

/-- The transfer decode (R155): within one code of the exact result. -/
def tfOut (tf : Nat) (num : Int) (den : Nat) : Nat :=
  let x := (clampI 0 den num).toNat
  let exact := if tf = 1 then srgbTf x den else if tf = 2 then powTf x den else roundDiv (4095 * x) den
  (clampI 0 4095 ((exact : Int) + clampI (-1) 1 (Config.tfDev tf num den))).toNat

/-- Range, matrix and transfer (R154, R155). -/
def vidColour (c : VidCfg) (t : Nat × Nat × Nat) : Nat × Nat × Nat :=
  let tf := fld c.ctrl 8 7
  let narrow := bit c.ctrl 4
  let y : Nat → Int := fun s => if narrow then (s : Int) - 256 else s
  let yd : Nat := if narrow then 3504 else 4092
  if bit c.ctrl 3 then (tfOut tf (y t.1) yd, tfOut tf (y t.2.1) yd, tfOut tf (y t.2.2) yd)
  else
    let ch : Nat → Int := fun s => (s : Int) - 2048
    let cd : Nat := if narrow then 3584 else 4092
    let (kr, kb) := matrixK (fld c.ctrl 6 5)
    let d : Int := 10000
    let den : Int := yd * cd * d
    let rn : Int := y t.1 * cd * d + 2 * (d - kr) * ch t.2.2 * yd
    let bn : Int := y t.1 * cd * d + 2 * (d - kb) * ch t.2.1 * yd
    let gn : Int := (y t.1 * cd * d) * d - kr * rn - kb * bn
    (tfOut tf rn den.toNat, tfOut tf gn (yd * cd * 10000 * (10000 - kr - kb)), tfOut tf bn den.toNat)

/-- A row read out of fetched units (R151). -/
def rdFetched (c : VidCfg) (look : Look) : RowRead := fun row o n => rdUnit look row (c.base + row * c.stride + o) n

/-- A row read out of the cut-through ring (R170); its conditions are checked beforehand. -/
def rdRing (x : Video) : RowRead := fun row o n =>
  .ok (leNat (memBytes x.bytes (row % max 1 x.ring * 2 ^ 20 + o) n))

/-- The ring row an input row belongs to. -/
def ctRow (x : Video) (row : Nat) : RingRow := Tbl.get (fun _ => (⟨0, 0, 0, []⟩ : RingRow)) x.rows (row % max 1 x.ring)

/-- Is a column of a ring row written? -/
def ctWritten (rr : RingRow) (col : Nat) : Bool := rr.arrivals.any (fun e => e.1 ≤ col && col < e.2.1)

/-- The pixel falls back in cut-through mode (R170): input row, first and last column of its footprint, package
frame. -/
def ctMissing (x : Video) (pl : Nat × Nat × Nat) (frame : Nat) : Bool :=
  let rr := ctRow x pl.1
  rr.row ≠ pl.1 || !(upto (pl.2.2 + 1 - pl.2.1)).all (fun i => ctWritten rr (pl.2.1 + i)) ||
    framePrec ((rr.frame + 1) % 2 ^ 48) frame

/-- Input row, first and last column of a cut-through pixel's footprint (R160, R169). -/
def ctPlace (c : VidCfg) (x r : Nat) : Nat × Nat × Nat :=
  (clampN c.srcH (vidYc c r / 65536), clampN c.srcW (vidXc c x / 65536 - 4), clampN c.srcW (vidXc c x / 65536 + 4))

/-- The layer as a line shows it (R150): lines before its last flip show the frame before. -/
def Video.lineOf (x : Video) (fl : Nat × Nat) : Video :=
  if linePrec fl x.flipAt then { x with cfg := x.was.cfg, range := x.was.range, shown := x.was.shown, ring := x.was.ring }
  else x

/-- Is a canvas pixel inside the rectangle of an enabled layer (R149)? -/
def vidInside (c : VidCfg) (x y : Nat) : Bool :=
  vidEn c && c.dstX ≤ x && x < c.dstX + c.dstW && c.dstY ≤ y && y < c.dstY + c.dstH

/-- The layer's fallback pixel (R167). -/
def vidFallback (v : View) (n : Nat) : Px := pxFallback (v.w (voff n 0x28)) false (v.f (voff n 0x24) 9 8)

/-- The pixel layer Vn delivers (R149-R170), the layer as the line shows it; `frame` is the package frame. A layer that
shows FALLBACK by R161 or R165 counts no fallback pixel. -/
def vidPx (v : View) (n : Nat) (x : Video) (look : Look) (frame X Y : Nat) : Got Px := do
  let c := x.cfg
  if !vidInside c X Y then pure .clear
  else if x.range || (!vidCut c && !x.shown) then pure { vidFallback v n with fb := false }
  else
    let r := Y - c.dstY
    let pl := ctPlace c X r
    if vidCut c && ctMissing x pl frame then .error (pl.1, 0)
    else
      let t ← vidFiltered v n c (if vidCut c then rdRing x else rdFetched c look) X r
      let (cr, cg, cb) := vidColour c t
      pure ⟨false, cr, cg, cb, v.f (voff n 0x24) 7 0, v.f (voff n 0x24) 9 8, false⟩

end Sys2Proof.Machine
end

