-- ==== Sys2Proof/Machine/Memory.lean ====
section
/-! DEFINITION. GDDR6, its arbiter and Anvil's fetch units (R307-R329, R119-R126). -/

namespace Sys2Proof.Machine

def State.mem (s : State) (b : Nat) : MemCtl := Tbl.get (fun _ => MemCtl.init) s.memCtl b

def State.setMem (s : State) (b : Nat) (x : MemCtl) : State :=
  { s with memCtl := Tbl.set (fun _ => MemCtl.init) s.memCtl b x }

def memReg (b o : Nat) : Nat := baddr b (0x70000 + o)
def arbReg (b o : Nat) : Nat := baddr b (0x70800 + o)

/-! ### Training, fill and retrain -/

/-- GDDR6 without the bytes listed for billet `b`. -/
def gddrWithout (m : List Host.Cell) (b : Nat) : List Host.Cell :=
  m.filter (fun c => !(b * 2 ^ 32 ≤ c.1 && c.1 < b * 2 ^ 32 + 2 ^ 32))

/-- The contents of billet `b`'s GDDR6 become undefined (R310): every byte a free value. -/
def undefineGddr (s : State) (b : Nat) : State :=
  { s.nextFree with gddr := gddrWithout s.gddr b, gddrEra := Tbl.set (fun _ => 0) s.gddrEra b (s.freeCount + 1) }

/-- TRAIN written 1 (R310, R311). -/
def memTrain (s : State) (b : Nat) : State :=
  let x := s.mem b
  let c := s.reg (memReg b 0)
  let s0 := if fld (s.reg (memReg b 4)) 3 0 ≠ 0 then undefineGddr s b else s
  let s1 := s0.setMem b { x with training := true, filling := false, retrain := false,
                                 rate := min 20 (max 12 (fld c 4 0)), ecc := bit c 8, soft := [], hard := [] }
  (s1.orReg (memReg b 0) 0x80000000).setReg (memReg b 4) 0x40#32

/-- MEM_TRAIN (R310). -/
def execMemTrain (b : Nat) (s : State) : Out State := .next (if s.present b then memTrain s b else s)

/-- TRAINING_DONE (R310, R311): bit c of `trained` says that channel c trained; `cap` is whether the devices are of 4 GiB,
none where their densities differ. Success starts the fill when ECC is on. -/
def trainingDone (s : State) (b trained : Nat) (cap : Option Bool) : State :=
  let x := s.mem b
  let ok := decide (trained % 16 = 15) && cap.isSome
  let cap4g := cap.getD false
  if !x.training then s
  else
    let s1 := s.setMem b { x with training := false, filling := ok && x.ecc, rtAt := s.now, rtFrames := 0,
                                  chans := x.chans.map (fun c => { c with slots := 0 }) }
    let s2 := s1.clrReg (memReg b 0) 0x80000000
    let st := if ok then b2n (x.ecc) * 0x40 + b2n cap4g * 0x20 + b2n x.ecc * 0x10 + 15 else 0x80 + trained % 16
    let s3 := s2.setReg (memReg b 4) (wd st)
    let id := s3.reg 0x800008
    let s4 := s3.setReg 0x800008 (setBit (setBit id (16 + b) (ok && x.ecc)) (8 + b) (ok && cap4g))
    if ok then s4 else localFault (s4.orReg (memReg b 0x14) 1) 5

def execTrainingDone (b trained : Nat) (cap : Option Bool) (s : State) : Out State :=
  .next (if s.present b then trainingDone s b trained cap else s)

/-- ECC_FILL_DONE (R311): every usable byte reads 0. The fill has written every line the pattern cache held (R122). -/
def eccFillDone (s : State) (b : Nat) : State :=
  let x := s.mem b
  if !x.filling then s
  else
    let s1 := s.setMem b { x with filling := false, soft := [], hard := [] }
    ({ s1 with gddr := gddrWithout s1.gddr b, gddrEra := Tbl.set (fun _ => 0) s1.gddrEra b 0,
               pcache := s1.pcache.filter (fun kv => kv.1 / 512 ≠ b) }).clrReg (memReg b 4) 0x40

def execEccFillDone (b : Nat) (s : State) : Out State := .next (if s.present b then eccFillDone s b else s)

/-- A retrain of all four channels begins (R312). -/
def retrainStart (s : State) (b : Nat) : State :=
  let x := s.mem b
  (s.setMem b { x with retrain := true, rtAt := s.now, rtFrames := 0 }).orReg (memReg b 4) 0x40

/-- Slots a retrain takes from each channel (R312, R325). -/
def retrainSlots (rate : Nat) : Nat := (2000 * rate + 31) / 32

/-- RETRAIN_COMPLETE (R312): its slots count towards the refresh slots (R309). -/
def retrainDone (s : State) (b : Nat) : State :=
  let x := s.mem b
  if !x.retrain then s
  else
    let s1 := s.setMem b { x with retrain := false,
                                  chans := x.chans.map (fun c => { c with slots := c.slots + retrainSlots x.rate }) }
    if x.filling || x.training then s1 else s1.clrReg (memReg b 4) 0x40

def execRetrainComplete (b : Nat) (s : State) : Out State := .next (if s.present b then retrainDone s b else s)

/-- The window of line `n` holds a retrain (R312): a scheduled one, or one forced at the first D30 that lies at least
1 us after the passing of 240 ms, when the next scheduled one lay more than 10 ms ahead there. -/
def retrainCheck (s : State) (b n : Nat) : State × Bool :=
  let r := s.reg (memReg b 8)
  let x := s.mem b
  if !bit r 31 || s.memEnd b = 0 then (s, false)
  else
    let period := max 1 (fld r 23 16)
    let rt := fld r 15 0
    let frames := if n = rt then x.rtFrames + 1 else x.rtFrames
    let s1 := s.setMem b { x with rtFrames := frames }
    if n = rt && period ≤ frames then (retrainStart s1 b, true)
    else
      let v := s.beam.vtotal
      let ahead := ((rt + v - n % v) % v + (period - 1 - frames) * v) * 4 * s.beam.htotal
      if x.rtAt + 288001200 ≤ s.now && (v ≤ rt || 12000000 < ahead + 1200) then
        ((retrainStart s1 b).orReg (memReg b 0x14) 8, true)
      else (s1, false)

/-! ### Slot table and budget -/

/-- Owner an entry of a copy names (R319): 12-14 are taken as 15. -/
def slotEntry (s : State) (b : Nat) (copyB : Bool) (i : Nat) : Nat :=
  let w := s.reg (arbReg b ((if copyB then 0x60 else 0x40) + 4 * (i / 8)))
  let e := fld w (4 * (i % 8) + 3) (4 * (i % 8))
  if 12 ≤ e then 15 else e

/-- Entries of a copy (R323): 0 and values above 64 are taken as 64. -/
def tableLen (s : State) (b : Nat) (copyB : Bool) : Nat :=
  let c := s.reg (arbReg b 0)
  let n := if copyB then fld c 6 0 else fld c 14 8
  if n = 0 || 64 < n then 64 else n

/-- The least number of entries naming 0 or 15 in any `n` consecutive entries (R325). -/
def leastOpen (s : State) (b : Nat) (copyB : Bool) (n : Nat) : Nat :=
  let len := tableLen s b copyB
  let hit := fun i => let e := slotEntry s b copyB (i % len); decide (e = 0 ∨ e = 15)
  let total := ((upto len).filter hit).length
  let part := fun i => ((upto (n % len)).filter (fun j => hit (i + j))).length
  n / len * total + ((upto len).map part).foldl min 64

/-- N_c of R325 for the line's window. -/
def windowSlots (s : State) (b : Nat) (retrain : Bool) : Nat :=
  let r := (s.mem b).rate
  let cyc := 4 * (s.beam.htotal - 30)
  let sl := cyc * r * 10 / 384
  sl - (sl + 31) / 32 - (if retrain then retrainSlots r else 0)

/-- A new line's figures start (R322, R325): grants of the line before go on under that line's. -/
def arbNewLine (s : State) (b : Nat) : State :=
  let x := s.mem b
  let s1 := s.setMem b { x with prevB := x.lastB, charged := 0,
                                chans := x.chans.map (fun c => { c with before := c.granted, granted := 0 }) }
  (upto 4).foldl (fun s c => let a := arbReg b (0x80 + 4 * c); s.setReg a (setFld (s.reg a) 31 16 0)) s1

/-- The figures of R325 and the reservation of R125, R315, R327 for the line under evaluation. -/
def arbEval (s : State) (b : Nat) (retrain : Bool) (demand : Nat) : State :=
  let x := s.mem b
  let act := bit (s.reg (arbReg b 0)) 29
  let bc := if s.memEnd b = 0 then 0 else leastOpen s b act (windowSlots s b retrain)
  let resv := if bit (s.reg (memReg b 4)) 4 then ceilDiv' (9 * demand) 8 else demand
  let s1 := s.setMem b { x with resv := resv, lastB := [bc, bc, bc, bc] }
  let s2 := (upto 4).foldl (fun s c => let a := arbReg b (0x80 + 4 * c); s.setReg a (setFld (s.reg a) 15 0 bc)) s1
  if 4 * bc < resv then s2.orReg (arbReg b 0xD0) 1 else s2

/-- Channel of a 64-byte unit (R308). -/
def unitChan (u : Nat) : Nat := (u % 4) ^^^ (u / 256 % 4)

/-- Is a unit number in hearth RAM? -/
def isHearthUnit (u : Nat) : Bool := 2 ^ 52 ≤ u

def State.fetchList (s : State) (b : Nat) : List FetchUnit := Tbl.get (fun _ => []) s.fetches b

def State.setFetchList (s : State) (b : Nat) (l : List FetchUnit) : State :=
  { s with fetches := Tbl.set (fun _ => []) s.fetches b l }

/-- 64 bytes of a unit as memory holds them, and whether the fetch is a decode error (R120). -/
def unitData (s : State) (b unit : Nat) : List Byte × Bool :=
  if isHearthUnit unit then (s.hread b ((unit - 2 ^ 52) * 64) 64, s.hbad b ((unit - 2 ^ 52) * 64) 64)
  else if 64 * unit < s.memEnd b then (s.gread (b * 2 ^ 32 + 64 * unit) 64, false)
  else (List.replicate 64 0, true)

/-! ### Tags -/

/-- An Anvil unit waiting for a tag (R328). -/
def unitWaits (u : FetchUnit) : Bool := u.data = none && !u.hold && !isHearthUnit u.unit

/-- Tags kept for Anvil, and tags Anvil and the others hold (R328). -/
def resvTags (s : State) (b : Nat) : Nat := min 512 (fld (s.reg (arbReg b 0xA0)) 9 0)
def anvTags (s : State) (b : Nat) : Nat := ((s.fetchList b).filter (fun u => u.hold)).length
def otherTags (s : State) (b : Nat) : Nat := ((s.mem b).reads.filter (fun r => r.st = 1 || r.st = 2)).length

/-- Is there a tag for Anvil, or for another (R328)? Anvil takes its own reserve first, then the shared tags. -/
def tagFree (resv anv oth : Nat) (anvil : Bool) : Bool :=
  (anvil && anv < resv) || (anv - resv) + oth < 512 - resv

/-- Anvil's waiting units take tags in their order while there are any. -/
def serveUnits (resv oth : Nat) : Nat → List FetchUnit → List FetchUnit
  | _, [] => []
  | anv, u :: t =>
    if unitWaits u then
      if tagFree resv anv oth true then { u with hold := true } :: serveUnits resv oth (anv + 1) t else u :: t
    else u :: serveUnits resv oth anv t

/-- Other waiting reads take shared tags in their order. -/
def serveReads (resv anv : Nat) : Nat → List MemRead → List MemRead
  | _, [] => []
  | oth, r :: t =>
    if r.st = 0 then
      if tagFree resv anv oth false then { r with st := 1 } :: serveReads resv anv (oth + 1) t else r :: t
    else r :: serveReads resv anv oth t

/-- Note tags in use in ARB_TAG. -/
def tagNote (s : State) (b n : Nat) : State :=
  let r := s.reg (arbReg b 0xA0)
  s.setReg (arbReg b 0xA0) (setFld r 31 22 (max (fld r 31 22) (min 512 n)))

/-- Tags are given out (R328), and ARB_TAG shows them: Anvil is served first (log entry 49). -/
def tagServe (s : State) (b : Nat) : State :=
  let resv := resvTags s b
  let s1 := s.setFetchList b (serveUnits resv (otherTags s b) (anvTags s b) (s.fetchList b))
  let x := s1.mem b
  let s2 := s1.setMem b { x with reads := serveReads resv (anvTags s1 b) (otherTags s1 b) x.reads }
  let n := anvTags s2 b + otherTags s2 b
  tagNote (s2.setRf (arbReg b 0xA0) 21 12 n) b n

/-- A requester finds no tag (R328). -/
def tagStall (s : State) (b : Nat) : State := (s.addReg (arbReg b 0xA4) 1).orReg (arbReg b 0xD0) 2

/-- Reads of a requester other than Anvil are issued (R320, R328) for the work `src`. -/
def issueReads (s : State) (b req src : Nat) (units : List Nat) : State :=
  let x := s.mem b
  let s1 := tagServe (s.setMem b { x with reads := x.reads ++ units.map (fun u => ⟨req, src, u, 0, [], false⟩) }) b
  ((s1.mem b).reads.filter (fun r => r.st = 0 && r.req = req && r.src = src && units.contains r.unit)).foldl
    (fun s _ => tagStall s b) s1

/-- The reads issued for the work `src` end: their tags are free again. -/
def endReads (s : State) (b req src : Nat) : State :=
  let x := s.mem b
  tagServe (s.setMem b { x with reads := x.reads.filter (fun r => r.req ≠ req || r.src ≠ src) }) b

/-- The hint of a requester (R324) from its last grants, newest first. -/
def hintOf (l : List Nat) : Nat :=
  if l.length < 16 then 15
  else
    let gaps := (l.zip l.tail).map (fun e => e.1 - e.2)
    let m := gaps.foldl max 1
    ((upto 15).find? (fun h => decide (m ≤ 2 ^ h))).getD 14

/-- Store a requester's hint. -/
def setHint (s : State) (b r h : Nat) : State := s.setRf (arbReg b (0xC0 + 4 * (r / 8))) (4 * (r % 8) + 3) (4 * (r % 8)) h

/-- Forget the hints of some requesters (R324). -/
def clearHints (s : State) (b : Nat) (p : Nat → Bool) : State :=
  let x := s.mem b
  let s1 := s.setMem b { x with grants := x.grants.filter (fun kv => !p kv.1) }
  (upto 12).foldl (fun s r => if p r then setHint s b r 15 else s) s1

/-- Record a grant to requester `r` at slot number `t`. -/
def noteGrant (s : State) (b r t : Nat) : State :=
  let x := s.mem b
  let l := (t :: Tbl.get (fun _ => []) x.grants r).take 16
  setHint (s.setMem b { x with grants := Tbl.set (fun _ => []) x.grants r l }) b r (hintOf l)

/-- Is requester `r` frozen (R329)? -/
def isFrozen (s : State) (b r : Nat) : Bool := r ≠ 0 && bit (s.reg (arbReg b 4)) r

/-- An Anvil unit ready for channel `c` (R320): it holds a tag and is not yet granted. -/
def unitReady (c : Nat) (u : FetchUnit) : Bool := u.data = none && u.hold && !u.granted && unitChan u.unit = c

/-- A read of another requester that is ready for channel `c`. -/
def readReady (c : Nat) (r : MemRead) : Bool := r.st = 1 && unitChan r.unit = c

/-- Requesters with a ready request for channel `c` (R320): Anvil's units and check units, buffered writes, reads. -/
def readyReqs (s : State) (b c : Nat) : List Nat :=
  let x := s.mem b
  let anv := (s.fetchList b).any (unitReady c) || (x.chans.getD c .init).checkQ ≠ []
  (if anv then [0] else []) ++
    (upto 12).filter (fun r => r ≠ 0 && !isFrozen s b r &&
      (x.wbuf.any (fun e => e.req = r && unitChan e.unit = c) || x.reads.any (fun e => e.req = r && readReady c e)))

/-- Rank of a requester (R319, R322). -/
def rankOf (within : Bool) (r : Nat) : Nat := if r = 0 then (if within then 1 else 13) else r + 1

/-- The owner of the next slot (R320): the entry's requester, else the best rank, else none. -/
def decideOwner (ready : List Nat) (entry : Nat) (within : Bool) : Option Nat :=
  if ready.contains entry then some entry
  else ready.foldl (fun best r =>
    match best with
    | none => some r
    | some q => if rankOf within r < rankOf within q then some r else some q) none

/-- Grant Anvil's first ready unit of channel `c`: it takes the data that memory holds now (R321). -/
def grantAnvil (s : State) (b c : Nat) : List FetchUnit → List FetchUnit
  | [] => []
  | u :: t => if unitReady c u then { u with granted := true, got := some (unitData s b u.unit) } :: t
    else u :: grantAnvil s b c t

/-- The line evaluated last: the newest for which Anvil issues units. -/
def newestLine (s : State) : Option (Nat × Nat) := s.lineViews.head?.map (fun l => (l.frame, l.line))

/-- Is Anvil within budget with its next unit of channel `c` (R322)? -/
def unitWithin (s : State) (b c : Nat) : Bool :=
  let x := s.mem b
  let ch := x.chans.getD c .init
  match (s.fetchList b).find? (unitReady c) with
  | some u =>
    if some (u.frame, u.line) = newestLine s then ch.granted < x.lastB.getD c 0 else ch.before < x.prevB.getD c 0
  | none => false

/-- Is the next check-unit fetch of channel `c` within the charge of the line (R315)? -/
def checkWithin (s : State) (b c : Nat) : Bool :=
  let x := s.mem b
  x.charged < x.resv && (x.chans.getD c .init).granted < x.lastB.getD c 0

/-- The unit that holds the check bytes of a unit's block (R314): the check units stand in the order of their blocks in
the top eighth. -/
def checkUnitOf (s : State) (b unit : Nat) : Nat := s.memEnd b / 64 + unit / 8

/-- A granted access needs its check unit with ECC on (R315): it is in its channel's cache, least recently used out
(log entry 49), or it is to be fetched. -/
def needCheck (s : State) (b unit : Nat) : State :=
  if !bit (s.reg (memReg b 4)) 4 then s
  else
    let cu := checkUnitOf s b unit
    let c := unitChan cu
    let x := s.mem b
    let ch := x.chans.getD c .init
    let ch1 := if ch.checks.contains cu then { ch with checks := cu :: ch.checks.filter (· ≠ cu) }
      else if ch.checkQ.contains cu then ch else { ch with checkQ := ch.checkQ ++ [cu] }
    s.setMem b { x with chans := x.chans.set c ch1 }

/-- Anvil takes the slot (R315, R322): a check-unit fetch where one waits, else its first ready unit. `free` says that
the slot's entry names Anvil. -/
def grantZero (s : State) (b c : Nat) (free : Bool) : State :=
  let x := s.mem b
  let ch := x.chans.getD c .init
  match ch.checkQ with
  | cu :: t =>
    s.setMem b { x with charged := x.charged + 1,
                        chans := x.chans.set c { ch with checkQ := t, checks := (cu :: ch.checks).take 64 } }
  | [] =>
    match (s.fetchList b).find? (unitReady c) with
    | none => s
    | some u =>
      let newest := some (u.frame, u.line) = newestLine s
      let within := unitWithin s b c
      let ch1 := if newest then { ch with granted := ch.granted + 1 } else { ch with before := ch.before + 1 }
      let s1 := s.setMem b { x with charged := x.charged + 1, chans := x.chans.set c ch1 }
      let s2 := noteGrant (s1.setFetchList b (grantAnvil s b c (s1.fetchList b))) b 0 ch1.slots
      let s3 := needCheck s2 b u.unit
      if within || free then s3 else s3.addReg (arbReg b 0xA8) 1

/-- The first entry of a list that satisfies `p` is changed by `f`; the rest stay. -/
def changeFirst {α : Type} (p : α → Bool) (f : α → List α) : List α → List α
  | [] => []
  | x :: t => if p x then f x ++ t else x :: changeFirst p f t

/-- Another requester takes the slot: its oldest buffered write, which needs a second slot where it splits a word with
ECC on (R314), else its oldest ready read. -/
def grantOther (s : State) (b c r : Nat) : State :=
  let x := s.mem b
  let slot := (x.chans.getD c .init).slots
  let mine := fun (e : WriteEnt) => e.req = r && unitChan e.unit = c
  match x.wbuf.find? mine with
  | some e =>
    let y := { x with wbuf := changeFirst mine (fun e => if e.rmw then [{ e with rmw := false }] else []) x.wbuf }
    needCheck (noteGrant (s.setMem b y) b r slot) b e.unit
  | none =>
    let rd := fun (e : MemRead) => e.req = r && readReady c e
    match x.reads.find? rd with
    | some e =>
      let d := unitData s b e.unit
      let y := { x with reads := changeFirst rd (fun e => [{ e with st := 2, data := d.1, bad := d.2 }]) x.reads }
      needCheck (noteGrant (s.setMem b y) b r slot) b e.unit
    | none => s

/-- The scrub takes a slot nobody wants (R316): the unit's words with a single-bit error are rewritten. -/
def scrubSlot (s : State) (b : Nat) : State :=
  if bit (s.reg (memReg b 0x1C)) 31 then
    let y := s.mem b
    let y1 := { y with soft := y.soft.filter (fun w => w / 8 ≠ y.scrub) }
    if s.memEnd b / 64 ≤ y.scrub + 1 then (s.setMem b { y1 with scrub := 0 }).addRf (memReg b 0x1C) 30 0 1
    else s.setMem b { y1 with scrub := y.scrub + 1 }
  else s

/-- A due swap is made (R323), as the walks come to a wrap. -/
def makeSwap (s : State) (b : Nat) : State :=
  let ctl := s.reg (arbReg b 0)
  let x := s.mem b
  if bit ctl 31 && !x.swapHeld then
    let act := !bit ctl 29
    let s1 := s.setReg (arbReg b 0) (setBit (setBit ctl 31 false) 29 act)
    let bc := leastOpen s1 b act (windowSlots s b false)
    let s2 := (upto 4).foldl (fun s k =>
      let a := arbReg b (0x80 + 4 * k)
      s.setReg a (setFld (s.reg a) 15 0 (min bc (fld (s.reg a) 15 0)))) s1
    clearHints ((s2.setMem b { x with lastB := x.lastB.map (min bc) }).orReg (arbReg b 0xD0) 8) b (fun _ => true)
  else s

/-- The walk of channel `c` wraps (R322, R323): the channels walk in step, so a due swap is made as the first of them
wraps, and each takes up the active copy at the same wrap. -/
def walkWrap (s : State) (b c : Nat) : State :=
  let x := s.mem b
  let k := (x.chans.getD c .init).rounds + 1
  let s1 := if x.round < k then makeSwap (s.setMem b { x with round := k }) b else s
  let act := bit (s1.reg (arbReg b 0)) 29
  let y := s1.mem b
  s1.setMem b { y with chans := y.chans.set c { y.chans.getD c .init with rounds := k, copyB := act } }

/-- One slot of channel `c` (R309, R320, R322): every 32nd slot is a refresh and decides nothing. -/
def memSlot (s : State) (b c : Nat) : State :=
  let x := s.mem b
  let ch := x.chans.getD c .init
  if s.memEnd b = 0 || x.retrain || x.training then s
  else if (ch.slots + 1) % 32 = 0 then
    s.setMem b { x with chans := x.chans.set c { ch with slots := ch.slots + 1, owner := 15 } }
  else
    let entry := slotEntry s b ch.copyB (ch.pos % tableLen s b ch.copyB)
    let within := if ch.checkQ ≠ [] then checkWithin s b c else unitWithin s b c
    let wraps := decide (tableLen s b ch.copyB ≤ ch.pos + 1)
    let own := decideOwner (readyReqs s b c) entry within
    let ch1 := { ch with slots := ch.slots + 1, pos := if wraps then 0 else ch.pos + 1, owner := own.getD 15 }
    let s1 := s.setMem b { x with chans := x.chans.set c ch1 }
    let s2 := match own with
      | some 0 => grantZero s1 b c (entry = 0)
      | some r => grantOther s1 b c r
      | none => scrubSlot s1 b
    if wraps then walkWrap s2 b c else s2

/-- GDDR6_SLOT (R320). -/
def execGddr6Slot (b ch : Nat) (s : State) : Out State := .next (if s.present b && ch < 4 then memSlot s b ch else s)

/-- ARB_SWAP_REQUEST (R323): with SWAP_AT = 1 the swap waits for package L0:D0 first. -/
def arbSwap (s : State) (b : Nat) : State :=
  let ctl := s.reg (arbReg b 0)
  (s.setReg (arbReg b 0) (setBit ctl 31 true)).setMem b { s.mem b with swapHeld := bit ctl 30 }

def execArbSwapRequest (b : Nat) (s : State) : Out State := .next (if s.present b then arbSwap s b else s)

/-- At package L0:D0 held swaps may be made at the next wrap (R323). -/
def arbFrameStart (s : State) : State := s.eachBillet (fun s b => s.setMem b { s.mem b with swapHeld := false })

/-- No frozen requester holds a read tag or a write buffer entry (R329). -/
def frozenIdle (s : State) (b : Nat) : Bool :=
  (s.mem b).wbuf.all (fun e => !isFrozen s b e.req) &&
    (s.mem b).reads.all (fun r => !(isFrozen s b r.req && (r.st = 1 || r.st = 2)))

/-- FREEZE_WRITE (R329). -/
def freezeWrite (s : State) (b : Nat) (v : Word) : State :=
  let old := s.reg (arbReg b 4)
  let s1 := s.setReg (arbReg b 4) (v &&& 0xFFE#32)
  let dr := bit old 31 && (v &&& 0xFFE#32) ≠ 0#32 && frozenIdle s1 b
  clearHints (s1.setReg (arbReg b 4) (setBit (v &&& 0xFFE#32) 31 dr)) b (fun r => isFrozen s1 b r)

def execFreezeWrite (b : Nat) (v : Word) (s : State) : Out State := .next (if s.present b then freezeWrite s b v else s)

/-- FREEZE_DRAINED (R329). -/
def freezeDrained (s : State) (b : Nat) : State :=
  let r := s.reg (arbReg b 4)
  if fld r 11 1 ≠ 0 && frozenIdle s b && !bit r 31 then (s.orReg (arbReg b 4) 0x80000000).orReg (arbReg b 0xD0) 4 else s

def execFreezeDrained (b : Nat) (s : State) : Out State := .next (if s.present b then freezeDrained s b else s)

/-! ### Fetch units -/

/-- STAT register and DECERR bit of a plane. -/
def planeStat (b plane : Nat) : Nat × Nat :=
  if plane < 8 then (baddr b (goff plane 0x38), 1)
  else if plane = 8 then (baddr b 0x1800C, 3)
  else (vaddr b (plane - 9) 0x48, 1)

/-- Units a plane keeps beyond one line: video rows and column store loads. -/
def keepsLine (plane tag : Nat) : Bool := 9 ≤ plane || tag = tagCol

/-- Does a unit serve line `fl`? One of a video layer serves the lines of the frame it was fetched for, from its flip
on (R150, R164); one of a column store load any line; any other the line it was fetched for. -/
def unitServes (s : State) (b : Nat) (u : FetchUnit) (fl : Nat × Nat) : Bool :=
  if 9 ≤ u.plane then
    let at' := (s.video b (u.plane - 9)).flipAt
    linePrec (u.frame, u.line) at' == linePrec fl at'
  else u.tag = tagCol || (u.frame = fl.1 && u.line = fl.2)

/-- The present units of a plane for a line (R176). -/
def lookFor (s : State) (b plane : Nat) (fl : Nat × Nat) : Look := fun tag unit =>
  match (s.fetchList b).find? (fun u => u.plane = plane && u.tag = tag && u.unit = unit &&
      unitServes s b u fl && u.late ≠ some fl) with
  | some u => u.data
  | none => none

/-- Is the unit already asked for? -/
def hasUnit (s : State) (b plane tag unit : Nat) (fl : Nat × Nat) : Bool :=
  (s.fetchList b).any (fun u => u.plane = plane && u.tag = tag && u.unit = unit && unitServes s b u fl)

/-- Cache lines of a set (R121). -/
def cacheSet (s : State) (b unit : Nat) : List (Nat × List Byte) := Tbl.get (fun _ => []) s.pcache (512 * b + unit % 512)

/-- Use a line of the cache: it becomes the most recent of its set, which holds 8. -/
def cacheTouch (s : State) (b unit : Nat) (d : List Byte) : State :=
  let l := ((unit, d) :: (cacheSet s b unit).filter (fun e => e.1 ≠ unit)).take 8
  { s with pcache := Tbl.set (fun _ => []) s.pcache (512 * b + unit % 512) l }

/-- The data of a unit the cache holds. -/
def cacheHit (s : State) (b unit : Nat) : Option (List Byte) :=
  ((cacheSet s b unit).find? (fun e => e.1 = unit)).map (·.2)

/-- The view of an evaluated line. -/
def lineViewOf (s : State) (b : Nat) (fl : Nat × Nat) : Option View :=
  (s.lineViews.find? (fun l => l.frame = fl.1 && l.line = fl.2)).map (fun l => ⟨s.variant, b, l.regs, l.eff⟩)

/-- Is the cache in use for a line's fetches (R119, R123)? -/
def cacheOn (s : State) (b : Nat) (fl : Nat × Nat) : Bool := ((lineViewOf s b fl).getD (s.viewNow b)).i 0x10400 0

/-- A pattern fetch (R121): only tile patterns use the cache. -/
def isPattern (plane tag unit : Nat) : Bool := plane < 8 && tag < tagMap && !isHearthUnit unit

/-- Ask for a unit for a line: a pattern the cache holds is served at once with the cached data, any other is issued and
takes a tag, or stalls for one. -/
def askUnit (s : State) (b plane tag unit : Nat) (fl : Nat × Nat) : State :=
  if hasUnit s b plane tag unit fl then s
  else
    let u : FetchUnit := { plane := plane, tag := tag, unit := unit, frame := fl.1, line := fl.2, data := none,
                           late := none, granted := false, hold := false, got := none }
    let pat := isPattern plane tag unit
    match if pat && cacheOn s b fl then cacheHit s b unit else none with
    | some d =>
      let s1 := (cacheTouch s b unit d).addReg (baddr b 0x10404) 1
      s1.setFetchList b (s1.fetchList b ++ [{ u with data := some d }])
    | none =>
      let s1 := if pat then s.addReg (baddr b 0x10408) 1 else s
      let s2 := s1.setFetchList b (s1.fetchList b ++ [u])
      if isHearthUnit unit then s2
      else
        let s3 := if some fl = newestLine s2 then s2.addRf (arbReg b (0x80 + 4 * unitChan unit)) 31 16 1 else s2
        let s4 := tagServe s3 b
        if (s4.fetchList b).any unitWaits then tagStall s4 b else s4

def askAll (s : State) (b plane : Nat) (fl : Nat × Nat) (l : List (Nat × Nat)) : State :=
  l.foldl (fun s e => askUnit s b plane e.1 e.2 fl) s

def State.colStore (s : State) (b n : Nat) : ColStore := Tbl.get (fun _ => ColStore.init) s.colStores (8 * b + n)

def State.setColStore (s : State) (b n : Nat) (x : ColStore) : State :=
  { s with colStores := Tbl.set (fun _ => ColStore.init) s.colStores (8 * b + n) x }

/-- Canvas row of an active line (R52). -/
def canvasRow (s : State) (line : Nat) : Option Nat :=
  if activeLine' s.beam line then some (line - s.beam.vactStart) else none
where
  activeLine' (b : Beam) (l : Nat) : Bool := b.vactStart ≤ l && l < b.vactStart + b.vact && l < b.vtotal

/-- Ask for everything layer Gn is known to need for a line: more becomes known as map units arrive (R107, R115). -/
def askLayer (s : State) (v : View) (n : Nat) (fl : Nat × Nat) : State :=
  match canvasRow s fl.2 with
  | none => s
  | some y =>
    askAll s v.b n fl ((layerMissing v n (s.colStore v.b n) (lookFor s v.b n fl) y).filter (fun e =>
      e.1 ≠ tagCol && !hasUnit s v.b n e.1 e.2 fl))

/-- A layer's column store load (R116). -/
def askColumns (s : State) (v : View) (n : Nat) (fl : Nat × Nat) : State :=
  let l := layerOf v n
  if !l.en || !l.csEn then s
  else
    let j0 := colFirst v l
    let s1 := s.setColStore v.b n ⟨true, j0, l.csBase, l.csH, false⟩
    let s2 := s1.setFetchList v.b ((s1.fetchList v.b).filter (fun u => !(u.plane = n && u.tag = tagCol)))
    askAll s2 v.b n fl (((upto 1024).map (fun i => (tagCol, tableAddr l.csH (l.csBase + 4 * (j0 + i)) / 64))).eraseDups)

/-- What a read of the word at `addr` finds (R314): what the check says, or the error the word is known to hold. -/
def eccFound (s : State) (b addr : Nat) (err : EccErr) : EccErr :=
  let x := s.mem b
  if !bit (s.reg (memReg b 4)) 4 || err ≠ .none then err
  else if x.hard.any (fun w => w / 8 = addr / 64) then .uncorrectable
  else if x.soft.any (fun w => w / 8 = addr / 64) then .corrected
  else .none

/-- What a read's check finds is counted (R313, R314), and the word's error stays in memory. -/
def eccNote (s : State) (b addr : Nat) (err : EccErr) : State :=
  let x := s.mem b
  let add := fun (l : List Nat) => (addr / 8) :: l.filter (fun w => w / 8 ≠ addr / 64)
  match err with
  | .none => s
  | .corrected =>
    if bit (s.reg (memReg b 4)) 4 then
      ((s.addRf (memReg b 0xC) 15 0 1).orReg (memReg b 0x14) 2).setMem b { x with soft := add x.soft }
    else s
  | .uncorrectable =>
    if bit (s.reg (memReg b 4)) 4 then
      (localFault (((s.addRf (memReg b 0xC) 31 16 1).setReg (memReg b 0x10) (wd (addr / 64 * 64))).orReg (memReg b 0x14) 4) 1).setMem
        b { x with hard := add x.hard }
    else s
  | .edc => s.addReg (memReg b 0x20) 1

/-- The check of a unit that arrives: counted, and whether it is a decode error (R314, R317). -/
def unitCheck (s : State) (b unit : Nat) (err : EccErr) : State × Bool :=
  if isHearthUnit unit then
    if err = .uncorrectable then (s.hspoil b ((unit - 2 ^ 52) * 64), true) else (s, false)
  else
    let e := eccFound s b (64 * unit) err
    (eccNote s b (64 * unit) e, e = .uncorrectable && bit (s.reg (memReg b 4)) 4)

/-- Ask anew for what layer `n` needs on the lines evaluated and not past. -/
def askLines (s : State) (b n : Nat) : State :=
  s.lineViews.foldl (fun s l =>
    if linePrec (l.frame, l.line) (s.beam.frame, s.beam.line) then s
    else askLayer s ⟨s.variant, b, l.regs, l.eff⟩ n (l.frame, l.line)) s

/-- A unit arrives (R119, R120): the data memory held at its grant, or zeros with DECERR; patterns fill the cache, but
not with a decode error (log entry 48). More becomes known with map and scroll table units. -/
def fetchArrive (s : State) (b : Nat) (u : FetchUnit) (err : EccErr) : State :=
  let (d, bad) := u.got.getD (unitData s b u.unit)
  let (s0, wrong) := unitCheck s b u.unit err
  let fails := bad || wrong
  let data := if fails then List.replicate 64 0 else d
  let s1 := s0.setFetchList b ((s0.fetchList b).map (fun x =>
    if x = u then { x with data := some data, granted := true, hold := false, got := none } else x))
  let s2 := if fails then s1.orReg (planeStat b u.plane).1 (2 ^ (planeStat b u.plane).2) else s1
  let s3 := if isPattern u.plane u.tag u.unit && cacheOn s b (u.frame, u.line) && !fails then cacheTouch s2 b u.unit data
    else s2
  let s4 := if isHearthUnit u.unit then s3 else tagServe s3 b
  if u.plane < 8 then
    if u.tag = tagCol then askLines s4 b u.plane
    else match lineViewOf s4 b (u.frame, u.line) with
      | some v => askLayer s4 v u.plane (u.frame, u.line)
      | none => s4
  else s4

/-- May a unit's data return: it holds a tag, or comes from hearth RAM? -/
def unitOut (u : FetchUnit) : Bool := u.data = none && (u.hold || isHearthUnit u.unit)

/-- FETCH_DATA_RETURN (R326): the `i`-th unit outstanding arrives. -/
def execFetchDataReturn (b i : Nat) (err : EccErr) (s : State) : Out State :=
  .next (
    match ((s.fetchList b).filter unitOut)[i]? with
    | some u => if s.present b then fetchArrive s b u err else s
    | none => s)

/-! ### Writes -/

/-- Room in the write buffer of a unit's channel (R321). -/
def bufRoom (s : State) (b unit : Nat) : Bool :=
  ((s.mem b).wbuf.filter (fun e => unitChan e.unit = unitChan unit)).length < 64

/-- May a write enter its channel's write buffer now (R321, R329)? -/
def writeRoom (s : State) (b req addr : Nat) : Bool :=
  req ≠ 0 && req < 12 && !isFrozen s b req && bufRoom s b (addr / 64) && addr < s.memEnd b

/-- The write buffer entries of a write (R314, R321): with ECC on, a unit of which a 64-bit word is written in part needs
a second slot. -/
def writeEnts (ecc : Bool) (req addr len : Nat) : List WriteEnt :=
  if len = 0 then []
  else (upto ((addr + len - 1) / 64 + 1 - addr / 64)).map (fun i =>
    let u := addr / 64 + i
    ⟨req, u, ecc && ((u = addr / 64 && addr % 8 ≠ 0) || (u = (addr + len - 1) / 64 && (addr + len) % 8 ≠ 0))⟩)

/-- An entry joins the write buffer. Where the channel's buffer is full, its oldest entries leave first: the writer has
waited for their slots. -/
def bufPush (s : State) (b : Nat) (e : WriteEnt) : State :=
  let c := unitChan e.unit
  let s1 :=
    if bufRoom s b e.unit then s
    else
      let x := s.mem b
      let ch := x.chans.getD c .init
      let old := ((x.wbuf.find? (fun e => unitChan e.unit = c)).map (·.req)).getD 0
      let s0 := s.setMem b { x with wbuf := changeFirst (fun e => unitChan e.unit = c) (fun _ => []) x.wbuf,
                                    chans := x.chans.set c { ch with slots := ch.slots + 1 } }
      noteGrant s0 b old (ch.slots + 1)
  let y := s1.mem b
  s1.setMem b { y with wbuf := y.wbuf ++ [e] }

/-- Words of a write lose their errors (R314): of one written in part, what the read finds is counted first. -/
def writeWords (s : State) (b addr len : Nat) : State :=
  let x := s.mem b
  if x.soft = [] && x.hard = [] then s
  else
    let hit := fun (w : Nat) => decide (addr < 8 * w + 8 ∧ 8 * w < addr + len)
    let part := fun (w : Nat) => hit w && !(addr ≤ 8 * w && 8 * w + 8 ≤ addr + len)
    let s1 := (x.soft.filter part).foldl (fun s w => eccNote s b (8 * w) .corrected) s
    let s2 := (x.hard.filter part).foldl (fun s w => eccNote s b (8 * w) .uncorrectable) s1
    let y := s2.mem b
    s2.setMem b { y with soft := y.soft.filter (fun w => !hit w), hard := y.hard.filter (fun w => !hit w) }

/-- A write enters the write buffers of its channels and is what later reads return (R314, R321). -/
def memWrite (s : State) (b req addr : Nat) (data : List Byte) : State :=
  let ecc := bit (s.reg (memReg b 4)) 4
  let s1 := if ecc then writeWords s b addr data.length else s
  ((writeEnts ecc req addr data.length).foldl (fun s e => bufPush s b e) s1).gwrite (b * 2 ^ 32 + addr) data

/-- A write of a host, lane, Tongs, Swage or Flux requester that may lie outside the usable range: nothing enters a
buffer for bytes that do (R36). -/
def memStore (s : State) (b req addr : Nat) (data : List Byte) : State :=
  if addr < s.memEnd b then memWrite s b req addr (data.take (s.memEnd b - addr)) else s

/-! ### Reads -/

/-- Is a read of `len` bytes delivered as a decode error (R36, R314)? -/
def readBad (s : State) (b addr len : Nat) : Bool :=
  s.memEnd b < addr + len || (bit (s.reg (memReg b 4)) 4 && (s.mem b).hard.any (fun w => decide (addr < 8 * w + 8 ∧ 8 * w < addr + len)))

/-- A read that is issued, granted and returned within the step that uses its data (R314, R320, R328): the data, none
for a decode error. What it finds is counted. -/
def memRead (s : State) (b req addr len : Nat) : State × Option (List Byte) :=
  let units := if len = 0 then [] else (upto ((addr + len - 1) / 64 + 1 - addr / 64)).map (fun i => addr / 64 + i)
  let s1 := units.foldl (fun s u =>
    let n := anvTags s b + otherTags s b
    let s1 := if tagFree (resvTags s b) (anvTags s b) (otherTags s b) false then tagNote s b (n + 1) else tagStall s b
    let s2 := noteGrant s1 b req ((s1.mem b).chans.getD (unitChan u) .init).slots
    (unitCheck s2 b u .none).1) s
  (s1, if readBad s b addr len then none else some (s.gread (b * 2 ^ 32 + addr) len))

/-- Data of a unit read for the work `src` and already granted, else as memory holds it now, and whether it is a decode
error. -/
def readTaken (s : State) (b req src unit : Nat) : List Byte × Bool :=
  match (s.mem b).reads.find? (fun r => r.req = req && r.src = src && r.unit = unit && 2 ≤ r.st) with
  | some r => (r.data, r.bad)
  | none => unitData s b unit

/-- Does a unit's read for the work `src` still wait for a tag (R328)? -/
def readWaits (s : State) (b req src unit : Nat) : Bool :=
  (s.mem b).reads.any (fun r => r.req = req && r.src = src && r.unit = unit && r.st = 0)

/-- The work `src` uses a unit it has read, and the read's tag is free again (R314, R320, R328): the data memory held at
the grant, or holds now where none was made; none for a decode error. What a read that is not yet back finds is counted. -/
def takeRead (s : State) (b req src unit : Nat) : State × Option (List Byte) :=
  let mine := fun (r : MemRead) => r.req = req && r.src = src && r.unit = unit
  let d := readTaken s b req src unit
  let back := (s.mem b).reads.any (fun r => mine r && r.st = 3)
  let (s1, wrong) := if back then (s, false) else unitCheck s b unit .none
  let x := s1.mem b
  let s2 := if x.reads.any mine then tagServe (s1.setMem b { x with reads := changeFirst mine (fun _ => []) x.reads }) b else s1
  (s2, if d.2 || wrong then none else some d.1)

/-- A read of another requester returns (R314, R328): its data stays for the work it serves, its tag is free. -/
def otherReturn (s : State) (b req addr : Nat) (err : EccErr) : State :=
  let out := fun (r : MemRead) => r.req = req && r.unit = addr / 64 && (r.st = 2 || (r.st = 1 && !isFrozen s b req))
  match (s.mem b).reads.find? out with
  | none => if isFrozen s b req then s else eccNote s b addr err
  | some r =>
    let d := if r.st = 2 then (r.data, r.bad) else unitData s b r.unit
    let (s1, wrong) := unitCheck s b r.unit err
    let x := s1.mem b
    tagServe (s1.setMem b { x with reads := changeFirst out (fun r =>
      [{ r with st := 3, data := d.1, bad := d.2 || wrong }]) x.reads }) b

/-- GDDR6_READ_RETURN (R313, R314): the check is recorded; Anvil's unit at that address arrives with it, or the read of
another requester. -/
def readReturn (s : State) (b req addr : Nat) (err : EccErr) : State :=
  if req = 0 then
    match (s.fetchList b).find? (fun u => u.data = none && u.hold && u.unit = addr / 64) with
    | some u => fetchArrive s b u err
    | none => eccNote s b addr err
  else otherReturn s b req addr err

def execGddr6ReadReturn (b req addr : Nat) (err : EccErr) (s : State) : Out State :=
  .next (if s.present b then readReturn s b req addr err else s)

/-- PCACHE_INVALIDATE (R123): INV reads 1 until the next package line start. -/
def execPcacheInvalidate (b : Nat) (s : State) : Out State :=
  .next (if s.present b then s.orReg (baddr b 0x10400) 2 else s)

/-- Invalidations asked for are made at a package line start (R123). -/
def cacheLineStart (s : State) : State :=
  s.eachBillet (fun s b =>
    if bit (s.breg b 0x10400) 1 then
      ({ s with pcache := s.pcache.filter (fun kv => kv.1 / 512 ≠ b) }).clrReg (baddr b 0x10400) 2
    else s)

end Sys2Proof.Machine
end

