-- ==== Sys2Proof/Machine/Stages.lean ====
section
/-! DEFINITION. What a Tuyere frame does after its source load: the program and the bus stage (R339, R344, R353-R369). -/

namespace Sys2Proof.Machine

def tuya (o : Nat) : Nat := 0x808000 + o

/-- A TUY register in force (R341). -/
def tuyEff (s : State) (o : Nat) : Word := Tbl.get (regReset s.variant) s.tuy.eff (tuya o)

/-- Events of TUY_EVT. -/
def tuyEvt (s : State) (m : Nat) : State := s.orReg (tuya 0x10) m

/-- A saturation (R344). -/
def tuySat (s : State) : State := tuyEvt (s.addReg (tuya 0x1C) 1) 0x20

/-- Narrowed to the sample format, and whether it saturated (R344). -/
def sat32 (i : Int) : Int × Bool := (clampI (-2147483648) 2147483647 i, i < -2147483648 || 2147483647 < i)

/-- A quotient in Q0.24 whose rounding the spec does not state. -/
def openQuot (n : Int) (d : Nat) : Int :=
  if n % d = 0 then n / d else n / d + (if Config.roundUp n d then 1 else 0)

def nodeOf (s : State) (i : Nat) : Int := Tbl.get (fun _ => (0 : Int)) s.tuy.nodes (i % 4096)

def setNodeRaw (s : State) (i : Nat) (v : Int) : State :=
  { s with tuy := { s.tuy with nodes := Tbl.set (fun _ => (0 : Int)) s.tuy.nodes (i % 4096) v } }

/-- A result written to a node, saturated (R344). -/
def setNode (s : State) (i : Nat) (v : Int) : State :=
  let r := sat32 v
  let s1 := setNodeRaw s i r.1
  if r.2 then tuySat s1 else s1

/-- A parameter word in force (R356, R361). -/
def parOf (s : State) (a : Nat) : Word := Tbl.get (fun _ => 0#32) s.tuy.parEff (a % 4096)

/-- A program word (R353). -/
def progGet (s : State) (copyB : Bool) (w : Nat) : Word := Tbl.get (fun _ => 0#32) s.tuy.prog (b2n copyB * 24576 + w)

def progSet (s : State) (copyB : Bool) (w : Nat) (v : Word) : State :=
  { s with tuy := { s.tuy with prog := Tbl.set (fun _ => 0#32) s.tuy.prog (b2n copyB * 24576 + w) v } }

/-- The G field of a slot of the active copy (R355). -/
def slotG (s : State) (i : Nat) : Int :=
  sx 24 (fld (progGet s s.tuy.copyB (2 * i + 1)) 3 0 * 2 ^ 20 + fld (progGet s s.tuy.copyB (2 * i)) 31 12)

/-! ### The program (R353-R359) -/

def slotState' (s : State) (i : Nat) : List Int := Tbl.get (fun _ => []) s.tuy.slotSt i

def setSlotState' (s : State) (i : Nat) (l : List Int) : State :=
  { s with tuy := { s.tuy with slotSt := Tbl.set (fun _ => []) s.tuy.slotSt i l } }

/-- m(x, G) of R356, and whether it saturated. -/
def mulG (x g : Int) : Int × Bool := sat32 ((x * g + 2 ^ 19) / 2 ^ 20)

/-- A biquad (R357). -/
def biquad (s : State) (i dst : Nat) (x : Int) (aux : Nat) : State :=
  let l := slotState' s i
  let c := fun k => sx 32 (parOf s (aux + k)).toNat
  let st := fun k => l.getD k 0
  let acc := c 0 * x + c 1 * st 0 + c 2 * st 1 - c 3 * st 2 - c 4 * st 3
  let y := sat32 ((acc + 2 ^ 29) / 2 ^ 30)
  let s1 := setSlotState' s i [x, st 0, y.1, st 2]
  setNodeRaw (if y.2 then tuySat s1 else s1) dst y.1

/-- A level follower (R357). -/
def follower (s : State) (i dst : Nat) (x : Int) (aux : Nat) : State :=
  let y := (slotState' s i).getD 0 0
  let p := parOf s aux
  let e := (x.natAbs : Int) - y
  let y1 := sat32 (y + e / 2 ^ (if 0 < e then fld p 12 8 else fld p 4 0))
  let s1 := setSlotState' s i [y1.1]
  setNodeRaw (if y1.2 then tuySat s1 else s1) dst y1.1

/-- A delay line slot (R359). -/
def delaySlot (s : State) (dst : Nat) (x : Int) (g : Nat) (line : Nat) : State :=
  let r := tuyEff s (0x80 + 4 * line)
  let base := fld r 27 16 * 64
  let n := if fld r 11 0 = 0 then 262144 else fld r 11 0 * 64
  let h := s.tuy.k % n
  let at' := fun k => (base + k) % 262144
  let s1 := if g / 2 ^ 23 % 2 = 1 then
      { s with tuy := { s.tuy with delay := Tbl.set (fun _ => (0 : Int)) s.tuy.delay (at' h) x } }
    else s
  setNodeRaw s1 dst (Tbl.get (fun _ => (0 : Int)) s1.tuy.delay (at' ((h + n * (g % 2 ^ 18 / n + 1) - g % 2 ^ 18) % n)))

/-- One slot (R355, R356). -/
def runSlot (s : State) (i : Nat) : State :=
  let w0 := progGet s s.tuy.copyB (2 * i)
  let w1 := progGet s s.tuy.copyB (2 * i + 1)
  let dst := fld w1 27 16
  let x := nodeOf s (fld w1 15 4)
  let g := slotG s i
  let aux := fld w0 11 0
  match fld w1 31 28 with
  | 1 =>
    let m := mulG x g
    setNodeRaw (if m.2 then tuySat s else s) dst m.1
  | 2 =>
    let m := mulG x g
    setNode (if m.2 then tuySat s else s) dst (nodeOf s dst + m.1)
  | 3 => setNode s dst ((x * nodeOf s aux + 2 ^ 22) / 2 ^ 23)
  | 4 => setNode s dst (g * 8)
  | 5 => setNodeRaw s dst (min (max x (sx 32 (parOf s aux).toNat)) (sx 32 (parOf s (aux + 1)).toNat))
  | 6 => biquad s i dst x aux
  | 7 => follower s i dst x aux
  | 8 => delaySlot s dst x (narrow 24 g) (aux % 32)
  | _ => s

/-! ### Buses and sinks (R362-R369) -/

def State.bus (s : State) (b : Nat) : Bus := Tbl.get (fun _ => Bus.init) s.tuy.buses b

def State.setBus (s : State) (b : Nat) (x : Bus) : State :=
  { s with tuy := { s.tuy with buses := Tbl.set (fun _ => Bus.init) s.tuy.buses b x } }

/-- A bus starts (R365, R367). -/
def Bus.start : Bus :=
  { on := true, g := 0x10270B, win := List.replicate 96 0, wpeak := 0, wcount := 0, quiet := 0, loud := true, y := 0,
    gmin := 0x1000000, peak := 0 }

/-- r_j of R363 as a fraction: numerator and denominator. -/
def limRatio (ceil : Nat) (x : Int) : Nat × Nat := if x.natAbs ≤ ceil then (1, 1) else (ceil, x.natAbs)

/-- The least of R363's terms, in Q0.24. -/
def limNeed (ceil : Nat) (win : List Int) : Nat :=
  (win.foldl (fun (acc : Nat × Nat) x =>
    let r := limRatio ceil x
    let v := (openQuot (((r.1 * 96 + (r.2 - r.1) * acc.2 : Nat) : Int) * 2 ^ 24) (r.2 * 96)).toNat
    (min acc.1 v, acc.2 + 1)) (2 ^ 24, 0)).1

/-- SIL and NSIL events of a bus (R367). -/
def silEvent (s : State) (b : Nat) (nsil : Bool) : State :=
  s.orReg (tuya (0xC08 + (if nsil then 8 else 0) + 4 * (b / 32))) (2 ^ (b % 32))

/-- The silence detector (R367). -/
def silence (s : State) (b : Nat) (x : Bus) (a : Nat) : State × Bus :=
  let r := tuyEff s (0x804 + 0x10 * b)
  let thr := fld r 22 0
  let peak := max x.wpeak a
  let x1 := { x with wpeak := peak, wcount := x.wcount + 1 }
  let (s2, x2) := if thr < a && !x1.loud then (silEvent s b true, { x1 with loud := true, quiet := 0 }) else (s, x1)
  if x2.wcount < 1024 then (s2, x2)
  else
    let quiet := if peak ≤ thr then x2.quiet + 1 else 0
    let x3 := { x2 with wcount := 0, wpeak := 0, quiet := quiet }
    if x3.loud && max 1 (fld r 31 24) ≤ quiet then (silEvent s2 b false, { x3 with loud := false, quiet := 0 }) else (s2, x3)

/-- One bus for one frame (R362-R367). -/
def busFrame (s : State) (b : Nat) : State :=
  let lim := tuyEff s (0x800 + 0x10 * b)
  if !bit lim 31 then (if (s.bus b).on then s.setBus b { s.bus b with on := false, loud := false, y := 0 } else s)
  else
    let x := if (s.bus b).on then s.bus b else Bus.start
    let inp := nodeOf s (4032 + b)
    let (s1, x1) := silence s b x inp.natAbs
    let ceil := min 0x800000 (fld lim 23 0)
    let rel := x1.g + (2 ^ 24 - x1.g) / 2 ^ fld lim 27 24
    let g := min rel (limNeed ceil x1.win)
    let y := clampI (-(ceil : Int)) ceil (openQuot (x1.win.headD 0 * g) (2 ^ 24))
    s1.setBus b { x1 with g := g, win := x1.win.drop 1 ++ [inp], y := y, gmin := min x1.gmin g, peak := max x1.peak inp.natAbs }

/-- A sink's enable and bus (R366). -/
def sinkCfg (s : State) (k : Nat) : Bool × Nat :=
  let r := tuyEff s (0x400 + 4 * (k / 4))
  (bit r (8 * (k % 4) + 7), fld r (8 * (k % 4) + 5) (8 * (k % 4)))

/-- Is a bus not silent (R362)? -/
def busLoud (s : State) (b : Nat) : Bool := s.tuy.running && (s.bus b).on && (s.bus b).loud

/-- Buses not silent, as a 64-bit number. -/
def loudMask (s : State) : Nat := (upto 64).foldl (fun acc b => acc + b2n (busLoud s b) * 2 ^ b) 0

/-- The bus stage's outputs: sinks, SILNOW, AMP_EN and power-down (R366-R369). -/
def busOutputs (s : State) : State :=
  let m := loudMask s
  let s1 := (s.setReg (tuya 0xC00) (wd m)).setReg (tuya 0xC04) (wd (m / 2 ^ 32))
  let force := fld (tuyEff s 0xC80) 15 8
  let amp := (upto 8).foldl (fun acc k =>
    let mask := (tuyEff s (0xC44 + 8 * k)).toNat * 2 ^ 32 + (tuyEff s (0xC40 + 8 * k)).toNat
    acc + b2n (mask &&& m != 0 || force.testBit k) * 2 ^ k) 0
  let sinks := (upto 192).foldl (fun (t : Tbl Int) k =>
    let c := sinkCfg s k
    Tbl.set (fun _ => (0 : Int)) t k (if c.1 then (s.bus c.2).y else 0)) []
  let down := (upto 8).foldl (fun acc n =>
    let r := tuyEff s (0x200 + 0x20 * n)
    let active := (upto (2 * 2 ^ fld r 5 4)).any (fun j => let c := sinkCfg s (16 * n + j); c.1 && busLoud s c.2)
    acc + b2n (bit r 10 && !active) * 2 ^ n) 0
  { s1 with tuy := { s1.tuy with amp := amp, sinks := sinks, down := down } }

/-! ### The stages of a frame (R339) -/

/-- Slots of the active copy that a frame runs (R339, R353). -/
def tuyLen (s : State) : Nat :=
  let r := tuyEff s 0x24
  min 12288 (if s.tuy.copyB then fld r 29 16 else fld r 13 0)

/-- The slots whose forge cycle has come run, one a cycle from the frame's cycle 64 on: each is read as it executes
(R339, R354). -/
def tuySlots (s : State) : State :=
  let n := min (tuyLen s) (s.now + 1 - (s.tuy.frameAt + 64))
  let s1 := ((upto n).drop s.tuy.ran).foldl runSlot s
  { s1 with tuy := { s1.tuy with ran := n } }

/-- The bus stage: limiters, silence detectors, AMP_EN pins and sinks (R339). -/
def busStage (s : State) : State :=
  let s1 := busOutputs ((upto 64).foldl busFrame s)
  { s1 with tuy := { s1.tuy with staged := true } }

/-- What the frame in progress does up to the present forge cycle: its program, and the bus stage in the first cycle after
it (R339; log entry 26). -/
def tuyStages (s : State) : State :=
  if !s.tuy.running || s.tuy.staged then s
  else
    let s1 := tuySlots s
    if s.tuy.frameAt + 64 + tuyLen s ≤ s.now then busStage s1 else s1

end Sys2Proof.Machine
end

