-- ==== Sys2Proof/Machine/Time.lean ====
section
/-! DEFINITION. The passing of forge cycles: the tick, the running compare counts, the dot counter and the counters that
count cycles (R45, R443, R444, R449, R456; log entry 1). -/

namespace Sys2Proof.Machine

/-! ### The tick -/

/-- ADJ as it acts (R444): clamped to 500 ppm. -/
def tickAdj (s : State) : Int := clampI (-2147484) 2147484 (sx 32 (s.reg 0xA0818).toNat)

/-- The increment of a forge cycle in units of 2^-32 ns, but for the third of each three, which is one more (R443,
R444). -/
def tickIncr (s : State) : Nat := ((0xD5555555 : Int) + tdiv (tickAdj s * 0xD5555555) (2 ^ 32)).toNat

/-- The tick as one number in units of 2^-32 ns. -/
def tickFull (s : State) : Nat := s.tick * 2 ^ 32 + s.tickFrac

def setTickFull (s : State) (n : Nat) : State :=
  { s with tick := n / 2 ^ 32 % 2 ^ 64, tickFrac := n % 2 ^ 32 }

/-- The tick `k` forge cycles on, at the present ADJ and with no step, before it wraps. -/
def tickAfter (s : State) (k : Nat) : Nat := tickFull s + k * tickIncr s + (s.tickCtl.phase + k) / 3

/-- Forge cycles until the tick reaches `t` ns, at the present ADJ. -/
def cyclesTo (s : State) (t : Nat) : Nat :=
  let d := t * 2 ^ 32 - tickFull s
  let k := d * 3 / (3 * tickIncr s + 1)
  ((upto 4).find? (fun i => d ≤ tickAfter s (k + i) - tickFull s)).getD 0 + k

/-- A running COUNT grows with the tick, up to the count before its wrap (R449). -/
def cmpGrow (n : Nat) (x : Compare) : Compare :=
  if x.running && x.count + 1 < x.per then { x with count := min (x.count + n) (x.per - 1) } else x

/-- Counter k counts `n` events of as many forge cycles, the last of them in the cycle `at' - 1` (R456, R457). -/
def tallyAdd (s : State) (b k n at' : Nat) : State :=
  let x := s.tally b k
  let s1 := s.setTally b k { x with cnt := (x.cnt + n) % 2 ^ 48, countAt := at',
                                    wrapAt := if x.cnt + n = 2 ^ 48 then at' else x.wrapAt }
  if 2 ^ 48 ≤ x.cnt + n then pulseIrq (s1.orReg (baddr b (taloff k 0x14)) 1) b (192 + k) else s1

/-- Source `src` of billet `b` had `n` events in cycles past, the last one in the cycle `at' - 1`. -/
def tallyPast (s : State) (b src n at' : Nat) : State :=
  if n = 0 then s
  else (upto 16).foldl (fun s k =>
    let c := s.breg b (taloff k 0)
    if bit c 31 && fld c 7 0 = src then tallyAdd s b k n at' else s) s

/-- Tally sources 225 and 226 when the tick is stepped (R445, R456). -/
def tickCross (s : State) (old : Nat) : State :=
  s.eachBillet (fun s b =>
    let s1 := if old / 1000 ≠ s.tick / 1000 then tallySource s b 225 else s
    if old / 1000000 ≠ s.tick / 1000000 then tallySource s1 b 226 else s1)

/-! ### Slips and the end of the line -/

/-- The slip the loop decides at a line end (R70): the loop with the accumulator advanced, and -1, 0 or 1. -/
def loopStep (g : Genlock) : Genlock × Int :=
  let acc := g.acc + g.rate
  if 65536 ≤ acc then ({ g with acc := acc - 65536 }, 1)
  else if acc ≤ -65536 then ({ g with acc := acc + 65536 }, -1)
  else if 0 < g.owed then ({ g with acc := acc, owed := g.owed - 1 }, 1)
  else if g.owed < 0 then ({ g with acc := acc, owed := g.owed + 1 }, -1)
  else ({ g with acc := acc }, 0)

/-- The slip made at a line end and the slips still carried, from those carried and the one decided (R50). -/
def combineSlips (cut : Bool) (carried d : Int) : Int × Int :=
  if cut then (0, carried + d)
  else if carried * d < 0 then (0, carried + d)
  else
    let made := (carried + d).sign
    (made, carried + d - made)

/-- The loop corrects at line ends: while tracking, in holdover, and while it re-acquires at the holdover rate; not at
the end of a jam line (R70, R72). -/
def loopRuns (s : State) : Bool :=
  !s.beam.jam && (match s.genlock.st with
    | .tracking => true
    | .holdover => true
    | .acquiring => s.genlock.again
    | _ => false)

/-- The slip that the end of the running line will have, as the loop stands now (R50, R70). -/
def slipDue (s : State) : Int :=
  if loopRuns s then (combineSlips s.beam.cut s.beam.carried (loopStep s.genlock).2).1 else 0

/-- Package dots of the running line with its slip (R50). -/
def lineDotsNow (s : State) : Nat := (s.beam.lineLen + slipDue s).toNat

/-- The forge cycle at which the running package line ends (R45). -/
def lineEnd (s : State) : Nat := s.beam.lineAt + 4 * lineDotsNow s

/-! ### Cycles -/

/-- The package dot counter `k` forge cycles on (R45): the last dot lasts until the next line starts. -/
def beamCycles (len k : Nat) (b : Beam) : Beam :=
  let c := min (4 * b.dot + b.phase + k) (4 * len - 1)
  { b with dot := c / 4, phase := c % 4 }

/-- `k` forge cycles pass, and with them the stages of Tuyere's frame (R339). -/
def passCycles (k : Nat) (s : State) : State :=
  let t0 := tickFull s
  let t1 := tickAfter s k
  let tb := tickAfter s (k - 1)
  let unit := 2 ^ 32 * 1000
  let at' := fun (u : Nat) => if tb / u ≠ t1 / u then s.now + k + 1 else 0
  let s1 : State := setTickFull
    { s with now := s.now + k, beam := beamCycles (lineDotsNow s) k s.beam,
             tickCtl := { s.tickCtl with phase := (s.tickCtl.phase + k) % 3 },
             compares := s.compares.map (fun kv => (kv.1, cmpGrow (t1 / 2 ^ 32 - t0 / 2 ^ 32) kv.2)) } t1
  tuyStages (s1.eachBillet (fun s b =>
    tallyPast (tallyPast (tallyPast s b 224 k (s.now + 1)) b 225 (t1 / unit - t0 / unit) (at' unit)) b 226
      (t1 / (1000 * unit) - t0 / (1000 * unit)) (at' (1000 * unit))))

/-- Time passes to a forge cycle. -/
def passTo (t : Nat) (s : State) : State := if s.now < t then passCycles (t - s.now) s else s

end Sys2Proof.Machine
end

