-- ==== Sys2Proof/Machine/Bellows.lean ====
section
/-! DEFINITION. Bellows: the package beam, its registers, the locking loop, the port channels and the stamps
(file 02). -/

namespace Sys2Proof.Machine

/-! ### Package-beam registers -/

/-- Offsets of the package-beam registers of R46 and R47, which exist once, in billet 0. -/
def isPkgReg (off : Nat) : Bool := off % 4 = 0 && (off ≤ 0x18 || off = 0x28 || off = 0x2C)

/-- Offsets that every billet shows as billet 0's (R46). -/
def isPkgShared (off : Nat) : Bool := off < 0x30

def pkgCtrl (s : State) : Word := s.reg 0x0
/-- The REF field (R65). -/
def refSel (s : State) : Nat := fld (pkgCtrl s) 1 0
/-- OFS, signed, forge cycles (R66). -/
def pkgOfs (s : State) : Int := sx 24 (fld (s.reg 0x10) 23 0)
/-- Package frames per reference frame (R66). -/
def pkgRatio (s : State) : Nat :=
  match fld (pkgCtrl s) 6 5 with
  | 1 => 2
  | 2 => 4
  | _ => 1
/-- HV: every GLK_H edge is measured. -/
def pkgHv (s : State) : Bool := refSel s = 1 && bit (pkgCtrl s) 4

/-- Accept a write of a package-beam register, or of one of its bits (R47, R212): it applies 32 package dots later. -/
def pkgAccept (s : State) (off : Nat) (v : Word) (op : Option (Nat × BitOp) := none) : State :=
  { s with pkgQueue := s.pkgQueue ++ [⟨off, v, s.now + 128, op⟩] }

/-- The word a write of a package-beam register carries, at its application point. -/
def pkgWord (old : Word) (w : PkgWrite) : Word :=
  match w.bitOp with
  | none => w.val
  | some (i, op) => bitApply old i op

/-- Raise UNLOCK and clear LOCKED if it was set (R51, R71). -/
def unlock (s : State) : State :=
  if s.genlock.locked then
    localFault (pkgEvent { s with genlock := { s.genlock with locked := false } } 71) 3
  else s

/-- Restart acquisition as for a new reference (R51, R65): the rate returns to 0. Carried slips stay and are made once
the loop corrects again (log entry 40). -/
def restartLoop (s : State) : State :=
  let s1 := (unlock s).setReg 0x20 0#32
  let st := if refSel s = 0 || s.genlock.conflict then GlState.freeRun else GlState.acquiring
  { s1 with genlock := { Genlock.init with st := st, conflict := s.genlock.conflict, glkF := s.genlock.glkF } }

/-- HTOTAL written with IMM = 1 (R49): a line whose end it moves ends under R49. At the instant of the line's end the
value governs from the next line on. -/
def immediateH (s : State) (h : Nat) : State :=
  if s.beam.jam || lineEnd s ≤ s.now then s
  else if s.beam.dot < h then
    { s with beam := { s.beam with htotal := h, lineLen := h, cut := s.beam.cut || h ≠ s.beam.lineLen } }
  else pkgEvent { s with beam := { s.beam with htotal := h, lineLen := s.beam.dot + 1, cut := true } } 74

/-- VTOTAL written with IMM = 1 (R49). -/
def immediateV (s : State) (v : Nat) : State :=
  if s.beam.jam then s
  else if s.beam.line < v then { s with beam := { s.beam with vtotal := v, cutFrame := false, sudden := false } }
  else pkgEvent { s with beam := { s.beam with vtotal := v, cutFrame := true,
                                               sudden := s.beam.sudden || s.beam.line + 1 ≠ s.beam.vtotal } } 74

/-- Does the port's pixel clock lie within R54 under a package HTOTAL? -/
def clockOk (hTotal htotal : Nat) : Bool := 5 * htotal ≤ 300 * hTotal && 300 * hTotal ≤ 600 * htotal

/-- The timing check of R60. -/
def timingOk (c : PortCfg) (htotal : Nat) : Bool :=
  clockOk c.hTotal htotal && c.hActStart + c.hAct ≤ c.hTotal && c.hsEnd ≤ c.hTotal

/-- BEL_PORTp_FREQ (file 02): the nominal pixel clock in kHz while running. -/
def setFreq (s : State) (b p : Nat) : State :=
  let x := s.port b p
  s.setReg (baddr b (0x11C + 0x100 * p))
    (if x.running && s.beam.htotal ≠ 0 then wd (300000 * x.cfg.hTotal / s.beam.htotal % 2 ^ 20) else 0#32)

/-- A new package HTOTAL in effect: running ports whose pixel clock leaves R54 stop at their next line start (R60), and
FREQ follows. -/
def recheckPorts (s : State) : State :=
  s.eachBillet (fun s b => (upto 4).foldl (fun s p =>
    let x := s.port b p
    if x.running then
      setFreq (if !clockOk x.cfg.hTotal s.beam.htotal then s.setPort b p { x with stopNext := true } else s) b p
    else s) s)

/-- The application point of a package-beam write (R47-R49, R51). -/
def applyPkg (s : State) (w : PkgWrite) : State :=
  let old := s.reg w.addr
  let new := pkgWord old w
  let put := fun (m : Nat) (v : Word) => s.setReg w.addr (mergeBits m old v)
  if w.addr = 0x0 then
    let s1 := put 0x00FF0FFF new
    if fld old 1 0 ≠ fld new 1 0 || s.genlock.conflict then
      restartLoop { s1 with genlock := { s1.genlock with conflict := false } }
    else s1
  else if w.addr = 0x4 then
    let h := fld new 15 0
    let h' := if h < 301 then 301 else h
    let s1 := put 0xFFFF (wd h')
    let s2 := if h < 301 then s1.orReg 0x18 0x80 else s1
    let s3 := if bit (pkgCtrl s) 7 then recheckPorts (immediateH s2 h') else s2
    if refSel s ≠ 0 && fld old 15 0 ≠ h' then restartLoop s3 else s3
  else if w.addr = 0x8 then
    let v := fld new 15 0
    let v' := if v < 4 then 4 else v
    let s1 := put 0xFFFF (wd v')
    let s2 := if v < 4 then s1.orReg 0x18 0x80 else s1
    let s3 := if bit (pkgCtrl s) 7 then immediateV s2 v' else s2
    if refSel s ≠ 0 && fld old 15 0 ≠ v' then restartLoop s3 else s3
  else if w.addr = 0x14 then
    let s1 := put 0xFFFFFFFF new
    if refSel s ≠ 0 && old ≠ new then restartLoop s1 else s1
  else if w.addr = 0x10 then put 0xFFFFFF new
  else if w.addr = 0x2C then put 0x1FFFF new
  else if w.addr = 0x18 then s.setReg w.addr (old &&& ~~~ (new &&& 0xF80#32))
  else put 0xFFFFFFFF new

/-- PKG_REG_APPLY: the oldest accepted write applies at its application point (R47), to which the clock comes, within
the running line. -/
def pkgApplyNext (s : State) : State :=
  match s.pkgQueue with
  | [] => s
  | w :: q => if w.due ≤ lineEnd s then applyPkg { passTo w.due s with pkgQueue := q } w else s

/-- Apply the accepted writes whose application point has come. -/
def pkgDue : List PkgWrite → State → State
  | [], s => s
  | w :: q, s => if w.due ≤ s.now then pkgDue q (applyPkg { s with pkgQueue := q } w) else s

/-- Time passes to the instant that `inst` names, each accepted write applying at its point on the way. -/
def bringVia (inst : State → Nat) : List PkgWrite → State → State
  | [], s => passTo (inst s) s
  | w :: q, s =>
    if w.due ≤ inst s then bringVia inst q (applyPkg { passTo w.due s with pkgQueue := q } w) else passTo (inst s) s

/-- The clock comes to an instant that lies ahead (log entry 1). -/
def bring (inst : State → Nat) (s : State) : State := if s.now < inst s then bringVia inst s.pkgQueue s else s

/-- An event of the running package line at its instant: the clock comes to it, and it acts there (log entry 1). One
that lies beyond the end of the line does nothing yet. -/
def atInstant (inst : State → Nat) (f : State → State) (s : State) : State :=
  if inst s ≤ s.now then f s
  else if inst s < lineEnd s then
    let s1 := bring inst s
    if inst s1 ≤ s1.now then f s1 else s1
  else s

/-! ### The locking loop -/

/-- The nominal span between reference events, forge cycles, and the package lines in it (R66, R67). -/
def refNominal (s : State) : Nat × Nat :=
  let line := 4 * s.beam.htotal
  if pkgHv s then (line, 1)
  else
    let r := if refSel s = 1 then pkgRatio s else 1
    (r * s.beam.vtotal * line, r * s.beam.vtotal)

/-- One measurement (R70, R71): `e` in forge cycles, `m` line ends since the last reference event. -/
def measure (s : State) (e : Int) (m : Nat) : State :=
  let g := s.genlock
  let q := tdiv e 4
  let m' : Int := if m = 0 then 1 else m
  let rate := clampI (-65536) 65536 (g.rate + tdiv (q * 65536) (16 * m'))
  let lim := if rate = 65536 || rate = -65536 then g.limit + 1 else 0
  let inside := decide (e.natAbs ≤ fld (pkgCtrl s) 23 16)
  let good := if inside then g.good + 1 else 0
  let bad := if inside then 0 else g.bad + 1
  let s1 := { s with genlock := { g with owed := q, rate := rate, limit := lim, good := good, bad := bad } }
  let s2 := (s1.setReg 0x1C (wd (narrow 32 e))).setReg 0x20 (wd (narrow 32 rate))
  let s3 := if lim = 16 then s2.orReg 0x18 0x400 else s2
  if inside && good = 16 && !g.locked then
    pkgEvent { s3 with genlock := { s3.genlock with locked := true } } 70
  else if !inside && bad = 4 then unlock s3
  else s3

/-- Acquisition is complete (R67): the rate is the mean interval's, and the loop jams or tracks (R68, R69). After a loss
it jams where both ACQ and REJAM are 1 (log entry 41). -/
def acquired (s : State) (jamAt : Option Nat) (jamFrame : Option Nat) : State :=
  let g := s.genlock
  let (nom, m) := refNominal s
  let rate := clampI (-65536) 65536 (tdiv (((g.sum : Int) - 16 * nom) * 65536) (64 * m))
  let jams := bit (pkgCtrl s) 2 && (!g.again || bit (pkgCtrl s) 3)
  let g1 := { g with rate := rate, period := g.sum / 16, good := 0, bad := 0, limit := 0, waitEv := none,
                     st := if jams then GlState.jamPending else GlState.tracking, pair := 0, pkgAt := none,
                     pkgBefore := none,
                     jamAt := if jams then jamAt else none, jamFrame := jamFrame }
  ({ s with genlock := g1 }).setReg 0x20 (wd (narrow 32 rate))

/-- A GLK_H edge of reference line `n` at cycle `t` (R66): the package lines from the running one to the start of the
package line of the same number that lies nearest to `t` + OFS, and the error against it at nominal lines. -/
def lineError (s : State) (t n : Nat) : Int × Int :=
  let v : Int := s.beam.vtotal
  let len : Int := 4 * s.beam.htotal
  let x : Int := (t : Int) - s.beam.lineAt + pkgOfs s
  let d0 : Int := ((n : Int) - s.beam.line) % v
  let d := d0 + v * ((2 * (x / len - d0) + v) / (2 * v))
  (d, x - d * len)

/-- Measure a reference event at cycle `t` against the package beam while tracking (R66, R70): against the measured
frame start nearest to `t` + OFS (log entry 42), which may be still to come. -/
def trackEvent (s : State) (t m : Nat) : State :=
  let g := s.genlock
  let wait : State := { s with genlock := { g with waitEv := some t, waitM := m } }
  if pkgHv s then
    match g.refLine with
    | none => s
    | some n => if (lineError s t n).1 = 1 then wait else measure s (lineError s t n).2 m
  else
    match g.pkgAt with
    | none => wait
    | some p =>
      let e := (t : Int) - p + pkgOfs s
      if (g.period : Int) < 2 * e then wait
      else match g.pkgBefore with
        | some p' => measure s (if 2 * e < -(g.period : Int) then (t : Int) - p' + pkgOfs s else e) m
        | none => measure s e m

/-- While tracking, an event more than 1/8 of its period from its predicted time is discarded (R66). -/
def offBeat (s : State) (i : Nat) : Bool :=
  let t := s.genlock.period
  let n := if t = 0 then 1 else max 1 ((2 * i + t) / (2 * t))
  t < 8 * ((i : Int) - n * t).natAbs

/-- When the jam is aimed (R68), after an event at cycle `t`: the next reference frame start plus OFS. -/
def jamTarget (s : State) (t period : Nat) : Option Nat :=
  let at' := fun (t : Nat) => ((t : Int) + pkgOfs s).toNat
  if pkgHv s then
    match s.genlock.refLine with
    | none => none
    | some n => some (at' (t + (s.beam.vtotal - n) * period))
  else some (at' (t + period))

/-- A reference event at cycle `t` (R66-R72). `frame` is the frame number the next one names, where the reference gives
it. The jam is aimed once (R68). -/
def refEvent (s : State) (t : Nat) (frame : Option Nat) : State :=
  let g := s.genlock
  match g.st with
  | .freeRun => s
  | .holdover =>
    { s with genlock := { g with st := .acquiring, again := true, lastEv := some t, lastEnds := s.beam.ends,
                                 first := 0, seen := 0, sum := 0, refPresent := true, waitEv := none } }
  | st =>
    match g.lastEv with
    | none => { s with genlock := { g with lastEv := some t, lastEnds := s.beam.ends, refPresent := true } }
    | some t0 =>
      let i := t - t0
      let m := s.beam.ends - g.lastEnds
      let g0 := { g with lastEv := some t, lastEnds := s.beam.ends, refPresent := true }
      match st with
      | .acquiring =>
        let fits := decide (1000 * ((i : Int) - g.first).natAbs ≤ g.first)
        let g1 := if g.seen ≠ 0 && fits then { g0 with seen := g.seen + 1, sum := g.sum + i }
                  else { g0 with first := i, seen := 1, sum := i }
        let s1 := { s with genlock := g1 }
        if g1.seen = 16 then acquired s1 (jamTarget s1 t (g1.sum / 16)) frame else s1
      | .jamPending =>
        let s1 := { s with genlock := g0 }
        if g.jamAt.isSome then s1
        else { s1 with genlock := { g0 with jamAt := jamTarget s1 t g.period, jamFrame := frame } }
      | _ =>
        if offBeat s i then s
        else trackEvent { s with genlock := g0 } t m

/-- GENLOCK_EDGE (R66): an edge of a GLK pin after its filter. -/
def genlockEdge (s : State) (pin : GlkPin) (rising : Bool) : State :=
  let c := pkgCtrl s
  match pin with
  | .f => { s with genlock := { s.genlock with glkF := rising } }
  | .v =>
    if refSel s = 1 && rising ≠ bit c 11 && (!bit c 8 || s.genlock.glkF = bit c 9) then
      if pkgHv s then { s with genlock := { s.genlock with armV := true } } else refEvent s s.now none
    else s
  | .h =>
    if pkgHv s && rising ≠ bit c 10 then
      let g := s.genlock
      let rl := if g.armV then some 0 else g.refLine.map (fun n => (n + 1) % s.beam.vtotal)
      refEvent { s with genlock := { g with refLine := rl, armV := false } } s.now none
    else s

def execGenlockEdge (pin : GlkPin) (rising : Bool) (s : State) : Out State := .next (genlockEdge s pin rising)

/-- The PTP slave reports lock (R66): state LOCKED of LNK_PTP_STAT (R405). -/
def ptpLocked (s : State) : Bool := fld (s.reg 0x9381C) 2 0 = 3

/-- Alignment point t_k in ns of tick (R66): a DEN of 0 counts as 1. With NUM = 0 there is no rate and no point. -/
def ptpPoint (s : State) (k : Nat) : Nat :=
  k * 10 ^ 9 * max 1 (fld (s.reg 0x14) 15 0) / fld (s.reg 0x14) 31 16

/-- The forge cycle of a tick of `t` ns that has been reached (R66): 1.2 cycles per ns, to nearest. -/
def cycleOfTick (s : State) (t : Nat) : Nat := s.now - (6 * (tickFull s - t * 2 ^ 32) + 5 * 2 ^ 31) / (5 * 2 ^ 32)

/-- The tick has reached point `k` and not the next one. -/
def atPoint (s : State) (k : Nat) : Bool := ptpPoint s k ≤ s.tick && s.tick < ptpPoint s (k + 1)

/-- PTP_ALIGNMENT_POINT (R66, R68): the clock comes to the cycle at which the tick reaches t_k, and the event counts
while the PTP slave reports lock; a jam would load the number of the next point. -/
def ptpAlign (s : State) (k : Nat) : State :=
  atInstant (fun s => s.now + cyclesTo s (ptpPoint s k)) (fun s =>
    if refSel s = 2 && ptpLocked s && atPoint s k then
      refEvent s (cycleOfTick s (ptpPoint s k)) (some ((k + 1) % 2 ^ 48))
    else s) s

def execPtpAlignmentPoint (k : Nat) (s : State) : Out State := .next (ptpAlign s k)

/-- The period at which events are predicted (R72): the mean one once acquired, before that the nominal one. -/
def predicted (s : State) : Nat := if s.genlock.period = 0 then (refNominal s).1 else s.genlock.period

/-- Four predicted periods have passed since the last event (R72). -/
def refOverdue (s : State) : Bool :=
  match s.genlock.lastEv with
  | none => false
  | some t => t + 4 * predicted s ≤ s.now

/-- The reference is lost (R72): holdover keeps the rate and clears owed. -/
def refLost (s : State) : State :=
  if s.genlock.st = .freeRun || s.genlock.st = .holdover || !refOverdue s then s
  else
    let s1 := unlock s
    let s2 := { s1 with genlock := { s1.genlock with st := .holdover, owed := 0, refPresent := false, good := 0,
                                                     bad := 0, waitEv := none, jamAt := none } }
    localFault (pkgEvent (s2.orReg 0x18 0x200) 72) 2

/-- REF_LOST (R72). -/
def execRefLost (s : State) : Out State := .next (refLost s)

/-- The line end's slip (R50, R54, R70): counted and raised when made; port lines of the line keep it. -/
def slipAtEnd (s : State) : State :=
  if loopRuns s then
    let g := loopStep s.genlock
    let c := combineSlips s.beam.cut s.beam.carried g.2
    let s1 := { s with genlock := g.1, beam := { s.beam with carried := c.2 } }
    if c.1 = 0 then s1
    else pkgEvent (if c.1 = 1 then s1.addRf 0x24 15 0 1 else s1.addRf 0x24 31 16 1) 68
  else s

/-- The frame ends at the end of the running line. -/
def frameEnds (b : Beam) : Bool := b.jam || b.cutFrame || b.vtotal ≤ b.line + 1

/-- A jam line has ended (R68): the accumulator clears, JAM is raised, and tracking begins where the loop still had it
pending. -/
def jamDone (s : State) : State :=
  let g := { s.genlock with acc := 0, owed := 0 }
  let s1 := { s with genlock := if s.genlock.st = GlState.jamPending then
    { g with st := .tracking, jamAt := none, jamFrame := none, lastEnds := s.beam.ends, pair := 0 } else g }
  pkgEvent (s1.orReg 0x18 0x100) 69

/-- Forge cycles between predicted reference frame starts. -/
def jamPeriod (s : State) : Nat := if pkgHv s then s.beam.vtotal * s.genlock.period else s.genlock.period

/-- The line that starts is a jam line when its reference frame start is less than two line lengths away (R68); one that
is less than a line away is passed over for the next. -/
def aimJam (s : State) : State :=
  match s.genlock.st, s.genlock.jamAt with
  | .jamPending, some t =>
    if t < s.now + 4 * s.beam.htotal then
      { s with genlock := { s.genlock with jamAt := some (t + jamPeriod s),
                                           jamFrame := s.genlock.jamFrame.map (fun f => (f + 1) % 2 ^ 48) } }
    else if t < s.now + 8 * s.beam.htotal then
      { s with beam := { s.beam with jam := true, jamLoad := s.genlock.jamFrame, lineLen := (t - s.now) / 4,
                                     sudden := s.beam.line + 1 ≠ s.beam.vtotal } }
    else s
  | _, _ => s

/-- A package frame start as a measured package event (R66): a waiting reference event that lies nearest to it is
measured here. -/
def pkgFrameMeasured (s : State) : State :=
  if s.genlock.st ≠ .tracking || pkgHv s then s
  else if s.genlock.pair ≠ 0 then { s with genlock := { s.genlock with pair := s.genlock.pair - 1 } }
  else
    let g := { s.genlock with pair := (if refSel s = 1 then pkgRatio s else 1) - 1, pkgAt := some s.now,
                              pkgBefore := s.genlock.pkgAt }
    match g.waitEv with
    | some t =>
      let e := (t : Int) - s.now + pkgOfs s
      if (g.period : Int) < 2 * e then { s with genlock := g }
      else measure { s with genlock := { g with waitEv := none } } e g.waitM
    | none => { s with genlock := g }

/-- With HV = 1 a waiting GLK_H edge is measured at the start of its line (R66). -/
def pkgLineMeasured (s : State) : State :=
  if s.genlock.st = .tracking && pkgHv s then
    match s.genlock.waitEv with
    | some t =>
      measure { s with genlock := { s.genlock with waitEv := none } } ((t : Int) - s.now + pkgOfs s) s.genlock.waitM
    | none => s
  else s

/-- Is line `l` an active line (R52)? -/
def activeLine (b : Beam) (l : Nat) : Bool := b.vactStart ≤ l && l < b.vactStart + b.vact && l < b.vtotal

/-- The first line that is not active after an active line (R76), where there is one. -/
def isVblankStart (b : Beam) (l : Nat) : Bool :=
  b.vact ≠ 0 && b.vact < b.vtotal && l = (b.vactStart + b.vact) % b.vtotal

/-- The frame number comes to `f` at L0:D0 (R77). -/
def frameMatch (s : State) : State :=
  let hi := s.reg 0x2C
  if bit hi 16 && s.beam.frame = (fld hi 15 0) * 2 ^ 32 + (s.reg 0x28).toNat then pkgEvent s 73 else s

/-- The counters pass to the next line, with the values that take effect there (R45, R48, R68). -/
def advanceBeam (s : State) : State :=
  let b := s.beam
  let ends := frameEnds b
  let htotal := fld (s.reg 0x4) 15 0
  let frame := if ends then
      (match b.jam, b.jamLoad with
        | true, some f => f
        | _, _ => (b.frame + 1) % 2 ^ 48)
    else b.frame
  let b' : Beam :=
    { b with dot := 0, phase := 0, line := if ends then 0 else b.line + 1, frame := frame, htotal := htotal,
             lineLen := htotal, cut := false, cutFrame := false, sudden := false, jam := false, jamLoad := none,
             lineAt := s.now, ends := b.ends + 1,
             vtotal := if ends then fld (s.reg 0x8) 15 0 else b.vtotal,
             vactStart := if ends then fld (s.reg 0xC) 15 0 else b.vactStart,
             vact := if ends then fld (s.reg 0xC) 31 16 else b.vact,
             frameAt := if ends then s.now else b.frameAt }
  { s with beam := b' }

/-- Package events of a line start (R76, R77). -/
def lineEvents (s : State) : State :=
  let b := s.beam
  let s1 := pkgEvent s 64
  let s2 := if b.line = 0 then frameMatch (pkgEvent s1 65) else s1
  let s3 := if activeLine b b.line && b.line = b.vactStart then pkgEvent s2 66 else s2
  if isVblankStart b b.line then pkgEvent s3 67 else s3

/-- The beam's part of a package line start. -/
def beamLineStart (s : State) : State :=
  let wasJam := s.beam.jam
  let ends := frameEnds s.beam
  let oldH := s.beam.htotal
  let s1 := advanceBeam (slipAtEnd s)
  let s2 := if wasJam then jamDone s1 else s1
  let s3 := if ends then pkgFrameMeasured s2 else s2
  let s4 := aimJam (pkgLineMeasured s3)
  let s5 := if s4.beam.htotal ≠ oldH then recheckPorts s4 else s4
  lineEvents s5

/-! ### Raster ports -/

/-- Offset of a register of port p. -/
def poff (p o : Nat) : Nat := 0x100 + 0x100 * p + o

/-- Is port p slaved (R59)? -/
def isSlaved (s : State) (b p : Nat) : Bool :=
  let c := s.breg b (poff p 0)
  bit c 1 && fld c 3 2 ≠ p

/-- The port whose timing registers port p uses, and whether SLAVE_ERR arises (R59). -/
def timingPort (s : State) (b p : Nat) : Nat × Bool :=
  if isSlaved s b p then
    let m := fld (s.breg b (poff p 0)) 3 2
    if isSlaved s b m then (p, true) else (m, false)
  else (p, false)

/-- The timing the registers give port p now (R58, R59). -/
def cfgOf (s : State) (b p : Nat) : PortCfg :=
  let q := (timingPort s b p).1
  let c := s.breg b (poff q 0)
  { hTotal := s.bf b (poff q 4) 15 0, hAct := s.bf b (poff q 8) 31 16, hActStart := s.bf b (poff q 8) 15 0,
    hsEnd := s.bf b (poff q 0xC) 31 16, hsStart := s.bf b (poff q 0xC) 15 0,
    vsEnd := s.bf b (poff q 0x10) 31 16, vsStart := s.bf b (poff q 0x10) 15 0,
    dotOfs := s.bf b (poff p 0x14) 15 0, hsPol := bit c 4, vsPol := bit c 5, dePol := bit c 6 }

/-- SLAVE_ERR when a port's master is itself slaved (R59). -/
def slaveCheck (s : State) (b p : Nat) : State :=
  if (timingPort s b p).2 then s.orReg (baddr b (poff p 0x18)) 0x800 else s

/-- RANGE (R60), a local fault of a compared port (R414). -/
def setRange (s : State) (b p : Nat) : State :=
  let s1 := s.orReg (baddr b (poff p 0x18)) 0x200
  if bit (s.reg (qcha 0x14)) (pidx b p) then localFault s1 4 else s1

/-- Package dots that the port's line spans (R54): those of its package line, with the slip that line ends with. -/
def portSpan (s : State) (x : Port) : Nat := (x.lineDots + (if x.begun then slipDue s else x.slip)).toNat

/-- The forge cycle of the start of dot `d` of a port's line (R54, R533). -/
def dotAt (s : State) (x : Port) (d : Nat) : Nat :=
  x.lineAt + (d * 4 * portSpan s x + (x.cfg.hTotal - 1)) / max 1 x.cfg.hTotal

/-- The port's dot counter (R53, R54): pixel clocks since the line start, held at H_TOTAL - 1. -/
def portDot (s : State) (x : Port) : Nat :=
  if x.running && x.cfg.hTotal ≠ 0 && portSpan s x ≠ 0 then
    min (x.cfg.hTotal - 1) ((s.now - x.lineAt) * x.cfg.hTotal / (4 * portSpan s x))
  else 0

/-- The forge cycle at which the port's line of the running package line starts (R53): D(DOT_OFS), modulo HTOTAL. -/
def portLineAt (s : State) (x : Port) : Nat := s.beam.lineAt + 4 * (x.cfg.dotOfs % max 1 s.beam.htotal)

/-- Stop a port's channel (R58): counters at 0, outputs inactive, no events. -/
def stopPort (s : State) (b p : Nat) : State :=
  let x := s.port b p
  setFreq (s.setPort b p { x with running := false, line := 0, frame := 0, lineAt := 0, lineDots := 0, slip := 0,
                                  begun := false, armed := false, missed := none, stopNext := false, de := false,
                                  hblank := false, hs := false, vs := false }) b p

/-- The ports at a package frame start: a running port's new timing, of which DOT_OFS places port line 0 (R58); an
enabled and locked port that does not run starts its channel in this frame's line 0 (R58, R466). -/
def portsTakeTiming (s : State) : State :=
  s.eachBillet (fun s b => (upto 4).foldl (fun s p =>
    let x := s.port b p
    if x.running then
      let c := if x.sampled then x.next else cfgOf s b p
      slaveCheck (s.setPort b p { x with cfg := { x.cfg with dotOfs := c.dotOfs }, next := c, sampled := false }) b p
    else if x.enabled && x.synLock then
      let c := cfgOf s b p
      slaveCheck (s.setPort b p { x with cfg := { x.cfg with dotOfs := c.dotOfs }, next := c, armed := true }) b p
    else s) s)

/-- The package line ends, with its slip known: a port whose line of it has not begun starts it now (R53). -/
def portsMissed (s : State) : State :=
  let slip := slipDue s
  s.eachBillet (fun s b => (upto 4).foldl (fun s p =>
    let x := s.port b p
    if x.running then
      s.setPort b p (if x.begun then { x with begun := false, slip := slip } else { x with missed := some (hereLine s) })
    else if x.armed then s.setPort b p { x with armed := false }
    else s) s)

/-- The composition lead (R56). -/
def leadCheck (s : State) (b p : Nat) : State :=
  let c := (s.port b p).cfg
  if c.hActStart * s.beam.htotal < 48 * c.hTotal then s.orReg (baddr b (poff p 0x18)) 0x400 else s

/-- VS as a function of the port position, at the dots before HS_START of a line (R55). -/
def vsAtLineStart (c : PortCfg) (l : Nat) : Bool :=
  if c.vsEnd = c.vsStart then false
  else if c.vsStart < c.vsEnd then c.vsStart < l && l ≤ c.vsEnd
  else c.vsStart < l || l ≤ c.vsEnd

/-- The port's line begins (R53-R58): counters, the line-latch point, the events of its start. With its line 0 the new
timing governs; the registers, its master's for a slaved port, are sampled for the next frame as its own line VTOTAL - 1
begins (log entry 43). -/
def portBeginLine (s : State) (b p : Nat) (fl : Nat × Nat) : State :=
  let x := s.port b p
  let short := x.running && x.lineDots ≠ 0 && s.now - x.lineAt < 4 * portSpan s x
  let late := x.missed.isSome
  let last := fl.2 + 1 = s.beam.vtotal && !late
  let c := if fl.2 = 0 then x.next else x.cfg
  let x' := { x with cfg := c, line := fl.2, frame := if fl.2 = 0 then fl.1 else x.frame, lineAt := s.now,
                     lineDots := s.beam.htotal, slip := 0, begun := !late, missed := none, view := s.regs,
                     viewEff := s.eff, viewLut := s.luts, hblank := 0 < c.hActStart || c.hAct = 0,
                     de := c.hActStart = 0 && c.hAct ≠ 0 && activeLine s.beam fl.2,
                     hs := c.hsStart = 0 && 0 < c.hsEnd, vs := vsAtLineStart c fl.2,
                     sampled := x.sampled || last, next := if last then cfgOf s b p else x.next }
  let s1 := s.setPort b p x'
  let s2 := if short then beamEvent s1 b (16 * p + 10) else s1
  let s3 := beamEvent s2 b (16 * p)
  let s4 := if fl.2 = 0 then beamEvent s3 b (16 * p + 1) else s3
  if isVblankStart s.beam fl.2 then beamEvent s4 b (16 * p + 3) else s4

/-- The line the port would begin: the one it missed, or the running package line (R53). -/
def portNextLine (s : State) (x : Port) : Nat × Nat :=
  match x.missed with
  | some m => m
  | none => hereLine s

/-- A port's line start, the beam's part: its frame start repeats the timing check, a requested stop is made, else
the line begins (R53, R58, R60). -/
def portLineStart (s : State) (b p : Nat) : State :=
  let x := s.port b p
  if !x.running then s
  else
    let fl := portNextLine s x
    if !x.enabled then stopPort s b p
    else if x.stopNext || (fl.2 = 0 && !timingOk x.next s.beam.htotal) then setRange (stopPort s b p) b p
    else
      let s1 := portBeginLine s b p fl
      if fl.2 = 0 then leadCheck (setFreq s1 b p) b p else s1

/-- The port's line may start: it has one of the running package line still to begin, or one it missed. -/
def portLineWaits (x : Port) : Bool := x.missed.isSome || !x.begun

/-- The forge cycle at which the port's next line starts: a missed line's at the end of its package line. -/
def portStartAt (s : State) (x : Port) : Nat := if x.missed.isSome then s.beam.lineAt else portLineAt s x

/-- The first count of a channel (R58, R466): enabled and locked at the package frame start, its timing good, at
D(DOT_OFS) of line 0. -/
def portChannelStart (s : State) (b p : Nat) : State :=
  let x := s.port b p
  if x.armed && !x.running && s.beam.line = 0 then
    let s0 := s.setPort b p { x with armed := false }
    if !(x.enabled && x.synLock) then s0
    else if timingOk x.next s.beam.htotal then
      let s1 := s0.setPort b p { x with armed := false, running := true, sampled := false, stopNext := false,
                                        lineDots := 0, slip := 0 }
      leadCheck (setFreq (portBeginLine s1 b p (hereLine s)) b p) b p
    else setRange s0 b p
  else s

/-- PORT_MATCH (R77): comparator k of a running port, enabled, at its dot, on its line. -/
def portMatch (s : State) (b p k : Nat) : State :=
  let x := s.port b p
  let m := s.breg b (poff p 0x30)
  let pos := s.breg b (poff p (0x20 + 4 * k))
  if x.running && bit m k && (bit m (4 + k) || fld pos 31 16 = x.line) && fld pos 15 0 < x.cfg.hTotal then
    atInstant (fun s => dotAt s (s.port b p) (fld pos 15 0)) (fun s =>
      if portDot s (s.port b p) = fld pos 15 0 then beamEvent s b (16 * p + 6 + k) else s) s
  else s

def execPortMatch (b p k : Nat) (s : State) : Out State :=
  .next (if s.present b && p < 4 && k < 4 then portMatch s b p k else s)

/-- PORT_BEAM_FLAG_CHANGE (R55, R74, R76). -/
def portFlag (s : State) (b p : Nat) (f : BeamFlag) : State :=
  let x := s.port b p
  let c := x.cfg
  if !x.running then s
  else match f with
    | .activeStart =>
      if c.hAct = 0 then s
      else
        let act := activeLine s.beam x.line
        let s1 := s.setPort b p { x with hblank := false, de := act }
        if act && x.line = s.beam.vactStart then beamEvent s1 b (16 * p + 2) else s1
    | .activeEnd => s.setPort b p { x with hblank := true, de := false }
    | .hsStart => if c.hsEnd ≤ c.hsStart then s else beamEvent (s.setPort b p { x with hs := true }) b (16 * p + 4)
    | .hsEnd => s.setPort b p { x with hs := false }
    | .vsStart =>
      if c.vsEnd = c.vsStart || x.line ≠ c.vsStart then s
      else beamEvent (s.setPort b p { x with vs := true }) b (16 * p + 5)
    | .vsEnd => if x.line = c.vsEnd then s.setPort b p { x with vs := false } else s

/-- The port dot at which a beam flag changes (R55). -/
def flagDot (c : PortCfg) : BeamFlag → Nat
  | .activeStart => c.hActStart
  | .activeEnd => c.hActStart + c.hAct
  | .hsStart => c.hsStart
  | .hsEnd => c.hsEnd
  | .vsStart => c.hsStart
  | .vsEnd => c.hsStart

/-- The flag changes at its dot, to which the clock comes; a dot the line does not have is none. -/
def portFlagChange (s : State) (b p : Nat) (f : BeamFlag) : State :=
  let x := s.port b p
  if x.running && flagDot x.cfg f < x.cfg.hTotal then
    atInstant (fun s => dotAt s (s.port b p) (flagDot x.cfg f)) (fun s =>
      if portDot s (s.port b p) = flagDot x.cfg f then portFlag s b p f else s) s
  else s

def execPortBeamFlagChange (b p : Nat) (f : BeamFlag) (s : State) : Out State :=
  .next (if s.present b && p < 4 then portFlagChange s b p f else s)

/-- Level flag `f` of port `p`, or of the package beam for `p` = 4 (R74). -/
def beamLevel (s : State) (b p f : Nat) : Bool :=
  if p < 4 then
    let x := s.port b p
    match f with
    | 0 => x.de
    | 1 => if x.running then x.hblank else 0 < x.cfg.hActStart || x.cfg.hAct = 0
    | 2 => !activeLine s.beam x.line
    | 3 => x.hs
    | 4 => x.vs
    | 5 => x.synLock
    | 6 => x.running
    | _ => false
  else
    match f with
    | 0 => activeLine s.beam s.beam.line
    | 1 => s.genlock.locked
    | 2 => s.genlock.refPresent
    | 3 => s.genlock.st = .holdover
    | _ => false

/-! ### Stamps -/

/-- A beam stamp: dot, line, frame; `p` = 4 names the package beam (R61). -/
def stampOf (s : State) (b p : Nat) : Nat × Nat × Nat :=
  if p < 4 then
    let x := s.port b p
    (portDot s x, x.line, x.frame)
  else (s.beam.dot, s.beam.line, s.beam.frame)

/-- The DL, FLM and FH words of a stamp (R61). -/
def stampDl (t : Nat × Nat × Nat) : Word := wd ((t.1 % 2 ^ 16) + 2 ^ 16 * (t.2.1 % 2 ^ 16))
def stampFlm (t : Nat × Nat × Nat) : Word := wd t.2.2
def stampFh (t : Nat × Nat × Nat) : Word := wd (bits t.2.2 47 32)

/-- Offset of the latching DL view. -/
def stampAddr (b p : Nat) : Nat := baddr b (if p < 4 then 0x140 + 0x100 * p else 0x40)

/-- A read of DL latches the rest of the stamp for the accessor (R62). -/
def stampLatch (s : State) (who : Who) (b p : Nat) : State × Word :=
  let t := stampOf s b p
  let a := stampAddr b p
  (((s.latch who b a (stampDl t)).latch who b (a + 4) (stampFlm t)).latch who b (a + 8) (stampFh t), stampDl t)

/-- BEAM_STAMP_LATCH_READ (R62). -/
def execBeamStampLatchRead (who : Who) (b p : Nat) (s : State) : Out State :=
  .next (if s.present b && p ≤ 4 then (stampLatch s who b p).1 else s)

end Sys2Proof.Machine
end

