-- ==== Sys2Proof/Machine/Strike.lean ====
section
/-! DEFINITION. Strike lists, live registers and reflexes (file 03). -/

namespace Sys2Proof.Machine

/-- Offset of a strike register of port p. -/
def stoff (p o : Nat) : Nat := 0x8000 + 0x40 * p + o
def staddr (b p o : Nat) : Nat := baddr b (stoff p o)

/-- The word at a place of strike RAM (R89). -/
def strikeKey (b p : Nat) (copyB : Bool) (w : Nat) : Nat := pidx b p * 32768 + b2n copyB * 16384 + w % 16384

def strikeWord (s : State) (b p : Nat) (copyB : Bool) (w : Nat) : Word :=
  Tbl.get (fun _ => 0#32) s.strikeRam (strikeKey b p copyB w)

/-- Entry `i` of a copy (R86). -/
def strikeEntry (s : State) (b p : Nat) (copyB : Bool) (i : Nat) : Strike :=
  let w := fun j => strikeWord s b p copyB (4 * i + j)
  { line := fld (w 0) 31 16, dot := fld (w 0) 15 0, bc := bit (w 1) 31, off := fld (w 1) 19 0, val := w 2,
    tag := fld (w 3) 15 0 }

/-- The copy the cursor reads (file 03). -/
def activeCopy (s : State) (b p : Nat) : Bool := bit (s.reg (staddr b p 0)) 2

/-- Entries of a copy; larger counts are taken as 4,096. -/
def strikeCount (s : State) (b p : Nat) (copyB : Bool) : Nat :=
  let r := s.reg (staddr b p 4)
  min 4096 (if copyB then fld r 28 16 else fld r 12 0)

/-- May a strike or reflex write this target (R87)? -/
def targetOk (off : Nat) (bc : Bool) : Bool := off % 4 = 0 && inLatchedBlocks off && !(isLive off && bc)

/-- The port a live register belongs to (R83). -/
def livePort (off : Nat) : Nat := (off - 0x30800) / 0x40

/-- Record a skipped, discarded or deferred entry in STAT and ERR. -/
def strikeNote (s : State) (b p i : Nat) (k : Strike) : State :=
  (s.orReg (staddr b p 0x10) (2 ^ i)).setReg (staddr b p 0x20) (wd (k.line * 2 ^ 16 + k.tag))

/-- A skip or discard also counts in SKIP_CNT. -/
def strikeSkip (s : State) (b p i : Nat) (k : Strike) : State := (strikeNote s b p i k).addReg (staddr b p 0x18) 1

/-- Fetch, in list order, the entries for line `t` (R90): the state, and the strikes fetched. -/
def fetchFor (s : State) (b p t : Nat) : Nat → State × List Strike
  | 0 => (s, [])
  | fuel + 1 =>
    let c := s.cursor b p
    let cp := activeCopy s b p
    if strikeCount s b p cp ≤ c.idx then (s, [])
    else
      let k := strikeEntry s b p cp c.idx
      let next := s.setCursor b p { c with idx := c.idx + 1 }
      if t < k.line then (s, [])
      else if k.line < t then fetchFor (strikeSkip next b p 1 k) b p t fuel
      else if !targetOk k.off k.bc then fetchFor (strikeSkip next b p 3 k) b p t fuel
      else
        let r := fetchFor next b p t fuel
        (r.1, k :: r.2)

/-- The strikes of line `t` execute (R96): carried ones first, the first 64 of the line; the rest are deferred. They
count as executed here, where they are fetched (log entry 46). -/
def takeLine (s : State) (b p : Nat) (fl : Nat × Nat) (new : List Strike) : State :=
  let c := s.cursor b p
  let all := c.carried ++ new
  let run := all.take 64
  let rest := all.drop 64
  let s1 := rest.foldl (fun s k => (strikeNote s b p 0 k).addReg (staddr b p 0x14) 1) s
  let c1 := s1.cursor b p
  let lat := run.filter (fun k => !isLive k.off)
  let liv := (run.filter (fun k => isLive k.off)).map (fun k => (fl, k))
  s1.setCursor b p { c1 with carried := rest, exec := c1.exec + run.length, peak := max c1.peak run.length,
                             latched := if lat = [] then c1.latched else c1.latched ++ [(fl, lat)],
                             live := c1.live ++ liv }

/-- The cursor's step for one line, named by frame and number (R90). -/
def cursorFetch (s : State) (b p : Nat) (fl : Nat × Nat) : State :=
  let c := s.cursor b p
  if !c.en && c.carried = [] then s
  else
    let r := if c.en then fetchFor s b p fl.2 4097 else (s, [])
    takeLine r.1 b p fl r.2

/-- Entries the cursor leaves unfetched (R90). -/
def unreached (s : State) (b p : Nat) : State :=
  let c := s.cursor b p
  let cp := activeCopy s b p
  let n := strikeCount s b p cp
  if c.en && c.idx < n then
    (strikeNote s b p 2 (strikeEntry s b p cp (n - 1))).addReg (staddr b p 0x18) (n - c.idx)
  else s

/-- The cursor's frame boundary (R91): EN and a pending swap take effect, the list restarts, LOAD is reported (log
entry 46). -/
def cursorBoundary (s : State) (b p : Nat) : State :=
  let s1 := unreached s b p
  let r := s1.reg (staddr b p 0)
  let swapped := bit r 1
  let r' := if swapped then setBit (setBit r 1 false) 2 (!bit r 2) else r
  let c := s1.cursor b p
  let s2 := (s1.setReg (staddr b p 0) r').setReg (staddr b p 0x1C) (wd ((c.exec % 8192) * 2 ^ 16 + c.peak))
  s2.setCursor b p { c with en := bit r 0, idx := 0, exec := 0, peak := 0, passed := true }

/-- The latched strikes fetched for line `fl` issue as one commit group of context 17 + p (R97). -/
def groupIssue (s : State) (b p : Nat) (fl target : Nat × Nat) (late : Bool) : State :=
  let c := s.cursor b p
  let mine := (c.latched.filter (fun e => e.1 = fl)).flatMap (fun e => e.2)
  let s1 := s.setCursor b p { c with latched := c.latched.filter (fun e => e.1 ≠ fl) }
  if mine = [] then s1
  else
    issueCommit s1 b (17 + p)
      (mine.map (fun k => { all := k.bc, addr := if k.bc then k.off else baddr b k.off, val := k.val })) target fl.2 late

/-- Discard live strikes (R94, R95). -/
def discardLive (s : State) (b p : Nat) (drop : (Nat × Nat) × Strike → Bool) : State :=
  let c := s.cursor b p
  let gone := c.live.filter drop
  let s1 := s.setCursor b p { c with live := c.live.filter (fun e => !drop e) }
  gone.foldl (fun s e => strikeSkip s b p 4 e.2) s1

/-- Discard every fetched live strike not yet applied, the deferred ones too (R94). -/
def discardAllLive (s : State) (b p : Nat) : State :=
  let s1 := discardLive s b p (fun _ => true)
  let c := s1.cursor b p
  let s2 := s1.setCursor b p { c with carried := c.carried.filter (fun k => !isLive k.off) }
  (c.carried.filter (fun k => isLive k.off)).foldl (fun s k => strikeSkip s b p 4 k) s2

/-- A frame end the cursor did not foresee, the counters on the new frame's line 0 (R94): groups fetched for lines that
did not occur issue late, those fetched for the new frame are fetched again; the boundary is made here, live strikes
are discarded, the entries of lines 0 to 2 are fetched and their groups issued at once, those of lines 0 and 1 late. -/
def cursorUnforeseen (s : State) (b p : Nat) : State :=
  let f := s.beam.frame
  let c := s.cursor b p
  let old := c.latched.filter (fun e => e.1.1 ≠ f)
  let s0 := old.foldl (fun s e => groupIssue s b p e.1 (f, 1) true) (s.setCursor b p { c with latched := old })
  let s1 := cursorBoundary (discardAllLive s0 b p) b p
  let s2 := cursorFetch (cursorFetch (cursorFetch s1 b p (f, 0)) b p (f, 1)) b p (f, 2)
  let s3 := groupIssue s2 b p (f, 0) (f, 1) true
  let s4 := groupIssue s3 b p (f, 1) (f, 2) true
  groupIssue s4 b p (f, 2) (f, 2) false

/-- The strike cursor at a package line start (R90, R91, R94, R97), the counters already on the new line; `sudden` says
that the frame has just ended by a cut or a jam. -/
def cursorLine (s : State) (b p : Nat) (sudden : Bool) : State :=
  let n := s.beam.line
  let v := s.beam.vtotal
  let s1 := if n = 0 then
      (let s' := if (s.cursor b p).passed && !sudden then s else cursorUnforeseen s b p
       s'.setCursor b p { s'.cursor b p with passed := false })
    else s
  let s2 := if n + 3 = v then cursorBoundary s1 b p else s1
  let l2 := lineAfter s2 (lineAfter s2 (hereLine s2))
  cursorFetch (groupIssue s2 b p l2 l2 false) b p (lineAfter s2 l2)

/-- Fetched strikes are named by the new frame's number where the frame count does not simply go on (R68). -/
def renumberStrikes (f0 f1 : Nat) (s : State) : State :=
  let nm := fun (fl : Nat × Nat) => if fl.1 = (f0 + 1) % 2 ^ 48 then (f1, fl.2) else fl
  { s with cursors := s.cursors.map (fun kv => (kv.1, { kv.2 with
      latched := kv.2.latched.map (fun e => (nm e.1, e.2)), live := kv.2.live.map (fun e => (nm e.1, e.2)) })) }

/-- Live strikes of a billet's port that is not running are discarded once their line has started (R95). -/
def discardPast (s : State) (b q : Nat) : State :=
  if (s.port b q).running then s
  else (upto 4).foldl (fun s p => discardLive s b p (fun e => livePort e.2.off = q && linePrec e.1 (hereLine s))) s

/-- All cursors at a package line start. -/
def strikesLine (s : State) (sudden : Bool) : State :=
  s.eachBillet (fun s b => (upto 4).foldl (fun s p => discardPast (cursorLine s b p sudden) b p) s)

/-! ### Live registers -/

def State.liveQueue (s : State) (b : Nat) : List LiveWrite := Tbl.get (fun _ => []) s.liveQ b

def State.setLiveQueue (s : State) (b : Nat) (l : List LiveWrite) : State :=
  { s with liveQ := Tbl.set (fun _ => []) s.liveQ b l }

/-- The bits a live register holds (R81). -/
def liveMask (v : Variant) (off : Nat) : Nat :=
  match regRow v off with
  | some r => r.rw
  | none => 0

/-- An untagged live write starts on its way to its live edge (R82). -/
def pushLive (s : State) (b key off : Nat) (v : Word) (op : Option (Nat × BitOp) := none) : State :=
  s.setLiveQueue b (s.liveQueue b ++ [⟨key, off, v, op, none⟩])

/-- The live register's key of R84 for its writer: reflex slots, hammers by billet and number (log entry 45), host
software, other units. -/
def liveKey : Who → Nat
  | .hammer b h => 16 + hidx b h
  | .host => 200
  | .unit _ => 201

/-- The live register as the pixels see it. -/
def liveGet (s : State) (b off : Nat) : Word := Tbl.get (regReset s.variant) s.liveOut (baddr b off)

/-- What an untagged write leaves in its live register. -/
def LiveWrite.on (v : Variant) (w : LiveWrite) (old : Word) : Word :=
  mergeBits (liveMask v w.off) old (match w.bitOp with
    | some (i, op) => bitApply old i op
    | none => w.val)

/-- Place of a write in the order of R84: its live edge, then its writer's key. -/
def LiveWrite.rank (w : LiveWrite) : Nat := w.edge.getD 0 * 256 + w.key

/-- Put a write into a list ordered by R84, after those of equal rank. -/
def insertLive (l : List LiveWrite) (w : LiveWrite) : List LiveWrite :=
  (l.filter (fun x => x.rank ≤ w.rank)) ++ [w] ++ (l.filter (fun x => w.rank < x.rank))

/-- The register a read sees (R534): the value the pixels see, with the writes past their live edge after it. -/
def liveShow (s : State) (b off : Nat) : State :=
  let l := ((s.liveQueue b).filter (fun w => w.off = off && w.edge ≠ none)).foldl insertLive []
  s.setBreg b off (l.foldl (fun v w => w.on s.variant v) (liveGet s b off))

/-- Write a live register as the pixels see it. -/
def setLiveOut (s : State) (b off : Nat) (v : Word) : State :=
  { s with liveOut := Tbl.set (regReset s.variant) s.liveOut (baddr b off) v }

/-- The `i`-th waiting write reaches its live edge (R82, R84, R534). -/
def liveEdge (s : State) (b i : Nat) : State :=
  let q := s.liveQueue b
  match (q.filter (fun w => w.edge = none))[i]? with
  | none => s
  | some w => liveShow (s.setLiveQueue b (q.erase w ++ [{ w with edge := some s.now }])) b w.off

/-- LIVE_EDGE (R82). -/
def execLiveEdge (b i : Nat) (s : State) : Out State := .next (if s.present b then liveEdge s b i else s)

/-- Untagged writes whose edge lies 4 anvil clocks back or more at `at'` reach the pixels (R82), in the order of
R84. -/
def settleLive (s : State) (b at' : Nat) : State :=
  let q := s.liveQueue b
  let due := fun (w : LiveWrite) => match w.edge with
    | some e => decide (e + 8 ≤ at')
    | none => false
  ((q.filter due).foldl insertLive []).foldl (fun s w => setLiveOut s b w.off (w.on s.variant (liveGet s b w.off)))
    (s.setLiveQueue b (q.filter (fun w => !due w)))

/-- A tagged strike reaches its pixel (R83): the pixels see it, and so does a read (R534). -/
def applyTagged (s : State) (b : Nat) (k : Strike) : State :=
  liveShow (setLiveOut s b k.off (mergeBits (liveMask s.variant k.off) (liveGet s b k.off) k.val)) b k.off

/-- The tagged strikes of the billet's lists that take effect on port `q`'s pixel at dot `d` of line `fl` (R83, R84):
those whose position has come, lists by port, each in list order. -/
def applyStrikesAt (s : State) (b q : Nat) (fl : Nat × Nat) (d : Nat) : State :=
  (upto 4).foldl (fun s p =>
    let c := s.cursor b p
    let due := fun (e : (Nat × Nat) × Strike) => livePort e.2.off = q && (linePrec e.1 fl || (e.1 = fl && e.2.dot ≤ d))
    let s1 := s.setCursor b p { c with live := c.live.filter (fun e => !due e) }
    (c.live.filter due).foldl (fun s e => applyTagged s b e.2) s1) s

/-- Live strikes on a port that is not running are discarded (R95): those of line `fl`, or all when it stops. -/
def discardStopped (s : State) (b q : Nat) (fl : Option (Nat × Nat)) : State :=
  (upto 4).foldl (fun s p => discardLive s b p (fun e => livePort e.2.off = q && (fl = none || fl = some e.1))) s

/-! ### Access window -/

/-- STRIKE_SWAP_REQUEST (R91). -/
def execStrikeSwapRequest (b p : Nat) (s : State) : Out State :=
  .next (if s.present b && p < 4 then s.orReg (staddr b p 0) 2 else s)

/-- A write of ACC sets the pointer; its writer is the window's user (R93). -/
def strikeAccWrite (s : State) (who : Who) (b p : Nat) (v : Word) : State :=
  let c := s.cursor b p
  (s.setReg (staddr b p 8) (v &&& 0x13FFF#32)).setCursor b p { c with user := some who, clash := false }

/-- An access to DATA (R92): the word at ACC is read or written, then WORD advances. Where others than its user have
accessed the window, the word is undefined (R93): a free value. -/
def strikeData (s : State) (who : Who) (b p : Nat) (w : Option Word) : State × Word :=
  let a := s.reg (staddr b p 8)
  let k := strikeKey b p (bit a 16) (fld a 13 0)
  let c := s.cursor b p
  let clash := c.clash || (match c.user with
    | some u => decide (u ≠ who)
    | none => false)
  let s0 := s.setCursor b p { c with user := some (c.user.getD who), clash := clash }
  let s1 := s0.setRf (staddr b p 8) 13 0 (fld a 13 0 + 1)
  match w with
  | none =>
    if clash then (s1.nextFree, wd s.freeNat) else (s1, Tbl.get (fun _ => 0#32) s.strikeRam k)
  | some v =>
    let v' := if clash then wd s.freeNat else v
    let s2 := if clash then s1.nextFree else s1
    ({ s2 with strikeRam := Tbl.set (fun _ => 0#32) s2.strikeRam k v' }, v')

/-- STRIKE_DATA_ACCESS (R92). -/
def execStrikeDataAccess (who : Who) (b p : Nat) (w : Option Word) (s : State) : Out State :=
  .next (if s.present b && p < 4 then (strikeData s who b p w).1 else s)

/-! ### Reflexes -/

def rfxAddr (b k o : Nat) : Nat := baddr b (0x8400 + 0x10 * k + o)

/-- REFLEX_ARM (R99): ARM of a slot is set. -/
def execReflexArm (b k : Nat) (s : State) : Out State :=
  .next (if s.present b && k < 16 then s.setReg (rfxAddr b k 0) (setBit (s.reg (rfxAddr b k 0)) 29 true) else s)

/-- A latched or immediate write of reflex slot k, and its pending commit (R99, R100). -/
def reflexIssue (s1 : State) (b k off : Nat) (all : Bool) (v : Word) : State :=
  let s0 := if all then s1.eachBillet (fun s b => immediateBits s (baddr b off) v) else immediateBits s1 (baddr b off) v
  let s2 := if latchedMask s1.variant off = 0 then s0
    else issueFrom s0 b 21 [{ all := all, addr := if all then off else baddr b off, val := v }]
  if s2.commits.live.any (fun d => d.id = s1.commits.next && !d.accepted) then
    { s2 with reflexWait := Tbl.set (fun _ => none) s2.reflexWait (16 * b + k) (some s1.commits.next) }
  else s2

/-- Reflex slot k fires (R99-R101). -/
def reflexFire (s : State) (b k : Nat) : State :=
  let c := s.reg (rfxAddr b k 0)
  if !bit c 31 || (bit c 30 && !bit c 29) then s
  else
    let s1 := (s.setReg (rfxAddr b k 0) (if bit c 30 then setBit c 29 false else c)).addReg (rfxAddr b k 8) 1
    let off := fld c 19 0
    let v := s.reg (rfxAddr b k 4)
    if !targetOk off (bit c 28) then s1.orReg (baddr b 0x8500) (2 ^ k)
    else if isLive off then pushLive s1 b k off v
    else
      match Tbl.get (fun _ => none) s1.reflexWait (16 * b + k) with
      | some _ => s1.orReg (baddr b 0x8500) (2 ^ (16 + k))
      | none => reflexIssue s1 b k off (bit c 28) v

end Sys2Proof.Machine
end

