-- ==== Sys2Proof/Machine/HammerCore.lean ====
section
/-! DEFINITION. Hammers apart from their instructions: run states, traps, the return stack, waits, the core
registers and their access rules (file 08), acceptance, claim and completion (file 10). -/

namespace Sys2Proof.Machine

def haddr (b h o : Nat) : Nat := baddr b (hoff h o)

/-- Does hammer `b.Hh` exist, with its clock (R274: in EMBER no hammer's clock runs)? -/
def State.hasHammer (s : State) (b h : Nat) : Bool := s.present b && h < 16 && !s.ember.on

/-- A general register (R206). -/
def Hammer.reg (x : Hammer) (g : Nat) : HWord := Tbl.get (fun _ => 0#16) x.g (g % 16)

/-- Write a general register. -/
def Hammer.setReg (x : Hammer) (g : Nat) (v : HWord) : Hammer := { x with g := Tbl.set (fun _ => 0#16) x.g (g % 16) v }

/-- Set a sticky bit of HMR_Hh_STAT. -/
def setStat (s : State) (b h i : Nat) : State := s.orReg (haddr b h 4) (2 ^ i)

/-- DLMISS ends an access or a wait (R205, R222, R253). -/
def raiseDlMiss (s : State) (b h : Nat) : State := raisePrivate (setStat s b h 13) b h 26

/-- VBASE and ENTRY (file 08): bits [21:16] of VBASE are taken as 0. -/
def vbase (s : State) (b h : Nat) : Nat := fld (s.reg (haddr b h 8)) 29 22 * 64
def entryPc (s : State) (b h : Nat) : Nat := fld (s.reg (haddr b h 8)) 13 0

/-- CFG.STKTRAP and CFG.BETRAP. -/
def stkTrap (s : State) (b h : Nat) : Bool := bit (s.reg (haddr b h 0x14)) 4
def beTrap (s : State) (b h : Nat) : Bool := bit (s.reg (haddr b h 0x14)) 5

/-- The word a push stores (R215): SM, IE, PC. -/
def stackWord (sm ie : Bool) (pc : Nat) : HWord := BitVec.ofNat 16 (b2n sm * 2 ^ 15 + b2n ie * 2 ^ 14 + pc % 2 ^ 14)

/-- Push on the return stack (R215, R216): the oldest entry is overwritten when full. -/
def Hammer.push (x : Hammer) (v : HWord) : Hammer :=
  { x with stack := Tbl.set (fun _ => 0#16) x.stack x.sp v, sp := (x.sp + 1) % 8, depth := min 8 (x.depth + 1) }

/-- Pop the return stack (R215, R216): the entry under the wrapped pointer. -/
def Hammer.pop (x : Hammer) : Hammer × HWord :=
  let sp := (x.sp + 7) % 8
  ({ x with sp := sp, depth := x.depth - 1 }, Tbl.get (fun _ => 0#16) x.stack sp)

/-- Trap entry (R217), the one shared operation: PC, IE and SM are saved in HMR_TRAP with the cause and the stack
pointer, TRAPACT is set, IE cleared, and the PC goes to VBASE + 4 × cause. A trap while TRAPACT = 1 is a double trap:
the hammer halts and DBLTRAP is set; its PC stays where a trap would have saved it (DEDUCED, log entry 25). -/
def trapEnter (s : State) (b h cause pc : Nat) : State :=
  let x := s.hammer b h
  if x.trapAct then
    localFault (setStat (s.setHammer b h { x with run := .halted, wait := none, rptLeft := 0, trapDue := none,
                                                  haltAsk := false, pc := pc % 2 ^ 14 }) b h 8) 0
  else
    let w := wd (x.sp * 2 ^ 20 + cause * 2 ^ 16 + (stackWord x.sm x.ie pc).toNat)
    (s.setHammer b h { x with trapAct := true, ie := false, pc := (vbase s b h + 4 * cause) % 2 ^ 14, run := .running,
                              wait := none, rptLeft := 0, trapDue := none }).setReg (haddr b h 0x2C) w

/-- The slot of a hammer ends with the completion of its source (R256, R263, R266). -/
def freeSlot (s : State) (b h l : Nat) : State :=
  let sl := s.slot b h l
  let s1 := s.setSlot b h l .init
  if !sl.valid || sl.id < 32 then s1
  else
    let x := s1.src sl.billet sl.id
    if sl.billet = b then s1.setSrc b sl.id { x with inSvc := false, fresh := false }
    else s1.setSrc sl.billet sl.id { x with doneBack := true }

/-- A hammer's core state at CTRL.RESET or package reset (R195): the field ENTRY and the memories keep their contents (log
entry 9), every sticky bit clears, bit 626 among them, and no source is left in service. -/
def resetHammer (s : State) (b h : Nat) : State :=
  let pc := entryPc s b h
  let s1 := { s with regs := s.regs.filter (fun kv => !(haddr b h 0 ≤ kv.1 && kv.1 < haddr b h 0x80)) }
  let s2 := (s1.setReg (haddr b h 8) (wd pc)).setHammer b h { Hammer.init (hidx b h) with pc := pc }
  let s3 := ((s2.setSticky b h 0).setPpend b h 0).clrReg (ctxAddr b h) 4
  (upto 4).foldl (fun s l => freeSlot s b h l) s3

/-- RUN written 1 (R194): from HALTED only, starts at ENTRY. -/
def hammerRun (s : State) (b h : Nat) : State :=
  let x := s.hammer b h
  if x.run = .halted then
    s.setHammer b h { x with run := .running, pc := entryPc s b h, trapAct := false, rptLeft := 0 }
  else s

/-- RUN written 0 (R194, R244): halts at the next boundary. Within a RPT that is the end of its count; any other moment
between commands is one. -/
def hammerStop (s : State) (b h : Nat) : State :=
  let x := s.hammer b h
  if x.run = .halted || x.run = .off then s
  else if x.rptLeft ≠ 0 then s.setHammer b h { x with haltAsk := true }
  else s.setHammer b h { x with run := .halted, wait := none, haltAsk := false }

/-- CTRL.SVC (R218, R219): host software may set it on a halted keeper; 0 clears SM from any source. -/
def serviceWrite (s : State) (who : Who) (b h : Nat) (on : Bool) : State :=
  let x := s.hammer b h
  if h ≠ 0 then s
  else if on then
    (if x.run = .halted && who = .host then s.setHammer b h { x with sm := true } else s)
  else s.setHammer b h { x with sm := false }

/-- May this accessor write the core register at offset `o` of hammer `b.Hh` (R219)? A keeper in service mode may
write PM, CTRL, ENTRY and DBG registers of its billet's hammers. -/
def mayWriteCore (s : State) (who : Who) (b h o : Nat) : Bool :=
  match who with
  | .hammer b' h' =>
    (b' = b && h' = h) ||
      (b' = b && h' = 0 && (s.hammer b 0).sm && (o = 0 || o = 8 || o = 0x30 || o = 0x34 || o = 0x40 || o = 0x44))
  | _ => true

/-- PRIVERR in the writing hammer (R214, R219). -/
def privErr (s : State) (who : Who) : State :=
  match who with
  | .hammer b h => setStat s b h 10
  | _ => s

/-- Do `f` if the accessor may write the register, else record PRIVERR. -/
def guarded (s : State) (who : Who) (b h o : Nat) (f : State → State) : State :=
  if mayWriteCore s who b h o then f s else privErr s who

def execHammerRun (who : Who) (b h : Nat) (s : State) : Out State :=
  .next (if s.hasHammer b h then guarded s who b h 0 (fun s => hammerRun s b h) else s)

def execHammerStop (who : Who) (b h : Nat) (s : State) : Out State :=
  .next (if s.hasHammer b h then guarded s who b h 0 (fun s => hammerStop s b h) else s)

def execHammerReset (who : Who) (b h : Nat) (s : State) : Out State :=
  .next (if s.hasHammer b h then guarded s who b h 0 (fun s => resetHammer s b h) else s)

def execServiceModeWrite (who : Who) (b h : Nat) (on : Bool) (s : State) : Out State :=
  .next (if s.hasHammer b h then guarded s who b h 0 (fun s => serviceWrite s who b h on) else s)

/-- Program memory (R196). -/
def progWord (s : State) (b h pc : Nat) : BitVec 14 :=
  Tbl.get (fun _ => 0#14) s.progMem (hidx b h * 16384 + pc % 16384)

def setProgWord (s : State) (b h pc : Nat) (v : BitVec 14) : State :=
  { s with progMem := Tbl.set (fun _ => 0#14) s.progMem (hidx b h * 16384 + pc % 16384) v }

/-- The X and Y banks (R198). -/
def bankWord (s : State) (b h a : Nat) : HWord := Tbl.get (fun _ => 0#16) s.banks (hidx b h * 8192 + a % 8192)

def setBankWord (s : State) (b h a : Nat) (v : HWord) : State :=
  { s with banks := Tbl.set (fun _ => 0#16) s.banks (hidx b h * 8192 + a % 8192) v }

/-- A PMDATA access (R197): program memory is read or written while HALTED; a write in any other state is discarded
with PMERR. Each access advances PMADDR. A hammer writes another's program memory only as a keeper in service mode
of the same billet (R219), and its own not at all: a write that it made while it ran is discarded however late it
arrives. -/
def pmAccess (s : State) (who : Who) (b h : Nat) (w : Option Word) : State × Word :=
  let a := fld (s.reg (haddr b h 0x30)) 13 0
  let adv := fun (s : State) => s.setRf (haddr b h 0x30) 13 0 (a + 1)
  match w with
  | none => (adv s, wd (progWord s b h a).toNat)
  | some v =>
    if !mayWriteCore s who b h 0x34 then (privErr s who, v)
    else if (s.hammer b h).run ≠ .halted || who = .hammer b h then (setStat (adv s) b h 12, v)
    else (setProgWord (adv s) b h a (BitVec.ofNat 14 v.toNat), v)

def execPmdataAccess (who : Who) (b h : Nat) (w : Option Word) (s : State) : Out State :=
  .next (if s.hasHammer b h then (pmAccess s who b h w).1 else s)

/-- A DMDATA access (R199): a bank word is read or written and DMADDR advances. -/
def dmAccess (s : State) (who : Who) (b h : Nat) (w : Option Word) : State × Word :=
  let a := fld (s.reg (haddr b h 0x38)) 12 0
  let adv := fun (s : State) => s.setRf (haddr b h 0x38) 12 0 (a + 1)
  match w with
  | none => (adv s, wd (bankWord s b h a).toNat)
  | some v =>
    if mayWriteCore s who b h 0x3C then (setBankWord (adv s) b h a (BitVec.ofNat 16 v.toNat), v) else (privErr s who, v)

def execDmdataAccess (who : Who) (b h : Nat) (w : Option Word) (s : State) : Out State :=
  .next (if s.hasHammer b h then (dmAccess s who b h w).1 else s)

/-- The item DBGSEL names (file 08). -/
def dbgItem (x : Hammer) (sel : Nat) : Nat :=
  if sel < 16 then (x.reg sel).toNat
  else if sel = 16 then bits x.a0.toNat 15 0
  else if sel = 17 then bits x.a0.toNat 31 16
  else if sel = 18 then bits x.a0.toNat 39 32
  else if sel = 19 then bits x.a1.toNat 15 0
  else if sel = 20 then bits x.a1.toNat 31 16
  else if sel = 21 then bits x.a1.toNat 39 32
  else if sel = 22 then x.pc
  else if sel < 31 then (Tbl.get (fun _ => 0#16) x.stack ((x.sp + 8 - x.depth + (sel - 23)) % 8)).toNat
  else x.sp

/-- Replace 16 bits of an accumulator part. -/
def setPart (a : BitVec 40) (part v : Nat) : BitVec 40 :=
  let n := a.toNat
  match part with
  | 0 => BitVec.ofNat 40 (n - n % 2 ^ 16 + v % 2 ^ 16)
  | 1 => BitVec.ofNat 40 (n / 2 ^ 32 * 2 ^ 32 + v % 2 ^ 16 * 2 ^ 16 + n % 2 ^ 16)
  | _ => BitVec.ofNat 40 (v % 2 ^ 8 * 2 ^ 32 + n % 2 ^ 32)

/-- Write the item DBGSEL names. -/
def setDbgItem (x : Hammer) (sel v : Nat) : Hammer :=
  if sel < 16 then x.setReg sel (BitVec.ofNat 16 v)
  else if sel < 19 then { x with a0 := setPart x.a0 (sel - 16) v }
  else if sel < 22 then { x with a1 := setPart x.a1 (sel - 19) v }
  else if sel = 22 then { x with pc := v % 2 ^ 14 }
  else if sel < 31 then
    { x with stack := Tbl.set (fun _ => 0#16) x.stack ((x.sp + 8 - x.depth + (sel - 23)) % 8) (BitVec.ofNat 16 v) }
  else { x with sp := v % 8 }

/-- A DBGDATA access (R194, file 08): reads 0 and ignores writes unless HALTED. -/
def dbgAccess (s : State) (who : Who) (b h : Nat) (w : Option Word) : State × Word :=
  let x := s.hammer b h
  let sel := fld (s.reg (haddr b h 0x40)) 4 0
  match w with
  | none => (s, if x.run = .halted then wd (dbgItem x sel) else 0#32)
  | some v =>
    if !mayWriteCore s who b h 0x44 then (privErr s who, v)
    else if x.run = .halted then (s.setHammer b h (setDbgItem x sel (fld v 15 0)), v)
    else (s, v)

def execDbgdataAccess (who : Who) (b h : Nat) (w : Option Word) (s : State) : Out State :=
  .next (if s.hasHammer b h then (dbgAccess s who b h w).1 else s)

/-- PIO_OWNj (R214): host software, or the keeper of the pin's billet in service mode. -/
def ownWrite (s : State) (who : Who) (b j : Nat) (v : Word) : State :=
  let ok := match who with
    | .hammer b' h' => b' = b && h' = 0 && (s.hammer b 0).sm
    | _ => true
  if ok then s.setBreg b (0xA0F00 + 4 * j) (v &&& 0x8F8F8F8F#32) else privErr s who

def execPioOwnWrite (who : Who) (b j : Nat) (v : Word) (s : State) : Out State :=
  .next (if s.present b && j < 12 then ownWrite s who b j v else s)

/-- The owner of a pin (R213). -/
def pinOwner (s : State) (b n : Nat) : Option Nat :=
  let w := s.breg b (0xA0F00 + 4 * (n / 4))
  if bit w (8 * (n % 4) + 7) then some (fld w (8 * (n % 4) + 3) (8 * (n % 4))) else none

/-! ### Waits -/

/-- A wait ends (R221, R222): the hammer runs on after the wait instruction. -/
def endWait (s : State) (b h : Nat) (miss noRun : Bool) : State :=
  let x := s.hammer b h
  match x.wait with
  | none => s
  | some w =>
    let s1 := s.setHammer b h { x with run := .running, wait := none, dlMiss := miss, noRun := noRun,
                                       pc := (x.pc + w.words) % 2 ^ 14 }
    if miss then raiseDlMiss s1 b h else s1

/-- WAIT_PORT_STOP (R222): every WAITL on a port that has stopped ends with NORUN and DLMISS. -/
def waitersStop (s : State) (b p : Nat) : State :=
  (upto 16).foldl (fun s h =>
    let x := s.hammer b h
    match x.run, x.wait with
    | .waiting, some ⟨.line _, _, _⟩ => if portSel s b h = p then endWait s b h true true else s
    | _, _ => s) s

/-- A wait ends at its deadline (R222). A WAITB shows NORUN when its own port is not running. -/
def waitMiss (s : State) (b h : Nat) : State :=
  let nr := match (s.hammer b h).wait with
    | some ⟨.bit _ _, _, _⟩ => !(s.port b (portSel s b h)).running
    | _ => false
  endWait s b h true nr

/-- Has a deadline passed? -/
def deadPassed (s : State) (d : Deadline) : Bool :=
  linePrec (d.frame, d.line) (hereLine s) || ((d.frame, d.line) = hereLine s && d.dot ≤ s.beam.dot)

/-- WAIT_DEADLINE (R222): a wait's deadline passes. -/
def execWaitDeadline (b h : Nat) (s : State) : Out State :=
  .next (
    let x := s.hammer b h
    if s.hasHammer b h && x.run = .waiting && (match x.wait with
      | some w => deadPassed s w.dead
      | none => false) then waitMiss s b h
    else s)

/-- The dot at which the lines of port `b.p` start (R53): DOT_OFS modulo HTOTAL, the one in force where the port runs. -/
def lineStartDot (s : State) (b p : Nat) : Nat :=
  (if (s.port b p).running then (s.port b p).cfg else cfgOf s b p).dotOfs % max 1 s.beam.htotal

/-- The deadline of an access or wait issued now (R222). -/
def deadlineOf (s : State) (b h : Nat) : Deadline :=
  let l := fld (s.reg (haddr b h 0x18)) 15 0
  let ofs := lineStartDot s b (portSel s b h)
  let started := ofs ≤ s.beam.dot
  let cur := if started then s.beam.line else if s.beam.line = 0 then s.beam.vtotal - 1 else s.beam.line - 1
  let next := (s.beam.frame + 1) % 2 ^ 48
  if l = 0xFFFF then ⟨if started || s.beam.line ≠ 0 then next else s.beam.frame, cur, ofs⟩
  else if s.beam.line < l || (s.beam.line = l && !started) then ⟨s.beam.frame, l, ofs⟩
  else ⟨next, l, ofs⟩

/-! ### Acceptance, claim and completion -/

/-- Priority of a private source (R259). -/
def privPri (s : State) (b h id : Nat) : Nat :=
  if id < 16 then fld (s.reg (haddr b h 0x60)) (2 * id + 1) (2 * id)
  else fld (s.reg (haddr b h 0x64)) (2 * (id - 16) + 1) (2 * (id - 16))

/-- A candidate: priority, ID, source billet. -/
abbrev Cand := Nat × Nat × Nat

/-- Is the source in service at the hammer (R266)? -/
def inService (s : State) (b h id c : Nat) : Bool :=
  (upto 4).any (fun l => let x := s.slot b h l
    x.valid && x.id = id && x.billet = c)

/-- Pending, enabled sources targeted at the hammer (R259), private ones first. Only listed IC_SRC registers can be
enabled. A source in service is claimed again only after its completion (R257, R266, R268). -/
def candidates (s : State) (b h : Nat) : List Cand :=
  let pe := (s.reg (haddr b h 0x70)).toNat
  let pp := s.ppendOf b h
  let priv := ((upto 32).filter (fun i => i ≠ 0 && pp.testBit i && pe.testBit i && !inService s b h i b)).map (fun i => (privPri s b h i, i, b))
  let shared := s.regs.filterMap (fun kv =>
    let c := kv.1 / windowSize
    let off := kv.1 % windowSize
    if kv.1 < 0x800000 && 0x50080 ≤ off && off < 0x51000 && s.present c then
      let id := (off - 0x50000) / 4
      if bit kv.2 31 && srcTBillet s c id = b && srcTHammer s c id = h && pendingAtTarget s c id
          && !(s.src c id).inSvc && !inService s b h id c
      then some (srcPri s c id, id, c) else none
    else none)
  priv ++ shared

/-- Does candidate `x` win over `y` (R260)? Highest priority, then lowest ID, then lowest billet. -/
def Cand.beats (x y : Cand) : Bool :=
  y.1 < x.1 || (x.1 = y.1 && (x.2.1 < y.2.1 || (x.2.1 = y.2.1 && x.2.2 ≤ y.2.2)))

/-- The running priority (R259): one above the highest in-service slot, 0 for none. -/
def runPri (s : State) (b h : Nat) : Nat :=
  (upto 4).foldl (fun r l => if (s.slot b h l).valid then l + 1 else r) 0

/-- The winner among the eligible sources (R259, R260). -/
def winner (s : State) (b h : Nat) : Option Cand :=
  ((candidates s b h).filter (fun c => runPri s b h ≤ c.1)).foldl (fun best c =>
    match best with
    | none => some c
    | some d => if Cand.beats c d then some c else some d) none

/-- INTERRUPT_ACCEPT (R260, R261, R216, R223): at a boundary, with IE = 1 and an eligible source, the hammer pushes
PC, IE and SM, clears IE and vectors; a full stack with STKTRAP = 1 traps instead. Within a RPT, or a single step that
has not ended, there is no boundary (R226). -/
def interruptAccept (s : State) (b h : Nat) : State :=
  let x := s.hammer b h
  if !x.ie || x.run = .halted || x.run = .off || x.rptLeft ≠ 0 || x.haltAsk then s
  else match winner s b h with
    | none => s
    | some c =>
      if stkTrap s b h && x.depth = 8 then trapEnter s b h 3 x.pc
      else
        let y := x.push (stackWord x.sm x.ie x.pc)
        s.setHammer b h { y with ie := false, run := .running, wait := none,
                                 pc := (vbase s b h + 0x40 + 8 * c.1) % 2 ^ 14 }

def execInterruptAccept (b h : Nat) (s : State) : Out State :=
  .next (if s.hasHammer b h then interruptAccept s b h else s)

/-- The word CLAIM shows (file 10). -/
def claimWord (c : Option Cand) : Word :=
  match c with
  | none => 0#32
  | some c => wd (c.1 * 2 ^ 16 + c.2.1)

/-- A claim (R264): the winner goes into the slot of its priority and its pending state is cleared; with none,
SPURCNT counts. -/
def claimSource (s : State) (b h : Nat) : State × Word :=
  match winner s b h with
  | none => (s.addRf (haddr b h 0x68) 31 16 1, 0#32)
  | some c =>
    let s1 := s.setSlot b h c.1 ⟨true, false, c.2.2, c.2.1⟩
    let id := c.2.1
    let s2 :=
      if id < 32 then s1.setPpend b h (natClr (s1.ppendOf b h) id)
      else
        let x := s1.src c.2.2 id
        if c.2.2 = b then
          s1.setSrc b id { x with inSvc := true, pend := if isEdge (srcSense s1 b id) then false else x.pend }
        else s1.setSrc c.2.2 id { x with atTarget := false, claimBack := true }
    (s2, claimWord (some c))

/-- CLAIM (R264). -/
def execClaim (b h : Nat) (s : State) : Out State := .next (if s.hasHammer b h then (claimSource s b h).1 else s)

/-- Completion (R266, R256): the slot that holds the ID is cleared, the highest if several do. -/
def completeId (s : State) (b h id : Nat) : State :=
  if id = 0 then s
  else match (upto 4).reverse.find? (fun l => (s.slot b h l).valid && (s.slot b h l).id = id) with
    | none => s.orReg (haddr b h 0x68) 0x10
    | some l => freeSlot s b h l

/-- COMPLETE (R266). -/
def execComplete (b h id : Nat) (s : State) : Out State := .next (if s.hasHammer b h then completeId s b h (id % 1024) else s)

/-- A write of IC_SRCi (R255, R256, R258, R268). -/
def icSrcWrite (s : State) (b i : Nat) (v : Word) : State :=
  let a := baddr b (0x50000 + 4 * i)
  let old := s.reg a
  let s1 := s.setReg a (v &&& 0xFC00070F#32)
  let x := s.src b i
  let x1 := if bit v 25 then { x with pend := false } else x
  let x2 := if fld old 30 28 ≠ fld v 30 28 then { x1 with pend := false, level := srcInput s1 b i, fresh := false } else x1
  let moved := fld old 10 8 ≠ fld v 10 8 || fld old 3 0 ≠ fld v 3 0
  s1.setSrc b i (if moved then { x2 with atTarget := false } else x2)

def execIcSrcWrite (b i : Nat) (v : Word) (s : State) : Out State :=
  .next (if s.present b && 32 ≤ i && i < 1024 then icSrcWrite s b i v else s)

/-- PRIVATE_SOFTWARE_SET (R253): bit k raises private ID 28 + k. -/
def privSet (s : State) (b h : Nat) (v : Word) : State :=
  (upto 4).foldl (fun s k => if bit v k then raisePrivate s b h (28 + k) else s) s

def execPrivateSoftwareSet (b h : Nat) (v : Word) (s : State) : Out State :=
  .next (if s.hasHammer b h then privSet s b h v else s)

/-- SOFTWARE_SOURCE_SET and _CLEAR (R254): the software input words. -/
def execSoftwareSourceSet (b j : Nat) (v : Word) (s : State) : Out State :=
  .next (if s.present b && j < 16 then s.setBreg b (0x51100 + 4 * j) (s.breg b (0x51100 + 4 * j) ||| v) else s)

def execSoftwareSourceClear (b j : Nat) (v : Word) (s : State) : Out State :=
  .next (if s.present b && j < 16 then s.setBreg b (0x51100 + 4 * j) (s.breg b (0x51100 + 4 * j) &&& ~~~v) else s)

/-! ### Core registers as a read shows them -/

/-- HMR_Hh_CTRL. -/
def ctrlWord (s : State) (b h : Nat) : Word :=
  let x := s.hammer b h
  wd (b2n (x.sm && h = 0) * 8 + b2n (x.run ≠ .halted))

/-- HMR_Hh_STAT: the sticky bits as stored, the rest from the core state. -/
def statWord (s : State) (b h : Nat) : Word :=
  let x := s.hammer b h
  (s.reg (haddr b h 4) &&& 0x3F00#32) |||
    wd (b2n x.sm * 2 ^ 15 + b2n x.ie * 2 ^ 14 + b2n x.trapAct * 2 ^ 7 + b2n (x.run = .sleeping) * 2 ^ 6 +
        b2n (x.run = .waiting) * 2 ^ 5 + b2n (x.run = .halted) * 2 ^ 4 + x.depth)

/-- One half of an INSVC word. -/
def slotHalf (x : Slot) : Nat := if x.valid then 2 ^ 15 + b2n x.withdrawn * 2 ^ 14 + x.id else 0

/-- HMR_Hh_INSVC01 (`l` = 0) and INSVC23 (`l` = 2). -/
def insvcWord (s : State) (b h l : Nat) : Word := wd (slotHalf (s.slot b h (l + 1)) * 2 ^ 16 + slotHalf (s.slot b h l))

/-- HMR_Hh_ISTAT. -/
def istatWord (s : State) (b h : Nat) : Word :=
  let r := runPri s b h
  (s.reg (haddr b h 0x68) &&& 0xFFFFFF10#32) ||| (if r = 0 then 4#32 else wd (r - 1))

/-- IC_SRCi as a read shows it: PEND, INSVC, LEVEL and TBAD from the source's state. -/
def icSrcView (s : State) (b i : Nat) : Word :=
  let x := s.src b i
  (icSrc s b i &&& 0xFC00070F#32) |||
    wd (b2n (srcPending s b i) * 2 ^ 25 + b2n x.inSvc * 2 ^ 24 + b2n (srcInput s b i) * 2 ^ 23 +
        b2n (!s.present (srcTBillet s b i)) * 2 ^ 22)

end Sys2Proof.Machine
end

