-- ==== Sys2Proof/Machine/Pins.lean ====
section
/-! DEFINITION. PIO pins, banks and pattern matchers (R430-R442), and the legacy pixel port's enable (R188, R189). -/

namespace Sys2Proof.Machine

/-! ### Legacy pixel port -/

def State.legacyOf (s : State) (b : Nat) : Legacy := Tbl.get (fun _ => Legacy.init) s.legacy b

def State.setLegacy (s : State) (b : Nat) (x : Legacy) : State :=
  { s with legacy := Tbl.set (fun _ => Legacy.init) s.legacy b x }

/-- The port's pixel clock is within the legacy port's limit (R189, R54). -/
def lppWithin (s : State) (b p : Nat) : Bool :=
  let low := fun k => s.bf b (0xA0100 + 4 * k) 1 0 ≠ 3
  let lim := if low 0 && low 1 then 200 else 50
  300 * (s.port b p).cfg.hTotal ≤ lim * s.beam.htotal

/-- Drive or idle the legacy pins; idling sets LPERR (R189). -/
def lppSet (s : State) (b : Nat) (x : Legacy) (ok : Bool) : State :=
  let s1 := s.setLegacy b { x with run := x.en && ok, rgb := if x.en && ok then x.rgb else 0 }
  if x.en && !ok then s1.orReg (baddr b 0x30030) 0x100 else s1

/-- A frame start of port p: EN and PORT that name it take effect, and the limit is checked (R189). -/
def lppFrameStart (s : State) (b p : Nat) : State :=
  if 2 ≤ b then s
  else
    let c := s.breg b 0x30030
    let x0 := s.legacyOf b
    let x := if fld c 2 1 = p then { x0 with en := bit c 0, port := p } else x0
    if x.port = p then lppSet s b x ((s.port b p).running && lppWithin s b p) else s

/-- Port p stops: the legacy port it feeds idles (R189). -/
def lppPortStop (s : State) (b p : Nat) : State :=
  let x := s.legacyOf b
  if b < 2 && x.en && x.port = p then lppSet s b x false else s

/-- A new VSEL of bank 0 or 1: exceeding the limit idles the pins at once (R189). -/
def lppVsel (s : State) (b : Nat) : State :=
  let x := s.legacyOf b
  if b < 2 && x.en && !lppWithin s b x.port then lppSet s b x false else s

/-! ### Pins -/

def pinCfg (s : State) (b n : Nat) : Word := s.breg b (0xA0000 + 4 * n)

/-- LEGACY is accepted only on pins 0-27 of billets 0 and 1 (R432). -/
def legacyPin (b n : Nat) : Bool := b < 2 && n < 28

/-- The function a CFG word puts in effect (R432): GPIN for codes taken as 000 and for a refused LEGACY. -/
def funcOf (b n : Nat) (w : Word) : Nat :=
  let f := fld w 2 0
  if f < 4 then f else if f = 4 && legacyPin b n then 4 else 0

def bankAddr (b k : Nat) : Nat := baddr b (0xA0100 + 4 * k)

def State.bank (s : State) (b k : Nat) : Bank := Tbl.get (fun _ => Bank.init) s.pioBanks (4 * b + k)

def State.setBank (s : State) (b k : Nat) (x : Bank) : State :=
  { s with pioBanks := Tbl.set (fun _ => Bank.init) s.pioBanks (4 * b + k) x }

/-- The supply lies in the class VSEL names (R430). -/
def supplyIn (sup : BankSupply) (vsel : Nat) : Bool :=
  match sup with
  | .off => false
  | .v18 => vsel = 0
  | .v25 => vsel = 1
  | .v33 => vsel = 2
  | .v50 => vsel = 3

/-- VIOOK (R431). -/
def vioOk (s : State) (b k : Nat) : Bool := (s.bank b k).ok

/-! ### Pattern matchers -/

def State.matcher (s : State) (b k : Nat) : Matcher := Tbl.get (fun _ => Matcher.init) s.matchers (16 * b + k)

def State.setMatcher (s : State) (b k : Nat) (x : Matcher) : State :=
  { s with matchers := Tbl.set (fun _ => Matcher.init) s.matchers (16 * b + k) x }

def pmAddr (b k o : Nat) : Nat := baddr b (0xA0200 + 0x20 * k + o)

/-- The masked window w (R439). -/
def pmWindow (s : State) (b k : Nat) : Word :=
  let base := min 16 (fld (s.reg (pmAddr b k 0)) 21 16)
  let w := (upto 32).foldl (fun acc i => if (s.pin b (base + i)).filt then acc + 2 ^ i else acc) 0
  wd w &&& s.reg (pmAddr b k 4)

/-- V0 to V3 under the mask. -/
def pmValue (s : State) (b k i : Nat) : Word := s.reg (pmAddr b k (8 + 4 * i)) &&& s.reg (pmAddr b k 4)

/-- A firing of matcher k (R442). -/
def pmFire (s : State) (b k : Nat) : State :=
  let s1 := ((stickyAll s b (352 + k)).orReg (pmAddr b k 0x1C) 1).addReg (pmAddr b k 0x18) 1
  tallySource (reflexFire (pulseIrq s1 b (48 + k)) b k) b (128 + k)

/-- The SEQ state after a change of w, and whether it fires (R441). -/
def seqStep (st : Nat) (strict : Bool) (hit first : Bool) : Nat × Bool :=
  if hit then (if st = 3 then (0, true) else (st + 1, false))
  else if strict && 0 < st then (if first then (1, false) else (0, false))
  else (st, false)

/-- Matcher k evaluates (R440, R441). -/
def pmEval (s : State) (b k : Nat) : State :=
  let c := s.reg (pmAddr b k 0)
  let x := s.matcher b k
  let w := pmWindow s b k
  if !bit c 31 || w = x.prev then s
  else
    let s1 := s.setMatcher b k { x with prev := w }
    match fld c 30 29 with
    | 1 => pmFire s1 b k
    | 2 =>
      let r := seqStep x.st (bit c 28) (w = pmValue s b k x.st) (w = pmValue s b k 0)
      let adv := w = pmValue s b k x.st || bit c 28 && 0 < x.st && w = pmValue s b k 0
      let s2 := s1.setMatcher b k { prev := w, st := r.1, advAt := if adv then s.now else x.advAt }
      if r.2 then pmFire s2 b k else s2
    | _ => if w = pmValue s b k 0 then pmFire s1 b k else s1

/-- All matchers of a billet. -/
def pmAll (s : State) (b : Nat) : State := (upto 16).foldl (fun s k => pmEval s b k) s

/-- The matcher loads the present w and restarts SEQ (R440). -/
def pmLoad (s : State) (b k : Nat) : State := s.setMatcher b k { prev := pmWindow s b k, st := 0, advAt := s.now }

/-- A load of observe paths is no edge: every matcher takes the window as its previous value (R435). -/
def pmQuiet (s : State) (b : Nat) : State :=
  (upto 16).foldl (fun s k => s.setMatcher b k { s.matcher b k with prev := pmWindow s b k }) s

/-- A write to a matcher register (R440): an enabled matcher reloads. -/
def pmWrite (s : State) (b k r : Nat) (v : Word) : State :=
  let m : Word := if r = 0 then 0xF03FFFFF#32 else 0xFFFFFFFF#32
  let s1 := s.setReg (pmAddr b k r) (v &&& m)
  if bit (s1.reg (pmAddr b k 0)) 31 then pmLoad s1 b k else s1

/-- MATCHER_CONFIG_WRITE (R440): `r` is the register's offset in the matcher, CTRL, MASK or V0-V3. -/
def execMatcherConfigWrite (b k r : Nat) (v : Word) (s : State) : Out State :=
  .next (if s.present b && k < 16 && r % 4 = 0 && r < 0x18 then pmWrite s b k r v else s)

/-- MATCHER_TIMEOUT (R441): TMO units after the last advance. -/
def execMatcherTimeout (b k : Nat) (s : State) : Out State :=
  .next (
    let c := s.reg (pmAddr b k 0)
    let x := s.matcher b k
    if s.present b && k < 16 && bit c 31 && fld c 30 29 = 2 && fld c 15 0 ≠ 0 && 0 < x.st
    then atInstant (fun s => (s.matcher b k).advAt + fld c 15 0 * 1024)
      (fun s => (s.setMatcher b k { s.matcher b k with st := 0 }).orReg (pmAddr b k 0x1C) 2) s
    else s)

/-! ### Levels -/

/-- The capture channels that watch a pin take its level as their previous one (R435). -/
def capQuiet (s : State) (b n : Nat) : State :=
  (upto 16).foldl (fun s c =>
    if fld (s.breg b (0xA1800 + 0x20 * c)) 5 0 = n then
      let x := Tbl.get (fun _ => Capture.init) s.captures (16 * b + c)
      { s with captures := Tbl.set (fun _ => Capture.init) s.captures (16 * b + c) { x with level := (s.pin b n).sync } }
    else s) s

/-- The interrupt source of a pin takes the loaded level without an edge (R435). -/
def irqQuiet (s : State) (b n : Nat) : State :=
  if isEdge (srcSense s b (64 + n)) then
    s.setSrc b (64 + n) { s.src b (64 + n) with level := (s.pin b n).filt }
  else irqSense s b (64 + n)

/-- Load the observe paths of pins with their pad levels, producing no edge (R431, R435). -/
def loadObserve (s : State) (b : Nat) (ns : List Nat) : State :=
  let s1 := ns.foldl (fun s n =>
    let x := s.pin b n
    let s' := s.setPin b n { x with sync := x.pad, filt := x.pad, edgeAt := s.now }
    irqQuiet (capQuiet s' b n) b n) s
  pmQuiet s1 b

/-- An edge event of pin n (R437). -/
def pinEdge (s : State) (b n : Nat) : State :=
  let s1 := (stickyAll s b (368 + n)).orReg (baddr b (0xA0128 + 4 * (n / 32))) (2 ^ (n % 32))
  tallySource s1 b (80 + n)

/-- Forge cycles of the pin filter (R434). -/
def filtDelay (w : Word) : Nat := 2 ^ (fld w 13 11) - 1

/-- PIN_LEVEL_CHANGE (R434, R431, R435, R437): the pad's new level reaches the observe path, unless the bank's
supply is out of its class, a switch holds the path, or the part is in EMBER, where only the pads are left (R434, R477). -/
def pinLevel (s : State) (b n : Nat) (level : Bool) : State :=
  let x := s.pin b n
  if !vioOk s b (n / 16) || x.switching || s.ember.on then s.setPin b n { x with pad := level }
  else if x.filt = level then s.setPin b n { x with pad := level, sync := level }
  else
    let w := pinCfg s b n
    let s1 := s.setPin b n { x with pad := level, sync := level, filt := level, edgeAt := s.now - 2 - filtDelay w }
    let e := fld w 10 9
    let s2 := if (e = 1 && level) || (e = 2 && !level) || e = 3 then pinEdge s1 b n else s1
    pmAll s2 b

def execPinLevelChange (b n : Nat) (level : Bool) (s : State) : Out State :=
  .next (if s.present b && n < 48 then pinLevel s b n level else s)

/-! ### Configuration and switching -/

/-- SLPHOLD of a bank (R438). -/
def slpHold (s : State) (b k : Nat) : Bool := (upto 16).any (fun i => (s.pin b (16 * k + i)).sleep.isSome)

/-- A CFG write acts (R435, R436, R438, R432): it starts a switch when the function in effect changes, when SEL
changes under CMPOUT or BEAMOUT, or when it is the first after a sleep state. -/
def cfgApply (s : State) (b n : Nat) (v : Word) : State :=
  let old := pinCfg s b n
  let x := s.pin b n
  let f0 := funcOf b n old
  let f1 := funcOf b n v
  let sw := x.sleep.isSome || f0 ≠ f1 || ((f0 = 2 || f0 = 3) && fld old 8 3 ≠ fld v 8 3)
  let y := if sw then { x with switching := true, swEnd := s.now + max 2 (fld v 31 24) + 3, brk := max 2 (fld v 31 24),
                               park := fld v 23 22 } else x
  let s1 := (s.setBreg b (0xA0000 + 4 * n) v).setPin b n { y with sleep := none }
  if fld v 2 0 = 4 && !legacyPin b n then s1.orReg (bankAddr b (n / 16)) 0x400 else s1

/-- SW (R435): a switch is in progress, its last forge cycle among them. -/
def pinSw (s : State) (x : Pin) : Bool := x.switching || s.now < x.swEnd

/-- A CFG write accepted (R436): held while a switch is in progress, a later one replacing it; one that comes in the last
cycle of the switch acts in the next, or at once where the line ends before it (log entry 1). -/
def cfgWrite (s : State) (b n : Nat) (v : Word) : State :=
  let x := s.pin b n
  if x.switching then s.setPin b n { x with held := some v }
  else cfgApply (if x.swEnd ≤ lineEnd s then bring (fun _ => x.swEnd) s else s) b n v

/-- PIN_CFG_WRITE (R435). -/
def execPinCfgWrite (b n : Nat) (v : Word) (s : State) : Out State :=
  .next (if s.present b && n < 48 then cfgWrite s b n v else s)

/-- A switch ends (R435, R436): the observe path is loaded without an edge, and in the next cycle a held write is
applied. -/
def switchEnd (s : State) (b n : Nat) : State :=
  let x := s.pin b n
  if !x.switching then s
  else
    let s1 := s.setPin b n { x with switching := false, held := none }
    let s2 := if vioOk s b (n / 16) then loadObserve s1 b [n] else s1
    match x.held with
    | some v => cfgApply (bring (fun _ => x.swEnd) s2) b n v
    | none => s2

/-- PIN_SWITCH_END (R435): the cycle in which the new function first drives. -/
def execPinSwitchEnd (b n : Nat) (s : State) : Out State :=
  .next (if s.present b && n < 48 && (s.pin b n).switching then
    atInstant (fun s => (s.pin b n).swEnd - 1) (fun s => switchEnd s b n) s else s)

/-- VIOOK follows the supply and VSEL (R431): a fall sets VIOERR, a rise loads the observe paths. -/
def bankJudge (s : State) (b k : Nat) : State :=
  let x := s.bank b k
  let ok := supplyIn x.supply (fld (s.reg (bankAddr b k)) 1 0)
  let s1 := s.setBank b k { x with ok := ok }
  if x.ok && !ok then s1.orReg (bankAddr b k) 0x200
  else if !x.ok && ok then
    loadObserve s1 b ((upto 16).filterMap (fun i => if (s.pin b (16 * k + i)).switching then none else some (16 * k + i)))
  else s1

/-- A write of PIO_BANKk_CFG (R431, R189): VSEL acts at once, the error bits clear. -/
def bankWrite (s : State) (b k : Nat) (v : Word) : State :=
  let a := bankAddr b k
  let s1 := s.setReg a (setFld (s.reg a &&& ~~~ (v &&& 0x600#32)) 1 0 (fld v 1 0))
  let s2 := bankJudge s1 b k
  if k < 2 then lppVsel s2 b else s2

/-- BANK_VSEL_WRITE (R431). -/
def execBankVselWrite (b k : Nat) (v : Word) (s : State) : Out State :=
  .next (if s.present b && k < 3 then bankWrite s b k v else s)

/-- BANK_SUPPLY_CHANGE (R431). A supply that goes off loses the sleep states it held (R438). -/
def execBankSupplyChange (b k : Nat) (cls : BankSupply) (s : State) : Out State :=
  .next (
    if s.present b && k < 3 then
      let s1 := s.setBank b k { s.bank b k with supply := cls }
      let s2 := if cls = .off then
          (upto 16).foldl (fun s i => s.setPin b (16 * k + i) { s.pin b (16 * k + i) with sleep := none }) s1
        else s1
      bankJudge s2 b k
    else s)

/-- A write to PIO_OUT or PIO_OE (R213, R433): owned pins keep their latch and enable. -/
def outWrite (s : State) (b : Nat) (oe : Bool) (base : Nat) (v : Word) : State :=
  (upto 32).foldl (fun s i =>
    let n := base + i
    if n < 48 && pinOwner s b n = none then
      let x := s.pin b n
      s.setPin b n (if oe then { x with oe := bit v i } else { x with latch := bit v i })
    else s) s

/-- A word of pin bits: latches, enables, levels or switches. -/
def pinBits (s : State) (b base : Nat) (f : Pin → Bool) : Word :=
  wd ((upto 32).foldl (fun acc i => if base + i < 48 && f (s.pin b (base + i)) then acc + 2 ^ i else acc) 0)

/-- PIO_BANKk_CFG as a read shows it. -/
def bankView (s : State) (b k : Nat) : Word :=
  (s.reg (bankAddr b k) &&& 0x603#32) ||| wd (b2n (slpHold s b k) * 0x1000 + b2n (vioOk s b k) * 0x100)

/-- PIO_PMk_STAT as a read shows it. -/
def pmStatView (s : State) (b k : Nat) : Word :=
  (s.reg (pmAddr b k 0x1C) &&& 3#32) ||| wd ((s.matcher b k).st * 2 ^ 16)

end Sys2Proof.Machine
end

