-- ==== Sys2Proof/Machine/Compose.lean ====
section
/-! DEFINITION. Line evaluation of the planes, composition of groups, the output stage, writeback, dark frames
(R119, R135, R172-R190). -/

namespace Sys2Proof.Machine

def State.out (s : State) (b p : Nat) : PortOut := Tbl.get (fun _ => PortOut.init) s.outs (pidx b p)

def State.setOut (s : State) (b p : Nat) (x : PortOut) : State :=
  { s with outs := Tbl.set (fun _ => PortOut.init) s.outs (pidx b p) x }

def State.collOf (s : State) (b : Nat) : CollWork := Tbl.get (fun _ => CollWork.init) s.coll b

def State.setColl (s : State) (b : Nat) (x : CollWork) : State :=
  { s with coll := Tbl.set (fun _ => CollWork.init) s.coll b x }

def State.sprLineList (s : State) (b : Nat) : List SprLine := Tbl.get (fun _ => []) s.sprLines b

/-- Offset of a composition register of port p. -/
def coff (p o : Nat) : Nat := 0x30100 + 0x100 * p + o

/-! ### Line evaluation -/

/-- Graphic layers (R119, R124, R125). -/
def evalLayers (s : State) (v : View) (fl : Nat × Nat) : State × Nat :=
  let y := canvasRow s fl.2
  let load := decide (fl.2 = (s.beam.vactStart + s.beam.vtotal - 4) % s.beam.vtotal)
  (upto 8).foldl (fun (acc : State × Nat) n =>
    let d := layerDemand v n y load
    let s1 := acc.1.setReg (baddr v.b (goff n 0x34)) (wd (d % 2 ^ 16))
    let s2 := if load then askColumns s1 v n fl else s1
    (askLayer s2 v n fl, acc.2 + d)) (s, 0)

/-- The sprite plane (R135-R138): on lines it evaluates nothing for, its demand and load are 0. -/
def evalSprites (s : State) (v : View) (fl : Nat × Nat) : State × Nat :=
  let b := v.b
  match canvasRow s fl.2, bit (v.w 0x18000) 0 with
  | some y, true =>
    let e := sprEval v y
    let d := sprDemand e.slots y
    let keep := (s.sprLineList b).take 2
    let s1 := { s with sprLines := Tbl.set (fun _ => []) s.sprLines b (⟨fl.1, fl.2, e.slots⟩ :: keep) }
    let flags := (if e.dropped = 0 then 0 else 1) + (if e.truncated = 0 then 0 else 2) + (if e.fmtErr then 16 else 0)
    let s2 := ((s1.orReg (baddr b 0x1800C) flags).addReg (baddr b 0x18014) e.dropped).addReg (baddr b 0x18018) e.truncated
    let s3 := (s2.setReg (baddr b 0x18020) (wd (d % 2 ^ 16))).setReg (baddr b 0x18024) (wd (e.visible * 2 ^ 16 + e.pix))
    let c := s3.collOf b
    let s4 := s3.setColl b { c with peakVis := max c.peakVis e.visible, peakPix := max c.peakPix e.pix }
    (e.slots.foldl (fun s k => askAll s b 8 fl ((sprUnits k y).map (fun u => (k.idx, u)))) s4, d)
  | _, _ => ((s.setReg (baddr b 0x18020) 0#32).setReg (baddr b 0x18024) 0#32, 0)

/-- The receive flow's format equals the layer's (R169). -/
def flowFmtOk (s : State) (b : Nat) (c : Word) : Bool := bit (s.breg b (0x91000 + 0x40 * fld c 15 12)) 24 == bit c 3

/-- The line of the flips (R150). -/
def flipLine (bm : Beam) : Nat := (bm.vactStart + bm.vtotal - 8) % bm.vtotal

/-- Video layers (R150, R166): the flip on line F_L, then the rows of the line. -/
def evalVideo (s : State) (v : View) (fl : Nat × Nat) : State × Nat :=
  let b := v.b
  let flip := decide (fl.2 = flipLine s.beam)
  (upto 4).foldl (fun (acc : State × Nat) n =>
    let s1 := if flip then vidFlip acc.1 v n (flowFmtOk acc.1 b (v.w (voff n 0))) fl else acc.1
    let x := s1.video b n
    let rows := vidRows x (canvasRow s fl.2)
    let d := vidU x.cfg x.x0 x.x1 * rows.length
    let s2 := (s1.setVideo b n (vidAdvance x)).setReg (vaddr b n 0x50) (wd (d % 2 ^ 16))
    let asks := rows.flatMap (fun r => (vidRowUnits x.cfg x.x0 x.x1 r).map (fun u => (r, u)))
    (askAll s2 b (9 + n) fl asks, acc.2 + d)) (s, 0)

/-- IDLE and DOZE stop fetch and composition (R476). -/
def anvilOff (s : State) : Bool := s.temper.state = 1 || s.temper.state = 2

/-- What the planes need in line `fl`, and the reservation (R119, R125); `p.2`: the window holds a retrain. -/
def evalPlanes (p : State × Bool) (v : View) (fl : Nat × Nat) : State :=
  if anvilOff p.1 then arbEval p.1 v.b p.2 0 else
  let (s2, d1) := evalLayers p.1 v fl
  let (s3, d2) := evalSprites s2 v fl
  let (s4, d3) := evalVideo s3 v fl
  arbEval s4 v.b p.2 (d1 + d2 + d3)

/-- The evaluation of line `fl` on one billet (R119, R125): what the planes need, and the reservation. -/
def evalBillet (s : State) (v : View) (fl : Nat × Nat) : State :=
  let b := v.b
  let old := (s.lineViews.take 3).map (fun l => (l.frame, l.line))
  let s0 := s.setFetchList b ((s.fetchList b).filter (fun u => keepsLine u.plane u.tag || old.contains (u.frame, u.line)))
  evalPlanes (retrainCheck (arbNewLine s0 b) b fl.2) v fl

/-! ### Composition -/

/-- What a plane gives at a pixel, and the units it waits for. -/
structure PlanePx where
  px : Px
  missing : List (Nat × Nat × Nat)
deriving DecidableEq, Repr

/-- A plane's pixel, or its fallback. -/
def pxOr (g : Got Px) (fb : Px) : Px :=
  match g with
  | .ok p => p
  | .error _ => fb

/-- Units of a plane, with its number. -/
def ofPlane (plane : Nat) (l : List (Nat × Nat)) : List (Nat × Nat × Nat) := l.map (fun e => (plane, e.1, e.2))

/-- The slots of the line. -/
def slotsFor (s : State) (b : Nat) (fl : Nat × Nat) : List SprSlot :=
  match (s.sprLineList b).find? (fun l => l.frame = fl.1 && l.line = fl.2) with
  | some l => l.slots
  | none => []

/-- Everything a canvas pixel needs (R172). -/
structure PixelIn where
  planes : List PlanePx
  sprites : List (SprSlot × Px)
  x : Nat
deriving DecidableEq, Repr

/-- A plane that delivers T = 1. -/
def noPlane : PlanePx := ⟨⟨true, 0, 0, 0, 0, 0, false⟩, []⟩

/-- The thirteen planes at canvas pixel (x, y) of line `fl`; in IDLE and DOZE every one is transparent (R476). -/
def planesAt (s : State) (v : View) (fl : Nat × Nat) (x y : Nat) : PixelIn :=
  let b := v.b
  if anvilOff s then ⟨List.replicate 13 noPlane, [], x⟩ else
  let layers := (upto 8).map (fun n =>
    let g := layerPx v n (s.colStore b n) (lookFor s b n fl) x y
    (⟨pxOr g (layerFallback v n), ofPlane n (missingOf g)⟩ : PlanePx))
  let slots := if bit (v.w 0x18000) 0 then slotsFor s b fl else []
  let lk := lookFor s b 8 fl
  let ps := sprPixels v lk slots x y
  let miss := (sprAt slots x).flatMap (fun k => ofPlane 8 (missingOf (sprPx v lk k x y)))
  let spr : PlanePx := ⟨sprDelivered ps, miss⟩
  let vids := (upto 4).map (fun n =>
    let vd := (s.video b n).lineOf fl
    let f := fun look => vidPx v n vd look s.beam.frame x y
    let lk := lookFor s b (9 + n) fl
    (⟨pxOr (f lk) (vidFallback v n), if vidCut vd.cfg then [] else ofPlane (9 + n) (lacks f 600 lk)⟩ : PlanePx))
  ⟨layers ++ [spr] ++ vids, ps, x⟩

/-- Every unit that a canvas pixel reads, present or not (R176). -/
def unitsAt (s : State) (v : View) (fl : Nat × Nat) (x y : Nat) : List (Nat × Nat × Nat) :=
  let b := v.b
  if anvilOff s then [] else
  let none' : Look := fun _ _ => none
  let layers := (upto 8).flatMap (fun n =>
    ofPlane n (reads (fun look => layerPx v n (s.colStore b n) look x y) (lookFor s b n fl) 8 none'))
  let slots := if bit (v.w 0x18000) 0 then slotsFor s b fl else []
  let spr := (sprAt slots x).flatMap (fun k => ofPlane 8 (missingOf (sprPx v none' k x y)))
  let vids := (upto 4).flatMap (fun n =>
    let vd := (s.video b n).lineOf fl
    if vidCut vd.cfg then [] else ofPlane (9 + n) (lacks (fun look => vidPx v n vd look s.beam.frame x y) 600 none'))
  layers ++ spr ++ vids

/-- Entry `i` of a port's priority list (R172). -/
def listEntry (v : View) (p i : Nat) : Nat := v.f (coff p (4 * (i / 2))) (16 * (i % 2) + 15) (16 * (i % 2))

/-- Does entry `e` take pixels of `plane` with priority `pri`? -/
def entryTakes (e plane pri : Nat) : Bool := e.testBit 15 && e % 16 = plane && e.testBit (8 + pri)

/-- The entry at which a plane's pixel is placed (R172). -/
def placeOf (v : View) (p plane pri : Nat) : Option Nat := (upto 16).find? (fun i => entryTakes (listEntry v p i) plane pri)

/-- Alpha-over of one component (R173). -/
def alphaOver (s d w : Nat) : Nat := (s * w + d * (256 - w) + 128) / 256

/-- One component under a blend mode (R173). -/
def blend1 (mode s d w : Nat) : Nat :=
  match mode with
  | 0 => s
  | 2 => min 4095 (d + (s * w + 128) / 256)
  | 3 =>
    let m := (s * w + 4095 * (256 - w) + 128) / 256
    (d * (m + m / 2048) + 2048) / 4096
  | _ => alphaOver s d w

/-- Is the pixel within the key's tolerance (R173)? -/
def keyed (k : Word) (q : Px) : Bool :=
  let tol := fld k 31 24
  let near := fun (c kk : Nat) => ((c : Int) - (kk * 16 + kk / 16 : Nat)).natAbs ≤ tol
  near q.r (fld k 23 16) && near q.g (fld k 15 8) && near q.b (fld k 7 0)

/-- Place one pixel on the running value (R173). -/
def blendPx (mode : Nat) (key : Word) (q : Px) (d : Nat × Nat × Nat) : Nat × Nat × Nat :=
  if q.t || (mode = 4 && keyed key q) then d
  else
    let w := q.a + q.a / 128
    (blend1 mode q.r d.1 w, blend1 mode q.g d.2.1 w, blend1 mode q.b d.2.2 w)

/-- The port's background colour (file 07). -/
def bgOf (v : View) (p : Nat) : Nat × Nat × Nat :=
  let w := v.w (coff p 0x20)
  let c := fun f => f * 4 + f / 256
  (c (fld w 29 20), c (fld w 19 10), c (fld w 9 0))

/-- The composed value of a pixel, and whether a list entry took a fallback pixel (R172, R173, R177). -/
def composePx (v : View) (p : Nat) (planes : List Px) : (Nat × Nat × Nat) × Bool :=
  let placed := (upto 13).filterMap (fun n =>
    let q := planes.getD n .clear
    if q.t && !q.fb then none else (placeOf v p n q.p).map (fun i => (i, q)))
  let d := (upto 16).reverse.foldl (fun d i =>
    placed.foldl (fun d e => if e.1 = i then blendPx (bits (listEntry v p i) 14 12) (v.w (coff p 0x24)) e.2 d else d) d)
    (bgOf v p)
  (d, placed.any (fun e => e.2.fb))

/-- The view a port's running line uses. -/
def portView (s : State) (b p : Nat) : View := ⟨s.variant, b, (s.port b p).view, (s.port b p).viewEff⟩

/-- Active dots of group `g` (R175). -/
def groupDots (hAct g : Nat) : List Nat := (upto 4).filterMap (fun i => if 4 * g + i < hAct then some (4 * g + i) else none)

/-- The canvas column of an active dot, where it lies in the span and the band (R18, R19). -/
def dotColumn (v : View) (p d : Nat) : Option Nat :=
  let x := v.spanX p + d
  if d < v.spanW p && x < v.bandX + v.bandW && x < 131072 then some x else none

/-- The group lies beyond what Anvil composes in a line (R20). -/
def beyondLine (s : State) (v : View) (p g : Nat) : Bool :=
  let w := v.bandW
  2 * s.beam.htotal < w / 4 + 96 && 2 * s.beam.htotal ≤ (v.spanX p - v.bandX) / 4 + g + 96

/-- Inputs of a group's pixels on the port's running line: active dot and, inside the span, the planes. A span of width
0 has no pixel output (R18). -/
def groupIn (s : State) (b p g : Nat) : Option (List (Nat × Option PixelIn)) :=
  let x := s.port b p
  match x.running, canvasRow s x.line with
  | true, some y =>
    let v := portView s b p
    if v.spanW p = 0 then none
    else some ((groupDots x.cfg.hAct g).map (fun d =>
      (d, (dotColumn v p d).map (fun c => planesAt s v (x.frame, x.line) c y))))
  | _, _ => none

/-- Units the group waits for. -/
def groupMissing (l : List (Nat × Option PixelIn)) : List (Nat × Nat × Nat) :=
  l.flatMap (fun e => match e.2 with
    | some q => q.planes.flatMap (·.missing)
    | none => [])

/-- UNDER register of a plane and its STAT bit. -/
def underRegs (b plane : Nat) : Nat × Nat × Nat :=
  if plane < 8 then (baddr b (goff plane 0x3C), baddr b (goff plane 0x38), 1)
  else if plane = 8 then (baddr b 0x1801C, baddr b 0x1800C, 4)
  else (vaddr b (plane - 9) 0x4C, vaddr b (plane - 9) 0x48, 1)

/-- Count the fallback pixels planes delivered at a pixel (R126, R139, R167). -/
def countUnder (s : State) (b : Nat) (q : PixelIn) : State :=
  (upto 13).foldl (fun s n =>
    match q.planes[n]? with
    | some e =>
      let k := if n = 8 then (q.sprites.filter (fun e => e.2.fb)).length else b2n e.px.fb
      if k ≠ 0 then
        let u := underRegs b n
        let s1 := (s.addReg u.1 k).orReg u.2.1 u.2.2
        if n = 8 then s1.setColl b { s1.collOf b with under := true } else s1
      else s
    | none => s) s

/-- Note a colliding pair of a line at its leftmost column (R145). -/
def noteFound (l : List (Nat × Nat × CollEntry)) (f n : Nat) (e : CollEntry) : List (Nat × Nat × CollEntry) :=
  if l.any (fun t => t.1 = f && t.2.1 = n && t.2.2.i = e.i && t.2.2.j = e.j) then
    l.map (fun t => if t.1 = f && t.2.1 = n && t.2.2.i = e.i && t.2.2.j = e.j && e.x < t.2.2.x then (f, n, e) else t)
  else l ++ [(f, n, e)]

/-- Collision at a pixel (R143, R144). -/
def collideAt (s : State) (v : View) (fl : Nat × Nat) (q : PixelIn) (y : Nat) : State :=
  let take := sprTaking q.sprites
  let c := s.collOf v.b
  let c1 := { c with found := (sprPairs v take q.x y).foldl (fun l e => noteFound l fl.1 fl.2 e) c.found,
                     depth := c.depth || 4 < take.length, under := c.under || q.sprites.any (fun e => e.2.fb) }
  let s1 := s.setColl v.b c1
  if 4 < take.length then s1.orReg (baddr v.b 0x1800C) 0x20 else s1

/-- The margin with the use at `now` of a column that arrived in `e` (R170); a column not written is waited for. -/
def ctNote (x : Video) (rr : RingRow) (row col now : Nat) : Video :=
  if rr.row = row && ctWritten rr col then
    match rr.arrivals.find? (fun e => e.1 ≤ col && col < e.2.1) with
    | some e =>
      let m : Int := ((now - e.2.2) / 2 : Nat)
      { x with margin := some (match x.margin with
        | some k => min k m
        | none => m) }
    | none => x
  else { x with waiting := x.waiting ++ [(row, col, now)] }

/-- Margin of a cut-through pixel at its use (R170), in anvil clocks; one that fell back waits for its column. -/
def ctUse (s : State) (fl : Nat × Nat) (b n x y : Nat) : State :=
  let vd := s.video b n
  let c := (vd.lineOf fl).cfg
  if !vidInside c x y || !vidCut c || (vd.lineOf fl).range then s
  else
    let pl := ctPlace c x (y - c.dstY)
    s.setVideo b n (ctNote vd (ctRow (vd.lineOf fl) pl.1) pl.1 pl.2.2 s.now)

/-- The effects a composed pixel has beside its value: CS_OVR among them, judged where pixels are composed (log entry
47). -/
def pixelEffects (s : State) (v : View) (fl : Nat × Nat) (q : PixelIn) (y : Nat) : State :=
  let b := v.b
  let s1 := collideAt (countUnder s b q) v fl q y
  let s2 := (upto 8).foldl (fun s n =>
    if layerCsOvr v n (s.colStore b n) q.x then s.orReg (baddr b (goff n 0x38)) 4 else s) s1
  (upto 4).foldl (fun s n => ctUse s fl b n q.x y) s2

/-- A pixel took a fallback (R177). -/
def countPortUnder (s : State) (b p dot line : Nat) : State :=
  let o := s.out b p
  let s1 := (s.addReg (baddr b (coff p 0x54)) 1).orReg (baddr b (coff p 0x50)) 1
  if o.undSeen then s1
  else (s1.setReg (baddr b (coff p 0x58)) (wd (line * 2 ^ 16 + dot % 2 ^ 16))).setOut b p { o with undSeen := true }

/-- Did a list entry of the port take a fallback pixel (R177)? Transparent ones of sprites in front count as taken. -/
def underAt (v : View) (p : Nat) (q : PixelIn) (placed : Bool) : Bool :=
  placed || (sprClearFb q.sprites).any (fun k => (placeOf v p 8 k).isSome)

/-- Compose group `g` from its inputs (R173-R177). -/
def composeGroup (s : State) (b p g : Nat) (ins : List (Nat × Option PixelIn)) : State :=
  let x := s.port b p
  let v := portView s b p
  let fl := (x.frame, x.line)
  let y := (canvasRow s x.line).getD 0
  let r := ins.foldl (fun (acc : State × List OutPx) e =>
    match e.2 with
    | some q =>
      let c := composePx v p (q.planes.map (·.px))
      let s1 := pixelEffects acc.1 v fl q y
      let under := underAt v p q c.2
      let s2 := if under then countPortUnder s1 b p (x.cfg.hActStart + e.1) x.line else s1
      (s2, acc.2 ++ [⟨c.1.1, c.1.2.1, c.1.2.2, under, false⟩])
    | none =>
      let c := bgOf v p
      (acc.1, acc.2 ++ [⟨c.1, c.2.1, c.2.2, false, false⟩])) (s, [])
  let o := r.1.out b p
  r.1.setOut b p { o with groups := o.groups ++ [⟨g, r.2⟩], nextG := g + 1 }

/-- The leaving instant of a port line's dot `d` (R533), with the line's stretch or compression (R54). -/
def leaveAt (s : State) (b p d : Nat) : Nat :=
  let x := s.port b p
  x.lineAt + d * 4 * portSpan s x / max 1 x.cfg.hTotal

/-- The leaving instant of active dot `ad` of the port's line. -/
def pixelAt (s : State) (b p ad : Nat) : Nat := leaveAt s b p ((s.port b p).cfg.hActStart + ad)

/-- The composition lead of the group is broken (R56, R176): it leaves less than 96 anvil clocks after the line-latch
point. -/
def leadBroken (s : State) (b p g : Nat) : Bool := pixelAt s b p (4 * g) < (s.port b p).lineAt + 192

/-- Can group `g` of the port be composed (R175)? -/
def composable (s : State) (b p g : Nat) : Bool :=
  let o := s.out b p
  match groupIn s b p g with
  | some ins => o.nextG = g && 4 * g < (s.port b p).cfg.hAct && o.groups.length < 512 &&
      !beyondLine s (portView s b p) p g && !leadBroken s b p g && groupMissing ins = []
  | none => false

/-- ANVIL_GROUP_COMPOSE (R175): the port with the leftmost span that has a composable group is served. -/
def execAnvilGroupCompose (b p g : Nat) (s : State) : Out State :=
  .next (
    if s.present b && p < 4 && composable s b p g &&
        !((upto 4).any (fun q => q ≠ p && (portView s b q).spanX q < (portView s b p).spanX p && composable s b q (s.out b q).nextG))
    then
      match groupIn s b p g with
      | some ins => composeGroup s b p g ins
      | none => s
    else s)

/-- Mark units late for the line (R176). -/
def markLate (s : State) (b : Nat) (fl : Nat × Nat) (l : List (Nat × Nat × Nat)) : State :=
  l.foldl (fun s e =>
    if e.1 < 8 && e.2.1 = tagCol then s.setColStore b e.1 { s.colStore b e.1 with late := true }
    else s.setFetchList b ((s.fetchList b).map (fun u =>
      if u.plane = e.1 && u.tag = e.2.1 && u.unit = e.2.2 &&
          unitServes s b u fl then { u with late := some fl } else u))) s


/-- A group leaves as background, and the line counts under R20. -/
def groupBackground (s : State) (b p g : Nat) (ins : List (Nat × Option PixelIn)) : State :=
  let x := s.port b p
  let o := s.out b p
  let c := bgOf (portView s b p) p
  let px : List OutPx := ins.map (fun _ => ⟨c.1, c.2.1, c.2.2, false, false⟩)
  let s1 := if (upto 4).any (fun q => (s.out b q).shortAt = some (x.frame, x.line)) then s
    else s.addRf (baddr b 0x3000C) 15 0 1
  s1.setOut b p { o with groups := o.groups ++ [⟨g, px⟩], nextG := g + 1, shortAt := some (x.frame, x.line) }

/-- Every unit the group's pixels read (R176). -/
def groupUnits (s : State) (b p : Nat) (ins : List (Nat × Option PixelIn)) : List (Nat × Nat × Nat) :=
  let x := s.port b p
  ins.flatMap (fun e => match e.2 with
    | some q => unitsAt s (portView s b p) (x.frame, x.line) q.x ((canvasRow s x.line).getD 0)
    | none => [])

/-- The group is composed with the pieces `l` late (R176). -/
def composeLate (s : State) (b p g : Nat) (l : List (Nat × Nat × Nat)) : State :=
  let s1 := markLate s b ((s.port b p).frame, (s.port b p).line) l.eraseDups
  match groupIn s1 b p g with
  | some ins => composeGroup s1 b p g ins
  | none => s1

/-- The deadline of group `g` (R175, R176): missing pieces are late, of a group whose composition lead is broken every
piece, and the group is composed with fallback; a group Anvil did not reach leaves as background. -/
def groupDeadline (s : State) (b p g : Nat) : State :=
  match groupIn s b p g with
  | some ins =>
    if (s.out b p).nextG ≠ g || (s.port b p).cfg.hAct ≤ 4 * g then s
    else if beyondLine s (portView s b p) p g then groupBackground s b p g ins
    else if leadBroken s b p g then composeLate s b p g (groupUnits s b p ins)
    else if groupMissing ins ≠ [] then composeLate s b p g (groupMissing ins)
    else groupBackground s b p g ins
  | none => s

/-- GROUP_DEADLINE (R175): 12 anvil clocks before the group leaves. -/
def execGroupDeadline (b p g : Nat) (s : State) : Out State :=
  .next (if s.present b && p < 4 then atInstant (fun s => pixelAt s b p (4 * g) - 24) (fun s => groupDeadline s b p g) s else s)

/-! ### Output stage -/

/-- An output LUT entry (R178). -/
def lutGet (l : Tbl Nat) (b p bank comp i : Nat) : Nat :=
  Tbl.get lutReset l (((pidx b p * 2 + bank) * 3 + comp) * 4096 + i)

/-- A write through LUTW (R179). -/
def lutWrite (s : State) (b p : Nat) (v : Word) : State :=
  let comps := if fld v 31 30 = 3 then [0, 1, 2] else [fld v 31 30]
  { s with luts := comps.foldl (fun l c =>
      Tbl.set lutReset l (((pidx b p * 2 + fld v 29 29) * 3 + c) * 4096 + fld v 27 16) (fld v 11 0)) s.luts }

/-- What a read of LUTW shows (file 07): the entry its fields name. -/
def lutwView (s : State) (b p : Nat) : Word :=
  let v := s.breg b (coff p 0x2C)
  let c := if fld v 31 30 = 3 then 0 else fld v 31 30
  setFld v 11 0 (lutGet s.luts b p (fld v 29 29) c (fld v 27 16))

/-- A live register as the pixels see it (R82, R83). -/
def liveNow (s : State) (b p o : Nat) : Word := liveGet s b (0x30800 + 0x40 * p + o)

/-- The output stage of one pixel at port dot `d` (R81): gain, force colour, LUT, blanking. -/
def outStage (s : State) (b p d : Nat) (q : OutPx) : OutPx :=
  let x := s.port b p
  let g := liveNow s b p 0
  let f := liveNow s b p 4
  let w := liveNow s b p 8
  let m := liveNow s b p 0xC
  let gain := fun (c k : Nat) => min 4095 (c * k / 512)
  let force := bit f 31 && fld w 15 0 ≤ d && d < fld w 31 16
  let f12 := fun (k : Nat) => k * 4 + k / 256
  let r1 := if force then f12 (fld f 29 20) else gain q.r (fld g 29 20)
  let g1 := if force then f12 (fld f 19 10) else gain q.g (fld g 19 10)
  let b1 := if force then f12 (fld f 9 0) else gain q.b (fld g 9 0)
  let bank := (portView s b p).f (coff p 0x28) 0 0
  let lut := fun (c k : Nat) => if bit m 0 then k else lutGet x.viewLut b p bank c k
  if bit m 1 then { q with r := 0, g := 0, b := 0, blank := true }
  else { q with r := lut 0 r1, g := lut 1 g1, b := lut 2 b1 }

/-- An 8-bit component as the legacy port shows it (R188). -/
def to8 (v : Nat) : Nat := min 255 ((v + 8) / 16)

/-- The legacy port's pixel. -/
def legacyPixel (s : State) (b p : Nat) (q : OutPx) : State :=
  let l := s.legacyOf b
  if b < 2 && l.run && l.port = p then s.setLegacy b { l with rgb := to8 q.r + 2 ^ 8 * to8 q.g + 2 ^ 16 * to8 q.b } else s

/-- One pixel leaves Anvil: live writes and strikes due by then apply first (R82-R84); it is lit by the line-latched
threshold (R190). -/
def pixelLeave (s : State) (b p ad : Nat) (q : OutPx) : State :=
  let x := s.port b p
  let d := x.cfg.hActStart + ad
  let s1 := applyStrikesAt (settleLive s b (leaveAt s b p d)) b p (x.frame, x.line) d
  let z := outStage s1 b p d q
  let o := s1.out b p
  let thr := (portView s b p).f (coff p 0x44) 11 0
  let lit := thr < z.r || thr < z.g || thr < z.b
  legacyPixel (s1.setOut b p { o with tap1 := o.tap1 ++ [q], tap0 := o.tap0 ++ [z], lit := o.lit + b2n lit }) b p z

/-! ### Conversions -/

/-- Y, Cb and Cr of a pixel (R181), each within one code of the exact result. -/
def toYcc (matrix : Nat) (q : OutPx) : Nat × Nat × Nat :=
  let (kr, kb) := matrixK matrix
  let d : Int := 10000
  let den : Int := d * 4095
  let y : Int := kr * q.r + (d - kr - kb) * q.g + kb * q.b
  let rnd := fun (n dd : Int) => (2 * n + dd) / (2 * dd)
  let dev := fun k => clampI (-1) 1 (Config.yccDev matrix k q.r q.g q.b)
  let cl := fun (i : Int) => (clampI 0 1023 i).toNat
  (cl (rnd (64 * den + 876 * y) den + dev 0),
   cl (rnd (512 * 2 * (d - kb) * den + 896 * d * (q.b * d - y)) (2 * (d - kb) * den) + dev 1),
   cl (rnd (512 * 2 * (d - kr) * den + 896 * d * (q.r * d - y)) (2 * (d - kr) * den) + dev 2))

/-- Chroma of even active dot `i` of a row (R181). -/
def chromaAt (l : List (Nat × Nat × Nat)) (i : Nat) : Nat × Nat :=
  let n := l.length
  let at' := fun (j : Int) => l.getD (clampN n j) (0, 0, 0)
  let a := at' ((i : Int) - 1)
  let c := at' i
  let z := at' ((i : Int) + 1)
  ((a.2.1 + 2 * c.2.1 + z.2.1 + 2) / 4, (a.2.2 + 2 * c.2.2 + z.2.2 + 2) / 4)

/-- 10 bits of a 12-bit component (R180). -/
def to10 (v : Nat) : Nat := min 1023 ((v + 2) / 4)

/-- A group of up to six pixels packed in 16 bytes (R151): `ys` luma, `cs` chroma of its even pixels. -/
def packGroup (ys : List Nat) (cs : List (Nat × Nat)) : List Byte :=
  let y := fun k => ys.getD k 0
  let c := fun k => cs.getD k (0, 0)
  let smp := [(c 0).1, y 0, (c 0).2, y 1, (c 1).1, y 2, (c 1).2, y 3, (c 2).1, y 4, (c 2).2, y 5]
  (upto 4).flatMap (fun w => leBytes 4 (smp.getD (3 * w) 0 + smp.getD (3 * w + 1) 0 * 2 ^ 10 + smp.getD (3 * w + 2) 0 * 2 ^ 20))

/-- A row in 4:2:2 (R151, R181). -/
def packRow422 (l : List (Nat × Nat × Nat)) : List Byte :=
  (upto ((l.length + 5) / 6)).flatMap (fun g =>
    packGroup ((upto 6).map (fun k => (l.getD (6 * g + k) (0, 0, 0)).1))
      ((upto 3).map (fun k => if 6 * g + 2 * k < l.length then chromaAt l (6 * g + 2 * k) else (0, 0))))

/-- A row in XRGB 2-10-10-10 (R183). -/
def packRowRgb (l : List OutPx) : List Byte := l.flatMap (fun q => leBytes 4 (to10 q.r * 2 ^ 20 + to10 q.g * 2 ^ 10 + to10 q.b))

/-! ### Writeback -/

/-- Writeback ends with a frame as the next one begins (R184-R186): rows still in time go on beside it; a frame of
reheat that cannot be handed off frees its slot. -/
def wbFrameEnd (s : State) (b p : Nat) : State :=
  let o := s.out b p
  if !o.wbOn || o.wbDone then s
  else if o.wbRows = s.beam.vact && !(o.wbLost && bit o.wbCtrl 1) then
    s.setOut b p { o with wbOld := some ⟨o.wbCtrl, o.wbSlot, o.wbFrame, o.wbLost, o.wbQ⟩, wbNext := o.wbSlot + 1 }
  else if bit o.wbCtrl 1 then dropSlot s b (fld o.wbCtrl 5 4) o.wbSlot
  else s

/-- Writeback at the port's first active line of a frame (R183, R184, R186). -/
def wbFrameStart (s : State) (b p : Nat) : State :=
  let v := portView s b p
  let s0 := wbFrameEnd s b p
  let o := s0.out b p
  let c := v.w (coff p 0x30)
  let layer := fld c 5 4
  let fresh := { o with wbOn := bit c 0, wbCtrl := c, wbFrame := (s.port b p).frame, wbRows := 0, wbLost := false,
                        wbDone := false, wbQ := [] }
  if !bit c 0 then s0.setOut b p { fresh with wbOn := false }
  else if bit c 1 then
    let vd := s0.video b layer
    let vc := vd.cfg.ctrl
    if takesFrom vd 2 && fld vc 19 16 = p then
      match takeSlot s0 b layer with
      | (s1, some k) =>
        s1.setOut b p { fresh with wbSlot := k, wbBase := vd.bases.getD k 0, wbStride := vd.cfg.stride }
      | (s1, none) => (s1.setOut b p { fresh with wbOn := false }).orReg (baddr b (coff p 0x50)) 4
    else (s0.setOut b p { fresh with wbOn := false }).orReg (baddr b (coff p 0x50)) 4
  else
    let n := fld c 9 8 + 1
    let i := o.wbNext % n
    let pw := v.w (coff p 0x38)
    s0.setOut b p { fresh with wbSlot := i, wbBase := (v.w (coff p 0x34)).toNat + i * fld pw 31 16 * 65536,
                               wbStride := fld pw 13 0 * 64 }

/-- Split bytes into 64-byte units of a row. -/
def unitsOf (row addr : Nat) : Nat → List Byte → List WbUnit
  | 0, _ => []
  | n + 1, d => if d = [] then [] else ⟨row, addr, d.take 64⟩ :: unitsOf row (addr + 64) n (d.drop 64)

/-- A whole row goes to the writeback buffer (R183). -/
def wbRow (s : State) (b p row : Nat) : State :=
  let o := s.out b p
  if !o.wbOn then s
  else
    let l := if bit o.wbCtrl 2 then o.tap1 else o.tap0
    let d := if bit o.wbCtrl 3 then packRowRgb l else packRow422 (l.map (toYcc o.matrix))
    s.setOut b p { o with wbQ := o.wbQ ++ unitsOf row (o.wbBase + row * o.wbStride) ((d.length + 63) / 64) d,
                          wbRows := o.wbRows + 1 }

/-- A row is lost (R185): it is counted. -/
def wbCount (s : State) (b p : Nat) : State := (s.orReg (baddr b (coff p 0x50)) 2).addRf (baddr b (coff p 0x3C)) 31 16 1

/-- A row of the frame is lost (R185). -/
def wbLose (s : State) (b p : Nat) : State := wbCount (s.setOut b p { s.out b p with wbLost := true }) b p

/-- The rows of units that are two lines old or more at line `cur` of their frame, counted from its first active one. -/
def wbStale (cur : Nat) (q : List WbUnit) : List Nat := ((q.filter (fun u => u.row + 2 ≤ cur)).map (·.row)).eraseDups

/-- The frame before loses its stale rows (R185); one of reheat that lost a row is never handed off. -/
def wbOldLine (s : State) (b p cur : Nat) : State :=
  let o := s.out b p
  match o.wbOld with
  | none => s
  | some w =>
    let rows := wbStale cur w.q
    if rows = [] then s
    else
      let s1 := rows.foldl (fun s _ => wbCount s b p) s
      let w1 := { w with lost := true, q := w.q.filter (fun u => cur < u.row + 2) }
      if bit w.ctrl 1 then dropSlot (s1.setOut b p { s1.out b p with wbOld := none }) b (fld w.ctrl 5 4) w.slot
      else s1.setOut b p { s1.out b p with wbOld := some w1 }

/-- At a port line start, rows two lines old that are not wholly in memory are discarded (R185). At the first active
line the frame that ends still stands in the queue. -/
def wbLineStart (s : State) (b p : Nat) : State :=
  let x := s.port b p
  let vs := s.beam.vactStart
  let s0 := wbOldLine s b p (if vs < x.line then x.line - vs + s.beam.vtotal else s.beam.vtotal)
  let o := s0.out b p
  let cur := if vs < x.line then x.line - vs else x.line + s.beam.vtotal - vs
  (wbStale cur o.wbQ).foldl (fun s _ => wbLose s b p) (s0.setOut b p { o with wbQ := o.wbQ.filter (fun u => cur < u.row + 2) })

/-- A writeback unit's write is accepted (R321): requester 1 + p, the frame before first. -/
def wbAccept (s : State) (b p addr : Nat) : State :=
  let o := s.out b p
  let here := fun (u : WbUnit) => decide (u.addr = addr)
  if !writeRoom s b (1 + p) addr then s
  else
    match o.wbOld.bind (fun w => (w.q.find? here).map (fun u => (w, u))) with
    | some (w, u) => memWrite (s.setOut b p { o with wbOld := some { w with q := w.q.erase u } }) b (1 + p) addr u.data
    | none =>
      match o.wbQ.find? here with
      | some u => memWrite (s.setOut b p { o with wbQ := o.wbQ.erase u }) b (1 + p) addr u.data
      | none => s

/-- GDDR6_WRITE_ACCEPT (R321): a writeback port's data is its own row; any other requester's is given. A mismatch of the
pins' check is counted (R313). -/
def execGddr6WriteAccept (b req addr : Nat) (w : PinWrite) (s : State) : Out State :=
  .next (
    if !s.present b then s
    else
      let s0 := if w.edc then s.addReg (memReg b 0x20) 1 else s
      if 1 ≤ req && req ≤ 4 then wbAccept s0 b (req - 1) addr
      else if writeRoom s b req addr && w.data.length ≤ 64 - addr % 64 then memWrite s0 b req addr w.data else s0)

/-- A finished frame is recorded (R184, R186): a ring frame in LAST_IDX and WBFRM; one of reheat is handed off. -/
def wbRecord (s : State) (b p : Nat) (w : WbOld) : State :=
  if bit w.ctrl 1 then
    if w.lost then s else { s with handQ := s.handQ ++ [(b, fld w.ctrl 5 4, w.slot, 2)] }
  else
    let a := baddr b (coff p 0x3C)
    (s.setReg a (setFld (setFld (s.reg a) 1 0 w.slot) 2 2 (b2n w.lost))).setReg (baddr b (coff p 0x40)) (wd w.frame)

/-- WRITEBACK_FRAME_DONE (R184-R186): the last row of a frame is in memory, of the frame before first. -/
def wbDone (s : State) (b p : Nat) : State :=
  let o := s.out b p
  match o.wbOld with
  | some w => if w.q = [] then wbRecord (s.setOut b p { o with wbOld := none }) b p w else s
  | none =>
    if !o.wbOn || o.wbDone || o.wbRows < s.beam.vact || o.wbQ ≠ [] then s
    else if bit o.wbCtrl 1 then
      wbRecord (s.setOut b p { o with wbDone := !o.wbLost }) b p ⟨o.wbCtrl, o.wbSlot, o.wbFrame, o.wbLost, []⟩
    else wbRecord (s.setOut b p { o with wbDone := true, wbNext := o.wbSlot + 1 }) b p
      ⟨o.wbCtrl, o.wbSlot, o.wbFrame, o.wbLost, []⟩

def execWritebackFrameDone (b p : Nat) (s : State) : Out State :=
  .next (if s.present b && p < 4 then wbDone s b p else s)

/-! ### Line and frame ends -/

/-- The frame's dark judgement when its last active line has left (R190), by the values that line uses (R57). -/
def darkFrame (s : State) (b p : Nat) : State :=
  let o := s.out b p
  let cfg := (portView s b p).w (coff p 0x44)
  let a := baddr b (coff p 0x50)
  let was := bit (s.reg a) 16
  let dark := decide (o.lit ≤ 16 * fld cfg 31 24)
  let run := if dark then o.darkRun + 1 else 0
  let now := dark && (was || max 1 (fld cfg 23 16) ≤ run)
  let s1 := (s.setReg (baddr b (coff p 0x48)) (wd o.lit)).setOut b p { o with lit := 0, darkRun := run }
  let s2 := if dark then s1.addReg (baddr b (coff p 0x4C)) 1 else s1
  let s3 := s2.setReg a (setBit (s2.reg a) 16 now)
  if now && !was then s3.orReg a 8 else if was && !now then s3.orReg a 16 else s3

/-- The active line has left whole: its row is written back, and the last line closes the frame's count. -/
def lineLeft (s : State) (b p : Nat) : State :=
  let x := s.port b p
  let o := s.out b p
  let s1 := s.setOut b p { o with sent := some (x.frame, x.line, o.tap0) }
  let s2 := wbRow s1 b p (x.line - s.beam.vactStart)
  if x.line + 1 = s.beam.vactStart + s.beam.vact || x.line + 1 = s.beam.vtotal then darkFrame s2 b p else s2

/-- The pixels sent whose leaving instant has come by cycle `t` leave Anvil (R533); with the last of its active dots the
line has left. -/
def passPixels (s : State) (b p t : Nat) : State :=
  let o := s.out b p
  let go := o.due.takeWhile (fun e => pixelAt s b p e.1 ≤ t)
  if go = [] then s
  else
    let s1 := s.setOut b p { o with due := o.due.drop go.length }
    let s2 := go.foldl (fun s e => pixelLeave s b p e.1 e.2) s1
    if (s2.out b p).tap0.length = (s.port b p).cfg.hAct then lineLeft s2 b p else s2

/-- Group `g` leaves Anvil (R533, R81), the clock at its first pixel's instant: one not composed by now passed its
deadline before. Its other pixels follow at their own instants. -/
def groupLeave (s : State) (b p g : Nat) : State :=
  let s0 := if (s.out b p).nextG = g then groupDeadline s b p g else s
  match (s0.out b p).groups.find? (fun q => q.g = g) with
  | none => s0
  | some q =>
    let o := s0.out b p
    s0.setOut b p { o with groups := o.groups.filter (fun t => t.g ≠ g), sentG := g + 1,
                           due := o.due ++ (upto q.px.length).map (fun i => (4 * g + i, q.px.getD i ⟨0, 0, 0, false, false⟩)) }

/-- The legacy port's data returns to 0 as a line of its port starts (R188). -/
def legacyDark (s : State) (b p : Nat) : State :=
  let l := s.legacyOf b
  if b < 2 && l.run && l.port = p then s.setLegacy b { l with rgb := 0 } else s

/-- The port's output side at its line start: a row cut short is lost, the line begins empty (R54, R185). -/
def outLineStart (s : State) (b p : Nat) : State :=
  let x := s.port b p
  let o := s.out b p
  let cutRow := o.sentG ≠ 0 && o.tap0.length < x.cfg.hAct
  let s0 := if cutRow && o.wbOn then wbLose (s.setOut b p { o with wbRows := o.wbRows + 1 }) b p else s
  let o1 := s0.out b p
  let s1 := legacyDark (s0.setOut b p { o1 with groups := [], nextG := 0, sentG := 0, due := [], tap1 := [], tap0 := [] }) b p
  let s2 := wbLineStart s1 b p
  let s3 := if x.line = 0 then
      (let v := portView s2 b p
       let oc := v.w (coff p 0x28)
       let o2 := s2.out b p
       s2.setOut b p { o2 with ofmt := (if 6 ≤ fld oc 6 4 then 1 else fld oc 6 4), matrix := fld oc 9 8, undSeen := false,
                               lit := 0 })
    else s2
  if x.line = s.beam.vactStart && (canvasRow s x.line).isSome && (portView s3 b p).spanW p ≠ 0 then wbFrameStart s3 b p
  else s3

/-- The output side of a port that has stopped (R58, R190): nothing leaves, and nothing is counted. -/
def outStop (s : State) (b p : Nat) : State :=
  s.setOut b p { s.out b p with groups := [], nextG := 0, sentG := 0, due := [], tap1 := [], tap0 := [], lit := 0 }

/-! ### Collision report -/

/-- Order of detections of closed lines (R145): line, column, then the pair. -/
def foundBefore (a z : Nat × Nat × CollEntry) : Bool :=
  let k := fun (t : Nat × Nat × CollEntry) => ((t.1 * 2 ^ 16 + t.2.1) * 2 ^ 17 + t.2.2.x) * 2 ^ 24 + t.2.2.i * 2 ^ 12 + t.2.2.j
  k a ≤ k z

/-- Handle one detection (R145). -/
def detect (v : View) (s : State) (e : CollEntry) : State :=
  let b := v.b
  let c := s.collOf b
  let grp := fun i => fld (v.w (0xE0000 + 16 * i)) 29 24
  let c1 := { c with ghit := natSet (natSet c.ghit (grp e.i)) (grp e.j) }
  if c.list.any (fun d => d.i = e.i && d.j = e.j) then s.setColl b c1
  else if c.list.length < 256 then s.setColl b { c1 with list := c.list ++ [e] }
  else (s.setColl b { c1 with ovf := min (2 ^ 32 - 1) (c.ovf + 1) }).orReg (baddr b 0x1800C) 0x40

/-- The detections of the report's frame on lines that satisfy `done` are taken, in order. -/
def takeFound (s : State) (b : Nat) (done : Nat → Bool) : State :=
  let c := s.collOf b
  let mine := fun (t : Nat × Nat × CollEntry) => t.1 = c.frame && done t.2.1
  let sorted := (c.found.filter mine).foldl (fun l t =>
    (l.filter (fun u => foundBefore u t)) ++ [t] ++ (l.filter (fun u => !foundBefore u t))) []
  sorted.foldl (fun s t => detect ((lineViewOf s b (t.1, t.2.1)).getD (s.viewNow b)) s t.2.2)
    (s.setColl b { c with found := c.found.filter (fun t => !mine t) })

/-- The working report closes (R146). -/
def collClose (s : State) (b : Nat) (cut : Bool) : State :=
  let c := s.collOf b
  let s1 := s.setColl b { c with list := [], ovf := 0, ghit := 0, under := false, depth := false, due := false }
  if bit (s.breg b 0x18000) 1 then s1.orReg (baddr b 0x1800C) 0x100
  else
    let r := fun (s : State) o n => s.setReg (baddr b o) (wd n)
    let s2 := r s1 0x18030 (b2n cut * 2 ^ 18 + b2n c.depth * 2 ^ 17 + b2n c.under * 2 ^ 16 + c.list.length)
    let s3 := r (r (r s2 0x18034 c.ovf) 0x18038 (c.frame % 2 ^ 32)) 0x1803C (c.frame / 2 ^ 32)
    let s4 := r (r s3 0x18040 (c.ghit % 2 ^ 32)) 0x18044 (c.ghit / 2 ^ 32)
    let s5 := (upto 256).foldl (fun s k =>
      match c.list[k]? with
      | some e => r (r s (0x19000 + 8 * k) (e.j * 2 ^ 16 + e.i)) (0x19004 + 8 * k) (e.y * 2 ^ 17 + e.x)
      | none => r (r s (0x19000 + 8 * k) 0) (0x19004 + 8 * k) 0) s4
    s5.orReg (baddr b 0x1800C) 0x80

/-- Where the report of frame `f` closes, by the dimensions in force (R146). -/
def collCloseAt (bm : Beam) (f : Nat) : Nat × Nat :=
  let k := bm.vactStart + bm.vact + 2
  if k < bm.vtotal then (f, k) else ((f + 1) % 2 ^ 48, k % max 1 bm.vtotal)

/-- A due report at a package line start (R146): it closes at its position; after a cut that passed over it, at once. `f0`
is the frame of the line before. -/
def collDue (s : State) (b f0 : Nat) : State :=
  let bm := s.beam
  let ended := decide (bm.line = 0)
  let c := s.collOf b
  let close := if !c.due then c.close
    else if ended && c.close.1 = (f0 + 1) % 2 ^ 48 then (bm.frame, c.close.2)
    else if c.frame = bm.frame then collCloseAt bm bm.frame else c.close
  let s1 := s.setColl b { c with close := close }
  if !c.due then s1
  else if close = (bm.frame, bm.line) then collClose (takeFound s1 b (fun _ => true)) b false
  else if ended && close.1 = f0 && f0 ≠ bm.frame then collClose (takeFound s1 b (fun _ => true)) b true
  else takeFound s1 b (fun l => if c.frame = bm.frame then l + 1 < bm.line else bm.line ≠ 0)

/-- The sprite plane at a package line start, the counters on the new line (R145, R146): `f0` is the frame of the line
before. A report starts with the first active line after the last one closed. -/
def collLine (s : State) (f0 : Nat) : State :=
  let bm := s.beam
  s.eachBillet (fun s b =>
    let s1 := collDue s b f0
    let c := s1.collOf b
    let s2 := if (canvasRow s bm.line).isSome && !c.due then
        s1.setColl b { c with due := true, frame := bm.frame, close := collCloseAt bm bm.frame }
      else s1
    if bm.line = 0 then
      let c3 := s2.collOf b
      (s2.setReg (baddr b 0x18028) (wd (c3.peakVis * 2 ^ 16 + c3.peakPix))).setColl b { c3 with peakVis := 0, peakPix := 0 }
    else s2)

/-- Cut-through margins at a package frame start (R170). -/
def ctFrameStart (s : State) : State :=
  s.eachBillet (fun s b => (upto 4).foldl (fun s n =>
    let x := s.video b n
    let m := if vidCut x.cfg then x.margin.getD 0 else 0
    (s.setReg (vaddr b n 0x5C) (wd (narrow 32 m))).setVideo b n { x with margin := none }) s)

end Sys2Proof.Machine
end

