-- ==== Sys2Proof/Machine/Timers.lean ====
section
/-! DEFINITION. The tick, compare channels and capture channels (R443-R455). -/

namespace Sys2Proof.Machine

/-! ### The tick -/

/-- The tick `n` forge cycles ago (R453), at the present rate and without the last step if it came since. -/
def tickBack (s : State) (n : Nat) : Nat :=
  let back : Int := (tickFull s : Int) - n * ((0xD5555555 : Int) + tdiv (tickAdj s * 0xD5555555) (2 ^ 32)) - ((n + 2 - s.tickCtl.phase) / 3 : Nat)
  let t := (back / 2 ^ 32 % 2 ^ 64).toNat
  if s.now < s.tickCtl.lastAt + n then (t + 2 ^ 64 - s.tickCtl.lastBy) % 2 ^ 64 else t

/-- A step is accepted (R445): it applies at least 8 forge cycles later, in order of acceptance. -/
def tickStepAdd (s : State) (by' : Nat) : State :=
  { s with tickCtl := { s.tickCtl with steps := s.tickCtl.steps ++ [(s.now + 8, by' % 2 ^ 64)] } }

/-- TICK_STEP_HI_WRITE (R445). -/
def tickStepHi (s : State) (v : Word) : State := { s with tickCtl := { s.tickCtl with hi := v } }

def execTickStepHiWrite (v : Word) (s : State) : Out State := .next (tickStepHi s v)

/-- TICK_STEP_LO_WRITE (R445): the held high half is used and returns to 0. -/
def tickStepLo (s : State) (v : Word) : State :=
  tickStepAdd (tickStepHi s 0#32) (s.tickCtl.hi.toNat * 2 ^ 32 + v.toNat)

def execTickStepLoWrite (v : Word) (s : State) : Out State := .next (tickStepLo s v)

/-- TICK_STEP_APPLY (R445): the oldest accepted step is added to the integer part. -/
def tickStepApply (s : State) : State :=
  match s.tickCtl.steps with
  | [] => s
  | (_, d) :: rest =>
    let ctl := { s.tickCtl with steps := rest, lastAt := s.now, lastBy := d }
    let s1 : State := { s with tick := (s.tick + d) % 2 ^ 64, tickCtl := ctl }
    tickCross (s1.orReg 0xA081C 1) s.tick

/-- TICK_STEP_APPLY: no earlier than the cycle in which the step is due. -/
def execTickStepApply (s : State) : Out State :=
  .next (match s.tickCtl.steps with
    | [] => s
    | (due, _) :: _ => atInstant (fun _ => due) tickStepApply s)

/-- A read of TICK_LO latches the high half (R447). -/
def tickLatch (s : State) (who : Who) (b : Nat) : State × Word :=
  (s.latch who b (baddr b 0xA0804) (wd (s.tick / 2 ^ 32)), wd s.tick)

/-- TICK_LATCH_READ (R447). -/
def execTickLatchRead (who : Who) (b : Nat) (s : State) : Out State :=
  .next (if s.present b then (tickLatch s who b).1 else s)

/-! ### Compare channels -/

def State.compare (s : State) (b k : Nat) : Compare := Tbl.get (fun _ => Compare.init) s.compares (64 * b + k)

def State.setCompare (s : State) (b k : Nat) (x : Compare) : State :=
  { s with compares := Tbl.set (fun _ => Compare.init) s.compares (64 * b + k) x }

def cmpAddr (b k o : Nat) : Nat := baddr b (0xA1000 + 0x20 * k + o)

/-- PERIOD and DUTY as written, with the least period (R449). -/
def perWritten (s : State) (b k : Nat) : Nat := max 2 (s.reg (cmpAddr b k 0xC)).toNat
def dutyWritten (s : State) (b k : Nat) : Nat := (s.reg (cmpAddr b k 0x10)).toNat

/-- The channel is armed in the MODE of CTRL (R448). -/
def cmpArm (s : State) (b k : Nat) : State :=
  let x := s.compare b k
  s.setCompare b k { x with period := bit (s.reg (cmpAddr b k 0)) 30, armed := true, running := false, fired := false, count := 0 }

/-- The channel stops (R451). -/
def cmpHalt (s : State) (b k : Nat) : State :=
  let x := s.compare b k
  s.setCompare b k { x with armed := false, running := false, fired := false, count := 0 }

/-- A write of CTRL (R448, R451). -/
def cmpCtrl (s : State) (b k : Nat) (v : Word) : State :=
  let s1 := s.setReg (cmpAddr b k 0) (v &&& 0xF0000000#32)
  if bit v 31 then cmpArm s1 b k else cmpHalt s1 b k

/-- A write of T_LO (R448): T is taken with the held T_HI, and an enabled channel is armed. -/
def cmpTlo (s : State) (b k : Nat) (v : Word) : State :=
  let s1 := s.setReg (cmpAddr b k 4) v
  let s2 := s1.setCompare b k { s1.compare b k with t := (s.reg (cmpAddr b k 8)).toNat * 2 ^ 32 + v.toNat }
  if bit (s.reg (cmpAddr b k 0)) 31 then cmpArm s2 b k else s2

/-- A write of PERIOD or DUTY (R450): at once with IMM = 1 or in the cycle of a wrap. -/
def cmpShadow (s : State) (b k o : Nat) (v : Word) : State :=
  let s1 := s.setReg (cmpAddr b k o) v
  let x := s1.compare b k
  if bit (s.reg (cmpAddr b k 0)) 29 || x.wrapAt = s.now + 1 then
    s1.setCompare b k (if o = 0xC then { x with per := perWritten s1 b k } else { x with duty := dutyWritten s1 b k })
  else s1

/-- COMPARE_ARM (R448): a CTRL write with EN = 1 (`r` = 0) or a T_LO write (`r` = 4). -/
def execCompareArm (b k r : Nat) (v : Word) (s : State) : Out State :=
  .next (
    if s.present b && k < 64 then
      (if r = 0 && bit v 31 then cmpCtrl s b k v else if r = 4 then cmpTlo s b k v else s)
    else s)

/-- COMPARE_STOP (R451): a CTRL write with EN = 0. -/
def execCompareStop (b k r : Nat) (v : Word) (s : State) : Out State :=
  .next (if s.present b && k < 64 && r = 0 && !bit v 31 then cmpCtrl s b k v else s)

/-- Each firing (R298, R451). -/
def cmpFired (s : State) (b k bits' : Nat) : State :=
  tngSignal (tallySource (pulseIrq (s.orReg (cmpAddr b k 0x18) bits') b (112 + k)) b (144 + k)) b 1 k

/-- The counter starts a period (R449, R450): the values written before govern it. -/
def cmpBegin (s : State) (b k : Nat) : State :=
  s.setCompare b k { s.compare b k with armed := false, running := true, count := 0, per := perWritten s b k,
                                        duty := dutyWritten s b k, wrapAt := s.now + 1 }

/-- An armed channel whose T the tick has reached fires (R448, R449). -/
def cmpFire (s : State) (b k : Nat) : State :=
  let x := s.compare b k
  if x.armed && x.t ≤ s.tick then
    (if x.period then cmpFired (cmpBegin s b k) b k 1
     else cmpFired (s.setCompare b k { x with armed := false, fired := true }) b k 3)
  else s

/-- COMPARE_FIRE (R448): in the first forge cycle in which the tick reaches T. -/
def execCompareFire (b k : Nat) (s : State) : Out State :=
  .next (if s.present b && k < 64 && (s.compare b k).armed then
    atInstant (fun s => s.now + cyclesTo s (s.compare b k).t) (fun s => cmpFire s b k) s else s)

/-- The count reaches PERIOD at this growth of the tick (R449, R450). -/
def cmpWrap (s : State) (b k : Nat) : State :=
  let x := s.compare b k
  if x.running && x.per ≤ x.count + 1 then cmpFired (cmpBegin s b k) b k (if x.per ≤ x.count then 5 else 1) else s

/-- Forge cycles until the COUNT of a running channel would reach PERIOD (R449). -/
def cmpLeft (s : State) (x : Compare) : Nat := if x.per ≤ x.count + 1 then 0 else cyclesTo s (s.tick + (x.per - x.count))

/-- COMPARE_WRAP (R449): in the cycle in which COUNT would reach PERIOD. -/
def execCompareWrap (b k : Nat) (s : State) : Out State :=
  .next (if s.present b && k < 64 && (s.compare b k).running then
    atInstant (fun s => s.now + cmpLeft s (s.compare b k)) (fun s => cmpWrap s b k) s else s)

/-- The channel's output after OINV (R448, R449, R451). -/
def cmpOut (s : State) (b k : Nat) : Bool :=
  let x := s.compare b k
  let v := if x.period then x.running && decide (x.count < x.duty) else x.fired
  v != bit (s.reg (cmpAddr b k 0)) 28

/-- TIM_CMPk_STAT as a read shows it. -/
def cmpStatView (s : State) (b k : Nat) : Word :=
  let x := s.compare b k
  (s.reg (cmpAddr b k 0x18) &&& 7#32) |||
    wd (b2n (cmpOut s b k) * 0x200 + b2n (if x.period then x.running else x.armed) * 0x100)

/-- The level of the legacy port's pixel clock (R188): low while it idles. Data changes at the start of each pixel
period, on the edge PCLK_POL names; the clock is high for half of it (log entry 50). -/
def legacyClock (s : State) (b : Nat) (x : Port) (run : Bool) : Bool :=
  run && ((s.now - x.lineAt) * 2 * x.cfg.hTotal / max 1 (4 * portSpan s x) % 2 = 1) != bit (s.breg b 0x30030) 3

/-- What the pin's function drives, before INV and OD (R432); LEGACY from the legacy port (R188): idle signals stand at
their inactive level (R189). -/
def pinDriven (s : State) (b n : Nat) : Option Bool :=
  let w := pinCfg s b n
  let sel := fld w 8 3
  let x := s.pin b n
  match funcOf b n w with
  | 1 => if x.oe then some x.latch else none
  | 2 => some (cmpOut s b sel)
  | 3 => some (beamLevel s b (if sel / 32 % 2 = 1 then 4 else sel / 8 % 4) (sel % 8))
  | 4 =>
    let l := s.legacyOf b
    let p := s.port b l.port
    let c := p.cfg
    if n < 24 then some (l.run && p.de && l.rgb.testBit n)
    else if n = 24 then some ((l.run && p.hs) != c.hsPol)
    else if n = 25 then some ((l.run && p.vs) != c.vsPol)
    else if n = 26 then some ((l.run && p.de) != c.dePol)
    else some (legacyClock s b p l.run)
  | _ => none

/-- The level the pin's driver puts on the pad, where it drives (R431, R433): in a switch the park level in the BRK cycles
after its first (R435). -/
def pinDrives (s : State) (b n : Nat) : Option Bool :=
  let w := pinCfg s b n
  let x := s.pin b n
  let k := s.now + x.brk + 3 - x.swEnd
  if !vioOk s b (n / 16) then none
  else if pinSw s x && k < x.brk + 2 then
    (if k = 0 || x.brk < k then none
     else match x.park with
      | 1 => some false
      | 2 => some true
      | _ => none)
  else match x.sleep with
    | some .low => some false
    | some .high => some true
    | some .highZ => none
    | none =>
      match pinDriven s b n with
      | none => none
      | some v =>
        if funcOf b n w = 4 then some v
        else
          let v' := v != bit w 14
          if bit w 15 && v' then none else some v'

/-! ### Capture channels -/

def State.capture (s : State) (b c : Nat) : Capture := Tbl.get (fun _ => Capture.init) s.captures (16 * b + c)

def State.setCapture (s : State) (b c : Nat) (x : Capture) : State :=
  { s with captures := Tbl.set (fun _ => Capture.init) s.captures (16 * b + c) x }

def capAddr (b c o : Nat) : Nat := baddr b (0xA1800 + 0x20 * c + o)

/-- The synchronised level a channel watches (R452). -/
def capInput (s : State) (b c : Nat) : Bool :=
  let n := fld (s.reg (capAddr b c 0)) 5 0
  n < 48 && (s.pin b n).sync

/-- Record a capture (R453, R454) with the given LAG. -/
def capRecord (s : State) (b c lag : Nat) : State :=
  let r := s.reg (capAddr b c 0)
  let t := stampOf s b (if bit r 23 then 4 else fld r 21 20)
  let x := s.capture b c
  let s1 := s.setCapture b c { x with tick := tickBack s lag, dot := t.1, line := t.2.1, frame := t.2.2, lag := lag, recAt := s.now + 1 }
  let s2 := if bit r 30 then s1.setReg (capAddr b c 0) (setBit r 29 false) else s1
  let st := setFld (s2.reg (capAddr b c 0x1C)) 31 8 lag
  tallySource (pulseIrq (s2.setReg (capAddr b c 0x1C) (st ||| 2#32)) b (176 + c)) b (208 + c)

/-- A capture falls due (R454). -/
def capTake (s : State) (b c lag : Nat) : State :=
  let r := s.reg (capAddr b c 0)
  let full := bit (s.reg (capAddr b c 0x1C)) 1
  if bit r 30 && !bit r 29 then s
  else
    let s1 := if full then s.orReg (capAddr b c 0x1C) 4 else s
    if full && !bit r 28 then s1 else capRecord s1 b c lag

/-- The filter accepts the opposite level (R452): the change is selected and counted by the prescaler. -/
def capAccept (s : State) (b c lag : Nat) : State :=
  let r := s.reg (capAddr b c 0)
  let x := s.capture b c
  let up := !x.level
  let e := fld r 27 26
  let s1 := s.setCapture b c { x with level := up }
  if (e = 1 && up) || (e = 2 && !up) || e = 3 then
    let n := x.changes + 1
    if fld (s.reg (capAddr b c 4)) 23 16 < n then capTake (s1.setCapture b c { x with level := up, changes := 0 }) b c lag
    else s1.setCapture b c { x with level := up, changes := n }
  else s1

/-- Least and greatest LAG of the channel's filter (R452, R453), and a free value within them where the pin's own
filter hides the edge. -/
def capFreeLag (s : State) (b c : Nat) : Nat :=
  let f := s.reg (capAddr b c 4)
  let n := max 1 (fld f 7 0)
  let d := 2 ^ fld f 11 8
  (freeWithin s.freeNat ((n - 1) * d + 2) (n * d + 1)).toNat

/-- An enabled channel's filter accepts a new level of its pin. -/
def capEvent (s : State) (b c : Nat) : State :=
  let r := s.reg (capAddr b c 0)
  let n := fld r 5 0
  let p := s.pin b n
  if !bit r 31 || 48 ≤ n then s
  else if p.sync ≠ (s.capture b c).level then capAccept s b c (s.now - p.edgeAt)
  else if fld (pinCfg s b n) 13 11 ≠ 0 && vioOk s b (n / 16) && !p.switching then capAccept s.nextFree b c (capFreeLag s b c)
  else s

/-- The forge cycle in which the channel's filter accepts the level its pin has taken (R452): FLT samples of it, the first
no earlier than the synchroniser shows it. -/
def capAt (s : State) (b c : Nat) : Nat :=
  let f := s.reg (capAddr b c 4)
  let d := 2 ^ fld f 11 8
  let first := (s.pin b (fld (s.reg (capAddr b c 0)) 5 0)).edgeAt + 2
  ((first + d - 1) / d + (max 1 (fld f 7 0) - 1)) * d

/-- CAPTURE (R452). -/
def execCapture (b c : Nat) (s : State) : Out State :=
  .next (if s.present b && c < 16 then
    (let r := s.reg (capAddr b c 0)
     if bit r 31 && fld r 5 0 < 48 && capInput s b c ≠ (s.capture b c).level
     then atInstant (fun s => capAt s b c) (fun s => capEvent s b c) s
     else capEvent s b c)
    else s)

/-- A write of CAPc_CTRL or CAPc_FILT (R452): EN written 1 or a new PIN loads the filter and edge selection; EN or
ARM written 1 restarts the prescaler. -/
def capWrite (s : State) (b c r : Nat) (v : Word) : State :=
  if r = 4 then s.setReg (capAddr b c 4) (v &&& 0xFF0FFF#32)
  else
    let old := s.reg (capAddr b c 0)
    let s1 := s.setReg (capAddr b c 0) ((v &&& 0xDCB0003F#32) ||| ((old ||| v) &&& 0x20000000#32))
    let x := s1.capture b c
    let x1 := if bit v 31 || fld old 5 0 ≠ fld v 5 0 then { x with level := capInput s1 b c } else x
    s1.setCapture b c (if bit v 31 || bit v 29 then { x1 with changes := 0 } else x1)

/-- CAPTURE_CHANNEL_WRITE (R452): `r` is 0 for CTRL, 4 for FILT. -/
def execCaptureChannelWrite (b c r : Nat) (v : Word) (s : State) : Out State :=
  .next (if s.present b && c < 16 && (r = 0 || r = 4) then capWrite s b c r v else s)

/-- A read of CAPc_TLO latches the record (R455). -/
def capLatch (s : State) (who : Who) (b c : Nat) : State × Word :=
  let x := s.capture b c
  let a := capAddr b c
  let t := (x.dot, x.line, x.frame)
  let s1 := ((s.latch who b (a 0xC) (wd (x.tick / 2 ^ 32))).latch who b (a 0x10) (stampDl t)).latch who b (a 0x14) (stampFlm t)
  ((s1.latch who b (a 0x18) (stampFh t)).latch who b (a 0x1C) (wd (x.lag * 256)), wd x.tick)

/-- CAPTURE_LATCH_READ (R455). -/
def execCaptureLatchRead (who : Who) (b c : Nat) (s : State) : Out State :=
  .next (if s.present b && c < 16 then (capLatch s who b c).1 else s)

end Sys2Proof.Machine
end

