-- ==== Sys2Proof/Machine/Lanes.lean ====
section
/-! DEFINITION. Lanes: modes, transmit buffers, checks and headers, raster senders, the firmware rings
(R371-R388, R400). -/

namespace Sys2Proof.Machine

/-! ### Checks -/

/-- One bit of a reflected CRC-32 (IEEE 802.3). -/
def crcBit (c : Nat) : Nat := if c % 2 = 1 then (c / 2) ^^^ 0xEDB88320 else c / 2

/-- One byte of the CRC-32 of R301. -/
def crcByte (c : Nat) (v : Byte) : Nat :=
  crcBit (crcBit (crcBit (crcBit (crcBit (crcBit (crcBit (crcBit (c ^^^ v.toNat))))))))

/-- The running CRC-32 over bytes. -/
def crcRun (c : Nat) (l : List Byte) : Nat := l.foldl crcByte c

/-- The CRC-32 of R301. -/
def crc32 (l : List Byte) : Nat := crcRun 0xFFFFFFFF l ^^^ 0xFFFFFFFF

/-- One bit of the CRC-16 of R386. -/
def crc16Bit (c : Nat) : Nat := if c / 2 ^ 15 % 2 = 1 then (c * 2 % 2 ^ 16) ^^^ 0x1021 else c * 2 % 2 ^ 16

/-- The HCRC of R386. -/
def crc16 (l : List Byte) : Nat :=
  l.foldl (fun c v =>
    crc16Bit (crc16Bit (crc16Bit (crc16Bit (crc16Bit (crc16Bit (crc16Bit (crc16Bit (c ^^^ (v.toNat * 2 ^ 8)))))))))) 0xFFFF

/-- Big-endian 16-bit words added in ones' complement. -/
def sum16 : Nat → List Byte → Nat
  | acc, [] => acc
  | acc, [a] => let t := acc + a.toNat * 256; t % 2 ^ 16 + t / 2 ^ 16
  | acc, a :: c :: t => let n := acc + a.toNat * 256 + c.toNat; sum16 (n % 2 ^ 16 + n / 2 ^ 16) t

/-- The Internet checksum of bytes. -/
def inetSum (l : List Byte) : Nat := 0xFFFF - sum16 0 l

/-- Bytes of zeros. -/
def zeros (n : Nat) : List Byte := List.replicate n 0

/-- Values of given widths packed MSB first, padded with zero bits to whole bytes. -/
def packBits (l : List (Nat × Nat)) : List Byte :=
  let n := (l.map (·.2)).sum
  let v := l.foldl (fun acc e => acc * 2 ^ e.2 + e.1 % 2 ^ e.2) 0
  let bytes := (n + 7) / 8
  beBytes bytes (v * 2 ^ (8 * bytes - n))

/-! ### Lanes -/

def lnk (b o : Nat) : Nat := baddr b (0x90000 + o)
def laneReg (b l o : Nat) : Nat := lnk b (0x40 * l + o)

def State.lane (s : State) (b l : Nat) : Lane := Tbl.get (fun _ => Lane.init) s.lanes (4 * b + l)

def State.setLane (s : State) (b l : Nat) (x : Lane) : State :=
  { s with lanes := Tbl.set (fun _ => Lane.init) s.lanes (4 * b + l) x }

/-- May this lane run the twin link (R371)? -/
def twinLane (b l : Nat) : Bool := b < 2 && (l = 2 || l = 3)

/-- The mode a lane runs (R371): 0 while EN = 0. -/
def laneMode (s : State) (b l : Nat) : Nat :=
  let c := s.reg (laneReg b l 0)
  let m := fld c 3 1
  if !bit c 0 then 0 else if m = 7 || (m = 6 && !twinLane b l) then 0 else m

/-- LINK_UP in an Ethernet mode (R373). -/
def etherUp (s : State) (b l : Nat) : Bool :=
  bit (s.reg (laneReg b l 4)) 2 && 1 ≤ laneMode s b l && laneMode s b l ≤ 5

/-- A write of LNK_Ll_CTRL (R371, R372): a change of what the lane runs takes the link down and training starts. -/
def laneCtrl (s : State) (b l : Nat) (v : Word) : State :=
  let old := s.reg (laneReg b l 0)
  let w := v &&& 0x37F#32
  let s1 := s.setReg (laneReg b l 0) w
  let s2 := if fld w 3 1 = 6 && !twinLane b l then s1.orReg (laneReg b l 4) 0x800 else s1
  if fld old 6 0 = fld w 6 0 then s2
  else
    let s3 := if bit (s2.reg (laneReg b l 4)) 2 then s2.orReg (laneReg b l 4) 0x100 else s2
    s3.clrReg (laneReg b l 4) (if laneMode s3 b l = 0 then 0xF else 0xE)

/-- The link comes up or is lost (R372). -/
def laneLink (s : State) (b l : Nat) (up : Bool) : State :=
  let a := laneReg b l 4
  if laneMode s b l = 0 then s
  else
    let s1 := if bit (s.reg a) 2 ≠ up then s.orReg a 0x100 else s
    if up then s1.orReg a 0xF else s1.clrReg a 0xE

/-- The lane's MAC (R376). -/
def laneMac (s : State) (b l : Nat) : Nat := fld (s.reg (laneReg b l 0x10)) 15 0 * 2 ^ 32 + (s.reg (laneReg b l 0xC)).toNat

/-- A frame with its padding and FCS (R373). -/
def sealFrame (l : List Byte) : List Byte :=
  let f := l ++ zeros (60 - l.length)
  f ++ leBytes 4 (crc32 f)

/-- Bytes in a transmit buffer. -/
def laneUsed (x : Lane) : Nat := (x.queue.map (fun f => f.data.length)).sum

/-- TXDROP of a lane (R373). -/
def laneDrop (s : State) (b l : Nat) : State := (s.orReg (laneReg b l 4) 0x400).addReg (laneReg b l 0x24) 1

/-- TXDROP of a frame's sender (R373). -/
def senderDrop (s : State) (stat : Nat) : State := if stat = 0 then s else s.orReg stat 2

/-- A frame of the sender with STAT register `stat` is given to a lane (R373): dropped whole without room or link. -/
def laneSend (s : State) (b l cls stat : Nat) (f : List Byte) : State × Bool :=
  let x := s.lane b l
  if etherUp s b l && laneUsed x + f.length ≤ 262144 then
    (s.setLane b l { x with queue := x.queue ++ [⟨cls, f, stat⟩] }, true)
  else (senderDrop (laneDrop s b l) stat, false)

/-- Data rate of the Ethernet mode a lane runs, Gbit/s (R371). -/
def laneRate (s : State) (b l : Nat) : Nat := match laneMode s b l with
  | 3 => 25
  | 4 => 25
  | 5 => 10
  | _ => 100

/-- Forge cycles a frame takes on its lane with the preamble and 12 byte times of gap (R373). -/
def frameCycles (s : State) (b l : Nat) (f : TxFrame) : Nat :=
  ((8 + f.data.length + 12) * 96 + 10 * laneRate s b l - 1) / (10 * laneRate s b l)

/-- Entries of a ring and the hearth offset of entry `i` (R378). -/
def ringSize (cfg : Word) : Nat := 2 ^ min 9 (fld cfg 3 0)
def ringAt (cfg : Word) (i : Nat) : Nat := fld cfg 25 16 * 2048 + i % ringSize cfg * 2048

/-- HEAD of the transmit ring advances (R379). -/
def fwAdvance (s : State) (b : Nat) : State :=
  let n := ringSize (s.reg (lnk b 0x3008))
  let a := lnk b 0x300C
  s.setRf a 24 16 ((fld (s.reg a) 24 16 % n + 1) % n)

/-- The entry at HEAD is sent (R378, R379): its tick and DONE, then HEAD. -/
def fwSent (s : State) (b : Nat) : State :=
  let at' := ringAt (s.reg (lnk b 0x3008)) (fld (s.reg (lnk b 0x300C)) 24 16)
  let w1 := leNat (s.hread b (at' + 4) 4)
  (fwAdvance ((s.hwrite b (at' + 8) (leBytes 8 s.tick)).hwrite b (at' + 4) (leBytes 4 (w1 ||| 1))) b).orReg (lnk b 0x3014) 4

/-- The next frame in the service order (R373). -/
def nextFrame (x : Lane) : Option TxFrame :=
  match [0, 1, 2, 3].filterMap (fun c => x.queue.find? (fun f => f.cls = c)) with
  | [] => none
  | f :: _ => some f

/-- A Delay_Req starts: its tick is t3 (R403, R404). -/
def ptpSent (s : State) : State :=
  match s.ptp.req with
  | some (q, none, r) => { s with ptp := { s.ptp with req := some (q, some s.tick, r) } }
  | _ => s

/-- The lane starts its next frame (R373). A frame of the firmware ring is sent by it, or leaves the ring unsent. -/
def laneStart (s : State) (b l : Nat) : State :=
  let x := s.lane b l
  match nextFrame x with
  | none => s
  | some f =>
    let rest := x.queue.erase f
    if etherUp s b l then
      let s1 := (s.setLane b l ⟨rest, some f, s.now + frameCycles s b l f⟩).addReg (laneReg b l 0x20) 1
      if f.cls = 0 then ptpSent s1 else if f.cls = 3 then fwSent s1 b else s1
    else
      let s1 := senderDrop (laneDrop (s.setLane b l { x with queue := rest }) b l) f.stat
      if f.cls = 3 then fwAdvance s1 b else s1

/-- TRANSMIT_FRAME_START (R373): once the lane is idle. -/
def execTransmitFrameStart (b l : Nat) (s : State) : Out State :=
  .next (if s.present b && l < 4 && (s.lane b l).queue ≠ [] then
    atInstant (fun s => (s.lane b l).idleAt) (fun s => laneStart s b l) s else s)

/-! ### Addresses and headers -/

/-- The IP address of an address table entry (R377). -/
def entryIp (s : State) (b k : Nat) : Nat :=
  (upto 4).foldl (fun acc w => acc * 2 ^ 32 + (s.reg (lnk b (0x400 + 0x20 * k + 4 * w))).toNat) 0

/-- The MAC of an entry, and whether it is valid. -/
def entryMac (s : State) (b k : Nat) : Nat × Bool :=
  let hi := s.reg (lnk b (0x414 + 0x20 * k))
  (fld hi 15 0 * 2 ^ 32 + (s.reg (lnk b (0x410 + 0x20 * k))).toNat, bit hi 31)

/-- An address held as IPv4 (R377). -/
def isV4 (ip : Nat) : Bool := ip / 2 ^ 32 = 0xFFFF

/-- The destination MAC of an IP packet (R376); none: a unicast address without a MAC. -/
def ipDestMac (s : State) (b k : Nat) : Option Nat :=
  let ip := entryIp s b k
  if isV4 ip && ip % 2 ^ 32 / 2 ^ 28 = 14 then some (0x01005E000000 + ip % 2 ^ 23)
  else if !isV4 ip && ip / 2 ^ 120 = 0xFF then some (0x333300000000 + ip % 2 ^ 32)
  else
    let m := entryMac s b k
    if m.2 then some m.1 else none

/-- An Ethernet header (R375). -/
def etherHead (dst src : Nat) (tag : Option Nat) (etype : Nat) : List Byte :=
  beBytes 6 dst ++ beBytes 6 src ++
    (match tag with
     | some t => beBytes 2 0x8100 ++ beBytes 2 t
     | none => []) ++ beBytes 2 etype

/-- A UDP datagram with its checksum (R376); `pseudo` is the pseudo header. -/
def udpPacket (pseudo : List Byte) (sport dport : Nat) (data : List Byte) : List Byte :=
  let len := 8 + data.length
  let h := fun c => beBytes 2 sport ++ beBytes 2 dport ++ beBytes 2 len ++ beBytes 2 c
  let c := inetSum (pseudo ++ h 0 ++ data)
  h (if c = 0 then 0xFFFF else c) ++ data

/-- An IP packet and its EtherType (R376). -/
def ipPacket (src dst dscp ttl sport dport : Nat) (data : List Byte) : Nat × List Byte :=
  let len := 8 + data.length
  if isV4 dst then
    let u := udpPacket (beBytes 4 src ++ beBytes 4 dst ++ beBytes 2 17 ++ beBytes 2 len) sport dport data
    let h := fun c => beBytes 1 0x45 ++ beBytes 1 (dscp * 4) ++ beBytes 2 (20 + len) ++ beBytes 2 0 ++ beBytes 2 0x4000 ++
      beBytes 1 ttl ++ beBytes 1 17 ++ beBytes 2 c ++ beBytes 4 src ++ beBytes 4 dst
    (0x0800, h (inetSum (h 0)) ++ u)
  else
    let u := udpPacket (beBytes 16 src ++ beBytes 16 dst ++ beBytes 4 len ++ beBytes 4 17) sport dport data
    (0x86DD, beBytes 4 (6 * 2 ^ 28 + dscp * 4 * 2 ^ 20) ++ beBytes 2 len ++ beBytes 1 17 ++ beBytes 1 ttl ++
      beBytes 16 src ++ beBytes 16 dst ++ u)

/-! ### Senders -/

/-- Registers of raster sender p, and of audio sender g, which has the same layout (file 14). -/
def txp (b p o : Nat) : Nat := lnk b (0x2000 + 0x40 * p + o)
def txa (g o : Nat) : Nat := lnk 0 (0x2400 + 0x40 * g + o)

/-- The destination entry of a sender's copy (R385): a shadow's sender with SHALT = 1 uses the alternate. -/
def dstEntry (addr : Word) (alt : Bool) : Nat := if alt then fld addr 14 10 else fld addr 4 0

/-- The copies a sender makes of one packet (R384, R400): lane and address register of A, then of B; and DUALERR. -/
def txCopies (s : State) (base : Nat) : List (Nat × Word × Nat) × Bool :=
  let c := s.reg base
  let v := s.reg (base + 0xC)
  let a := (fld c 25 24, s.reg (base + 4), fld v 11 0)
  if !bit c 29 then ([a], false)
  else if fld c 23 22 = fld c 25 24 then ([a], true)
  else ([a, (fld c 23 22, s.reg (base + 8), fld v 27 16)], false)

/-- The tag of a sender's copy (R375). -/
def txTag (c : Word) (vid : Nat) : Option Nat := if bit c 28 then some (fld c 21 19 * 2 ^ 13 + vid) else none

/-- The frame of an IP copy; none: NOMAC. -/
def ipFrame (s : State) (b base : Nat) (cp : Nat × Word × Nat) (alt : Bool) (data : List Byte) : Option (Nat × List Byte) :=
  let c := s.reg base
  let k := dstEntry cp.2.1 alt
  match ipDestMac s b k with
  | none => none
  | some mac =>
    let ip := ipPacket (entryIp s b (fld cp.2.1 9 5)) (entryIp s b k) (fld c 18 13) (fld c 12 5)
      (fld (s.reg (base + 0x18)) 31 16) (fld cp.2.1 31 16) data
    some (cp.1, sealFrame (etherHead mac (laneMac s b cp.1) (txTag c cp.2.2) ip.1 ++ ip.2))

/-- The RTP header (R382, R398). -/
def rtpHead (s : State) (base : Nat) (m : Bool) (seq ts : Nat) : List Byte :=
  beBytes 1 0x80 ++ beBytes 1 (b2n m * 128 + fld (s.reg (base + 0x18)) 6 0) ++ beBytes 2 (seq % 2 ^ 16) ++
    beBytes 4 (ts % 2 ^ 32) ++ beBytes 4 (s.reg (base + 0x14)).toNat

/-- Give a packet's copies to their lanes (R373, R400): the sender's TXDROP, and its count of packets sent. -/
def sendCopies (s : State) (b base cls : Nat) (copies : List (Nat × List Byte)) : State :=
  let r := copies.foldl (fun (acc : State × Bool) e =>
    let t := laneSend acc.1 b e.1 cls (base + 0x1C) e.2
    (t.1, acc.2 || t.2)) (s, false)
  if r.2 then r.1.addReg (base + 0x28) 1 else r.1

/-! ### Raster senders -/

def State.raster (s : State) (b p : Nat) : RasterTx := Tbl.get (fun _ => RasterTx.init) s.rasterTx (pidx b p)

def State.setRaster (s : State) (b p : Nat) (x : RasterTx) : State :=
  { s with rasterTx := Tbl.set (fun _ => RasterTx.init) s.rasterTx (pidx b p) x }

/-- The part is unpaired or the active part (R387, R412). -/
def partActive (s : State) : Bool := !bit (s.reg 0x802000) 0 || s.quench.active

/-- Is a protocol and OFMT accepted (R380)? -/
def fmtAccepted (proto : Bool) (ofmt : Nat) : Bool :=
  if proto then ofmt = 1 || ofmt = 4 || ofmt = 5 else ofmt ≤ 3

/-- Pixels and bytes of a pgroup (R382, R388). -/
def pgroup (proto : Bool) (ofmt : Nat) : Nat × Nat :=
  if proto then (if ofmt = 4 then (2, 5) else (4, 15))
  else match ofmt with
    | 0 => (1, 3)
    | 1 => (4, 15)
    | 2 => (2, 9)
    | _ => (1, 2)

/-- PIXPP in force, and whether it was adjusted (R381). -/
def pixPerPacket (s : State) (b p : Nat) (proto : Bool) (ofmt : Nat) : Nat × Bool :=
  let (px, by') := pgroup proto ofmt
  let room := if !proto then 8976
    else if isV4 (entryIp s b (fld (s.reg (txp b p 4)) 4 0)) then 8952 else 8932
  let most := room / by' * px
  let n := fld (s.reg (txp b p 0x10)) 12 0
  if n ≠ 0 && n % px = 0 && n ≤ most then (n, false) else (most, true)

/-- The samples of pixels `i` to `i + n` of a line in an OFMT, as values and widths in wire order (R180, R382, R388);
`l` holds the pixels of the line that have left. -/
def wireSamples (ofmt matrix : Nat) (l : List OutPx) (i n : Nat) : List (Nat × Nat) :=
  let px := (l.drop i).take n
  match ofmt with
  | 0 => px.flatMap (fun q => [(to8 q.r, 8), (to8 q.g, 8), (to8 q.b, 8)])
  | 1 => px.flatMap (fun q => [(to10 q.r, 10), (to10 q.g, 10), (to10 q.b, 10)])
  | 2 => px.flatMap (fun q => [(q.r, 12), (q.g, 12), (q.b, 12)])
  | 3 => px.map (fun q => let y := (218 * q.r + 732 * q.g + 74 * q.b + 512) / 1024; (y * 16 + y / 256, 16))
  | 4 =>
    let y := l.map (toYcc matrix)
    (upto ((px.length + 1) / 2)).flatMap (fun k =>
      let j := i + 2 * k
      let c := chromaAt y j
      [(c.1, 10), ((y.getD j (0, 0, 0)).1, 10), (c.2, 10), ((y.getD (j + 1) (0, 0, 0)).1, 10)])
  | _ => px.flatMap (fun q => let t := toYcc matrix q; [(t.2.1, 10), (t.1, 10), (t.2.2, 10)])

/-- Packed pixel data, padded to whole pgroups. -/
def wireData (proto : Bool) (ofmt matrix : Nat) (l : List OutPx) (i n : Nat) : List Byte :=
  let d := packBits (wireSamples ofmt matrix l i n)
  let (px, by') := pgroup proto ofmt
  d ++ zeros ((n + px - 1) / px * by' - d.length)

/-- The Ewetu header (R386-R388). -/
def ewetuHead (s : State) (b p : Nat) (x : RasterTx) (port i n seq : Nat) (last : Bool) (px : List OutPx) : List Byte :=
  let q := s.port b p
  let vs := s.beam.vactStart
  let c := s.reg 0x802000
  let flags := b2n x.active * 2048 + b2n (bit c 0 && bit c 1) * 1024 + b2n last * 512 + b2n (i = 0) * 256 +
    b2n (q.line = vs) * 128 + b2n (q.line + 1 = vs + s.beam.vact || q.line + 1 = s.beam.vtotal) * 64 +
    b2n (px.any (·.blank)) * 32 + b2n (px.any (·.under)) * 16
  let h := beBytes 2 (4096 + flags) ++ beBytes 2 port ++ beBytes 4 (q.frame % 2 ^ 32) ++ beBytes 2 (q.line - vs) ++
    beBytes 2 i ++ beBytes 2 n ++ beBytes 1 (x.ofmt + 1) ++ beBytes 1 0 ++ beBytes 4 seq
  h ++ beBytes 2 (crc16 h) ++ beBytes 2 0

/-- The RFC 4175 payload header of a packet (R382). -/
def rowHead (s : State) (b p i len seq : Nat) : List Byte :=
  beBytes 2 (seq / 2 ^ 16) ++ beBytes 2 len ++ beBytes 2 ((s.port b p).line - s.beam.vactStart) ++ beBytes 2 i

/-- The copies of the packet of pixels `i` to `i + n` of the running line (R382-R386); and NOMAC. -/
def rasterCopies (s : State) (b p i n : Nat) (last : Bool) : List (Nat × List Byte) × Bool :=
  let x := s.raster b p
  let o := s.out b p
  let q := s.port b p
  let base := txp b p 0
  let c := s.reg base
  let seq := (s.reg (base + 0x24)).toNat
  let data := wireData x.proto x.ofmt o.matrix o.tap0 i n
  let alt := x.proto && !x.active && bit c 27
  if x.proto && !x.active && !bit c 27 then ([], false)
  else
    let lastLine := decide (q.line + 1 = s.beam.vactStart + s.beam.vact) || decide (q.line + 1 = s.beam.vtotal)
    let body := rtpHead s base (last && lastLine) seq (x.tick0 * 9 / 100000) ++ rowHead s b p i data.length seq ++ data
    let fs := (txCopies s base).1.map (fun cp =>
      if x.proto then ipFrame s b base cp alt body
      else
        let m := entryMac s b (dstEntry cp.2.1 false)
        if m.2 then
          some (cp.1, sealFrame (etherHead m.1 (laneMac s b cp.1) (txTag c cp.2.2) 0x88B5 ++
            ewetuHead s b p x (fld cp.2.1 31 16) i n seq last ((o.tap0.drop i).take n) ++ data))
        else none)
    (fs.filterMap id, fs.any (·.isNone))

/-- A line as one number, for its packets. -/
def lineTag (s : State) (b p : Nat) : Nat := (s.port b p).frame * 2 ^ 16 + (s.port b p).line

/-- A packet is released (R383). -/
def rasterRelease (s : State) (b p : Nat) (copies : List (Nat × List Byte)) : State :=
  sendCopies s b (txp b p 0) 2 copies

/-- The packet of pixels `i` to `i + n` is ready: built, and released or held for its pacing (R383, R384). -/
def rasterReady (s : State) (b p i n : Nat) (last clamp : Bool) : State :=
  let base := txp b p 0
  let r := rasterCopies s b p i n last
  let trs := fld (s.reg (base + 0x10)) 31 16
  let flags := (if r.2 then 4 else 0) + (if clamp then 16 else 0) + (if (txCopies s base).2 then 8 else 0)
  let s1 := (s.orReg (base + 0x1C) flags).addReg (base + 0x24) 1
  let x := { s1.raster b p with sent := i + n }
  let due := match x.lastRel with
    | none => 4 * s.now
    | some t => if trs = 0 then 4 * s.now else max (4 * s.now) (t + trs)
  let y := { x with lastRel := some due }
  if due ≤ 4 * s.now then rasterRelease (s1.setRaster b p y) b p r.1
  else s1.setRaster b p { y with held := y.held ++ [⟨lineTag s b p, due, r.1⟩] }

/-- Every packet whose last pixel has left is built (R381, R383), or left out where the sender was off as that pixel left;
`fuel` bounds the packets of a line. -/
def rasterFeed (s : State) (b p : Nat) : Nat → State
  | 0 => s
  | fuel + 1 =>
    let x := s.raster b p
    let left := (s.out b p).tap0.length
    let whole := (s.port b p).cfg.hAct
    let k := pixPerPacket s b p x.proto x.ofmt
    let n := min k.1 (whole - x.sent)
    if !x.on || n = 0 || left < x.sent + n then s
    else if !bit (s.reg (txp b p 0)) 31 then rasterFeed (s.setRaster b p { x with sent := x.sent + n }) b p fuel
    else rasterFeed (rasterReady s b p x.sent n (decide (whole ≤ x.sent + n)) k.2) b p fuel

/-- The sender at its port's line start (R380, R382, R424): at the frame start it samples what it sends. -/
def rasterLineStart (s : State) (b p : Nat) : State :=
  let x := { s.raster b p with sent := 0, lastRel := none, active := partActive s }
  if (s.port b p).line ≠ 0 then s.setRaster b p x
  else
    let c := s.reg (txp b p 0)
    let ofmt := (s.out b p).ofmt
    let ok := fmtAccepted (bit c 30) ofmt
    let s1 := if bit c 31 && !ok then s.orReg (txp b p 0x1C) 1 else s
    s1.setRaster b p { x with on := ok, proto := bit c 30, ofmt := ofmt, tick0 := s.tick }

/-- The held packet that is due first. -/
def rasterFirst (x : RasterTx) : Option HeldPacket :=
  x.held.foldl (fun m e => match m with
    | none => some e
    | some f => if e.due < f.due then some e else some f) none

/-- Packets of a line after one released at `t`, each TRS after the one before (R383). -/
def rasterPace (trs line : Nat) : Nat → List HeldPacket → List HeldPacket
  | _, [] => []
  | t, e :: l =>
    if e.line = line then
      let d := max e.due (t + trs)
      { e with due := d } :: rasterPace trs line d l
    else e :: rasterPace trs line t l

/-- The packet that is due first is released, and the line's others keep their distance from it (R383). -/
def rasterNext (s : State) (b p : Nat) : State :=
  let x := s.raster b p
  match rasterFirst x with
  | none => s
  | some e =>
    let rest := rasterPace (fld (s.reg (txp b p 0x10)) 31 16) e.line (4 * s.now) (x.held.erase e)
    let own := rest.filter (fun w => w.line = lineTag s b p)
    let last := if e.line ≠ lineTag s b p then x.lastRel
      else match own.getLast? with
        | some w => some w.due
        | none => some (4 * s.now)
    rasterRelease (s.setRaster b p { x with held := rest, lastRel := last }) b p e.copies

/-- The forge cycle in which the first held packet is due. -/
def rasterDueAt (s : State) (b p : Nat) : Nat :=
  match rasterFirst (s.raster b p) with
  | none => 0
  | some e => (e.due + 3) / 4

/-- RASTER_PACKET_RELEASE (R383): a held packet's interval is over. -/
def execRasterPacketRelease (b p : Nat) (s : State) : Out State :=
  .next (if s.present b && p < 4 && (s.raster b p).held ≠ [] then
    atInstant (fun s => rasterDueAt s b p) (fun s => rasterNext s b p) s else s)

/-! ### Firmware rings -/

/-- A frame goes to the firmware receive ring (R378, R379). -/
def fwReceive (s : State) (b l cls : Nat) (f : List Byte) : State :=
  let cfg := s.reg (lnk b 0x3000)
  let a := lnk b 0x3004
  let n := ringSize cfg
  let head := fld (s.reg a) 24 16
  if (head + 1) % n = fld (s.reg a) 8 0 % n || 2032 < f.length then (s.addReg (lnk b 0x301C) 1).orReg (lnk b 0x3014) 2
  else
    let h := leBytes 4 (cls * 2 ^ 20 + l * 2 ^ 16 + f.length) ++ leBytes 4 0 ++ leBytes 8 s.tick
    ((s.hwrite b (ringAt cfg head) (h ++ f)).setRf a 24 16 ((head + 1) % n)).orReg (lnk b 0x3014) 1

/-- Does the ring's entry at HEAD wait in a lane for its start? -/
def fwWaiting (s : State) (b : Nat) : Bool := (upto 4).any (fun l => (s.lane b l).queue.any (fun f => f.cls = 3))

/-- Is a lane idle, with nothing waiting before a firmware frame (R373)? -/
def laneFree (s : State) (b l : Nat) : Bool :=
  (s.lane b l).idleAt ≤ s.now && (s.lane b l).queue.all (fun f => f.cls = 3)

/-- The transmit ring's entry at HEAD goes to its lane (R379) and is sent at once on an idle one, else once the lane starts
it; a bad one is skipped. -/
def fwSend (s : State) (b : Nat) : State :=
  let cfg := s.reg (lnk b 0x3008)
  let a := lnk b 0x300C
  let n := ringSize cfg
  let head := fld (s.reg a) 24 16 % n
  if head = fld (s.reg a) 8 0 % n || fwWaiting s b then s
  else
    let at' := ringAt cfg head
    let w0 := leNat (s.hread b at' 4)
    let len := w0 % 2 ^ 16
    if 2032 < len then (fwAdvance s b).orReg (lnk b 0x3014) 8
    else
      let l := bits w0 17 16
      let r := laneSend s b l 3 0 (sealFrame (s.hread b (at' + 16) len))
      if !r.2 then fwAdvance r.1 b else if laneFree s b l then laneStart r.1 b l else r.1

/-- FIRMWARE_TX_SEND (R379). -/
def execFirmwareTxSend (b : Nat) (s : State) : Out State := .next (if s.present b then fwSend s b else s)

end Sys2Proof.Machine
end

