-- ==== Sys2Proof/Machine/Tuyere.lean ====
section
/-! DEFINITION. Tuyere: the sample frame, voices, the program, buses, sinks, converters and TDM ports (R338-R369). -/

namespace Sys2Proof.Machine

/-- Rounded to nearest. -/
def nearest (n : Int) (d : Nat) : Int := (2 * n + d) / (2 * (d : Int))

/-! ### Converters (R352) -/

def State.conv (s : State) (k : Nat) : Conv := Tbl.get (fun _ => Conv.init) s.tuy.convs k

def State.setConv (s : State) (k : Nat) (x : Conv) : State :=
  { s with tuy := { s.tuy with convs := Tbl.set (fun _ => Conv.init) s.tuy.convs k x } }

/-- A converter starts settling: MUTE. A stream group's runs at 48 kHz (R351). -/
def convStart (s : State) (k : Nat) : State :=
  let x := s.conv k
  tuyEvt (s.setConv k { x with age := some 0, settled := false, lost := false,
                               hz := if k / 8 % 2 = 1 then 48000 else x.hz }) 0x80

/-- Is a converter past its mute? -/
def convLive (x : Conv) : Bool :=
  !x.lost && !x.rateErr && (match x.age with
    | some a => 6144 ≤ a
    | none => false)

/-- TUY_CVk_STAT (file 13). -/
def convWord (x : Conv) : Word :=
  wd (b2n x.settled * 2 ^ 31 + b2n (!convLive x && (x.age.isSome || x.lost || x.rateErr)) * 2 ^ 30 + b2n x.rateErr * 2 ^ 29 +
    b2n x.lost * 2 ^ 28 + x.hz % 2 ^ 18)

/-- CONVERTER_SETTLED (R352): the mute of 6,144 frames and the fade-in of 96 have ended. -/
def convSettled (s : State) (k : Nat) : State :=
  let x := s.conv k
  if s.tuy.running && 6240 ≤ x.age.getD 0 && !x.settled && !x.lost && !x.rateErr then
    tuyEvt (s.setConv k { x with settled := true }) 0x100
  else s

def execConverterSettled (k : Nat) (s : State) : Out State := .next (if k < 32 then convSettled s k else s)

/-- A flow or a frame sync is seen: a lost input returns and settles (R352). -/
def convSeen (s : State) (k : Nat) : State := if s.tuy.running && (s.conv k).lost then convStart s k else s

/-- TDM port n: enabled, nominal rate, slots (file 13). -/
def tdmCtrl (s : State) (n : Nat) : Word := tuyEff s (0x200 + 0x20 * n)
def tdmEn (s : State) (n : Nat) : Bool := s.tuy.running && bit (tdmCtrl s n) 0
def tdmRate (s : State) (n : Nat) : Nat :=
  match fld (tdmCtrl s n) 3 2 with
  | 0 => 44100
  | 1 => 48000
  | 2 => 88200
  | _ => 96000
def tdmSlots (s : State) (n : Nat) : Nat := 2 * 2 ^ fld (tdmCtrl s n) 5 4

/-- The receive flow that feeds stream input group g (R396), of those enabled. -/
def groupFlow (s : State) (g : Nat) : Option Nat :=
  (upto 16).find? (fun f =>
    let c := s.breg 0 (0x91000 + 0x40 * f)
    bit c 31 && fld c 30 28 = 3 && fld c 20 18 = g)

/-- Is a converter's input gone (R352): a slave port without FS for 4 expected port frames, a group without samples for
4.0 ms, which is 192 samples of its 48 kHz? -/
def inputGone (s : State) (k : Nat) : Bool :=
  let n := k % 8
  if k / 8 % 2 = 0 then !bit (tdmCtrl s n) 1 && 4000000000 ≤ (s.tick - (s.conv k).seenAt) * tdmRate s n
  else if k / 8 = 1 then
    match groupFlow s n with
    | some f =>
      match (Tbl.get (fun _ => RxFlow.init) s.flows f).handed with
      | some m => 192 ≤ (s.tick * 6 / 125000 + 2 ^ 32 - m % 2 ^ 32) % 2 ^ 32
      | none => 384 ≤ (s.conv k).age.getD 0
    | none => false
  else false

/-- CONVERTER_INPUT_LOST (R352). -/
def convLost (s : State) (k : Nat) : State :=
  let x := s.conv k
  if s.tuy.running && x.age.isSome && inputGone s k then
    tuyEvt (s.setConv k { x with lost := true, settled := false, age := none }) 0x400
  else s

def execConverterInputLost (k : Nat) (s : State) : Out State := .next (if k < 32 then convLost s k else s)

/-- Channels of stream input group g. -/
def groupChans (s : State) (g : Nat) : Nat :=
  match groupFlow s g with
  | some f => fld (s.breg 0 (0x91000 + 0x40 * f)) 17 15 + 1
  | none => 0

/-- Is the port or group of converter k enabled? -/
def convEn (s : State) (k : Nat) : Bool :=
  let n := k % 8
  match k / 8 with
  | 1 => (groupFlow s n).isSome
  | 3 => bit (s.reg (txa n 0)) 31
  | _ => bit (tdmCtrl s n) 0

/-- Converters follow their ports and groups, and age by a frame (R352); one whose fade-in ended before this frame is
settled. -/
def convFrame (s : State) : State :=
  (upto 32).foldl (fun s k =>
    let x := s.conv k
    if !convEn s k then (if x = Conv.init then s else s.setConv k .init)
    else match x.age with
      | some a =>
        let moved := s.tuy.k % 1024 = 0 && s.tuy.k ≠ 0 && x.meas ≠ 0 && x.meas < 1000 * (((x.hz : Int) - x.meas).natAbs)
        let x1 := if s.tuy.k % 1024 = 0 then { x with meas := x.hz } else x
        if moved then convStart (s.setConv k x1) k else s.setConv k { x1 with age := some (min 6240 (a + 1)) }
      | none => if x.lost || x.rateErr then s else convStart s k) ((upto 32).foldl convSettled s)

/-! ### Voices (R346-R350) -/

def State.voice (s : State) (v : Nat) : Voice := Tbl.get (fun _ => Voice.init) s.tuy.voices v

def State.setVoice (s : State) (v : Nat) (x : Voice) : State :=
  { s with tuy := { s.tuy with voices := Tbl.set (fun _ => Voice.init) s.tuy.voices v x } }

def vword (x : Voice) (i : Nat) : Word := x.desc.getD i 0#32
def voiceType (x : Voice) : Nat := let t := fld (vword x 0) 31 28; if 6 < t then 0 else t

/-- The shadow descriptor (R346). -/
def voiceShadow (s : State) (v : Nat) : List Word := (upto 8).map (fun i => s.reg (tuya (0x4000 + 0x20 * v + 4 * i)))

/-- A voice command at the source load that applies it (R346). -/
def voiceApply (s : State) (cmd v : Nat) : State :=
  let x := s.voice v
  match cmd with
  | 1 => s.setVoice v { x with desc := voiceShadow s v }
  | 2 =>
    let d := voiceShadow s v
    let seed := (d.getD 7 0#32).toNat
    s.setVoice v { x with desc := d, st := 1, env := 0, pos := 0, phase := 0, lfsr := if seed = 0 then 1 else seed, units := [] }
  | 3 => if x.st = 0 then s else s.setVoice v { x with st := 4 }
  | _ => s

/-- A command enters the queue (R346). -/
def voiceQueue (s : State) (cmd v : Nat) : State :=
  if s.tuy.cmds.length < 1024 then { s with tuy := { s.tuy with cmds := s.tuy.cmds ++ [(cmd, v % 512)] } }
  else tuyEvt s 0x10

def execVoiceNone (v : Nat) (s : State) : Out State := .next (voiceQueue s 0 v)
def execVoiceLoad (v : Nat) (s : State) : Out State := .next (voiceQueue s 1 v)
def execKeyon (v : Nat) (s : State) : Out State := .next (voiceQueue s 2 v)
def execKeyoff (v : Nat) (s : State) : Out State := .next (voiceQueue s 3 v)

/-- The voice becomes idle by itself (R349). -/
def voiceIdle (s : State) (v : Nat) (x : Voice) : State :=
  (s.setVoice v { x with st := 0, env := 0 }).orReg (tuya (0x140 + 4 * (v / 32))) (2 ^ (v % 32))

/-- The envelope's step (R349). -/
def envStep (x : Voice) : Voice :=
  let w := vword x 6
  let atk := fld w 31 16
  let sus := fld w 7 0 * 257
  match x.st with
  | 1 =>
    let e := if atk = 0 then 65536 else min 65536 (x.env + atk)
    { x with env := e, st := if e = 65536 then 2 else 1 }
  | 2 =>
    let d := ((x.env : Int) - sus) / 2 ^ fld w 15 12
    if d = 0 then { x with env := sus, st := 3 } else { x with env := ((x.env : Int) - d).toNat }
  | 4 =>
    let rk := fld w 11 8
    if rk = 0 then { x with env := 0 } else { x with env := x.env - max 1 (x.env / 2 ^ rk) }
  | _ => x

/-- Bytes of a PCM sample (R347). -/
def pcmSize (x : Voice) : Nat := match fld (vword x 0) 27 26 with
  | 0 => 1
  | 1 => 2
  | _ => 4

/-- Index a PCM tap reads (R348); none reads 0. -/
def pcmIndex (x : Voice) (j : Int) : Option Nat :=
  let len := (vword x 2).toNat
  if j < 0 then none
  else if j.toNat < len then some j.toNat
  else if bit (vword x 0) 23 then some ((vword x 3).toNat + (j.toNat - len))
  else none

/-- Byte address of a PCM sample in billet 0's GDDR6. -/
def pcmAddr (x : Voice) (i : Nat) : Nat := ((vword x 1).toNat + i * pcmSize x) % 2 ^ 32

/-- Taps of an interpolation: first offset and count (R348). -/
def pcmTaps (x : Voice) : Int × Nat := match fld (vword x 0) 25 24 with
  | 0 => (0, 1)
  | 1 => (0, 2)
  | 2 => (-1, 4)
  | _ => (-3, 8)

/-- A stored sample, widened (R348). -/
def pcmWiden (x : Voice) (n : Nat) : Int := match fld (vword x 0) 27 26 with
  | 0 => sx 8 n * 65536
  | 1 => sx 16 n * 256
  | 2 => sx 24 n
  | _ => sx 32 n

/-- A PCM sample out of the units held; none: its unit has not come. -/
def pcmSample (x : Voice) (j : Int) : Option Int :=
  match pcmIndex x j with
  | none => some 0
  | some i =>
    let a := pcmAddr x i
    match x.units.find? (fun u => u.1 = a / 64) with
    | none => none
    | some u => some (pcmWiden x (leNat ((u.2.drop (a % 64)).take (pcmSize x))))

/-- The taps of a frame, where all are present. -/
def pcmGather (x : Voice) : Option (List Int) :=
  let i : Int := (x.pos / 2 ^ 20 : Nat)
  let t := pcmTaps x
  (upto t.2).foldl (fun acc n =>
    match acc, pcmSample x (i + t.1 + n) with
    | some l, some v => some (l ++ [v])
    | _, _ => none) (some [])

/-! The coefficients sinc(t - 3 - q/64) under a Kaiser window of beta 6.0, per phase q (R348). -/

/-- Phases 0 to 15. -/
def sincRows0 : List (List Int) :=
  [[0, 0, 0, 16384, 0, 0, 0, 0],
   [-14, 61, -211, 16378, 220, -63, 14, -1],
   [-26, 119, -412, 16356, 448, -128, 29, -2],
   [-38, 174, -604, 16321, 686, -196, 45, -4],
   [-49, 227, -787, 16270, 932, -266, 62, -5],
   [-60, 277, -960, 16207, 1186, -338, 79, -7],
   [-69, 324, -1124, 16127, 1449, -412, 97, -8],
   [-78, 368, -1278, 16033, 1720, -487, 116, -10],
   [-86, 410, -1423, 15927, 1998, -564, 135, -13],
   [-94, 449, -1558, 15806, 2284, -643, 155, -15],
   [-100, 485, -1684, 15671, 2576, -723, 176, -17],
   [-106, 518, -1800, 15523, 2876, -804, 197, -20],
   [-111, 548, -1907, 15363, 3182, -886, 218, -23],
   [-115, 575, -2005, 15189, 3494, -968, 240, -26],
   [-119, 600, -2094, 15003, 3812, -1051, 262, -29],
   [-122, 622, -2174, 14804, 4135, -1134, 285, -32]]

/-- Phases 16 to 31. -/
def sincRows1 : List (List Int) :=
  [[-124, 641, -2244, 14593, 4462, -1217, 308, -35],
   [-126, 658, -2306, 14372, 4795, -1300, 330, -39],
   [-127, 672, -2360, 14141, 5131, -1383, 353, -43],
   [-128, 683, -2405, 13899, 5471, -1465, 376, -47],
   [-128, 692, -2442, 13645, 5814, -1546, 399, -50],
   [-128, 699, -2471, 13381, 6160, -1625, 422, -54],
   [-127, 703, -2493, 13110, 6508, -1703, 445, -59],
   [-126, 705, -2506, 12829, 6857, -1779, 467, -63],
   [-124, 705, -2513, 12539, 7208, -1853, 489, -67],
   [-122, 703, -2512, 12242, 7559, -1925, 510, -71],
   [-120, 699, -2505, 11937, 7911, -1994, 531, -75],
   [-117, 693, -2492, 11627, 8262, -2060, 551, -80],
   [-114, 685, -2472, 11310, 8612, -2123, 570, -84],
   [-111, 675, -2446, 10986, 8961, -2182, 589, -88],
   [-108, 664, -2414, 10659, 9307, -2238, 606, -92],
   [-104, 652, -2377, 10324, 9651, -2289, 623, -96]]

/-- Phases 32 to 47. -/
def sincRows2 : List (List Int) :=
  [[-100, 638, -2335, 9986, 9992, -2335, 638, -100],
   [-96, 623, -2289, 9651, 10324, -2377, 652, -104],
   [-92, 606, -2238, 9307, 10659, -2414, 664, -108],
   [-88, 589, -2182, 8961, 10986, -2446, 675, -111],
   [-84, 570, -2123, 8612, 11310, -2472, 685, -114],
   [-80, 551, -2060, 8262, 11627, -2492, 693, -117],
   [-75, 531, -1994, 7911, 11937, -2505, 699, -120],
   [-71, 510, -1925, 7559, 12242, -2512, 703, -122],
   [-67, 489, -1853, 7208, 12539, -2513, 705, -124],
   [-63, 467, -1779, 6857, 12829, -2506, 705, -126],
   [-59, 445, -1703, 6508, 13110, -2493, 703, -127],
   [-54, 422, -1625, 6160, 13381, -2471, 699, -128],
   [-50, 399, -1546, 5814, 13645, -2442, 692, -128],
   [-47, 376, -1465, 5471, 13899, -2405, 683, -128],
   [-43, 353, -1383, 5131, 14141, -2360, 672, -127],
   [-39, 330, -1300, 4795, 14372, -2306, 658, -126]]

/-- Phases 48 to 63. -/
def sincRows3 : List (List Int) :=
  [[-35, 308, -1217, 4462, 14593, -2244, 641, -124],
   [-32, 285, -1134, 4135, 14804, -2174, 622, -122],
   [-29, 262, -1051, 3812, 15003, -2094, 600, -119],
   [-26, 240, -968, 3494, 15189, -2005, 575, -115],
   [-23, 218, -886, 3182, 15363, -1907, 548, -111],
   [-20, 197, -804, 2876, 15523, -1800, 518, -106],
   [-17, 176, -723, 2576, 15671, -1684, 485, -100],
   [-15, 155, -643, 2284, 15806, -1558, 449, -94],
   [-13, 135, -564, 1998, 15927, -1423, 410, -86],
   [-10, 116, -487, 1720, 16033, -1278, 368, -78],
   [-8, 97, -412, 1449, 16127, -1124, 324, -69],
   [-7, 79, -338, 1186, 16207, -960, 277, -60],
   [-5, 62, -266, 932, 16270, -787, 227, -49],
   [-4, 45, -196, 686, 16321, -604, 174, -38],
   [-2, 29, -128, 448, 16356, -412, 119, -26],
   [-1, 14, -63, 220, 16378, -211, 61, -14]]

/-- Coefficient of tap `t` at phase `q` (R348). At phase 32 two coefficients are the largest; which one takes the
correction is open. -/
def sincCoef (q t : Nat) : Int :=
  if q = 32 && (t = 3 || t = 4) then (if (t = 3) == Config.roundUp 32 64 then 9986 else 9992)
  else
    let rows := match q / 16 with
      | 0 => sincRows0
      | 1 => sincRows1
      | 2 => sincRows2
      | _ => sincRows3
    (rows.getD (q % 16) []).getD t 0

/-- A PCM waveform value as numerator and denominator (R348). -/
def pcmValue (x : Voice) (l : List Int) : Int × Nat :=
  let f : Int := (x.pos % 2 ^ 20 : Nat)
  let p := fun n => l.getD n 0
  match fld (vword x 0) 25 24 with
  | 0 => (p 0, 1)
  | 1 => (p 0 * (2 ^ 20 - f) + p 1 * f, 2 ^ 20)
  | 2 =>
    let one : Int := 2 ^ 20
    (2 * p 1 * one ^ 3 + (p 2 - p 0) * f * one ^ 2 + (2 * p 0 - 5 * p 1 + 4 * p 2 - p 3) * f ^ 2 * one +
      (3 * p 1 - p 0 - 3 * p 2 + p 3) * f ^ 3, 2 ^ 61)
  | _ =>
    let q := x.pos % 2 ^ 20 / 2 ^ 14
    (((upto 8).map (fun t => p t * sincCoef q t)).sum, 16384)

/-- sin of the first quadrant, in units of 2^-64, of an angle in units of 2^-31 half turns. -/
def sinQuarter (q : Nat) : Nat :=
  let x : Int := (57952155664616982739 * q / 2 ^ 31 : Nat)
  let x2 : Int := x * x / 2 ^ 64
  let r := (upto 12).foldl (fun (acc : Int × Int) n =>
    (-(acc.1 * x2 / 2 ^ 64 / ((2 * n + 2) * (2 * n + 3))), acc.2 + acc.1)) (x, (0 : Int))
  r.2.toNat

/-- The sine of a phase (R348): within two codes of the exact value. -/
def sineCode (phase : Nat) : Int :=
  let h := phase % 2 ^ 31
  let m := sinQuarter (if 2 ^ 30 < h then 2 ^ 31 - h else h)
  let n : Int := if phase < 2 ^ 31 then m else -(m : Int)
  let lo := -((-(n - 2 ^ 42)) / 2 ^ 41)
  let hi := (n + 2 ^ 42) / 2 ^ 41
  freeWithin (Config.sineDev phase) lo hi

/-- The waveform value of a voice (R348); none: PCM taps missing. -/
def voiceWave (x : Voice) : Option (Int × Nat) :=
  let one : Int := 2 ^ 23
  match voiceType x with
  | 1 => (pcmGather x).map (pcmValue x)
  | 2 => some (sineCode x.phase, 1)
  | 3 => some ((if x.phase < 2 ^ 31 then 4 * (x.phase : Int) - 2 ^ 32 else 3 * 2 ^ 32 - 4 * (x.phase : Int)) * one, 2 ^ 32)
  | 4 => some ((2 * (x.phase : Int) - 2 ^ 32) * one, 2 ^ 32)
  | 5 => some ((if x.phase < fld (vword x 7) 31 16 * 2 ^ 16 then one else -one), 1)
  | 6 => some (sx 24 (x.lfsr / 2 ^ 8), 1)
  | _ => some (0, 1)

/-- A step of the noise register (R348). -/
def lfsrStep (n : Nat) : Nat :=
  let m := n * 2 % 2 ^ 32
  if n / 2 ^ 31 % 2 = 1 then m ^^^ 0x00400007 else m

/-- The voice moves on after a frame (R348); true: its PCM has ended. -/
def voiceAdvance (x : Voice) : Voice × Bool :=
  match voiceType x with
  | 1 =>
    let p := x.pos + (vword x 4).toNat
    let len := (vword x 2).toNat
    if p / 2 ^ 20 < len then ({ x with pos := p }, false)
    else if bit (vword x 0) 23 then ({ x with pos := ((p : Int) - ((len : Int) - (vword x 3).toNat) * 2 ^ 20).toNat }, false)
    else ({ x with pos := p }, true)
  | 6 => ({ x with lfsr := lfsrStep x.lfsr }, false)
  | _ => ({ x with phase := (x.phase + (vword x 4).toNat) % 2 ^ 32 }, false)

/-- One voice for one frame: its sample for the next source load (R346, R348-R350). -/
def voiceFrame (s : State) (v : Nat) : State :=
  let x0 := s.voice v
  if x0.st = 0 then (if x0.out = 0 then s else s.setVoice v { x0 with out := 0 })
  else
    let x := envStep x0
    let r := match voiceWave x with
      | some (n, d) => (some (nearest (n * x.env * sx 24 (fld (vword x 5) 31 8)) (d * 2 ^ 36)) : Option Int)
      | none => none
    let out := sat32 (r.getD 0)
    let s1 := if out.2 then tuySat s else s
    let s2 := if r.isNone then tuyEvt (s1.addReg (tuya 0x3C) 1) 4 else s1
    let (y, ended) := voiceAdvance { x with out := out.1 }
    if ended || (y.st = 4 && y.env = 0) then voiceIdle s2 v y else s2.setVoice v y

/-- VOICE_READ_RETURN (R350): a PCM unit comes, read by requester 5 of billet 0 (R319). A frozen requester's request
stalls (R329); a decode error gives zeros. -/
def voiceUnit (s : State) (v u : Nat) : State :=
  if isFrozen s 0 5 then s
  else
    let (s0, r) := memRead s 0 5 (64 * u) 64
    let x := s0.voice v
    let s1 := s0.setVoice v { x with units := ((u, r.getD (List.replicate 64 0)) :: x.units.filter (fun e => e.1 ≠ u)).take 64 }
    if r.isSome then s1 else tuyEvt s1 8

def execVoiceReadReturn (v unit : Nat) (s : State) : Out State :=
  .next (if v < 512 && unit < 2 ^ 26 then voiceUnit s v unit else s)

/-! ### Source load (R339-R346) -/

/-- Writes accepted since the last frame take effect (R341). -/
def tuyTake (s : State) : State :=
  { s with tuy := { s.tuy with eff := s.regs.filter (fun kv => tuya 0 ≤ kv.1 && kv.1 < tuya 0x4000), parEff := s.tuy.par } }

/-- The program copies are exchanged (R353). -/
def tuySwapNow (s : State) : State :=
  let clr := bit (s.reg (tuya 0x20)) 30
  { s with tuy := { s.tuy with copyB := !s.tuy.copyB, swap := false, ramps := [], rampLate := [],
                               slotSt := if clr then [] else s.tuy.slotSt } }

def setSlotG (s : State) (i : Nat) (g : Int) : State :=
  let n := narrow 24 g
  let s1 := progSet s s.tuy.copyB (2 * i) (setFld (progGet s s.tuy.copyB (2 * i)) 31 12 n)
  progSet s1 s.tuy.copyB (2 * i + 1) (setFld (progGet s1 s.tuy.copyB (2 * i + 1)) 3 0 (n / 2 ^ 20))

/-- Ramps move by one frame (R360). -/
def rampFrame (s : State) : State :=
  let s1 := s.tuy.rampLate.foldl (fun s e => setSlotG s e.1 e.2) s
  let s2 := s1.tuy.ramps.foldl (fun s r => setSlotG s r.slot (r.g0 + nearest ((r.tgt - r.g0) * ((r.j + 1 : Nat) : Int)) (2 ^ r.k))) s1
  let on := (s2.tuy.ramps.map (fun r => { r with j := r.j + 1 })).filter (fun r => decide (r.j < 2 ^ r.k))
  { s2 with tuy := { s2.tuy with rampLate := [], ramps := on } }

/-- GAIN_RAMP (R360). -/
def rampStart (s : State) (v : Word) : State :=
  let slot := fld v 13 0
  let t := sx 24 (fld (s.reg (tuya 0x48)) 23 0)
  let others := s.tuy.ramps.filter (fun r => r.slot ≠ slot)
  if others.length < 64 then
    { s with tuy := { s.tuy with ramps := others ++ [⟨slot, slotG s slot, t, fld v 31 28, 0⟩] } }
  else tuyEvt { s with tuy := { s.tuy with rampLate := s.tuy.rampLate ++ [(slot, t)] } } 0x40

def execGainRamp (v : Word) (s : State) : Out State := .next (if fld v 13 0 < 12288 then rampStart s v else s)

/-- A sample out of a converter: 0 while it is held, else open within 24 bits, fading in linearly over 96 frames after the
mute (R352). -/
def convOut (s : State) (live : Bool) (x : Conv) : State × Int :=
  if live then
    (s.nextFree, openQuot (freeWithin s.freeNat (-8388608) 8388607 * (min 96 (x.age.getD 0 - 6144) : Nat)) 96)
  else (s, 0)

/-- Every source node is loaded (R345). -/
def loadNodes (s : State) : State :=
  let s1 := (upto 512).foldl (fun s v =>
    let o := (s.voice v).out
    if nodeOf s v = o then s else setNodeRaw s v o) s
  (upto 192).foldl (fun s i =>
    let x := s.conv (if i < 64 then 8 + i / 8 else (i - 64) / 16)
    let on := if i < 64 then decide (i % 8 < groupChans s (i / 8))
      else decide ((i - 64) % 16 < tdmSlots s ((i - 64) / 16)) && tdmEn s ((i - 64) / 16)
    let r := convOut s (on && convLive x) x
    setNodeRaw r.1 (512 + i) r.2) s1

/-- The level of pin AMP_EN k (R343, R368): POL inverts it. Until TUY_AMPCFG is written after a package reset and in
EMBER the pin is 0 (R511). -/
def ampEnPin (s : State) (k : Nat) : Bool :=
  s.tuy.ampCfg && !s.ember.on && (s.tuy.amp.testBit k != bit (tuyEff s 0xC80) k)

/-! ### The frame -/

/-- Index of the frame of a tick (R338). -/
def tuyIndex (tick : Nat) : Nat := (3 * tick + 2) / 31250

/-- Frames passed over are counted, and a frame start within the program cuts it short: OVERRUN, and its slots not yet run
keep their node values (R340). -/
def tuySkip (s : State) (now : Nat) : State :=
  match s.tuy.kTick with
  | some k =>
    if s.tuy.fresh then s
    else if k + 1 < now then tuyEvt (s.addReg (tuya 0x18) (now - k - 1)) 2
    else if s.tuy.ran < tuyLen s then tuyEvt s 1
    else s
  | none => s

/-- The queue's commands of a source load: at most 128 (R346). -/
def tuyCommands (s : State) : State :=
  let now := s.tuy.cmds.take 128
  now.foldl (fun s c => voiceApply s c.1 c.2) { s with tuy := { s.tuy with cmds := s.tuy.cmds.drop 128 } }

/-- Audio samples whose play-out time has come leave their flow (R397). -/
def audioHandoff (s : State) : State :=
  let m := s.tick * 6 / 125000
  (upto 16).foldl (fun s f =>
    let x := Tbl.get (fun _ => RxFlow.init) s.flows f
    if x.aud = [] then s
    else
      let ofs := fld (s.breg 0 (0x91000 + 0x40 * f)) 9 0
      let due := fun (e : Nat × List Int) => decide ((m + 2 ^ 32 - (e.1 + ofs) % 2 ^ 32) % 2 ^ 32 < 2 ^ 31)
      { s with flows := Tbl.set (fun _ => RxFlow.init) s.flows f
                 { x with aud := x.aud.filter (fun e => !due e), handed := some (m % 2 ^ 32) } }) s

/-- A 96 kHz frame begins (R338-R341): its source load. -/
def tuyFrame (s : State) : State :=
  let now := tuyIndex s.tick
  let s1 := tuySkip s now
  let s2 := { s1 with tuy := { s1.tuy with
    kTick := some now, k := if s.tuy.fresh then 0 else (s.tuy.k + 1) % 2 ^ 48, fresh := false, frameAt := s.now,
    ran := 0, staged := false } }
  let s3 := tuyTake s2
  let s4 := if s3.tuy.swap then tuySwapNow s3 else s3
  let s5 := rampFrame (tuyCommands s4)
  (upto 512).foldl voiceFrame (loadNodes (convFrame (audioHandoff s5)))

/-- Tick at which frame `k` begins, in ns (R338). -/
def tuyStart (k : Nat) : Nat := k * 31250 / 3

/-- The frame that begins next. -/
def tuyNext (s : State) : Nat := s.tuy.kTick.getD 0 + 1

/-- The forge cycle in which the next frame begins (R338): where the tick has moved past more than one frame start, once
the stages of the frame in progress have ended (R340). -/
def tuyNextAt (s : State) : Nat :=
  if tuyNext s < tuyIndex s.tick then (if s.tuy.fresh then s.now else s.tuy.frameAt + 160 + tuyLen s)
  else s.now + cyclesTo s (tuyStart (tuyNext s))

/-- TUYERE_FRAME (R338-R340): at the frame's start. -/
def execTuyereFrame (s : State) : Out State :=
  .next (if s.tuy.running then
    atInstant tuyNextAt (fun s => if tuyNext s ≤ tuyIndex s.tick then tuyFrame s else s) s
    else s)

/-- EN written 1 (R343, R365). -/
def tuyEnable (s : State) : State :=
  if s.tuy.running then s
  else
    let t := (tuyTake s).tuy
    let s1 := { s with tuy := { t with running := true, kTick := some (tuyIndex s.tick), k := 0, fresh := true,
                                       ran := 0, staged := true, clearing := true, clearAt := s.now, nodes := [], slotSt := [],
                                       ramps := [], rampLate := [], delay := [], convs := [] } }
    let s2 := s1.setReg (tuya 0) 1#32
    let s3 := (upto 64).foldl (fun s b => s.setBus b (if bit (s.reg (tuya (0x800 + 0x10 * b))) 31 then Bus.start else .init)) s2
    let s4 := (upto 32).foldl (fun s k => if convEn s k then convStart s k else s) s3
    let m := loudMask s4
    (s4.setReg (tuya 0xC00) (wd m)).setReg (tuya 0xC04) (wd (m / 2 ^ 32))

def execTuyereEnable (s : State) : Out State := .next (tuyEnable s)

/-- EN written 0 (R343): no frames, sinks send 0, AMP_EN pins inactive, TDM ports stopped. -/
def tuyDisable (s : State) : State :=
  let s1 := ((s.setReg (tuya 0) 0#32).setReg (tuya 0xC00) 0#32).setReg (tuya 0xC04) 0#32
  { s1 with tuy := { s1.tuy with running := false, clearing := false, convs := [], amp := 0, tdmIn := [], tdmOut := [],
                                 sinks := [], down := 0 } }

def execTuyereDisable (s : State) : Out State := .next (tuyDisable s)

/-- Forge cycles that the clear of the delay memory takes (R343). -/
def clearCycles : Nat := 262144

/-- Is the delay memory still being cleared (R343)? -/
def tuyClearing (s : State) : Bool := s.tuy.clearing && s.now < s.tuy.clearAt + clearCycles

/-- DELAY_CLEAR_DONE (R343). -/
def execDelayClearDone (s : State) : Out State :=
  .next (if tuyClearing s then s else { s with tuy := { s.tuy with clearing := false } })

/-! ### Program, parameter and read accesses -/

/-- A TUY_PDATA access (R354): a word 1 waits for the word 0 of its slot. -/
def progAccess (s : State) (w : Option Word) : State × Word :=
  let r := s.reg (tuya 0x28)
  let word := fld r 14 0
  let copyB := bit r 16
  let key := b2n copyB * 24576 + word
  let s1 := s.setRf (tuya 0x28) 14 0 (if word = 24575 then 0 else word + 1)
  match w with
  | none => (s1, if word < 24576 then progGet s copyB word else 0#32)
  | some v =>
    if 24576 ≤ word then (s1, v)
    else if word % 2 = 1 then ({ s1 with tuy := { s1.tuy with progLatch := some (key, v) } }, v)
    else
      let s2 := progSet s1 copyB word v
      match s2.tuy.progLatch with
      | some (k, u) =>
        if k = key + 1 then
          let s3 := progSet s2 copyB (word + 1) u
          ({ s3 with tuy := { s3.tuy with progLatch := none } }, v)
        else (s2, v)
      | none => (s2, v)

/-- PROGRAM_WORD_WRITE (R354). -/
def execProgramWordWrite (w : Option Word) (s : State) : Out State := .next (progAccess s w).1

/-- PROGRAM_SWAP (R353). -/
def tuySwap (s : State) : State :=
  if s.tuy.running then { s with tuy := { s.tuy with swap := true } } else tuySwapNow s

def execProgramSwap (s : State) : Out State := .next (tuySwap s)

/-- A TUY_MDATA access (R361). -/
def paramAccess (s : State) (w : Option Word) : State × Word :=
  let a := fld (s.reg (tuya 0x30)) 11 0
  let s1 := s.setRf (tuya 0x30) 11 0 (a + 1)
  match w with
  | none => (s1, Tbl.get (fun _ => 0#32) s.tuy.par a)
  | some v => ({ s1 with tuy := { s1.tuy with par := Tbl.set (fun _ => 0#32) s1.tuy.par a v } }, v)

def execParameterAccess (w : Option Word) (s : State) : Out State := .next (paramAccess s w).1

/-- A read of TUY_FRAME latches the high bits (R359). -/
def tuyFrameRead (s : State) (who : Who) : State × Word :=
  (s.latch who 0 (tuya 0xC) (wd (s.tuy.k / 2 ^ 32)), wd s.tuy.k)

def execTuyereFrameRead (who : Who) (s : State) : Out State := .next (tuyFrameRead s who).1

/-- Reads of a bus's GMIN and PEAK (R363). -/
def gminRead (s : State) (b : Nat) : State × Word :=
  let x := s.bus b
  (s.setBus b { x with gmin := x.g }, wd x.gmin)

def peakRead (s : State) (b : Nat) : State × Word :=
  let x := s.bus b
  (s.setBus b { x with peak := 0 }, wd x.peak)

def execBusGminRead (bus : Nat) (s : State) : Out State := .next (if bus < 64 then (gminRead s bus).1 else s)
def execBusPeakRead (bus : Nat) (s : State) : Out State := .next (if bus < 64 then (peakRead s bus).1 else s)

/-! ### TDM ports (R351, R352) -/

/-- The measured rate of a port at a frame sync, and RATEERR (R352): a master's is its nominal rate. -/
def tdmMeasure (s : State) (n k : Nat) : State :=
  let x := s.conv k
  let nom := tdmRate s n
  let hz := if bit (tdmCtrl s n) 1 then nom else if x.seenAt < s.tick then 1000000000 / (s.tick - x.seenAt) else x.hz
  let bad := x.seenAt ≠ 0 && !bit (tdmCtrl s n) 1 && 2 * nom < 100 * (((hz : Int) - nom).natAbs)
  let s1 := s.setConv k { x with hz := hz, seenAt := s.tick, rateErr := bad, settled := x.settled && !bad,
                                 age := if bad then none else x.age }
  if bad && !x.rateErr then tuyEvt s1 0x200
  else if !bad && x.rateErr then convStart s1 k
  else s1

/-- TDM_FRAME_SYNC (R351): a port frame of slots is received and sent. -/
def tdmFrame (s : State) (n : Nat) (slots : List Word) : State :=
  if !tdmEn s n then s
  else
    let cnt := tdmSlots s n
    let s1 := tdmMeasure (tdmMeasure (convSeen (convSeen s n) (16 + n)) n n) n (16 + n)
    let live := convLive (s1.conv (16 + n)) && !s1.tuy.down.testBit n
    (upto cnt).foldl (fun s j =>
      let r := convOut s (live && (sinkCfg s (16 * n + j)).1) (s.conv (16 + n))
      { r.1 with tuy := { r.1.tuy with
          tdmIn := Tbl.set (fun _ => 0#32) r.1.tuy.tdmIn (16 * n + j) (slots.getD j 0#32),
          tdmOut := Tbl.set (fun _ => 0#32) r.1.tuy.tdmOut (16 * n + j) (wd (narrow 24 r.2 * 256)) } }) s1

def execTdmFrameSync (n : Nat) (slots : List Word) (s : State) : Out State :=
  .next (if n < 8 then tdmFrame s n slots else s)

/-! ### Views -/

/-- TUY_STAT (file 13). -/
def tuyStat (s : State) : Word := wd (b2n s.tuy.running * 2 ^ 31 + b2n (tuyClearing s) * 2 ^ 30 + s.tuy.cmds.length)

/-- TUY_PCTRL as read. -/
def tuyPctrl (s : State) : Word :=
  (s.reg (tuya 0x20) &&& 0x40000000#32) ||| wd (b2n s.tuy.swap * 2 ^ 31 + b2n s.tuy.copyB * 2 ^ 29)

/-- TUY_VACTj. -/
def tuyVact (s : State) (j : Nat) : Word := wd ((upto 32).foldl (fun acc i => acc + b2n ((s.voice (32 * j + i)).st ≠ 0) * 2 ^ i) 0)

end Sys2Proof.Machine
end

