-- ==== Sys2Proof/Machine/Streams.lean ====
section
/-! DEFINITION. Received frames: classification, receive flows, pictures and audio, seamless protection; the audio
senders (R374, R375, R389-R399). -/

namespace Sys2Proof.Machine

/-! ### Parsing -/

/-- Big-endian field of a byte list. -/
def be (f : List Byte) (at' n : Nat) : Nat := beNat ((f.drop at').take n)

/-- What classification needs of a frame: destination and source MAC, 802.1Q tag, EtherType, payload; `odd` marks the
tags of step 4 (R374). -/
structure Parsed where
  dst : Nat
  src : Nat
  tag : Option Nat
  etype : Nat
  odd : Bool
  body : List Byte

/-- Split an Ethernet frame, FCS removed. -/
def parseEther (f : List Byte) : Parsed :=
  let t := be f 12 2
  if t = 0x8100 then
    let t2 := be f 16 2
    ⟨be f 0 6, be f 6 6, some (be f 14 2), t2, t2 = 0x8100, f.drop 18⟩
  else ⟨be f 0 6, be f 6 6, none, t, t = 0x88A8, f.drop 14⟩

/-- A UDP datagram: addresses, ports, payload, and whether its checksum holds. -/
structure Udp where
  src : Nat
  dst : Nat
  sport : Nat
  dport : Nat
  data : List Byte
  ok : Bool

/-- A UDP datagram under step 6 of R374; none where the packet is not one. -/
def parseUdp (p : Parsed) : Option Udp :=
  let f := p.body
  let v4 : Nat → Nat := fun a => 0xFFFF * 2 ^ 32 + a
  if p.etype = 0x0800 then
    if be f 0 1 = 0x45 && be f 6 2 % 2 ^ 14 = 0 && sum16 0 (f.take 20) = 0xFFFF && be f 9 1 = 17 && 28 ≤ be f 2 2 && be f 2 2 ≤ f.length then
      let u := (f.take (be f 2 2)).drop 20
      let len := be u 4 2
      let d := u.take len
      let ok := 8 ≤ len && len ≤ u.length &&
        (be u 6 2 = 0 || sum16 0 ((f.drop 12).take 8 ++ beBytes 2 17 ++ beBytes 2 len ++ d) = 0xFFFF)
      some ⟨v4 (be f 12 4), v4 (be f 16 4), be u 0 2, be u 2 2, d.drop 8, ok⟩
    else none
  else if p.etype = 0x86DD then
    if be f 0 1 / 16 = 6 && be f 6 1 = 17 && 8 ≤ be f 4 2 && be f 4 2 + 40 ≤ f.length then
      let u := (f.drop 40).take (be f 4 2)
      let len := be u 4 2
      let d := u.take len
      let ok := 8 ≤ len && len ≤ u.length && be u 6 2 ≠ 0 &&
        sum16 0 ((f.drop 8).take 32 ++ beBytes 4 len ++ beBytes 4 17 ++ d) = 0xFFFF
      some ⟨be f 8 16, be f 24 16, be u 0 2, be u 2 2, d.drop 8, ok⟩
    else none
  else none

/-- Firmware class of any other frame (R374 step 7, R378). -/
def otherClass (p : Parsed) : Nat :=
  if p.etype = 0x0806 then 0
  else if p.etype = 0x0800 && be p.body 9 1 = 2 then 1
  else if p.etype = 0x0800 && be p.body 9 1 = 1 then 2
  else if p.etype = 0x86DD && be p.body 6 1 = 58 then 3
  else if p.dst / 2 ^ 40 % 2 = 1 then 6 else 5

/-! ### Flows -/

def State.flow (s : State) (b f : Nat) : RxFlow := Tbl.get (fun _ => RxFlow.init) s.flows (16 * b + f)

def State.setFlow (s : State) (b f : Nat) (x : RxFlow) : State :=
  { s with flows := Tbl.set (fun _ => RxFlow.init) s.flows (16 * b + f) x }

/-- Registers of flow f (file 14). -/
def rxf (b f o : Nat) : Nat := lnk b (0x1000 + 0x40 * f + o)

/-- The flow's type in force (R390): 0 off. -/
def flowType (s : State) (b f : Nat) : Nat :=
  let c := s.reg (rxf b f 0)
  let t := fld c 30 28
  if !bit c 31 || 3 < t || (t = 3 && b ≠ 0) then 0 else t

def flowStat (s : State) (b f m : Nat) : State := s.orReg (rxf b f 0x10) m

/-- The VLAN rule (R375). -/
def vlanOk (en : Bool) (vid : Nat) (tag : Option Nat) : Bool :=
  match tag with
  | some t => if en then t % 2 ^ 12 = vid else t % 2 ^ 12 = 0
  | none => !en

/-- Does a set match (R390)? `ip` compares addresses, otherwise MACs are compared; `port` is the UDP port or PORT_ID. -/
def setMatch (s : State) (b f l : Nat) (setB : Bool) (p : Parsed) (ips : Option (Nat × Nat)) (port : Nat) : Bool :=
  let r := s.reg (rxf b f (if setB then 8 else 4))
  let v := s.reg (rxf b f 0xC)
  let vid := if setB then fld v 27 16 else fld v 11 0
  fld r 13 12 = l && fld r 31 16 = port && vlanOk (bit r 15) vid p.tag &&
    (match ips with
     | some (src, dst) => entryIp s b (fld r 4 0) = dst && (!bit r 14 || entryIp s b (fld r 9 5) = src)
     | none => (entryMac s b (fld r 4 0)).1 = p.dst && (!bit r 14 || (entryMac s b (fld r 9 5)).1 = p.src))

/-- The lowest flow that takes a packet, and whether by set B (R390). -/
def findFlow (s : State) (b l : Nat) (p : Parsed) (ips : Option (Nat × Nat)) (port : Nat) : Option (Nat × Bool) :=
  (upto 16).findSome? (fun f =>
    let t := flowType s b f
    if (if ips.isSome then t = 1 || t = 3 else t = 2) then
      if setMatch s b f l false p ips port then some (f, false)
      else if bit (s.reg (rxf b f 0)) 27 && setMatch s b f l true p ips port then some (f, true)
      else none
    else none)

/-! ### Sequence numbers (R389, R399) -/

/-- What becomes of a packet's number. -/
inductive SeqVerdict where
  | accept
  | duplicate
  | old
  | stale
deriving DecidableEq, Repr

/-- The verdict on a number (R389; with MERGE = 1, R399). -/
def seqVerdict (x : RxFlow) (merge : Bool) (n : Nat) : SeqVerdict :=
  match x.newest with
  | none => .accept
  | some m =>
    let d := (n + 2 ^ 32 - m) % 2 ^ 32
    if 1 ≤ d && d ≤ 2 ^ 31 then .accept
    else if !merge then .stale
    else if 4096 < (m + 2 ^ 32 - n) % 2 ^ 32 then .old
    else if x.seen.contains n then .duplicate
    else .accept

/-- Note an accepted number: the newest, and the window of R399. -/
def seqNote (x : RxFlow) (n : Nat) : RxFlow :=
  let newest := match x.newest with
    | none => n
    | some m => if 1 ≤ (n + 2 ^ 32 - m) % 2 ^ 32 && (n + 2 ^ 32 - m) % 2 ^ 32 ≤ 2 ^ 31 then n else m
  let near := fun (k : Nat) => decide ((newest + 2 ^ 32 - k) % 2 ^ 32 ≤ 4096)
  let judged := match x.judged with
    | none => some (n, 1)
    | some (j, c) => if (n + 2 ^ 32 - j) % 2 ^ 32 < 2 ^ 31 then some (j, c + 1) else some (j, c)
  { x with newest := some newest, seen := n :: x.seen.filter near, judged := judged }

/-- Numbers up to `e` are judged: those not accepted are lost (R393, R399). -/
def judgeLost (x : RxFlow) (e : Nat) : RxFlow × Nat :=
  match x.judged with
  | none => (x, 0)
  | some (j, c) =>
    let span := (e + 1 + 2 ^ 32 - j) % 2 ^ 32
    if 2 ^ 31 ≤ span then (x, 0)
    else
      let beyond := (x.seen.filter (fun k => decide ((k + 2 ^ 32 - (e + 1)) % 2 ^ 32 < 2 ^ 31))).length
      ({ x with judged := some ((e + 1) % 2 ^ 32, beyond) }, span - (c - beyond))

/-- A packet arrives at a flow by set A or B: counted, or discarded (R389, R399). -/
def flowSeq (s : State) (b f : Nat) (setB : Bool) (n : Nat) : State × Bool :=
  let merge := bit (s.reg (rxf b f 0)) 27
  let x := s.flow b f
  match seqVerdict x merge n with
  | .accept =>
    let y := seqNote x n
    let z := if setB then { y with atB := s.now + 1 } else { y with atA := s.now + 1 }
    ((s.setFlow b f z).addReg (rxf b f (if setB then 0x1C else 0x18)) 1, true)
  | .duplicate => (s.addReg (rxf b f 0x24) 1, false)
  | .old => (flowStat s b f 0x40, false)
  | .stale => (s, false)

/-- Numbers lost are counted. -/
def noteLost (s : State) (b f k : Nat) : State :=
  if k = 0 then s else flowStat (s.addReg (rxf b f 0x20) k) b f 2

/-! ### Pictures (R391-R394) -/

/-- Base of a slot of the layer as a writer sees it (R151), of the last flip (R150). -/
def slotBase (s : State) (b n k : Nat) : Nat := (s.video b n).bases.getD k 0
def slotStride (s : State) (b n : Nat) : Nat := (s.video b n).cfg.stride

/-- Source size of a layer, of the last flip (R150). -/
def srcSize (s : State) (b n : Nat) : Nat × Nat := ((s.video b n).cfg.srcW, (s.video b n).cfg.srcH)

/-- Billets a layer's hand-off addresses (R163): the own one and those of BMASK, of the last flip (R150). -/
def handBillets (s : State) (b n : Nat) : List Nat :=
  let m := fld (s.video b n).cfg.ctrl 31 24
  (upto s.n).filter (fun c => c = b || m.testBit c)

/-- Bytes of a picture go to its slot in every billet addressed (R391): lane receive flows are requester 6 of their own
billet, and come to another by Flux as its requester 7 (R319). -/
def pictureWrite (s : State) (b n slot row off : Nat) (d : List Byte) : State :=
  let a := slotBase s b n slot + row * slotStride s b n + off
  (handBillets s b n).foldl (fun s c => memStore s c (if c = b then 6 else 7) a d) s

/-- The 16 bytes of a group of samples, missing ones 0 (R151, R392). -/
def groupBytes (l : List Nat) : List Byte :=
  (upto 4).flatMap (fun w => leBytes 4 (l.getD (3 * w) 0 + l.getD (3 * w + 1) 0 * 2 ^ 10 + l.getD (3 * w + 2) 0 * 2 ^ 20))

/-- A held partial group is written (R392). -/
def flushGroup (s : State) (b f : Nat) : State :=
  let x := s.flow b f
  match x.group, x.frame with
  | some (row, c, l), some fr =>
    let s1 := s.setFlow b f { x with group := none }
    match fr.slot with
    | some k => pictureWrite s1 b fr.layer k row (c / 6 * 16) (groupBytes l)
    | none => s1
  | _, _ => s.setFlow b f { x with group := none }

/-- 4:2:2 samples of a row from sample index `i` on, group by group; the last may stay held (R392). -/
def groupsWrite (s : State) (b f row : Nat) : Nat → Nat → List Nat → State
  | 0, _, _ => s
  | _ + 1, _, [] => s
  | fuel + 1, i, l =>
    let room := 12 - i % 12
    let x := s.flow b f
    let held := match x.group with
      | some (r, c, h) => if r = row && 12 * (c / 6) + h.length = i && i % 12 ≠ 0 then h else List.replicate (i % 12) 0
      | none => List.replicate (i % 12) 0
    let g := held ++ l.take room
    let s1 := s.setFlow b f { x with group := some (row, i / 12 * 6, g) }
    if l.length < room then s1 else groupsWrite (flushGroup s1 b f) b f row fuel (i + room) (l.drop room)

/-- Does the packet continue the held group? Otherwise it is written as it stands (R392). -/
def settleGroup (s : State) (b f row i : Nat) : State :=
  match (s.flow b f).group with
  | some (r, c, h) => if r = row && 12 * (c / 6) + h.length = i then s else flushGroup s b f
  | none => s

/-- Samples of 10 bits, MSB first. -/
def samples10 (d : List Byte) : List Nat :=
  let n := d.length * 8 / 10
  let v := beNat d
  (upto n).map (fun i => v / 2 ^ (d.length * 8 - 10 * (i + 1)) % 2 ^ 10)

/-- One row of a ring store is written in cut-through mode (R170). -/
def ringBytes (bytes : List Host.Cell) (key : Nat) : List (Nat × Nat) → List Host.Cell
  | [] => bytes
  | (i, v) :: t =>
    let a := key + 16 * (i / 12) + 4 * (i % 12 / 3)
    let w := leNat (memBytes bytes a 4)
    let sh := 2 ^ (10 * (i % 3))
    ringBytes (memSets bytes a (leBytes 4 (w - w / sh % 2 ^ 10 * sh + v * sh))) key t

/-- Does a port still compose a line that needs input row `row` of a layer in cut-through mode (R170)? -/
def ctInUse (s : State) (b n row : Nat) : Bool :=
  (upto 4).any (fun p =>
    let x := s.port b p
    let c := ((s.video b n).lineOf (x.frame, x.line)).cfg
    x.running && 4 * (s.out b p).nextG < x.cfg.hAct && vidEn c && vidCut c &&
      (match canvasRow s x.line with
        | some y => c.dstY ≤ y && y < c.dstY + c.dstH && clampN c.srcH (vidYc c (y - c.dstY) / 65536) = row
        | none => false))

/-- The pixels of a packet arrive at a layer's ring (R170): the row starts anew at column 0. A row that overwrites one
still needed sets CT_OVR. -/
def ringRow (s : State) (b n row col cnt : Nat) (put : List Host.Cell → Nat → List Host.Cell) : State :=
  let x := s.video b n
  if x.ring = 0 then s
  else
    let j := row % x.ring
    let old := Tbl.get (fun _ => (⟨0, 0, 0, []⟩ : RingRow)) x.rows j
    let fresh := col = 0 || old.row ≠ row || old.cols = 0
    let base : RingRow := if fresh then ⟨row, 0, s.beam.frame, []⟩ else old
    let added := ((upto cnt).filter (fun i => !ctWritten base (col + i))).length
    let rr : RingRow := { base with cols := base.cols + added, arrivals := base.arrivals ++ [(col, col + cnt, s.now)] }
    let met := fun (w : Nat × Nat × Nat) => w.1 = row && col ≤ w.2.1 && decide (w.2.1 < col + cnt)
    let neg : List Int := (x.waiting.filter met).map (fun w => -(((s.now - w.2.2 + 1) / 2 : Nat) : Int))
    let least := neg.foldl (fun (acc : Option Int) m => some (match acc with
      | some k => min k m
      | none => m)) x.margin
    let needed := fresh && old.cols ≠ 0 && ctInUse s b n old.row
    let s1 := s.setVideo b n { x with rows := Tbl.set (fun _ => (⟨0, 0, 0, []⟩ : RingRow)) x.rows j rr,
                                      bytes := put x.bytes (j * 2 ^ 20), waiting := x.waiting.filter (fun w => !met w),
                                      margin := least }
    if needed then s1.orReg (vaddr b n 0x48) 0x40 else s1

/-- The layers that take the flow's rows straight from the stream (R169, R394). -/
def cutLayers (s : State) (b f : Nat) (fmt : Bool) : List Nat :=
  (upto 4).filter (fun n =>
    let c := (s.video b n).cfg.ctrl
    bit c 0 && bit c 1 && fld c 15 12 = f && bit c 3 == fmt)

/-- A row segment of a picture: RGB pixels or 4:2:2 samples from pixel `col` (R391, R392, R394). -/
def segment (s : State) (b f row col : Nat) (d : List Byte) : State :=
  let fmt := bit (s.reg (rxf b f 0)) 24
  let smp := samples10 d
  let cnt := if fmt then smp.length / 3 else smp.length / 2
  let x := s.flow b f
  let layer := match x.frame with
    | some fr => fr.layer
    | none => 0
  let (w, h) := srcSize s b layer
  let s1 := if x.frame.isSome && (h ≤ row || w < col + cnt) then flowStat s b f 4 else s
  let keep := if h ≤ row then 0 else min cnt (w - col)
  let rgb := fun (n : Nat) => (upto n).map (fun i =>
    smp.getD (3 * i) 0 * 2 ^ 20 + smp.getD (3 * i + 1) 0 * 2 ^ 10 + smp.getD (3 * i + 2) 0)
  let s2 := match x.frame with
    | some ⟨_, n, some k, _, _⟩ =>
      if keep = 0 then s1
      else if fmt then pictureWrite s1 b n k row (4 * col) ((rgb keep).flatMap (leBytes 4))
      else groupsWrite (settleGroup s1 b f row (2 * col)) b f row (smp.length + 1) (2 * col) (smp.take (2 * keep))
    | _ => s1
  (cutLayers s b f fmt).foldl (fun s n =>
    ringRow s b n row col cnt (fun m key =>
      if fmt then memSets m (key + 4 * col) ((rgb cnt).flatMap (leBytes 4))
      else ringBytes m key ((upto smp.length).map (fun i => (2 * col + i, smp.getD i 0))))) s2

/-- The frame under way ends (R393): a gap sets LOSS, and with LOSSDROP the slot goes back. With MERGE the numbers missing
are judged where they leave the window (R399). -/
def frameEnd (s : State) (b f e : Nat) (cut : Bool) : State :=
  let s0 := flushGroup s b f
  let x := s0.flow b f
  match x.frame with
  | none => s0
  | some fr =>
    let r := if bit (s.reg (rxf b f 0)) 27 then (x, 0) else judgeLost x e
    let gap := cut || fr.gap || r.2 ≠ 0
    let s1 := noteLost (s0.setFlow b f { r.1 with frame := none, lastId := some fr.ident }) b f r.2
    let s2 := if gap then flowStat s1 b f 2 else s1
    match fr.slot with
    | none => s2
    | some k =>
      if gap && bit (s.reg (rxf b f 0)) 26 then dropSlot s2 b fr.layer k
      else s2.setFlow b f { s2.flow b f with done := (s2.flow b f).done ++ [{ fr with gap := gap }] }

/-- The first packet of a new frame (R391): the layer's lowest FREE slot, or NOSLOT. -/
def frameStart (s : State) (b f ident n : Nat) : State :=
  let s1 := if (s.flow b f).frame.isSome then frameEnd s b f ((n + 2 ^ 32 - 1) % 2 ^ 32) true else s
  let layer := fld (s1.reg (rxf b f 0)) 23 22
  let c := (s1.video b layer).cfg.ctrl
  let r := if hsrcOf c = 1 && fld c 19 16 = f && slotIn (s1.video b layer) 1 = none then takeSlot s1 b layer else (s1, none)
  let s2 := r.1.setFlow b f { r.1.flow b f with frame := some ⟨ident, layer, r.2, false, none⟩ }
  if r.2.isNone then flowStat s2 b f 0x10 else s2

/-- Is an identity new against the last one (R389)? -/
def identNew (x : RxFlow) (ident : Nat) : Bool :=
  match x.frame, x.lastId with
  | some fr, _ => (ident + 2 ^ 32 - fr.ident) % 2 ^ 32 ≤ 2 ^ 31
  | none, some l => ident ≠ l && (ident + 2 ^ 32 - l) % 2 ^ 32 ≤ 2 ^ 31
  | none, none => true

/-- A merged flow after a packet (R393, R399): numbers that leave the window are lost, and the frame whose last packet has
come ends once no number up to it is missing. -/
def mergeSettle (s : State) (b f : Nat) : State :=
  let x := s.flow b f
  let r := judgeLost x ((x.newest.getD 0 + 2 ^ 32 - 4097) % 2 ^ 32)
  let y := if r.2 = 0 then r.1 else { r.1 with frame := r.1.frame.map (fun fr => { fr with gap := true }) }
  let s1 := noteLost (s.setFlow b f y) b f r.2
  match y.frame with
  | some fr =>
    match fr.last with
    | some e => if (judgeLost y e).2 = 0 then frameEnd s1 b f e false else s1
    | none => s1
  | none => s1

/-- The last packet of a frame has come (R393): the frame ends, or with MERGE once its numbers are there. -/
def lastPacket (s : State) (b f n : Nat) : State :=
  if bit (s.reg (rxf b f 0)) 27 then
    let x := s.flow b f
    s.setFlow b f { x with frame := x.frame.map (fun fr => { fr with last := some n }) }
  else frameEnd s b f n false

/-- A picture packet whose number was accepted: segments of (row, column, data), last packet of its frame. -/
def picture (s : State) (b f ident n : Nat) (last : Bool) (segs : List (Nat × Nat × List Byte)) : State :=
  let x := s.flow b f
  if !identNew x ident then s
  else
    let s1 := match x.frame with
      | some fr => if fr.ident = ident then s else frameStart s b f ident n
      | none => frameStart s b f ident n
    let s2 := segs.foldl (fun s g => segment s b f g.1 g.2.1 g.2.2) s1
    if last then lastPacket s2 b f n else s2

/-- A picture packet of a flow, and what a merge makes of it. -/
def pictureIn (s : State) (b f ident n : Nat) (last : Bool) (segs : List (Nat × Nat × List Byte)) : State :=
  let s1 := picture s b f ident n last segs
  if bit (s.reg (rxf b f 0)) 27 then mergeSettle s1 b f else s1

/-- Row data of an RFC 4175 payload: headers, then data in their order. -/
def rowSegs : Nat → List Byte → List (Nat × Nat × Nat) × List Byte
  | 0, d => ([], d)
  | fuel + 1, d =>
    let h := (be d 0 2, be d 2 2 % 2 ^ 15, be d 4 2 % 2 ^ 15)
    if be d 4 2 / 2 ^ 15 = 1 then
      let r := rowSegs fuel (d.drop 6)
      (h :: r.1, r.2)
    else ([h], d.drop 6)

/-- Split row data by the lengths of their headers. -/
def splitSegs : List (Nat × Nat × Nat) → List Byte → List (Nat × Nat × List Byte)
  | [], _ => []
  | (len, row, off) :: t, d => (row, off, d.take len) :: splitSegs t (d.drop len)

/-- An ST 2110-20 packet (R390-R393). -/
def video2110 (s : State) (b f : Nat) (setB : Bool) (d : List Byte) : State :=
  if be d 0 1 ≠ 0x80 || d.length < 20 then flowStat s b f 8
  else
    let n := be d 12 2 * 2 ^ 16 + be d 2 2
    let r := rowSegs 64 (d.drop 14)
    let pg := if bit (s.reg (rxf b f 0)) 24 then 15 else 5
    if r.2.length ≠ (r.1.map (·.1)).sum || r.1.any (fun h => h.1 % pg ≠ 0) then flowStat s b f 8
    else
      let a := flowSeq s b f setB n
      if a.2 then pictureIn a.1 b f (be d 4 4) n (be d 1 1 / 128 = 1) (splitSegs r.1 r.2) else a.1

/-- An Ewetu packet (R386, R389, R392, R395). -/
def ewetuPacket (s : State) (b f : Nat) (setB : Bool) (d : List Byte) : State :=
  let w := be d 0 2
  let c := s.reg (rxf b f 0)
  let cnt := be d 12 2
  if w / 2 ^ 12 ≠ 1 || crc16 (d.take 20) ≠ be d 20 2 || be d 14 1 = 0 || 4 < be d 14 1 then s
  else if w / 2 ^ 11 % 2 = 0 && !bit c 25 then s
  else if !bit c 24 || be d 14 1 ≠ 2 || d.length < 24 + (cnt * 30 + 7) / 8 then flowStat s b f 8
  else
    let a := flowSeq s b f setB (be d 16 4)
    let last := w / 2 ^ 9 % 2 = 1 && w / 2 ^ 6 % 2 = 1
    if a.2 then pictureIn a.1 b f (be d 4 4) (be d 16 4) last [(be d 8 2, be d 10 2, (d.drop 24).take ((cnt * 30 + 7) / 8))]
    else a.1

/-! ### Audio (R396-R398) -/

/-- Samples of a packet, by channel: L24, or L16 in the high bits. -/
def audioSamples (d : List Byte) (ch cnt bytes : Nat) : List (List Int) :=
  (upto cnt).map (fun i => (upto ch).map (fun c =>
    let v := be d ((i * ch + c) * bytes) bytes
    if bytes = 2 then sx 16 v * 256 else sx 24 v))

/-- The media clock (R397). -/
def mediaClock (s : State) : Nat := s.tick * 6 / 125000

/-- An ST 2110-30 packet (R396, R397, R399). -/
def audio2110 (s : State) (f : Nat) (setB : Bool) (d : List Byte) : State :=
  let c := s.reg (rxf 0 f 0)
  let ch := fld c 17 15 + 1
  let cnt := if bit c 13 then 6 else 48
  let bytes := if bit c 14 then 2 else 3
  let x0 := s.flow 0 f
  let n16 := be d 2 2
  let n := match x0.newest with
    | none => n16
    | some m => ((m : Int) + sx 16 (n16 + 2 ^ 16 - m % 2 ^ 16) + 2 ^ 32).toNat % 2 ^ 32
  if groupFlow s (fld c 20 18) ≠ some f || be d 0 1 ≠ 0x80 || d.length ≠ 12 + ch * cnt * bytes then flowStat s 0 f 8
  else
    let a := flowSeq s 0 f setB n
    if !a.2 then a.1
    else
      let e := if bit c 27 then (((a.1.flow 0 f).newest.getD n) + 2 ^ 32 - 4097) % 2 ^ 32 else n
      let r := judgeLost (a.1.flow 0 f) e
      let s1 := convSeen (noteLost (a.1.setFlow 0 f r.1) 0 f r.2) (8 + fld c 20 18)
      let ts := be d 4 4
      let ofs := fld c 9 0
      if (mediaClock s + 2 ^ 32 - (ts + ofs) % 2 ^ 32) % 2 ^ 32 < 2 ^ 31 then flowStat s1 0 f 0x20
      else
        let new := (audioSamples (d.drop 12) ch cnt bytes).zipIdx.map (fun e => ((ts + e.2) % 2 ^ 32, e.1))
        let x := s1.flow 0 f
        s1.setFlow 0 f { x with aud := (x.aud ++ new).drop ((x.aud ++ new).length - 1024) }

/-- A free 24-bit sample or 0, `n` times. -/
def freeSamples (s : State) (x : Conv) (live : Nat → Bool) (n : Nat) : State × List Byte :=
  (upto n).foldl (fun (acc : State × List Byte) i =>
    let r := convOut acc.1 (live i) x
    (r.1, acc.2 ++ beBytes 3 (narrow 24 r.2))) (s, [])

/-- Samples of a packet of audio sender `g` (R396). -/
def audioCount (s : State) (g : Nat) : Nat := if bit (s.reg (txa g 0)) 4 then 6 else 48

/-- Media time of the end of the packet before, where the sender has gone on from it (R398). -/
def audioPrev (s : State) (g : Nat) : Option Nat :=
  match Tbl.get (fun _ => (none : Option Nat)) s.audioTx g with
  | none => none
  | some t => if t ≤ mediaClock s && mediaClock s < t + 2 * audioCount s g then some t else none

/-- Media time at which the packet's last sample is there (R398): a packet time after the one before. -/
def audioEnd (s : State) (g : Nat) : Nat :=
  match audioPrev s g with
  | none => mediaClock s
  | some t => t + audioCount s g

/-- An audio sender's packet (R384, R385, R396, R398). -/
def audioBuild (s0 : State) (g : Nat) : State :=
  let base := txa g 0
  let c := s0.reg base
  if !bit c 31 then s0
  else
    let s := { s0 with audioTx := Tbl.set (fun _ => (none : Option Nat)) s0.audioTx g (some (audioEnd s0 g)) }
    let ch := fld c 3 1 + 1
    let cnt := audioCount s g
    let seq := (s.reg (base + 0x24)).toNat
    let on := s.tuy.running && convLive (s.conv (24 + g))
    let r := freeSamples s (s.conv (24 + g)) (fun i => on && (sinkCfg s (128 + 8 * g + i % ch)).1) (ch * cnt)
    let s1 := (r.1.addReg (base + 0x24) 1).orReg (base + 0x1C) (if (txCopies s base).2 then 8 else 0)
    let active := partActive s
    if !active && !bit c 27 then s1
    else
      let body := rtpHead s base false seq (audioEnd s0 g + 2 ^ 32 - cnt) ++ r.2
      let fs := (txCopies s base).1.map (fun cp => ipFrame s 0 base cp (!active) body)
      let s2 := if fs.any (·.isNone) then s1.orReg (base + 0x1C) 4 else s1
      sendCopies s2 0 base 1 (fs.filterMap id)

/-- AUDIO_PACKET_BUILD (R398): at the end of the packet time. -/
def execAudioPacketBuild (g : Nat) (s : State) : Out State :=
  .next (if g < 8 && bit (s.reg (txa g 0)) 31 then
    atInstant (fun s => s.now + cyclesTo s ((audioEnd s g * 125000 + 5) / 6)) (fun s => audioBuild s g) s else s)

/-- LNK_RXFf_STAT as read: RXA and RXB cover the last 4.0 ms, 4,800,000 forge cycles (file 14). -/
def flowStatView (s : State) (b f : Nat) : Word :=
  let x := s.flow b f
  let near := fun t => t ≠ 0 && s.now + 1 - t ≤ 4800000
  s.reg (rxf b f 0x10) ||| wd (b2n (near x.atB) * 2 ^ 17 + b2n (near x.atA) * 2 ^ 16)

end Sys2Proof.Machine
end

