-- ==== Sys2Proof/Machine/Ptp.lean ====
section
/-! DEFINITION. The PTP slave (R401-R405), and the receive path as a whole (R374). -/

namespace Sys2Proof.Machine

def ptpa (o : Nat) : Nat := lnk 0 (0x3800 + o)

/-- STATE of LNK_PTP_STAT. -/
def ptpState (s : State) : Nat := fld (s.reg (ptpa 0x1C)) 2 0

/-- Enter a state (R405): LOCK, UNLOCK and HOLDOVER. -/
def ptpEnter (s : State) (n : Nat) : State :=
  let a := ptpa 0x1C
  let old := ptpState s
  let s1 := (s.setRf a 2 0 n).setRf a 3 3 (b2n (n = 3))
  let ev := (if n = 3 && old ≠ 3 then 0x100 else 0) + (if n ≠ 3 && old = 3 then 0x200 else 0) +
    (if n = 4 && old ≠ 4 then 0x800 else 0)
  s1.orReg a ev

def setPtp (s : State) (x : Ptp) : State := { s with ptp := x }

/-- The step is armed (R404). -/
def ptpArm (s : State) : State := setPtp s { s.ptp with armed := true }

/-- RESTEP (R404). -/
def execPtpRestep (s : State) : Out State := .next (ptpArm s)

/-- EN written 1 (R405). -/
def ptpEnable (s : State) : State :=
  if bit (s.reg (ptpa 0)) 31 then s
  else
    let p := { s.ptp with armed := true, good := 0, bad := 0, wait := none, last := none, req := none, haveMpd := false,
                          reqAt := none }
    ptpEnter (setPtp (s.setRf (ptpa 0) 31 31 1) p) 1

def execPtpEnable (s : State) : Out State := .next (ptpEnable s)

/-- EN written 0 (R405). -/
def ptpDisable (s : State) : State := ptpEnter (s.setRf (ptpa 0) 31 31 0) 0

def execPtpDisable (s : State) : Out State := .next (ptpDisable s)

/-- A write of GMPORT (R404, R405): the GMID applies, mpd and integ clear, the step is armed. -/
def ptpGmport (s : State) (v : Word) : State :=
  let s1 := s.setReg (ptpa 0xC) (v &&& 0xFFFF#32)
  let id := (s.reg (ptpa 4)).toNat * 2 ^ 32 + (s.reg (ptpa 8)).toNat
  let s2 := setPtp s1 { s1.ptp with gmid := id, gmport := fld v 15 0, mpd := 0, haveMpd := false, integ := 0, armed := true,
                                    good := 0, bad := 0, wait := none, last := none, req := none, reqAt := none }
  let s3 := s2.setReg (ptpa 0x28) 0#32
  if bit (s.reg (ptpa 0)) 31 then ptpEnter s3 1 else s3

def execPtpGmportWrite (v : Word) (s : State) : Out State := .next (ptpGmport s v)

/-- A signed log2 of seconds, in ns. -/
def logNs (i : Int) : Nat := if i < 0 then 1000000000 / 2 ^ i.natAbs else 1000000000 * 2 ^ i.natAbs

/-- Tick at which four Sync intervals have passed since the last Sync used (R405). -/
def holdoverTick (s : State) : Nat := s.ptp.syncAt + 4 * logNs s.ptp.logInt

/-- No Sync for four intervals (R405). -/
def execPtpHoldover (s : State) : Out State :=
  .next (if ptpState s = 2 || ptpState s = 3 then
    atInstant (fun s => s.now + cyclesTo s (holdoverTick s))
      (fun s => ptpEnter (setPtp s { s.ptp with good := 0, bad := 0 }) 4) s
    else s)

/-- A clamp of the servo: 500 ppm. -/
def servoClamp (i : Int) : Int := clampI (-2147484) 2147484 i

/-- The lock count (R405). -/
def ptpCount (s : State) (ofs : Int) : State :=
  let near := decide ((ofs.natAbs : Nat) ≤ fld (s.reg (ptpa 0x18)) 15 0)
  let p := s.ptp
  let s1 := setPtp s { p with good := if near then p.good + 1 else 0, bad := if near then 0 else p.bad + 1 }
  if ptpState s1 = 2 && 16 ≤ s1.ptp.good then ptpEnter (setPtp s1 { s1.ptp with good := 0, bad := 0 }) 3
  else if ptpState s1 = 3 && 4 ≤ s1.ptp.bad then ptpEnter (setPtp s1 { s1.ptp with good := 0, bad := 0 }) 2
  else s1

/-- A Sync is used (R404, R405): the step, or the servo. -/
def ptpSync (s : State) (t1 t2 cs : Int) (log : Int) (ip mac : Nat) : State :=
  let s0 := setPtp s { s.ptp with last := some (t1, t2, cs), logInt := log, syncAt := s.tick, srcIp := ip, srcMac := mac }
  let st := ptpState s0
  let s1 := if st = 1 || st = 4 then ptpEnter (setPtp s0 { s0.ptp with good := 0, bad := 0 }) 2 else s0
  if !s1.ptp.haveMpd then s1
  else
    let p := s1.ptp
    let ofs := t2 - t1 - cs - p.mpd
    let a := ptpa 0x30
    let s2 := (s1.setReg (ptpa 0x24) (wd (narrow 32 (clampI (-2147483648) 2147483647 ofs)))).setRf a 15 0 (fld (s1.reg a) 15 0 + 1)
    if ptpState s2 = 2 && p.armed && (s2.reg (ptpa 0x14)).toNat < ofs.natAbs then
      (tickStepAdd (setPtp s2 { p with integ := 0, armed := false, good := 0 }) (narrow 64 (-ofs))).orReg (ptpa 0x1C) 0x400
    else
      let g := s2.reg (ptpa 0x10)
      let integ := servoClamp (p.integ + fld g 7 0 * ofs)
      let adj := servoClamp (-(fld g 15 8 * ofs + integ))
      let w := wd (narrow 32 adj)
      ptpCount (((setPtp s2 { p with integ := integ }).setReg (ptpa 0x2C) w).setReg 0xA0818 w) ofs

/-- A Delay_Resp is used (R404). -/
def ptpResp (s : State) (t4 cr : Int) : State :=
  match s.ptp.req with
  | some (_, some t3, t1s, t2s, cs) =>
    let d := ((t2s - t1s - cs) + (t4 - t3 - cr)) / 2
    let p := s.ptp
    let m := if p.haveMpd then p.mpd + (d - p.mpd) / 16 else d
    let a := ptpa 0x30
    ((setPtp s { p with mpd := m, haveMpd := true, req := none }).setReg (ptpa 0x28) (wd (narrow 32 m))).setRf a 31 16 (fld (s.reg a) 31 16 + 1)
  | _ => s

/-- The slave's clockIdentity (R402). -/
def ptpIdentity (s : State) : Nat :=
  let m := laneMac s 0 (fld (s.reg (ptpa 0)) 1 0)
  m / 2 ^ 24 * 2 ^ 40 + 0xFFFE * 2 ^ 24 + m % 2 ^ 24

/-- A PTP timestamp in ns. -/
def ptpTime (d : List Byte) (at' : Nat) : Int := (be d at' 6 * 1000000000 + be d (at' + 6) 4 : Nat)

/-- A frame for a firmware class: to the ring when its bit of FWFILT is set, else dropped (R374). -/
def toFirmware (s : State) (b l cls : Nat) (f : List Byte) : State :=
  if bit (s.reg (lnk b 0x3010)) cls then fwReceive s b l cls f else s.addReg (laneReg b l 0x1C) 1

/-- A PTP message on the PTP lane (R402). -/
def ptpMessage (s : State) (l : Nat) (f : List Byte) (p : Parsed) (ip : Nat) (d : List Byte) : State :=
  let ty := be d 0 1 % 16
  let src := be d 20 8
  let cor := sx 64 (be d 8 8) / 2 ^ 16
  let mine := bit (s.reg (ptpa 0)) 31 && isV4 ip && s.ptp.gmid ≠ 0 && be d 4 1 = fld (s.reg (ptpa 0)) 23 16 && src = s.ptp.gmid &&
    be d 28 2 = s.ptp.gmport && 44 ≤ d.length && be d 1 1 % 16 = 2
  let log := sx 8 (be d 33 1)
  let seq := be d 30 2
  if ty = 2 || ty = 3 || ty = 10 then s
  else if ty = 11 || ty = 12 || ty = 13 || !mine then toFirmware s 0 l 4 f
  else match ty with
    | 0 =>
      if be d 6 1 / 2 % 2 = 1 then setPtp s { s.ptp with wait := some (seq, (s.tick : Int), cor) }
      else ptpSync s (ptpTime d 34) s.tick cor log ip p.src
    | 8 =>
      match s.ptp.wait with
      | some (q, t2, c) =>
        if q = seq then ptpSync (setPtp s { s.ptp with wait := none }) (ptpTime d 34) t2 (c + cor) log ip p.src else s
      | none => s
    | 9 =>
      let own := be d 44 8 = ptpIdentity s && be d 52 2 = 1
      let last := match s.ptp.req with
        | some (q, _) => q = seq
        | none => false
      if own && last then ptpResp s (ptpTime d 34) cor else s
    | _ => toFirmware s 0 l 4 f

/-- Delay_Req (R402): sent once a Sync has been used. -/
def delayReq (s : State) : State :=
  let c := s.reg (ptpa 0)
  match s.ptp.last with
  | none => s
  | some (t1, t2, cs) =>
    if !bit c 31 then s
    else
      let l := fld c 1 0
      let p := s.ptp
      let body := beBytes 1 1 ++ beBytes 1 2 ++ beBytes 2 44 ++ beBytes 1 (fld c 23 16) ++ zeros 15 ++
        beBytes 8 (ptpIdentity s) ++ beBytes 2 1 ++ beBytes 2 p.reqSeq ++ beBytes 1 1 ++ beBytes 1 0x7F ++ zeros 10
      let hybrid := bit c 30
      let dip := if hybrid then p.srcIp else 0xFFFF * 2 ^ 32 + 0xE0000181
      let dmac := if hybrid then p.srcMac else 0x01005E000181
      let ip := ipPacket (entryIp s 0 (fld c 6 2)) dip 46 64 319 319 body
      let s1 := setPtp s { p with req := some (p.reqSeq, none, t1, t2, cs), reqSeq := (p.reqSeq + 1) % 2 ^ 16,
                                  reqAt := some s.tick }
      (laneSend s1 0 l 0 0 (sealFrame (etherHead dmac (laneMac s 0 l) none ip.1 ++ ip.2))).1

/-- Tick at which the next Delay_Req is due (R402): 2^DRI seconds after the last. -/
def delayReqTick (s : State) : Nat :=
  match s.ptp.reqAt with
  | none => 0
  | some t => t + logNs (sx 4 (fld (s.reg (ptpa 0)) 11 8))

/-- DELAY_REQ_SEND (R402). -/
def execDelayReqSend (s : State) : Out State :=
  .next (if s.ptp.last.isSome && bit (s.reg (ptpa 0)) 31 then
    atInstant (fun s => s.now + cyclesTo s (delayReqTick s)) delayReq s else s)

/-! ### Frames -/

/-- Steps 5 to 7 of R374 for a frame without odd tags. -/
def classify (s : State) (b l : Nat) (f : List Byte) (p : Parsed) : State :=
  let drop := fun (s : State) => s.addReg (laneReg b l 0x1C) 1
  if p.etype = 0x88B5 then
    match findFlow s b l p none (be p.body 2 2) with
    | some (k, setB) => ewetuPacket s b k setB p.body
    | none => drop s
  else match parseUdp p with
    | some u =>
      if !u.ok then s.addReg (laneReg b l 0x18) 1
      else if b = 0 && l = fld (s.reg (ptpa 0)) 1 0 && (u.dport = 319 || u.dport = 320) then ptpMessage s l f p u.src u.data
      else match findFlow s b l p (some (u.src, u.dst)) u.dport with
        | some (k, setB) => if flowType s b k = 3 then audio2110 s k setB u.data else video2110 s b k setB u.data
        | none => toFirmware s b l (if p.dst / 2 ^ 40 % 2 = 1 then 6 else 5) f
    | none => toFirmware s b l (otherClass p) f

/-- A received frame (R374), with its FCS. -/
def frameIn (s : State) (b l : Nat) (frame : List Byte) : State :=
  if !etherUp s b l then s
  else
    let n := frame.length
    let f := frame.take (n - 4)
    if n < 64 || 9022 < n || leNat (frame.drop (n - 4)) ≠ crc32 f then
      (s.addReg (laneReg b l 0x18) 1).orReg (laneReg b l 4) 0x200
    else
      let s1 := s.addReg (laneReg b l 0x14) 1
      let p := parseEther f
      if p.dst ≠ laneMac s b l && p.dst / 2 ^ 40 % 2 = 0 then s1.addReg (laneReg b l 0x1C) 1
      else if p.etype = 0x8808 then s1.addReg (laneReg b l 0x1C) 1
      else if p.odd then toFirmware s1 b l 7 f
      else classify s1 b l f p

/-- FRAME_RECEIVE (R374). -/
def execFrameReceive (b l : Nat) (frame : List Byte) (s : State) : Out State :=
  .next (if s.present b && l < 4 then frameIn s b l frame else s)

end Sys2Proof.Machine
end

