-- ==== Sys2Proof/Machine/Quench.lean ====
section
/-! DEFINITION. Quench: the twin pair, its records, takeovers, resync, aligned hand-offs and the mailbox
(R372, R393, R407-R429). -/

namespace Sys2Proof.Machine

/-! ### States -/

/-- Comparison stops: nothing waits and no port is ready. -/
def stopCompare (s : State) : State :=
  setQch s { s.quench with own := [], theirs := [], ready := 0, armFrame := false }

/-- Enter a STATE (file 15): a change of ARMED is an event, and leaving ATTACHED and ARMED stops comparison (R421). -/
def setSt (s : State) (n : Nat) : State :=
  let old := s.quench.st
  let s1 := setQch s { s.quench with st := n }
  let s2 := if (old = 3) ≠ (n = 3) then qchEvt s1 1 else s1
  if n = 2 || n = 3 then s2 else stopCompare s2

/-- A resync ends in error (R427). -/
def resyncFail (s : State) : State := (qchEvt s 0x400).clrReg (qcha 0x84) 0x80000000

/-- The link is not up: STATE reads linking, and a resync ends (R427). -/
def linkDown (s : State) : State :=
  let s1 := if s.quench.st = 5 then resyncFail s else s
  let s2 := setQch s1 { s1.quench with link := false, detachNext := false, attachNext := false }
  if qchOn s2 then setSt s2 1 else s2

/-- LINKDLY exceeds 1,800 forge cycles (R409). -/
def linkSlow (s : State) : Bool := 1800 < fld (s.reg (qcha 0x20)) 15 0

/-- The pairing conditions of R409. -/
def pairOk (s : State) (t : Nat × Nat × Nat × Nat) : Bool :=
  let c := s.reg (qcha 0)
  t.1 = (s.reg 0x800000).toNat && t.2.1 = (s.reg 0x800004).toNat && t.2.2.1.testBit 1 ≠ bit c 1 &&
    bits t.2.2.1 11 8 = fld c 11 8 && t.2.2.2 = (s.reg (qcha 0x14)).toNat && !linkSlow s

/-- Pairing is judged (R409), once the twin's side is known. -/
def pairCheck (s : State) : State :=
  match s.quench.twin with
  | none => s
  | some t =>
    if !qchOn s || !s.quench.link then s
    else if pairOk s t then
      if s.quench.st = 1 || s.quench.st = 6 then
        setSt (setQch s { s.quench with aligned := false, stamp := none, seqAdd := [], seqOwn := [] }) 2
      else s
    else setSt (qchEvt (if s.quench.st = 5 then resyncFail s else s) 0x100) 6

/-- The named lanes are all up (R407). -/
def lanesUp (s : State) : Bool :=
  let m := fld (s.reg (qcha 0)) 11 8
  m ≠ 0 && (upto 4).all (fun i => !m.testBit i ||
    (laneMode s (i / 2) (2 + i % 2) = 6 && bit (s.reg (laneReg (i / 2) (2 + i % 2) 4)) 2))

/-- The link forms or ceases to be up with its lanes (R407). -/
def linkJudge (s : State) : State :=
  if !qchOn s then s
  else if lanesUp s && !s.quench.link then pairCheck (qchEvt (setQch s { s.quench with link := true }) 0x20)
  else if !lanesUp s && s.quench.link then linkDown s
  else s

/-- LINK_STATE_CHANGE (R372, R407). -/
def execLinkStateChange (b l : Nat) (up : Bool) (s : State) : Out State :=
  .next (if s.present b && l < 4 then linkJudge (laneLink s b l up) else s)

/-- LANE_CTRL_WRITE (R371). -/
def execLaneCtrlWrite (b l : Nat) (v : Word) (s : State) : Out State :=
  .next (if s.present b && l < 4 then linkJudge (laneCtrl s b l v) else s)

/-! ### Roles -/

/-- The role requested with ROLEREQ = 1 is decided (R412). -/
def decideRole (s : State) : State :=
  let free := !s.quench.peer || bit (s.reg (qcha 0)) 7
  let s1 := setQch s { s.quench with active := free, deciding := false }
  if free then s1 else qchEvt s1 0x80

/-- EN written 1 (R412). -/
def quenchOn (s : State) : State :=
  let fresh := !qchOn s
  let s1 := s.orReg (qcha 0) 1
  let s2 := if fresh then setQch s1 { s1.quench with st := 1, link := false } else s1
  let c := s2.reg (qcha 0)
  let s3 := if !bit c 2 then setQch s2 { s2.quench with active := false, deciding := false }
    else if bit c 1 then setQch s2 { s2.quench with active := !fresh && s2.quench.active, deciding := true, decideAt := s2.now + 1200000 }
    else decideRole s2
  pairCheck (linkJudge s3)

/-- QUENCH_ENABLE (R412). -/
def execQuenchEnable (s : State) : Out State := .next (quenchOn s)

/-- EN written 0 (R412): unpaired. -/
def quenchOff (s : State) : State :=
  let s1 := if s.quench.st = 5 then resyncFail s else s
  let s2 := setSt (s1.clrReg (qcha 0) 1) 0
  setQch s2 { Quench.init with peer := s2.quench.peer }

/-- QUENCH_DISABLE (R412). -/
def execQuenchDisable (s : State) : Out State := .next (quenchOff s)

/-- A write of QCH_CTRL (R409, R412). -/
def quenchCtrl (s : State) (v : Word) : State :=
  let w := v &&& 0xFF7#32
  let s1 := s.setReg (qcha 0) ((w &&& 0xFF6#32) ||| (s.reg (qcha 0) &&& 1#32))
  if bit w 0 then quenchOn s1 else if qchOn s then quenchOff s1 else s1

/-- A write of QCH_PORTEN (R409): bits of absent billets read 0. -/
def quenchPorten (s : State) (v : Word) : State :=
  pairCheck (s.setReg (qcha 0x14) (wd (v.toNat % 2 ^ (4 * s.n))))

/-- ROLE_DECIDE (R412): 1.0 ms after the write. -/
def execRoleDecide (s : State) : Out State :=
  .next (if qchOn s && s.quench.deciding then atInstant (fun s => s.quench.decideAt) decideRole s else s)

/-- TWIN_PEER_CHANGE (R413, R422): its fall while the link is lost is cause 5. -/
def peerChange (s : State) (level : Bool) : State :=
  let q := s.quench
  let s1 := setQch s { q with peer := level }
  if q.peer && !level && pairShadow s && !q.link && q.st ≠ 5 && !bit (s.reg (qcha 0)) 7 then takeTrigger s1 5 else s1

def execTwinPeerChange (level : Bool) (s : State) : Out State := .next (peerChange s level)

/-- The link is lost (R408, R422). -/
def twinLost (s : State) : State :=
  if !qchOn s || (s.quench.twin.isNone && !s.quench.link) then s
  else
    let resync := decide (s.quench.st = 5)
    let s1 := qchEvt (linkDown (setQch s { s.quench with twin := none })) 0x40
    let ign := bit (s.reg (qcha 0)) 7
    let peer := s.quench.peer && !ign
    let s2 := if peer then qchEvt s1 0x80 else s1
    if pairShadow s && !resync && !peer then takeTrigger s2 5 else s2

/-- TWIN_LINK_LOST (R408). -/
def execTwinLinkLost (s : State) : Out State := .next (twinLost s)

/-! ### Frame stamps -/

/-- The sequence registers of the 32 raster and 8 audio senders. -/
def seqRegs : List Nat :=
  (upto 32).map (fun i => txp (i / 4) (i % 4) 0x24) ++ (upto 8).map (fun g => txa g 0x24)

/-- FALIGN as judged for the running frame (R410); its fall disarms (R421). -/
def judgeAlign (s : State) : State :=
  let ok := match s.quench.stamp with
    | some (f, t, _) => f = s.beam.frame && ((t : Int) - s.beam.frameAt).natAbs ≤ 16
    | none => false
  let s1 := setQch s { s.quench with falign := ok }
  if ok then s1
  else stopCompare (if s1.quench.st = 3 then setSt s1 2 else s1)

/-- The shadow's additions for the next frame start (R418). -/
def alignSeqs (s : State) : State :=
  let q := s.quench
  match q.stamp with
  | none => s
  | some (_, _, seqs) =>
    if pairShadow s && (q.st = 2 || q.st = 3) && q.seqOwn ≠ [] then
      let d := (upto 40).map (fun i => (seqs.getD i 0 + 2 ^ 32 - q.seqOwn.getD i 0) % 2 ^ 32)
      let s1 := setQch s { q with aligned := true, seqAdd := d }
      if q.aligned && d.any (· ≠ 0) then qchEvt s1 0x2000 else s1
    else s

/-- The stamp as Bellows' reference (R73, R410). -/
def stampRef (s : State) (m : TwinStamp) : State :=
  if refSel s ≠ 3 then s
  else if m.refTwin then
    if s.genlock.conflict then s
    else (restartLoop { s with genlock := { s.genlock with conflict := true } }).orReg 0x18 0x800
  else refEvent s (s.now - m.delay) (some ((m.frame + 1) % 2 ^ 48))

/-- The twin's frame stamp arrives (R408, R410, R412, R418). -/
def stampIn (s : State) (m : TwinStamp) : State :=
  if !qchOn s || !s.quench.link then s
  else
    let first := s.quench.stamp.isNone
    let s1 := (setQch s { s.quench with stamp := some (m.frame, s.now - m.delay, m.seqs), twinActive := m.active }).setReg
      (qcha 0x20) (wd (min 65535 m.delay))
    let s2 := if first && s1.quench.active && m.active && qchId s1 && s1.quench.st ≠ 1 && s1.quench.st ≠ 6 then takeTrigger s1 6 else s1
    let s3 := if m.frame = s.beam.frame then alignSeqs (judgeAlign s2)
      else if m.frame = (s.beam.frame + 1) % 2 ^ 48 then s2
      else judgeAlign s2
    stampRef s3 m

/-- TWIN_FRAME_STAMP_RECEIVE (R410). -/
def execTwinFrameStampReceive (m : TwinStamp) (s : State) : Out State := .next (stampIn s m)

/-! ### Records -/

/-- Does the part compare this port (R421)? -/
def comparing (s : State) (port : Nat) : Bool :=
  (s.quench.st = 2 || s.quench.st = 3) && s.quench.falign && s.quench.ready.testBit port && bit (s.reg (qcha 0x14)) port

/-- Entries of a list of package frames within MWIN (file 15). -/
def inWindow (s : State) (l : List Nat) : List Nat :=
  l.filter (fun f => (s.beam.frame + 2 ^ 48 - f) % 2 ^ 48 < max 1 (fld (s.reg (qcha 0x18)) 31 16))

/-- MMAX. -/
def mmax (s : State) : Nat := max 1 (fld (s.reg (qcha 0x18)) 7 0)

/-- Two records differ (R420-R422). -/
def recMismatch (s : State) (own theirs : LineRec) : State :=
  let pf := (s.port (own.port / 4) (own.port % 4)).frame
  let frame := pf + 2 ^ 48 - (pf + 2 ^ 16 - own.frame % 2 ^ 16) % 2 ^ 16
  let s1 := if bit (s.reg (qcha 0xC)) 1 then s
    else (s.setReg (qcha 0x30) (wd (own.port * 2 ^ 24 + (own.line + s.beam.vactStart) % 2 ^ 16))).setReg (qcha 0x34) (wd frame)
  let q := s.quench
  let cnt := qcha 0x28
  let f := s.beam.frame
  let s2 := qchEvt (setQch s1 { q with armGood := false }) 2
  let s3 :=
    if own.under && !theirs.under then
      qchEvt (setQch (s2.addRf cnt 19 10 1) { s2.quench with mmLocal := f :: inWindow s q.mmLocal }) 8
    else if theirs.under && !own.under then
      setQch (s2.addRf cnt 29 20 1) { s2.quench with mmTwin := f :: inWindow s q.mmTwin }
    else setQch (s2.addRf cnt 9 0 1) { s2.quench with mmUnattr := f :: inWindow s q.mmUnattr }
  let blamed := if q.active then s3.quench.mmLocal else s3.quench.mmTwin
  let s4 := if q.st = 3 && bit (s.reg (qcha 0)) 6 && own.under ≠ theirs.under && mmax s ≤ (inWindow s blamed).length
    then takeTrigger s3 3 else s3
  if q.st = 3 && mmax s ≤ (inWindow s s4.quench.mmUnattr).length && own.under = theirs.under then setSt s4 2 else s4

/-- A record and its partner are both present (R420). -/
def recJudge (s : State) (own theirs : LineRec) : State :=
  if own.crc = theirs.crc then s.addReg (qcha 0x24) 1 else recMismatch s own theirs

/-- The same port, frame and line. -/
def RecWait.meets (w : RecWait) (m : LineRec) : Bool :=
  w.port = m.port && w.frame = m.frame % 2 ^ 16 && w.line = m.line

def RecWait.toRec (w : RecWait) : LineRec := ⟨w.port, w.frame, w.line, w.crc, w.under⟩

/-- A record kept until its partner comes. -/
def recKeep (s : State) (m : LineRec) : RecWait := ⟨m.port, m.frame % 2 ^ 16, m.line, m.crc, m.under, s.beam.ends⟩

/-- The twin's record arrives (R420). -/
def recIn (s : State) (m : LineRec) : State :=
  if !qchOn s || !s.quench.link || !comparing s m.port then s
  else match s.quench.own.find? (fun w => w.meets m) with
    | some w => recJudge (setQch s { s.quench with own := s.quench.own.erase w }) w.toRec m
    | none => setQch s { s.quench with theirs := s.quench.theirs ++ [recKeep s m] }

/-- LINE_RECORD_RECEIVE (R420). -/
def execLineRecordReceive (m : LineRec) (s : State) : Out State := .next (recIn s m)

/-- The 6 bytes of a pixel (R419). -/
def recBytes (q : OutPx) : List Byte := leBytes 2 q.r ++ leBytes 2 q.g ++ leBytes 2 q.b

/-- The record of the line whose last active pixel has left (R419). -/
def recOf (s : State) (b p : Nat) : LineRec :=
  let o := s.out b p
  let x := s.port b p
  let l := if bit (s.reg (qcha 0)) 4 then o.tap1 else o.tap0
  { port := pidx b p, frame := x.frame % 2 ^ 16, line := x.line - s.beam.vactStart, crc := crc32 (l.flatMap recBytes),
    under := l.any (·.under) }

/-- The part's own record is sent, and waits or meets the twin's (R419, R420). -/
def recOut (s : State) (b p : Nat) : State :=
  if !qchOn s || !comparing s (pidx b p) then s
  else
    let m := recOf s b p
    match s.quench.theirs.find? (fun w => w.meets m) with
    | some w => recJudge (setQch s { s.quench with theirs := s.quench.theirs.erase w }) m w.toRec
    | none => setQch s { s.quench with own := s.quench.own ++ [recKeep s m] }

/-- A record has waited 4 package lines (R420). -/
def recOld (s : State) (w : RecWait) : Bool := w.ends + 4 ≤ s.beam.ends

/-- The oldest record without a partner is given up (R420). -/
def recMiss (s : State) : State :=
  let q := s.quench
  let miss := fun (x : Quench) => qchEvt ((setQch s { x with armGood := false }).addReg (qcha 0x2C) 1) 4
  match q.own.find? (recOld s), q.theirs.find? (recOld s) with
  | some w, some v => if v.ends < w.ends then miss { q with theirs := q.theirs.erase v } else miss { q with own := q.own.erase w }
  | some w, none => miss { q with own := q.own.erase w }
  | none, some v => miss { q with theirs := q.theirs.erase v }
  | none, none => s

/-- LINE_RECORD_MISS (R420). -/
def execLineRecordMiss (s : State) : Out State := .next (recMiss s)

/-! ### Takeover -/

/-- TAKE (R422). -/
def execTake (s : State) : Out State := .next (if pairShadow s then takeTrigger s 1 else s)

/-- YIELD (R422): a shadow in RESYNC takes over only by TAKE. -/
def execYield (s : State) : Out State := .next (if pairActive s && s.quench.st ≠ 5 then takeTrigger s 2 else s)

/-- The twin's takeover message (R423): the earlier B is kept. -/
def takeIn (s : State) (m : TakeMsg) : State :=
  if !qchOn s || !s.quench.link || (s.quench.st = 5 && !s.quench.active && m.cause ≠ 1) then s
  else match s.quench.pend with
    | none => setQch s { s.quench with pend := some (m.frame, m.line, m.cause, m.cause ≠ 6) }
    | some (f, l, c, own) =>
      if linePrec (m.frame, m.line) (f, l) then setQch s { s.quench with pend := some (m.frame, m.line, c, own) } else s

/-- TAKEOVER_MESSAGE (R423). -/
def execTakeoverMessage (m : TakeMsg) (s : State) : Out State := .next (takeIn s m)

/-- The roles change at B (R424). -/
def takeApply (s : State) : State :=
  match s.quench.pend with
  | none => s
  | some (f, l, cause, change) =>
    if linePrec (hereLine s) (f, l) then s
    else
      let q := s.quench
      let s1 := setQch s { q with pend := none, active := if change then !q.active else q.active }
      if !change then s1
      else
        let s2 := (((s1.setRf (qcha 8) 27 24 cause).setReg (qcha 0x38) (wd (l % 2 ^ 16))).setReg (qcha 0x3C) (wd f))
        qchEvt s2 (if cause = 4 && q.active then 0x18 else 0x10)

/-! ### Detach, attach, resync -/

/-- May DETACH act: attached, armed or in a resync. -/
def canDetach (s : State) : Bool := s.quench.st = 2 || s.quench.st = 3 || s.quench.st = 5

def detachAsk (s : State) : State :=
  if qchOn s && canDetach s then setQch s { s.quench with detachNext := true } else s

/-- DETACH (R425). -/
def execDetach (s : State) : Out State := .next (detachAsk s)

def attachAsk (s : State) : State :=
  if qchOn s && s.quench.st = 4 then setQch s { s.quench with attachNext := true } else s

/-- ATTACH (R425); the wake request sent while the link is lost changes nothing here. -/
def execAttach (s : State) : Out State := .next (attachAsk s)

/-- A resync starts in this part (R426, R219). -/
def resyncStart (s : State) : State :=
  let s1 := ((setSt s 5).setReg (qcha 0x84) 0x80000000#32).setReg (qcha 0x88) 0#32
  s1.eachBillet (fun s b => s.setHammer b 0 { s.hammer b 0 with sm := true })

/-- RESYNC written (R426). -/
def resyncAsk (s : State) : State :=
  if pairShadow s && s.quench.link && s.quench.st ≠ 6 then resyncStart s else qchEvt s 0x400

/-- RESYNC (R426). -/
def execResync (s : State) : Out State := .next (resyncAsk s)

/-- A control message of the twin (R409, R425, R426). -/
def twinMessage (s : State) (m : TwinCtl) : State :=
  if !qchOn s || !s.quench.link then s
  else match m with
    | .detach => detachAsk s
    | .attach => attachAsk s
    | .resync => if s.quench.active && s.quench.st ≠ 6 then resyncStart s else s
    | .pairing part step ctrl porten =>
      pairCheck ((setQch s { s.quench with twin := some (part, step, ctrl, porten) }).setReg (qcha 0x48)
        (wd (part % 256 * 256 + step % 256)))

/-- TWIN_CONTROL_MESSAGE (R409, R425, R426). -/
def execTwinControlMessage (m : TwinCtl) (s : State) : Out State := .next (twinMessage s m)

/-- One word of pixel state is applied (R426): a line commit of context 27; a live register and a strike count
directly. -/
def pixelWord (s : State) (b : Nat) (e : Nat × Word) : State :=
  let off := e.1 % windowSize
  if e.1 / windowSize ≠ b || 0x800000 ≤ e.1 then s
  else if isLive off then pushLive s b 201 off e.2
  else if 0x8000 ≤ off && off < 0x8100 && off % 0x40 = 4 then s.setReg e.1 (e.2 &&& 0x1FFF1FFF#32)
  else if latchedMask s.variant off ≠ 0 then commitWrite s b 27 { all := false, addr := e.1, val := e.2 }
  else s

/-- One region (R426): the state, the bytes of the link left, and whether it succeeded. -/
def regionCopy (d : ResyncData) (acc : State × List Byte × Bool) (k : Nat) : State × List Byte × Bool :=
  let (s, l, ok) := acc
  let base := (s.reg (qcha (0x100 + 0x10 * k))).toNat
  let sp := s.reg (qcha (0x104 + 0x10 * k))
  let b := fld sp 2 0
  let n := (s.reg (qcha (0x108 + 0x10 * k))).toNat * 64
  let shadow := pairShadow s
  let s0 := s.setRf (qcha 0x84) 4 0 k
  let count := fun (s : State) (u : Nat) => s.addReg (qcha 0x88) u
  if !ok then acc
  else if !s.present b || fld sp 31 30 = 3 then (s0, l, false)
  else match fld sp 31 30 with
    | 0 =>
      if s.memEnd b < base + n then (s0, l, false)
      else (count (if shadow then memStore s0 b 6 base (l.take n) else s0) (n / 64), l.drop n, true)
    | 1 => (count (if shadow then s0.hwrite b (base % hearthSize) (l.take n) else s0) (n / 64), l.drop n, true)
    | _ =>
      let mine := d.pix.filter (fun e => e.1 / windowSize = b)
      let strk := d.strikes.filter (fun e => e.1 / 131072 = b)
      let s1 := if shadow then
          (let s2 := mine.foldl (fun s e => pixelWord s b e) s0
           { s2 with strikeRam := strk.foldl (fun m e => Tbl.set (fun _ => 0#32) m e.1 e.2) s2.strikeRam })
        else s0
      (count s1 ((4 * (mine.length + strk.length) + 63) / 64), l, true)

/-- The regions have been copied (R426, R427): RSDONE, or RSERR where a region is invalid or a decode error. -/
def resyncEnd (s : State) (d : ResyncData) : State :=
  if s.quench.st ≠ 5 then s
  else
    let n := min 32 (fld (s.reg (qcha 0x80)) 5 0)
    let r := (upto n).foldl (regionCopy d) (s, d.mem, true)
    if r.2.2 then setSt ((qchEvt r.1 0x800).clrReg (qcha 0x84) 0x80000000) 4 else setSt (resyncFail r.1) 4

/-- RESYNC_DONE (R427). -/
def execResyncDone (d : ResyncData) (s : State) : Out State := .next (resyncEnd s d)

/-! ### Hand-offs -/

/-- A hardware hand-off commit is issued (R163): context 22 + n, SEQ one on. Its word carries the writer's HSRC in bits
[3:2], which HANDOFF does not hold. -/
def handIssue (s : State) (b n slot hsrc : Nat) (target : Nat × Nat) : State :=
  let x := s.video b n
  let seq := (x.hwSeq + 1) % 2 ^ 16
  issueCommit (s.setVideo b n { x with hwSeq := seq }) b (22 + n)
    ((handBillets s b n).map (fun c => { all := false, addr := vaddr c n 0x40, val := wd (seq * 2 ^ 16 + hsrc * 4 + slot) }))
    target target.2 false

/-- Package lines from the start of the running frame to a position, frames compared modulo 2^48 (R64). -/
def absLine (s : State) (p : Nat × Nat) : Int :=
  let d : Nat := (p.1 + 2 ^ 48 - s.beam.frame % 2 ^ 48) % 2 ^ 48
  (if d < 2 ^ 47 then (d : Int) else (d : Int) - 2 ^ 48) * (s.beam.vtotal : Int) + (p.2 : Int)

/-- The occurrence of F_L whose seal lies at least HMARGIN lines after a position (R417): the seal of line n is made at
the start of line n - 1. -/
def alignedTarget (s : State) (later : Int) : Nat × Nat :=
  let v := max 1 s.beam.vtotal
  let fl := (s.beam.vactStart + v - 8 % v) % v
  let least : Int := later + fld (s.reg (qcha 0x40)) 15 8 + 1
  let f : Int := (least + v - 1 - fl) / v
  ((((s.beam.frame : Int) + f) % 2 ^ 48).toNat, fl)

/-- A match of notices (R417): the hand-off is issued, and the flow shows FRAME. -/
def alignedIssue (s : State) (own theirs : NoticeWait) : State :=
  let later := max (absLine s (own.frame, own.line)) (absLine s (theirs.frame, theirs.line))
  let f := fld (s.video own.billet own.layer).cfg.ctrl 19 16
  flowStat (handIssue s own.billet own.layer own.slot 1 (alignedTarget s later)) own.billet f 1

/-- The same layer and identity. -/
def NoticeWait.meets (a b : NoticeWait) : Bool := a.billet = b.billet && a.layer = b.layer && a.ident = b.ident

/-- A receive flow's frame is in memory (R393, R417). -/
def frameReady (s : State) (b f : Nat) : State :=
  let x := s.flow b f
  match x.done with
  | [] => s
  | fr :: t =>
    let s1 := s.setFlow b f { x with done := t }
    match fr.slot with
    | none => s1
    | some k =>
      if qchOn s && bit (s.reg (qcha 0)) 5 then
        let own : NoticeWait := ⟨b, fr.layer, fr.ident, s.beam.frame, s.beam.line, k⟩
        match s1.quench.twinNotices.find? (fun n => n.meets own) with
        | some n => alignedIssue (setQch s1 { s1.quench with twinNotices := s1.quench.twinNotices.erase n }) own n
        | none => setQch s1 { s1.quench with notices := s1.quench.notices ++ [own] }
      else flowStat { s1 with handQ := s1.handQ ++ [(b, fr.layer, k, 1)] } b f 1

/-- RECEIVE_FRAME_END (R393): the oldest ended frame's writes have all been accepted. -/
def execReceiveFrameEnd (b f : Nat) (s : State) : Out State :=
  .next (if s.present b && f < 16 then frameReady s b f else s)

/-- The twin's notice arrives (R417). -/
def noticeIn (s : State) (m : Notice) : State :=
  if !qchOn s || !s.quench.link || !bit (s.reg (qcha 0)) 5 then s
  else
    let n : NoticeWait := ⟨m.billet, m.layer, m.ident, m.frame, m.line, 0⟩
    match s.quench.notices.find? (fun w => w.meets n) with
    | some w => alignedIssue (setQch s { s.quench with notices := s.quench.notices.erase w }) w n
    | none => setQch s { s.quench with twinNotices := s.quench.twinNotices ++ [n] }

/-- HANDOFF_NOTICE (R417). -/
def execHandoffNotice (m : Notice) (s : State) : Out State := .next (noticeIn s m)

/-- A notice has waited HWAIT package frames. -/
def noticeOld (s : State) (n : NoticeWait) : Bool :=
  absLine s (n.frame, n.line) + max 1 (fld (s.reg (qcha 0x40)) 7 0) * s.beam.vtotal ≤ absLine s (hereLine s)

/-- The oldest unmatched notice is withdrawn (R417): its slot is FREE again. The twin's notices that have waited as long
are forgotten. -/
def noticeDrop (s : State) : State :=
  let q := s.quench
  let kept := q.twinNotices.filter (fun n => !noticeOld s n)
  match q.notices.find? (noticeOld s) with
  | none => setQch s { q with twinNotices := kept }
  | some n =>
    let s1 := setQch s { q with notices := q.notices.erase n, twinNotices := kept }
    let x := s1.video n.billet n.layer
    let s2 := vidBufstat (s1.setVideo n.billet n.layer
      (if slotState x n.slot = 1 then setSlotState x n.slot 0 else x)) n.billet n.layer
    qchEvt (s2.addReg (qcha 0x44) 1) 0x200

/-- HANDOFF_NOTICE_WITHDRAW (R417). -/
def execHandoffNoticeWithdraw (s : State) : Out State := .next (noticeDrop s)

/-! ### Mailbox -/

/-- MAILBOX_SEND (R428): the sixteen words leave for the twin. -/
def execMailboxSend (v : Word) (s : State) : Out State := .next (s.setReg (qcha 0x43C) v)

/-- A message replaces the sixteen MBIN words (R428). -/
def mailIn (s : State) (ws : List Word) : State :=
  if qchOn s && s.quench.link then
    qchEvt ((upto 16).foldl (fun s j => s.setReg (qcha (0x440 + 4 * j)) (ws.getD j 0#32)) s) 0x1000
  else s

/-- MAILBOX_RECEIVE (R428). -/
def execMailboxReceive (ws : List Word) (s : State) : Out State := .next (mailIn s ws)

/-! ### Line and frame starts -/

/-- Quench at a package line start (R424, R425). -/
def quenchLine (s : State) : State :=
  let s1 := takeApply s
  if s1.quench.detachNext then
    let s2 := setQch s1 { s1.quench with detachNext := false }
    setSt (if s2.quench.st = 5 then resyncFail s2 else s2) 4
  else s1

/-- Every compared port has been compared since its frame start. -/
def allReady (s : State) : Bool :=
  let m := (s.reg (qcha 0x14)).toNat
  s.quench.ready &&& m = m

/-- Quench at a package frame start: arming (R421), the sequence additions (R418), alignment (R410), ATTACH (R425). -/
def quenchFrame (s : State) : State :=
  let q := s.quench
  let s1 := if q.st = 2 && q.armFrame && q.armGood && q.own = [] && q.theirs = [] && allReady s then setSt s 3 else s
  let s2 := seqRegs.zipIdx.foldl (fun s e => s.addReg e.1 (s1.quench.seqAdd.getD e.2 0)) s1
  let s3 := setQch s2 { s2.quench with seqAdd := [], seqOwn := seqRegs.map (fun a => (s2.reg a).toNat) }
  let s4 := match s3.quench.stamp with
    | some (f, _, _) =>
      if f = s.beam.frame then alignSeqs (judgeAlign s3)
      else if (f + 1) % 2 ^ 48 = s.beam.frame then s3
      else judgeAlign s3
    | none => judgeAlign s3
  let on := (s4.quench.st = 2 || s4.quench.st = 3) && s4.quench.falign
  let s5 := setQch s4 { s4.quench with armFrame := on, armGood := true }
  if s5.quench.attachNext && s5.quench.st = 4 then
    setSt (setQch s5 { s5.quench with attachNext := false, aligned := false }) 2
  else s5

/-- A port frame starts: comparison of the port may begin (R421). -/
def quenchPort (s : State) (b p : Nat) : State :=
  if s.quench.armFrame then setQch s { s.quench with ready := natSet s.quench.ready (pidx b p) } else s

/-- The TWIN_ACTIVE and TWIN_FAULT pins (R413). -/
def twinActivePin (s : State) : Bool := pairActive s
def twinFaultPin (s : State) : Bool := qchOn s && bit (s.reg (qcha 0xC)) 3

/-- QCH_STAT as read (file 15). -/
def qchStat (s : State) : Word :=
  let q := s.quench
  let on := qchOn s
  (s.reg (qcha 8) &&& 0x0F000000#32) |||
    wd (b2n (linkSlow s) * 512 + b2n q.peer * 256 + b2n q.pend.isSome * 128 + b2n q.falign * 64 + b2n q.link * 32 +
        b2n (!on || q.active) * 16 + b2n (on && q.st = 3) * 8 + (if on then q.st else 0))

end Sys2Proof.Machine
end

