-- ==== Sys2Proof/Machine/Leave.lean ====
section
/-! DEFINITION. Pixels leave Anvil, and what follows from it: raster packets and line records (R383, R419, R533). -/

namespace Sys2Proof.Machine

/-- The pixels of a port whose leaving instant has come by cycle `t` leave (R533); their raster packets are built (R383),
and a line that is whole is recorded (R419). -/
def pixelsLeave (s : State) (b p t : Nat) : State :=
  let s1 := passPixels s b p t
  let n := (s1.out b p).tap0.length
  if n = (s.out b p).tap0.length then s1
  else
    let h := (s.port b p).cfg.hAct
    let s2 := rasterFeed s1 b p (h + 1)
    if n = h then recOut s2 b p else s2

/-- A group leaves Anvil at its first pixel's instant (R533), after what left before it. -/
def groupGoes (s : State) (b p g : Nat) : State :=
  pixelsLeave (groupLeave (pixelsLeave s b p s.now) b p g) b p s.now

/-- PIXEL_GROUP_LEAVE (R533): the next group leaves; of a group sent, the pixels that are still to leave do. -/
def pixelGroupLeave (s : State) (b p g : Nat) : State :=
  let o := s.out b p
  if (portView s b p).spanW p = 0 || (s.port b p).cfg.hAct ≤ 4 * g then s
  else if o.sentG = g then atInstant (fun s => pixelAt s b p (4 * g)) (fun s => groupGoes s b p g) s
  else if o.sentG = g + 1 then
    match o.due.getLast? with
    | some e => atInstant (fun s => pixelAt s b p e.1) (fun s => pixelsLeave s b p s.now) s
    | none => s
  else s

end Sys2Proof.Machine
end

