-- ==== Sys2Proof/Machine/Swage.lean ====
section
/-! DEFINITION. Swage blits: operations, clipping, order of work, the beam fence, waits and completion (R276-R293). -/

namespace Sys2Proof.Machine

def State.swage (s : State) (b u : Nat) : Swage := Tbl.get (fun _ => Swage.init) s.swages (2 * b + u)

def State.setSwage (s : State) (b u : Nat) (x : Swage) : State :=
  { s with swages := Tbl.set (fun _ => Swage.init) s.swages (2 * b + u) x }

/-- A register of Swage u (file 11). -/
def swga (b u o : Nat) : Nat := baddr b (0x60000 + 0x100 * u + o)

/-- A parameter of the operation (R276). -/
def Swage.w (x : Swage) (o : Nat) : Word := Tbl.get (fun _ => 0#32) x.op o

/-- The parameter offsets a GO copies (R276). -/
def swgParams : List Nat := (upto 27).map (4 * ·)

/-- The operation and its pixel format. -/
def Swage.opc (x : Swage) : Nat := fld (x.w 0) 2 0
def Swage.fmt (x : Swage) : Nat := fld (x.w 0) 5 4
def Swage.rop (x : Swage) : Nat := fld (x.w 0) 23 16

/-- Bytes of a pixel (R277). -/
def pixBytes (fmt : Nat) : Nat :=
  match fmt with
  | 0 => 1
  | 1 => 2
  | _ => 4

/-- Coordinates and sizes of the operation. -/
def Swage.dx (x : Swage) : Nat := fld (x.w 0x10) 15 0
def Swage.dy (x : Swage) : Nat := fld (x.w 0x10) 31 16
def Swage.sx (x : Swage) : Nat := fld (x.w 0x14) 15 0
def Swage.sy (x : Swage) : Nat := fld (x.w 0x14) 31 16
def Swage.wd (x : Swage) : Nat := fld (x.w 0x18) 15 0 + 1
def Swage.ht (x : Swage) : Nat := fld (x.w 0x18) 31 16 + 1

/-- Byte offset in the billet's GDDR6 of a destination and a source pixel (R277). -/
def Swage.dstAddr (x : Swage) (px py : Nat) : Nat :=
  fld (x.w 4) 31 6 * 64 + py * (fld (x.w 0xC) 29 16 * 64) + px * pixBytes x.fmt
def Swage.srcAddr (x : Swage) (px py : Nat) : Nat :=
  fld (x.w 8) 31 6 * 64 + py * (fld (x.w 0xC) 13 0 * 64) + px * pixBytes x.fmt

/-- Does the operation read its source, and its destination (R279)? -/
def Swage.readsSrc (x : Swage) : Bool :=
  match x.opc with
  | 0 => true
  | 2 => true
  | 3 => true
  | 6 => ((x.rop ^^^ (x.rop / 4)) &&& 0x33) ≠ 0
  | _ => false

def Swage.readsDst (x : Swage) : Bool :=
  match x.opc with
  | 3 => true
  | 6 => ((x.rop ^^^ (x.rop / 2)) &&& 0x55) ≠ 0
  | _ => false

/-- Mask of the colour bits (R277). -/
def colourBits (fmt : Nat) : Nat :=
  match fmt with
  | 0 => 8
  | 1 => 15
  | 2 => 24
  | _ => 30

/-- The alpha of a pixel widened to 8 bits (R277, R112), and its stored field. -/
def alphaOf (fmt v : Nat) : Nat × Nat :=
  match fmt with
  | 1 => let a := bits v 15 15; (a * 255, a)
  | 2 => let a := bits v 31 24; (a, a)
  | _ => let a := bits v 31 30; (a * 85, a)

/-- The colour fields of a format: low bit and width. -/
def colourFields (fmt : Nat) : List (Nat × Nat) :=
  match fmt with
  | 1 => [(0, 5), (5, 5), (10, 5)]
  | 2 => [(0, 8), (8, 8), (16, 8)]
  | _ => [(0, 10), (10, 10), (20, 10)]

/-- ALPHA (R280). -/
def alphaPixel (fmt galpha sv dv : Nat) : Nat :=
  let a := (alphaOf fmt sv).1
  let a1 := a * (galpha + 1) / 256
  let w := a1 + a1 / 128
  let c := (colourFields fmt).foldl (fun acc f =>
    let sc := bits sv (f.1 + f.2 - 1) f.1
    let dc := bits dv (f.1 + f.2 - 1) f.1
    acc + (sc * w + dc * (256 - w) + 128) / 256 * 2 ^ f.1) 0
  c + max (alphaOf fmt sv).2 (alphaOf fmt dv).2 * 2 ^ colourBits fmt

/-- PATROP on one pixel value of `n` bits (R279). -/
def ropPixel (rop n p sv dv : Nat) : Nat :=
  (upto n).foldl (fun acc i =>
    let k := b2n (p.testBit i) * 4 + b2n (sv.testBit i) * 2 + b2n (dv.testBit i)
    acc + b2n (rop.testBit k) * 2 ^ i) 0

/-- The pattern's bit at a destination pixel (R279). -/
def patBit (x : Swage) (px py : Nat) : Bool :=
  let i := (py % 8) * 8 + px % 8
  if i < 32 then bit (x.w 0x28) i else bit (x.w 0x2C) (i - 32)

/-- What the operation writes at a destination pixel, from the source and destination pixels; none: unchanged
(R278). -/
def swagePixel (x : Swage) (px py sv dv : Nat) : Option Nat :=
  let n := 8 * pixBytes x.fmt
  let fg := (x.w 0x1C).toNat % 2 ^ n
  match x.opc with
  | 0 => some sv
  | 1 => some fg
  | 2 => if sv % 2 ^ colourBits x.fmt = (x.w 0x24).toNat % 2 ^ colourBits x.fmt then none else some sv
  | 3 => some (alphaPixel x.fmt (fld (x.w 0) 15 8) sv dv)
  | 4 => some fg
  | 5 =>
    if px = x.dx || px + 1 = x.dx + x.wd || py = x.dy || py + 1 = x.dy + x.ht then some fg else none
  | 6 => some (ropPixel x.rop n (if patBit x px py then fg else (x.w 0x20).toNat % 2 ^ n) sv dv)
  | _ => none

/-- Does clip rectangle k hold a pixel (R282)? -/
def inClip (x : Swage) (k px py : Nat) : Bool :=
  let tl := x.w (0x40 + 8 * k)
  let br := x.w (0x44 + 8 * k)
  fld tl 15 0 ≤ px && px ≤ fld br 15 0 && fld tl 31 16 ≤ py && py ≤ fld br 31 16

/-- Is a destination pixel written (R282)? -/
def clipOk (x : Swage) (px py : Nat) : Bool :=
  let en := fld (x.w 0x38) 3 0
  let ex := fld (x.w 0x38) 7 4
  let inc := (upto 4).filter (fun k => en.testBit k && !ex.testBit k)
  let exc := (upto 4).filter (fun k => en.testBit k && ex.testBit k)
  (inc = [] || inc.any (fun k => inClip x k px py)) && !exc.any (fun k => inClip x k px py)

/-! ### Order of work -/

/-- Two ranges of numbers meet. -/
def meets (a n c m : Nat) : Bool := a < c + m && c < a + n

/-- The overlap Swage detects (R285). -/
def Swage.overlap (x : Swage) : Bool :=
  x.readsSrc && fld (x.w 4) 31 6 = fld (x.w 8) 31 6 && fld (x.w 0xC) 29 16 = fld (x.w 0xC) 13 0 &&
    meets x.dx x.wd x.sx x.wd && meets x.dy x.ht x.sy x.ht

/-- An overlap Swage does not detect, between surfaces that differ in base or stride (R285). -/
def Swage.hiddenOverlap (x : Swage) : Bool :=
  let n := x.wd * pixBytes x.fmt
  x.readsSrc && !(fld (x.w 4) 31 6 = fld (x.w 8) 31 6 && fld (x.w 0xC) 29 16 = fld (x.w 0xC) 13 0) &&
    (upto x.ht).any (fun i => (upto x.ht).any (fun j =>
      meets (x.dstAddr x.dx (x.dy + i)) n (x.srcAddr x.sx (x.sy + j)) n))

/-- Bottom to top, right to left, row mode (R285). -/
def Swage.order (x : Swage) : Bool × Bool × Bool :=
  if !x.overlap then (false, false, false)
  else if x.sy < x.dy then (true, false, decide (x.dy - x.sy < 8))
  else if x.dy < x.sy then (false, false, decide (x.sy - x.dy < 8))
  else (false, decide (x.sx < x.dx), false)

/-- Runs of 8 of a list. -/
def strips (l : List Nat) : List (List Nat) := (upto ((l.length + 7) / 8)).map (fun i => (l.drop (8 * i)).take 8)

/-- The 64-byte column blocks of the destination as first and last column. -/
def Swage.blocks (x : Swage) : List (Nat × Nat) :=
  let k := 64 / pixBytes x.fmt
  let lo := x.dx
  let hi := x.dx + x.wd - 1
  (upto (hi / k - lo / k + 1)).map (fun i => (max lo ((lo / k + i) * k), min hi ((lo / k + i) * k + k - 1)))

/-- The pixels of LINE in order (R281). -/
def Swage.linePix (x : Swage) : List (Nat × Nat × Nat) :=
  let dx : Int := (x.sx : Int) - x.dx
  let dy : Int := (x.sy : Int) - x.dy
  let n := max dx.natAbs dy.natAbs
  (upto (n + 1)).map (fun i =>
    let px := ((x.dx : Int) + Int.fdiv (2 * i * dx + n) (2 * n)).toNat
    let py := ((x.dy : Int) + Int.fdiv (2 * i * dy + n) (2 * n)).toNat
    (py, px, px))

/-- The pieces of the operation in order: row, first and last column (R284). -/
def Swage.pieces (x : Swage) : List (Nat × Nat × Nat) :=
  if x.opc = 4 then x.linePix
  else
    let (up, left, row) := x.order
    let rows := if up then (upto x.ht).reverse else upto x.ht
    let bl := if left then x.blocks.reverse else x.blocks
    let at' := fun (r : Nat) (c : Nat × Nat) => (x.dy + r, c.1, c.2)
    if row then rows.flatMap (fun r => bl.map (at' r))
    else (strips rows).flatMap (fun st => bl.flatMap (fun c => st.map (fun r => at' r c)))

/-! ### Writing -/

/-- Is a write at an address held by the fence on the running line (R287)? -/
def fenceHolds (s : State) (x : Swage) (addr : Nat) : Bool :=
  let cfg := x.w 0x64
  let map := x.w 0x68
  let base := fld (x.w 0x60) 31 6 * 64
  let stride := fld cfg 29 16 * 64
  let r := (addr - base) / stride
  let g := fld cfg 7 0
  let v : Int := max 1 s.beam.vtotal
  let nr : Int := (((fld map 31 16 + r : Nat) : Int)) % v
  bit cfg 31 && stride ≠ 0 && base ≤ addr && r ≤ fld map 15 0 &&
    decide (((s.beam.line : Int) - nr + g + 1) % v ≤ (g : Int) + 2)

/-- What becomes of a piece: the state after it, held by the fence, or a decode error. -/
inductive PieceRes where
  | ok (s : State)
  | held
  | bad (s : State)

/-- A pixel value within bytes read from its row, `o` bytes in. -/
def pixAt (l : List Byte) (o n : Nat) : Nat := leNat ((l.drop o).take n)

/-- The pixel range of a row is read, where the operation reads that side (R279): the bytes, none for a decode error. -/
def rowRead (s : State) (b u : Nat) (reads : Bool) (addr len : Nat) : State × Option (List Byte) :=
  if reads then memRead s b (10 + u) addr len else (s, some [])

/-- Of the pixels a masked 64-byte write holds, those in 64-bit word `w`. -/
def pixIn (vals : List (Nat × Nat)) (w : Nat) : Nat := (vals.filter (fun e => e.1 / 8 = w)).length

/-- The masked write of a piece's pixels, `n` bytes each, enters the write buffers and memory (R282, R314, R321). An
undetected overlap leaves the pixels undefined: free values. -/
def swageStore (s : State) (b u n : Nat) (free : Bool) (vals : List (Nat × Nat)) : State :=
  let ecc := bit (s.reg (memReg b 4)) 4
  let words := (vals.map (·.1 / 8)).eraseDups
  let whole := fun (w : Nat) => decide (n * pixIn vals w = 8)
  let s1 := if ecc then words.foldl (fun s w => writeWords s b (8 * w) (if whole w then 8 else 1)) s else s
  let units := (words.map (· / 8)).eraseDups
  let s2 := units.foldl (fun s k =>
    bufPush s b ⟨10 + u, k, ecc && words.any (fun w => w / 8 = k && !whole w)⟩) s1
  vals.foldl (fun s e =>
    let v := if free then s.freeNat else e.2
    (if free then s.nextFree else s).gwrite (b * 2 ^ 32 + e.1) (leBytes n v)) s2

/-- One piece (R282, R283, R287): its pixels are read, then written. -/
def swagePiece (s : State) (b u : Nat) (x : Swage) (pc : Nat × Nat × Nat) : PieceRes :=
  let (py, c0, c1) := pc
  let n := pixBytes x.fmt
  let cols := ((upto (c1 + 1 - c0)).map (c0 + ·)).filter (fun px => clipOk x px py)
  let src := fun (px : Nat) => x.srcAddr (x.sx + (px - x.dx)) (x.sy + (py - x.dy))
  let dst := fun (px : Nat) => x.dstAddr px py
  let fits := fun (a : Nat) => decide (a + n ≤ s.memEnd b)
  let edge := fun (px : Nat) => x.opc ≠ 5 || px = x.dx || px + 1 = x.dx + x.wd || py = x.dy || py + 1 = x.dy + x.ht
  match cols.filter edge with
  | [] => .ok s
  | p0 :: ps =>
    let used := p0 :: ps
    let p1 := ps.getLastD p0
    if used.any (fun px => !fits (dst px) || (x.readsSrc && !fits (src px))) then .bad s
    else
      let (s1, sb) := rowRead s b u x.readsSrc (src p0) (src p1 + n - src p0)
      let (s2, db) := rowRead s1 b u x.readsDst (dst p0) (dst p1 + n - dst p0)
      match sb, db with
      | some sl, some dl =>
        let vals := used.filterMap (fun px =>
          (swagePixel x px py (pixAt sl (src px - src p0) n) (pixAt dl (dst px - dst p0) n)).map (fun v => (dst px, v)))
        match vals with
        | [] => .ok s2
        | (a, _) :: _ => if fenceHolds s x a then .held else .ok (swageStore s2 b u n x.hiddenOverlap vals)
      | _, _ => .bad s2

/-- Rows of the operation with no piece left. -/
def rowsDone (x : Swage) (todo : List (Nat × Nat × Nat)) : Nat :=
  let total := if x.opc = 4 then (max x.sy x.dy - min x.sy x.dy) + 1 else x.ht
  total - ((todo.map (·.1)).eraseDups).length

/-- The watermark: WMK rows are complete (R291). -/
def wmkReached (x : Swage) : Bool := fld (x.w 0x34) 16 0 ≠ 0 && fld (x.w 0x34) 16 0 ≤ x.rows

/-- An operation ends (R291): DONE with other status bits, WMARK where its rows were complete, DONEPOS and PERF. -/
def swageFinish (s : State) (b u m : Nat) : State :=
  let x := s.swage b u
  let wm := if wmkReached x && !x.wmk then 2 else 0
  let s1 := s.setSwage b u { x with busy := false, waiting := false, todo := [], held := false }
  let s2 := ((s1.orReg (swga b u 0x70) (m + wm + 1)).clrReg (swga b u 0x70) 0x30000).setReg (swga b u 0x7C)
    (wd (s.beam.line % 2 ^ 16 * 2 ^ 16 + s.beam.dot % 2 ^ 16))
  s2.setReg (swga b u 0x78) (wd (if x.waiting then 0 else min (2 ^ 32 - 1) (s.now - x.startAt)))

/-- What the next unit of work comes to: done, or it stays (held, or its requester frozen), or the operation has ended. -/
inductive UnitRes where
  | went (s : State)
  | stays (s : State)
  | ended (s : State)

/-- Does the unit take no work for now: its requester is frozen (R329), or Temper's level stops Swage (R469)? -/
def swageHalted (s : State) (b u : Nat) : Bool := isFrozen s b (10 + u) || 4 ≤ s.temper.steps

/-- The operation's next unit (R284, R287, R288, R329): each new hold sets FENCED. -/
def swageUnit (s : State) (b u : Nat) : UnitRes :=
  let x := s.swage b u
  match x.todo with
  | [] => .stays s
  | pc :: t =>
    match swagePiece s b u x pc with
    | .held =>
      let s1 := s.setSwage b u { x with held := true }
      .stays (if x.held then s1 else s1.orReg (swga b u 0x70) 0x80)
    | .ok s1 =>
      if swageHalted s b u then .stays (s.setSwage b u { x with held := false })
      else .went (s1.setSwage b u { x with todo := t, held := false, rows := rowsDone x t })
    | .bad s1 => if swageHalted s b u then .stays s else .ended (swageFinish s1 b u 8)

/-- Units go, at most `fuel` of them, while `go` holds, until one stays or the operation ends (R284, R288). -/
def swageWork (b u : Nat) (go : Swage → Bool) : Nat → State → State
  | 0, s => s
  | fuel + 1, s =>
    if go (s.swage b u) then
      match swageUnit s b u with
      | .went s1 => swageWork b u go fuel s1
      | .stays s1 => s1
      | .ended s1 => s1
    else s

/-- The running operation works on as long as it can. -/
def swageRun (s : State) (b u : Nat) : State := swageWork b u (fun _ => true) (s.swage b u).todo.length s

/-- The operation starts its work (R286) with its first unit; the rest follows as time passes (log entry 29). PERF counts
from here. -/
def swageStart (s : State) (b u : Nat) : State :=
  let x := s.swage b u
  let y := { x with waiting := false, startAt := s.now, wmk := false, rows := 0, todo := x.pieces, held := false }
  swageWork b u (fun _ => true) 1 ((s.setSwage b u y).clrReg (swga b u 0x70) 0x20000)

/-- DONE of the Tongs channel the operation waits for (R290). -/
def waitDone (s : State) (b : Nat) (x : Swage) : Bool :=
  bit (s.reg (baddr b (0x6800C + 0x20 * fld (x.w 0x30) 28 24))) 0

/-- The first start of package line DLINE from now on (R290, R302): frame and line. -/
def lineDeadline (s : State) (l : Nat) : Nat × Nat :=
  let next := (s.beam.frame + 1) % 2 ^ 48
  if l = 0xFFFF then (next, s.beam.line)
  else if s.beam.line < l then (s.beam.frame, l) else (next, l)

/-- The deadline line has started (R64, R306). -/
def linePassed (s : State) (d : Nat × Nat) : Bool := !linePrec (s.beam.frame, s.beam.line) d

/-- GO (R276, R283, R290), CMD as it stands; in DOZE Swage takes none (R476). -/
def swageGo (s : State) (b u : Nat) : State :=
  let x := s.swage b u
  if s.temper.state = 2 then s
  else if x.busy then s.orReg (swga b u 0x70) 0x20
  else
    let op := swgParams.foldl (fun (m : Tbl Word) o => Tbl.set (fun _ => 0#32) m o (s.reg (swga b u o))) []
    let y : Swage := { Swage.init with busy := true, op := op, startAt := s.now }
    let s1 := ((s.setSwage b u y).orReg (swga b u 0x70) 0x10000).setRf (swga b u 0x70) 18 18
      (b2n (y.opc ≠ 4 && y.order.2.2))
    if y.opc = 7 || (y.opc = 3 && y.fmt = 0) then swageFinish s1 b u 0x10
    else if bit (y.w 0x30) 31 && !waitDone s b y then
      let d := lineDeadline s (fld (y.w 0x30) 15 0)
      (s1.setSwage b u { y with waiting := true, deadFrame := d.1, deadLine := d.2 }).orReg (swga b u 0x70) 0x20000
    else swageStart s1 b u

/-- CMD written with GO = 1 and an OP. -/
def swageOp (s : State) (b u op : Nat) : State :=
  if s.present b && u < 2 then swageGo (s.setRf (swga b u 0) 2 0 op) b u else s

/-- SWAGE_COPY (R278). -/
def execSwageCopy (b u : Nat) (s : State) : Out State := .next (swageOp s b u 0)

/-- SWAGE_FILL (R278). -/
def execSwageFill (b u : Nat) (s : State) : Out State := .next (swageOp s b u 1)

/-- SWAGE_KEYCOPY (R278). -/
def execSwageKeycopy (b u : Nat) (s : State) : Out State := .next (swageOp s b u 2)

/-- SWAGE_ALPHA (R278, R280). -/
def execSwageAlpha (b u : Nat) (s : State) : Out State := .next (swageOp s b u 3)

/-- SWAGE_LINE (R281). -/
def execSwageLine (b u : Nat) (s : State) : Out State := .next (swageOp s b u 4)

/-- SWAGE_RECT (R278). -/
def execSwageRect (b u : Nat) (s : State) : Out State := .next (swageOp s b u 5)

/-- SWAGE_PATROP (R279). -/
def execSwagePatrop (b u : Nat) (s : State) : Out State := .next (swageOp s b u 6)

/-- SWAGE_ILLEGAL_OP (R283). -/
def execSwageIllegalOp (b u : Nat) (s : State) : Out State := .next (swageOp s b u 7)

/-- ABORT (R292): the current 64-byte unit still goes, a held one is discarded, and the rest is dropped. -/
def swageAbort (s : State) (b u : Nat) : State :=
  let x := s.swage b u
  if !x.busy then s
  else if x.waiting || x.held then swageFinish s b u 0x40
  else
    match swageUnit s b u with
    | .went s1 => swageFinish s1 b u 0x40
    | .stays _ => swageFinish s b u 0x40
    | .ended s1 => s1.orReg (swga b u 0x70) 0x40

/-- SWAGE_ABORT (R292). -/
def execSwageAbort (b u : Nat) (s : State) : Out State := .next (if s.present b && u < 2 then swageAbort s b u else s)

/-- SWAGE_WAIT_RELEASE (R290). -/
def execSwageWaitRelease (b u : Nat) (s : State) : Out State :=
  .next (let x := s.swage b u
         if s.present b && u < 2 && x.waiting && waitDone s b x then swageStart s b u else s)

/-- The wait's deadline has passed (R290, R306): the operation performs nothing. -/
def swageMiss (s : State) (b u : Nat) : State :=
  let x := s.swage b u
  if x.waiting && linePassed s (x.deadFrame, x.deadLine) then swageFinish s b u 4 else s

/-- SWAGE_WAIT_DEADLINE (R290). -/
def execSwageWaitDeadline (b u : Nat) (s : State) : Out State :=
  .next (if s.present b && u < 2 then swageMiss s b u else s)

/-- Every write has been accepted (R291): what is left of the operation goes, and it ends unless a write stays held. -/
def swageDone (s : State) (b u : Nat) : State :=
  let x := s.swage b u
  if x.busy && !x.waiting then
    let s1 := swageRun s b u
    let y := s1.swage b u
    if y.busy && y.todo = [] then swageFinish s1 b u 0 else s1
  else s

/-- SWAGE_DONE (R291). -/
def execSwageDone (b u : Nat) (s : State) : Out State := .next (if s.present b && u < 2 then swageDone s b u else s)

/-- WMK rows are complete (R291): the work comes as far as that, and WMARK is set once. -/
def swageMark (s : State) (b u : Nat) : State :=
  let x := s.swage b u
  if x.busy && !x.waiting && !x.wmk && fld (x.w 0x34) 16 0 ≠ 0 then
    let s1 := swageWork b u (fun x => !wmkReached x) x.todo.length s
    let y := s1.swage b u
    if y.busy && wmkReached y then (s1.setSwage b u { y with wmk := true }).orReg (swga b u 0x70) 2 else s1
  else s

/-- SWAGE_WATERMARK (R291). -/
def execSwageWatermark (b u : Nat) (s : State) : Out State :=
  .next (if s.present b && u < 2 then swageMark s b u else s)

/-- Both units of every billet. -/
def eachSwage (s : State) (f : State → Nat → Nat → State) : State :=
  s.eachBillet (fun s b => (upto 2).foldl (fun s u => f s b u) s)

/-- A package line starts: operations work on, and held writes outside the fence's window go (R287, R288). -/
def swageLine (s : State) : State :=
  eachSwage s (fun s b u => let x := s.swage b u; if x.busy && !x.waiting then swageRun s b u else s)

/-- Waits whose deadline line has run end by themselves (R306). -/
def swageOverdue (s : State) : State := eachSwage s swageMiss

/-- A new frame: a deadline line that has not started yet is one of this frame (R290, R64). -/
def swageFrame (s : State) : State :=
  { s with swages := s.swages.map (fun kv =>
      if kv.2.waiting then (kv.1, { kv.2 with deadFrame := s.beam.frame }) else kv) }

/-- A write of CMD (R276, R292). -/
def swageCmd (s : State) (b u : Nat) (v : Word) : State :=
  let s1 := s.setReg (swga b u 0) (v &&& 0xFFFF37#32)
  let s2 := if bit v 30 then swageAbort s1 b u else s1
  if bit v 31 then swageGo s2 b u else s2

end Sys2Proof.Machine
end

