-- ==== Sys2Proof/Machine/Power.lean ====
section
/-! DEFINITION. Temper, power states, clock domains and port synthesisers, package reset (R460-R480), and Ember
(R269-R275). -/

namespace Sys2Proof.Machine

def tmpa (o : Nat) : Nat := 0x801000 + o
def tmpEvt (s : State) (m : Nat) : State := s.orReg (tmpa 0x18) m
def setTmp (s : State) (x : Temper) : State := { s with temper := x }

/-! ### Temper -/

/-- Worst case of a lane's mode (R468). -/
def laneWorst (mode : Nat) : Nat :=
  match mode with
  | 0 => 0
  | 3 => 3
  | 4 => 3
  | 5 => 2
  | _ => 6

/-- Worst case of holder `i` (R468): 8 per billet (Anvil, GDDR6, lanes, two hammer clusters, Swage, Tongs, fixed), then
Tuyere and the host port. -/
def worstOf (s : State) (i : Nat) : Nat :=
  if i = 64 then (if bit (s.reg 0x808000) 0 then 8 else 0)
  else if i = 65 then 4
  else
    let b := i / 8
    if !s.present b then 0
    else match i % 8 with
      | 0 => 40
      | 1 => if (s.mem b).training || fld (s.reg (memReg b 4)) 3 0 ≠ 0 then ((s.mem b).rate * 46 + 19) / 20 else 0
      | 2 => ((upto 4).map (fun l => laneWorst (laneMode s b l))).sum
      | 3 => 16
      | 4 => 16
      | 5 => 16
      | 6 => 8
      | _ => 24

/-- A holder's worst case with the words that configure it (R469): GDDR6 with MEM_CFG, lanes with their LNK_CTRL, Tuyere
with TUY_CTRL. -/
def configOf (s : State) (i : Nat) : Nat :=
  let words := if i = 64 then (s.reg 0x808000).toNat
    else if i < 64 && i % 8 = 1 then (s.reg (memReg (i / 8) 0)).toNat
    else if i < 64 && i % 8 = 2 then (upto 4).foldl (fun acc l => acc * 2 ^ 10 + (s.reg (laneReg (i / 8) l 0)).toNat) 0
    else 0
  worstOf s i + 256 * words

/-- Readings of 1 ms. -/
def senseSpan : Nat := 1000

/-- A holder's figure (R469). -/
def figureOf (s : State) (i : Nat) : Nat :=
  let t := s.temper
  let w := worstOf s i
  let full := senseSpan ≤ Tbl.get (fun _ => 0) t.since i && Tbl.get (fun _ => 0) t.conf i = configOf s i
  if i = 65 || (i < 64 && i % 8 = 7) || !full then w
  else min w ((t.sense.map (fun l => l.getD i 0)).foldl max 0 + 1)

/-- Yield levels after a number of steps (R471): Swage, Tongs, hammers. -/
def levelsOf (n : Nat) : Nat × Nat × Nat := (min 4 n, min 3 (n - 4), min 3 (n - 7))

/-- A billet's figure at the levels, its Anvil prediction given (R468-R470). -/
def billetFigure (s : State) (b pred n : Nat) : Nat :=
  let (sw, tn, hm) := levelsOf n
  let f := fun k => figureOf s (8 * b + k)
  8 + pred + f 1 + f 2 + f 3 / 2 ^ hm + f 4 / 2 ^ hm + (if sw = 4 then 0 else f 5 / 2 ^ sw) + f 6 / 2 ^ tn + f 7

/-- GUARD. -/
def guardOf (s : State) : Nat := fld (s.reg (tmpa 0)) 15 8

/-- The demand D (R471). -/
def demandOf (s : State) (preds : List Nat) (n : Nat) : Nat :=
  ((upto s.n).map (fun b => billetFigure s b (preds.getD b 0) n)).sum + figureOf s 64 + figureOf s 65 + guardOf s

/-- The ceiling (R474). -/
def ceilOf (s : State) : Nat :=
  let m := s.variant.budgetReset
  let d := (clampI 0 320 (s.temper.tcase - 680)).toNat
  min (min m (fld (s.reg (tmpa 4)) 15 0)) (m * (800 - d) / 800)

/-- The predicted Anvil figure of a billet for a line (R470): `w` its band width in pixels. -/
def anvilPred (s : State) (b w : Nat) (active : Bool) : Nat :=
  let l := 2 * s.beam.htotal
  let c := if active then (20 * (w + 384) + 4 * l - 1) / (4 * l) else 0
  let u := (s.mem b).resv
  let bb := (s.mem b).lastB.sum
  c + (if u = 0 then 0 else if bb = 0 then 20 else (20 * u + bb - 1) / bb)

/-- Show the levels. -/
def showLevels (s : State) : State :=
  let (sw, tn, hm) := levelsOf s.temper.steps
  s.setReg (tmpa 0x14) (wd (hm * 256 + tn * 16 + sw))

/-- The steps taken once D is above the ceiling (R471): the first that brings D to it, at most all ten. -/
def tighten (s : State) (preds : List Nat) (ceil : Nat) : Nat → Nat → Nat
  | 0, n => n
  | fuel + 1, n => if n < 10 && ceil < demandOf s preds n then tighten s preds ceil fuel (n + 1) else n

/-- The decision for a line (R471, R472), with each billet's Anvil prediction. -/
def temperDecide (s : State) (preds : List Nat) : State :=
  let t := s.temper
  let ceil := ceilOf s
  let n := tighten s preds ceil 10 t.steps
  let quiet := n = t.steps && 0 < n && 16 * demandOf s preds (n - 1) ≤ 15 * ceil
  let calm := if quiet then t.calm + 1 else 0
  let relax := decide (calm = 16)
  let n' := if relax then n - 1 else n
  let d := demandOf s preds n'
  let s1 := setTmp s { t with steps := n', calm := if relax then 0 else calm }
  let s2 := tmpEvt s1 ((if n ≠ t.steps then 2 else 0) + (if relax then 8 else 0) + (if ceil < d then 1 else 0))
  let s3 := (upto s.n).foldl (fun s b =>
    s.setRf (tmpa (0x100 + 4 * b)) 15 0 (billetFigure s b (preds.getD b 0) n')) s2
  showLevels (s3.setReg (tmpa 8) (wd (d % 2 ^ 16 * 2 ^ 16)))

/-- The check (R469, R473): the measured current of every holder, once in 1 µs. -/
def currentCheck (s : State) (use : List Nat) : State :=
  let t := s.temper
  let since := (upto 66).foldl (fun (m : Tbl Nat) i =>
    let n := if Tbl.get (fun _ => 0) t.conf i = configOf s i then Tbl.get (fun _ => 0) t.since i + 1 else 1
    Tbl.set (fun _ => 0) m i (min senseSpan n)) t.since
  let conf := (upto 66).foldl (fun (m : Tbl Nat) i => Tbl.set (fun _ => 0) m i (configOf s i)) t.conf
  let ok := (upto 66).all (fun i => Tbl.get (fun _ => 0) since i = senseSpan)
  let s1 := setTmp s { t with sense := (use :: t.sense).take senseSpan, since := since, conf := conf, senseOk := ok,
                              checkAt := s.now }
  let s2 := if ok && !t.senseOk then tmpEvt s1 0x20 else s1
  let used := fun b => ((upto 8).map (fun k => use.getD (8 * b + k) 0)).sum
  let s3 := (upto s.n).foldl (fun s b => s.setRf (tmpa (0x100 + 4 * b)) 31 16 (used b)) s2
  let granted := ((upto s.n).map (fun b => fld (s.reg (tmpa (0x100 + 4 * b))) 15 0)).sum + worstOf s 64 + worstOf s 65
  if granted + guardOf s < use.sum then
    let n := min 10 (t.steps + 1)
    showLevels (tmpEvt ((setTmp s3 { s3.temper with steps := n, calm := 0 }).addReg (tmpa 0x20) 1)
      (4 + (if n = t.steps then 0 else 2)))
  else s3

/-- TEMPER_CURRENT_CHECK (R473): 1 µs after the one before. -/
def execTemperCurrentCheck (use : List Nat) (s : State) : Out State :=
  .next (atInstant (fun s => s.temper.checkAt + 1200) (fun s => currentCheck s use) s)

/-- The sensors are read (R474): case and highest junction temperature in 1/8 °C. -/
def sensorRead (s : State) (t tj : Int) : State :=
  let s1 := (setTmp s { s.temper with tcase := t, sensorAt := s.now }).setReg (tmpa 0xC) (wd (narrow 16 tj * 2 ^ 16 + narrow 16 t))
  if sx 16 (fld (s.reg (tmpa 0x10)) 15 0) < t then tmpEvt s1 0x10 else s1

/-- A part held in reset watches its junction sensors alone (R475). -/
def sensorHeld (s : State) (tj : Int) : State :=
  if tj ≤ 1120 then { s with boot := { s.boot with hot := false } } else s

/-- TEMP_SENSOR_READ (R474): 1 ms after the one before. -/
def execTempSensorRead (t tj : Int) (s : State) : Out State :=
  .next (if s.boot.held then sensorHeld s tj
    else atInstant (fun s => s.temper.sensorAt + 1200000) (fun s => sensorRead s t tj) s)

/-- TMP_CEIL and TMP_PWRSTAT as read. -/
def ceilView (s : State) : Word := wd (fld (s.reg (tmpa 8)) 31 16 * 2 ^ 16 + ceilOf s)
def pwrView (s : State) : Word := wd (b2n s.temper.req.isSome * 8 + s.temper.state)

/-! ### Power states -/

/-- Retraining of every trained billet, ahead of leaving DOZE (R476, R312). -/
def retrainAll (s : State) : State :=
  s.eachBillet (fun s b => if fld (s.reg (memReg b 4)) 3 0 = 15 then retrainStart s b else s)

/-- TMP_PWRREQ written (R476): other codes are taken as RUN. -/
def powerAsk (s : State) (v : Word) : State :=
  let n := fld v 2 0
  let want := if n ≤ 3 then n else 0
  let s1 := s.setReg (tmpa 0x30) (wd n)
  if want = s.temper.state && s.temper.req.isNone then s1
  else
    let s2 := setTmp s1 { s1.temper with req := some want, leftAt := s.now }
    if s.temper.state = 2 && want ≠ 2 && want ≠ 3 then retrainAll s2 else s2

/-- POWER_STATE_REQUEST (R476). -/
def execPowerStateRequest (v : Word) (s : State) : Out State := .next (powerAsk s v)

/-- A requested state is entered at a package frame start (R476): DOZE is left 12 µs after the request or later, its
retrain done. -/
def powerFrame (s : State) : State :=
  match s.temper.req with
  | none => s
  | some n =>
    let wait := s.temper.state = 2 && n ≠ 2 && (s.now < s.temper.leftAt + 14400 || (upto s.n).any (fun b => (s.mem b).retrain))
    if n = 3 || wait then s else setTmp s { s.temper with state := n, req := none }

/-! ### Synthesisers and clock domains -/

def clkEvt (s : State) (b m : Nat) : State := s.orReg (baddr b 0xC0004) m

/-- Writeback loses the rows it has in flight (R185, R466), of the frame before too. -/
def wbStop (s : State) (b p : Nat) : State :=
  let o := s.out b p
  let old := (o.wbOld.map (fun w => (w.q.map (·.row)).eraseDups)).getD []
  let s1 := old.foldl (fun s _ => wbCount s b p) s
  let s2 := match o.wbOld with
    | some w =>
      if w.q = [] then s1
      else if bit w.ctrl 1 then dropSlot (s1.setOut b p { s1.out b p with wbOld := none }) b (fld w.ctrl 5 4) w.slot
      else s1.setOut b p { s1.out b p with wbOld := some { w with lost := true, q := [] } }
    | none => s1
  if o.wbOn && !o.wbDone then
    let rows := (o.wbQ.map (·.row)).eraseDups
    let n := if o.sentG ≠ 0 && o.tap0.length < (s.port b p).cfg.hAct then rows.length + 1 else max 1 rows.length
    (upto n).foldl (fun s _ => wbLose s b p) (s2.setOut b p { s2.out b p with wbQ := [] })
  else s2

/-- Everything that follows a port channel's stop (R58, R95, R185, R189, R222). -/
def portGone (s : State) (b p : Nat) : State :=
  let s1 := lppPortStop (waitersStop s b p) b p
  outStop (wbStop (discardStopped s1 b p none) b p) b p

/-- The synthesiser of a port with EN = 0 stops once the channel has (R466). -/
def synthOff (s : State) (b p : Nat) : State :=
  let x := s.port b p
  if x.enabled || x.running then s else s.setPort b p { x with synOn := false, synLock := false }

/-- A write of BEL_PORTp_CTRL (R58, R466). -/
def portCtrl (s : State) (b p : Nat) (v : Word) : State :=
  let s1 := s.setBreg b (poff p 0) (v &&& 0x7F#32)
  let x := s1.port b p
  if bit v 0 then s1.setPort b p { x with enabled := true, synOn := true, synLock := x.synOn && x.synLock }
  else synthOff (s1.setPort b p { x with enabled := false }) b p

/-- PORT_EN_WRITE (R466). -/
def execPortEnWrite (b p : Nat) (v : Word) (s : State) : Out State :=
  .next (if s.present b && p < 4 then portCtrl s b p v else s)

/-- SYNTH_LOCK (R466). -/
def execSynthLock (b p : Nat) (s : State) : Out State :=
  .next (let x := s.port b p
         if s.present b && p < 4 && x.synOn then s.setPort b p { x with synLock := true } else s)

/-- Lock is lost (R466): the port is as one with EN = 0 until it returns. -/
def synthLoss (s : State) (b p : Nat) : State :=
  let x := s.port b p
  if !x.synLock then s
  else
    let s1 := s.setPort b p { x with synLock := false }
    let s2 := if x.running then portGone (stopPort s1 b p) b p else s1
    if x.enabled then clkEvt s2 b (2 ^ p) else s2

/-- SYNTH_LOCK_LOSS (R466). -/
def execSynthLockLoss (b p : Nat) (s : State) : Out State :=
  .next (if s.present b && p < 4 then synthLoss s b p else s)

/-! ### Reset -/

/-- Entries of a table under some keys become free values: contents the spec leaves undefined. -/
def freeTbl {α : Type} [DecidableEq α] (d : Nat → α) (mk : Nat → α) (p : Nat → Bool) (m : Tbl α) (n : Nat) : Tbl α × Nat :=
  (m.filter (fun kv => p kv.1)).foldl (fun acc kv => (Tbl.set d acc.1 kv.1 (mk (Config.free acc.2)), acc.2 + 1)) (m, n)

/-- Memories a reset or a wake leaves undefined (R195, R220, R310, R317): hearth RAM and GDDR6, every byte a free value of
a new era, and of the hammers that `p` names the listed words of program memory, banks and private bits. -/
def undefineMemories (s : State) (p : Nat → Bool) : State :=
  let (m, n1) := freeTbl (fun _ => 0#14) (BitVec.ofNat 14) (fun k => p (k / 16384)) s.progMem (s.freeCount + 1)
  let (x, n2) := freeTbl (fun _ => 0#16) (BitVec.ofNat 16) (fun k => p (k / 8192)) s.banks n1
  let (v, n3) := freeTbl (fun _ => 0) (fun n => n % 2 ^ 256) p s.privBits n2
  { s with hearth := [], hearthEra := s.freeCount + 1, hearthBad := [], gddr := [],
           gddrEra := (upto s.n).foldl (fun e b => Tbl.set (fun _ => 0) e b (s.freeCount + 1)) [],
           progMem := m, banks := x, privBits := v, freeCount := n3 }

/-- BOOT_OTP as read at a reset (R479, R484). -/
def otpWord (s : State) : Word := wd (b2n s.otp.secure * 2 ^ 16 + s.otp.revoke % 4 * 2 ^ 12 + s.otp.svn % 128)

/-- The registers of Ember. -/
def isEmberReg (a : Nat) : Bool := 0x803000 ≤ a && a < 0x804000

/-- Pads keep their levels through a reset: they are outside the part. -/
def padsOnly (keep : Bool) (t : Tbl Pin) : Tbl Pin :=
  t.foldl (fun m kv =>
    Tbl.set (fun _ => Pin.init) m kv.1 { Pin.init with pad := kv.2.pad, sleep := if keep then kv.2.sleep else none }) []

/-- A package reset (R478, R479): the part is held until its release. POR resets Ember too. -/
def packageReset (s : State) (cause : Nat) : State :=
  let u := undefineMemories s (fun _ => true)
  let regs := if cause = 1 then [] else s.regs.filter (fun kv => isEmberReg kv.1)
  let r : State :=
    { State.reset with
      variant := s.variant, freeCount := u.freeCount, regs := regs, hearth := u.hearth, hearthEra := u.hearthEra,
      gddr := u.gddr, gddrEra := u.gddrEra,
      progMem := u.progMem, banks := u.banks, privBits := u.privBits, pins := padsOnly false s.pins,
      pioBanks := s.pioBanks.map (fun kv => (kv.1, { kv.2 with ok := false })),
      beam := { Beam.init with running := false }, quench := { Quench.init with peer := s.quench.peer },
      boot := { Boot.init with held := true, step := 0, hot := cause = 3 || (s.boot.held && s.boot.hot) },
      otp := s.otp, flash := s.flash, pending := s.pending,
      hostPort := { HostPort.init with ir := if cause = 1 then 1 else s.hostPort.ir } }
  r.setReg 0x812100 (wd cause)

def execPowerOnReset (s : State) : Out State := .next (packageReset s 1)
def execPinReset (s : State) : Out State := .next (packageReset s 2)
def execThermalReset (s : State) : Out State := .next (packageReset s 3)
def execClockReset (s : State) : Out State := .next (packageReset s 4)

/-- A write of GRST_CTRL (R478). -/
def grstWrite (s : State) (v : Word) : State := if fld v 31 24 = 0x5A && bit v 0 then packageReset s 5 else s

/-- SOFT_RESET (R478). -/
def execSoftReset (v : Word) (s : State) : Out State := .next (grstWrite s v)

/-- The watchdog is loaded with TIMEOUT (R480). -/
def wdogLoad (s : State) : State := { s with boot := { s.boot with wdogAt := s.now } }

/-- A write of GRST_KICK (R480): 0xC3 reloads the watchdog. -/
def kickWrite (s : State) (v : Word) : State := if fld v 7 0 = 0xC3 then wdogLoad s else packageReset s 6

/-- WATCHDOG_KICK (R480). -/
def execWatchdogKick (v : Word) (s : State) : Out State := .next (kickWrite s v)

/-- The forge cycle in which the watchdog reaches 0 (R480): TIMEOUT milliseconds after its load. -/
def wdogEnd (s : State) : Nat := s.boot.wdogAt + fld (s.reg 0x812108) 15 0 * 1200000

/-- WATCHDOG_EXPIRY (R480): only a running watchdog expires. -/
def execWatchdogExpiry (s : State) : Out State :=
  .next (if bit (s.reg 0x812108) 31 then atInstant wdogEnd (fun s => packageReset s 6) s else s)

/-! ### Loss and return of a domain's clock -/

/-- The lane a domain belongs to (R463). -/
def laneOf : ClkDomain → Option Nat
  | .laneTx l => some l
  | .laneRx l => some l
  | .lanePcs l => some l
  | _ => none

/-- The GDDR6 channels a domain clocks (R463): a device's write clock serves two. -/
def channelsOf : ClkDomain → List Nat
  | .gddr c => [c]
  | .writeClock d => [2 * d, 2 * d + 1]
  | _ => []

/-- The domain stays held until its clock returns (R465). -/
def holdDomain (s : State) (b : Nat) (dom : ClkDomain) : State :=
  if s.heldDoms.contains (b, dom) then s else { s with heldDoms := s.heldDoms ++ [(b, dom)] }

/-- The crossings of some GDDR6 channels are flushed (R465): what is queued for them is gone. -/
def flushChannels (s : State) (b : Nat) (l : List Nat) : State :=
  let x := s.mem b
  s.setMem b { x with wbuf := x.wbuf.filter (fun e => !l.contains (unitChan e.unit)),
                      reads := x.reads.filter (fun r => r.st = 3 || !l.contains (unitChan r.unit)),
                      chans := x.chans.mapIdx (fun c ch => if l.contains c then { ch with checkQ := [] } else ch),
                      retrain := false, filling := false, training := false }

/-- Hammers of a cluster (R462). -/
def clusterHammers (k : Nat) : List Nat := (upto 8).map (8 * k + ·)

/-- A domain's clock is lost (R465): its crossings are flushed and it is held. The loss of a forge clock or of a Flux
receive clock resets the package (R467). The loss of a reference sets REFLOST (file 17). -/
def clockLost (s : State) (b : Nat) (dom : ClkDomain) : State :=
  match dom with
  | .forge => packageReset s 4
  | .fluxRx _ => packageReset s 4
  | .port p => if p < 4 then synthLoss s b p else s
  | .cluster k =>
    if k < 2 then
      holdDomain ((clusterHammers k).foldl (fun s h =>
        s.setHammer b h { s.hammer b h with run := .off, wait := none, rptLeft := 0 }) s) b dom
    else s
  | _ =>
    match laneOf dom with
    | some l => if l < 4 then holdDomain (linkJudge (laneLink (s.setLane b l .init) b l false)) b dom else s
    | none =>
      let s1 := if dom = .reference then s.orReg 0x812004 1 else s
      holdDomain (if channelsOf dom = [] then s1 else flushChannels s1 b (channelsOf dom)) b dom

/-- CLOCK_LOSS (R465). -/
def execClockLoss (b : Nat) (dom : ClkDomain) (s : State) : Out State :=
  .next (if s.present b then clockLost s b dom else s)

/-- A held domain's clock returns: it restarts with its reset values (R465). -/
def clockBack (s : State) (b : Nat) (dom : ClkDomain) : State :=
  if !s.heldDoms.contains (b, dom) then s
  else
    let s1 := { s with heldDoms := s.heldDoms.filter (· ≠ (b, dom)) }
    match dom with
    | .cluster k => (clusterHammers k).foldl (fun s h => s.setHammer b h (Hammer.init (hidx b h)))
        { s1 with regs := s1.regs.filter (fun kv =>
            !(baddr b (0x40000 + 0x8000 * k) ≤ kv.1 && kv.1 < baddr b (0x48000 + 0x8000 * k))) }
    | _ =>
      match laneOf dom with
      | some l => (s1.setLane b l .init).clrReg (laneReg b l 4) 0xF
      | none => if channelsOf dom = [] then s1 else (s1.setMem b .init).setReg (memReg b 4) 0#32

/-- DOMAIN_CLOCK_RETURN (R465). -/
def execDomainClockReturn (b : Nat) (dom : ClkDomain) (s : State) : Out State :=
  .next (if s.present b then clockBack s b dom else s)

/-- The domains a register lies in, where one can be held (R465): a lane's registers in its PCS domain, the GDDR6
controller's in those of its channels, a hammer's in its cluster's (log entry 51). -/
def domainsOf (off : Nat) : List ClkDomain :=
  if 0x90000 ≤ off && off < 0x90100 then [.lanePcs ((off - 0x90000) / 0x40)]
  else if 0x70000 ≤ off && off < 0x70800 then (upto 4).map .gddr
  else if 0x40000 ≤ off && off < 0x50000 then [.cluster ((off - 0x40000) / 0x8000)]
  else []

/-- An access meets a held domain (R465). -/
def isHeld (s : State) (b off : Nat) : Bool := (domainsOf off).any (fun d => s.heldDoms.contains (b, d))

def heldAccess (s : State) (b off : Nat) : State := (clkEvt s b 0x100).setReg (baddr b 0xC000C) (wd (baddr b off))

/-- CLK_STAT and GCLK_STAT as read. -/
def clkView (s : State) (b : Nat) : Word :=
  let up := fun (d : ClkDomain) => !s.heldDoms.contains (b, d)
  let ln := (upto 4).foldl (fun acc l => acc + b2n (bit (s.reg (laneReg b l 4)) 0 && up (.laneRx l)) * 2 ^ (12 + l)) 0
  let gd := (upto 4).foldl (fun acc c => acc + b2n (up (.gddr c)) * 2 ^ (8 + c)) 0
  let sy := (upto 4).foldl (fun acc p => acc + b2n (s.port b p).synLock * 2 ^ p) 0
  wd (ln + gd + sy)

def gclkView (s : State) : Word :=
  if s.boot.held then 0#32
  else wd (0x10000 + (2 ^ s.n - 1) * 256 + b2n (!s.heldDoms.any (fun d => d.2 = .reference)))

/-- The clock domains of a package (R2, R463): 32 of each billet, 6 of the package block, named under billet 0, and on the
UX8-8 two retimers. -/
def clkDomains (v : Variant) : List (Nat × ClkDomain) :=
  let four := fun (f : Nat → ClkDomain) => (upto 4).map f
  let two := fun (f : Nat → ClkDomain) => (upto 2).map f
  (upto v.billets).flatMap (fun b =>
    (([.forge, .anvil, .flux, .reference, .sensing, .retention] : List ClkDomain) ++ two .cluster ++ two .writeClock ++ two .fluxRx ++
      four .port ++ four .gddr ++ four .laneTx ++ four .laneRx ++ four .lanePcs).map (fun d => (b, d))) ++
    ([.pciePhy, .pcieCore, .spi, .jtag, .ember, .temper] : List ClkDomain).map (fun d => (0, d)) ++
    (if v.billets = 8 then two .retimer else []).map (fun d => (0, d))

/-- A write of GRST_WDOG (R480): EN once set stays, and TIMEOUT then too. -/
def wdogWrite (s : State) (v : Word) : State :=
  if bit (s.reg 0x812108) 31 then s
  else
    let s1 := s.setReg 0x812108 (v &&& 0x8000FFFF#32)
    if bit v 31 then wdogLoad s1 else s1

/-- Supplies are judged against the VSEL fields. -/
def judgeBanks (s : State) : State := s.eachBillet (fun s b => (upto 3).foldl (fun s k => bankJudge s b k) s)

/-- Release (R475, R479): the beam starts at F0 L0:D0, the tick at 0, and the boot logic with BOOT_SEL as sampled; for a host
boot it trains every billet under the reset MEM_CFG (R485). -/
def resetRelease (s : State) (sel : Nat) : State :=
  if !s.boot.held || s.boot.hot || s.hostPort.ir = 0 || (3 ≤ s.hostPort.ir && s.hostPort.ir ≤ 6) then s
  else
    let host := decide (sel % 4 = 1 ∨ sel % 4 = 2)
    let s1 := { s with now := 0, beam := Beam.init, boot := { Boot.init with sel := sel % 4, host := host } }
    let s2 := judgeBanks (s1.setReg 0x811010 (otpWord s1))
    if host then s2.eachBillet (fun s b => memTrain s b) else s2

/-- RESET_RELEASE (R479). -/
def execResetRelease (bootSel : Nat) (s : State) : Out State := .next (resetRelease s bootSel)

/-! ### Ember -/

def emba (o : Nat) : Nat := 0x803000 + o

/-- A wake slot's register and whether it is watched (R270). -/
def wakeSlot (s : State) (k : Nat) : Word := s.reg (emba (0x100 + 4 * k))
def slotOn (w : Word) : Bool := bit w 31 && fld w 27 24 < 8

/-- The SENSE in force (R255). -/
def wakeSense (w : Word) : Nat := if fld w 30 28 ≤ 4 then fld w 30 28 else 0

/-- The input that CLASS and INDEX name, as one number (R270): 512 × CLASS + INDEX, INDEX 0 where it is ignored. -/
def wakeName (w : Word) : Nat :=
  let c := fld w 27 24
  512 * c + (if c = 5 || c = 6 then 0 else fld w 8 0)

/-- A slot's input (R270): pads and the timer from the state, the other inputs as sampled outside. -/
def wakeInput (s : State) (ins : List Nat) (k : Nat) : Bool :=
  let w := wakeSlot s k
  let i := fld w 8 0
  match fld w 27 24 with
  | 0 => i % 64 < 48 && (s.bank (i / 64) (i % 64 / 16)).supply ≠ .off && (s.pin (i / 64) (i % 64)).pad
  | 3 => s.reg (emba 8) = 0#32
  | _ => ins.contains (wakeName w)

/-- Slots whose input is 1. -/
def wakeLevels (s : State) (ins : List Nat) : List Nat := (upto 48).filter (wakeInput s ins)

/-- Is a level slot asserted (R255, R271)? -/
def levelAsserted (s : State) (now : List Nat) (k : Nat) : Bool :=
  let w := wakeSlot s k
  slotOn w && (wakeSense w = 0 && now.contains k || wakeSense w = 1 && !now.contains k)

/-- Is a slot asserted or its edge seen in a sample (R272)? -/
def slotHit (s : State) (old now : List Nat) (k : Nat) : Bool :=
  let w := wakeSlot s k
  let a := old.contains k
  let z := now.contains k
  levelAsserted s now k ||
    (slotOn w && (wakeSense w = 2 && !a && z || wakeSense w = 3 && a && !z || wakeSense w = 4 && a != z))

/-- The sleep state a pad takes (R438): one that was driving holds what it drove. -/
def sleepOf (s : State) (b n : Nat) : SleepPad :=
  match fld (pinCfg s b n) 21 20 with
  | 0 => match pinDrives s b n with
    | some true => .high
    | some false => .low
    | none => .highZ
  | 1 => .low
  | 2 => .high
  | _ => .highZ

/-- Every pad of a powered bank takes its sleep state (R438). -/
def sleepPins (s : State) : State :=
  s.eachBillet (fun t b => (upto 48).foldl (fun t n =>
    if (s.bank b (n / 16)).supply = .off then t else t.setPin b n { t.pin b n with sleep := some (sleepOf s b n) }) t)

/-- What stops at the entry (R271, R477): the pads that sleep, every hammer but the keepers, the ports and the lanes. -/
def emberStops (s : State) : State :=
  let s1 := (sleepPins s).eachBillet (fun s b => (upto 16).foldl (fun s h =>
    if h = 0 then s else s.setHammer b h { Hammer.init (hidx b h) with run := .off }) s)
  linkJudge (s1.eachBillet (fun s b => (upto 4).foldl (fun s p =>
    let s1 := if (s.port b p).running then portGone (stopPort s b p) b p else stopPort s b p
    laneLink (s1.setLane b p .init) b p false) s))

/-- EMBER is entered (R271, R477), or the entry is abandoned. -/
def emberEnter (s : State) (ins : List Nat) : State :=
  if s.ember.on || s.boot.held then s
  else
    let now := wakeLevels s ins
    match (upto 48).find? (levelAsserted s now) with
    | some k =>
      (setTmp (s.setReg (emba 4) (setFld (s.reg (emba 4) ||| 2#32) 13 8 k)) { s.temper with req := none })
    | none =>
      { emberStops s with
        ember := ⟨true, now, s.temper.state⟩
        temper := { s.temper with state := 3, req := none }
        tuy := { s.tuy with running := false }
        beam := { s.beam with running := false } }

/-- EMBER_ENTER (R271). -/
def execEmberEnter (ins : List Nat) (s : State) : Out State := .next (emberEnter s ins)

/-- EMBER_TIMER_EXPIRE (R270). -/
def execEmberTimerExpire (s : State) : Out State := .next (if s.ember.on then s.setReg (emba 8) 0#32 else s)

/-- Registers retention or Ember keeps (R273). -/
def isRetained (a : Nat) : Bool :=
  if a < 0x800000 then
    let b := a / windowSize
    let off := a % windowSize
    let o := off % 0x100
    (b = 0 && (off ≤ 0x14 || off = 0x28 || off = 0x2C)) ||
      (0x100 ≤ off && off < 0x500 && (o ≤ 0x14 || (0x20 ≤ o && o ≤ 0x30))) ||
      (0x50080 ≤ off && off < 0x51000) || (0x51100 ≤ off && off < 0x51140) || (0x40000 ≤ off && off < 0x41000)
  else isEmberReg a || a = tmpa 0 || a = tmpa 4 || a = tmpa 0x10

/-- Is hammer index `i` a keeper? -/
def isKeeper (i : Nat) : Bool := i % 16 = 0

/-- The part after a wake, before its beam and keepers start (R273, R274, R275). -/
def wakeBase (s : State) : State :=
  let u := undefineMemories s (fun i => !isKeeper i)
  { State.reset with
    variant := s.variant, now := s.now, freeCount := u.freeCount, regs := s.regs.filter (fun kv => isRetained kv.1),
    sticky := s.sticky.filter (fun kv => isKeeper kv.1), hammers := s.hammers.filter (fun kv => isKeeper kv.1),
    progMem := u.progMem, banks := u.banks, privBits := u.privBits, hearth := u.hearth, hearthEra := u.hearthEra,
    gddr := u.gddr, gddrEra := u.gddrEra, ppend := s.ppend.filter (fun kv => isKeeper kv.1), slots := s.slots.filter (fun kv => isKeeper (kv.1 / 4)),
    pins := padsOnly true s.pins, pioBanks := s.pioBanks.map (fun kv => (kv.1, { kv.2 with ok := false })),
    tick := s.tick, tickFrac := s.tickFrac, quench := { Quench.init with peer := s.quench.peer },
    boot := { Boot.init with step := 0, sel := s.boot.sel }, otp := s.otp, flash := s.flash, pending := s.pending }

/-- Is a source in service in a keeper's slot? -/
def keptInService (s : State) (b id : Nat) : Bool :=
  (upto 8).any (fun c => (upto 4).any (fun l =>
    let x := s.slot c 0 l
    x.valid && 32 ≤ id && x.billet = b && x.id = id))

/-- Sources after a wake (R275): none pending, levels and edge detectors from the current inputs. -/
def wakeSources (s : State) : State :=
  s.eachBillet (fun t b => (upto 992).foldl (fun t i =>
    t.setSrc b (32 + i) { IrqSrc.init with level := srcInput s b (32 + i), inSvc := keptInService s b (32 + i) }) t)

/-- The beam after a wake (R79): L0:D0 with the frame counter plus 1, the retained timing, acquisition afresh. -/
def wakeBeam (s : State) (frame : Nat) : State :=
  let h := fld (s.reg 4) 15 0
  let b : Beam := { Beam.init with frame := (frame + 1) % 2 ^ 48, htotal := h, lineLen := h, vtotal := fld (s.reg 8) 15 0,
                                   vactStart := fld (s.reg 0xC) 15 0, vact := fld (s.reg 0xC) 31 16,
                                   lineAt := s.now, frameAt := s.now }
  { s with beam := b, genlock := { Genlock.init with st := if refSel s = 0 then .freeRun else .acquiring } }

/-- Ports with EN = 1 start their synthesisers again (R79, R466). -/
def wakePorts (s : State) : State :=
  s.eachBillet (fun s b => (upto 4).foldl (fun s p =>
    if bit (s.breg b (poff p 0)) 0 then s.setPort b p { Port.init with enabled := true, synOn := true } else s) s)

/-- The wake in its order (R272, R274, R275, R446): time asleep is open, so the tick and the timer advance by a free
number of reference periods. -/
def emberWake (s : State) (now : List Nat) : State :=
  let hits := (upto 48).filter (slotHit s s.ember.levels now)
  let n := hits.foldl natSet 0
  let periods := s.freeNat
  let timer := (s.reg (emba 8)).toNat - periods / 1024
  let s0 := (wakeBase s.nextFree).setReg 0x811010 (otpWord s)
  let s1 := setTickFull s0 (tickFull s0 + 40 * 2 ^ 32 * periods)
  let s2 := ((s1.setReg (emba 4) (setFld (s1.reg (emba 4) ||| 1#32) 13 8 (hits.headD 0))).setReg (emba 0x10) (wd n)).setReg
    (emba 0x14) (wd (n / 2 ^ 32))
  let s3 := (s2.setReg (emba 8) (wd timer)).orReg 0xA081C 2
  let s4 := wakeSources (judgeBanks (wakePorts (wakeBeam s3 s.beam.frame)))
  s4.eachBillet (fun s b => raisePrivate s b 0 27)

/-- A sample in EMBER (R272): a hit starts the wake. -/
def emberSample (s : State) (ins : List Nat) : State :=
  if !s.ember.on then s
  else
    let now := wakeLevels s ins
    if (upto 48).any (slotHit s s.ember.levels now) then emberWake s now
    else { s with ember := { s.ember with levels := now } }

/-- EMBER_WAKE (R272). -/
def execEmberWake (ins : List Nat) (s : State) : Out State := .next (emberSample s ins)

end Sys2Proof.Machine
end

