-- ==== Sys2Proof/Machine/Tongs.lean ====
section
/-! DEFINITION. Tongs channels apart from their data: descriptors, triggers, GO, draining, disabling and deadlines
(R294-R306). -/

namespace Sys2Proof.Machine

/-- CTRL and its fields. -/
def tngCtrl (s : State) (b c : Nat) : Word := s.reg (tnga b c 0)
def tngMode (s : State) (b c : Nat) : Nat := fld (tngCtrl s b c) 5 4

/-- Set sticky bits of STAT. -/
def tngStat (s : State) (b c m : Nat) : State := s.orReg (tnga b c 0xC) m

/-- TNG_CHc_STAT as a read shows it. -/
def tngStatView (s : State) (b c : Nat) : Word :=
  let x := s.tong b c
  (s.reg (tnga b c 0xC) &&& 0x7F#32) ||| wd (x.pend * 2 ^ 24 + x.st * 2 ^ 16)

/-! ### Descriptors -/

/-- Word `i` of the descriptor in progress. -/
def Tongs.w (x : Tongs) (i : Nat) : Word := x.desc.getD i 0#32

def Tongs.rows (x : Tongs) : Nat := fld (x.w 4) 31 16 + 1
def Tongs.len (x : Tongs) : Nat := fld (x.w 4) 15 0 + 1
/-- CHK: 11 is taken as 00 (R295). -/
def Tongs.check (x : Tongs) : Nat := if fld (x.w 6) 14 13 = 3 then 0 else fld (x.w 6) 14 13
def Tongs.link (x : Tongs) : Bool := bit (x.w 6) 15

/-- Space, FIX and billet of a side: word 1 for the source, word 3 for the destination. -/
def sideSpace (w : Word) : Nat := fld w 31 30
def sideFix (w : Word) : Bool := bit w 29
def sideBillet (w : Word) : Nat := fld w 2 0

/-- Address of word `k` of row `r` of a side (R296). -/
def Tongs.srcAt (x : Tongs) (r k : Nat) : Nat :=
  (x.w 0).toNat + (if sideFix (x.w 1) then 0 else r * fld (x.w 5) 15 0 * 64 + 4 * k)
def Tongs.dstAt (x : Tongs) (r k : Nat) : Nat :=
  (x.w 2).toNat + (if sideFix (x.w 3) then 0 else r * fld (x.w 5) 31 16 * 64 + 4 * k)

/-- A BAR0 address in the data-port aperture (R38). -/
def inAperture (a : Nat) : Bool := 0xC00000 ≤ a % 2 ^ 24

/-- Does a run of `n` words from a BAR0 address meet the aperture? -/
def runInAperture (a n : Nat) : Bool :=
  let lo := a % 2 ^ 24
  0xC00000 ≤ lo || 0xC00000 < lo + 4 * n

/-- A side is invalid (R296): its space, its alignment, or a BAR0 address in the aperture. -/
def sideBad (lo : Word) (sp : Word) (addr : Nat → Nat) (rows len : Nat) : Bool :=
  sideSpace sp = 3 || fld lo 1 0 ≠ 0 ||
    (sideSpace sp = 2 && (if sideFix sp then inAperture lo.toNat else (upto rows).any (fun r => runInAperture (addr r) len)))

def Tongs.bad (x : Tongs) : Bool :=
  sideBad (x.w 0) (x.w 1) (fun r => x.srcAt r 0) x.rows x.len || sideBad (x.w 2) (x.w 3) (fun r => x.dstAt r 0) x.rows x.len

/-- CUR, REM and RUNCHK show the channel's place. -/
def tngShow (s : State) (b c : Nat) : State :=
  let x := s.tong b c
  let left := if x.loaded then x.rows - x.row else 0
  let rem := if x.loaded && x.row < x.rows then x.len - x.word else 0
  ((s.setReg (tnga b c 0x10) (wd (left % 2 ^ 16 * 2 ^ 16 + x.descAt / 32))).setReg (tnga b c 0x14) (wd rem)).setReg
    (tnga b c 0x18) (wd x.chk)

/-- A channel's requester at a billet (R318): 8 at its own, 7 at another, and the number its reads are issued under. -/
def tngReq (b at' : Nat) : Nat := if at' = b then 8 else 7
def tngSrc (b c : Nat) : Nat := 32 * b + c

/-- Reads the channel has in flight are discarded, and their tags are free (R302-R304, R328). -/
def tngDrop (s : State) (b c : Nat) : State :=
  s.eachBillet (fun s k =>
    if (s.mem k).reads.any (fun r => r.req = tngReq b k && r.src = tngSrc b c) then endReads s k (tngReq b k) (tngSrc b c)
    else s)

/-- The channel ends in ERROR with a status bit. -/
def tngError (s : State) (b c m : Nat) : State :=
  tngStat (tngShow (tngDrop (s.setTong b c { s.tong b c with st := 5 }) b c) b c) b c m

/-- The descriptor at its place is read (R294, R295, R296, R301); an uncorrectable word of it is a decode error (R317). -/
def tngLoad (s : State) (b c : Nat) : State :=
  let x := s.tong b c
  let y : Tongs := { x with desc := (upto 8).map (fun i => wd (leNat (s.hread b (x.descAt + 4 * i) 4))), loaded := true,
                            row := 0, word := 0 }
  let chk := if bit (y.w 6) 11 then y.chk else match y.check with
    | 1 => 0xFFFFFFFF
    | 2 => 0
    | _ => y.chk
  let s1 := tngShow (s.setTong b c { y with chk := chk }) b c
  if s.hbad b x.descAt 32 then tngError s1 b c 8 else if y.bad then tngError s1 b c 0x10 else s1

/-! ### Triggers -/

/-- The deadline computed now (R302). -/
def tngDeadline (s : State) (b c : Nat) : Option (Nat × Nat) :=
  if bit (tngCtrl s b c) 6 then some (lineDeadline s (fld (s.reg (tnga b c 4)) 31 16)) else none

/-- The channel arms at DESC (R298, R299). -/
def tngArm (s : State) (b c : Nat) : State :=
  let x : Tongs := { s.tong b c with st := 1, descAt := fld (s.reg (tnga b c 8)) 20 5 * 32, loaded := false, row := 0,
                                     word := 0, deadline := tngDeadline s b c }
  tngShow (s.setTong b c x) b c

/-- A unit of work begins (R298). -/
def tngBegin (s : State) (b c : Nat) : State :=
  let x := s.tong b c
  let s1 := s.setTong b c { x with st := 2 }
  if x.loaded then s1 else tngLoad s1 b c

/-- A trigger arrives (R298, R303). -/
def tngTrigger (s : State) (b c : Nat) : State :=
  let x := s.tong b c
  if x.st = 1 then tngBegin s b c
  else if x.st = 2 || x.st = 3 then
    (if x.pend = 255 then tngStat s b c 0x20 else s.setTong b c { x with pend := x.pend + 1 })
  else s

/-- A trigger that an event has raised is taken (R298): there is none without such an event. -/
def tngTake (s : State) (b c : Nat) : State :=
  let x := s.tong b c
  if x.trig = 0 then s else tngTrigger (s.setTong b c { x with trig := x.trig - 1 }) b c

/-- TONGS_TRIGGER (R298): the event that TRIG names has occurred, and its trigger arrives. -/
def execTongsTrigger (b ch : Nat) (s : State) : Out State :=
  .next (if s.present b && ch < 32 then tngTake s b ch else s)

/-- GO (R299). -/
def tngGo (s : State) (b c : Nat) : State :=
  let x := s.tong b c
  if !bit (tngCtrl s b c) 0 || s.temper.state = 2 then s
  else match x.st with
    | 3 => s.setTong b c { x with st := 2 }
    | 1 => if tngType s b c = 0 then tngTrigger s b c else tngStat s b c 0x40
    | 2 => if tngType s b c = 0 then tngTrigger s b c else tngStat s b c 0x40
    | _ =>
      let s1 := tngArm ((s.clrReg (tnga b c 0xC) 0x1F).setTong b c { x with pend := 0, trig := 0 }) b c
      if tngType s b c = 0 then tngTrigger s1 b c else s1

/-- TONGS_GO (R299). -/
def execTongsGo (b ch : Nat) (s : State) : Out State := .next (if s.present b && ch < 32 then tngGo s b ch else s)

/-- DRAIN (R303): no burst is in flight between bursts, so the channel pauses here. -/
def tngDrain (s : State) (b c : Nat) : State :=
  let x := s.tong b c
  if x.st = 2 then tngShow (tngDrop (s.setTong b c { x with st := 3 }) b c) b c else s

/-- TONGS_DRAIN (R303). -/
def execTongsDrain (b ch : Nat) (s : State) : Out State := .next (if s.present b && ch < 32 then tngDrain s b ch else s)

/-- EN written 0 (R304): CUR, REM and RUNCHK are undefined afterwards. -/
def tngDisable (s : State) (b c : Nat) : State :=
  let s0 := s.setReg (tnga b c 0) (setBit (tngCtrl s b c) 0 false)
  if (s.tong b c).st = 0 then s0
  else
    let s1 := tngDrop (s0.setTong b c .init) b c
    let f := fun (s : State) (o m : Nat) => (s.setReg (tnga b c o) (wd (s.freeNat % m))).nextFree
    f (f (f s1 0x10 (2 ^ 32)) 0x14 (2 ^ 17)) 0x18 (2 ^ 32)

/-- TONGS_DISABLE (R304). -/
def execTongsDisable (b ch : Nat) (s : State) : Out State := .next (if s.present b && ch < 32 then tngDisable s b ch else s)

/-- The deadline has passed while ARMED or RUN (R302). -/
def tngMiss (s : State) (b c : Nat) : State :=
  let x := s.tong b c
  if (x.st = 1 || x.st = 2) && x.deadline.any (linePassed s) then tngError s b c 4 else s

/-- TONGS_DEADLINE (R302). -/
def execTongsDeadline (b ch : Nat) (s : State) : Out State := .next (if s.present b && ch < 32 then tngMiss s b ch else s)

/-- A write of CTRL. -/
def tngWrite (s : State) (b c : Nat) (v : Word) : State :=
  let s1 := s.setReg (tnga b c 0) (v &&& 0x7F00F1#32)
  if !bit v 0 then tngDisable s1 b c
  else
    let s2 := if bit v 1 then tngGo s1 b c else s1
    if bit v 2 then tngDrain s2 b c else s2

/-- The chain has ended (R298, R300). -/
def tngChainEnd (s : State) (b c : Nat) : State :=
  let s1 := tngSignal (noteDone (tngStat s b c 1) b c) b 2 c
  if bit (tngCtrl s b c) 7 then tngArm s1 b c
  else tngShow (s1.setTong b c { s1.tong b c with st := 4, pend := 0 }) b c

/-- A unit of work has ended (R298, R302): the next one runs at once where a trigger is pending. -/
def tngUnitEnd (s : State) (b c : Nat) : State :=
  let x := s.tong b c
  if x.st = 4 || x.st = 5 then s
  else
    let s1 := s.setTong b c { x with st := 1, deadline := tngDeadline s b c, pend := x.pend - 1 }
    if 0 < x.pend then tngBegin (tngShow s1 b c) b c else tngShow s1 b c

/-! ### At package line starts -/

/-- Every channel that a table entry names. -/
def eachTong (s : State) (f : State → Nat → Nat → State) : State :=
  s.tongs.foldl (fun t kv => f t (kv.1 / 32) (kv.1 % 32)) s

/-- Channels whose deadline line has run end (R302, R306). -/
def tngOverdue (s : State) : State := eachTong s tngMiss

/-- Triggers that still wait are taken. -/
def tngTakeAll (s : State) : State :=
  eachTong s (fun s b c => (upto (s.tong b c).trig).foldl (fun s _ => tngTake s b c) s)

/-- A new frame: a deadline line that has not started yet is one of this frame (R302, R64). -/
def tngFrame (s : State) : State :=
  { s with tongs := s.tongs.map (fun kv =>
      (kv.1, { kv.2 with deadline := kv.2.deadline.map (fun d => (s.beam.frame, d.2)) })) }

end Sys2Proof.Machine
end

