-- ==== Sys2Proof/Machine/Bus.lean ====
section
/-! DEFINITION. Register accesses (R4, R13, R14, R25, R38-R40, R46, R62, R80): what a 32-bit write or read at a BAR0
offset does, the data ports apart. -/

namespace Sys2Proof.Machine

/-! ### Writes -/

/-- A write as the register's access types state (R13, R14). -/
def plainAt (s : State) (addr : Nat) (v : Word) : State :=
  match regRow s.variant addr with
  | some r => s.setReg addr (plainWrite r (s.reg addr) v)
  | none => s

/-- The RW and RWS fields only. -/
def fieldsAt (s : State) (addr : Nat) (v : Word) : State :=
  match regRow s.variant addr with
  | some r => s.setReg addr (mergeBits (r.rw ||| r.rws) (s.reg addr) v)
  | none => s

/-- The first event of an EVT register of Bellows (R74, R76). -/
def evtFirst (off : Nat) : Option Nat :=
  if off = 0x30 then some 64
  else if 0x100 ≤ off && off < 0x500 && off % 0x100 = 0x34 then some (16 * (off / 0x100 - 1))
  else none

/-- BEL_ (file 02); a clear leaves an event of this cycle set (R75). -/
def belWrite (s : State) (b off : Nat) (v : Word) : State :=
  if isPkgReg off then (if b = 0 then pkgAccept s off v else s)
  else if off < 0x30 then s
  else if 0x100 ≤ off && off < 0x500 && off % 0x100 = 0 then portCtrl s b (off / 0x100 - 1) v
  else match evtFirst off with
    | some e => (plainAt s (baddr b off) v).orReg (baddr b off) (evtKept s b e)
    | none => plainAt s (baddr b off) v

/-- STK_ (file 03). -/
def stkWrite (s : State) (who : Who) (b off : Nat) (v : Word) : State :=
  if off < 0x8100 && off % 0x40 = 8 then strikeAccWrite s who b ((off - 0x8000) / 0x40) v
  else if off < 0x8100 && off % 0x40 = 0xC then (strikeData s who b ((off - 0x8000) / 0x40) (some v)).1
  else plainAt s (baddr b off) v

/-- ANV_, SPR_, VID_, CMP_, palette RAM and the sprite table (R24, R80, R82). -/
def latchedWrite (s : State) (who : Who) (b off : Nat) (v : Word) : State :=
  if (regRow s.variant (baddr b off)).isNone then s
  else if isLive off then pushLive s b (liveKey who) off v
  else lineCommit (immediateBits s (baddr b off) v) who (baddr b off) v

/-- CTRL of a hammer (R194, R195, R219): RESET, then SVC, RUN and STEP. -/
def hmrCtrl (s : State) (who : Who) (b h : Nat) (v : Word) : State :=
  let s1 := if bit v 2 then resetHammer s b h else s
  let s2 := serviceWrite s1 who b h (bit v 3)
  let x := s2.hammer b h
  if bit v 0 then hammerRun s2 b h
  else if bit v 1 && x.run = .halted then s2.setHammer b h { x with stepReq := true }
  else hammerStop s2 b h

/-- HMR_ (file 08). -/
def hmrWrite (s : State) (who : Who) (b off : Nat) (v : Word) : State :=
  let h := (off - 0x40000) / 0x1000
  let o := off % 0x1000
  if 0x80 ≤ o then s
  else if o = 0x34 then (pmAccess s who b h (some v)).1
  else if o = 0x3C then (dmAccess s who b h (some v)).1
  else if o = 0x44 then (dbgAccess s who b h (some v)).1
  else guarded s who b h o (fun s =>
    if o = 0 then hmrCtrl s who b h v
    else if o = 0x54 then completeId s b h (fld v 9 0)
    else if o = 0x6C then s.setPpend b h (bits (s.ppendOf b h) 31 0 &&& (0xFFFFFFFF - v.toNat))
    else plainAt s (baddr b off) v)

/-- IC_ (file 10). -/
def icWrite (s : State) (b off : Nat) (v : Word) : State :=
  if 0x50080 ≤ off && off < 0x51000 then icSrcWrite s b ((off - 0x50000) / 4) v
  else if 0x51000 ≤ off && off < 0x51040 then privSet s b ((off - 0x51000) / 4) v
  else if 0x51100 ≤ off && off < 0x51140 then s.setBreg b off (s.breg b off ||| v)
  else if 0x51140 ≤ off && off < 0x51180 then s.setBreg b (off - 0x40) (s.breg b (off - 0x40) &&& ~~~v)
  else s

/-- SWG_ and TNG_ (file 11): a clear of a DONE set in this cycle leaves it set (R299). -/
def forgeWrite (s : State) (b off : Nat) (v : Word) : State :=
  if (off = 0x60000 || off = 0x60100) then swageCmd s b ((off - 0x60000) / 0x100) v
  else if 0x68000 ≤ off && off < 0x68400 && off % 0x20 = 0 then tngWrite s b ((off - 0x68000) / 0x20) v
  else if 0x68000 ≤ off && off < 0x68400 && off % 0x20 = 0xC && doneNow s b ((off - 0x68000) / 0x20) then
    plainAt s (baddr b off) (setBit v 0 false)
  else plainAt s (baddr b off) v

/-- MEM_ and ARB_ (file 12). -/
def memRegWrite (s : State) (b off : Nat) (v : Word) : State :=
  if off = 0x70000 then
    let s1 := fieldsAt s (baddr b off) v
    if bit v 31 then memTrain s1 b else s1
  else if off = 0x70800 then
    let s1 := fieldsAt s (baddr b off) v
    if bit v 31 then arbSwap s1 b else s1
  else if off = 0x70804 then freezeWrite s b v
  else plainAt s (baddr b off) v

/-- A commit context (R26, R33): the target fields, GRP_OVF, then HOLD. -/
def ctxWrite (s : State) (b k : Nat) (v : Word) : State :=
  let a := ctxAddr b k
  if !ctxExists s b k then s
  else
    let old := s.reg a
    let s1 := s.setReg a (mergeBits 0xFFFF0002 old v &&& ~~~(v &&& 4#32))
    if bit v 0 then holdOn s1 b k else if bit old 0 then holdOff s1 b k else s1

/-- FLX_ (file 12). -/
def flxWrite (s : State) (b off : Nat) (v : Word) : State :=
  if 0x80F40 ≤ off && off < 0x80F84 then ctxWrite s b ((off - 0x80F40) / 4) v else plainAt s (baddr b off) v

/-- LNK_PTP_CTRL (R404, R405). -/
def ptpCtrl (s : State) (v : Word) : State :=
  let s1 := s.setReg (ptpa 0) (mergeBits 0x40FF0F7F (s.reg (ptpa 0)) v)
  let s2 := if bit v 31 then ptpEnable s1 else if bit (s.reg (ptpa 0)) 31 then ptpDisable s1 else s1
  if bit v 29 then ptpArm s2 else s2

/-- LNK_ (file 14). -/
def lnkWrite (s : State) (b off : Nat) (v : Word) : State :=
  if off < 0x90100 && off % 0x40 = 0 then linkJudge (laneCtrl s b ((off - 0x90000) / 0x40) v)
  else if b = 0 && off = 0x93800 then ptpCtrl s v
  else if b = 0 && off = 0x9380C then ptpGmport s v
  else if 0x92000 ≤ off && off < 0x92100 then plainAt (pixelsLeave s b ((off - 0x92000) / 0x40) s.now) (baddr b off) v
  else plainAt s (baddr b off) v

/-- PIO_ (file 16). -/
def pioWrite (s : State) (who : Who) (b off : Nat) (v : Word) : State :=
  if off < 0xA00C0 then cfgWrite s b ((off - 0xA0000) / 4) v
  else if 0xA0100 ≤ off && off < 0xA010C then bankWrite s b ((off - 0xA0100) / 4) v
  else if off = 0xA0110 then outWrite s b false 0 v
  else if off = 0xA0114 then outWrite s b false 32 v
  else if off = 0xA0118 then outWrite s b true 0 v
  else if off = 0xA011C then outWrite s b true 32 v
  else if 0xA0200 ≤ off && off < 0xA0400 && off % 0x20 < 0x18 then pmWrite s b ((off - 0xA0200) / 0x20) (off % 0x20) v
  else if 0xA0F00 ≤ off && off < 0xA0F30 then ownWrite s who b ((off - 0xA0F00) / 4) v
  else plainAt s (baddr b off) v

/-- The tick control registers, which billet 0 alone holds (R447). -/
def isTickCtl (off : Nat) : Bool := 0xA0810 ≤ off && off < 0xA0820

/-- TIM_ (file 16): while the PTP slave is enabled it alone writes ADJ (R444). A clear of FULL in the cycle of a capture
leaves it set (R454). -/
def timWrite (s : State) (b off : Nat) (v : Word) : State :=
  if isTickCtl off then
    if b ≠ 0 then s
    else if off = 0xA0810 then tickStepLo s v
    else if off = 0xA0814 then tickStepHi s v
    else if off = 0xA0818 && bit (s.reg (ptpa 0)) 31 then s
    else plainAt s off v
  else if 0xA1000 ≤ off && off < 0xA1800 then
    let k := (off - 0xA1000) / 0x20
    match off % 0x20 with
    | 0 => cmpCtrl s b k v
    | 4 => cmpTlo s b k v
    | 0xC => cmpShadow s b k 0xC v
    | 0x10 => cmpShadow s b k 0x10 v
    | _ => plainAt s (baddr b off) v
  else if 0xA1800 ≤ off && off < 0xA1A00 && off % 0x20 < 8 then capWrite s b ((off - 0xA1800) / 0x20) (off % 0x20) v
  else if 0xA1800 ≤ off && off < 0xA1A00 && off % 0x20 = 0x1C then
    plainAt s (baddr b off) (if (s.capture b ((off - 0xA1800) / 0x20)).recAt = s.now + 1 then setBit v 1 false else v)
  else plainAt s (baddr b off) v

/-- TAL_ (R456, R457): a clear of WRAP in the cycle of a wrap leaves it set. -/
def talWrite (s : State) (b off : Nat) (v : Word) : State :=
  if off < 0xB0200 && off % 0x20 = 0 then
    let s1 := fieldsAt s (baddr b off) v
    if bit v 30 then tallyClear s1 b ((off - 0xB0000) / 0x20) else s1
  else if off < 0xB0200 && off % 0x20 = 0x14 then
    plainAt s (baddr b off) (if (s.tally b ((off - 0xB0000) / 0x20)).wrapAt = s.now + 1 then setBit v 0 false else v)
  else plainAt s (baddr b off) v

/-- A write in the window of a billet the package holds (R39). -/
def billetWrite (s : State) (who : Who) (b off : Nat) (v : Word) : State :=
  if isHeld s b off then heldAccess s b off
  else match off / 0x10000 with
    | 0 => if off < 0x8000 then belWrite s b off v else stkWrite s who b off v
    | 4 => hmrWrite s who b off v
    | 5 => icWrite s b off v
    | 6 => forgeWrite s b off v
    | 7 => memRegWrite s b off v
    | 8 => flxWrite s b off v
    | 9 => lnkWrite s b off v
    | 10 => if off < 0xA0800 || 0xA0F00 ≤ off && off < 0xA1000 then pioWrite s who b off v else timWrite s b off v
    | 11 => talWrite s b off v
    | 12 => plainAt s (baddr b off) v
    | _ => latchedWrite s who b off v

/-- QCH_CMD: the commands written 1, in bit order (R422, R425, R426). -/
def qchCmd (s : State) (v : Word) : State :=
  let s1 := if bit v 0 && pairShadow s then takeTrigger s 1 else s
  let s2 := if bit v 1 && pairActive s1 && s1.quench.st ≠ 5 then takeTrigger s1 2 else s1
  let s3 := if bit v 2 then detachAsk s2 else s2
  let s4 := if bit v 3 then attachAsk s3 else s3
  if bit v 4 then resyncAsk s4 else s4

/-- QCH_ (file 15). -/
def qchWrite (s : State) (addr : Nat) (v : Word) : State :=
  match addr with
  | 0x802000 => quenchCtrl s v
  | 0x802004 => qchCmd s v
  | 0x802014 => quenchPorten s v
  | _ => plainAt s addr v

/-- TUY_ (file 13). -/
def tuyWrite (s : State) (addr : Nat) (v : Word) : State :=
  match addr with
  | 0x808000 => if bit v 0 then tuyEnable s else if s.tuy.running then tuyDisable s else s
  | 0x808020 =>
    let s1 := fieldsAt s addr v
    if bit v 31 then tuySwap s1 else s1
  | 0x80802C => (progAccess s (some v)).1
  | 0x808034 => (paramAccess s (some v)).1
  | 0x808038 => if fld v 13 0 < 12288 then rampStart s v else s
  | 0x808040 => voiceQueue s (fld v 31 30) (fld v 8 0)
  | 0x808C80 =>
    let s1 := plainAt s addr v
    { s1 with tuy := { s1.tuy with ampCfg := true } }
  | _ => plainAt s addr v

/-- Ring doorbell D of a billet (R498): sticky bits and private interrupts of the named hammers, and the trigger of the
Tongs channels with TYPE 100 and SEL = D. -/
def ringDoorbell (s : State) (v : Word) : State :=
  let b := fld v 10 8
  let d := fld v 3 0
  if !s.present b then s
  else
    let s1 := (upto 16).foldl (fun s h =>
      if bit v (16 + h) then raisePrivate (s.setSticky b h (natSet (s.stickyOf b h) (836 + d))) b h (d + 1) else s) s
    tngSignal s1 b 4 d

/-- HST_HIRQSET (R499). -/
def hirqSet (s : State) (v : Word) : State :=
  let now := if s.hostPort.irqSet.1 = s.now + 1 then s.hostPort.irqSet.2 else 0#32
  let s1 := s.orReg 0x810014 (fld v 15 0)
  { s1 with hostPort := { s1.hostPort with irqSet := (s.now + 1, now ||| v) } }

/-- A clear of HST_HIRQ (R499): bits set in this forge cycle stay. -/
def hirqClear (s : State) (v : Word) : State :=
  plainAt s 0x810014 (if s.hostPort.irqSet.1 = s.now + 1 then v &&& ~~~s.hostPort.irqSet.2 else v)

/-- HST_ (file 18). -/
def hstWrite (s : State) (addr : Nat) (v : Word) : State :=
  match addr with
  | 0x810010 => ringDoorbell s v
  | 0x810014 => hirqClear s v
  | 0x810018 => hirqSet s v
  | _ => plainAt s addr v

/-- GO (R485): the host's image at BOOT_IMGADDR is taken while the boot logic waits for it. -/
def bootGoes (s : State) : State :=
  if s.boot.waiting then
    let base := (s.reg 0x81100C).toNat / 64 * 64
    { s with boot := { s.boot with waiting := false, step := 1, base := base, header := s.gread base 1024 } }
  else s

/-- Boot (file 17). -/
def bootWrite (s : State) (addr : Nat) (v : Word) : State :=
  match addr with
  | 0x811008 => if bit v 0 then bootGoes s else s
  | _ => plainAt s addr v

/-- Global clocks and reset (file 17). -/
def gclkWrite (s : State) (addr : Nat) (v : Word) : State :=
  match addr with
  | 0x812104 => grstWrite s v
  | 0x812108 => wdogWrite s v
  | 0x81210C => kickWrite s v
  | _ => plainAt s addr v

/-- A write of the package block, the data ports apart (R38). -/
def globalWrite (s : State) (addr : Nat) (v : Word) : State :=
  match addr / 0x1000 with
  | 0x802 => qchWrite s addr v
  | 0x808 => tuyWrite s addr v
  | 0x810 => hstWrite s addr v
  | 0x811 => bootWrite s addr v
  | 0x812 => gclkWrite s addr v
  | _ => if addr = 0x801030 then powerAsk s v else plainAt s addr v

/-- No register answers while the part is in reset or in EMBER. -/
def accessible (s : State) : Bool := !s.boot.held && !s.ember.on

/-- A 32-bit write at an aligned BAR0 offset outside the data ports (R38-R40). -/
def coreWrite (s : State) (who : Who) (addr : Nat) (v : Word) : State :=
  if !accessible s || addr % 4 ≠ 0 then s
  else if addr < 0x800000 then
    (if s.present (addr / windowSize) then billetWrite s who (addr / windowSize) (addr % windowSize) v else s)
  else if 0x900000 ≤ addr && addr < 0xA00000 then aliasWrite s who (addr - 0x900000) v
  else globalWrite s addr v

/-! ### Reads -/

/-- A register as its block shows it, where nothing latches and nothing is claimed. -/
def plainRead (s : State) (addr : Nat) : Word := if (regRow s.variant addr).isSome then s.reg addr else 0#32

/-- BEL_PKG_STAT (file 02). -/
def pkgStatView (s : State) : Word :=
  let g := s.genlock
  let st := match g.st with
    | .freeRun => 0
    | .acquiring => 1
    | .jamPending => 2
    | .tracking => 3
    | .holdover => 4
  (s.reg 0x18 &&& 0xF80#32) ||| wd (b2n g.refPresent * 16 + b2n g.locked * 8 + st)

/-- The beam stamps (R61, R62): `o` is 0x0, 0x4, 0x8 of the latching view, 0x10, 0x14, 0x18 of the other. -/
def stampRead (s : State) (who : Who) (b p o : Nat) : State × Word :=
  let t := stampOf s b p
  match o with
  | 0 => stampLatch s who b p
  | 0x10 => (s, stampDl t)
  | 0x14 => (s, stampFlm t)
  | 0x18 => (s, stampFh t)
  | _ => (s, s.latched who b (stampAddr b p + o))

/-- BEL_ (R46). -/
def belRead (s : State) (who : Who) (b off : Nat) : State × Word :=
  if off = 0x18 then (s, pkgStatView s)
  else if off < 0x30 then (s, plainRead s off)
  else if 0x40 ≤ off && off < 0x5C && off % 0x10 < 0xC then stampRead s who b 4 (off - 0x40)
  else if 0x100 ≤ off && off < 0x500 then
    let p := off / 0x100 - 1
    let o := off % 0x100
    if 0x40 ≤ o && o < 0x5C && o % 0x10 < 0xC then stampRead s who b p (o - 0x40)
    else if o = 0x18 then
      let x := s.port b p
      (s, (s.breg b off &&& 0xE00#32) ||| wd (b2n x.running * 2 + b2n x.synLock))
    else (s, plainRead s (baddr b off))
  else (s, plainRead s (baddr b off))

/-- HMR_ (file 08, file 10): CLAIM shows the winner without a claim (R264). -/
def hmrRead (s : State) (who : Who) (b off : Nat) : State × Word :=
  let h := (off - 0x40000) / 0x1000
  match off % 0x1000 with
  | 0 => (s, ctrlWord s b h)
  | 4 => (s, statWord s b h)
  | 0x34 => pmAccess s who b h none
  | 0x3C => dmAccess s who b h none
  | 0x44 => dbgAccess s who b h none
  | 0x50 => (s, claimWord (winner s b h))
  | 0x58 => (s, insvcWord s b h 0)
  | 0x5C => (s, insvcWord s b h 2)
  | 0x68 => (s, istatWord s b h)
  | 0x6C => (s, wd (s.ppendOf b h))
  | _ => (s, plainRead s (baddr b off))

/-- IC_ (file 10). -/
def icRead (s : State) (b off : Nat) : Word :=
  if 0x50080 ≤ off && off < 0x51000 then icSrcView s b ((off - 0x50000) / 4)
  else if 0x51000 ≤ off && off < 0x51040 then wd (bits (s.ppendOf b ((off - 0x51000) / 4)) 31 28)
  else if 0x51140 ≤ off && off < 0x51180 then s.breg b (off - 0x40)
  else plainRead s (baddr b off)

/-- PIO_ (file 16). -/
def pioRead (s : State) (b off : Nat) : Word :=
  if 0xA0100 ≤ off && off < 0xA010C then bankView s b ((off - 0xA0100) / 4)
  else match off with
    | 0xA0110 => pinBits s b 0 (·.latch)
    | 0xA0114 => pinBits s b 32 (·.latch)
    | 0xA0118 => pinBits s b 0 (·.oe)
    | 0xA011C => pinBits s b 32 (·.oe)
    | 0xA0120 => pinBits s b 0 (·.filt)
    | 0xA0124 => pinBits s b 32 (·.filt)
    | 0xA0130 => pinBits s b 0 (pinSw s)
    | 0xA0134 => pinBits s b 32 (pinSw s)
    | _ =>
      if 0xA0200 ≤ off && off < 0xA0400 && off % 0x20 = 0x1C then pmStatView s b ((off - 0xA0200) / 0x20)
      else plainRead s (baddr b off)

/-- A word of a latched sequence (R62, R447, R455, R459). -/
def latchedRead (s : State) (who : Who) (b off : Nat) : State × Word := (s, s.latched who b (baddr b off))

/-- TIM_ (file 16). -/
def timRead (s : State) (who : Who) (b off : Nat) : State × Word :=
  if isTickCtl off then (s, plainRead s (if off < 0xA0818 then 1 else off))
  else if off = 0xA0800 then tickLatch s who b
  else if off = 0xA0804 then latchedRead s who b off
  else if off = 0xA0808 then (s, wd s.tick)
  else if off = 0xA080C then (s, wd (s.tick / 2 ^ 32))
  else if 0xA1000 ≤ off && off < 0xA1800 then
    let k := (off - 0xA1000) / 0x20
    match off % 0x20 with
    | 0x14 => (s, wd (s.compare b k).count)
    | 0x18 => (s, cmpStatView s b k)
    | _ => (s, plainRead s (baddr b off))
  else if 0xA1800 ≤ off && off < 0xA1A00 then
    let c := (off - 0xA1800) / 0x20
    match off % 0x20 with
    | 8 => capLatch s who b c
    | 0xC => latchedRead s who b off
    | 0x10 => latchedRead s who b off
    | 0x14 => latchedRead s who b off
    | 0x18 => latchedRead s who b off
    | 0x1C => (s, (s.breg b off &&& 6#32) ||| s.latched who b (baddr b off))
    | _ => (s, plainRead s (baddr b off))
  else (s, plainRead s (baddr b off))

/-- TAL_ (R459). -/
def talRead (s : State) (who : Who) (b off : Nat) : State × Word :=
  let k := (off - 0xB0000) / 0x20
  if 0xB0200 ≤ off then (s, 0#32)
  else match off % 0x20 with
    | 4 => tallyLatch s who b k false
    | 8 => latchedRead s who b off
    | 0xC => tallyLatch s who b k true
    | 0x10 => latchedRead s who b off
    | _ => (s, plainRead s (baddr b off))

/-- A live register: pixels whose instant has come have left, and with them the writes that take effect there (R534). -/
def liveRead (s : State) (b off : Nat) : State × Word :=
  let s1 := pixelsLeave s b (livePort off) s.now
  (s1, plainRead s1 (baddr b off))

/-- A read in the window of a billet the package holds (R39). -/
def billetRead (s : State) (who : Who) (b off : Nat) : State × Word :=
  let plain := (s, plainRead s (baddr b off))
  if isHeld s b off then (heldAccess s b off, 0#32)
  else match off / 0x10000 with
    | 0 =>
      if off < 0x8000 then belRead s who b off
      else if off < 0x8100 && off % 0x40 = 0xC then strikeData s who b ((off - 0x8000) / 0x40) none
      else plain
    | 3 =>
      if 0x30100 ≤ off && off < 0x30500 && off % 0x100 = 0x2C then (s, lutwView s b (off / 0x100 - 0x301))
      else if isLive off then liveRead s b off
      else plain
    | 4 => hmrRead s who b off
    | 5 => (s, icRead s b off)
    | 6 => if 0x68000 ≤ off && off < 0x68400 && off % 0x20 = 0xC then (s, tngStatView s b ((off - 0x68000) / 0x20)) else plain
    | 9 => if 0x91000 ≤ off && off < 0x91400 && off % 0x40 = 0x10 then (s, flowStatView s b ((off - 0x91000) / 0x40)) else plain
    | 10 => if off < 0xA0800 || 0xA0F00 ≤ off && off < 0xA1000 then (s, pioRead s b off) else timRead s who b off
    | 11 => talRead s who b off
    | 12 => if off = 0xC0000 then (s, clkView s b) else plain
    | _ => plain

/-- BOOT_STAT (file 17). -/
def bootStatView (s : State) : Word :=
  (s.reg 0x811000 &&& 0x00F00F00#32) ||| wd (b2n s.boot.imgB * 2 ^ 19 + s.boot.step % 8 * 2 ^ 16 + s.boot.sel % 4)

/-- A read of the package block, the data ports apart (R38). -/
def globalRead (s : State) (who : Who) (addr : Nat) : State × Word :=
  match addr with
  | 0x801008 => (s, ceilView s)
  | 0x801034 => (s, pwrView s)
  | 0x802008 => (s, qchStat s)
  | 0x808004 => (s, tuyStat s)
  | 0x808008 => tuyFrameRead s who
  | 0x80800C => (s, s.latched who 0 addr)
  | 0x808020 => (s, tuyPctrl s)
  | 0x80802C => progAccess s none
  | 0x808034 => paramAccess s none
  | 0x810018 => (s, s.reg 0x810014)
  | 0x811000 => (s, bootStatView s)
  | 0x812000 => (s, gclkView s)
  | _ =>
    if 0x808100 ≤ addr && addr < 0x808140 then (s, tuyVact s ((addr - 0x808100) / 4))
    else if 0x808300 ≤ addr && addr < 0x808380 then (s, convWord (s.conv ((addr - 0x808300) / 4)))
    else if 0x808800 ≤ addr && addr < 0x808C00 && addr % 16 = 8 then gminRead s ((addr - 0x808800) / 16)
    else if 0x808800 ≤ addr && addr < 0x808C00 && addr % 16 = 12 then peakRead s ((addr - 0x808800) / 16)
    else (s, plainRead s addr)

/-- A 32-bit read at an aligned BAR0 offset outside the data ports (R4, R14, R38): through the broadcast alias billet 0's
copy (R25). -/
def coreRead (s : State) (who : Who) (addr : Nat) : State × Word :=
  if !accessible s || addr % 4 ≠ 0 then (s, 0#32)
  else if addr < 0x800000 then
    (if s.present (addr / windowSize) then billetRead s who (addr / windowSize) (addr % windowSize) else (s, 0#32))
  else if 0xA00000 ≤ addr then (s, 0#32)
  else if 0x900000 ≤ addr then billetRead s who 0 (addr - 0x900000)
  else globalRead s who addr

end Sys2Proof.Machine
end

