-- ==== Sys2Proof/Machine/HostPort.lean ====
section
/-! DEFINITION. The host port (R487-R502): posted writes in order, data ports and their aperture, the whole BAR0. -/

namespace Sys2Proof.Machine

def State.dport (s : State) (k : Nat) : DPort := Tbl.get (fun _ => DPort.init) s.dports k

def State.setDport (s : State) (k : Nat) (x : DPort) : State :=
  { s with dports := Tbl.set (fun _ => DPort.init) s.dports k x }

def setHost (s : State) (x : HostPort) : State := { s with hostPort := x }

/-- A register of data port k (file 18). -/
def dpa (k o : Nat) : Nat := 0x820000 + 0x40 * k + o

/-- Status bits of a data port: DECERR 1, DLMISS 2, SPACEERR 3. -/
def dpErr (s : State) (k i : Nat) : State := s.orReg (dpa k 0x18) (2 ^ i)

/-- Address, row start and row count of a port as one. -/
abbrev DpPos := Nat × Nat × Nat

def dpPos (s : State) (k : Nat) : DpPos := ((s.reg (dpa k 4)).toNat, (s.dport k).row, (s.dport k).n)

/-- The advance of R493. -/
def dpNext (s : State) (k : Nat) (p : DpPos) : DpPos :=
  let len := fld (s.reg (dpa k 0xC)) 15 0
  let a := (p.1 + (s.reg (dpa k 8)).toNat) % 2 ^ 32
  if len = 0 then (a, p.2.1, p.2.2)
  else if p.2.2 + 1 = len then
    let row := (p.2.1 + (s.reg (dpa k 0x10)).toNat) % 2 ^ 32
    (row, row, 0)
  else (a, p.2.1, (p.2.2 + 1) % 2 ^ 16)

/-- Advance the port and count the word. -/
def dpAdvance (s : State) (k : Nat) : State :=
  let p := dpNext s k (dpPos s k)
  ((s.setReg (dpa k 4) (wd p.1)).setDport k { s.dport k with row := p.2.1, n := p.2.2 }).addReg (dpa k 0x1C) 1

/-- A space-10 offset that names the aperture or the data-port registers (R492). -/
def dpExcluded (a : Nat) : Bool := (0x820000 ≤ a && a < 0x830000) || 0xC00000 ≤ a

/-- Space and billet of a control word. -/
def dpSpace (c : Word) : Nat := fld c 13 12
def dpBillet (c : Word) : Nat := fld c 10 8

/-- The requester of a data port at a billet (R319): 9 at billet 0, whose host port it is, inbound Flux at another. -/
def dpReq (b : Nat) : Nat := if b = 0 then 9 else 7

/-- A word of data port k is written (R492, R36). -/
def dpStore (s : State) (k : Nat) (ctl : Word) (a : Nat) (v : Word) : State :=
  let b := dpBillet ctl
  match dpSpace ctl with
  | 0 => if s.memOk (b * 2 ^ 32 + a) then memStore s b (dpReq b) a (leBytes 4 v.toNat) else dpErr s k 1
  | 1 => if s.present b then s.hwrite b (a % hearthSize) (leBytes 4 v.toNat) else dpErr s k 1
  | 2 => if dpExcluded (a % 2 ^ 24) then dpErr s k 3 else coreWrite s .host (a % 2 ^ 24) v
  | _ => dpErr s k 3

/-- A word of hearth RAM (R317); none where it is uncorrectable or the billet is absent. -/
def hearthWord (s : State) (b a : Nat) : Option Word :=
  let o := a % hearthSize
  if s.present b && !s.hbad b o 4 then some (wd (leNat (s.hread b o 4))) else none

/-- A word of data port k is read (R36, R314, R317, R492). -/
def dpLoad (s : State) (k : Nat) (ctl : Word) (a : Nat) : State × Word :=
  let b := dpBillet ctl
  match dpSpace ctl with
  | 0 =>
    let r := memRead s b (dpReq b) a 4
    match r.2 with
    | some l => (r.1, wd (leNat l))
    | none => (dpErr r.1 k 1, 0#32)
  | 1 =>
    match hearthWord s b a with
    | some v => (s, v)
    | none => (dpErr s k 1, 0#32)
  | 2 => if dpExcluded (a % 2 ^ 24) then (dpErr s k 3, 0#32) else coreRead s .host (a % 2 ^ 24)
  | _ => (dpErr s k 3, 0#32)

/-! ### Posted writes -/

/-- An accepted host write makes prefetched words stale (R495). -/
def dropPrefetch (s : State) : State :=
  (upto 4).foldl (fun s k => s.setDport k { s.dport k with pref := [] }) s

/-- Is a commit one of host software that its billets have not accepted (R490)? -/
def hostWaits (c : Commit) : Bool := !c.accepted && c.billet = 0 && c.ctx = 16

/-- A line commit of host software waits for its entries: later host writes wait behind it (R490). -/
def hostStalled (s : State) : Bool := s.commits.live.any hostWaits

/-- A data port's GDDR6 accesses are held by a freeze (R329). -/
def dpFrozen (s : State) (ctl : Word) : Bool := dpSpace ctl = 0 && isFrozen s (dpBillet ctl) (dpReq (dpBillet ctl))

/-- Can the target accept the write now (R329, R490)? -/
def canAccept (s : State) (e : Posted) : Bool :=
  !hostStalled s && !(e.port < 4 && dpFrozen s e.ctl)

/-- The target accepts a posted write. -/
def acceptPosted (s : State) (e : Posted) : State :=
  dropPrefetch (if e.port < 4 then dpStore s e.port e.ctl e.addr e.val else coreWrite s .host e.addr e.val)

/-- Accept posted writes from the oldest on: at most `fuel`, and only those that `p` wants. -/
def hostDrain (p : Posted → Bool) : Nat → State → State
  | 0, s => s
  | fuel + 1, s =>
    match s.hostPort.posted with
    | [] => s
    | e :: rest =>
      if p e && canAccept s e then hostDrain p fuel (acceptPosted (setHost s { s.hostPort with posted := rest }) e) else s

/-- Accept everything that can be accepted. -/
def drainAll (s : State) : State := hostDrain (fun _ => true) s.hostPort.posted.length s

/-- Post a write. -/
def post (s : State) (e : Posted) : State := setHost s { s.hostPort with posted := s.hostPort.posted ++ [e] }

/-- Words of port k not yet accepted. -/
def dpPending (s : State) (k : Nat) : Nat := (s.hostPort.posted.filter (fun e => e.port = k)).length

/-- Accept the oldest writes until port k has a word fewer (R494). -/
def dpMakeRoom (s : State) (k : Nat) : State :=
  let n := (s.hostPort.posted.takeWhile (fun e => e.port ≠ k)).length + 1
  hostDrain (fun _ => true) n s

/-- The deadline of an access accepted now (R491): the start of the same package line one frame on. -/
def hostDeadline (s : State) : Nat × Nat := ((s.beam.frame + 1) % 2 ^ 48, s.beam.line)

/-- A word is written to DATA or the aperture (R493, R494): posted, its oldest accepted first when 1,024 wait. -/
def dpPost (s : State) (k : Nat) (v : Word) : State :=
  let s1 := if 1024 ≤ dpPending s k then dpMakeRoom s k else s
  dpAdvance (post s1 ⟨k, s1.reg (dpa k 0), (s1.reg (dpa k 4)).toNat, v, hostDeadline s⟩) k

/-- A word is read from DATA or the aperture (R493, R495). -/
def dpRead (s : State) (k : Nat) : State × Word :=
  let ctl := s.reg (dpa k 0)
  let a := (s.reg (dpa k 4)).toNat
  let x := s.dport k
  match x.pref with
  | (a', v) :: rest => if a' = a then (dpAdvance (s.setDport k { x with pref := rest }) k, v)
                       else
                         let r := dpLoad (s.setDport k { x with pref := [] }) k ctl a
                         (dpAdvance r.1 k, r.2)
  | [] =>
    let r := dpLoad s k ctl a
    (dpAdvance r.1 k, r.2)

/-- Discard the prefetch of port k (R495). -/
def dpDiscard (s : State) (k : Nat) : State := s.setDport k { s.dport k with pref := [] }

/-- A write of ADDR (R493). -/
def dpAddr (s : State) (k : Nat) (v : Word) : State :=
  let w := v &&& 0xFFFFFFFC#32
  (s.setReg (dpa k 4) w).setDport k { row := w.toNat, n := 0, pref := [] }

/-- A write of a data-port register (file 18): it acts in the host port at once. -/
def dpWrite (s : State) (addr : Nat) (v : Word) : State :=
  let k := (addr - 0x820000) / 0x40
  let o := addr % 0x40
  if 4 ≤ k then s
  else if o = 4 then dpAddr s k v
  else if o = 0x14 then dpPost s k v
  else if o < 0x14 then dpDiscard (fieldsAt s addr v) k
  else plainAt s addr v

/-- A read of a data-port register. -/
def dpRegRead (s : State) (addr : Nat) : State × Word :=
  let k := (addr - 0x820000) / 0x40
  let o := addr % 0x40
  if 4 ≤ k then (s, 0#32)
  else if o = 0x14 then dpRead s k
  else if o = 0x18 then (s, (s.reg addr &&& 0xE#32) ||| wd (min 1024 (dpPending s k) * 2 ^ 16))
  else (s, plainRead s addr)

/-- Is a BAR0 offset a data-port register? -/
def isDpReg (a : Nat) : Bool := 0x820000 ≤ a && a < 0x830000

/-! ### The whole of BAR0 -/

/-- A 32-bit write at a BAR0 offset (R38). The aperture serves host software alone. -/
def busWrite (s : State) (who : Who) (addr : Nat) (v : Word) : State :=
  if !accessible s || addr % 4 ≠ 0 then s
  else if isDpReg addr then dpWrite s addr v
  else if 0xC00000 ≤ addr then (if who = .host then dpPost s ((addr - 0xC00000) / 0x100000 % 4) v else s)
  else coreWrite s who addr v

/-- A 32-bit read at a BAR0 offset. -/
def busRead (s : State) (who : Who) (addr : Nat) : State × Word :=
  if !accessible s || addr % 4 ≠ 0 then (s, 0#32)
  else if isDpReg addr then dpRegRead s addr
  else if 0xC00000 ≤ addr then (if who = .host then dpRead s ((addr - 0xC00000) / 0x100000 % 4) else (s, 0#32))
  else coreRead s who addr

/-- A host write (R490): it passes no earlier one. A data-port register accepts it at once, and what was prefetched is
then stale (R495). -/
def hostWrite (s : State) (addr : Nat) (v : Word) : State :=
  if !accessible s || addr % 4 ≠ 0 then s
  else if isDpReg addr && addr % 0x40 ≠ 0x14 then dropPrefetch (dpWrite s addr v)
  else if isDpReg addr || 0xC00000 ≤ addr then busWrite s .host addr v
  else drainAll (post s ⟨4, 0#32, addr, v, hostDeadline s⟩)

/-- The data port whose DATA a BAR0 offset reads (R493, R496). -/
def dataPortOf (addr : Nat) : Option Nat :=
  if 0xC00000 ≤ addr then some ((addr - 0xC00000) / 0x100000 % 4)
  else if isDpReg addr && addr % 0x40 = 0x14 then some ((addr - 0x820000) / 0x40)
  else none

/-- A host read (R490): performed once every earlier host write is accepted; none where one cannot be, or where a freeze
holds the data port (R329). -/
def hostRead (s : State) (addr : Nat) : State × Option Word :=
  let s1 := drainAll s
  let frozen := (dataPortOf addr).any (fun k => dpFrozen s1 (s1.reg (dpa k 0)))
  if s1.hostPort.posted = [] && !frozen then
    let r := busRead s1 .host addr
    (r.1, some r.2)
  else (s1, none)

/-- A write by whoever makes it. -/
def anyWrite (s : State) (who : Who) (addr : Nat) (v : Word) : State :=
  if who = .host then hostWrite s addr v else busWrite s who addr v

/-- The words of a host read, and the addresses that still wait for earlier writes (R490). -/
def hostReads (s : State) : List Nat → State × List Word × List Nat
  | [] => (s, [], [])
  | a :: t =>
    let r := hostRead s a
    match r.2 with
    | none => (r.1, [], a :: t)
    | some w =>
      let q := hostReads r.1 t
      (q.1, w :: q.2.1, q.2.2)

/-- The words go to the read's completion. -/
def hostComplete (r : State × List Word) : State := setHost r.1 { r.1.hostPort with out := r.2 }

/-- A host read (R490, R491): it waits for earlier writes, and behind a read that waits for them. -/
def readStart (s : State) (l : List Nat) : State :=
  let h := s.hostPort
  if h.wait = [] then
    let r := hostReads s l
    setHost r.1 { r.1.hostPort with out := r.2.1, wait := r.2.2, waitDead := hostDeadline s }
  else setHost s { h with wait := h.wait ++ l }

/-- A read that waits goes on where it now can (R490). -/
def readsGo (s : State) : State :=
  let h := s.hostPort
  if h.wait = [] then s
  else
    let r := hostReads s h.wait
    setHost r.1 { r.1.hostPort with out := h.out ++ r.2.1, wait := r.2.2 }

/-- A discarded aperture dword (R497). -/
def partDword (s : State) (addr : Nat) : State := dpAdvance (hostErr s 3 addr) ((addr - 0xC00000) / 0x100000 % 4)

/-- The bytes of a Memory Write, one dword at a time (R40, R487, R496, R497): `off` is where the next dword starts
within the data; partial dwords are discarded and recorded, in the window of an absent billet too (log entry 44). -/
def memoryWrite (s : State) (addr : Nat) : Nat → List Byte → State
  | 0, _ => s
  | _ + 1, [] => s
  | fuel + 1, d =>
    let n := 4 - addr % 4
    let a := addr - addr % 4
    let s1 :=
      if n = 4 && 4 ≤ d.length then hostWrite s a (wd (leNat (d.take 4)))
      else if 0xC00000 ≤ a then partDword s a
      else hostErr s 0 a
    memoryWrite s1 (a + 4) fuel (d.drop n)

/-- PCIE_MEMORY_WRITE (R487, R490). -/
def pcieWrite (s : State) (addr : Nat) (d : List Byte) : State :=
  if accessible s then memoryWrite s (addr % 2 ^ 24) (d.length + 1) d else s

/-- The dwords that bytes `addr` to `addr + n` touch, ascending. -/
def dwordsOf (addr n : Nat) : List Nat :=
  let a := addr - addr % 4
  (upto ((addr % 4 + n + 3) / 4)).map (fun i => a + 4 * i)

/-- PCIE_MEMORY_READ (R487, R490): the dwords that hold the addressed bytes. -/
def pcieRead (s : State) (addr n : Nat) : State :=
  if accessible s then readStart s (dwordsOf (addr % 2 ^ 24) n) else s

/-- The address of the `i`-th word of an SPI transaction (R488): an aperture address goes on selecting its port. -/
def spiAddr (addr i : Nat) : Nat :=
  let a := addr % 2 ^ 24 / 4 * 4
  if 0xC00000 ≤ a then a else (a + 4 * i) % 2 ^ 24

/-- SPIERR (R488). -/
def spiErr (s : State) : State := s.orReg 0x810004 0x10

/-- SPI WRITE (R488): a word cut short is discarded. -/
def spiWrites (s : State) (addr i : Nat) : Nat → List Byte → State
  | 0, _ => s
  | fuel + 1, d =>
    if d = [] then s
    else if d.length < 4 then hostErr s 4 (spiAddr addr i)
    else spiWrites (hostWrite s (spiAddr addr i) (wd (leNat (d.take 4)))) addr (i + 1) fuel (d.drop 4)

/-- Words of a read that waits end with 0 (R491): DLMISS in the data port, which advances (R493), or in HST_ERR. -/
def readsEnd (s : State) : State :=
  let h := s.hostPort
  h.wait.foldl (fun s a => match dataPortOf a with
    | some k => dpAdvance (dpErr s k 2) k
    | none => hostErr s 2 a)
    (setHost s { h with out := h.out ++ List.replicate h.wait.length 0#32, wait := [] })

/-- HOST_ACCESS_DEADLINE (R491): the oldest posted write that has missed its deadline is discarded, else a read that has
ends with 0. -/
def hostMiss (s : State) : State :=
  match s.hostPort.posted with
  | e :: rest =>
    if linePassed s e.dead then
      let s1 := setHost s { s.hostPort with posted := rest }
      readsGo (hostDrain (fun e => e.port = 4) rest.length
        (if e.port < 4 then dpErr s1 e.port 2 else hostErr s1 2 e.addr))
    else s
  | [] => if s.hostPort.wait ≠ [] && linePassed s s.hostPort.waitDead then readsEnd s else s

/-- Host accesses whose deadline has passed end by themselves (R491, R306). -/
def hostOverdue (s : State) : State := (upto (s.hostPort.posted.length + 1)).foldl (fun s _ => hostMiss s) s

/-- A new frame: a deadline that has not come lies in it (R64, R491). -/
def hostFrame (s : State) : State :=
  let f := s.beam.frame
  let h := s.hostPort
  setHost s { h with posted := h.posted.map (fun e => { e with dead := (f, e.dead.2) }), waitDead := (f, h.waitDead.2) }

/-- A prefetch (R495): the next word along the sequence beyond those held, at most 16 ahead. -/
def dpPrefetch (s : State) (k : Nat) : State :=
  let ctl := s.reg (dpa k 0)
  let x := s.dport k
  let p := (upto x.pref.length).foldl (fun p _ => dpNext s k p) (dpPos s k)
  let b := dpBillet ctl
  if !bit ctl 31 || 2 ≤ dpSpace ctl || 16 ≤ x.pref.length then s
  else if dpSpace ctl = 0 then
    (if readBad s b p.1 4 || dpFrozen s ctl then s
    else
      let r := memRead s b (dpReq b) p.1 4
      match r.2 with
      | some l => r.1.setDport k { x with pref := x.pref ++ [(p.1, wd (leNat l))] }
      | none => r.1)
  else match hearthWord s b p.1 with
    | some v => s.setDport k { x with pref := x.pref ++ [(p.1, v)] }
    | none => s

/-- HOST_RESET (R501): a write that waits to be accepted as a line commit is a posted word not yet accepted (R490). -/
def hostReset (s : State) : State :=
  let lost := heldOf s (ctxKey 0 16) ≠ []
  let s0 := s.setLive (s.commits.live.filter (fun c => !hostWaits c))
  let s1 := setSingle (setHeld (s0.clrReg (ctxAddr 0 16) 1) (ctxKey 0 16) []) (ctxKey 0 16) false
  let own := fun (kv : Nat × Word) => (0x810000 ≤ kv.1 && kv.1 < 0x811000) || (0x820000 ≤ kv.1 && kv.1 < 0x830000)
  let regs1 := s1.regs.filter (fun kv => !own kv)
  let lat1 := s1.latches.filter (fun kv => kv.1 / 2 ^ 24 % 18 ≠ 0)
  let hp := { HostPort.init with ir := s.hostPort.ir }
  let s2 := { s1 with regs := regs1, latches := lat1, dports := [], hostPort := hp }
  if lost then s2.orReg 0x810004 0x20 else s2

/-- PCIE_LINK_CHANGE (R487): lanes and speed in HST_STAT; both 0 while the link is down. -/
def linkChange (s : State) (up : Bool) (width speed : Nat) : State :=
  s.setReg 0x810000 (if up then wd (width % 16 * 16 + speed % 8 * 2 + 1) else 0#32)

/-! ### Configuration space -/

/-- Bits of a header word that a configuration write sets (R487): Command without Bus Master Enable, and BAR0's base. -/
def cfgMask (reg : Nat) : Nat :=
  match reg with
  | 4 => 0x543
  | 0x10 => 0xFF000000
  | _ => 0

/-- A configuration read (R487): Device ID, class and revision, Command and the BARs; words the spec does not give are
free values. -/
def cfgRead (s : State) (reg : Nat) : State × Word :=
  match reg with
  | 0 => (s.nextFree, wd (0x0B08 * 2 ^ 16 + s.freeNat % 2 ^ 16))
  | 4 => (s.nextFree, (Tbl.get (fun _ => 0#32) s.hostPort.cfg 4) ||| wd (s.freeNat % 2 ^ 16 * 2 ^ 16))
  | 8 => (s, wd (0x048000 * 256 + fld (s.reg 0x800004) 7 0))
  | _ =>
    if 0x10 ≤ reg && reg < 0x28 then (s, Tbl.get (fun _ => 0#32) s.hostPort.cfg reg)
    else (s.nextFree, wd s.freeNat)

/-- PCIE_CONFIG_ACCESS (R487). -/
def cfgAccess (s : State) (reg : Nat) (w : Option Word) : State :=
  let a := reg / 4 * 4
  match w with
  | some v =>
    let w1 := mergeBits (cfgMask a) (Tbl.get (fun _ => 0#32) s.hostPort.cfg a) v
    setHost s { s.hostPort with cfg := Tbl.set (fun _ => 0#32) s.hostPort.cfg a w1 }
  | none => hostComplete ((cfgRead s a).1, [(cfgRead s a).2])

end Sys2Proof.Machine
end

