-- ==== Sys2Proof/Machine/HammerAccess.lean ====
section
/-! DEFINITION. A hammer's accesses: the data space and its windows, posted stores, the outstanding load, the bit space
(R198-R213). -/

namespace Sys2Proof.Machine

/-- How an instruction's work ends: done, stalled (the hammer waits and has not issued it), or a trap was entered. -/
inductive Issue where
  | done (s : State)
  | stall (s : State)
  | trap (s : State)

/-- The state an issue leaves. -/
def Issue.state : Issue → State
  | .done s => s
  | .stall s => s
  | .trap s => s

/-- Go on after a step that is done. -/
def Issue.andThen (x : Issue) (f : State → Issue) : Issue :=
  match x with
  | .done s => f s
  | .stall s => .stall s
  | .trap s => .trap s

/-- Set the PC. -/
def setPc (s : State) (b h pc : Nat) : State := s.setHammer b h { s.hammer b h with pc := pc % 2 ^ 14 }

/-- Set a general register. -/
def setG (s : State) (b h g : Nat) (v : HWord) : State := s.setHammer b h ((s.hammer b h).setReg g v)

/-! ### The data space (R198, R201, R202) -/

/-- Where a data address lies. -/
inductive Region where
  | bank (a : Nat)
  | hearth (off : Nat)
  | reg (addr : Nat) (odd : Bool)
  | aperture
  | core (o : Nat) (odd : Bool)

/-- BAR0 byte address of a peripheral-window data address (R202). -/
def windowAddr (s : State) (b h a : Nat) : Nat :=
  let w := s.reg (haddr b h 0xC)
  let d := 2 * (a - 0x8000)
  if bit w 9 then b * windowSize + (fld w 4 0 * 0x8000 + d) % windowSize else (fld w 8 0 * 0x8000 + d) % 2 ^ 24

/-- The region of a data address (R198, R201, R202). -/
def regionOf (s : State) (b h : Nat) (x : HWord) : Region :=
  let a := x.toNat
  if a < 0x2000 then .bank a
  else if a < 0x8000 then .hearth ((fld (s.reg (haddr b h 0x10)) 6 0 * 16384 + 2 * (a - 0x2000)) % hearthSize)
  else if a < 0xFFC0 then
    let w := windowAddr s b h a
    if inAperture w then .aperture else .reg (w / 4 * 4) (w % 4 = 2)
  else .core ((a - 0xFFC0) / 2 * 4) (a % 2 = 1)

/-- A remote target carries a deadline (R205): another billet of the package, or the package block. -/
def Target.remote (s : State) (b : Nat) : Target → Bool
  | .hearth _ => false
  | .reg a => if a < 0x800000 then s.present (a / windowSize) && a / windowSize ≠ b else a < 0x900000

/-! ### Flux transactions (R333) -/

/-- Transactions in flight from billet `b` (R333). -/
def fluxInUse (s : State) (b : Nat) : Nat := s.bf b 0x80000 8 0

/-- Set IN_USE and PEAK. -/
def fluxSet (s : State) (b n : Nat) : State := s.setBreg b 0x80000 (wd (max n (s.bf b 0x80000 24 16) * 2 ^ 16 + n))

/-- An FLX_ counter and its event bit. -/
def fluxCount (s : State) (b off evt : Nat) : State := (s.addReg (baddr b off) 1).orReg (baddr b 0x80010) evt

/-- An access of billet `b` to a target takes a Flux transaction where the target is remote; with none free it stalls
(R333; log entry 52). -/
def fluxTake (s : State) (b : Nat) (t : Target) : Issue :=
  if !t.remote s b then .done s
  else if 256 ≤ fluxInUse s b then .stall (fluxCount s b 0x80004 1)
  else .done (fluxSet s b (fluxInUse s b + 1))

/-- Its response arrives, and the transaction is free (R333). -/
def fluxFree (s : State) (b : Nat) (t : Target) : State := if t.remote s b then fluxSet s b (fluxInUse s b - 1) else s

/-! ### Stores (R203, R204, R205, R212) -/

/-- A far-bit write, applied by the block that holds the register, by the field's type (R212). A line-latched bit is
one line commit of that bit; a bit of a live register or of a package-beam register is operated on when the write takes
effect there (R47, R82). -/
def farWrite (s : State) (who : Who) (addr i : Nat) (op : BitOp) : State :=
  match regRow s.variant addr with
  | none => s
  | some r =>
    let keep := r.rw ||| r.rws
    let off := addr % windowSize
    let w1 := (r.w1c ||| r.w1s).testBit i && op ≠ .clr
    if addr < 0x800000 && inLatchedBlocks off && !isLive off then
      if (latchedMask s.variant off).testBit i then
        let c := ctxOf who
        (if s.present (addr / windowSize) then
          commitWrite s c.1 c.2 { all := false, addr := addr, val := 0#32, bitOp := some (i, op) } else s)
      else if w1 then immediateBits s addr (wd (2 ^ i)) else s
    else if addr < 0x800000 && isLive off && s.present (addr / windowSize) && keep.testBit i then
      pushLive s (addr / windowSize) (liveKey who) off 0#32 (some (i, op))
    else if isPkgReg addr && keep.testBit i then pkgAccept s addr 0#32 (some (i, op))
    else
      let cur := (busRead s who addr).2 &&& wd keep
      if keep.testBit i then busWrite s who addr (bitApply cur i op)
      else if w1 then busWrite s who addr (cur ||| wd (2 ^ i)) else s

/-- A store reaches its target. -/
def performStore (s : State) (b h : Nat) (x : PendStore) : State :=
  match x.target, x.kind with
  | .hearth off, .half v => s.hwrite b off (leBytes 2 v.toNat)
  | .reg a, .word v => busWrite s (.hammer b h) a v
  | .reg a, .bit i op => farWrite s (.hammer b h) a i op
  | _, _ => s

/-- A line commit of this hammer waits for its entries: its store has not completed (R33, R204). -/
def commitStalled (s : State) (b h : Nat) : Bool := s.commits.live.any (fun c => !c.accepted && c.billet = b && c.ctx = h)

/-- The oldest posted store leaves the write buffer: performed, or discarded. -/
def storeOut (s : State) (b h : Nat) (perform : Bool) : State :=
  let x := s.hammer b h
  match x.stores with
  | [] => s
  | t :: rest =>
    let s1 := s.setHammer b h { x with stores := rest }
    if perform then performStore s1 b h t else s1

/-- The oldest posted store is accepted by its target, and its response frees its transaction (R204, R333). -/
def storeLands (s : State) (b h : Nat) : State :=
  match (s.hammer b h).stores with
  | [] => s
  | t :: _ => fluxFree (storeOut s b h true) b t.target

/-- Complete up to `fuel` posted stores, oldest first, as far as commit acceptance lets them. -/
def settleStores : Nat → State → Nat → Nat → State
  | 0, s, _, _ => s
  | fuel + 1, s, b, h =>
    if (s.hammer b h).stores = [] || commitStalled s b h then s else settleStores fuel (storeLands s b h) b h

/-- Have all stores completed (R204)? -/
def storesDone (s : State) (b h : Nat) : Bool := (s.hammer b h).stores = [] && !commitStalled s b h

/-- Complete every earlier store, or stall. -/
def afterStores (s : State) (b h : Nat) : Issue :=
  let s1 := settleStores (s.hammer b h).stores.length s b h
  if storesDone s1 b h then .done s1 else .stall s1

/-- The BUSERR trap of the access at `pc` is entered (R251): its post-increment is undone, so that it runs afresh after
RETI (DEDUCED, log entry 53). -/
def busTrap (s : State) (b h pc : Nat) (undo : Option (Nat × HWord)) : State :=
  trapEnter (match undo with
    | some (g, v) => s.setHammer b h ((s.hammer b h).setReg g v)
    | none => s) b h 5 pc

/-- With BETRAP = 1 an access that failed traps at the access (R205), at the first boundary (R251): within a RPT, where it
is no access of the repeated instruction, that is its end (R226, R244). A halted hammer is entered into no trap. -/
def accessTrap (s : State) (b h pc : Nat) (undo : Option (Nat × HWord)) : Issue :=
  let x := s.hammer b h
  if !beTrap s b h || x.run = .halted || x.run = .off then .done s
  else if x.rptLeft ≠ 0 && pc ≠ x.rptAt then
    .done (if x.trapDue = none then s.setHammer b h { x with trapDue := some (pc, undo) } else s)
  else .trap (busTrap s b h pc undo)

/-- An access ends with a decode error (R205): BUSERR. -/
def busErr (s : State) (b h pc : Nat) (undo : Option (Nat × HWord) := none) : Issue :=
  accessTrap (setStat s b h 11) b h pc undo

/-- An access ends by its deadline (R205): DLMISS. -/
def accessMiss (s : State) (b h pc : Nat) (undo : Option (Nat × HWord) := none) : Issue :=
  accessTrap (raiseDlMiss s b h) b h pc undo

/-! ### Accesses that fail (R205) -/

/-- May an access to the target end in a decode error? One to an absent billet's window completes without error (R4). -/
def Target.mayErr (s : State) : Target → Bool
  | .hearth _ => true
  | .reg a => 0x800000 ≤ a || s.present (a / windowSize)

/-- Does the access within the instruction under way fail now: by its deadline (`true`), or with a decode error? -/
def failsNow (s : State) (b h : Nat) (t : Target) (write : Bool) : State × Option Bool :=
  let x := s.hammer b h
  match x.failing with
  | none => (s, none)
  | some (k, miss, w) =>
    if w ≠ write || !(if miss then t.remote s b else t.mayErr s) then (s, none)
    else if k = 0 then (s.setHammer b h { x with failing := none }, some miss)
    else (s.setHammer b h { x with failing := some (k - 1, miss, w) }, none)

/-- An access fails: at hearth RAM a decode error shows that its word is uncorrectable (R317). -/
def accessFails (s : State) (b h pc : Nat) (undo : Option (Nat × HWord)) (t : Target) (write miss : Bool) : Issue :=
  if miss then accessMiss s b h pc undo
  else busErr (match t, write with
    | .hearth off, false => s.hspoil b off
    | _, _ => s) b h pc undo

/-- Post a store (R204): with four entries taken, the oldest completes first. -/
def postStore (s : State) (b h : Nat) (t : PendStore) : Issue :=
  let s1 := if 4 ≤ (s.hammer b h).stores.length then settleStores 1 s b h else s
  let x := s1.hammer b h
  if 4 ≤ x.stores.length then .stall s1
  else (fluxTake s1 b t.target).andThen (fun s => .done (s.setHammer b h { x with stores := x.stores ++ [t] }))

/-- Forget which even word was read last (R203). -/
def dropEven (s : State) (b h : Nat) : State := s.setHammer b h { s.hammer b h with lastEven := none }

/-- Load the write-high latch (R203). -/
def setWriteHigh (s : State) (b h : Nat) (v : HWord) : State :=
  s.setHammer b h { s.hammer b h with writeHigh := v, lastEven := none }

/-- A core-page register write (R203): the hammer's own accesses take effect in program order (R204), so it waits for
every earlier store; for COMPLETE R266 says so. -/
def coreStore (s : State) (b h o : Nat) (w : Word) : Issue :=
  (afterStores s b h).andThen (fun s => .done (busWrite s (.hammer b h) (haddr b h o) w))

/-- A store of a data word (R198, R203, R204) by the instruction at `pc`; `undo` is the register its post-increment
changes, with the value before. -/
def storeWord (s : State) (b h pc : Nat) (a v : HWord) (undo : Option (Nat × HWord) := none) : Issue :=
  match regionOf s b h a with
  | .bank i => .done (setBankWord s b h i v)
  | .hearth off => postStore s b h ⟨.half v, .hearth off, pc, deadlineOf s b h, undo⟩
  | .aperture => busErr (dropEven s b h) b h pc
  | .reg _ true => .done (setWriteHigh s b h v)
  | .core _ true => .done (setWriteHigh s b h v)
  | .reg addr false =>
    (postStore s b h ⟨.word ((s.hammer b h).writeHigh ++ v), .reg addr, pc, deadlineOf s b h, undo⟩).andThen
      (fun s => .done (setWriteHigh s b h 0#16))
  | .core o false =>
    let w := (s.hammer b h).writeHigh ++ v
    match coreStore s b h o w with
    | .done s1 => if o = 0 && bit w 2 then .done s1 else .done (setWriteHigh s1 b h 0#16)
    | r => r

/-! ### Loads (R203, R204) -/

/-- A loaded value reaches its register. -/
def deliver (s : State) (b h : Nat) (d : LoadDst) (v : HWord) (bitOf : Nat → Bool) : State :=
  let t := fun g => decide ((s.hammer b h).reg g ≠ 0#16)
  let put := fun g (x : Bool) => setG s b h g (if x then 1#16 else 0#16)
  match d with
  | .reg g => setG s b h g v
  | .bitMov g i => put g (bitOf i)
  | .bitAnd g i => put g (t g && bitOf i)
  | .bitOr g i => put g (t g || bitOf i)
  | .bitXor g i => put g (t g != bitOf i)

/-- The register a load goes to. -/
def LoadDst.target : LoadDst → Nat
  | .reg g => g
  | .bitMov g _ => g
  | .bitAnd g _ => g
  | .bitOr g _ => g
  | .bitXor g _ => g

/-- Does the load read a far bit? -/
def LoadDst.isBit : LoadDst → Bool
  | .reg _ => false
  | _ => true

/-- The latching DL word of a stamp (R62). -/
def isStampDl (a : Nat) : Bool :=
  let off := a % windowSize
  a < 0x800000 && (off = 0x40 || off = 0x140 || off = 0x240 || off = 0x340 || off = 0x440)

/-- A fresh read of a register's odd word (R203): a 32-bit read, but the line half of DL is the latched one (R62). -/
def oddRead (s : State) (who : Who) (a : Nat) : State × Word :=
  if isStampDl a && s.present (a / windowSize) then (s, s.latched who (a / windowSize) a) else busRead s who a

/-- The read of a window access: its 32-bit word (a hearth word in the low half); an even register word loads the
read-high latch. -/
def performLoad (s : State) (b h : Nat) (x : PendLoad) : State × Word :=
  match x.target with
  | .hearth off => (s, wd (leNat (s.hread b off 2)))
  | .reg a =>
    let r := if x.odd then oddRead s (.hammer b h) a else busRead s (.hammer b h) a
    if x.odd || x.dst.isBit then r
    else (r.1.setHammer b h { r.1.hammer b h with readHigh := BitVec.ofNat 16 (fld r.2 31 16) }, r.2)

/-- A load completes with a word: the outstanding load is done. -/
def loadDone (s : State) (b h : Nat) (x : PendLoad) (w : Word) : State :=
  let s1 := s.setHammer b h { s.hammer b h with load := none }
  deliver s1 b h x.dst (BitVec.ofNat 16 (if x.odd then fld w 31 16 else fld w 15 0)) (fun i => bit w i)

/-- Is the word a read goes to known to be uncorrectable (R317)? -/
def Target.spoiled (s : State) (b : Nat) : Target → Bool
  | .hearth off => s.hbad b off 2
  | .reg _ => false

/-- The outstanding load returns (R204), with a decode error from an uncorrectable word of hearth RAM (R317). -/
def settleLoad (s : State) (b h : Nat) : Issue :=
  match (s.hammer b h).load with
  | none => .done s
  | some x =>
    if x.target.spoiled s b then busErr (loadDone s b h x 0#32) b h x.pc x.undo
    else
      let r := performLoad s b h x
      .done (fluxFree (loadDone r.1 b h x r.2) b x.target)

/-- The stall at the first use of a register that a load has not reached (R204). -/
def settleFor (s : State) (b h : Nat) (regs : List Nat) : Issue :=
  match (s.hammer b h).load with
  | none => .done s
  | some x => if regs.contains (x.dst.target % 16) then settleLoad s b h else .done s

/-- A core-page read (R203, R264): the one path on which a read of CLAIM claims. -/
def coreWord (s : State) (b h o : Nat) : State × Word :=
  if o = 0x50 then claimSource s b h else busRead s (.hammer b h) (haddr b h o)

/-- A register word as a hammer reads it: the even word keeps the high half (R203). -/
def keepHigh (s : State) (b h addr : Nat) (w : Word) : State :=
  s.setHammer b h { s.hammer b h with readHigh := BitVec.ofNat 16 (fld w 31 16), lastEven := some addr }

/-- Is the odd word served by the read-high latch (R203)? -/
def fromLatch (s : State) (b h addr : Nat) (odd : Bool) : Bool := odd && (s.hammer b h).lastEven = some addr

/-- A read of a core-page register waits for every earlier store: own accesses take effect in program order (R204). -/
def readGate (s : State) (b h : Nat) (a : HWord) : Issue :=
  match regionOf s b h a with
  | .core o odd => if fromLatch s b h (haddr b h o) odd then .done s else afterStores s b h
  | _ => .done s

/-- A read that completes in its own cycle: a bank, a core-page word, the read-high latch. -/
def quickRead (s : State) (b h : Nat) (a : HWord) : Option (State × HWord) :=
  match regionOf s b h a with
  | .bank i => some (s, bankWord s b h i)
  | .core o odd =>
    let addr := haddr b h o
    if fromLatch s b h addr odd then some (dropEven s b h, (s.hammer b h).readHigh)
    else
      let r := coreWord s b h o
      if odd then some (dropEven r.1 b h, BitVec.ofNat 16 (fld r.2 31 16))
      else some (keepHigh r.1 b h addr r.2, BitVec.ofNat 16 (fld r.2 15 0))
  | .reg addr odd => if fromLatch s b h addr odd then some (dropEven s b h, (s.hammer b h).readHigh) else none
  | _ => none

/-- The register of which the last peripheral access was an even word, after an access to a target (R203). -/
def Target.evenAfter (t : Target) (even old : Option Nat) : Option Nat :=
  match t with
  | .hearth _ => old
  | .reg _ => even

/-- A remote access that failed: its response has come, but not where it ended by its deadline (R333). -/
def fluxFails (s : State) (b : Nat) (t : Target) (miss : Bool) : State := if miss then s else fluxFree s b t

/-- Issue a window load (R204): every earlier store has completed. A load of a repeat may fail there (R205). -/
def issueLoad (s : State) (b h : Nat) (x : PendLoad) (even : Option Nat) : Issue :=
  ((afterStores s b h).andThen (fun s => fluxTake s b x.target)).andThen (fun s =>
    let y := s.hammer b h
    let s1 := s.setHammer b h { y with load := some x, lastEven := x.target.evenAfter even y.lastEven }
    match failsNow s1 b h x.target false with
    | (s2, some miss) =>
      accessFails (fluxFails (loadDone s2 b h x 0#32) b x.target miss) b h x.pc x.undo x.target false miss
    | (s2, none) => .done s2)

/-- A load of a data word into a register by the instruction at `pc` (R198, R203-R205); `undo` is the register its
post-increment changes, with the value before. A further load waits for the outstanding one. -/
def loadWord (s0 : State) (b h pc g : Nat) (a : HWord) (undo : Option (Nat × HWord) := none) : Issue :=
  (settleLoad s0 b h).andThen (fun s1 => (readGate s1 b h a).andThen (fun s =>
    match quickRead s b h a with
    | some r => .done (setG r.1 b h g r.2)
    | none =>
      match regionOf s b h a with
      | .hearth off => issueLoad s b h ⟨.reg g, .hearth off, false, pc, deadlineOf s b h, undo⟩ none
      | .reg addr odd =>
        issueLoad s b h ⟨.reg g, .reg addr, odd, pc, deadlineOf s b h, undo⟩ (if odd then none else some addr)
      | _ => busErr (setG (dropEven s b h) b h g 0#16) b h pc))

/-- What a read within a longer instruction gives: a value, a failure with the way its access ends, or an end of the
instruction. -/
inductive WordRead where
  | val (s : State) (v : HWord)
  | err (s : State) (miss : Bool)
  | stop (r : Issue)

/-- A window read that the instruction waits for (R240, R246): every earlier store has completed, and it may fail
(R205, R317). -/
def windowRead (s0 : State) (b h pc : Nat) (t : Target) (odd : Bool) (even : Option Nat) : WordRead :=
  match (afterStores s0 b h).andThen (fun s => fluxTake s b t) with
  | .done s =>
    let s1 := s.setHammer b h { s.hammer b h with lastEven := t.evenAfter even (s.hammer b h).lastEven }
    match failsNow s1 b h t false with
    | (s2, some miss) =>
      .err (match t, miss with
        | .hearth off, false => s2.hspoil b off
        | _, _ => fluxFails s2 b t miss) miss
    | (s2, none) =>
      if t.spoiled s2 b then .err s2 false
      else
        let r := performLoad s2 b h ⟨.reg 0, t, odd, pc, deadlineOf s2 b h, none⟩
        .val (fluxFree r.1 b t) (BitVec.ofNat 16 (if odd then fld r.2 31 16 else fld r.2 15 0))
  | r => .stop r

/-- A read that the instruction waits for: TLI, strings (R240, R246). -/
def readNow (s0 : State) (b h pc : Nat) (a : HWord) : WordRead :=
  match (settleLoad s0 b h).andThen (fun s => readGate s b h a) with
  | .done s =>
    match quickRead s b h a with
    | some r => .val r.1 r.2
    | none =>
      match regionOf s b h a with
      | .hearth off => windowRead s b h pc (.hearth off) false none
      | .reg addr odd => windowRead s b h pc (.reg addr) odd (if odd then none else some addr)
      | _ => .err (dropEven s b h) false
  | r => .stop r

/-! ### Near bits (R208-R210, R213) -/

/-- Bits 592 to 607 are the flags of the hammer's own port (R209). -/
def nearCanon (s : State) (b h n : Nat) : Nat := if 592 ≤ n && n < 608 then 512 + 16 * portSel s b h + (n - 592) else n

/-- Is near bit `n` a sticky one, kept by the hammer itself (R209)? -/
def isStickyBit (n : Nat) : Bool := (352 ≤ n && n < 416) || (512 ≤ n && n < 592 && 8 ≤ n % 16) || (836 ≤ n && n < 852)

/-- A near bit as read (R209). -/
def nearRead (s : State) (b h n0 : Nat) : Bool :=
  let n := nearCanon s b h n0
  let x := s.hammer b h
  if n < 256 then (Tbl.get (fun _ => 0) s.privBits (hidx b h)).testBit n
  else if n < 304 then (s.pin b (n - 256)).sync
  else if n < 352 then (s.pin b (n - 304)).oe
  else if isStickyBit n then (s.stickyOf b h).testBit n
  else if 512 ≤ n && n < 592 then beamLevel s b ((n - 512) / 16) (n % 16)
  else if 624 ≤ n && n < 627 then bit (s.reg (ctxAddr b h)) (n - 624)
  else if n = 640 then x.dlMiss
  else if n = 641 then x.noRun
  else if 769 ≤ n && n < 800 then (s.ppendOf b h).testBit (n - 768)
  else if 801 ≤ n && n < 832 then bit (s.reg (haddr b h 0x70)) (n - 800)
  else if n = 832 then x.ie
  else if n = 833 then x.sm
  else if n = 834 then h = 0
  else if n = 835 then x.trapAct
  else false

/-- The value a bit operation leaves. -/
def opValue (cur : Bool) : BitOp → Bool
  | .set => true
  | .clr => false
  | .tgl => !cur

/-- A pin write through the bit space (R213): the owner alone changes the latch or the enable. -/
def pinBitWrite (s : State) (b h n : Nat) (oe : Bool) (op : BitOp) : State :=
  if pinOwner s b n = some h then
    let x := s.pin b n
    s.setPin b n (if oe then { x with oe := opValue x.oe op } else { x with latch := opValue x.latch op })
  else (setStat s b h 9).addReg (haddr b h 0x48) 1

/-- A near-bit write (R209, R210): sticky bits clear by CLRB, unless their event falls in the same cycle (R75); HOLD is
written by SETB and CLRB. -/
def nearWrite (s : State) (b h n0 : Nat) (op : BitOp) : State :=
  let n := nearCanon s b h n0
  if n < 256 then
    let p := Tbl.get (fun _ => 0) s.privBits (hidx b h)
    let q := if opValue (p.testBit n) op then natSet p n else natClr p n
    { s with privBits := Tbl.set (fun _ => 0) s.privBits (hidx b h) q }
  else if n < 304 then pinBitWrite s b h (n - 256) false op
  else if n < 352 then pinBitWrite s b h (n - 304) true op
  else if isStickyBit n then (if op = .clr && !flagKept s b n then s.setSticky b h (natClr (s.stickyOf b h) n) else s)
  else if n = 624 then
    match op with
    | .set => holdOn s b h
    | .clr => if bit (s.reg (ctxAddr b h)) 0 then holdOff s b h else s
    | .tgl => s
  else if n = 625 then s.setReg (ctxAddr b h) (bitApply (s.reg (ctxAddr b h)) 1 op)
  else if n = 626 then (if op = .clr then s.clrReg (ctxAddr b h) 4 else s)
  else if 801 ≤ n && n < 832 then s.setReg (haddr b h 0x70) (bitApply (s.reg (haddr b h 0x70)) (n - 800) op)
  else s

/-! ### Far bits (R211, R212) -/

/-- The register and bit of a far bit; none where its window names no space (R211). -/
def farBit (s : State) (b h n : Nat) : Option (Nat × Nat) :=
  let k := (n - 1024) / 1024
  let i := (n - 1024) % 1024
  let w := s.reg (haddr b h (0x20 + 4 * k))
  let base := match fld w 25 24 with
    | 0 => some (b * windowSize)
    | 1 => some (fld w 23 21 * windowSize)
    | 2 => some 0x800000
    | _ => none
  base.map (fun x => ((x + fld w 19 7 * 128 + i / 32 * 4) % 2 ^ 24, i % 32))

/-- A bit write of the bit space by the instruction at `pc` (R210, R212): far bits are posted like a store. -/
def bitWrite (s : State) (b h pc n : Nat) (op : BitOp) : Issue :=
  if n < 1024 then .done (nearWrite s b h n op)
  else match farBit s b h n with
    | none => .done s
    | some (a, i) => (postStore s b h ⟨.bit i op, .reg a, pc, deadlineOf s b h, none⟩).andThen (fun s => .done (dropEven s b h))

/-- A bit read into a register (R210, R212): a far bit is a load. -/
def bitLoad (s0 : State) (b h pc n : Nat) (dst : Nat → LoadDst) : Issue :=
  if n < 1024 then .done (deliver s0 b h (dst 0) 0#16 (fun _ => nearRead s0 b h n))
  else match farBit s0 b h n with
    | none => .done (deliver s0 b h (dst 0) 0#16 (fun _ => false))
    | some (a, i) =>
      (settleLoad s0 b h).andThen (fun s => issueLoad s b h ⟨dst i, .reg a, false, pc, deadlineOf s b h, none⟩ none)

/-- A bit polled by a WAITB: a near bit as it reads, a far bit by a read of its register, which may fail and then gives 0
(R205, R212). -/
def bitPoll (s0 : State) (b h pc n : Nat) (f : State → Bool → Issue) : Issue :=
  if n < 1024 then f s0 (nearRead s0 b h n)
  else match farBit s0 b h n with
    | none => f s0 false
    | some (a, i) =>
      (((settleLoad s0 b h).andThen (fun s => afterStores s b h)).andThen (fun s => fluxTake s b (.reg a))).andThen (fun s =>
        match failsNow (dropEven s b h) b h (.reg a) false with
        | (s1, some miss) => (accessFails (fluxFails s1 b (.reg a) miss) b h pc none (.reg a) false miss).andThen (fun s2 => f s2 false)
        | (s1, none) =>
          let r := busRead s1 (.hammer b h) a
          f (fluxFree r.1 b (.reg a)) (bit r.2 i))

end Sys2Proof.Machine
end

