-- ==== Sys2Proof/Machine/HammerOps.lean ====
section
/-! DEFINITION. What hammer instructions do (R225-R251): the decoded form, the decoder of the program words, and the
shared operations on a running hammer. Every operation is given the address of its instruction and finds the PC already
moved past it. -/

namespace Sys2Proof.Machine

/-! ### Decoded instructions -/

/-- Two-operand register operations (R233). -/
inductive AluOp where
  | mov
  | add
  | sub
  | and
  | or
  | xor
  | shl
  | shr
  | asr
  | ceq
  | cne
  | clt
  | cltu
  | cle
  | cleu
  | carry
  | not
deriving DecidableEq, Repr

/-- Branches on a register (R243). -/
inductive BrOp where
  | zero
  | nonZero
  | dec
  | always
deriving DecidableEq, Repr

/-- String instructions (R246). -/
inductive StrOp where
  | movs
  | fills
  | cmps
  | scans
deriving DecidableEq, Repr

/-- Bit reads into a register (R239). -/
inductive BitRd where
  | mov
  | and
  | or
  | xor
deriving DecidableEq, Repr

/-- A decoded instruction. -/
inductive HOp where
  | nop
  | alu (f : AluOp) (gd : Nat) (x : Opd)
  | neg (g : Nat)
  | swapb (g : Nat)
  | ld (g : Nat) (a : Opd)
  | ldInc (g ga : Nat)
  | st (a : Opd) (g : Nat)
  | stInc (ga g : Nat)
  | mul (gx gy : Nat)
  | mac (acc : Bool) (gx gy : Nat)
  | macd (acc : Bool) (gx gy : Nat)
  | movl (g : Nat) (acc : Bool)
  | movh (g : Nat) (acc : Bool)
  | sath (g : Nat) (acc : Bool)
  | mova (acc : Bool) (g : Nat)
  | clrAcc (acc : Bool)
  | adda
  | tli (gd gs : Nat)
  | bitw (n : Nat) (op : BitOp)
  | bitr (f : BitRd) (g n : Nat)
  | stb (n g : Nat)
  | waitb (n : Nat) (v : Bool)
  | waitl (g : Nat)
  | branch (f : BrOp) (g : Nat) (t : Tgt)
  | jmp (t : Tgt)
  | call (t : Tgt)
  | ret
  | reti
  | rpt (n : Nat)
  | rpti (g : Nat)
  | str (f : StrOp)
  | ei
  | di
  | halt
  | svc
  | trap
  | illegal
deriving DecidableEq, Repr

/-! ### Decoding (R227-R238) -/

/-- Forerunner ALU and compare groups, class 01 and the register-immediate group by op code. -/
def aluOfCode (k : Nat) : AluOp :=
  match k with
  | 0 => .mov
  | 1 => .add
  | 2 => .sub
  | 3 => .and
  | 4 => .or
  | 5 => .xor
  | 6 => .shl
  | 7 => .shr
  | 8 => .asr
  | 9 => .ceq
  | 10 => .cne
  | 11 => .clt
  | 12 => .cltu
  | 13 => .cle
  | 14 => .cleu
  | _ => .carry

/-- Group 010 of class 00: compares, CARRY, NOT. -/
def cmpOfCode (k : Nat) : AluOp := if k = 7 then .not else aluOfCode (9 + k)

/-- Branch op of class 00. -/
def brOfCode (k : Nat) : BrOp :=
  match k with
  | 0 => .zero
  | 1 => .nonZero
  | 2 => .dec
  | _ => .always

/-- A class-00 word (R230, R231): `v` its bits [11:0], `w1` the next word. The number is the words taken. -/
def decode00 (v w1 : Nat) : HOp × Nat :=
  let r := fun lo => bits v (lo + 2) lo
  match bits v 11 9 with
  | 0 =>
    let c := v % 512
    if c = 0 then (.nop, 1)
    else if c = 1 then (.ret, 1)
    else if c = 2 then (.reti, 1)
    else if c = 3 then (.ei, 1)
    else if c = 4 then (.di, 1)
    else if c = 5 then (.halt, 1)
    else if c = 6 then (.jmp (.page (w1 % 4096)), 2)
    else if c = 7 then (.call (.page (w1 % 4096)), 2)
    else if 0x10 ≤ c && c < 0x18 then (.jmp (.pageReg (c % 8)), 1)
    else if 0x18 ≤ c && c < 0x20 then (.call (.pageReg (c % 8)), 1)
    else if 0x100 ≤ c then (.rpt (c % 256 + 1), 1)
    else (.illegal, 1)
  | 1 => (.alu (aluOfCode (r 6)) (r 3) (.reg (r 0)), 1)
  | 2 => (.alu (cmpOfCode (r 6)) (r 3) (.reg (r 0)), 1)
  | 3 =>
    if v.testBit 8 then (.alu .add (r 5) (.imm (BitVec.ofInt 16 (sx 5 v))), 1)
    else (.alu .mov (r 5) (.imm (BitVec.ofNat 16 (v % 32))), 1)
  | 4 =>
    match r 6 with
    | 0 => (.ld (r 3) (.reg (r 0)), 1)
    | 1 => (.st (.reg (r 0)) (r 3), 1)
    | 2 => (.ldInc (r 3) (r 0), 1)
    | 3 => (.stInc (r 0) (r 3), 1)
    | _ => (.illegal, 1)
  | 5 =>
    let d := Opd.imm (BitVec.ofNat 16 (v % 256))
    if v.testBit 8 then (.st d 0, 1) else (.ld 0 d, 1)
  | _ => (.branch (brOfCode (bits v 9 8)) (r 5) (.rel (v % 32)), 1)

/-- The register and immediate group (R236). -/
def decodeRI (v w1 : Nat) : HOp × Nat :=
  let g := bits v 5 2
  let imm := Opd.imm (BitVec.ofNat 16 (v % 4 * 2 ^ 14 + w1))
  let op := bits v 9 6
  if op < 6 then (.alu (aluOfCode op) g imm, 2)
  else if op < 12 then (.alu (aluOfCode (op + 3)) g imm, 2)
  else if op = 12 then (.ld g imm, 2)
  else if op = 13 then (.st imm g, 2)
  else if op = 14 then (.branch .zero g (.abs w1), 2)
  else (.branch .nonZero g (.abs w1), 2)

/-- The bit group (R237). -/
def decodeBit (v w1 : Nat) : HOp × Nat :=
  let g := v % 16
  let n := w1 % 4096
  match bits v 7 4 with
  | 0 => (.bitr .mov g n, 2)
  | 1 => (.stb n g, 2)
  | 2 => (.bitr .and g n, 2)
  | 3 => (.bitr .or g n, 2)
  | 4 => (.bitr .xor g n, 2)
  | 5 => (.bitw n .set, 2)
  | 6 => (.bitw n .clr, 2)
  | 7 => (.bitw n .tgl, 2)
  | 8 => (.waitb n (w1.testBit 12), 2)
  | 9 => (.branch .dec g (.abs w1), 2)
  | 10 => (.jmp (.abs w1), 2)
  | 11 => (.call (.abs w1), 2)
  | 12 => (.macd (v.testBit 0) (bits w1 7 4) (bits w1 3 0), 2)
  | _ => (.illegal, 2)

/-- Register miscellany (R238). -/
def decodeMisc (v : Nat) : HOp :=
  let g := v % 16
  match bits v 7 4 with
  | 0 => .alu .not g (.reg g)
  | 1 => .neg g
  | 2 => .jmp (.reg g)
  | 3 => .call (.reg g)
  | 4 => .rpti g
  | 5 => .waitl g
  | 6 => .movl g false
  | 7 => .movh g false
  | 8 => .movl g true
  | 9 => .movh g true
  | 10 => .sath g false
  | 11 => .sath g true
  | 12 => .mova false g
  | 13 => .mova true g
  | 14 => .swapb g
  | _ => .illegal

/-- System and string codes (R238). -/
def decodeSys (v : Nat) : HOp :=
  match v % 256 with
  | 0 => .ret
  | 1 => .reti
  | 2 => .ei
  | 3 => .di
  | 4 => .halt
  | 5 => .svc
  | 6 => .trap
  | 7 => .nop
  | 8 => .str .movs
  | 9 => .str .fills
  | 10 => .str .cmps
  | 11 => .str .scans
  | 16 => .clrAcc false
  | 17 => .clrAcc true
  | 18 => .adda
  | _ => .illegal

/-- A class-11 word (R235). -/
def decode11 (v w1 : Nat) : HOp × Nat :=
  let hi := bits v 7 4
  let lo := v % 16
  let n := Opd.imm (BitVec.ofNat 16 lo)
  match bits v 11 8 with
  | 4 => decodeBit v w1
  | 5 => (.ld hi (.reg lo), 1)
  | 6 => (.st (.reg hi) lo, 1)
  | 7 => (.alu .shl hi n, 1)
  | 8 => (.alu .shr hi n, 1)
  | 9 => (.alu .asr hi n, 1)
  | 10 => (.mul hi lo, 1)
  | 11 => (.mac false hi lo, 1)
  | 12 => (.mac true hi lo, 1)
  | 13 => (.tli hi lo, 1)
  | 14 => (decodeMisc v, 1)
  | 15 => (decodeSys v, 1)
  | _ => decodeRI v w1

/-- The instruction of two program words (R227). -/
def decodeHammer (w0 w1 : BitVec 14) : HOp × Nat :=
  let v := w0.toNat % 4096
  match w0.toNat / 4096 with
  | 0 => decode00 v w1.toNat
  | 1 => (.alu (aluOfCode (bits v 11 8)) (bits v 7 4) (.reg (v % 16)), 1)
  | 2 =>
    match bits v 11 10 with
    | 0 => (.bitw (v % 1024) .set, 1)
    | 1 => (.bitw (v % 1024) .clr, 1)
    | 2 => (.bitw (v % 1024) .tgl, 1)
    | _ => (.waitb (v % 1024) true, 1)
  | _ => decode11 v w1.toNat

/-- The instruction at a program address (R225). -/
def decodeAt (s : State) (b h pc : Nat) : HOp × Nat := decodeHammer (progWord s b h pc) (progWord s b h (pc + 1))

/-! ### Registers an instruction names -/

/-- Registers of an operand. -/
def Opd.regs : Opd → List Nat
  | .reg g => [g]
  | .imm _ => []

/-- Registers of a target. -/
def Tgt.regs : Tgt → List Nat
  | .reg g => [g]
  | .pageReg g => [g]
  | _ => []

/-- Every general register an instruction names: the first use stalls for an outstanding load (R204). -/
def HOp.regs : HOp → List Nat
  | .alu _ gd x => gd :: Opd.regs x
  | .neg g => [g]
  | .swapb g => [g]
  | .ld g a => g :: Opd.regs a
  | .ldInc g ga => [g, ga]
  | .st a g => g :: Opd.regs a
  | .stInc ga g => [ga, g]
  | .mul gx gy => [gx, gy]
  | .mac _ gx gy => [gx, gy]
  | .macd _ gx gy => [gx, gy]
  | .movl g _ => [g]
  | .movh g _ => [g]
  | .sath g _ => [g]
  | .mova _ g => [g]
  | .tli gd gs => [gd, gs]
  | .bitr _ g _ => [g]
  | .stb _ g => [g]
  | .waitl g => [g]
  | .branch f g t => if f = .always then Tgt.regs t else g :: Tgt.regs t
  | .jmp t => Tgt.regs t
  | .call t => Tgt.regs t
  | .rpti g => [g]
  | .str _ => [12, 13, 14, 15]
  | _ => []

/-- The general registers an instruction writes (R245). -/
def HOp.dests : HOp → List Nat
  | .alu _ gd _ => [gd]
  | .neg g => [g]
  | .swapb g => [g]
  | .ld g _ => [g]
  | .ldInc g ga => [g, ga]
  | .stInc ga _ => [ga]
  | .macd _ gx gy => [gx, gy]
  | .movl g _ => [g]
  | .movh g _ => [g]
  | .sath g _ => [g]
  | .tli gd _ => [gd]
  | .bitr _ g _ => [g]
  | _ => []

/-- May the instruction stand under a repeat (R244)? -/
def HOp.repeatable : HOp → Bool
  | .waitb _ _ => false
  | .waitl _ => false
  | .branch _ _ _ => false
  | .jmp _ => false
  | .call _ => false
  | .ret => false
  | .reti => false
  | .rpt _ => false
  | .rpti _ => false
  | .str _ => false
  | .ei => false
  | .di => false
  | .halt => false
  | .svc => false
  | .trap => false
  | _ => true

/-! ### Arithmetic (R233, R240, R241) -/

/-- A compare's result. -/
def truth (b : Bool) : HWord := if b then 1#16 else 0#16

/-- A register operation (R233). -/
def aluValue (f : AluOp) (d x : HWord) : HWord :=
  let n := x.toNat % 16
  match f with
  | .mov => x
  | .add => d + x
  | .sub => d - x
  | .and => d &&& x
  | .or => d ||| x
  | .xor => d ^^^ x
  | .shl => d <<< n
  | .shr => d >>> n
  | .asr => d.sshiftRight n
  | .ceq => truth (d = x)
  | .cne => truth (d ≠ x)
  | .clt => truth (d.toInt < x.toInt)
  | .cltu => truth (d.toNat < x.toNat)
  | .cle => truth (d.toInt ≤ x.toInt)
  | .cleu => truth (d.toNat ≤ x.toNat)
  | .carry => truth (0x10000 ≤ d.toNat + x.toNat)
  | .not => ~~~x

/-- The value of an operand. -/
def opd (x : Hammer) : Opd → HWord
  | .reg g => x.reg g
  | .imm v => v

/-- The signed product, sign-extended to 40 bits (R241). -/
def product (x y : HWord) : BitVec 40 := BitVec.ofInt 40 (x.toInt * y.toInt)

/-- An accumulator. -/
def Hammer.acc (x : Hammer) (a : Bool) : BitVec 40 := if a then x.a1 else x.a0

def Hammer.setAcc (x : Hammer) (a : Bool) (v : BitVec 40) : Hammer := if a then { x with a1 := v } else { x with a0 := v }

/-- SATH (R241). -/
def saturateHigh (v : BitVec 40) : HWord :=
  let top := bits v.toNat 39 31
  if top = 0 || top = 511 then BitVec.ofNat 16 (bits v.toNat 31 16)
  else if v.toNat < 2 ^ 39 then 0x7FFF#16 else 0x8000#16

/-- The interpolation of TLI (R240): exact signed arithmetic, the shift floors. -/
def interpolate (y0 y1 : HWord) (f : Nat) : HWord :=
  BitVec.ofInt 16 (y0.toInt + ((y1.toInt - y0.toInt) * f + 128) / 256)

/-! ### Operations -/

/-- Change the hammer's own record. -/
def onHammer (s : State) (b h : Nat) (f : Hammer → Hammer) : Issue := .done (s.setHammer b h (f (s.hammer b h)))

def opAlu (s : State) (b h : Nat) (f : AluOp) (gd : Nat) (x : Opd) : Issue :=
  onHammer s b h (fun y => y.setReg gd (aluValue f (y.reg gd) (opd y x)))

def opNeg (s : State) (b h g : Nat) : Issue := onHammer s b h (fun y => y.setReg g (0#16 - y.reg g))

def opSwapb (s : State) (b h g : Nat) : Issue :=
  onHammer s b h (fun y => y.setReg g ((y.reg g).rotateLeft 8))

def opLd (s : State) (b h pc g : Nat) (a : Opd) : Issue := loadWord s b h pc g (opd (s.hammer b h) a)

/-- LD g, [ga++] (R231): the increment is lost when g = ga. -/
def opLdInc (s : State) (b h pc g ga : Nat) : Issue :=
  let a := (s.hammer b h).reg ga
  let same := decide (g % 16 = ga % 16)
  (loadWord s b h pc g a (if same then none else some (ga, a))).andThen (fun s1 =>
    .done (if same then s1 else setG s1 b h ga (a + 1)))

def opSt (s : State) (b h pc : Nat) (a : Opd) (g : Nat) : Issue :=
  storeWord s b h pc (opd (s.hammer b h) a) ((s.hammer b h).reg g)

/-- ST [ga++], g (R231): the old value is stored, then the register increments. -/
def opStInc (s : State) (b h pc ga g : Nat) : Issue :=
  let a := (s.hammer b h).reg ga
  (storeWord s b h pc a ((s.hammer b h).reg g) (some (ga, a))).andThen (fun s1 => .done (setG s1 b h ga (a + 1)))

def opMul (s : State) (b h gx gy : Nat) : Issue := onHammer s b h (fun y => { y with a0 := product (y.reg gx) (y.reg gy) })

def opMac (s : State) (b h : Nat) (acc : Bool) (gx gy : Nat) : Issue :=
  onHammer s b h (fun y => y.setAcc acc (y.acc acc + product (y.reg gx) (y.reg gy)))

/-- MACD (R242): both pointers are written from the values read, so one register for both moves on by 1 (DEDUCED, log
entry 24). -/
def opMacd (s : State) (b h pc : Nat) (acc : Bool) (gx gy : Nat) : Issue :=
  let x := s.hammer b h
  if !x.sm then .trap (trapEnter s b h 2 pc)
  else
    let p := product (bankWord s b h ((x.reg gx).toNat % 4096)) (bankWord s b h (0x1000 + (x.reg gy).toNat % 4096))
    onHammer s b h (fun y => ((y.setAcc acc (y.acc acc + p)).setReg gx (y.reg gx + 1)).setReg gy (y.reg gy + 1))

def opMovl (s : State) (b h g : Nat) (acc : Bool) : Issue :=
  onHammer s b h (fun y => y.setReg g (BitVec.ofNat 16 (bits (y.acc acc).toNat 15 0)))

def opMovh (s : State) (b h g : Nat) (acc : Bool) : Issue :=
  onHammer s b h (fun y => y.setReg g (BitVec.ofNat 16 (bits (y.acc acc).toNat 31 16)))

def opSath (s : State) (b h g : Nat) (acc : Bool) : Issue := onHammer s b h (fun y => y.setReg g (saturateHigh (y.acc acc)))

def opMova (s : State) (b h : Nat) (acc : Bool) (g : Nat) : Issue :=
  onHammer s b h (fun y => y.setAcc acc (BitVec.ofInt 40 ((y.reg g).toInt * 65536)))

def opClrAcc (s : State) (b h : Nat) (acc : Bool) : Issue := onHammer s b h (fun y => y.setAcc acc 0#40)

def opAdda (s : State) (b h : Nat) : Issue := onHammer s b h (fun y => { y with a0 := y.a0 + y.a1 })

/-- How a failed access of a longer instruction ends (R205): by its deadline, or with a decode error. -/
def failEnd (s : State) (b h pc : Nat) (miss : Bool) : Issue := if miss then accessMiss s b h pc else busErr s b h pc

/-- A read of TLI: one that fails reads 0, and with BETRAP = 1 traps. -/
def tliRead (s : State) (b h pc : Nat) (a : HWord) (f : State → HWord → Issue) : Issue :=
  match readNow s b h pc a with
  | .val s1 v => f s1 v
  | .err s1 miss => (failEnd s1 b h pc miss).andThen (fun s2 => f s2 0#16)
  | .stop r => r

/-- TLI (R240). -/
def opTli (s : State) (b h pc gd gs : Nat) : Issue :=
  let v := (s.hammer b h).reg gs
  let a := BitVec.ofNat 16 (fld (s.reg (haddr b h 0x1C)) 15 0 + v.toNat / 256)
  tliRead s b h pc a (fun s1 y0 =>
    tliRead s1 b h pc (a + 1) (fun s2 y1 => .done (setG s2 b h gd (interpolate y0 y1 (v.toNat % 256)))))

def opBitw (s : State) (b h pc n : Nat) (op : BitOp) : Issue := bitWrite s b h pc n op

def opStb (s : State) (b h pc n g : Nat) : Issue :=
  bitWrite s b h pc n (if (s.hammer b h).reg g = 0#16 then .clr else .set)

def opBitr (s : State) (b h pc : Nat) (f : BitRd) (g n : Nat) : Issue :=
  bitLoad s b h pc n (match f with
    | .mov => .bitMov g
    | .and => .bitAnd g
    | .or => .bitOr g
    | .xor => .bitXor g)

/-- A wait's condition holds at issue: DLMISS = 0 and NORUN = 0 (R221). -/
def waitOver (s : State) (b h : Nat) : Issue := onHammer s b h (fun y => { y with dlMiss := false, noRun := false })

/-- A wait begins (R221, R222, R248): every earlier store has completed; the PC stays on the wait. -/
def waitBegin (s : State) (b h pc words : Nat) (what : WaitFor) : Issue :=
  (afterStores s b h).andThen (fun s =>
    .done (s.setHammer b h { s.hammer b h with run := .waiting, pc := pc, wait := some ⟨what, words, deadlineOf s b h⟩ }))

/-- WAITB (R221). -/
def opWaitb (s : State) (b h pc words n : Nat) (v : Bool) : Issue :=
  bitPoll s b h pc n (fun s1 x => if x = v then waitOver s1 b h else waitBegin s1 b h pc words (.bit n v))

/-- Is a WAITL's condition met (R221)? -/
def lineMet (s : State) (b h v : Nat) : Bool :=
  let p := s.port b (portSel s b h)
  p.running && v ≤ p.line

/-- WAITL (R221, R222): with the own port not running it ends at once with NORUN and DLMISS. -/
def opWaitl (s : State) (b h pc words g : Nat) : Issue :=
  let v := ((s.hammer b h).reg g).toNat
  if !(s.port b (portSel s b h)).running then
    .done (raiseDlMiss (s.setHammer b h { s.hammer b h with dlMiss := true, noRun := true }) b h)
  else if lineMet s b h v then waitOver s b h
  else waitBegin s b h pc words (.line v)

/-- The address a target names (R231, R243) for the instruction at `pc`. -/
def targetOf (s : State) (b h pc : Nat) : Tgt → Nat
  | .abs t => t % 2 ^ 14
  | .page t => pc / 4096 % 4 * 4096 + t % 4096
  | .reg g => ((s.hammer b h).reg g).toNat % 2 ^ 14
  | .pageReg g => pc / 4096 % 4 * 4096 + ((s.hammer b h).reg g).toNat % 4096
  | .rel r => pc / 4096 % 4 * 4096 + ((((pc % 4096 + 1 : Nat) : Int) + sx 5 r) % 4096).toNat

/-- BZ, BNZ, DJNZ, BR (R243). -/
def opBranch (s : State) (b h pc : Nat) (f : BrOp) (g : Nat) (t : Tgt) : Issue :=
  let go := setPc s b h (targetOf s b h pc t)
  let v := (s.hammer b h).reg g
  match f with
  | .zero => .done (if v = 0#16 then go else s)
  | .nonZero => .done (if v ≠ 0#16 then go else s)
  | .always => .done go
  | .dec =>
    let s1 := setG s b h g (v - 1)
    .done (if v - 1 ≠ 0#16 then setPc s1 b h (targetOf s b h pc t) else s1)

def opJmp (s : State) (b h pc : Nat) (t : Tgt) : Issue := .done (setPc s b h (targetOf s b h pc t))

/-- CALL (R215, R216, R243): pushes the address of the instruction that follows. -/
def opCall (s : State) (b h pc : Nat) (t : Tgt) : Issue :=
  let x := s.hammer b h
  if stkTrap s b h && x.depth = 8 then .trap (trapEnter s b h 3 pc)
  else .done (setPc (s.setHammer b h (x.push (stackWord x.sm x.ie x.pc))) b h (targetOf s b h pc t))

/-- RET (R215, R216). -/
def opRet (s : State) (b h pc : Nat) : Issue :=
  let x := s.hammer b h
  if stkTrap s b h && x.depth = 0 then .trap (trapEnter s b h 4 pc)
  else
    let r := x.pop
    .done (s.setHammer b h { r.1 with pc := r.2.toNat % 2 ^ 14 })

/-- The three fields a return restores (R215): SM can only be left. -/
def restoreFields (x : Hammer) (v : Nat) : Hammer :=
  { x with pc := v % 2 ^ 14, ie := v.testBit 14, sm := x.sm && v.testBit 15 }

/-- RETI (R215-R217): from the trap register when a trap handler returns at its own stack level. -/
def opReti (s : State) (b h pc : Nat) : Issue :=
  let x := s.hammer b h
  let t := s.reg (haddr b h 0x2C)
  if x.trapAct && x.sp = fld t 23 20 then
    .done (s.setHammer b h { restoreFields x (fld t 15 0) with trapAct := false })
  else if stkTrap s b h && x.depth = 0 then .trap (trapEnter s b h 4 pc)
  else
    let r := x.pop
    .done (s.setHammer b h (restoreFields r.1 r.2.toNat))

/-- HALT (R193, R248): every earlier store has completed; sleeps with IE = 1, halts with IE = 0. -/
def opHalt (s : State) (b h : Nat) : Issue :=
  (afterStores s b h).andThen (fun s =>
    let x := s.hammer b h
    .done (s.setHammer b h { x with run := if x.ie then .sleeping else .halted }))

def opEi (s : State) (b h : Nat) : Issue := onHammer s b h (fun y => { y with ie := true })
def opDi (s : State) (b h : Nat) : Issue := onHammer s b h (fun y => { y with ie := false })

/-- SVC and TRAP (R250): the saved PC is that of the following instruction. -/
def opSystem (s : State) (b h cause : Nat) : Issue := .trap (trapEnter s b h cause (s.hammer b h).pc)

def opIllegal (s : State) (b h pc : Nat) : Issue := .trap (trapEnter s b h 1 pc)

/-! ### Strings (R246, R247) -/

/-- g15, the count. -/
def strCount (s : State) (b h : Nat) : HWord := (s.hammer b h).reg 15

/-- An element is done: the registers advance; the PC stays on the string while elements remain. -/
def strNext (s : State) (b h pc : Nat) (src dst : Bool) : Issue :=
  let s1 := s.setHammer b h (
    let x := s.hammer b h
    let x1 := if src then x.setReg 13 (x.reg 13 + 1) else x
    let x2 := if dst then x1.setReg 14 (x1.reg 14 + 1) else x1
    x2.setReg 15 (x2.reg 15 - 1))
  .done (if strCount s1 b h = 0#16 then s1 else setPc s1 b h pc)

/-- A read of an element: one that fails ends the instruction without the element. -/
def strRead (s : State) (b h pc : Nat) (a : HWord) (f : State → HWord → Issue) : Issue :=
  match readNow s b h pc a with
  | .val s1 v => f s1 v
  | .err s1 miss => failEnd s1 b h pc miss
  | .stop r => r

/-- What the write of an element goes to, where it is posted. -/
def postedTo (s : State) (b h : Nat) (a : HWord) : Option Target :=
  match regionOf s b h a with
  | .hearth off => some (.hearth off)
  | .reg addr false => some (.reg addr)
  | _ => none

/-- The write of an element: one that fails ends the instruction without the element. An element completes whole (R247), so
a posted write waits for the stores before it and goes to its target at once. -/
def strWrite (s : State) (b h pc : Nat) (a v : HWord) (f : State → Issue) : Issue :=
  match regionOf s b h a with
  | .aperture => busErr (dropEven s b h) b h pc
  | _ =>
    match postedTo s b h a with
    | none => (storeWord s b h pc a v).andThen f
    | some t =>
      (afterStores s b h).andThen (fun s1 =>
        match failsNow s1 b h t true with
        | (s2, some miss) => failEnd s2 b h pc miss
        | (s2, none) => (storeWord s2 b h pc a v).andThen (fun s3 => f (storeLands s3 b h)))

/-- One element of a string instruction (R246, R247). -/
def opStr (s : State) (b h pc : Nat) (f : StrOp) : Issue :=
  let g := (s.hammer b h).reg
  if strCount s b h = 0#16 then .done s
  else match f with
    | .movs => strRead s b h pc (g 13) (fun s1 v => strWrite s1 b h pc (g 14) v (fun s2 => strNext s2 b h pc true true))
    | .fills => strWrite s b h pc (g 14) (g 12) (fun s1 => strNext s1 b h pc false true)
    | .cmps =>
      strRead s b h pc (g 13) (fun s1 v => strRead s1 b h pc (g 14) (fun s2 w =>
        if v = w then strNext s2 b h pc true true else .done s2))
    | .scans => strRead s b h pc (g 13) (fun s1 v => if v = g 12 then .done s1 else strNext s1 b h pc true false)

/-! ### Running an instruction -/

/-- An instruction that stands under no repeat, at `pc`; repeats themselves do nothing here. -/
def opBody (s : State) (b h pc words : Nat) : HOp → Issue
  | .nop => .done s
  | .alu f gd x => opAlu s b h f gd x
  | .neg g => opNeg s b h g
  | .swapb g => opSwapb s b h g
  | .ld g a => opLd s b h pc g a
  | .ldInc g ga => opLdInc s b h pc g ga
  | .st a g => opSt s b h pc a g
  | .stInc ga g => opStInc s b h pc ga g
  | .mul gx gy => opMul s b h gx gy
  | .mac acc gx gy => opMac s b h acc gx gy
  | .macd acc gx gy => opMacd s b h pc acc gx gy
  | .movl g acc => opMovl s b h g acc
  | .movh g acc => opMovh s b h g acc
  | .sath g acc => opSath s b h g acc
  | .mova acc g => opMova s b h acc g
  | .clrAcc acc => opClrAcc s b h acc
  | .adda => opAdda s b h
  | .tli gd gs => opTli s b h pc gd gs
  | .bitw n op => opBitw s b h pc n op
  | .bitr f g n => opBitr s b h pc f g n
  | .stb n g => opStb s b h pc n g
  | .waitb n v => opWaitb s b h pc words n v
  | .waitl g => opWaitl s b h pc words g
  | .branch f g t => opBranch s b h pc f g t
  | .jmp t => opJmp s b h pc t
  | .call t => opCall s b h pc t
  | .ret => opRet s b h pc
  | .reti => opReti s b h pc
  | .str f => opStr s b h pc f
  | .ei => opEi s b h
  | .di => opDi s b h
  | .halt => opHalt s b h
  | .svc => opSystem s b h 7
  | .trap => opSystem s b h 6
  | .illegal => opIllegal s b h pc
  | .rpt _ => .done s
  | .rpti _ => .done s

/-- Issue an instruction of `words` words at `pc`: registers a load has yet to reach are waited for, the PC moves past
it, and a stall leaves it there. -/
def issueAt (s : State) (b h pc words : Nat) (regs : List Nat) (f : State → Issue) : Issue :=
  (settleFor s b h regs).andThen (fun s1 =>
    match f (setPc s1 b h (pc + words)) with
    | .stall s2 => .stall (setPc s2 b h pc)
    | r => r)

/-- The hidden count of the RPT under way. -/
def setRpt (s : State) (b h n p : Nat) : State := s.setHammer b h { s.hammer b h with rptLeft := n, rptAt := p }

/-- The last repeat has ended, or the hammer was reset or halted by a trap (R244): no count is left. -/
def endRpt (r : Issue) (b h : Nat) : Issue := r.andThen (fun s => .done (setRpt s b h 0 0))

/-- The repeats of a RPT (R244): `n` times the instruction at `p`. A repeat that resets the hammer ends it. -/
def repeatAt (b h p words : Nat) (op : HOp) : Nat → State → Issue
  | 0, s => .done s
  | n + 1, s =>
    (issueAt (setRpt s b h (n + 1) p) b h p words op.regs (fun s => opBody s b h p words op)).andThen (fun s1 =>
      if (s1.hammer b h).pc = (p + words) % 2 ^ 14 then repeatAt b h p words op n s1 else .done s1)

/-- RPT #n (R244): the whole repeat. A stalled one keeps its hidden count and stands on the RPT. -/
def opRpt (s : State) (b h pc n : Nat) : Issue :=
  let d := decodeAt s b h (pc + 1)
  if !d.1.repeatable then .trap (trapEnter s b h 1 pc)
  else
    let left := (s.hammer b h).rptLeft
    endRpt (repeatAt b h ((pc + 1) % 2 ^ 14) d.2 d.1 (if left = 0 then n else left) s) b h

/-- RPTI g (R245): one iteration; the PC stays on the RPTI while the count lasts. -/
def opRpti (s : State) (b h pc g : Nat) : Issue :=
  let d := decodeAt s b h (pc + 1)
  let p := (pc + 1) % 2 ^ 14
  if !d.1.repeatable || (d.1.dests.map (· % 16)).contains (g % 16) then .trap (trapEnter s b h 1 pc)
  else if (s.hammer b h).reg g = 0#16 then .done (setPc s b h (p + d.2))
  else
    match issueAt s b h p d.2 d.1.regs (fun s => opBody s b h p d.2 d.1) with
    | .done s1 =>
      if (s1.hammer b h).pc ≠ (p + d.2) % 2 ^ 14 then .done s1
      else
        let v := (s1.hammer b h).reg g - 1
        let s2 := setG s1 b h g v
        .done (if v = 0#16 then s2 else setPc s2 b h pc)
    | r => r

/-- Any instruction, repeats among them. -/
def opRun (s : State) (b h pc words : Nat) : HOp → Issue
  | .rpt n => opRpt s b h pc n
  | .rpti g => opRpti s b h pc g
  | op => opBody s b h pc words op

/-! ### Boundaries and single steps (R194, R226) -/

/-- A boundary (R194, R226, R251): a BUSERR trap that waited for it is entered, then the hammer halts if CTRL.RUN = 0 or a
single step asked for it (the order is a DESIGN CHOICE, log entry 53). -/
def atBoundary (s : State) (b h : Nat) : State :=
  let s1 := match (s.hammer b h).trapDue with
    | some (pc, undo) => busTrap (s.setHammer b h { s.hammer b h with trapDue := none }) b h pc undo
    | none => s
  let x := s1.hammer b h
  if x.haltAsk then s1.setHammer b h { x with run := .halted, wait := none, haltAsk := false } else s1

/-- What an issue leaves: a boundary follows an instruction that has ended, none one that stalls. -/
def Issue.ended (r : Issue) (b h : Nat) : State :=
  match r with
  | .stall s => s
  | r => atBoundary r.state b h

/-- The instruction at the PC is issued. -/
def issueHere (s : State) (b h words : Nat) (op : HOp) : State :=
  let pc := (s.hammer b h).pc
  (issueAt s b h pc words op.regs (fun s => opRun s b h pc words op)).ended b h

/-- One instruction of a halted hammer: it runs, and the hammer is HALTED again at the next boundary. One that stalls
goes on as that of a RUNNING hammer does, and halts at its end. -/
def stepHammer (s : State) (b h : Nat) : State :=
  let x := s.hammer b h
  if x.run ≠ .halted then s
  else
    let s0 := s.setHammer b h { x with run := .running, stepReq := false, haltAsk := true }
    let d := decodeAt s0 b h x.pc
    issueHere s0 b h d.2 d.1

/-- The hammers whose CTRL.STEP was written, in order. -/
def stepsAsked (s : State) : List Nat := (s.hammers.filter (fun kv => kv.2.stepReq)).map (·.1)

/-- Perform the steps that register writes asked for; a step may ask for another. -/
def runSteps : Nat → State → State
  | 0, s => s
  | fuel + 1, s =>
    match stepsAsked s with
    | [] => s
    | k :: _ =>
      let x := s.hammer (k / 16) (k % 16)
      let s1 := s.setHammer (k / 16) (k % 16) { x with stepReq := false }
      runSteps fuel (stepHammer s1 (k / 16) (k % 16))

/-- After a command that may write registers. -/
def settleSteps (s : State) : State := runSteps 128 s

end Sys2Proof.Machine
end

