-- ==== Sys2Proof/Machine/HammerInstr.lean ====
section
/-! DEFINITION. The hammer instructions and the events of their accesses and waits (R204, R205, R221, R225-R251). An
instruction command is the issue of that instruction by a RUNNING hammer at its PC; in another run state nothing is
issued. -/

namespace Sys2Proof.Machine

/-- Issue an instruction. -/
def hIssue (u : HAt) (op : HOp) (s : State) : State :=
  let x := s.hammer u.b u.h
  if s.hasHammer u.b u.h && x.run = .running then
    settleSteps (issueHere s u.b u.h u.words op)
  else s

/-- NOP (R230). -/
def execHNop (u : HAt) (s : State) : Out State := .next (hIssue u (.nop) s)

/-- MOV (R232). -/
def execHMov (u : HAt) (gd : Nat) (x : Opd) (s : State) : Out State := .next (hIssue u (.alu .mov gd x) s)

/-- MOVI (R231): the immediate is zero-extended. -/
def execHMovi (u : HAt) (g imm5 : Nat) (s : State) : Out State := .next (hIssue u (.alu .mov g (.imm (BitVec.ofNat 16 (imm5 % 32)))) s)

/-- ADDI (R231): the immediate is sign-extended. -/
def execHAddi (u : HAt) (g imm5 : Nat) (s : State) : Out State := .next (hIssue u (.alu .add g (.imm (BitVec.ofInt 16 (sx 5 imm5)))) s)

/-- ADD (R233). -/
def execHAdd (u : HAt) (gd : Nat) (x : Opd) (s : State) : Out State := .next (hIssue u (.alu .add gd x) s)

/-- SUB (R233). -/
def execHSub (u : HAt) (gd : Nat) (x : Opd) (s : State) : Out State := .next (hIssue u (.alu .sub gd x) s)

/-- AND (R233). -/
def execHAnd (u : HAt) (gd : Nat) (x : Opd) (s : State) : Out State := .next (hIssue u (.alu .and gd x) s)

/-- OR (R233). -/
def execHOr (u : HAt) (gd : Nat) (x : Opd) (s : State) : Out State := .next (hIssue u (.alu .or gd x) s)

/-- XOR (R233). -/
def execHXor (u : HAt) (gd : Nat) (x : Opd) (s : State) : Out State := .next (hIssue u (.alu .xor gd x) s)

/-- SHL (R233). -/
def execHShl (u : HAt) (gd : Nat) (x : Opd) (s : State) : Out State := .next (hIssue u (.alu .shl gd x) s)

/-- SHR (R233). -/
def execHShr (u : HAt) (gd : Nat) (x : Opd) (s : State) : Out State := .next (hIssue u (.alu .shr gd x) s)

/-- ASR (R233). -/
def execHAsr (u : HAt) (gd : Nat) (x : Opd) (s : State) : Out State := .next (hIssue u (.alu .asr gd x) s)

/-- NOT (R233). -/
def execHNot (u : HAt) (gd gs : Nat) (s : State) : Out State := .next (hIssue u (.alu .not gd (.reg gs)) s)

/-- NEG (R233). -/
def execHNeg (u : HAt) (g : Nat) (s : State) : Out State := .next (hIssue u (.neg g) s)

/-- SWAPB (R233). -/
def execHSwapb (u : HAt) (g : Nat) (s : State) : Out State := .next (hIssue u (.swapb g) s)

/-- CEQ (R233). -/
def execHCeq (u : HAt) (gd : Nat) (x : Opd) (s : State) : Out State := .next (hIssue u (.alu .ceq gd x) s)

/-- CNE (R233). -/
def execHCne (u : HAt) (gd : Nat) (x : Opd) (s : State) : Out State := .next (hIssue u (.alu .cne gd x) s)

/-- CLT (R233). -/
def execHClt (u : HAt) (gd : Nat) (x : Opd) (s : State) : Out State := .next (hIssue u (.alu .clt gd x) s)

/-- CLTU (R233). -/
def execHCltu (u : HAt) (gd : Nat) (x : Opd) (s : State) : Out State := .next (hIssue u (.alu .cltu gd x) s)

/-- CLE (R233). -/
def execHCle (u : HAt) (gd : Nat) (x : Opd) (s : State) : Out State := .next (hIssue u (.alu .cle gd x) s)

/-- CLEU (R233). -/
def execHCleu (u : HAt) (gd : Nat) (x : Opd) (s : State) : Out State := .next (hIssue u (.alu .cleu gd x) s)

/-- CARRY (R233). -/
def execHCarry (u : HAt) (gd gs : Nat) (s : State) : Out State := .next (hIssue u (.alu .carry gd (.reg gs)) s)

/-- LD (R204, R230, R235, R236). -/
def execHLd (u : HAt) (g : Nat) (a : Opd) (s : State) : Out State := .next (hIssue u (.ld g a) s)

/-- LD g, [ga++] (R231). -/
def execHLdPostinc (u : HAt) (g ga : Nat) (s : State) : Out State := .next (hIssue u (.ldInc g ga) s)

/-- ST (R204, R230, R235, R236). -/
def execHSt (u : HAt) (a : Opd) (g : Nat) (s : State) : Out State := .next (hIssue u (.st a g) s)

/-- ST [ga++], g (R231). -/
def execHStPostinc (u : HAt) (ga g : Nat) (s : State) : Out State := .next (hIssue u (.stInc ga g) s)

/-- MUL (R241). -/
def execHMul (u : HAt) (gx gy : Nat) (s : State) : Out State := .next (hIssue u (.mul gx gy) s)

/-- MAC (R241). -/
def execHMac (u : HAt) (acc : Bool) (gx gy : Nat) (s : State) : Out State := .next (hIssue u (.mac acc gx gy) s)

/-- MACD (R242). -/
def execHMacd (u : HAt) (acc : Bool) (gx gy : Nat) (s : State) : Out State := .next (hIssue u (.macd acc gx gy) s)

/-- MOVL (R228). -/
def execHMovl (u : HAt) (g : Nat) (acc : Bool) (s : State) : Out State := .next (hIssue u (.movl g acc) s)

/-- MOVH (R228). -/
def execHMovh (u : HAt) (g : Nat) (acc : Bool) (s : State) : Out State := .next (hIssue u (.movh g acc) s)

/-- SATH (R241). -/
def execHSath (u : HAt) (g : Nat) (acc : Bool) (s : State) : Out State := .next (hIssue u (.sath g acc) s)

/-- MOVA (R241). -/
def execHMova (u : HAt) (acc : Bool) (g : Nat) (s : State) : Out State := .next (hIssue u (.mova acc g) s)

/-- CLR a (R241). -/
def execHClrAcc (u : HAt) (acc : Bool) (s : State) : Out State := .next (hIssue u (.clrAcc acc) s)

/-- ADDA (R241). -/
def execHAdda (u : HAt) (s : State) : Out State := .next (hIssue u (.adda) s)

/-- TLI (R240). -/
def execHTli (u : HAt) (gd gs : Nat) (s : State) : Out State := .next (hIssue u (.tli gd gs) s)

/-- SETB (R239). -/
def execHSetb (u : HAt) (n : Nat) (s : State) : Out State := .next (hIssue u (.bitw n .set) s)

/-- CLRB (R239). -/
def execHClrb (u : HAt) (n : Nat) (s : State) : Out State := .next (hIssue u (.bitw n .clr) s)

/-- TGLB (R239). -/
def execHTglb (u : HAt) (n : Nat) (s : State) : Out State := .next (hIssue u (.bitw n .tgl) s)

/-- MOVB (R239). -/
def execHMovb (u : HAt) (g n : Nat) (s : State) : Out State := .next (hIssue u (.bitr .mov g n) s)

/-- STB (R239). -/
def execHStb (u : HAt) (n g : Nat) (s : State) : Out State := .next (hIssue u (.stb n g) s)

/-- ANDB (R239). -/
def execHAndb (u : HAt) (g n : Nat) (s : State) : Out State := .next (hIssue u (.bitr .and g n) s)

/-- ORB (R239). -/
def execHOrb (u : HAt) (g n : Nat) (s : State) : Out State := .next (hIssue u (.bitr .or g n) s)

/-- XORB (R239). -/
def execHXorb (u : HAt) (g n : Nat) (s : State) : Out State := .next (hIssue u (.bitr .xor g n) s)

/-- WAITB (R221). -/
def execHWaitb (u : HAt) (n : Nat) (v : Bool) (s : State) : Out State := .next (hIssue u (.waitb n v) s)

/-- WAITL (R221, R222). -/
def execHWaitl (u : HAt) (g : Nat) (s : State) : Out State := .next (hIssue u (.waitl g) s)

/-- BZ (R243). -/
def execHBz (u : HAt) (g : Nat) (t : Tgt) (s : State) : Out State := .next (hIssue u (.branch .zero g t) s)

/-- BNZ (R243). -/
def execHBnz (u : HAt) (g : Nat) (t : Tgt) (s : State) : Out State := .next (hIssue u (.branch .nonZero g t) s)

/-- DJNZ (R243). -/
def execHDjnz (u : HAt) (g : Nat) (t : Tgt) (s : State) : Out State := .next (hIssue u (.branch .dec g t) s)

/-- BR (R231). -/
def execHBr (u : HAt) (t : Tgt) (s : State) : Out State := .next (hIssue u (.branch .always 0 t) s)

/-- JMP (R243). -/
def execHJmp (u : HAt) (t : Tgt) (s : State) : Out State := .next (hIssue u (.jmp t) s)

/-- CALL (R243). -/
def execHCall (u : HAt) (t : Tgt) (s : State) : Out State := .next (hIssue u (.call t) s)

/-- RET (R215). -/
def execHRet (u : HAt) (s : State) : Out State := .next (hIssue u (.ret) s)

/-- RETI (R215, R217). -/
def execHReti (u : HAt) (s : State) : Out State := .next (hIssue u (.reti) s)

/-- RPT (R244). -/
def execHRpt (u : HAt) (n : Nat) (s : State) : Out State := .next (hIssue u (.rpt n) s)

/-- RPTI (R245). -/
def execHRpti (u : HAt) (g : Nat) (s : State) : Out State := .next (hIssue u (.rpti g) s)

/-- MOVS (R246). -/
def execHMovs (u : HAt) (s : State) : Out State := .next (hIssue u (.str .movs) s)

/-- FILLS (R246). -/
def execHFills (u : HAt) (s : State) : Out State := .next (hIssue u (.str .fills) s)

/-- CMPS (R246). -/
def execHCmps (u : HAt) (s : State) : Out State := .next (hIssue u (.str .cmps) s)

/-- SCANS (R246). -/
def execHScans (u : HAt) (s : State) : Out State := .next (hIssue u (.str .scans) s)

/-- EI (R249). -/
def execHEi (u : HAt) (s : State) : Out State := .next (hIssue u (.ei) s)

/-- DI (R249). -/
def execHDi (u : HAt) (s : State) : Out State := .next (hIssue u (.di) s)

/-- HALT (R193). -/
def execHHalt (u : HAt) (s : State) : Out State := .next (hIssue u (.halt) s)

/-- SVC (R250). -/
def execHSvc (u : HAt) (s : State) : Out State := .next (hIssue u (.svc) s)

/-- TRAP (R250). -/
def execHTrap (u : HAt) (s : State) : Out State := .next (hIssue u (.trap) s)

/-- ILLEGAL_ENCODING (R227). -/
def execIllegalEncoding (u : HAt) (s : State) : Out State := .next (hIssue u (.illegal) s)

/-! ### Events of accesses -/

/-- May an access within the instruction fail on its own (R205, R240, R247, R244)? The access of any other instruction is
its outstanding load or its posted store. -/
def HOp.failsWithin : HOp → Bool
  | .str _ => true
  | .tli _ _ => true
  | .waitb _ _ => true
  | .rpt _ => true
  | .rpti _ => true
  | _ => false

/-- The instruction under way, or the poll of a WAITB that waits, with one access that is to fail. -/
def runFailing (s : State) (b h : Nat) (f : Nat × Bool × Bool) : State :=
  let x := s.hammer b h
  let s1 := s.setHammer b h { x with failing := some f }
  match x.run, x.wait with
  | .waiting, some ⟨.bit n v, _, _⟩ =>
    (bitPoll s1 b h x.pc n (fun s2 r => .done (if r = v then endWait s2 b h false false else s2))).ended b h
  | .running, _ =>
    let d := decodeAt s b h x.pc
    if d.1.failsWithin then issueHere s1 b h d.2 d.1 else s1
  | _, _ => s1

/-- More accesses than an instruction makes. -/
def manyAccesses : Nat := 65536

/-- An access within the instruction under way fails (R205): one of those of its kind, where there are several the one that
a free value names (log entry 3), ends by its deadline or with a decode error. -/
def failWithin (s : State) (b h : Nat) (miss write : Bool) : State :=
  let dry := runFailing s b h (manyAccesses, miss, write)
  let n := match (dry.hammer b h).failing with
    | some f => manyAccesses - f.1
    | none => 0
  if n = 0 then s
  else
    let s1 := runFailing s.nextFree b h (s.freeNat % n, miss, write)
    s1.setHammer b h { s1.hammer b h with failing := none }

/-- The outstanding load returns (R204, R205): with a decode error it returns 0 and sets BUSERR, and at hearth RAM the word
is uncorrectable (R317); a load from an absent billet's window has none (R4). -/
def loadReturn (s : State) (b h : Nat) (bad : Bool) : State :=
  match (s.hammer b h).load with
  | none => if bad then failWithin s b h false false else s
  | some x =>
    if bad && x.target.mayErr s then (accessFails (fluxFree (loadDone s b h x 0#32) b x.target) b h x.pc x.undo x.target false
      false).state
    else (settleLoad s b h).state

/-- LOAD_RETURN (R204). -/
def execLoadReturn (b h : Nat) (bad : Bool) (s : State) : Out State :=
  .next (if s.hasHammer b h then settleSteps (loadReturn s b h bad) else s)

/-- The oldest posted store is accepted by its target (R204), or ends with a decode error and is discarded (R205); one to
an absent billet's window ends without error (R4). While a line commit of the hammer waits for its entries no later store
completes (R33). -/
def storeComplete (s : State) (b h : Nat) (bad : Bool) : State :=
  match (s.hammer b h).stores with
  | [] => if bad then failWithin s b h false true else s
  | t :: _ =>
    if commitStalled s b h then s
    else if bad && t.target.mayErr s then (busErr (fluxFree (storeOut s b h false) b t.target) b h t.pc t.undo).state
    else storeLands s b h

/-- STORE_COMPLETE (R204). -/
def execStoreComplete (b h : Nat) (bad : Bool) (s : State) : Out State :=
  .next (if s.hasHammer b h then settleSteps (storeComplete s b h bad) else s)

/-- The outstanding load ends by its deadline (R205): it returns 0. -/
def loadMiss (s : State) (b h : Nat) (l : PendLoad) : State := (accessMiss (loadDone s b h l 0#32) b h l.pc l.undo).state

/-- The oldest posted store ends by its deadline (R205): it is discarded. -/
def storeMiss (s : State) (b h : Nat) (t : PendStore) : State := (accessMiss (storeOut s b h false) b h t.pc t.undo).state

/-- ACCESS_DEADLINE_MISS (R205, R222): a remote load or store whose deadline has passed ends, or an access within the
instruction under way. -/
def accessDeadline (s : State) (b h : Nat) (load : Bool) : State :=
  let x := s.hammer b h
  if load then
    match x.load with
    | some l => if l.target.remote s b && deadPassed s l.dead then loadMiss s b h l else s
    | none => failWithin s b h true false
  else
    match x.stores with
    | t :: _ => if t.target.remote s b && deadPassed s t.dead then storeMiss s b h t else s
    | [] => failWithin s b h true true

def execAccessDeadlineMiss (b h : Nat) (load : Bool) (s : State) : Out State :=
  .next (if s.hasHammer b h then settleSteps (accessDeadline s b h load) else s)

/-- A waiting hammer's condition is looked at (R221): where it holds the wait ends. -/
def waitCheck (s : State) (b h : Nat) : State :=
  let x := s.hammer b h
  match x.run, x.wait with
  | .waiting, some ⟨.line v, _, _⟩ => if lineMet s b h v then endWait s b h false false else s
  | .waiting, some ⟨.bit n v, _, _⟩ =>
    (bitPoll s b h x.pc n (fun s1 r => .done (if r = v then endWait s1 b h false false else s1))).state
  | _, _ => s

/-- WAIT_CONDITION_MET (R221). -/
def execWaitConditionMet (b h : Nat) (s : State) : Out State :=
  .next (if s.hasHammer b h then settleSteps (waitCheck s b h) else s)

/-! ### Deadlines that have come (R222) -/

/-- Does a deadline lie in the running line or before it? -/
def deadCome (s : State) (d : Deadline) : Bool := !linePrec (hereLine s) (d.frame, d.line)

/-- Posted stores past their deadline end, oldest first. -/
def storesOverdue : Nat → State → Nat → Nat → State
  | 0, s, _, _ => s
  | n + 1, s, b, h =>
    match (s.hammer b h).stores with
    | t :: _ => if t.target.remote s b && deadCome s t.dead then storesOverdue n (storeMiss s b h t) b h else s
    | [] => s

/-- What a hammer waits for ends at its deadline at the latest: nothing outlasts the line its deadline lies in. -/
def hammerOverdue (s : State) (b h : Nat) : State :=
  let x := s.hammer b h
  let s1 := match x.run, x.wait with
    | .waiting, some w => if deadCome s w.dead then waitMiss s b h else s
    | _, _ => s
  let s2 := match x.load with
    | some l => if l.target.remote s1 b && deadCome s1 l.dead then loadMiss s1 b h l else s1
    | none => s1
  storesOverdue x.stores.length s2 b h

/-- At a line's end every hammer's deadlines within it have come. -/
def hammersOverdue (s : State) : State :=
  s.hammers.foldl (fun s kv => if s.hasHammer (kv.1 / 16) (kv.1 % 16) then hammerOverdue s (kv.1 / 16) (kv.1 % 16) else s) s

/-- A deadline that has not come by the end of a frame lies in the next one, whatever its number (R68, R222). -/
def Deadline.inFrame (d : Deadline) (f : Nat) : Deadline := { d with frame := f }

/-- At a frame's start the deadlines that have not come lie in it. -/
def hammersFrame (s : State) : State :=
  let f := s.beam.frame
  { s with hammers := s.hammers.map (fun kv => (kv.1, { kv.2 with
      wait := kv.2.wait.map (fun w => { w with dead := w.dead.inFrame f }),
      load := kv.2.load.map (fun l => { l with dead := l.dead.inFrame f }),
      stores := kv.2.stores.map (fun t => { t with dead := t.dead.inFrame f }) })) }

/-- HAMMER_STEP (R194). -/
def execHammerStep (who : Who) (b h : Nat) (s : State) : Out State :=
  .next (if s.hasHammer b h then settleSteps (guarded s who b h 0 (fun s => stepHammer s b h)) else s)

end Sys2Proof.Machine
end

