-- ==== Sys2Proof/Machine/Flux.lean ====
section
/-! DEFINITION. What Tongs moves (R296, R297, R300, R301) and Flux requests and responses (R333, R335). -/

namespace Sys2Proof.Machine

/-! ### Tongs bursts -/

/-- Words of the next burst (R300): at most 64 bytes, within a 64-byte boundary of either moving side, one word where
a side is BAR0. -/
def burstWords (x : Tongs) : Nat :=
  let left := x.len - x.word
  if sideSpace (x.w 1) = 2 || sideSpace (x.w 3) = 2 then min left 1
  else
    let room := fun (sp : Word) (a : Nat) => if sideFix sp then 16 else (64 - a % 64) / 4
    min left (min (room (x.w 1) (x.srcAt x.row x.word)) (room (x.w 3) (x.dstAt x.row x.word)))

/-- Words within the bytes of a burst, from offset `o` on: one word over and over on a FIX side. -/
def burstOf (fix : Bool) (o n : Nat) (l : List Byte) : List Word :=
  (upto n).map (fun i => wd (leNat ((l.drop (if fix then o else o + 4 * i)).take 4)))

/-- The words of a burst are read (R296, R300); none for a decode error. -/
def burstRead (s : State) (b c : Nat) (x : Tongs) (n : Nat) : State × Option (List Word) :=
  let k := sideBillet (x.w 1)
  let a := x.srcAt x.row x.word
  let fix := sideFix (x.w 1)
  match sideSpace (x.w 1) with
  | 0 =>
    if 2 ^ 32 ≤ a then (s, none)
    else
      let r := takeRead s k (tngReq b k) (tngSrc b c) (a / 64)
      (r.1, r.2.map (burstOf fix (a % 64) n))
  | 1 =>
    let o := a % hearthSize
    if s.present k && !s.hbad k o (if fix then 4 else 4 * n) then (s, some (burstOf fix 0 n (s.hread k o (4 * n)))) else (s, none)
  | _ =>
    let r := busRead s (.unit b) (a % 2 ^ 24)
    (r.1, some [r.2])

/-- The words of a burst are written (R296, R297, R300, R321); none outside a usable range. -/
def burstWrite (s : State) (b : Nat) (x : Tongs) (l : List Word) : Option State :=
  let k := sideBillet (x.w 3)
  let a := x.dstAt x.row x.word
  let kept := if sideFix (x.w 3) then l.drop (l.length - 1) else l
  let d := kept.flatMap (fun v => leBytes 4 v.toNat)
  match sideSpace (x.w 3) with
  | 0 => if a < 2 ^ 32 && s.memOk (k * 2 ^ 32 + a) then some (memStore s k (tngReq b k) a d) else none
  | 1 => if s.present k then some (s.hwrite k (a % hearthSize) d) else none
  | _ => some (l.foldl (fun s v => busWrite s (.unit b) (a % 2 ^ 24) v) s)

/-- The running check over a word (R301). -/
def checkWord (kind chk : Nat) (v : Word) : Nat :=
  match kind with
  | 1 => crcRun chk (leBytes 4 v.toNat)
  | 2 => sum16 chk (leBytes 4 v.toNat)
  | _ => chk

/-- Move a burst of `n` words (R300): a decode error ends the channel, and what is written stays. -/
def moveBurst (b c n : Nat) (s : State) : State :=
  let x := s.tong b c
  let r := burstRead s b c x n
  match r.2 with
  | none => tngError r.1 b c 8
  | some l =>
    match burstWrite r.1 b x l with
    | none => tngError r.1 b c 8
    | some s1 =>
      let y := s1.tong b c
      if y.st = 2 then s1.setTong b c { y with word := y.word + n, chk := l.foldl (checkWord y.check) y.chk } else s1

/-- A unit of work is counted and ends (R298). -/
def unitDone (s : State) (b c : Nat) : State := tngUnitEnd (s.addReg (tnga b c 0x1C) 1) b c

/-- The end of a descriptor (R300, R301): RESULT, UNIT, then the next descriptor or the end of the chain. -/
def descriptorEnd (s : State) (b c : Nat) : State :=
  let x := s.tong b c
  let res := if x.check = 1 then x.chk ^^^ 0xFFFFFFFF else x.chk
  let s1 := if x.check ≠ 0 then s.hwrite b (x.descAt + 28) (leBytes 4 res) else s
  let s2 := if bit (x.w 6) 12 then tngStat s1 b c 2 else s1
  if x.link then
    let s3 := tngLoad (s2.setTong b c { x with descAt := fld (x.w 6) 31 16 * 32 }) b c
    if tngMode s b c < 2 then unitDone s3 b c else s3
  else unitDone (tngChainEnd s2 b c) b c

/-- After a burst: the end of a row, of the descriptor, of the unit. -/
def afterBurst (s : State) (b c : Nat) : State :=
  let x := s.tong b c
  if x.st ≠ 2 then s
  else if x.word < x.len then tngShow s b c
  else
    let s1 := s.setTong b c { x with row := x.row + 1, word := 0 }
    if x.row + 1 < x.rows then (if tngMode s b c = 1 then unitDone s1 b c else tngShow s1 b c)
    else descriptorEnd s1 b c

/-- A side is held by a GDDR6 freeze (R329): Tongs reads and writes its own billet as requester 8, another as 7. -/
def sideFrozen (s : State) (b : Nat) (sp : Word) : Bool :=
  sideSpace sp = 0 && isFrozen s (sideBillet sp) (if sideBillet sp = b then 8 else 7)

/-- A committed write of the billet's channels waits for its entries (R297, R334). -/
def tngStalled (s : State) (b : Nat) : Bool := s.commits.live.any (fun c => !c.accepted && c.billet = b && c.ctx = 26)

/-- Source units of the row's next bursts, at most as many as may be in flight (R300). -/
def burstUnits : Nat → Tongs → List Nat
  | 0, _ => []
  | k + 1, x =>
    let n := burstWords x
    if n = 0 then [] else (x.srcAt x.row x.word / 64) :: burstUnits k { x with word := x.word + n }

/-- The channel issues the reads of its next 8 bursts from GDDR6 that are not yet in flight (R300, R328). -/
def tngIssue (s : State) (b c : Nat) : State :=
  let x := s.tong b c
  let k := sideBillet (x.w 1)
  let has := fun (u : Nat) => (s.mem k).reads.any (fun r => r.req = tngReq b k && r.src = tngSrc b c && r.unit = u)
  let new := ((burstUnits 8 x).eraseDups).filter (fun u => !has u && decide (64 * u < s.memEnd k))
  if x.st ≠ 2 || sideSpace (x.w 1) ≠ 0 || new = [] then s else issueReads s k (tngReq b k) (tngSrc b c) new

/-- Sides of a transfer on another billet, each burst of which is a Flux transaction (R41, R300, R333). -/
def farSides (b : Nat) (x : Tongs) : Nat :=
  let far := fun (w : Word) => b2n (sideSpace w ≠ 2 && sideBillet w ≠ b)
  far (x.w 1) + far (x.w 3)

/-- The channel's next burst is read and its write accepted (R300): not while a side is frozen, its read waits for a tag,
or Flux has no transaction free. -/
def tngBurst (s : State) (b c : Nat) : State :=
  let x := s.tong b c
  if x.st ≠ 2 || !x.loaded || sideFrozen s b (x.w 1) || sideFrozen s b (x.w 3) ||
      (sideSpace (x.w 3) = 2 && tngStalled s b) then s
  else
    let k := sideBillet (x.w 1)
    let n := fluxInUse s b
    let far := farSides b x
    if 256 < n + far then fluxCount s b 0x80004 1
    else
      let s0 := if far = 0 then s else fluxSet (fluxSet s b (n + far)) b n
      let s1 := tngIssue s0 b c
      if sideSpace (x.w 1) = 0 && readWaits s1 k (tngReq b k) (tngSrc b c) (x.srcAt x.row x.word / 64) then s1
      else tngIssue (afterBurst (moveBurst b c (burstWords x) s1) b c) b c

/-- TONGS_BURST_COMPLETE (R300). -/
def execTongsBurstComplete (b ch : Nat) (s : State) : Out State :=
  .next (if s.present b && ch < 32 then settleSteps (tngBurst s b ch) else s)

/-! ### Flux transactions -/

/-- The target performs a word's access (R317, R318): at a register of its window, or, from 2^32 on, at its GDDR6, and
from 2 · 2^32 on at its hearth RAM. -/
def fluxPerform (s : State) (b dst : Nat) (rw : Option Word) (addr : Nat) : State :=
  let o := addr % 2 ^ 32
  match addr / 2 ^ 32, rw with
  | 0, some v => busWrite s (.unit b) (dst * windowSize + addr % windowSize) v
  | 0, none => (busRead s (.unit b) (dst * windowSize + addr % windowSize)).1
  | 1, some v => memStore s dst 7 o (leBytes 4 v.toNat)
  | 1, none => (memRead s dst 7 o 4).1
  | _, some v => s.hwrite dst (o % hearthSize) (leBytes 4 v.toNat)
  | _, none => s

/-- A request from billet `b` arrives at `dst` (R333, R335): a transaction is taken, or the requester stalls; a
poisoned request is not performed; a late one is answered "not performed". -/
def fluxRequest (s : State) (b dst : Nat) (rw : Option Word) (addr margin : Nat) (poisoned : Bool) : State :=
  if 256 ≤ fluxInUse s b then fluxCount s b 0x80004 1
  else
    let s1 := fluxSet s b (fluxInUse s b + 1)
    if poisoned then fluxCount s1 dst 0x8000C 4
    else if margin < 256 then s1
    else fluxPerform s1 b dst rw addr

/-- FLUX_REQUEST (R333). -/
def execFluxRequest (b dst : Nat) (rw : Option Word) (addr margin : Nat) (poisoned : Bool) (s : State) : Out State :=
  .next (if s.present b && s.present dst && b ≠ dst then settleSteps (fluxRequest s b dst rw addr margin poisoned) else s)

/-- A response arrives (R333, R335): its transaction is freed; a late one is discarded and counted, a poisoned one
counted. -/
def fluxResponse (s : State) (b : Nat) (late poisoned : Bool) : State :=
  if fluxInUse s b = 0 then s
  else
    let s1 := fluxSet s b (fluxInUse s b - 1)
    let s2 := if poisoned then fluxCount s1 b 0x8000C 4 else s1
    if late then fluxCount s2 b 0x80008 2 else s2

/-- FLUX_RESPONSE (R333). -/
def execFluxResponse (b : Nat) (late poisoned : Bool) (s : State) : Out State :=
  .next (if s.present b then fluxResponse s b late poisoned else s)

end Sys2Proof.Machine
end

