-- ==== Sys2Proof/Machine/Boot.lean ====
section
/-! DEFINITION. The boot sequencer (R481-R485) and the test access port (R526-R529). -/

namespace Sys2Proof.Machine

/-! ### Images (R482) -/

/-- A little-endian word of the header. -/
def hdrWord (h : List Byte) (off : Nat) : Nat := leNat ((h.drop off).take 4)

def hdrLen (h : List Byte) : Nat := hdrWord h 8
def hdrSvn (h : List Byte) : Nat := hdrWord h 0xC
def hdrNsec (h : List Byte) : Nat := hdrWord h 0x10
/-- MEMCFG, with TRAIN taken as 0: the RATE and ECC fields. -/
def hdrMemcfg (h : List Byte) : Nat := hdrWord h 0x14 &&& 0x11F
def hdrStart (h : List Byte) : Nat := hdrWord h 0x18
def hdrKey (h : List Byte) : List Byte := (h.drop 0x20).take 64
def hdrSig (h : List Byte) : List Byte := (h.drop 0x60).take 64

/-- Word `w` of section entry `i`. -/
def secWord (h : List Byte) (i w : Nat) : Nat := hdrWord h (0x100 + 16 * i + 4 * w)
def secKind (h : List Byte) (i : Nat) : Nat := secWord h i 3 / 2 ^ 28

/-- A section entry the image may hold (R482). -/
def secOk (h : List Byte) (i : Nat) : Bool :=
  secKind h i ≤ 4 && secWord h i 0 % 64 = 0 && secWord h i 0 + secWord h i 1 ≤ hdrLen h

/-- What a header fails on (R482, file 17): 1 BADMAGIC, 2 BADLEN, 3 BADSEC; none for a good one. -/
def headerError (h : List Byte) : Option Nat :=
  if hdrWord h 0 ≠ 0x42385855 || hdrWord h 4 ≠ 1 then some 1
  else if hdrLen h % 64 ≠ 0 || hdrLen h < 1024 then some 2
  else if 32 < hdrNsec h || !(upto (hdrNsec h)).all (secOk h) then some 3
  else none

/-! ### The sequencer -/

def setBoot (s : State) (x : Boot) : State := { s with boot := x }

/-- Write MEM_CFG of every billet and train (R310, R481). -/
def bootTrain (s : State) (cfg : Nat) : State :=
  setBoot (s.eachBillet (fun s b => memTrain (s.setReg (memReg b 0) (wd cfg)) b)) { s.boot with cfg := cfg }

/-- No billet trains or fills any more. -/
def trained (s : State) : Bool := (upto s.n).all (fun b => !(s.mem b).training && !(s.mem b).filling)

/-- Training failed on some billet. -/
def trainFailed (s : State) : Bool := (upto s.n).any (fun b => fld (s.reg (memReg b 4)) 3 0 ≠ 15)

/-- A step fails (R481): image A gives way to image B, anything else sets FAIL and waits for a host image under R485. -/
def bootFail (s : State) (err : Nat) : State :=
  let s1 := s.setRf 0x811000 23 20 err
  if !s.boot.host && !s.boot.imgB then setBoot s1 { s.boot with imgB := true, step := 1, header := [] }
  else
    let s2 := bootTrain (s1.orReg 0x811000 0x200) 0x10
    setBoot s2 { s2.boot with host := true, step := 1, header := [], waiting := false }

/-- Flash offset of the image in use. -/
def imageAt (s : State) : Nat := if s.boot.imgB then 0x1000000 else 0

/-- Step 1 of a host boot (R485): once the billets are trained, WAITHOST; after GO, the header is judged, and the
billets are retrained and the image awaited again where its MEMCFG is not the one in force. -/
def bootHostStep (s : State) (ok : Bool) : State :=
  let x := s.boot
  if x.waiting then s
  else if x.header = [] then
    if !trained s then s
    else if trainFailed s then bootFail s 7
    else setBoot (s.orReg 0x811000 0x400) { x with waiting := true }
  else if !ok then bootFail s 8
  else match headerError x.header with
    | some e => bootFail s e
    | none =>
      if hdrMemcfg x.header ≠ x.cfg then
        let s1 := bootTrain s (hdrMemcfg x.header)
        setBoot s1 { s1.boot with header := [] }
      else setBoot s { x with step := 3 }

/-- Step 1 from flash: the header is read and judged, then every billet trains under its MEMCFG (step 2). -/
def bootFlashStep (s : State) (ok : Bool) : State :=
  let h := memBytes s.flash (imageAt s) 1024
  if !ok then bootFail s 8
  else match headerError h with
    | some e => bootFail s e
    | none =>
      let s1 := bootTrain s (hdrMemcfg h)
      setBoot s1 { s1.boot with step := 2, header := h, base := 0 }

/-- Step 2: every billet has trained. -/
def bootTrainStep (s : State) : State :=
  if !trained s then s
  else if trainFailed s then bootFail s 7
  else setBoot s { s.boot with step := 3 }

/-- Step 3: the image is in billet 0's GDDR6. -/
def bootCopyStep (s : State) (ok : Bool) : State :=
  if !ok then bootFail s 8
  else
    let s1 := if s.boot.host then s else s.gwrite 0 (memBytes s.flash (imageAt s) (hdrLen s.boot.header))
    setBoot s1 { s1.boot with step := 4 }

/-- The OTP slot whose key hash the image's key matches and that is not revoked (R483). -/
def keySlot (s : State) (h : List Byte) : Option Nat :=
  let k := sha256 (hdrKey h)
  if s.otp.slot0 = some k && !s.otp.revoke.testBit 0 then some 0
  else if s.otp.slot1 = some k && !s.otp.revoke.testBit 1 then some 1
  else none

/-- The image's signature is good (R483). -/
def signatureOk (s : State) (h : List Byte) : Bool :=
  let m := s.gread s.boot.base (hdrLen h)
  let k := hdrKey h
  let g := hdrSig h
  ecdsaValid (beNat (k.take 32)) (beNat (k.drop 32)) (beNat (g.take 32)) (beNat (g.drop 32))
    (sha256 (m.take 0x60 ++ m.drop 0xA0))

/-- Step 4: key, signature, security version (R483). -/
def bootAuthStep (s : State) : State :=
  let h := s.boot.header
  let slot := keySlot s h
  if slot = none && s.otp.secure then bootFail s 4
  else if !signatureOk s h then bootFail s 5
  else if hdrSvn h < s.otp.svn then bootFail s 6
  else setBoot (if slot = none then s.orReg 0x811000 0x800 else s) { s.boot with step := 5 }

/-- 16-bit words of bytes to a target, from index `a`. -/
def eachHalf (f : State → Nat → Nat → State) : Nat → Nat → List Byte → State → State
  | 0, _, _, s => s
  | fuel + 1, a, d, s => if d.length < 2 then s else eachHalf f fuel (a + 1) (d.drop 2) (f s a (leNat (d.take 2)))

/-- Register writes of a section, in order. -/
def eachWrite : Nat → List Byte → State → State
  | 0, _, s => s
  | fuel + 1, d, s =>
    if d.length < 8 then s
    else eachWrite fuel (d.drop 8) (busWrite s (.unit 0) (leNat (d.take 4) % 2 ^ 24) (wd (leNat ((d.drop 4).take 4))))

/-- A section goes to its target (R482); a billet the variant lacks takes nothing. -/
def writeSection (s : State) (i : Nat) : State :=
  let h := s.boot.header
  let d := s.gread (s.boot.base + secWord h i 0) (secWord h i 1)
  let t := secWord h i 2
  let b := secWord h i 3 % 8
  let k := secWord h i 3 / 16 % 16
  if !s.present b && secKind h i ≠ 4 then s
  else match secKind h i with
    | 0 => s.gwrite (b * 2 ^ 32 + t) d
    | 1 => s.hwrite b t d
    | 2 => eachHalf (fun s a v => setProgWord s b k a (BitVec.ofNat 14 v)) d.length t d s
    | 3 => eachHalf (fun s a v => setBankWord s b k a (BitVec.ofNat 16 v)) d.length t d s
    | _ => eachWrite d.length d s

/-- Step 5: the sections. -/
def bootSectionStep (s : State) (ok : Bool) : State :=
  if !ok then bootFail s 8
  else
    let s1 := (upto (hdrNsec s.boot.header)).foldl writeSection s
    setBoot s1 { s1.boot with step := 6 }

/-- Step 6: the keepers that START names run, and DONE is set (R481). -/
def bootStartStep (s : State) : State :=
  let h := s.boot.header
  let s1 := s.eachBillet (fun s b => if (hdrStart h).testBit b then hammerRun s b 0 else s)
  let s2 := match keySlot s h with
    | some k => s1.orReg 0x811010 (0x200 + 0x100 * k)
    | none => s1
  setBoot (s2.orReg 0x811000 0x100) { s2.boot with step := 0 }

/-- The boot step in progress ends. -/
def bootStep (s : State) (ok : Bool) : State :=
  if s.boot.held then s
  else match s.boot.step with
    | 0 => s
    | 1 => if s.boot.host then bootHostStep s ok else bootFlashStep s ok
    | 2 => bootTrainStep s
    | 3 => bootCopyStep s ok
    | 4 => bootAuthStep s
    | 5 => bootSectionStep s ok
    | _ => bootStartStep s

/-- BOOT_STEP_COMPLETE (R481): `ok` is false where a read of the flash or of the image fails. -/
def execBootStepComplete (ok : Bool) (s : State) : Out State := .next (settleSteps (bootStep s ok))

/-- BOOT_GO (R485). -/
def execBootGo (s : State) : Out State := .next (if accessible s then bootGoes s else s)

/-! ### JTAG -/

/-- The device ID (R527). -/
def deviceId (v : Variant) : Word :=
  let part := match v with
    | .ux8_2 => 0xB082
    | .ux8_4 => 0xB084
    | .ux8_8 => 0xB088
  wd (2 * 2 ^ 28 + part * 2 ^ 12 + 0x2E7 * 2 + 1)

/-- Cells of the boundary register (R528). -/
def boundaryCells (v : Variant) : Nat := 180 + 420 * v.billets

/-- Instructions that hold the part in reset (R529). -/
def holdsPart (ir : Nat) : Bool := ir = 0 || (3 ≤ ir && ir ≤ 6)

/-- A test instruction is selected (R526, R529): one that holds the part resets it as PIN does; any other selected
after such a one releases it, with BOOT_SEL as the pins stand (a free value). -/
def selectTap (s : State) (ir : Nat) : State :=
  let was := holdsPart s.hostPort.ir
  if holdsPart ir then
    let s1 := if was then s else packageReset s 2
    setHost s1 { s1.hostPort with ir := ir }
  else
    let s1 := setHost s { s.hostPort with ir := ir }
    if was then resetRelease s1.nextFree (s1.freeNat % 4) else s1

/-- EXTEST (R529). -/
def execExtest (s : State) : Out State := .next (selectTap s 0)
/-- IDCODE (R527). -/
def execIdcode (s : State) : Out State := .next (selectTap s 1)
/-- SAMPLE/PRELOAD (R526). -/
def execSamplePreload (s : State) : Out State := .next (selectTap s 2)
/-- HIGHZ (R529). -/
def execHighz (s : State) : Out State := .next (selectTap s 3)
/-- CLAMP (R529). -/
def execClamp (s : State) : Out State := .next (selectTap s 4)
/-- EXTEST_PULSE (R526, R529). -/
def execExtestPulse (s : State) : Out State := .next (selectTap s 5)
/-- EXTEST_TRAIN (R526, R529). -/
def execExtestTrain (s : State) : Out State := .next (selectTap s 6)
/-- BYPASS (R526): every other code; 0xFF stands for them. -/
def execBypass (s : State) : Out State := .next (selectTap s 0xFF)

/-- TEST_RESET_EXIT (R529): an instruction that does not hold the part is selected. -/
def execTestResetExit (s : State) : Out State := .next (if holdsPart s.hostPort.ir then selectTap s 0xFF else s)

/-- TAP_RESET (R478, R526): the test access port alone is reset and selects IDCODE. -/
def execTapReset (s : State) : Out State := .next (selectTap s 1)

/-- What a fuse operation blows (R484): a blank key-hash slot, a revoke bit, SECURE, or one more of the 64 version
fuses. -/
def blowFuse (o : Otp) : FuseOp → Otp
  | .keyHash slot hash =>
    if slot = 0 then (if o.slot0 = none then { o with slot0 := some (hash % 2 ^ 256) } else o)
    else if slot = 1 then (if o.slot1 = none then { o with slot1 := some (hash % 2 ^ 256) } else o)
    else o
  | .revoke slot => if slot < 2 then { o with revoke := natSet o.revoke slot } else o
  | .secure => { o with secure := true }
  | .svn => { o with svn := min 64 (o.svn + 1) }

/-- FUSE (R484, R526). -/
def execFuse (op : FuseOp) (s : State) : Out State :=
  let s1 := selectTap s 0x80
  .next { s1 with otp := blowFuse s1.otp op }

end Sys2Proof.Machine
end

