-- ==== Sys2Proof/Machine/HostCmds.lean ====
section
/-! DEFINITION. The commands of host software: register writes, PCIe, SPI, data ports, doorbells (R13, R487-R501). -/

namespace Sys2Proof.Machine

/-- REGISTER_WRITE (R13): a 32-bit write at a BAR0 offset by whoever makes it. -/
def execRegisterWrite (who : Who) (addr : Nat) (v : Word) (s : State) : Out State :=
  .next (settleSteps (anyWrite s who addr v))

/-- PCIE_MEMORY_WRITE (R490). -/
def execPcieMemoryWrite (addr : Nat) (data : List Byte) (s : State) : Out State :=
  .next (settleSteps (pcieWrite s addr data))

/-- PCIE_MEMORY_READ (R490): at most 4,096 bytes (R487). -/
def execPcieMemoryRead (addr n : Nat) (s : State) : Out State := .next (settleSteps (pcieRead s addr (min n 4096)))

/-- HOST_ACCESS_DEADLINE (R491). -/
def execHostAccessDeadline (s : State) : Out State := .next (if accessible s then settleSteps (hostMiss s) else s)

/-- SPI_WRITE (R488). -/
def execSpiWrite (addr : Nat) (bytes : List Byte) (s : State) : Out State :=
  .next (if accessible s then settleSteps (spiWrites s addr 0 (bytes.length + 1) bytes) else s)

/-- SPI_READ (R488): `n` words. -/
def execSpiRead (addr n : Nat) (s : State) : Out State :=
  .next (if accessible s then settleSteps (readStart s ((upto n).map (spiAddr addr))) else s)

/-- The status byte (R488). -/
def spiStatusByte (s : State) : Nat :=
  let st := s.reg 0x811000
  b2n (bit st 8) * 8 + b2n (bit st 10) * 4 + b2n (s.reg 0x810004 ≠ 0#32) * 2 + b2n (s.hostPort.posted ≠ [])

/-- SPI_STATUS (R488). -/
def execSpiStatus (s : State) : Out State :=
  .next (if accessible s then hostComplete (s, [wd (spiStatusByte s)]) else s)

/-- SPI_BAD_COMMAND (R488). -/
def execSpiBadCommand (cmd : Nat) (s : State) : Out State :=
  .next (if accessible s && cmd ≠ 2 && cmd ≠ 0xB && cmd ≠ 5 then spiErr s else s)

/-- DATA_PORT_ACCESS (R493): an access to DPk_DATA. -/
def execDataPortAccess (k : Nat) (w : Option Word) (s : State) : Out State :=
  .next (
    if k < 4 then
      match w with
      | some v => settleSteps (hostWrite s (dpa k 0x14) v)
      | none => settleSteps (pcieRead s (dpa k 0x14) 4)
    else s)

/-- DATA_PORT_ADDR_WRITE (R493). -/
def execDataPortAddrWrite (k : Nat) (v : Word) (s : State) : Out State :=
  .next (if accessible s && k < 4 then dpAddr s k v else s)

/-- DATA_PORT_PREFETCH (R495). -/
def execDataPortPrefetch (k : Nat) (s : State) : Out State :=
  .next (if accessible s && k < 4 then dpPrefetch s k else s)

/-- DATA_PORT_WORD_ACCEPT (R494). -/
def execDataPortWordAccept (k : Nat) (s : State) : Out State :=
  .next (if accessible s && k < 4 && 0 < dpPending s k then settleSteps (readsGo (dpMakeRoom s k)) else s)

/-- DOORBELL (R498). -/
def execDoorbell (v : Word) (s : State) : Out State := .next (if accessible s then ringDoorbell s v else s)

/-- HOST_IRQ_SET (R499). -/
def execHostIrqSet (v : Word) (s : State) : Out State := .next (if accessible s then hirqSet s v else s)

/-- HOST_RESET (R501). -/
def execHostReset (s : State) : Out State := .next (if accessible s then hostReset s else s)

/-- PCIE_LINK_CHANGE (R487): in EMBER the port is off (R502). -/
def execPcieLinkChange (up : Bool) (width speed : Nat) (s : State) : Out State :=
  .next (if accessible s then linkChange s up width speed else s)

/-- PCIE_CONFIG_ACCESS (R487). -/
def execPcieConfigAccess (reg : Nat) (w : Option Word) (s : State) : Out State :=
  .next (if accessible s then cfgAccess s reg w else s)

end Sys2Proof.Machine
end

