-- ==== Sys2Proof/Machine/LineStart.lean ====
section
/-! DEFINITION. What happens when a package line or a port line starts, when the next line is evaluated, and when a
group leaves Anvil (R21-R33, R45, R53, R119, R532, R533). -/

namespace Sys2Proof.Machine

/-! ### Applying commits -/

/-- Strikes write their whole word at the application (R97, R98); of other writes the bits that are not
line-latched acted at once (R80). -/
def wholeWord (ctx : Nat) : Bool := 17 ≤ ctx && ctx ≤ 20

/-- The word a committed write leaves in a register: the plain write, or one bit of it (R212). -/
def committedWord (r : RegRow) (whole : Bool) (old : Word) (w : CWrite) : Word :=
  let m := r.rw ||| r.rws
  match w.bitOp with
  | some (i, op) => if m.testBit i then bitApply old i op else old
  | none => if whole then plainWrite r old w.val else mergeBits m old w.val

/-- The layer whose HANDOFF register an offset is (file 06). -/
def handoffLayer (off : Nat) : Option Nat := (upto 4).find? (fun n => voff n 0x40 = off)

/-- The port whose LUTW register an offset is (file 07). -/
def lutwPort (off : Nat) : Option Nat := (upto 4).find? (fun p => coff p 0x2C = off)

/-- One write of commit `id` takes effect in billet `b` (R13, R163, R179). -/
def applyWrite (s : State) (ctx id b : Nat) (w : CWrite) : State :=
  let off := w.addr % windowSize
  match regRow s.variant off with
  | none => s
  | some r =>
    let old := s.breg b off
    let new := committedWord r (wholeWord ctx) old w
    match handoffLayer off, lutwPort off with
    | some n, _ => if 22 ≤ ctx && ctx ≤ 25 then hardHandOff s b n id w.val
      else softHandOff (s.setBreg b off new) b n id old new
    | none, some p => lutWrite (s.setBreg b off new) b p new
    | none, none => s.setBreg b off new

/-- A commit takes effect in every billet it addresses, its writes in order (R28, R33). -/
def applyCommit (s : State) (c : Commit) : State :=
  c.writes.foldl (fun s w => ((w.billets s.n).filter s.present).foldl (fun s b => applyWrite s c.ctx c.id b w) s) s

/-- The commits of the set judged for the next line, in the order of R29, split at the 512th write (R30). -/
def readyCommits (s : State) : List Commit × List Commit :=
  takeFirst512 0 (sortCommits (s.commits.live.filter (fun c => s.commits.ready.contains c.id)))

/-- Targets are named by the new frame's number where the frame count does not simply go on (R68); a line of an
earlier frame has not occurred. `f0` is the number of the frame that ended, `f1` that of the frame that starts. -/
def renumber (f0 f1 : Nat) (c : Commit) : Commit :=
  let k := (c.frame + 2 ^ 48 - (f0 + 1) % 2 ^ 48) % 2 ^ 48
  if k < 2 ^ 47 then { c with frame := (f1 + k) % 2 ^ 48 } else { c with frame := f1, line := 0 }

/-- A target at or before the line that starts. -/
def notAfter (s : State) (c : Commit) : Bool := c.frame = s.beam.frame && c.line ≤ s.beam.line

/-- Commits whose line is past without their having applied are late to the next line (R27, R532). -/
def lateCommits (s : State) (past : Commit → Bool) : State :=
  let nx := lineAfter s (hereLine s)
  let gone := s.commits.live.filter past
  gone.foldl countLate (s.setLive (s.commits.live.map (fun c => if past c then c.move nx else c)))

/-- The sealed commits apply at the line start, the counters on the new line (R29, R30, R532): `short` says that the
line before ended before its D30, when none of its seal applies. -/
def applySealed (s : State) (short : Bool) : State :=
  let fl := s.commits.sealOf
  let clear := fun (s : State) => { s with commits := { s.commits with sealOf := none, ready := [], judged := false, got := [] } }
  if short then
    lateCommits (clear s) (fun c => some (c.frame, c.line) = fl || s.commits.ready.contains c.id || notAfter s c)
  else
    let r := readyCommits s
    let nx := lineAfter s (hereLine s)
    let kept := (s.commits.live.filter (fun c => !r.1.any (fun d => d.id = c.id))).map (fun c =>
      if r.2.any (fun d => d.id = c.id) then c.move nx else c)
    let s1 := clear (s.setLive kept)
    let s2 := lateCommits s1 (notAfter s1)
    let s3 := r.2.foldl (fun s c => countDefer s c 0x80F04 2) s2
    r.1.foldl applyCommit s3

/-! ### Frame ends -/

/-- The band and span words take effect (R21). -/
def bandsTake (s : State) : State :=
  s.eachBillet (fun s b => ([0x30000, 0x30004, 0x30010, 0x30014, 0x30018, 0x3001C]).foldl
    (fun s o => s.takeEffect (baddr b o)) s)

/-- Everything else that happens at L0:D0 (R58, R170, R323, R410, R476). -/
def packageFrameStart (s : State) : State := ctFrameStart (arbFrameStart (powerFrame (quenchFrame s)))

/-- Hardware writers' finished frames are handed off (R163): the target is two lines on (R26). -/
def handoffsIssue (s : State) : State :=
  let nx := lineAfter s (lineAfter s (hereLine s))
  s.handQ.foldl (fun s e => handIssue s e.1 e.2.1 e.2.2.1 e.2.2.2 nx) { s with handQ := [] }

/-- What waits for a position of the line that ends has waited long enough (R222, R302, R306, R491). -/
def deadlinesCome (s : State) : State := hostOverdue (hammersOverdue (tngOverdue (swageOverdue s)))

/-- Deadlines that have not come lie in the frame that starts (R64, R222, R290, R302, R491; log entry 54). -/
def deadlinesFrame (s : State) : State := hostFrame (hammersFrame (tngFrame (swageFrame s)))

/-- The package line start (R45, R532). -/
def packageLineStart (s0 : State) : State :=
  let s := deadlinesCome s0
  let b := s.beam
  let ends := frameEnds b
  let short := decide (lineDotsNow s ≤ 30)
  let s1 := if short then portsMissed s else judgeSeal (portsMissed s)
  let s2 := beamLineStart s1
  let s3 := if ends then
      deadlinesFrame (renumberStrikes b.frame s2.beam.frame (portsTakeTiming (bandsTake (s2.setLive (s2.commits.live.map (fun c =>
        if s2.commits.ready.contains c.id then c else renumber b.frame s2.beam.frame c))))))
    else s2
  let s4 := applySealed s3 short
  let s5 := strikesLine (collLine s4 b.frame) b.sudden
  let s6 := quenchLine (cacheLineStart (tngTakeAll (swageLine (handoffsIssue s5))))
  if ends then packageFrameStart s6 else s6

/-- PACKAGE_LINE_START (R45): the clock comes to the end of the running line. -/
def execPackageLineStart (s : State) : Out State :=
  .next (if s.beam.running then packageLineStart (bring lineEnd s) else s)

/-- PKG_REG_APPLY (R47). -/
def execPkgRegApply (s : State) : Out State := .next (pkgApplyNext s)

/-! ### Port lines -/

/-- A port's line start: pixels whose instant came before it leave; the beam's part, then the strikes, the output side, the senders, and at its frame start the
legacy port and the comparison (R53, R83, R95, R185, R189, R380, R421). -/
def portLine (s : State) (b p : Nat) : State :=
  let s1 := portLineStart (pixelsLeave s b p (s.now - 1)) b p
  let x := s1.port b p
  if !x.running then synthOff (portGone s1 b p) b p
  else
    let s2 := rasterLineStart (outLineStart s1 b p) b p
    if x.line = 0 then quenchPort (lppFrameStart s2 b p) b p else s2

/-- PORT_LINE_START (R53): at the port's place in the running package line. -/
def execPortLineStart (b p : Nat) (s : State) : Out State :=
  .next (
    let x := s.port b p
    if !(s.present b && p < 4) then s
    else if !x.running then discardStopped s b p (some (hereLine s))
    else if portLineWaits x then atInstant (fun s => portStartAt s (s.port b p)) (fun s => portLine s b p) s
    else s)

/-- The channel's first line (R58, R466). -/
def portFirstLine (s : State) (b p : Nat) : State :=
  let s1 := portChannelStart s b p
  if (s.port b p).running || !(s1.port b p).running then s1
  else quenchPort (lppFrameStart (rasterLineStart (outLineStart s1 b p) b p) b p) b p

/-- PORT_CHANNEL_START (R466): at the port's place in line 0 of a frame at whose start it was enabled and locked. -/
def execPortChannelStart (b p : Nat) (s : State) : Out State :=
  .next (
    let x := s.port b p
    if s.present b && p < 4 && x.armed && !x.running then
      atInstant (fun s => portStartAt s (s.port b p)) (fun s => portFirstLine s b p) s
    else s)

/-! ### The next line -/

/-- The line that follows the running one, and the dimensions in force there. -/
def nextBeam (s : State) : Beam := (advanceBeam s).beam

/-- The state whose registers and band govern the next line (R119): its commits have applied. -/
def nextState (s : State) : State :=
  let s1 := if frameEnds s.beam then bandsTake s else s
  (readyCommits s1).1.foldl applyCommit s1

/-- On the flip line the flip sees the hand-offs that take effect there (R164): the slots come from `v`, the state of the
next line, and the commits that made them so are noted. -/
def flipHandOffs (s v : State) : State :=
  let ids := (readyCommits s).1.map (·.id)
  s.eachBillet (fun s b => (upto 4).foldl (fun s n =>
    let s1 := s.setVideo b n { v.video b n with seen := ids }
    [0x44, 0x48, 0x58].foldl (fun s o => s.setReg (vaddr b n o) (v.reg (vaddr b n o))) s1) s)

/-- Every billet and Temper evaluate the line that `nb` names, whose register values are `l` (R119, R125, R471). -/
def evaluateLine (s : State) (nb : Beam) (l : LineView) : State :=
  let view := fun (b : Nat) => View.mk s.variant b l.regs l.eff
  let dims := { s.beam with vtotal := nb.vtotal, vactStart := nb.vactStart, vact := nb.vact }
  let s1 := ({ s with beam := dims, lineViews := (l :: s.lineViews).take 4 }).eachBillet
    (fun s b => evalBillet s (view b) (l.frame, l.line))
  let preds := (upto s.n).map (fun b => anvilPred s1 b (view b).bandW (activeLine dims l.line))
  { temperDecide s1 preds with beam := s.beam }

/-- The evaluation of the next line (R119). -/
def lineEvaluation (s : State) : State :=
  let nb := nextBeam s
  let next := nextState s
  evaluateLine (if nb.line = flipLine nb then flipHandOffs s next else s) nb ⟨nb.frame, nb.line, next.regs, next.eff⟩

/-- LINE_EVALUATION (R119): at D30 of the running line. -/
def execLineEvaluation (s : State) : Out State :=
  .next (if s.beam.running && s.now < s.beam.lineAt + 124 then atInstant (fun s => s.beam.lineAt + 120) lineEvaluation s
    else s)

/-! ### Leaving Anvil -/

/-- PIXEL_GROUP_LEAVE (R533). -/
def execPixelGroupLeave (b p g : Nat) (s : State) : Out State :=
  .next (if s.present b && p < 4 && (s.port b p).running then pixelGroupLeave s b p g else s)

end Sys2Proof.Machine
end

