-- ==== Sys2Proof/Machine/Clock.lean ====
section
/-! DEFINITION. One forge cycle in which no command acts (R45, R443, R456; log entry 1). -/

namespace Sys2Proof.Machine

/-- A forge cycle: time, the tick and the dot counter move on, accepted package-beam writes whose point has come apply
(R47), and host register writes and reads that waited for their target go on where they now can (R490). The clock
stands at the end of a package line until the next one starts, and while the beam does not run. -/
def forgeCycle (s : State) : State :=
  if s.beam.running && s.now < lineEnd s then
    let s1 := passCycles 1 s
    let s2 := pkgDue s1.pkgQueue s1
    readsGo (hostDrain (fun e => e.port = 4) s2.hostPort.posted.length s2)
  else s

end Sys2Proof.Machine
end

