-- ==== Sys2Proof/Machine/Dispatch.lean ====
section
/-! DEFINITION. One arm per command: a direct call of its meaning. -/

namespace Sys2Proof.Machine

/-- The effect of a command on everything but the queue. -/
def exec (i : Instr) (s : State) : Host.Outcome State Fault Refusal :=
  match i with
  | .registerWrite who addr v => Sys2Proof.Machine.execRegisterWrite who addr v s
  | .broadcastAliasWrite who off v => Sys2Proof.Machine.execBroadcastAliasWrite who off v s
  | .lineCommitIssue who addr v => Sys2Proof.Machine.execLineCommitIssue who addr v s
  | .commitHold b k => Sys2Proof.Machine.execCommitHold b k s
  | .commitGroupIssue b k => Sys2Proof.Machine.execCommitGroupIssue b k s
  | .commitAccept id => Sys2Proof.Machine.execCommitAccept id s
  | .commitReceive id b poisoned => Sys2Proof.Machine.execCommitReceive id b poisoned s
  | .sealPublish => Sys2Proof.Machine.execSeal s
  | .sealSetReceive dst src => Sys2Proof.Machine.execSealSetReceive dst src s
  | .packageLineStart => Sys2Proof.Machine.execPackageLineStart s
  | .pkgRegApply => Sys2Proof.Machine.execPkgRegApply s
  | .genlockEdge pin rising => Sys2Proof.Machine.execGenlockEdge pin rising s
  | .ptpAlignmentPoint k => Sys2Proof.Machine.execPtpAlignmentPoint k s
  | .refLost => Sys2Proof.Machine.execRefLost s
  | .portLineStart b p => Sys2Proof.Machine.execPortLineStart b p s
  | .portChannelStart b p => Sys2Proof.Machine.execPortChannelStart b p s
  | .portMatch b p k => Sys2Proof.Machine.execPortMatch b p k s
  | .beamStampLatchRead who b p => Sys2Proof.Machine.execBeamStampLatchRead who b p s
  | .lineEvaluation => Sys2Proof.Machine.execLineEvaluation s
  | .fetchDataReturn b unit err => Sys2Proof.Machine.execFetchDataReturn b unit err s
  | .anvilGroupCompose b p g => Sys2Proof.Machine.execAnvilGroupCompose b p g s
  | .groupDeadline b p g => Sys2Proof.Machine.execGroupDeadline b p g s
  | .pixelGroupLeave b p g => Sys2Proof.Machine.execPixelGroupLeave b p g s
  | .liveEdge b k => Sys2Proof.Machine.execLiveEdge b k s
  | .strikeSwapRequest b p => Sys2Proof.Machine.execStrikeSwapRequest b p s
  | .strikeDataAccess who b p w => Sys2Proof.Machine.execStrikeDataAccess who b p w s
  | .reflexArm b k => Sys2Proof.Machine.execReflexArm b k s
  | .pcacheInvalidate b => Sys2Proof.Machine.execPcacheInvalidate b s
  | .writebackFrameDone b p => Sys2Proof.Machine.execWritebackFrameDone b p s
  | .hammerRun who b h => Sys2Proof.Machine.execHammerRun who b h s
  | .hammerStop who b h => Sys2Proof.Machine.execHammerStop who b h s
  | .hammerStep who b h => Sys2Proof.Machine.execHammerStep who b h s
  | .hammerReset who b h => Sys2Proof.Machine.execHammerReset who b h s
  | .serviceModeWrite who b h on => Sys2Proof.Machine.execServiceModeWrite who b h on s
  | .pmdataAccess who b h w => Sys2Proof.Machine.execPmdataAccess who b h w s
  | .dmdataAccess who b h w => Sys2Proof.Machine.execDmdataAccess who b h w s
  | .dbgdataAccess who b h w => Sys2Proof.Machine.execDbgdataAccess who b h w s
  | .pioOwnWrite who b j v => Sys2Proof.Machine.execPioOwnWrite who b j v s
  | .hNop u => Sys2Proof.Machine.execHNop u s
  | .hMov u gd x => Sys2Proof.Machine.execHMov u gd x s
  | .hMovi u g imm5 => Sys2Proof.Machine.execHMovi u g imm5 s
  | .hAddi u g imm5 => Sys2Proof.Machine.execHAddi u g imm5 s
  | .hAdd u gd x => Sys2Proof.Machine.execHAdd u gd x s
  | .hSub u gd x => Sys2Proof.Machine.execHSub u gd x s
  | .hAnd u gd x => Sys2Proof.Machine.execHAnd u gd x s
  | .hOr u gd x => Sys2Proof.Machine.execHOr u gd x s
  | .hXor u gd x => Sys2Proof.Machine.execHXor u gd x s
  | .hShl u gd x => Sys2Proof.Machine.execHShl u gd x s
  | .hShr u gd x => Sys2Proof.Machine.execHShr u gd x s
  | .hAsr u gd x => Sys2Proof.Machine.execHAsr u gd x s
  | .hNot u gd gs => Sys2Proof.Machine.execHNot u gd gs s
  | .hNeg u g => Sys2Proof.Machine.execHNeg u g s
  | .hSwapb u g => Sys2Proof.Machine.execHSwapb u g s
  | .hCeq u gd x => Sys2Proof.Machine.execHCeq u gd x s
  | .hCne u gd x => Sys2Proof.Machine.execHCne u gd x s
  | .hClt u gd x => Sys2Proof.Machine.execHClt u gd x s
  | .hCltu u gd x => Sys2Proof.Machine.execHCltu u gd x s
  | .hCle u gd x => Sys2Proof.Machine.execHCle u gd x s
  | .hCleu u gd x => Sys2Proof.Machine.execHCleu u gd x s
  | .hCarry u gd gs => Sys2Proof.Machine.execHCarry u gd gs s
  | .hLd u g a => Sys2Proof.Machine.execHLd u g a s
  | .hLdPostinc u g ga => Sys2Proof.Machine.execHLdPostinc u g ga s
  | .hSt u a g => Sys2Proof.Machine.execHSt u a g s
  | .hStPostinc u ga g => Sys2Proof.Machine.execHStPostinc u ga g s
  | .loadReturn b h decodeError => Sys2Proof.Machine.execLoadReturn b h decodeError s
  | .storeComplete b h decodeError => Sys2Proof.Machine.execStoreComplete b h decodeError s
  | .accessDeadlineMiss b h load => Sys2Proof.Machine.execAccessDeadlineMiss b h load s
  | .hMul u gx gy => Sys2Proof.Machine.execHMul u gx gy s
  | .hMac u acc gx gy => Sys2Proof.Machine.execHMac u acc gx gy s
  | .hMacd u acc gx gy => Sys2Proof.Machine.execHMacd u acc gx gy s
  | .hMovl u g acc => Sys2Proof.Machine.execHMovl u g acc s
  | .hMovh u g acc => Sys2Proof.Machine.execHMovh u g acc s
  | .hSath u g acc => Sys2Proof.Machine.execHSath u g acc s
  | .hMova u acc g => Sys2Proof.Machine.execHMova u acc g s
  | .hClrAcc u acc => Sys2Proof.Machine.execHClrAcc u acc s
  | .hAdda u => Sys2Proof.Machine.execHAdda u s
  | .hTli u gd gs => Sys2Proof.Machine.execHTli u gd gs s
  | .hSetb u n => Sys2Proof.Machine.execHSetb u n s
  | .hClrb u n => Sys2Proof.Machine.execHClrb u n s
  | .hTglb u n => Sys2Proof.Machine.execHTglb u n s
  | .hMovb u g n => Sys2Proof.Machine.execHMovb u g n s
  | .hStb u n g => Sys2Proof.Machine.execHStb u n g s
  | .hAndb u g n => Sys2Proof.Machine.execHAndb u g n s
  | .hOrb u g n => Sys2Proof.Machine.execHOrb u g n s
  | .hXorb u g n => Sys2Proof.Machine.execHXorb u g n s
  | .hWaitb u n v => Sys2Proof.Machine.execHWaitb u n v s
  | .hWaitl u g => Sys2Proof.Machine.execHWaitl u g s
  | .waitConditionMet b h => Sys2Proof.Machine.execWaitConditionMet b h s
  | .waitDeadline b h => Sys2Proof.Machine.execWaitDeadline b h s
  | .hBz u g t => Sys2Proof.Machine.execHBz u g t s
  | .hBnz u g t => Sys2Proof.Machine.execHBnz u g t s
  | .hDjnz u g t => Sys2Proof.Machine.execHDjnz u g t s
  | .hBr u t => Sys2Proof.Machine.execHBr u t s
  | .hJmp u t => Sys2Proof.Machine.execHJmp u t s
  | .hCall u t => Sys2Proof.Machine.execHCall u t s
  | .hRet u => Sys2Proof.Machine.execHRet u s
  | .hReti u => Sys2Proof.Machine.execHReti u s
  | .hRpt u n => Sys2Proof.Machine.execHRpt u n s
  | .hRpti u g => Sys2Proof.Machine.execHRpti u g s
  | .hMovs u => Sys2Proof.Machine.execHMovs u s
  | .hFills u => Sys2Proof.Machine.execHFills u s
  | .hCmps u => Sys2Proof.Machine.execHCmps u s
  | .hScans u => Sys2Proof.Machine.execHScans u s
  | .hEi u => Sys2Proof.Machine.execHEi u s
  | .hDi u => Sys2Proof.Machine.execHDi u s
  | .hHalt u => Sys2Proof.Machine.execHHalt u s
  | .hSvc u => Sys2Proof.Machine.execHSvc u s
  | .hTrap u => Sys2Proof.Machine.execHTrap u s
  | .illegalEncoding u => Sys2Proof.Machine.execIllegalEncoding u s
  | .interruptAccept b h => Sys2Proof.Machine.execInterruptAccept b h s
  | .irqSourceSense b id => Sys2Proof.Machine.execIrqSourceSense b id s
  | .irqStateMessage b id => Sys2Proof.Machine.execIrqStateMessage b id s
  | .claim b h => Sys2Proof.Machine.execClaim b h s
  | .complete b h id => Sys2Proof.Machine.execComplete b h id s
  | .icSrcWrite b k v => Sys2Proof.Machine.execIcSrcWrite b k v s
  | .privateSoftwareSet b h v => Sys2Proof.Machine.execPrivateSoftwareSet b h v s
  | .softwareSourceSet b j v => Sys2Proof.Machine.execSoftwareSourceSet b j v s
  | .softwareSourceClear b j v => Sys2Proof.Machine.execSoftwareSourceClear b j v s
  | .emberEnter ins => Sys2Proof.Machine.execEmberEnter ins s
  | .emberWake ins => Sys2Proof.Machine.execEmberWake ins s
  | .emberTimerExpire => Sys2Proof.Machine.execEmberTimerExpire s
  | .swageCopy b u => Sys2Proof.Machine.execSwageCopy b u s
  | .swageFill b u => Sys2Proof.Machine.execSwageFill b u s
  | .swageKeycopy b u => Sys2Proof.Machine.execSwageKeycopy b u s
  | .swageAlpha b u => Sys2Proof.Machine.execSwageAlpha b u s
  | .swageLine b u => Sys2Proof.Machine.execSwageLine b u s
  | .swageRect b u => Sys2Proof.Machine.execSwageRect b u s
  | .swagePatrop b u => Sys2Proof.Machine.execSwagePatrop b u s
  | .swageIllegalOp b u => Sys2Proof.Machine.execSwageIllegalOp b u s
  | .swageAbort b u => Sys2Proof.Machine.execSwageAbort b u s
  | .swageWaitRelease b u => Sys2Proof.Machine.execSwageWaitRelease b u s
  | .swageWaitDeadline b u => Sys2Proof.Machine.execSwageWaitDeadline b u s
  | .swageDone b u => Sys2Proof.Machine.execSwageDone b u s
  | .swageWatermark b u => Sys2Proof.Machine.execSwageWatermark b u s
  | .tongsGo b ch => Sys2Proof.Machine.execTongsGo b ch s
  | .tongsTrigger b ch => Sys2Proof.Machine.execTongsTrigger b ch s
  | .tongsDrain b ch => Sys2Proof.Machine.execTongsDrain b ch s
  | .tongsDisable b ch => Sys2Proof.Machine.execTongsDisable b ch s
  | .tongsBurstComplete b ch => Sys2Proof.Machine.execTongsBurstComplete b ch s
  | .tongsDeadline b ch => Sys2Proof.Machine.execTongsDeadline b ch s
  | .memTrain b => Sys2Proof.Machine.execMemTrain b s
  | .trainingDone b trained cap4g => Sys2Proof.Machine.execTrainingDone b trained cap4g s
  | .eccFillDone b => Sys2Proof.Machine.execEccFillDone b s
  | .gddr6Slot b ch => Sys2Proof.Machine.execGddr6Slot b ch s
  | .arbSwapRequest b => Sys2Proof.Machine.execArbSwapRequest b s
  | .gddr6WriteAccept b req addr w => Sys2Proof.Machine.execGddr6WriteAccept b req addr w s
  | .gddr6ReadReturn b req addr err => Sys2Proof.Machine.execGddr6ReadReturn b req addr err s
  | .freezeWrite b v => Sys2Proof.Machine.execFreezeWrite b v s
  | .freezeDrained b => Sys2Proof.Machine.execFreezeDrained b s
  | .fluxRequest b dst rw addr margin poisoned => Sys2Proof.Machine.execFluxRequest b dst rw addr margin poisoned s
  | .fluxResponse b late poisoned => Sys2Proof.Machine.execFluxResponse b late poisoned s
  | .tuyereFrame => Sys2Proof.Machine.execTuyereFrame s
  | .tuyereEnable => Sys2Proof.Machine.execTuyereEnable s
  | .delayClearDone => Sys2Proof.Machine.execDelayClearDone s
  | .voiceNone v => Sys2Proof.Machine.execVoiceNone v s
  | .voiceLoad v => Sys2Proof.Machine.execVoiceLoad v s
  | .keyon v => Sys2Proof.Machine.execKeyon v s
  | .keyoff v => Sys2Proof.Machine.execKeyoff v s
  | .voiceReadReturn v unit => Sys2Proof.Machine.execVoiceReadReturn v unit s
  | .programWordWrite w => Sys2Proof.Machine.execProgramWordWrite w s
  | .programSwap => Sys2Proof.Machine.execProgramSwap s
  | .gainRamp v => Sys2Proof.Machine.execGainRamp v s
  | .parameterAccess w => Sys2Proof.Machine.execParameterAccess w s
  | .tuyereFrameRead who => Sys2Proof.Machine.execTuyereFrameRead who s
  | .busGminRead bus => Sys2Proof.Machine.execBusGminRead bus s
  | .busPeakRead bus => Sys2Proof.Machine.execBusPeakRead bus s
  | .converterSettled k => Sys2Proof.Machine.execConverterSettled k s
  | .converterInputLost k => Sys2Proof.Machine.execConverterInputLost k s
  | .tdmFrameSync n slots => Sys2Proof.Machine.execTdmFrameSync n slots s
  | .linkStateChange b l up => Sys2Proof.Machine.execLinkStateChange b l up s
  | .frameReceive b l frame => Sys2Proof.Machine.execFrameReceive b l frame s
  | .receiveFrameEnd b f => Sys2Proof.Machine.execReceiveFrameEnd b f s
  | .rasterPacketRelease b p => Sys2Proof.Machine.execRasterPacketRelease b p s
  | .audioPacketBuild g => Sys2Proof.Machine.execAudioPacketBuild g s
  | .transmitFrameStart b l => Sys2Proof.Machine.execTransmitFrameStart b l s
  | .firmwareTxSend b => Sys2Proof.Machine.execFirmwareTxSend b s
  | .delayReqSend => Sys2Proof.Machine.execDelayReqSend s
  | .ptpHoldover => Sys2Proof.Machine.execPtpHoldover s
  | .ptpGmportWrite v => Sys2Proof.Machine.execPtpGmportWrite v s
  | .ptpRestep => Sys2Proof.Machine.execPtpRestep s
  | .ptpEnable => Sys2Proof.Machine.execPtpEnable s
  | .quenchEnable => Sys2Proof.Machine.execQuenchEnable s
  | .roleDecide => Sys2Proof.Machine.execRoleDecide s
  | .twinLinkLost => Sys2Proof.Machine.execTwinLinkLost s
  | .twinFrameStampReceive m => Sys2Proof.Machine.execTwinFrameStampReceive m s
  | .lineRecordReceive m => Sys2Proof.Machine.execLineRecordReceive m s
  | .lineRecordMiss => Sys2Proof.Machine.execLineRecordMiss s
  | .take => Sys2Proof.Machine.execTake s
  | .yield => Sys2Proof.Machine.execYield s
  | .takeoverMessage m => Sys2Proof.Machine.execTakeoverMessage m s
  | .twinPeerChange level => Sys2Proof.Machine.execTwinPeerChange level s
  | .detach => Sys2Proof.Machine.execDetach s
  | .attach => Sys2Proof.Machine.execAttach s
  | .resync => Sys2Proof.Machine.execResync s
  | .resyncDone d => Sys2Proof.Machine.execResyncDone d s
  | .handoffNotice m => Sys2Proof.Machine.execHandoffNotice m s
  | .handoffNoticeWithdraw => Sys2Proof.Machine.execHandoffNoticeWithdraw s
  | .mailboxSend v => Sys2Proof.Machine.execMailboxSend v s
  | .mailboxReceive ws => Sys2Proof.Machine.execMailboxReceive ws s
  | .pinCfgWrite b n v => Sys2Proof.Machine.execPinCfgWrite b n v s
  | .pinSwitchEnd b n => Sys2Proof.Machine.execPinSwitchEnd b n s
  | .bankVselWrite b k v => Sys2Proof.Machine.execBankVselWrite b k v s
  | .bankSupplyChange b k cls => Sys2Proof.Machine.execBankSupplyChange b k cls s
  | .pinLevelChange b n level => Sys2Proof.Machine.execPinLevelChange b n level s
  | .matcherTimeout b k => Sys2Proof.Machine.execMatcherTimeout b k s
  | .matcherConfigWrite b k r v => Sys2Proof.Machine.execMatcherConfigWrite b k r v s
  | .tickStepHiWrite v => Sys2Proof.Machine.execTickStepHiWrite v s
  | .tickStepLoWrite v => Sys2Proof.Machine.execTickStepLoWrite v s
  | .tickStepApply => Sys2Proof.Machine.execTickStepApply s
  | .tickLatchRead who b => Sys2Proof.Machine.execTickLatchRead who b s
  | .compareArm b k r v => Sys2Proof.Machine.execCompareArm b k r v s
  | .compareStop b k r v => Sys2Proof.Machine.execCompareStop b k r v s
  | .compareFire b k => Sys2Proof.Machine.execCompareFire b k s
  | .compareWrap b k => Sys2Proof.Machine.execCompareWrap b k s
  | .capture b c => Sys2Proof.Machine.execCapture b c s
  | .captureLatchRead who b c => Sys2Proof.Machine.execCaptureLatchRead who b c s
  | .tallyWrap b k => Sys2Proof.Machine.execTallyWrap b k s
  | .tallyClear b k => Sys2Proof.Machine.execTallyClear b k s
  | .tallyLatchRead who b k snap => Sys2Proof.Machine.execTallyLatchRead who b k snap s
  | .powerOnReset => Sys2Proof.Machine.execPowerOnReset s
  | .pinReset => Sys2Proof.Machine.execPinReset s
  | .thermalReset => Sys2Proof.Machine.execThermalReset s
  | .clockReset => Sys2Proof.Machine.execClockReset s
  | .softReset v => Sys2Proof.Machine.execSoftReset v s
  | .watchdogKick v => Sys2Proof.Machine.execWatchdogKick v s
  | .watchdogExpiry => Sys2Proof.Machine.execWatchdogExpiry s
  | .resetRelease bootSel => Sys2Proof.Machine.execResetRelease bootSel s
  | .bootGo => Sys2Proof.Machine.execBootGo s
  | .clockLoss b dom => Sys2Proof.Machine.execClockLoss b dom s
  | .synthLockLoss b p => Sys2Proof.Machine.execSynthLockLoss b p s
  | .synthLock b p => Sys2Proof.Machine.execSynthLock b p s
  | .temperCurrentCheck use => Sys2Proof.Machine.execTemperCurrentCheck use s
  | .tempSensorRead t tj => Sys2Proof.Machine.execTempSensorRead t tj s
  | .powerStateRequest v => Sys2Proof.Machine.execPowerStateRequest v s
  | .hostReset => Sys2Proof.Machine.execHostReset s
  | .pcieMemoryWrite addr data => Sys2Proof.Machine.execPcieMemoryWrite addr data s
  | .pcieMemoryRead addr n => Sys2Proof.Machine.execPcieMemoryRead addr n s
  | .hostAccessDeadline => Sys2Proof.Machine.execHostAccessDeadline s
  | .spiWrite addr bytes => Sys2Proof.Machine.execSpiWrite addr bytes s
  | .spiRead addr n => Sys2Proof.Machine.execSpiRead addr n s
  | .spiStatus => Sys2Proof.Machine.execSpiStatus s
  | .spiBadCommand cmd => Sys2Proof.Machine.execSpiBadCommand cmd s
  | .dataPortAccess k w => Sys2Proof.Machine.execDataPortAccess k w s
  | .dataPortAddrWrite k v => Sys2Proof.Machine.execDataPortAddrWrite k v s
  | .dataPortPrefetch k => Sys2Proof.Machine.execDataPortPrefetch k s
  | .dataPortWordAccept k => Sys2Proof.Machine.execDataPortWordAccept k s
  | .doorbell v => Sys2Proof.Machine.execDoorbell v s
  | .hostIrqSet v => Sys2Proof.Machine.execHostIrqSet v s
  | .extest => Sys2Proof.Machine.execExtest s
  | .idcode => Sys2Proof.Machine.execIdcode s
  | .samplePreload => Sys2Proof.Machine.execSamplePreload s
  | .highz => Sys2Proof.Machine.execHighz s
  | .clamp => Sys2Proof.Machine.execClamp s
  | .extestPulse => Sys2Proof.Machine.execExtestPulse s
  | .extestTrain => Sys2Proof.Machine.execExtestTrain s
  | .fuse op => Sys2Proof.Machine.execFuse op s
  | .bypass => Sys2Proof.Machine.execBypass s
  | .testResetExit => Sys2Proof.Machine.execTestResetExit s
  | .portBeamFlagChange b p f => Sys2Proof.Machine.execPortBeamFlagChange b p f s
  | .domainClockReturn b dom => Sys2Proof.Machine.execDomainClockReturn b dom s
  | .twinControlMessage m => Sys2Proof.Machine.execTwinControlMessage m s
  | .bootStepComplete ok => Sys2Proof.Machine.execBootStepComplete ok s
  | .retrainComplete b => Sys2Proof.Machine.execRetrainComplete b s
  | .pcieLinkChange up width speed => Sys2Proof.Machine.execPcieLinkChange up width speed s
  | .pcieConfigAccess reg w => Sys2Proof.Machine.execPcieConfigAccess reg w s
  | .ptpDisable => Sys2Proof.Machine.execPtpDisable s
  | .quenchDisable => Sys2Proof.Machine.execQuenchDisable s
  | .tuyereDisable => Sys2Proof.Machine.execTuyereDisable s
  | .portEnWrite b p v => Sys2Proof.Machine.execPortEnWrite b p v s
  | .laneCtrlWrite b l v => Sys2Proof.Machine.execLaneCtrlWrite b l v s
  | .captureChannelWrite b c r v => Sys2Proof.Machine.execCaptureChannelWrite b c r v s
  | .tapReset => Sys2Proof.Machine.execTapReset s

end Sys2Proof.Machine
end

