-- ==== Sys2Proof/Machine/Step.lean ====
section
/-! DEFINITION. A step: the command at the front of the queue acts; with none waiting a forge cycle passes. -/

namespace Sys2Proof.Machine

/-- One step (log entry 1). -/
def step (s : State) : Host.Outcome State Fault Refusal :=
  match s.pending with
  | [] => .next (forgeCycle s)
  | c :: rest => exec c { s with pending := rest }

/-- Put a command at the front of the queue. -/
def State.pushFront (s : State) (c : Instr) : State := { s with pending := c :: s.pending }

/-- The command that a table word spells, at the front of the queue; no row of the table gives bits, so no word
spells one. -/
def State.withFetchWord (s : State) (nbits w : Nat) : State :=
  match decodeTableWord nbits w with
  | some c => s.pushFront c
  | none => s

end Sys2Proof.Machine
end

