-- ==== Sys2Proof/Safety.lean ====
section
/-! DEFINITION. What a safe run keeps, in the terms the statements use. -/

namespace Sys2Proof.Machine

/-- The invariant of the machine's data: GDDR6 and hearth RAM are in canonical form, so that equal memories are equal
data, and the forge cycle within a dot is one of four (R45). -/
def Inv (s : State) : Prop :=
  Memory.wf s.gddr = true ∧ Memory.wf s.hearth = true ∧ s.beam.phase < 4

/-- `s` was reached from `r` by something that keeps the variant (R2), the waiting commands, the one-time programmable
memory (R484) and the flash, and the invariant holds in it. -/
def Kept (r s : State) : Prop :=
  s.variant = r.variant ∧ s.pending = r.pending ∧ s.otp = r.otp ∧ s.flash = r.flash ∧ Inv s

/-- Tongs channels as they are but for the triggers that have reached them. -/
def untriggered (m : Tbl Tongs) : Tbl Tongs := m.map (fun kv => (kv.1, { kv.2 with trig := 0 }))

/-- `t` differs from `s` at most in what events reach (R74-R78, R252-R263, R298, R456-R458, R99-R101, R414): registers,
the events noted, the hammers' sticky bits and private pending bits, interrupt sources and in-service marks, Tally
counters, pattern matchers and capture levels, the commits and live writes of reflexes, the triggers of Tongs channels,
the twin's takeover state, and the count of free values used. Everything else is the same: the beam, the ports, the
hammers, the pins, every memory. -/
def Side (s t : State) : Prop :=
  untriggered t.tongs = untriggered s.tongs ∧
  t = { s with regs := t.regs, evtAt := t.evtAt, sticky := t.sticky, ppend := t.ppend, irq := t.irq, slots := t.slots,
               tallies := t.tallies, matchers := t.matchers, captures := t.captures, commits := t.commits,
               reflexWait := t.reflexWait, liveQ := t.liveQ, tongs := t.tongs, quench := t.quench,
               freeCount := t.freeCount }

/-- `t` is `s` but for the register at `a`, which holds `v`. -/
def SetsReg (s t : State) (a : Nat) (v : Word) : Prop :=
  t.reg a = v ∧ (∀ a', a' ≠ a → t.reg a' = s.reg a') ∧ t = { s with regs := t.regs }

/-- `t` is `s` but for hammer `b.Hh`, which is `x`. -/
def SetsHammer (s t : State) (b h : Nat) (x : Hammer) : Prop :=
  t.hammer b h = x ∧ (∀ b' h', hidx b' h' ≠ hidx b h → t.hammer b' h' = s.hammer b' h') ∧ t = { s with hammers := t.hammers }

end Sys2Proof.Machine
end

