-- ==== Sys2Proof/WellFormed.lean ====
section
/-! DEFINITION. Which terms are commands the part can be given: every index within the part's range. -/

namespace Sys2Proof

/-- A billet (R2), a raster port or lane of a billet, a hammer (R192), a hammer register (R206). -/
def okBillet (b : Nat) : Bool := b < 8
def okPort (p : Nat) : Bool := p < 4
def okHammer (h : Nat) : Bool := h < 16
def okReg (g : Nat) : Bool := g < 16

/-- A register address: BAR0 covers 16 Mbyte in words (R38, R40). -/
def okRegAddr (a : Nat) : Bool := a < 0x1000000 && a % 4 = 0

/-- Inputs seen by the wake slots, each as 512 × CLASS + INDEX (R270). -/
def okIns (l : List Nat) : Bool := l.all (· < 4096)

/-- An accessor names a hammer or a billet that exists in the numbering (R2, R192). -/
def Who.wf : Who → Bool
  | .host => true
  | .hammer b h => okBillet b && okHammer h
  | .unit b => okBillet b

/-- An instruction has one or two words (R225). -/
def HAt.wf (u : HAt) : Bool := okBillet u.b && okHammer u.h && (u.words = 1 || u.words = 2)

/-- A register operand is one of sixteen (R206). -/
def Opd.wf : Opd → Bool
  | .reg g => okReg g
  | .imm _ => true

/-- Targets stay within the fields that encode them (R231, R243). -/
def Tgt.wf : Tgt → Bool
  | .abs t => t < 16384
  | .page t => t < 4096
  | .reg g => okReg g
  | .pageReg g => g < 8
  | .rel r => r < 32

/-- A clock domain's index is one of those R463 counts. -/
def ClkDomain.wf : ClkDomain → Bool
  | .port n | .gddr n | .laneTx n | .laneRx n | .lanePcs n => okPort n
  | .cluster n | .writeClock n | .fluxRx n | .retimer n => n < 2
  | .forge | .anvil | .flux | .reference | .sensing | .retention => true
  | .pciePhy | .pcieCore | .spi | .jtag | .ember | .temper => true

/-- A well-formed command. -/
def Instr.wf : Instr → Bool
  | .registerWrite who addr _ => who.wf && okRegAddr addr
  | .broadcastAliasWrite who off _ => who.wf && (off < 0x100000 && off % 4 = 0)
  | .lineCommitIssue who addr _ => who.wf && okRegAddr addr
  | .commitHold b k => okBillet b && k ≤ 16
  | .commitGroupIssue b k => okBillet b && k ≤ 16
  | .commitAccept _ => true
  | .commitReceive _ b _ => okBillet b
  | .sealPublish => true
  | .sealSetReceive dst src => okBillet dst && okBillet src
  | .packageLineStart => true
  | .pkgRegApply => true
  | .genlockEdge _ _ => true
  | .ptpAlignmentPoint _ => true
  | .refLost => true
  | .portLineStart b p => okBillet b && okPort p
  | .portChannelStart b p => okBillet b && okPort p
  | .portMatch b p k => okBillet b && okPort p && k < 4
  | .beamStampLatchRead who b p => who.wf && okBillet b && p ≤ 4
  | .lineEvaluation => true
  | .fetchDataReturn b _ _ => okBillet b
  | .anvilGroupCompose b p _ => okBillet b && okPort p
  | .groupDeadline b p _ => okBillet b && okPort p
  | .pixelGroupLeave b p _ => okBillet b && okPort p
  | .liveEdge b _ => okBillet b
  | .strikeSwapRequest b p => okBillet b && okPort p
  | .strikeDataAccess who b p _ => who.wf && okBillet b && okPort p
  | .reflexArm b k => okBillet b && k < 16
  | .pcacheInvalidate b => okBillet b
  | .writebackFrameDone b p => okBillet b && okPort p
  | .hammerRun who b h => who.wf && okBillet b && okHammer h
  | .hammerStop who b h => who.wf && okBillet b && okHammer h
  | .hammerStep who b h => who.wf && okBillet b && okHammer h
  | .hammerReset who b h => who.wf && okBillet b && okHammer h
  | .serviceModeWrite who b h _ => who.wf && okBillet b && okHammer h
  | .pmdataAccess who b h _ => who.wf && okBillet b && okHammer h
  | .dmdataAccess who b h _ => who.wf && okBillet b && okHammer h
  | .dbgdataAccess who b h _ => who.wf && okBillet b && okHammer h
  | .pioOwnWrite who b j _ => who.wf && okBillet b && j < 12
  | .hNop u => u.wf
  | .hMov u gd x => u.wf && okReg gd && x.wf
  | .hMovi u g imm5 => u.wf && okReg g && imm5 < 32
  | .hAddi u g imm5 => u.wf && okReg g && imm5 < 32
  | .hAdd u gd x => u.wf && okReg gd && x.wf
  | .hSub u gd x => u.wf && okReg gd && x.wf
  | .hAnd u gd x => u.wf && okReg gd && x.wf
  | .hOr u gd x => u.wf && okReg gd && x.wf
  | .hXor u gd x => u.wf && okReg gd && x.wf
  | .hShl u gd x => u.wf && okReg gd && x.wf
  | .hShr u gd x => u.wf && okReg gd && x.wf
  | .hAsr u gd x => u.wf && okReg gd && x.wf
  | .hNot u gd gs => u.wf && okReg gd && okReg gs
  | .hNeg u g => u.wf && okReg g
  | .hSwapb u g => u.wf && okReg g
  | .hCeq u gd x => u.wf && okReg gd && x.wf
  | .hCne u gd x => u.wf && okReg gd && x.wf
  | .hClt u gd x => u.wf && okReg gd && x.wf
  | .hCltu u gd x => u.wf && okReg gd && x.wf
  | .hCle u gd x => u.wf && okReg gd && x.wf
  | .hCleu u gd x => u.wf && okReg gd && x.wf
  | .hCarry u gd gs => u.wf && okReg gd && okReg gs
  | .hLd u g a => u.wf && okReg g && a.wf
  | .hLdPostinc u g ga => u.wf && okReg g && okReg ga
  | .hSt u a g => u.wf && a.wf && okReg g
  | .hStPostinc u ga g => u.wf && okReg ga && okReg g
  | .loadReturn b h _ => okBillet b && okHammer h
  | .storeComplete b h _ => okBillet b && okHammer h
  | .accessDeadlineMiss b h _ => okBillet b && okHammer h
  | .hMul u gx gy => u.wf && okReg gx && okReg gy
  | .hMac u _ gx gy => u.wf && okReg gx && okReg gy
  | .hMacd u _ gx gy => u.wf && okReg gx && okReg gy
  | .hMovl u g _ => u.wf && okReg g
  | .hMovh u g _ => u.wf && okReg g
  | .hSath u g _ => u.wf && okReg g
  | .hMova u _ g => u.wf && okReg g
  | .hClrAcc u _ => u.wf
  | .hAdda u => u.wf
  | .hTli u gd gs => u.wf && okReg gd && okReg gs
  | .hSetb u n => u.wf && n < 4096
  | .hClrb u n => u.wf && n < 4096
  | .hTglb u n => u.wf && n < 4096
  | .hMovb u g n => u.wf && okReg g && n < 4096
  | .hStb u n g => u.wf && n < 4096 && okReg g
  | .hAndb u g n => u.wf && okReg g && n < 4096
  | .hOrb u g n => u.wf && okReg g && n < 4096
  | .hXorb u g n => u.wf && okReg g && n < 4096
  | .hWaitb u n _ => u.wf && n < 4096
  | .hWaitl u g => u.wf && okReg g
  | .waitConditionMet b h => okBillet b && okHammer h
  | .waitDeadline b h => okBillet b && okHammer h
  | .hBz u g t => u.wf && okReg g && t.wf
  | .hBnz u g t => u.wf && okReg g && t.wf
  | .hDjnz u g t => u.wf && okReg g && t.wf
  | .hBr u t => u.wf && t.wf
  | .hJmp u t => u.wf && t.wf
  | .hCall u t => u.wf && t.wf
  | .hRet u => u.wf
  | .hReti u => u.wf
  | .hRpt u n => u.wf && (1 ≤ n && n ≤ 256)
  | .hRpti u g => u.wf && okReg g
  | .hMovs u => u.wf
  | .hFills u => u.wf
  | .hCmps u => u.wf
  | .hScans u => u.wf
  | .hEi u => u.wf
  | .hDi u => u.wf
  | .hHalt u => u.wf
  | .hSvc u => u.wf
  | .hTrap u => u.wf
  | .illegalEncoding u => u.wf
  | .interruptAccept b h => okBillet b && okHammer h
  | .irqSourceSense b id => okBillet b && (32 ≤ id && id < 1024)
  | .irqStateMessage b id => okBillet b && (32 ≤ id && id < 1024)
  | .claim b h => okBillet b && okHammer h
  | .complete b h id => okBillet b && okHammer h && id < 1024
  | .icSrcWrite b i _ => okBillet b && (32 ≤ i && i < 1024)
  | .privateSoftwareSet b h _ => okBillet b && okHammer h
  | .softwareSourceSet b j _ => okBillet b && j < 16
  | .softwareSourceClear b j _ => okBillet b && j < 16
  | .emberEnter ins => okIns ins
  | .emberWake ins => okIns ins
  | .emberTimerExpire => true
  | .swageCopy b u => okBillet b && u < 2
  | .swageFill b u => okBillet b && u < 2
  | .swageKeycopy b u => okBillet b && u < 2
  | .swageAlpha b u => okBillet b && u < 2
  | .swageLine b u => okBillet b && u < 2
  | .swageRect b u => okBillet b && u < 2
  | .swagePatrop b u => okBillet b && u < 2
  | .swageIllegalOp b u => okBillet b && u < 2
  | .swageAbort b u => okBillet b && u < 2
  | .swageWaitRelease b u => okBillet b && u < 2
  | .swageWaitDeadline b u => okBillet b && u < 2
  | .swageDone b u => okBillet b && u < 2
  | .swageWatermark b u => okBillet b && u < 2
  | .tongsGo b ch => okBillet b && ch < 32
  | .tongsTrigger b ch => okBillet b && ch < 32
  | .tongsDrain b ch => okBillet b && ch < 32
  | .tongsDisable b ch => okBillet b && ch < 32
  | .tongsBurstComplete b ch => okBillet b && ch < 32
  | .tongsDeadline b ch => okBillet b && ch < 32
  | .memTrain b => okBillet b
  | .trainingDone b trained _ => okBillet b && trained < 16
  | .eccFillDone b => okBillet b
  | .gddr6Slot b ch => okBillet b && ch < 4
  | .arbSwapRequest b => okBillet b
  | .gddr6WriteAccept b req addr w => okBillet b && req < 12 && addr < 0x100000000 && (1 ≤ w.data.length && w.data.length ≤ 64)
  | .gddr6ReadReturn b req addr _ => okBillet b && req < 12 && addr < 0x100000000
  | .freezeWrite b _ => okBillet b
  | .freezeDrained b => okBillet b
  | .fluxRequest b dst _ _ _ _ => okBillet b && okBillet dst
  | .fluxResponse b _ _ => okBillet b
  | .tuyereFrame => true
  | .tuyereEnable => true
  | .delayClearDone => true
  | .voiceNone v => v < 512
  | .voiceLoad v => v < 512
  | .keyon v => v < 512
  | .keyoff v => v < 512
  | .voiceReadReturn v unit => v < 512 && unit < 0x4000000
  | .programWordWrite _ => true
  | .programSwap => true
  | .gainRamp _ => true
  | .parameterAccess _ => true
  | .tuyereFrameRead who => who.wf
  | .busGminRead bus => bus < 64
  | .busPeakRead bus => bus < 64
  | .converterSettled k => k < 32
  | .converterInputLost k => k < 32
  | .tdmFrameSync n slots => n < 8 && slots.length ≤ 16
  | .linkStateChange b l _ => okBillet b && okPort l
  | .frameReceive b l _ => okBillet b && okPort l
  | .receiveFrameEnd b f => okBillet b && f < 16
  | .rasterPacketRelease b p => okBillet b && okPort p
  | .audioPacketBuild g => g < 8
  | .transmitFrameStart b l => okBillet b && okPort l
  | .firmwareTxSend b => okBillet b
  | .delayReqSend => true
  | .ptpHoldover => true
  | .ptpGmportWrite _ => true
  | .ptpRestep => true
  | .ptpEnable => true
  | .quenchEnable => true
  | .roleDecide => true
  | .twinLinkLost => true
  | .twinFrameStampReceive _ => true
  | .lineRecordReceive _ => true
  | .lineRecordMiss => true
  | .take => true
  | .yield => true
  | .takeoverMessage _ => true
  | .twinPeerChange _ => true
  | .detach => true
  | .attach => true
  | .resync => true
  | .resyncDone _ => true
  | .handoffNotice _ => true
  | .handoffNoticeWithdraw => true
  | .mailboxSend _ => true
  | .mailboxReceive ws => ws.length = 16
  | .pinCfgWrite b n _ => okBillet b && n < 48
  | .pinSwitchEnd b n => okBillet b && n < 48
  | .bankVselWrite b k _ => okBillet b && k < 3
  | .bankSupplyChange b k _ => okBillet b && k < 3
  | .pinLevelChange b n _ => okBillet b && n < 48
  | .matcherTimeout b k => okBillet b && k < 16
  | .matcherConfigWrite b k r _ => okBillet b && k < 16 && (r < 0x18 && r % 4 = 0)
  | .tickStepHiWrite _ => true
  | .tickStepLoWrite _ => true
  | .tickStepApply => true
  | .tickLatchRead who b => who.wf && okBillet b
  | .compareArm b k r _ => okBillet b && k < 64 && (r = 0 || r = 4)
  | .compareStop b k r _ => okBillet b && k < 64 && (r = 0 || r = 4)
  | .compareFire b k => okBillet b && k < 64
  | .compareWrap b k => okBillet b && k < 64
  | .capture b c => okBillet b && c < 16
  | .captureLatchRead who b c => who.wf && okBillet b && c < 16
  | .tallyWrap b k => okBillet b && k < 16
  | .tallyClear b k => okBillet b && k < 16
  | .tallyLatchRead who b k _ => who.wf && okBillet b && k < 16
  | .powerOnReset => true
  | .pinReset => true
  | .thermalReset => true
  | .clockReset => true
  | .softReset _ => true
  | .watchdogKick _ => true
  | .watchdogExpiry => true
  | .resetRelease bootSel => bootSel < 4
  | .bootGo => true
  | .clockLoss b dom => okBillet b && dom.wf
  | .synthLockLoss b p => okBillet b && okPort p
  | .synthLock b p => okBillet b && okPort p
  | .temperCurrentCheck _ => true
  | .tempSensorRead _ _ => true
  | .powerStateRequest _ => true
  | .hostReset => true
  | .pcieMemoryWrite _ _ => true
  | .pcieMemoryRead _ _ => true
  | .hostAccessDeadline => true
  | .spiWrite _ _ => true
  | .spiRead _ _ => true
  | .spiStatus => true
  | .spiBadCommand cmd => cmd < 256
  | .dataPortAccess k _ => k < 4
  | .dataPortAddrWrite k _ => k < 4
  | .dataPortPrefetch k => k < 4
  | .dataPortWordAccept k => k < 4
  | .doorbell _ => true
  | .hostIrqSet _ => true
  | .extest => true
  | .idcode => true
  | .samplePreload => true
  | .highz => true
  | .clamp => true
  | .extestPulse => true
  | .extestTrain => true
  | .fuse _ => true
  | .bypass => true
  | .testResetExit => true
  | .portBeamFlagChange b p _ => okBillet b && okPort p
  | .domainClockReturn b dom => okBillet b && dom.wf
  | .twinControlMessage _ => true
  | .bootStepComplete _ => true
  | .retrainComplete b => okBillet b
  | .pcieLinkChange _ _ _ => true
  | .pcieConfigAccess _ _ => true
  | .ptpDisable => true
  | .quenchDisable => true
  | .tuyereDisable => true
  | .portEnWrite b p _ => okBillet b && okPort p
  | .laneCtrlWrite b l _ => okBillet b && okPort l
  | .captureChannelWrite b c r _ => okBillet b && c < 16 && (r = 0 || r = 4)
  | .tapReset => true

end Sys2Proof
end

