-- ==== Sys2Proof/Claims.lean ====
section
/-! DEFINITION. The words in which the statements are written: what a command may assume of the state and what it
leaves alone. -/

namespace Sys2Proof

open Sys2Proof.Machine in
/-- The value of a register or an immediate operand. -/
def Opd.val (x : Opd) (y : Hammer) : HWord :=
  match x with
  | .reg g => y.reg g
  | .imm v => v

end Sys2Proof

namespace Sys2Proof.Machine

/-- Nothing waits for the hammer's next boundary, neither a halt (R194) nor a BUSERR trap (R251), and no access within an
instruction is failing (R205). -/
def Hammer.calm (x : Hammer) : Prop := x.haltAsk = false ∧ x.trapDue = none ∧ x.failing = none

/-- Hammer `u.b.Hu.h` is RUNNING and its next instruction names the registers `regs`: nothing waits for a boundary, no
outstanding load goes to one of them (R204), and no CTRL.STEP waits to be performed (R194). -/
def Issues (s : State) (u : HAt) (regs : List Nat) : Prop :=
  s.hasHammer u.b u.h = true ∧ (s.hammer u.b u.h).run = .running ∧ stepsAsked s = [] ∧ (s.hammer u.b u.h).calm ∧
  ∀ l, (s.hammer u.b u.h).load = some l → l.dst.target % 16 ∉ regs

/-- The hammer past its instruction, nothing else changed. -/
def past (s : State) (u : HAt) : Hammer :=
  { s.hammer u.b u.h with pc := ((s.hammer u.b u.h).pc + u.words) % 2 ^ 14 }

/-- The command completes, and all it changes is the hammer of `u`, which becomes `y`. -/
def Runs (c : Instr) (s : State) (u : HAt) (y : Hammer) : Prop :=
  ∃ t, Sys2Proof.Machine.exec c s = .next t ∧ SetsHammer s t u.b u.h y

/-- Hammer `b.Hh` is `x`, and every other hammer is as it was. -/
def HammerIs (s t : State) (b h : Nat) (x : Hammer) : Prop :=
  t.hammer b h = x ∧ ∀ b' h', hidx b' h' ≠ hidx b h → t.hammer b' h' = s.hammer b' h'

/-- Trap entry (R217) with `cause`, saving `pc`: PC, IE, SM, the cause and the stack pointer go to HMR_TRAP, TRAPACT is
set, IE cleared, and the PC goes to VBASE + 4 × cause. Nothing else of the hammer or of the state changes. -/
def TrapsAt (c : Instr) (s : State) (b h cause pc : Nat) : Prop :=
  ∃ t, Sys2Proof.Machine.exec c s = .next t ∧
    let x := s.hammer b h
    HammerIs s t b h { x with trapAct := true, ie := false, wait := none, rptLeft := 0,
                              pc := (fld (s.reg (haddr b h 8)) 29 22 * 64 + 4 * cause) % 2 ^ 14 } ∧
    t.reg (haddr b h 0x2C) =
      wd (x.sp * 2 ^ 20 + cause * 2 ^ 16 + (b2n x.sm * 2 ^ 15 + b2n x.ie * 2 ^ 14 + pc % 2 ^ 14) % 2 ^ 16) ∧
    (∀ a, a ≠ haddr b h 0x2C → t.reg a = s.reg a) ∧ t = { s with hammers := t.hammers, regs := t.regs }

/-- An access or a wait of hammer `b.Hh` ends by its deadline (R205, R222, R253) and leaves the hammer as `x`: DLMISS
(STAT bit 13) is set, private interrupt 26 is pending, and nothing else changes. -/
def Misses (c : Instr) (s : State) (b h : Nat) (x : Hammer) : Prop :=
  ∃ t, Sys2Proof.Machine.exec c s = .next t ∧ HammerIs s t b h x ∧
    t.reg (haddr b h 4) = s.reg (haddr b h 4) ||| 0x2000#32 ∧ (∀ a, a ≠ haddr b h 4 → t.reg a = s.reg a) ∧
    (t.ppendOf b h).testBit 26 = true ∧
    (∀ b' h' i, (hidx b' h', i) ≠ (hidx b h, 26) → (t.ppendOf b' h').testBit i = (s.ppendOf b' h').testBit i) ∧
    t = { s with hammers := t.hammers, regs := t.regs, ppend := t.ppend }

/-- May write CTRL, ENTRY, the program memory and the debug registers of hammer `b.Hh` (R219): host software and units
of the part, the hammer itself, and the billet's keeper in service mode. -/
def Controls (s : State) (who : Who) (b h : Nat) : Prop :=
  match who with
  | .hammer b' h' => (b' = b ∧ h' = h) ∨ (b' = b ∧ h' = 0 ∧ (s.hammer b 0).sm = true)
  | _ => True

/-- The candidate (priority, ID, source billet) is eligible at hammer `b.Hh` (R259). -/
def Eligible (s : State) (b h : Nat) (c : Cand) : Prop := c ∈ candidates s b h ∧ runPri s b h ≤ c.1

/-- The candidate wins at hammer `b.Hh` (R260): highest priority, then lowest ID. -/
def Wins (s : State) (b h : Nat) (c : Cand) : Prop :=
  Eligible s b h c ∧ ∀ d, Eligible s b h d →
    d.1 < c.1 ∨ (d.1 = c.1 ∧ (c.2.1 < d.2.1 ∨ (c.2.1 = d.2.1 ∧ c.2.2 ≤ d.2.2)))

/-- `ws` are issued as one commit of billet `b`, context `k`, for line `fl` (R26, R33): it carries the tick and the next
order number and stands among the commits under way, which else are as they were. The deferral counters change only where
it is late. -/
def IssuesAs (s t : State) (b k : Nat) (ws : List CWrite) (fl : Nat × Nat) (late : Bool) : Prop :=
  t = { s with commits := t.commits, regs := t.regs, reflexWait := t.reflexWait } ∧
  (late = false → ∀ a, t.reg a = s.reg a) ∧ t.commits.next = s.commits.next + 1 ∧
  (∀ d, d.id ≠ s.commits.next → (d ∈ t.commits.live ↔ d ∈ s.commits.live)) ∧
  ∃ c ∈ t.commits.live, c.id = s.commits.next ∧ c.tick = s.tick ∧ c.billet = b ∧ c.ctx = k ∧ c.writes = ws ∧
    (c.frame, c.line) = fl ∧ c.poisoned = false ∧ (c.accepted = true → c.recv = [b])

/-- What event `e` of billet `b` leaves (R74, R76, R209): its bit of the port's or the package's EVT register and its
sticky flag in every hammer of the billet. -/
def Raised (t : State) (b e : Nat) : Prop :=
  (e < 64 → (t.reg (b * 0x100000 + 0x134 + 0x100 * (e / 16))).getLsbD (e % 16) = true) ∧
  (64 ≤ e → (t.reg (b * 0x100000 + 0x30)).getLsbD (e - 64) = true) ∧
  (∀ n, eventFlag e = some n → ∀ h, h < 16 → (t.stickyOf b h).testBit n = true)

/-- The operation that a GO of Swage `u` copies with OP = `k`: the parameter registers as they stand (R276). -/
def swageAsked (s : State) (b u k : Nat) : Swage :=
  { Swage.init with op := swgParams.foldl (fun m o =>
      Tbl.set (fun _ => 0#32) m o (if o = 0 then setFld (s.reg (swga b u 0)) 2 0 k else s.reg (swga b u o))) [] }

/-- The command completes and the state is `t`. -/
def Gives (c : Instr) (s t : State) : Prop := Sys2Proof.Machine.exec c s = .next t

end Sys2Proof.Machine
end

