-- ==== Sys2Proof/Certificates/Slice0/Obligations.lean ====
section
/-! DEFINITION. The statements for the provers: what the commands of the block do, by the rules of spec/. -/

open Sys2Proof Sys2Proof.Machine

/-- The block's queue (log entry 1): a step takes the command at the front of the queue and runs it on the state that
holds the rest of the queue. -/
def Obligations.StepRunsTheFrontCommand : Prop :=
  ∀ (c : Instr) (rest : List Instr) (s : State), s.pending = c :: rest →
    Sys2Proof.Machine.step s = Sys2Proof.Machine.exec c { s with pending := rest }

/-- R45, R443 and log entry 1 (the model's choice: a step with nothing waiting is one forge cycle): the free-running cycle
count grows by one, the tick grows by 5/6 ns in the pattern of R443 while ADJ = 0, four cycles make a package dot, the
dot counter stays below the length of its line, and, with no accepted write on its way to its point, nothing else of
the beam moves. A beam that does not run, and one at the end of its line, leave everything as it is. -/
def Obligations.IdleStepCountsAForgeCycle : Prop :=
  ∀ s : State, s.pending = [] →
    (s.beam.running = false ∨ lineEnd s ≤ s.now → Sys2Proof.Machine.step s = .next s) ∧
    (s.beam.running = true → s.now < lineEnd s → s.pkgQueue = [] → s.hostPort.posted = [] → s.hostPort.wait = [] →
      ∃ t, Sys2Proof.Machine.step s = .next t ∧ t.now = s.now + 1 ∧ t.pending = [] ∧
        (s.reg 0xA0818 = 0#32 → t.tick * 2 ^ 32 + t.tickFrac = (s.tick * 2 ^ 32 + s.tickFrac + 0xD5555555 +
          (s.tickCtl.phase + 1) / 3) % 2 ^ 96) ∧
        t.tickCtl = { s.tickCtl with phase := (s.tickCtl.phase + 1) % 3 } ∧
        t.beam = { s.beam with phase := t.beam.phase, dot := t.beam.dot } ∧ t.beam.phase < 4 ∧
        4 * t.beam.dot + t.beam.phase = min (4 * s.beam.dot + s.beam.phase + 1) (4 * lineDotsNow s - 1))

/-- R45, R195, R196, R484: at the release of reset the beam stands at F0 L0:D0 with 800 lines of 3,125 dots, every hammer
is halted with an empty stack, a cleared PC and cleared flags (SM = 1 on the keepers), no port runs, and nothing
waits. -/
def Obligations.ResetState : Prop :=
  let r := State.reset
  r.beam.running = true ∧ r.beam.frame = 0 ∧ r.beam.line = 0 ∧ r.beam.dot = 0 ∧ r.beam.phase = 0 ∧
  r.beam.htotal = 3125 ∧ r.beam.vtotal = 800 ∧ r.tick = 0 ∧ r.tickFrac = 0 ∧ r.pending = [] ∧
  (∀ b h : Nat, h < 16 → (r.hammer b h).run = .halted ∧ (r.hammer b h).pc = 0 ∧ (r.hammer b h).ie = false ∧
    (r.hammer b h).sm = (h == 0) ∧ (r.hammer b h).trapAct = false ∧ (r.hammer b h).depth = 0 ∧
    (r.hammer b h).load = none ∧ (r.hammer b h).stores = [] ∧ (r.hammer b h).wait = none) ∧
  (∀ b p : Nat, (r.port b p).running = false) ∧
  (∀ a : Nat, r.reg a = regReset r.variant a)

/-- The invariant holds at reset. -/
def Obligations.ResetMeetsInvariant : Prop := Inv State.reset

/-- Every step keeps the invariant: both memories stay in canonical form and the cycle within a dot stays below 4 (R45),
whatever command stands in front and also when none does. -/
def Obligations.StepKeepsInvariant : Prop :=
  ∀ s t : State, Inv s → Sys2Proof.Machine.step s = .next t → Inv t

/-- Every command answers a next state; none changes the variant (R2), the waiting commands or the flash, none but FUSE
the OTP (R484), and each keeps the invariant. -/
def Obligations.EveryCommandCompletes : Prop :=
  ∀ (c : Instr) (s : State), Inv s →
    ∃ t, Sys2Proof.Machine.exec c s = .next t ∧ t.variant = s.variant ∧ t.pending = s.pending ∧ t.flash = s.flash ∧
      ((∀ op, c ≠ .fuse op) → t.otp = s.otp) ∧ Inv t

/-- R231, R233 and the instruction table: register moves, arithmetic and logic write gd modulo 2^16, the PC moves past the
instruction, and nothing else changes. R233: shifts move gd by the low four bits of the operand, filling with zeros or
with copies of bit 15; nothing but gd and the PC changes. R233: a compare writes 1 where the relation holds and 0
where it does not, CLT and CLE signed, CLTU and CLEU unsigned; CARRY writes the carry out of the unsigned sum; nothing
but gd and the PC changes. -/
def Obligations.HammerRegisterResults : Prop :=
  (∀ (s : State) (u : HAt) (gd gs : Nat) (x : Opd), Issues s u (gd :: Opd.regs x) →
    let y := past s u
    let d := y.reg gd
    let v := x.val y
    Runs (.hMov u gd x) s u (y.setReg gd v) ∧
    Runs (.hAdd u gd x) s u (y.setReg gd (d + v)) ∧
    Runs (.hSub u gd x) s u (y.setReg gd (d - v)) ∧
    Runs (.hAnd u gd x) s u (y.setReg gd (d &&& v)) ∧
    Runs (.hOr u gd x) s u (y.setReg gd (d ||| v)) ∧
    Runs (.hXor u gd x) s u (y.setReg gd (d ^^^ v)) ∧
    (x = .reg gs → Runs (.hNot u gd gs) s u (y.setReg gd (~~~v))) ∧
    (x = .imm 0#16 → ∀ imm5 : Nat, imm5 < 32 →
      Runs (.hNeg u gd) s u (y.setReg gd (0#16 - d)) ∧
      Runs (.hSwapb u gd) s u (y.setReg gd (d.extractLsb' 0 8 ++ d.extractLsb' 8 8)) ∧
      Runs (.hMovi u gd imm5) s u (y.setReg gd (BitVec.ofNat 16 imm5)) ∧
      Runs (.hAddi u gd imm5) s u (y.setReg gd (d + (BitVec.ofNat 5 imm5).signExtend 16)))) ∧
  (∀ (s : State) (u : HAt) (gd : Nat) (x : Opd), Issues s u (gd :: Opd.regs x) →
    let y := past s u
    let d := y.reg gd
    let n := (x.val y).toNat % 16
    Runs (.hShl u gd x) s u (y.setReg gd (BitVec.ofNat 16 (d.toNat * 2 ^ n))) ∧
    Runs (.hShr u gd x) s u (y.setReg gd (BitVec.ofNat 16 (d.toNat / 2 ^ n))) ∧
    Runs (.hAsr u gd x) s u (y.setReg gd (BitVec.ofInt 16 (d.toInt / 2 ^ n)))) ∧
  (∀ (s : State) (u : HAt) (gd gs : Nat) (x : Opd), Issues s u (gd :: Opd.regs x) →
    let y := past s u
    let d := y.reg gd
    let v := x.val y
    let w := fun (r : Bool) => y.setReg gd (if r then 1#16 else 0#16)
    Runs (.hCeq u gd x) s u (w (d == v)) ∧
    Runs (.hCne u gd x) s u (w (d != v)) ∧
    Runs (.hClt u gd x) s u (w (d.slt v)) ∧
    Runs (.hCltu u gd x) s u (w (d.ult v)) ∧
    Runs (.hCle u gd x) s u (w (d.sle v)) ∧
    Runs (.hCleu u gd x) s u (w (d.ule v)) ∧
    (x = .reg gs → Runs (.hCarry u gd gs) s u (w (decide (65535 < d.toNat + v.toNat)))))

/-- R241 and the instruction table: products are signed and sign-extended to 40 bits, sums wrap in 40 bits, and a move to
or from an accumulator changes the register or accumulator it names and nothing else. R242: in service mode MACD adds
the product of an X bank word and a Y bank word and increments both pointers; the words are named by gx[11:0] and
0x1000 | gy[11:0]; one register for both moves on by 1 (the model's reading, log entry 24). With SM = 0 the
accumulators, gx and gy stay as they are and the ILLMODE trap (cause 2) is entered at the instruction. -/
def Obligations.HammerAccumulators : Prop :=
  (∀ (s : State) (u : HAt) (acc : Bool) (gx gy : Nat), Issues s u [gx, gy] →
    let y := past s u
    let p := BitVec.ofInt 40 ((y.reg gx).toInt * (y.reg gy).toInt)
    Runs (.hMul u gx gy) s u { y with a0 := p } ∧
    Runs (.hMac u acc gx gy) s u (if acc then { y with a1 := y.a1 + p } else { y with a0 := y.a0 + p }) ∧
    (gx = gy →
      let a := if acc then y.a1 else y.a0
      let put := fun (v : BitVec 40) => if acc then { y with a1 := v } else { y with a0 := v }
      Runs (.hMovl u gx acc) s u (y.setReg gx (a.extractLsb' 0 16)) ∧
      Runs (.hMovh u gx acc) s u (y.setReg gx (a.extractLsb' 16 16)) ∧
      (a.extractLsb' 31 9 = 0#9 ∨ a.extractLsb' 31 9 = 0x1FF#9 →
        Runs (.hSath u gx acc) s u (y.setReg gx (a.extractLsb' 16 16))) ∧
      (a.extractLsb' 31 9 ≠ 0#9 → a.extractLsb' 31 9 ≠ 0x1FF#9 →
        Runs (.hSath u gx acc) s u (y.setReg gx (if a.getLsbD 39 then 0x8000#16 else 0x7FFF#16))) ∧
      Runs (.hMova u acc gx) s u (put ((y.reg gx).signExtend 40 <<< 16)) ∧
      Runs (.hClrAcc u acc) s u (put 0#40) ∧
      Runs (.hAdda u) s u { y with a0 := y.a0 + y.a1 })) ∧
  (∀ (s : State) (u : HAt) (acc : Bool) (gx gy : Nat), Issues s u [gx, gy] → gx < 16 → gy < 16 →
    let y := past s u
    let p := BitVec.ofInt 40 ((bankWord s u.b u.h ((y.reg gx).toNat % 4096)).toInt *
      (bankWord s u.b u.h (0x1000 + (y.reg gy).toNat % 4096)).toInt)
    let z := if acc then { y with a1 := y.a1 + p } else { y with a0 := y.a0 + p }
    (y.sm = true → Runs (.hMacd u acc gx gy) s u ((z.setReg gx (y.reg gx + 1)).setReg gy (y.reg gy + 1))) ∧
    (y.sm = false → y.trapAct = false → TrapsAt (.hMacd u acc gx gy) s u.b u.h 2 (s.hammer u.b u.h).pc))

/-- R198, R201, R204, R228, R231: a load from a bank puts the word into its register at once (with post-increment, the
pointer grows by one unless it is the loaded register); a load from the hearth window goes out once no store is left,
with its byte offset and its deadline, and nothing else changes; the register gets the two little-endian bytes when
the load returns. R204, R205, R317: the outstanding load of a hearth word returns the bytes at its offset, low byte
first, into its register, unless the word is known to be uncorrectable; with a decode error the register gets 0,
BUSERR (STAT bit 11) is set, the word is known to be uncorrectable, and with BETRAP = 0 no trap is taken. -/
def Obligations.HammerLoads : Prop :=
  (∀ (s : State) (u : HAt) (g ga : Nat) (x : Opd) (a : Nat), Issues s u [] → (s.hammer u.b u.h).load = none →
    (s.hammer u.b u.h).stores = [] → commitStalled s u.b u.h = false → g < 16 → ga < 16 →
    let y := past s u
    let pc := (s.hammer u.b u.h).pc
    (x.val y = BitVec.ofNat 16 a → a < 0x2000 → Runs (.hLd u g x) s u (y.setReg g (bankWord s u.b u.h a))) ∧
    (y.reg ga = BitVec.ofNat 16 a → a < 0x2000 → g ≠ ga →
      Runs (.hLdPostinc u g ga) s u ((y.setReg g (bankWord s u.b u.h a)).setReg ga (y.reg ga + 1))) ∧
    (y.reg ga = BitVec.ofNat 16 a → a < 0x2000 → g = ga →
      Runs (.hLdPostinc u g ga) s u (y.setReg g (bankWord s u.b u.h a))) ∧
    (x.val y = BitVec.ofNat 16 a → 0x2000 ≤ a → a < 0x8000 →
      let off := (fld (s.reg (haddr u.b u.h 0x10)) 6 0 * 16384 + 2 * (a - 0x2000)) % 2097152
      Runs (.hLd u g x) s u { y with load := some ⟨.reg g, .hearth off, false, pc, deadlineOf s u.b u.h, none⟩ }) ∧
    (y.reg ga = BitVec.ofNat 16 a → 0x2000 ≤ a → a < 0x8000 →
      let off := (fld (s.reg (haddr u.b u.h 0x10)) 6 0 * 16384 + 2 * (a - 0x2000)) % 2097152
      let out := fun (undo : Option (Nat × HWord)) =>
        { y with load := some ⟨.reg g, .hearth off, false, pc, deadlineOf s u.b u.h, undo⟩ }
      (g = ga → Runs (.hLdPostinc u g ga) s u (out none)) ∧
      (g ≠ ga → Runs (.hLdPostinc u g ga) s u ((out (some (ga, y.reg ga))).setReg ga (y.reg ga + 1))))) ∧
  (∀ (s : State) (b h g off pc : Nat) (d : Deadline) (undo : Option (Nat × HWord)), s.hasHammer b h = true →
    stepsAsked s = [] → g < 16 → (s.hammer b h).load = some ⟨.reg g, .hearth off, false, pc, d, undo⟩ →
    let y := { s.hammer b h with load := none }
    let w := (s.hread b off 2).getD 1 0#8 ++ (s.hread b off 2).getD 0 0#8
    (s.hbad b off 2 = false →
      ∃ t, Sys2Proof.Machine.exec (.loadReturn b h false) s = .next t ∧ SetsHammer s t b h (y.setReg g w)) ∧
    (beTrap s b h = false → ∃ t, Sys2Proof.Machine.exec (.loadReturn b h true) s = .next t ∧
      t.hammer b h = y.setReg g 0#16 ∧ t = { s with hammers := t.hammers, regs := t.regs, hearthBad := t.hearthBad } ∧
      t.hbad b off 2 = true ∧
      t.reg (haddr b h 4) = s.reg (haddr b h 4) ||| 0x800#32 ∧ ∀ a, a ≠ haddr b h 4 → t.reg a = s.reg a))

/-- R198, R201, R204, R231: a store to a bank writes that word and no other; a store to the hearth window is posted with
its byte offset behind the earlier ones while fewer than four wait; ST [ga++] stores the old value and then increments
the pointer. R204, R205: the oldest posted hearth store leaves the buffer and writes its two bytes, low byte first,
and no other; with a decode error it is discarded and BUSERR is set. -/
def Obligations.HammerStores : Prop :=
  (∀ (s : State) (u : HAt) (g ga : Nat) (x : Opd) (a : Nat), Issues s u (g :: ga :: Opd.regs x) → g < 16 → ga < 16 →
    let y := past s u
    let pc := (s.hammer u.b u.h).pc
    (x.val y = BitVec.ofNat 16 a → a < 0x2000 → ∃ t, Sys2Proof.Machine.exec (.hSt u x g) s = .next t ∧
      t = { s with hammers := t.hammers, banks := t.banks } ∧ HammerIs s t u.b u.h y ∧
      bankWord t u.b u.h a = y.reg g ∧
      ∀ b h i, hidx b h * 8192 + i % 8192 ≠ hidx u.b u.h * 8192 + a → bankWord t b h i = bankWord s b h i) ∧
    (y.reg ga = BitVec.ofNat 16 a → a < 0x2000 → ∃ t, Sys2Proof.Machine.exec (.hStPostinc u ga g) s = .next t ∧
      t = { s with hammers := t.hammers, banks := t.banks } ∧
      HammerIs s t u.b u.h (y.setReg ga (y.reg ga + 1)) ∧
      bankWord t u.b u.h a = y.reg g ∧
      ∀ b h i, hidx b h * 8192 + i % 8192 ≠ hidx u.b u.h * 8192 + a → bankWord t b h i = bankWord s b h i) ∧
    (x.val y = BitVec.ofNat 16 a → 0x2000 ≤ a → a < 0x8000 → y.stores.length < 4 →
      let off := (fld (s.reg (haddr u.b u.h 0x10)) 6 0 * 16384 + 2 * (a - 0x2000)) % 2097152
      Runs (.hSt u x g) s u
        { y with stores := y.stores ++ [⟨.half (y.reg g), .hearth off, pc, deadlineOf s u.b u.h, none⟩] }) ∧
    (y.reg ga = BitVec.ofNat 16 a → 0x2000 ≤ a → a < 0x8000 → y.stores.length < 4 →
      let off := (fld (s.reg (haddr u.b u.h 0x10)) 6 0 * 16384 + 2 * (a - 0x2000)) % 2097152
      let undo := some (ga, y.reg ga)
      Runs (.hStPostinc u ga g) s u (Hammer.setReg
        { y with stores := y.stores ++ [⟨.half (y.reg g), .hearth off, pc, deadlineOf s u.b u.h, undo⟩] }
        ga (y.reg ga + 1)))) ∧
  (∀ (s : State) (b h off pc : Nat) (v : HWord) (d : Deadline) (undo : Option (Nat × HWord)) (rest : List PendStore),
    s.hasHammer b h = true → stepsAsked s = [] →
    (s.hammer b h).stores = ⟨.half v, .hearth off, pc, d, undo⟩ :: rest → commitStalled s b h = false →
    off < 2097152 → off % 2 = 0 →
    let y := { s.hammer b h with stores := rest }
    (∃ t, Sys2Proof.Machine.exec (.storeComplete b h false) s = .next t ∧
      t = { s with hammers := t.hammers, hearth := t.hearth, hearthBad := t.hearthBad } ∧ HammerIs s t b h y ∧
      t.hbyte (b * 2097152 + off) = v.extractLsb' 0 8 ∧ t.hbyte (b * 2097152 + off + 1) = v.extractLsb' 8 8 ∧
      ∀ a, a ≠ b * 2097152 + off → a ≠ b * 2097152 + off + 1 → t.hbyte a = s.hbyte a) ∧
    (beTrap s b h = false → ∃ t, Sys2Proof.Machine.exec (.storeComplete b h true) s = .next t ∧
      t.hammer b h = y ∧ t = { s with hammers := t.hammers, regs := t.regs } ∧
      t.reg (haddr b h 4) = s.reg (haddr b h 4) ||| 0x800#32 ∧ ∀ a, a ≠ haddr b h 4 → t.reg a = s.reg a))

/-- R205, R222, R253: a remote load whose deadline has passed returns 0, a remote store is discarded; DLMISS (STAT bit 13)
is set and private interrupt 26 is pending, and with BETRAP = 0 no trap is taken. Before its deadline neither ends.
R240: with both table entries in the banks TLI writes y0 + floor(((y1 - y0) f + 128) / 256), where i = gs[15:8] and f
= gs[7:0], and changes nothing else. -/
def Obligations.HammerDeadlinesAndTli : Prop :=
  (∀ (s : State) (b h a pc g : Nat) (odd : Bool) (k : StoreKind) (d : Deadline) (undo : Option (Nat × HWord))
    (rest : List PendStore), s.hasHammer b h = true → stepsAsked s = [] → beTrap s b h = false →
    (s.ppendOf b h).testBit 26 = false →
    ((0x800000 ≤ a ∧ a < 0x900000) ∨ (a < s.n * 0x100000 ∧ a / 0x100000 ≠ b)) →
    let x := s.hammer b h
    (x.load = some ⟨.reg g, .reg a, odd, pc, d, undo⟩ →
      (deadPassed s d = true → Misses (.accessDeadlineMiss b h true) s b h ({ x with load := none }.setReg g 0#16)) ∧
      (deadPassed s d = false → Gives (.accessDeadlineMiss b h true) s s)) ∧
    (x.stores = ⟨k, .reg a, pc, d, undo⟩ :: rest →
      (deadPassed s d = true → Misses (.accessDeadlineMiss b h false) s b h { x with stores := rest }) ∧
      (deadPassed s d = false → Gives (.accessDeadlineMiss b h false) s s))) ∧
  (∀ (s : State) (u : HAt) (gd gs : Nat), Issues s u [gd, gs] → (s.hammer u.b u.h).load = none →
    let y := past s u
    let i := (y.reg gs).toNat / 256
    let f : Int := ((y.reg gs).toNat % 256 : Nat)
    let tbase := fld (s.reg (haddr u.b u.h 0x1C)) 15 0
    let y0 := (bankWord s u.b u.h (tbase + i)).toInt
    let y1 := (bankWord s u.b u.h (tbase + i + 1)).toInt
    tbase + i + 1 < 0x2000 →
    Runs (.hTli u gd gs) s u (y.setReg gd (BitVec.ofInt 16 (y0 + ((y1 - y0) * f + 128) / 256))))

/-- R208-R210, R239: SETB, CLRB and TGLB change the private bit they name and no other; STB writes the truth of its
register; MOVB, ANDB, ORB and XORB write 0 or 1 into their register from the bit and the register's truth. R211, R212,
R204, R333: a write of a far bit is posted like a store, behind the earlier ones while fewer than four wait, and names
bit (i and 31) of the register at its window's base; in a window with SPACE = 11 it changes nothing. Where the
register is remote the write takes one of the billet's 256 Flux transactions (IN_USE and PEAK), and with none free it
stalls, counted in FLX_STALL. -/
def Obligations.HammerBits : Prop :=
  (∀ (s : State) (u : HAt) (g n : Nat), Issues s u [g] → n < 256 → u.h < 16 →
    let y := past s u
    let c := nearRead s u.b u.h n
    let t0 := y.reg g != 0#16
    let w := fun (r : Bool) => y.setReg g (if r then 1#16 else 0#16)
    let sets := fun (c : Instr) (v : Bool) => ∃ t, Sys2Proof.Machine.exec c s = .next t ∧
      t = { s with hammers := t.hammers, privBits := t.privBits } ∧ HammerIs s t u.b u.h y ∧
      nearRead t u.b u.h n = v ∧
      ∀ b h i, i < 256 → (hidx b h, i) ≠ (hidx u.b u.h, n) → nearRead t b h i = nearRead s b h i
    sets (.hSetb u n) true ∧ sets (.hClrb u n) false ∧ sets (.hTglb u n) (!c) ∧ sets (.hStb u n g) t0 ∧
    Runs (.hMovb u g n) s u (w c) ∧ Runs (.hAndb u g n) s u (w (t0 && c)) ∧
    Runs (.hOrb u g n) s u (w (t0 || c)) ∧ Runs (.hXorb u g n) s u (w (t0 != c))) ∧
  (∀ (s : State) (u : HAt) (g n k : Nat), Issues s u [g] → k < 3 → 1024 + 1024 * k ≤ n → n < 2048 + 1024 * k →
    (s.hammer u.b u.h).stores.length < 4 →
    let y := past s u
    let i := n - 1024 - 1024 * k
    let w := s.reg (haddr u.b u.h (0x20 + 4 * k))
    let flx := u.b * 0x100000 + 0x80000
    let used := fld (s.reg flx) 8 0
    let posts := fun (c : Instr) (op : BitOp) =>
      (fld w 25 24 = 3 → Runs c s u y) ∧
      (∀ base, (fld w 25 24 = 0 ∧ base = u.b * 0x100000 ∨ fld w 25 24 = 1 ∧ base = fld w 23 21 * 0x100000 ∨
          fld w 25 24 = 2 ∧ base = 0x800000) →
        let out : Hammer := { y with lastEven := none, stores := y.stores ++
          [⟨.bit (i % 32) op, .reg ((base + fld w 19 7 * 128 + i / 32 * 4) % 2 ^ 24), (s.hammer u.b u.h).pc,
            deadlineOf s u.b u.h, none⟩] }
        let remote := base = 0x800000 ∨ (base / 0x100000 ≠ u.b ∧ s.present (base / 0x100000) = true)
        (¬ remote → Runs c s u out) ∧
        (remote → used < 256 → ∃ t, Sys2Proof.Machine.exec c s = .next t ∧ HammerIs s t u.b u.h out ∧
          t = { s with hammers := t.hammers, regs := t.regs } ∧
          t.reg flx = BitVec.ofNat 32 (max (used + 1) (fld (s.reg flx) 24 16) * 65536 + (used + 1)) ∧
          ∀ a, a ≠ flx → t.reg a = s.reg a) ∧
        (remote → 256 ≤ used → ∃ t, Sys2Proof.Machine.exec c s = .next t ∧ HammerIs s t u.b u.h (s.hammer u.b u.h) ∧
          t = { s with hammers := t.hammers, regs := t.regs } ∧ t.reg (flx + 4) = s.reg (flx + 4) + 1#32 ∧
          t.reg (flx + 0x10) = s.reg (flx + 0x10) ||| 1#32 ∧
          ∀ a, a ≠ flx + 4 → a ≠ flx + 0x10 → t.reg a = s.reg a))
    posts (.hSetb u n) .set ∧ posts (.hClrb u n) .clr ∧ posts (.hTglb u n) .tgl ∧
    posts (.hStb u n g) (if y.reg g = 0#16 then .clr else .set))

/-- R221, R222: a wait whose condition holds completes at once with DLMISS = 0 and NORUN = 0; another makes the hammer
WAITING at the wait instruction, with its deadline; a WAITL whose own port is not running ends with NORUN = 1 and
DLMISS = 1. R221, R222, R223: a WAITING hammer whose condition holds runs on after its wait with DLMISS = 0; one whose
deadline has passed does so with DLMISS = 1 (NORUN = 1 for a WAITB whose own port is not running), sets DLMISS in STAT
and raises private interrupt 26; before its deadline the wait goes on. -/
def Obligations.HammerWaits : Prop :=
  (∀ (s : State) (u : HAt) (g n : Nat) (v : Bool), Issues s u [g] → n < 256 → (s.hammer u.b u.h).stores = [] →
    commitStalled s u.b u.h = false →
    let x := s.hammer u.b u.h
    let y := past s u
    let p := s.port u.b (portSel s u.b u.h)
    let d := deadlineOf s u.b u.h
    let met := { y with dlMiss := false, noRun := false }
    let begins := fun (w : WaitFor) => { x with run := .waiting, wait := some ⟨w, u.words, d⟩ }
    (nearRead s u.b u.h n = v → Runs (.hWaitb u n v) s u met) ∧
    (nearRead s u.b u.h n ≠ v → Runs (.hWaitb u n v) s u (begins (.bit n v))) ∧
    (p.running = true → (x.reg g).toNat ≤ p.line → Runs (.hWaitl u g) s u met) ∧
    (p.running = true → p.line < (x.reg g).toNat → Runs (.hWaitl u g) s u (begins (.line (x.reg g).toNat))) ∧
    (p.running = false → (s.ppendOf u.b u.h).testBit 26 = false →
      Misses (.hWaitl u g) s u.b u.h { y with dlMiss := true, noRun := true })) ∧
  (∀ (s : State) (b h words : Nat) (d : Deadline) (w : WaitFor), s.hasHammer b h = true → stepsAsked s = [] →
    (s.hammer b h).run = .waiting → (s.hammer b h).wait = some ⟨w, words, d⟩ →
    let x := s.hammer b h
    let p := s.port b (portSel s b h)
    let ends := fun (miss nr : Bool) => { x with run := RunState.running, wait := none, dlMiss := miss, noRun := nr,
                                                 pc := (x.pc + words) % 2 ^ 14 }
    (∀ v, w = .line v → p.running = true → v ≤ p.line →
      ∃ t, Sys2Proof.Machine.exec (.waitConditionMet b h) s = .next t ∧ SetsHammer s t b h (ends false false)) ∧
    (∀ n v, w = .bit n v → n < 1024 → nearRead s b h n = v →
      ∃ t, Sys2Proof.Machine.exec (.waitConditionMet b h) s = .next t ∧ SetsHammer s t b h (ends false false)) ∧
    (∀ v, w = .line v → (p.running = false ∨ p.line < v) → Gives (.waitConditionMet b h) s s) ∧
    (deadPassed s d = false → Gives (.waitDeadline b h) s s) ∧
    (deadPassed s d = true → (s.ppendOf b h).testBit 26 = false → Misses (.waitDeadline b h) s b h (ends true (match w with
      | .line _ => false
      | .bit _ _ => !p.running))))

/-- R231, R243: BZ, BNZ, DJNZ, BR and JMP set the PC to their target where the condition on the register holds, and leave
it past the instruction otherwise; DJNZ first decrements, modulo 2^16. Native targets are absolute, g[13:0] or, in
class 00, lie in the quarter of the instruction. Nothing else changes. R215-R217, R243: CALL pushes SM, IE and the
address of the next instruction and jumps; RET pops the PC only; RETI pops PC and IE and keeps SM only where both are
1. With STKTRAP = 1 a CALL on a full stack and a RET or RETI on an empty one enter the STKOVF or STKUNF trap instead.
A RETI in a trap handler, at the stack level of its entry, returns from HMR_TRAP and clears TRAPACT. -/
def Obligations.HammerBranchesAndCalls : Prop :=
  (∀ (s : State) (u : HAt) (g gt k : Nat), Issues s u [g, gt] → g < 16 →
    let y := past s u
    let pc := (s.hammer u.b u.h).pc
    let v := y.reg g
    pc < 2 ^ 14 → k < 2 ^ 14 →
    ∀ (t : Tgt) (a : Nat),
      (t = .abs k ∧ a = k ∨ t = .reg gt ∧ a = (y.reg gt).toNat % 2 ^ 14 ∨
        t = .page k ∧ a = pc / 4096 * 4096 + k % 4096 ∨
        t = .pageReg gt ∧ a = pc / 4096 * 4096 + (y.reg gt).toNat % 4096 ∨
        t = .rel k ∧ k < 16 ∧ a = pc / 4096 * 4096 + (pc + 1 + k) % 4096 ∨
        t = .rel k ∧ 16 ≤ k ∧ k < 32 ∧ a = pc / 4096 * 4096 + (pc % 4096 + 1 + 4096 + k - 32) % 4096) →
      Runs (.hBz u g t) s u (if v = 0#16 then { y with pc := a } else y) ∧
      Runs (.hBnz u g t) s u (if v = 0#16 then y else { y with pc := a }) ∧
      Runs (.hBr u t) s u { y with pc := a } ∧
      Runs (.hJmp u t) s u { y with pc := a } ∧
      (t = .abs k ∨ (∃ r, t = .rel r) → Runs (.hDjnz u g t) s u
        (if v = 1#16 then y.setReg g 0#16 else { y.setReg g (v - 1) with pc := a }))) ∧
  (∀ (s : State) (u : HAt) (k : Nat), Issues s u [] → k < 2 ^ 14 →
    let y := past s u
    let top := Tbl.get (fun _ => 0#16) y.stack ((y.sp + 7) % 8)
    let tr := s.reg (haddr u.b u.h 0x2C)
    (stkTrap s u.b u.h = false ∨ y.depth < 8 → Runs (.hCall u (.abs k)) s u
      { y with stack := Tbl.set (fun _ => 0#16) y.stack y.sp (BitVec.ofNat 16 (b2n y.sm * 32768 + b2n y.ie * 16384 + y.pc)),
               sp := (y.sp + 1) % 8, depth := min 8 (y.depth + 1), pc := k }) ∧
    (stkTrap s u.b u.h = false ∨ y.depth ≠ 0 → Runs (.hRet u) s u
      { y with sp := (y.sp + 7) % 8, depth := y.depth - 1, pc := top.toNat % 2 ^ 14 }) ∧
    (y.trapAct = false ∨ y.sp ≠ fld tr 23 20 → stkTrap s u.b u.h = false ∨ y.depth ≠ 0 → Runs (.hReti u) s u
      { y with sp := (y.sp + 7) % 8, depth := y.depth - 1, pc := top.toNat % 2 ^ 14, ie := top.getLsbD 14,
               sm := y.sm && top.getLsbD 15 }) ∧
    (y.trapAct = true → y.sp = fld tr 23 20 → Runs (.hReti u) s u
      { y with pc := tr.toNat % 2 ^ 14, ie := tr.getLsbD 14, sm := y.sm && tr.getLsbD 15, trapAct := false }) ∧
    (stkTrap s u.b u.h = true → y.trapAct = false →
      (y.depth = 8 → TrapsAt (.hCall u (.abs k)) s u.b u.h 3 (s.hammer u.b u.h).pc) ∧
      (y.depth = 0 → TrapsAt (.hRet u) s u.b u.h 4 (s.hammer u.b u.h).pc ∧
        TrapsAt (.hReti u) s u.b u.h 4 (s.hammer u.b u.h).pc)))

/-- R193, R217, R230, R249, R250: NOP only moves the PC; EI and DI set and clear IE; HALT sleeps with IE = 1 and halts
with IE = 0 once every store has completed; SVC and TRAP enter their traps with the address of the following
instruction saved, an illegal encoding with its own; a trap while TRAPACT = 1 halts the hammer and sets DBLTRAP. -/
def Obligations.HammerSystem : Prop :=
  ∀ (s : State) (u : HAt), Issues s u [] → (s.hammer u.b u.h).stores = [] → commitStalled s u.b u.h = false →
    let x := s.hammer u.b u.h
    let y := past s u
    Runs (.hNop u) s u y ∧
    Runs (.hEi u) s u { y with ie := true } ∧
    Runs (.hDi u) s u { y with ie := false } ∧
    (y.ie = true → Runs (.hHalt u) s u { y with run := .sleeping }) ∧
    (y.ie = false → Runs (.hHalt u) s u { y with run := .halted }) ∧
    (x.trapAct = false →
      TrapsAt (.hSvc u) s u.b u.h 7 (x.pc + u.words) ∧
      TrapsAt (.hTrap u) s u.b u.h 6 (x.pc + u.words) ∧
      TrapsAt (.illegalEncoding u) s u.b u.h 1 x.pc) ∧
    (x.trapAct = true → ∀ c, c = .hSvc u ∨ c = .hTrap u ∨ c = .illegalEncoding u →
      ∃ t, Sys2Proof.Machine.exec c s = .next t ∧
        t.hammer u.b u.h = { y with run := .halted, wait := none, rptLeft := 0, pc := (t.hammer u.b u.h).pc } ∧
        (t.reg (haddr u.b u.h 4)).getLsbD 8 = true)

/-- R244: RPT #n runs the instruction that follows it n times and goes on after it (stated for ADD gd, #v, whose repeats
add n × v); one that may not be repeated raises ILLEGAL at the RPT. R245: each iteration of RPTI runs the following
instruction once and decrements the count; the PC stays on the RPTI while the count lasts and goes past both
instructions when it is 0, at once if it was 0 (stated for ADD gd, #v). -/
def Obligations.HammerRepeats : Prop :=
  (∀ (s : State) (u : HAt) (n gd w : Nat) (v : HWord), Issues s u [] → (s.hammer u.b u.h).load = none →
    (s.hammer u.b u.h).rptLeft = 0 → gd < 16 → u.words = 1 →
    let pc := (s.hammer u.b u.h).pc
    let y := past s u
    (decodeAt s u.b u.h (pc + 1) = (.alu .add gd (.imm v), w) →
      ∃ t, Sys2Proof.Machine.exec (.hRpt u n) s = .next t ∧ t = { s with hammers := t.hammers } ∧
        let z := t.hammer u.b u.h
        HammerIs s t u.b u.h { y with g := z.g, pc := z.pc, rptAt := 0 } ∧
        z.reg gd = y.reg gd + BitVec.ofNat 16 n * v ∧ (∀ g, g < 16 → g ≠ gd → z.reg g = y.reg g) ∧
        (n ≠ 0 → z.pc = (pc + 1 + w) % 2 ^ 14)) ∧
    ((decodeAt s u.b u.h (pc + 1)).1.repeatable = false → y.trapAct = false →
      TrapsAt (.hRpt u n) s u.b u.h 1 pc ∧ TrapsAt (.hRpti u gd) s u.b u.h 1 pc)) ∧
  (∀ (s : State) (u : HAt) (g gd w : Nat) (v : HWord), Issues s u [g] → (s.hammer u.b u.h).load = none → g < 16 →
    gd < 16 → g ≠ gd → u.words = 1 →
    let pc := (s.hammer u.b u.h).pc
    let y := past s u
    pc < 2 ^ 14 → decodeAt s u.b u.h (pc + 1) = (.alu .add gd (.imm v), w) → 0 < w → w < 3 →
    (y.reg g = 0#16 → Runs (.hRpti u g) s u { y with pc := (pc + 1 + w) % 2 ^ 14 }) ∧
    (y.reg g ≠ 0#16 → Runs (.hRpti u g) s u
      { (y.setReg gd (y.reg gd + v)).setReg g (y.reg g - 1) with
          pc := if y.reg g = 1#16 then (pc + 1 + w) % 2 ^ 14 else pc }))

/-- R246, R247, R200: one element of a string within the banks. MOVS copies a word and FILLS stores g12, and the pointers
they use and the count g15 move by one; CMPS stops at a difference and SCANS at a match without moving; a count of 0
does nothing. The PC stays on the string while elements remain. -/
def Obligations.HammerStrings : Prop :=
  ∀ (s : State) (u : HAt), Issues s u [12, 13, 14, 15] → (s.hammer u.b u.h).load = none →
    let x := s.hammer u.b u.h
    let y := past s u
    let src := (y.reg 13).toNat
    let dst := (y.reg 14).toNat
    let n := y.reg 15
    let go := fun (z : Hammer) => { z.setReg 15 (n - 1) with pc := if n = 1#16 then y.pc else x.pc }
    let both := go ((y.setReg 13 (y.reg 13 + 1)).setReg 14 (y.reg 14 + 1))
    let v := bankWord s u.b u.h src
    x.pc < 2 ^ 14 →
    (n = 0#16 → Runs (.hMovs u) s u y ∧ Runs (.hFills u) s u y ∧ Runs (.hCmps u) s u y ∧ Runs (.hScans u) s u y) ∧
    (n ≠ 0#16 → src < 0x2000 → dst < 0x2000 →
      (∀ c w z, (c = .hMovs u ∧ w = v ∧ z = both ∨ c = .hFills u ∧ w = y.reg 12 ∧ z = go (y.setReg 14 (y.reg 14 + 1))) →
        ∃ t, Sys2Proof.Machine.exec c s = .next t ∧ t = { s with hammers := t.hammers, banks := t.banks } ∧
          HammerIs s t u.b u.h z ∧ bankWord t u.b u.h dst = w ∧
          ∀ b h i, hidx b h * 8192 + i % 8192 ≠ hidx u.b u.h * 8192 + dst → bankWord t b h i = bankWord s b h i) ∧
      Runs (.hCmps u) s u (if v = bankWord s u.b u.h dst then both else y) ∧
      Runs (.hScans u) s u (if v = y.reg 12 then y else go (y.setReg 13 (y.reg 13 + 1))))

/-- R193, R194, R244: RUN written 1 starts a HALTED hammer at ENTRY with TRAPACT clear and does nothing in another state;
RUN written 0 halts it, or, within a RPT, asks it to halt at the end of its count; registers, accumulators, return
stack, IE and SM keep their values, and nothing else changes. R218, R219: SVC written 1 by host software puts a HALTED
keeper into service mode, by others or on a keeper that is not HALTED it does nothing; SVC written 0 ends service
mode; on another hammer than a keeper it does nothing. -/
def Obligations.HammerControl : Prop :=
  (∀ (s : State) (who : Who) (b h : Nat), s.hasHammer b h = true → Controls s who b h →
    let x := s.hammer b h
    (x.run = .halted → ∃ t, Sys2Proof.Machine.exec (.hammerRun who b h) s = .next t ∧
      SetsHammer s t b h { x with run := .running, pc := fld (s.reg (haddr b h 8)) 13 0, trapAct := false, rptLeft := 0 }) ∧
    (x.run ≠ .halted → Gives (.hammerRun who b h) s s) ∧
    (x.run ≠ .halted → x.run ≠ .off → ∃ t, Sys2Proof.Machine.exec (.hammerStop who b h) s = .next t ∧
      SetsHammer s t b h (if x.rptLeft = 0 then { x with run := .halted, wait := none, haltAsk := false }
        else { x with haltAsk := true })) ∧
    (x.run = .halted → Gives (.hammerStop who b h) s s)) ∧
  (∀ (s : State) (who : Who) (b h : Nat) (on : Bool), s.hasHammer b h = true → Controls s who b h →
    let x := s.hammer b h
    (h ≠ 0 → Gives (.serviceModeWrite who b h on) s s) ∧
    (h = 0 → on = false → ∃ t, Sys2Proof.Machine.exec (.serviceModeWrite who b h on) s = .next t ∧
      SetsHammer s t b h { x with sm := false }) ∧
    (h = 0 → on = true → x.run = .halted → who = .host →
      ∃ t, Sys2Proof.Machine.exec (.serviceModeWrite who b h on) s = .next t ∧ SetsHammer s t b h { x with sm := true }) ∧
    (h = 0 → on = true → (x.run ≠ .halted ∨ who ≠ .host) → Gives (.serviceModeWrite who b h on) s s))

/-- R195, R256: CTRL.RESET leaves the hammer HALTED at ENTRY with its registers, accumulators, stack, sticky bits (bit 626
among them), private pending bits and in-service slots clear, its core registers at reset but for the field ENTRY, and
the sources that were in its slots no longer in service; program memory, the banks, the private bits and every other
register, source and hammer keep their contents. R194: CTRL.STEP executes one instruction of a HALTED hammer and
leaves it HALTED (stated for a class-00 MOVI, whose word is written out from R230), and does nothing in another run
state. -/
def Obligations.HammerResetAndStep : Prop :=
  (∀ (s : State) (who : Who) (b h : Nat), s.hasHammer b h = true → Controls s who b h →
    (∀ l, l < 4 → (s.slot b h l).id < 1024) →
    let holds := fun (b' i : Nat) => ∃ l, l < 4 ∧ (s.slot b h l).valid = true ∧ 32 ≤ i ∧ (s.slot b h l).billet = b' ∧
      (s.slot b h l).id = i
    ∃ t, Sys2Proof.Machine.exec (.hammerReset who b h) s = .next t ∧
      HammerIs s t b h { Hammer.init (hidx b h) with pc := fld (s.reg (haddr b h 8)) 13 0 } ∧
      t.reg (haddr b h 8) = wd (fld (s.reg (haddr b h 8)) 13 0) ∧
      (∀ o, o < 0x80 → o ≠ 8 → t.reg (haddr b h o) = regReset s.variant (haddr b h o)) ∧
      t.reg (ctxAddr b h) = s.reg (ctxAddr b h) &&& ~~~4#32 ∧
      (∀ a, (a < haddr b h 0 ∨ haddr b h 0x80 ≤ a) → a ≠ ctxAddr b h → t.reg a = s.reg a) ∧
      t.stickyOf b h = 0 ∧ t.ppendOf b h = 0 ∧ (∀ l, l < 4 → t.slot b h l = Slot.init) ∧
      (∀ i, holds b i → (t.src b i).inSvc = false) ∧
      (∀ b' i, b' ≠ b → holds b' i → (t.src b' i).doneBack = true) ∧
      (∀ b' i, i < 1024 → ¬ holds b' i → t.src b' i = s.src b' i) ∧
      t = { s with regs := t.regs, hammers := t.hammers, sticky := t.sticky, ppend := t.ppend, slots := t.slots,
                   irq := t.irq }) ∧
  (∀ (s : State) (who : Who) (b h g imm5 : Nat), s.hasHammer b h = true → Controls s who b h → stepsAsked s = [] →
    g < 8 → imm5 < 32 →
    let x := s.hammer b h
    ((x.run = .halted) → (x.load = none) → x.trapDue = none → progWord s b h x.pc = BitVec.ofNat 14 (0b011 * 512 + g * 32 + imm5) →
      ∃ t, Sys2Proof.Machine.exec (.hammerStep who b h) s = .next t ∧ t = { s with hammers := t.hammers } ∧
        HammerIs s t b h ({ x with pc := (x.pc + 1) % 2 ^ 14, wait := none, haltAsk := false }.setReg g (BitVec.ofNat 16 imm5))) ∧
    (x.run ≠ .halted → Gives (.hammerStep who b h) s s))

/-- R197, R199, R194: each PMDATA and DMDATA access moves PMADDR or DMADDR on by one; a write changes the program word
(only while HALTED and not by the hammer itself, else PMERR) or bank word it names and no other. A DBGDATA write to a
HALTED hammer changes the item DBGSEL names, here a general register (0 to 15) or the PC (22), and reads change
nothing. -/
def Obligations.HammerDebugPorts : Prop :=
  ∀ (s : State) (who : Who) (b h : Nat) (v : Word), s.hasHammer b h = true → Controls s who b h →
    (∀ b' h', who = .hammer b' h' → b' = b ∧ h' = h) →
    let x := s.hammer b h
    let pa := fld (s.reg (haddr b h 0x30)) 13 0
    let da := fld (s.reg (haddr b h 0x38)) 12 0
    let sel := fld (s.reg (haddr b h 0x40)) 4 0
    let padv := setFld (s.reg (haddr b h 0x30)) 13 0 (pa + 1)
    let dadv := setFld (s.reg (haddr b h 0x38)) 12 0 (da + 1)
    (∃ t, Sys2Proof.Machine.exec (.pmdataAccess who b h none) s = .next t ∧ SetsReg s t (haddr b h 0x30) padv) ∧
    (∃ t, Sys2Proof.Machine.exec (.dmdataAccess who b h none) s = .next t ∧ SetsReg s t (haddr b h 0x38) dadv) ∧
    (x.run = .halted → who ≠ .hammer b h → ∃ t, Sys2Proof.Machine.exec (.pmdataAccess who b h (some v)) s = .next t ∧
      SetsReg s { t with progMem := s.progMem } (haddr b h 0x30) padv ∧
      progWord t b h pa = v.extractLsb' 0 14 ∧
      ∀ b' h' a, hidx b' h' * 16384 + a % 16384 ≠ hidx b h * 16384 + pa → progWord t b' h' a = progWord s b' h' a) ∧
    (x.run ≠ .halted ∨ who = .hammer b h → ∃ t, Sys2Proof.Machine.exec (.pmdataAccess who b h (some v)) s = .next t ∧
      t.reg (haddr b h 0x30) = padv ∧ t.reg (haddr b h 4) = s.reg (haddr b h 4) ||| 0x1000#32 ∧
      (∀ a, a ≠ haddr b h 0x30 → a ≠ haddr b h 4 → t.reg a = s.reg a) ∧ t = { s with regs := t.regs }) ∧
    (∃ t, Sys2Proof.Machine.exec (.dmdataAccess who b h (some v)) s = .next t ∧
      SetsReg s { t with banks := s.banks } (haddr b h 0x38) dadv ∧
      bankWord t b h da = v.extractLsb' 0 16 ∧
      ∀ b' h' a, hidx b' h' * 8192 + a % 8192 ≠ hidx b h * 8192 + da → bankWord t b' h' a = bankWord s b' h' a) ∧
    Gives (.dbgdataAccess who b h none) s s ∧
    (x.run ≠ .halted → Gives (.dbgdataAccess who b h (some v)) s s) ∧
    (x.run = .halted → sel < 16 → ∃ t, Sys2Proof.Machine.exec (.dbgdataAccess who b h (some v)) s = .next t ∧
      SetsHammer s t b h (x.setReg sel (v.extractLsb' 0 16))) ∧
    (x.run = .halted → sel = 22 → ∃ t, Sys2Proof.Machine.exec (.dbgdataAccess who b h (some v)) s = .next t ∧
      SetsHammer s t b h { x with pc := (v.extractLsb' 0 14).toNat })

/-- R214, R219: a write of a hammer's control, debug or program registers by a hammer that may not make it is ignored and
sets PRIVERR (STAT bit 10) in the writer; nothing else changes. R214: PIO_OWNj takes a write at once from host
software and from the billet's own keeper in service mode, with its reserved bits reading 0; from any other hammer it
is ignored and sets PRIVERR in that hammer. -/
def Obligations.ForbiddenWrites : Prop :=
  (∀ (s : State) (b h b' h' : Nat) (v : Word) (on : Bool), s.hasHammer b h = true → stepsAsked s = [] →
    ¬ Controls s (.hammer b' h') b h → (s.hammer b h).run = .halted →
    ∀ c, c = .hammerRun (.hammer b' h') b h ∨ c = .hammerStop (.hammer b' h') b h ∨ c = .hammerReset (.hammer b' h') b h ∨
        c = .hammerStep (.hammer b' h') b h ∨ c = .serviceModeWrite (.hammer b' h') b h on ∨
        c = .pmdataAccess (.hammer b' h') b h (some v) ∨ c = .dmdataAccess (.hammer b' h') b h (some v) ∨
        c = .dbgdataAccess (.hammer b' h') b h (some v) →
      ∃ t, Sys2Proof.Machine.exec c s = .next t ∧
        SetsReg s t (haddr b' h' 4) (s.reg (haddr b' h' 4) ||| 0x400#32)) ∧
  (∀ (s : State) (b j b' h' : Nat) (v : Word), s.present b = true → j < 12 →
    let a := b * 0x100000 + 0xA0F00 + 4 * j
    (∃ t, Sys2Proof.Machine.exec (.pioOwnWrite .host b j v) s = .next t ∧ SetsReg s t a (v &&& 0x8F8F8F8F#32)) ∧
    ((s.hammer b 0).sm = true →
      ∃ t, Sys2Proof.Machine.exec (.pioOwnWrite (.hammer b 0) b j v) s = .next t ∧ SetsReg s t a (v &&& 0x8F8F8F8F#32)) ∧
    (¬ (b' = b ∧ h' = 0 ∧ (s.hammer b 0).sm = true) →
      ∃ t, Sys2Proof.Machine.exec (.pioOwnWrite (.hammer b' h') b j v) s = .next t ∧
        SetsReg s t (haddr b' h' 4) (s.reg (haddr b' h' 4) ||| 0x400#32)))

/-- R259, R260: the winner at a hammer is the eligible source of highest priority and among equals the lowest ID; there is
one exactly when some source is eligible. -/
def Obligations.InterruptWinner : Prop :=
  ∀ (s : State) (b h : Nat),
    (∀ c, winner s b h = some c ↔ Wins s b h c) ∧
    (winner s b h = none ↔ ∀ c, ¬ Eligible s b h c)

/-- R216, R223, R260, R261: at a boundary a RUNNING, WAITING or SLEEPING hammer with IE = 1 and a winner pushes PC, IE and
SM, clears IE and goes to VBASE + 0x40 + 8 × priority, without a claim; with STKTRAP = 1 and a full stack it takes the
STKOVF trap. A HALTED hammer, one inside a repeat or asked to halt, one with IE = 0 and one without an eligible source
accept nothing. -/
def Obligations.InterruptEntry : Prop :=
  ∀ (s : State) (b h : Nat) (c : Cand), s.hasHammer b h = true →
    let x := s.hammer b h
    let open' := x.ie = true ∧ x.run ≠ .halted ∧ x.run ≠ .off ∧ x.rptLeft = 0 ∧ x.haltAsk = false
    (open' → Wins s b h c → (stkTrap s b h = false ∨ x.depth ≠ 8) →
      ∃ t, Sys2Proof.Machine.exec (.interruptAccept b h) s = .next t ∧
        SetsHammer s t b h
          { x with run := .running, wait := none, ie := false,
                   stack := Tbl.set (fun _ => 0#16) x.stack x.sp (BitVec.ofNat 16 (b2n x.sm * 32768 + 16384 + x.pc % 16384)),
                   sp := (x.sp + 1) % 8, depth := min 8 (x.depth + 1),
                   pc := (fld (s.reg (haddr b h 8)) 29 22 * 64 + 0x40 + 8 * c.1) % 2 ^ 14 }) ∧
    (open' → Wins s b h c → stkTrap s b h = true → x.depth = 8 → x.trapAct = false → x.run = .running → x.trapDue = none →
      TrapsAt (.interruptAccept b h) s b h 3 x.pc) ∧
    (¬ open' ∨ (∀ d, ¬ Eligible s b h d) → Gives (.interruptAccept b h) s s)

/-- R264: a claim puts the winner into the in-service slot of its priority with WITHDRAWN = 0 and clears its pending
state: a private bit, or the latch of an edge-sensed source of the own billet. With no eligible source only SPURCNT
grows by one. R266: COMPLETE of an ID in service clears the slot that holds it; an ID in no slot only sets CMPERR
(ISTAT bit 4); 0 is ignored. -/
def Obligations.InterruptClaimAndComplete : Prop :=
  (∀ (s : State) (b h : Nat) (c : Cand), s.hasHammer b h = true →
    ((∀ d, ¬ Eligible s b h d) → ∃ t, Sys2Proof.Machine.exec (.claim b h) s = .next t ∧
      SetsReg s t (haddr b h 0x68) (setFld (s.reg (haddr b h 0x68)) 31 16 (fld (s.reg (haddr b h 0x68)) 31 16 + 1))) ∧
    (Wins s b h c → ∃ t, Sys2Proof.Machine.exec (.claim b h) s = .next t ∧
      t = { s with slots := t.slots, ppend := t.ppend, irq := t.irq } ∧
      t.slot b h c.1 = ⟨true, false, c.2.2, c.2.1⟩ ∧
      (∀ b' h' l, 4 * hidx b' h' + l ≠ 4 * hidx b h + c.1 → t.slot b' h' l = s.slot b' h' l) ∧
      (c.2.1 < 32 → t.irq = s.irq ∧
        ∀ b' h' i, (t.ppendOf b' h').testBit i =
          ((s.ppendOf b' h').testBit i && !(hidx b' h' == hidx b h && i == c.2.1))) ∧
      (32 ≤ c.2.1 → c.2.2 = b → t.ppend = s.ppend ∧ (t.src b c.2.1).inSvc = true ∧
        (isEdge (srcSense s b c.2.1) = true → (t.src b c.2.1).pend = false)) ∧
      (32 ≤ c.2.1 → c.2.2 ≠ b → t.ppend = s.ppend ∧ (t.src c.2.2 c.2.1).atTarget = false))) ∧
  (∀ (s : State) (b h id l : Nat), s.hasHammer b h = true → id < 1024 →
    Gives (.complete b h 0) s s ∧
    (id ≠ 0 → (∀ k, k < 4 → (s.slot b h k).valid = true → (s.slot b h k).id ≠ id) →
      ∃ t, Sys2Proof.Machine.exec (.complete b h id) s = .next t ∧
        SetsReg s t (haddr b h 0x68) (s.reg (haddr b h 0x68) ||| 0x10#32)) ∧
    (id ≠ 0 → l < 4 → (s.slot b h l).valid = true → (s.slot b h l).id = id →
      (∀ k, k < 4 → k ≠ l → (s.slot b h k).valid = true → (s.slot b h k).id ≠ id) →
      ∃ t, Sys2Proof.Machine.exec (.complete b h id) s = .next t ∧ t = { s with slots := t.slots, irq := t.irq } ∧
        t.slot b h l = Slot.init ∧ (∀ b' h' k, 4 * hidx b' h' + k ≠ 4 * hidx b h + l → t.slot b' h' k = s.slot b' h' k) ∧
        (32 ≤ id → (s.slot b h l).billet = b → (t.src b id).inSvc = false)))

/-- R255-R257: sensing a level source takes its input as it stands; an edge-sensed source of a kind other than pulse
latches the change its SENSE names, and an event that finds the latch set is merged and counted in IC_LOSTCNT with the
ID in IC_LOSTID. R263, R268: an exchange for a source carries a claim and a completion made at a remote target back to
the source's billet, also once the source has a target of its own billet, and carries its pending state out to a
remote target. -/
def Obligations.InterruptSensing : Prop :=
  (∀ (s : State) (b id : Nat), s.present b = true → 32 ≤ id → id < 1024 → isPulse id = false →
    let x := s.src b id
    let v := srcInput s b id
    let sense := fld (s.reg (b * 0x100000 + 0x50000 + 4 * id)) 30 28
    let ev := (sense = 2 ∧ x.level = false ∧ v = true) ∨ (sense = 3 ∧ x.level = true ∧ v = false) ∨
      (sense = 4 ∧ x.level ≠ v)
    (ev → x.pend = false → ∃ t, Sys2Proof.Machine.exec (.irqSourceSense b id) s = .next t ∧
      t = { s with irq := t.irq } ∧ t.src b id = { x with level := v, pend := true } ∧
      ∀ b' i, 1024 * b' + i ≠ 1024 * b + id → t.src b' i = s.src b' i) ∧
    (ev → x.pend = true → ∃ t, Sys2Proof.Machine.exec (.irqSourceSense b id) s = .next t ∧
      t = { s with irq := t.irq, regs := t.regs } ∧ t.src b id = { x with level := v } ∧
      t.reg (b * 0x100000 + 0x51200) = s.reg (b * 0x100000 + 0x51200) + 1 ∧
      t.reg (b * 0x100000 + 0x51204) = BitVec.ofNat 32 id) ∧
    (¬ ev → 2 ≤ sense → sense ≤ 4 → ∃ t, Sys2Proof.Machine.exec (.irqSourceSense b id) s = .next t ∧
      t = { s with irq := t.irq } ∧ t.src b id = { x with level := v }) ∧
    (sense ≤ 1 → x.inSvc = false → ∃ t, Sys2Proof.Machine.exec (.irqSourceSense b id) s = .next t ∧
      t = { s with irq := t.irq } ∧ t.src b id = { x with level := v, fresh := x.fresh || (v != (sense == 1)) })) ∧
  (∀ (s : State) (b id : Nat), s.present b = true → 32 ≤ id → id < 1024 →
    let x := s.src b id
    ∃ t, Sys2Proof.Machine.exec (.irqStateMessage b id) s = .next t ∧ t = { s with irq := t.irq, slots := t.slots } ∧
      (∀ b' i, 1024 * b' + i ≠ 1024 * b + id → t.src b' i = s.src b' i) ∧
      (t.src b id).claimBack = false ∧ (t.src b id).doneBack = false ∧ (t.src b id).level = x.level ∧
      (srcTBillet s b id = b → (t.src b id).atTarget = false) ∧
      (x.claimBack = false → x.doneBack = false → x.inSvc = false →
        t.slots = s.slots ∧ (t.src b id).pend = x.pend ∧ (t.src b id).inSvc = false ∧ (t.src b id).fresh = x.fresh ∧
        (srcTBillet s b id ≠ b → (t.src b id).atTarget = srcOpen s b id)) ∧
      (x.claimBack = true → x.doneBack = false → (t.src b id).inSvc = true ∧ (t.src b id).pend = false) ∧
      (x.doneBack = true → (t.src b id).inSvc = false ∧ (t.src b id).fresh = false))

/-- R254, R256, R258, R268: IC_SRC keeps the fields written and W1C of PEND clears the latch; a new SENSE clears it and
loads the edge detector with the present input; a new target takes the pending state from the old one. Software
sources take the bits written 1, set or cleared, and private software bits raise IDs 28 to 31. -/
def Obligations.InterruptRegisterWrites : Prop :=
  ∀ (s : State) (b i j h : Nat) (v : Word), s.present b = true → 32 ≤ i → i < 1024 → j < 16 → h < 16 →
    let a := b * 0x100000 + 0x50000 + 4 * i
    let old := s.reg a
    let x := s.src b i
    let sw := b * 0x100000 + 0x51100 + 4 * j
    (∃ t, Sys2Proof.Machine.exec (.icSrcWrite b i v) s = .next t ∧ t = { s with irq := t.irq, regs := t.regs } ∧
      SetsReg s { t with irq := s.irq } a (v &&& 0xFC00070F#32) ∧
      (∀ b' k, 1024 * b' + k ≠ 1024 * b + i → t.src b' k = s.src b' k) ∧
      (fld old 30 28 = fld v 30 28 → (t.src b i).pend = (x.pend && !v.getLsbD 25) ∧ (t.src b i).level = x.level) ∧
      (fld old 30 28 ≠ fld v 30 28 → (t.src b i).pend = false ∧ (t.src b i).level = srcInput t b i) ∧
      ((fld old 10 8 ≠ fld v 10 8 ∨ fld old 3 0 ≠ fld v 3 0) → (t.src b i).atTarget = false)) ∧
    (∃ t, Sys2Proof.Machine.exec (.softwareSourceSet b j v) s = .next t ∧ SetsReg s t sw (s.reg sw ||| v)) ∧
    (∃ t, Sys2Proof.Machine.exec (.softwareSourceClear b j v) s = .next t ∧ SetsReg s t sw (s.reg sw &&& ~~~v)) ∧
    ((∀ k, k < 4 → (s.ppendOf b h).testBit (28 + k) = false) →
      ∃ t, Sys2Proof.Machine.exec (.privateSoftwareSet b h v) s = .next t ∧ t = { s with ppend := t.ppend } ∧
        (∀ n, (t.ppendOf b h).testBit n =
          ((s.ppendOf b h).testBit n || (decide (28 ≤ n) && decide (n < 32) && v.getLsbD (n - 28)))) ∧
        ∀ b' h', hidx b' h' ≠ hidx b h → t.ppendOf b' h' = s.ppendOf b' h')

/-- R13, R14: a write, by a unit or a hammer, of a register without behaviour of its own (Ember, the parameters of Swage,
the memory and arbiter settings) gives every RW and RWS bit the bit written, clears the W1C bits and sets the W1S bits
written 1, and leaves every other bit; where no register stands it does nothing (R39). Host software's write, with no
earlier one waiting and no commit of its own waiting for entries, does the same and makes prefetched words stale
(R490, R495). -/
def Obligations.RegisterWriteByAccessType : Prop :=
  ∀ (s : State) (who : Who) (b off : Nat) (v : Word), accessible s = true → s.present b = true → stepsAsked s = [] →
    off % 4 = 0 → isHeld s b off = false →
    (0xC0000 ≤ off ∧ off < 0xD0000) ∨ (0x60000 < off ∧ off < 0x68000 ∧ off ≠ 0x60100) ∨
      (0x70004 ≤ off ∧ off < 0x80000 ∧ off ≠ 0x70800 ∧ off ≠ 0x70804) →
    (who = .host → s.hostPort.posted = [] ∧ hostStalled s = false) →
    let a := b * 0x100000 + off
    ∃ t, Sys2Proof.Machine.exec (.registerWrite who a v) s = .next t ∧
      t = { s with regs := t.regs, dports := t.dports } ∧ (∀ a', a' ≠ a → t.reg a' = s.reg a') ∧
      (regRow s.variant a = none → t.reg a = s.reg a) ∧
      (∀ r, regRow s.variant a = some r → ∀ i, i < 32 →
        (r.w1s.testBit i = true → v.getLsbD i = true → (t.reg a).getLsbD i = true) ∧
        (r.w1s.testBit i = false → r.w1c.testBit i = true → v.getLsbD i = true → (t.reg a).getLsbD i = false) ∧
        (r.w1s.testBit i = false → r.w1c.testBit i = false → (r.rw ||| r.rws).testBit i = true →
          (t.reg a).getLsbD i = v.getLsbD i) ∧
        ((v.getLsbD i = false ∨ (r.w1s.testBit i = false ∧ r.w1c.testBit i = false)) → (r.rw ||| r.rws).testBit i = false →
          (t.reg a).getLsbD i = (s.reg a).getLsbD i)) ∧
      (who ≠ .host → t.dports = s.dports) ∧
      (who = .host → ∀ k, t.dport k = { s.dport k with pref := if k < 4 then [] else (s.dport k).pref })

/-- R62, R447, R455, R459, R359: the read that latches gives the accessor's latch set the rest of the value, as it stands
at the read: line and frame of a beam stamp, the high half of the tick, a capture record, a count, a snapshot or
TUY_FRAME. Nothing but latches changes. -/
def Obligations.LatchingReads : Prop :=
  ∀ (s : State) (who : Who) (b p c k : Nat) (snap : Bool), s.present b = true → p ≤ 4 → c < 16 → k < 16 →
    let st := stampOf s b p
    let sa := b * 0x100000 + (if p < 4 then 0x140 + 0x100 * p else 0x40)
    let x := s.capture b c
    let ca := b * 0x100000 + 0xA1800 + 0x20 * c
    let y := s.tally b k
    (∃ t, Sys2Proof.Machine.exec (.beamStampLatchRead who b p) s = .next t ∧ t = { s with latches := t.latches } ∧
      t.latched who b (sa + 4) = BitVec.ofNat 32 st.2.2 ∧
      t.latched who b (sa + 8) = BitVec.ofNat 32 (st.2.2 / 2 ^ 32 % 2 ^ 16)) ∧
    (∃ t, Sys2Proof.Machine.exec (.tickLatchRead who b) s = .next t ∧ t = { s with latches := t.latches } ∧
      t.latched who b (b * 0x100000 + 0xA0804) = BitVec.ofNat 32 (s.tick / 2 ^ 32)) ∧
    (∃ t, Sys2Proof.Machine.exec (.captureLatchRead who b c) s = .next t ∧ t = { s with latches := t.latches } ∧
      t.latched who b (ca + 0xC) = BitVec.ofNat 32 (x.tick / 2 ^ 32) ∧
      t.latched who b (ca + 0x10) = BitVec.ofNat 32 (x.dot % 2 ^ 16 + 2 ^ 16 * (x.line % 2 ^ 16)) ∧
      t.latched who b (ca + 0x14) = BitVec.ofNat 32 x.frame ∧
      t.latched who b (ca + 0x18) = BitVec.ofNat 32 (x.frame / 2 ^ 32 % 2 ^ 16)) ∧
    (∃ t, Sys2Proof.Machine.exec (.tallyLatchRead who b k snap) s = .next t ∧ t = { s with latches := t.latches } ∧
      t.latched who b (b * 0x100000 + 0xB0000 + 0x20 * k + (if snap then 0x10 else 8)) =
        BitVec.ofNat 32 ((if snap then y.snap else y.cnt) / 2 ^ 32 % 2 ^ 16)) ∧
    (∃ t, Sys2Proof.Machine.exec (.tuyereFrameRead who) s = .next t ∧ t = { s with latches := t.latches } ∧
      t.latched who 0 0x80800C = BitVec.ofNat 32 (s.tuy.k / 2 ^ 32))

/-- R24-R26, R33: a write of a line-latched register by an originator whose context does not hold is issued as one commit
with the tick as its issue tick, for the line after the next, or for TGT_LINE where TGT_EN is set: late to the line
after the next when that is the next line, whose seal has passed, late to line 0 of the next frame when there is no
such line (and to the line after it when that is the next line). Where the context holds, it is collected, up to 64
writes; the 65th closes the group, sets GRP_OVF and issues by itself. R25, R85, R33: a write through the broadcast
alias to a line-latched register becomes one commit that addresses every billet; elsewhere it is discarded, and one to
a live register is recorded in HST_ERR. HOLD set starts a group; HOLD cleared issues what was collected as one commit. -/
def Obligations.LineCommits : Prop :=
  (∀ (s : State) (who : Who) (addr : Nat) (v : Word), addr < 0x800000 → s.present (addr / 0x100000) = true →
    latchedMask s.variant (addr % 0x100000) ≠ 0 →
    let b := (ctxOf who).1
    let k := (ctxOf who).2
    let key := 32 * b + k
    let r := s.reg (b * 0x100000 + 0x80F40 + 4 * k)
    let w : CWrite := { all := false, addr := addr, val := v }
    let l1 := lineAfter s (s.beam.frame, s.beam.line)
    let l2 := lineAfter s l1
    let tl := fld r 31 16
    let tf := if s.beam.line < tl then s.beam.frame else (s.beam.frame + 1) % 2 ^ 48
    let c := Instr.lineCommitIssue who addr v
    (16 < k → ∃ t, Sys2Proof.Machine.exec c s = .next t ∧ IssuesAs s t b k [w] l2 false ∧ t.commits.held = s.commits.held) ∧
    (k ≤ 16 → r.getLsbD 0 = false →
      (r.getLsbD 1 = false →
        ∃ t, Sys2Proof.Machine.exec c s = .next t ∧ IssuesAs s t b k [w] l2 false ∧ t.commits.held = s.commits.held) ∧
      (r.getLsbD 1 = true → s.beam.vtotal ≤ tl → ∃ t, Sys2Proof.Machine.exec c s = .next t ∧
        IssuesAs s t b k [w] (if l1 = ((s.beam.frame + 1) % 2 ^ 48, 0) then l2 else ((s.beam.frame + 1) % 2 ^ 48, 0)) true) ∧
      (r.getLsbD 1 = true → tl < s.beam.vtotal → (tf, tl) = l1 →
        ∃ t, Sys2Proof.Machine.exec c s = .next t ∧ IssuesAs s t b k [w] l2 true) ∧
      (r.getLsbD 1 = true → tl < s.beam.vtotal → (tf, tl) ≠ l1 →
        ∃ t, Sys2Proof.Machine.exec c s = .next t ∧ IssuesAs s t b k [w] (tf, tl) false)) ∧
    (k ≤ 16 → r.getLsbD 0 = true → isSingle s key = false → (heldOf s key).length < 64 →
      ∃ t, Sys2Proof.Machine.exec c s = .next t ∧ t = { s with commits := { s.commits with held := t.commits.held } } ∧
        heldOf t key = heldOf s key ++ [w] ∧ ∀ j, j ≠ key → heldOf t j = heldOf s j) ∧
    (k ≤ 16 → r.getLsbD 0 = true → isSingle s key = false → 64 ≤ (heldOf s key).length →
      ∃ t, Sys2Proof.Machine.exec c s = .next t ∧ t.commits.next = s.commits.next + 2 ∧ heldOf t key = [] ∧
        (t.reg (b * 0x100000 + 0x80F40 + 4 * k)).getLsbD 2 = true)) ∧
  (∀ (s : State) (who : Who) (off b k : Nat) (v : Word), s.present b = true → (k < 16 ∨ (k = 16 ∧ b = 0)) →
    let ob := (ctxOf who).1
    let ok := (ctxOf who).2
    let a := b * 0x100000 + 0x80F40 + 4 * k
    let key := 32 * b + k
    (inLatchedBlocks off = false ∨ off % 4 ≠ 0 → Gives (.broadcastAliasWrite who off v) s s) ∧
    (isLive off = true → off % 4 = 0 → ∃ t, Sys2Proof.Machine.exec (.broadcastAliasWrite who off v) s = .next t ∧
      t = { s with regs := t.regs } ∧ t.reg 0x810004 = s.reg 0x810004 ||| 2#32 ∧
      t.reg 0x81000C = BitVec.ofNat 32 (0x900000 + off) ∧
      ∀ x, x ≠ 0x810004 → x ≠ 0x81000C → t.reg x = s.reg x) ∧
    (latchedMask s.variant off ≠ 0 → off % 4 = 0 →
      (16 < ok ∨ (s.reg (ob * 0x100000 + 0x80F40 + 4 * ok) &&& 3#32) = 0#32) →
      ∃ t, Sys2Proof.Machine.exec (.broadcastAliasWrite who off v) s = .next t ∧
        t.commits.next = s.commits.next + 1 ∧ t = { s with commits := t.commits, regs := t.regs, reflexWait := t.reflexWait } ∧
        ∃ c ∈ t.commits.live, c.id = s.commits.next ∧ c.tick = s.tick ∧ c.writes = [{ all := true, addr := off, val := v }] ∧
          (c.frame, c.line) = lineAfter s (lineAfter s (s.beam.frame, s.beam.line)) ∧ c.addressed s.n = upto s.n) ∧
    (∃ t, Sys2Proof.Machine.exec (.commitHold b k) s = .next t ∧ t.reg a = s.reg a ||| 1#32 ∧
      (∀ x, x ≠ a → t.reg x = s.reg x) ∧ isSingle t key = false ∧
      t = { s with regs := t.regs, commits := { s.commits with single := t.commits.single } }) ∧
    (heldOf s key = [] → ∃ t, Sys2Proof.Machine.exec (.commitGroupIssue b k) s = .next t ∧
      t.reg a = s.reg a &&& ~~~1#32 ∧ (∀ x, x ≠ a → t.reg x = s.reg x) ∧ t.commits.live = s.commits.live) ∧
    (heldOf s key ≠ [] → (s.reg a).getLsbD 1 = false →
      ∃ t, Sys2Proof.Machine.exec (.commitGroupIssue b k) s = .next t ∧
        IssuesAs { s with regs := t.regs } t b k (heldOf s key) (lineAfter s (lineAfter s (s.beam.frame, s.beam.line))) false ∧
        t.reg a = s.reg a &&& ~~~1#32 ∧ heldOf t key = []))

/-- R334, R33, R26, R31: COMMIT_ACCEPT accepts the waiting commit when no earlier one of its context waits and every
addressed billet has the entries; the originating billet holds it from then on. Otherwise it waits. A delivery adds
the billet to those that have the commit, and a poisoned one marks it and is counted. R27, R335: the seal of the next
line publishes what every billet has received; a set is taken in without more while others are missing. With the last
one, the commits of the line that every addressed billet received become ready, the poisoned ones are discarded, and
the others move to the line after. -/
def Obligations.CommitDeliveryAndSeal : Prop :=
  (∀ (s : State) (c : Commit) (b : Nat) (pz : Bool), c ∈ s.commits.live → (∀ d ∈ s.commits.live, d.id = c.id → d = c) →
    let rest := s.setLive (s.commits.live.filter (fun d => d.id ≠ c.id))
    let fits := stalledBehind s c = false ∧ storeRoom rest c = true
    let got := { c with recv := c.recv ++ [b], poisoned := c.poisoned || pz }
    (c.accepted = false → fits → ∃ t, Sys2Proof.Machine.exec (.commitAccept c.id) s = .next t ∧
      t = { s with commits := { s.commits with live := t.commits.live }, reflexWait := t.reflexWait } ∧
      { c with accepted := true, recv := [c.billet] } ∈ t.commits.live ∧
      t.commits.live.map (·.id) = s.commits.live.map (·.id) ∧
      ∀ d, d.id ≠ c.id → (d ∈ t.commits.live ↔ d ∈ s.commits.live)) ∧
    ((c.accepted = true ∨ ¬ fits) → Gives (.commitAccept c.id) s s) ∧
    (c.accepted = true → s.present b = true → (c.addressed s.n).contains b = true → b ∉ c.recv →
      ∃ t, Sys2Proof.Machine.exec (.commitReceive c.id b pz) s = .next t ∧
        t = { s with commits := { s.commits with live := t.commits.live }, regs := t.regs } ∧ got ∈ t.commits.live ∧
        (∀ d, d.id ≠ c.id → (d ∈ t.commits.live ↔ d ∈ s.commits.live)) ∧
        (pz = false → t.regs = s.regs) ∧
        (pz = true → t.reg (b * 0x100000 + 0x8000C) = s.reg (b * 0x100000 + 0x8000C) + 1#32 ∧
          t.reg (b * 0x100000 + 0x80010) = s.reg (b * 0x100000 + 0x80010) ||| 4#32))) ∧
  (∀ (s : State) (dst src : Nat) (fl : Nat × Nat), s.present dst = true → s.present src = true → dst ≠ src →
    let nl := lineAfter s (s.beam.frame, s.beam.line)
    let got := if s.commits.got.contains (dst, src) then s.commits.got else s.commits.got ++ [(dst, src)]
    let mine := fun c : Commit => c.frame = fl.1 ∧ c.line = fl.2
    let nx := lineAfter s fl
    (∃ t, Sys2Proof.Machine.exec .sealPublish s = .next t ∧ t = { s with commits := t.commits } ∧
      t.commits.sealOf = some nl ∧ t.commits.got = [] ∧ t.commits.judged = false ∧ t.commits.ready = [] ∧
      t.commits.live.map (·.id) = s.commits.live.map (·.id) ∧
      ∀ c ∈ s.commits.live, ((c.frame, c.line) = nl → { c with inSeal := c.recv } ∈ t.commits.live) ∧
        ((c.frame, c.line) ≠ nl → c ∈ t.commits.live)) ∧
    (s.commits.sealOf = none ∨ got.length ≠ s.n * (s.n - 1) →
      ∃ t, Sys2Proof.Machine.exec (.sealSetReceive dst src) s = .next t ∧
        t = { s with commits := { s.commits with got := got } }) ∧
    (s.commits.sealOf = some fl → s.commits.judged = false → got.length = s.n * (s.n - 1) →
      ∃ t, Sys2Proof.Machine.exec (.sealSetReceive dst src) s = .next t ∧
        t = { s with commits := t.commits, regs := t.regs } ∧ t.commits.judged = true ∧
        (∀ i, i ∈ t.commits.ready ↔ ∃ c ∈ s.commits.live, mine c ∧ c.sealed s.n = true ∧ c.id = i) ∧
        ∀ c ∈ s.commits.live,
          (mine c → c.sealed s.n = true → c ∈ t.commits.live) ∧
          (mine c → c.poisoned = true → c ∉ t.commits.live) ∧
          (mine c → c.sealed s.n = false → c.poisoned = false →
            { c with frame := nx.1, line := nx.2, inSeal := [] } ∈ t.commits.live) ∧
          (¬ mine c → c ∈ t.commits.live)))

/-- R45, R48, R52, R68: with the clock at the end of the running line, a package line start takes the counters to dot 0 of
the next line, or of line 0 of the next frame where the running line is the last, a jam line or ends a cut frame; the
frame number goes on by one, or to the number a jam loads. HTOTAL takes effect at every line start, VTOTAL and VACT at
frame starts. Before the end, with no package write waiting, the clock comes to it first (log entry 1). R47-R49, R51,
R212: the oldest accepted package-beam write applies at its application point, to which the clock comes within the
running line (log entry 1), with a clamp to 301 dots and 4 lines that sets CLAMP (PKG_STAT bit 7); with IMM = 1 HTOTAL
acts in the running line, or ends it at once where it is past the new length. OFS keeps 24 bits and takes a write of
one bit at the application point, and a new REF restarts acquisition. With none accepted nothing changes. -/
def Obligations.PackageBeam : Prop :=
  (∀ s : State,
    (s.beam.running = false → Gives .packageLineStart s s) ∧
    (s.beam.running = true → s.now < lineEnd s → s.pkgQueue = [] →
      Sys2Proof.Machine.exec .packageLineStart s = Sys2Proof.Machine.exec .packageLineStart (passTo (lineEnd s) s)) ∧
    (s.beam.running = true → lineEnd s ≤ s.now →
      let b := s.beam
      let ends := b.jam = true ∨ b.cutFrame = true ∨ b.vtotal ≤ b.line + 1
      ∃ t, Sys2Proof.Machine.exec .packageLineStart s = .next t ∧
        t.beam.running = true ∧ t.beam.dot = 0 ∧ t.beam.phase = 0 ∧ t.beam.ends = b.ends + 1 ∧ t.beam.lineAt = s.now ∧
        t.now = s.now ∧ t.beam.htotal = fld (s.reg 4) 15 0 ∧ t.beam.cut = false ∧ t.beam.cutFrame = false ∧
        (t.beam.jam = false → t.beam.lineLen = t.beam.htotal) ∧
        (ends → t.beam.line = 0 ∧ t.beam.frameAt = s.now ∧ t.beam.vtotal = fld (s.reg 8) 15 0 ∧
          t.beam.vactStart = fld (s.reg 0xC) 15 0 ∧ t.beam.vact = fld (s.reg 0xC) 31 16 ∧
          (b.jam = false → t.beam.frame = (b.frame + 1) % 2 ^ 48) ∧
          (∀ f, b.jam = true → b.jamLoad = some f → t.beam.frame = f)) ∧
        (¬ ends → t.beam.line = b.line + 1 ∧ t.beam.frame = b.frame ∧ t.beam.frameAt = b.frameAt ∧
          t.beam.vtotal = b.vtotal ∧ t.beam.vactStart = b.vactStart ∧ t.beam.vact = b.vact))) ∧
  (∀ (s : State) (v : Word) (at' i : Nat) (op : BitOp) (q : List PkgWrite),
    let n := (v &&& 0xFFFF#32).toNat
    let c := Instr.pkgRegApply
    let imm := (s.reg 0).getLsbD 7
    let ref := fld (s.reg 0) 1 0
    (s.pkgQueue = [] → Gives c s s) ∧
    (∀ w, s.pkgQueue = w :: q →
      (lineEnd s < w.due → Gives c s s) ∧
      (s.now < w.due → w.due ≤ lineEnd s →
        Sys2Proof.Machine.exec c s = Sys2Proof.Machine.exec c (passTo w.due s))) ∧
    (at' ≤ s.now → at' ≤ lineEnd s →
      (s.pkgQueue = ⟨4, v, at', none⟩ :: q → ref = 0 → imm = false → ∃ t, Sys2Proof.Machine.exec c s = .next t ∧
        t = { s with pkgQueue := q, regs := t.regs } ∧ fld (t.reg 4) 15 0 = max 301 n ∧
        (n < 301 → t.reg 0x18 = s.reg 0x18 ||| 0x80#32) ∧ (301 ≤ n → t.reg 0x18 = s.reg 0x18) ∧
        ∀ a, a ≠ 4 → a ≠ 0x18 → t.reg a = s.reg a) ∧
      (s.pkgQueue = ⟨8, v, at', none⟩ :: q → ref = 0 → imm = false → ∃ t, Sys2Proof.Machine.exec c s = .next t ∧
        t = { s with pkgQueue := q, regs := t.regs } ∧ fld (t.reg 8) 15 0 = max 4 n ∧
        (n < 4 → t.reg 0x18 = s.reg 0x18 ||| 0x80#32) ∧ (4 ≤ n → t.reg 0x18 = s.reg 0x18) ∧
        ∀ a, a ≠ 8 → a ≠ 0x18 → t.reg a = s.reg a) ∧
      (s.pkgQueue = ⟨4, v, at', none⟩ :: q → ref = 0 → imm = true → s.beam.jam = false → s.now < lineEnd s → 301 ≤ n →
        ∃ t, Sys2Proof.Machine.exec c s = .next t ∧
          (s.beam.dot < n →
            t.beam = { s.beam with htotal := n, lineLen := n, cut := s.beam.cut || n != s.beam.lineLen }) ∧
          (n ≤ s.beam.dot → t.beam = { s.beam with htotal := n, lineLen := s.beam.dot + 1, cut := true })) ∧
      (s.pkgQueue = ⟨0x10, v, at', none⟩ :: q → ∃ t, Sys2Proof.Machine.exec c s = .next t ∧
        SetsReg { s with pkgQueue := q } t 0x10 ((s.reg 0x10 &&& 0xFF000000#32) ||| (v &&& 0xFFFFFF#32))) ∧
      (s.pkgQueue = ⟨0x10, v, at', some (i, op)⟩ :: q → ∃ t, Sys2Proof.Machine.exec c s = .next t ∧
        SetsReg { s with pkgQueue := q } t 0x10
          ((s.reg 0x10 &&& 0xFF000000#32) ||| (bitApply (s.reg 0x10) i op &&& 0xFFFFFF#32))) ∧
      (s.pkgQueue = ⟨0, v, at', none⟩ :: q → (ref ≠ fld v 1 0 ∨ s.genlock.conflict = true) →
        ∃ t, Sys2Proof.Machine.exec c s = .next t ∧
          Side { s with pkgQueue := q, genlock := t.genlock } t ∧ t.reg 0x20 = 0#32 ∧
          t.genlock = { Genlock.init with st := if fld v 1 0 = 0 then .freeRun else .acquiring, glkF := s.genlock.glkF })))

/-- R65-R67, R72: an edge or alignment point that is not the selected reference changes nothing (GLK_F is only held for
the field test), nor does any in free run. In acquisition the first event is noted, and each later one that fits the
first interval within 0.1 % is counted, another starts the count again; in holdover an event begins a new acquisition.
Four predicted periods without an event, the loss of the reference enters holdover: the rate stays, what is owed is
cleared, LOCKED falls and HOLDOVER (PKG_STAT bit 9) is set; before that there is no loss. -/
def Obligations.ReferenceEvents : Prop :=
  ∀ (s : State) (rising : Bool) (k t0 at' : Nat),
    let g := s.genlock
    let ref := fld (s.reg 0) 1 0
    let locked := fld (s.reg 0x9381C) 2 0 = 3
    let seen : Genlock := { g with lastEv := some at', lastEnds := s.beam.ends, refPresent := true }
    let i := at' - t0
    let fits := 1000 * ((i : Int) - g.first).natAbs ≤ g.first
    let reached := ptpPoint s k ≤ s.tick
    let hit := fun (g' : Genlock) => ∀ c,
        (c = Instr.ptpAlignmentPoint k ∧ ref = 2 ∧ locked ∧ reached ∧ s.tick < ptpPoint s (k + 1) ∧
          at' = cycleOfTick s (ptpPoint s k)) ∨
        (c = Instr.genlockEdge .v rising ∧ at' = s.now ∧ ref = 1 ∧ rising ≠ (s.reg 0).getLsbD 11 ∧
          (s.reg 0).getLsbD 8 = false ∧ (s.reg 0).getLsbD 4 = false) →
      Gives c s { s with genlock := g' }
    Gives (.genlockEdge .f rising) s { s with genlock := { g with glkF := rising } } ∧
    (ref ≠ 1 → Gives (.genlockEdge .v rising) s s ∧ Gives (.genlockEdge .h rising) s s) ∧
    (reached → (ref ≠ 2 ∨ ¬ locked ∨ ptpPoint s (k + 1) ≤ s.tick) → Gives (.ptpAlignmentPoint k) s s) ∧
    (g.st = .freeRun → hit g) ∧
    (g.st = .acquiring → g.lastEv = none → hit seen) ∧
    (g.st = .acquiring → g.lastEv = some t0 → (g.seen = 0 ∨ ¬ fits) → hit { seen with first := i, seen := 1, sum := i }) ∧
    (g.st = .acquiring → g.lastEv = some t0 → g.seen ≠ 0 → g.seen ≠ 15 → fits →
      hit { seen with seen := g.seen + 1, sum := g.sum + i }) ∧
    (g.st = .holdover → hit { seen with st := .acquiring, again := true, first := 0, seen := 0, sum := 0, waitEv := none }) ∧
    ((g.st = .freeRun ∨ g.st = .holdover ∨ g.lastEv = none) → Gives .refLost s s) ∧
    (g.lastEv = some t0 → s.now < t0 + 4 * predicted s → Gives .refLost s s) ∧
    (g.lastEv = some t0 → t0 + 4 * predicted s ≤ s.now → g.st ≠ .freeRun → g.st ≠ .holdover →
      ∃ t, Sys2Proof.Machine.exec .refLost s = .next t ∧
        Side { s with genlock := t.genlock } t ∧ (t.reg 0x18).getLsbD 9 = true ∧
        t.genlock = { g with st := .holdover, locked := false, owed := 0, refPresent := false, good := 0, bad := 0,
                             waitEv := none, jamAt := none })

/-- R58, R466: EN written 1 starts the port's synthesiser, 0 asks the channel to stop and stops the synthesiser at once
where the channel does not run; lock is noted while the synthesiser is on; a port that was enabled and locked at the
package frame start starts its channel at D(DOT_OFS) of line 0 with the timing taken there when that meets R54 and
R60, and is left stopped with RANGE set when it does not. Loss of lock stops the channel. R53, R58, R60: a running
port whose line of the package line has not begun begins it at D(DOT_OFS), or the one it missed, with its frame number
and the timing taken for the frame at line 0; a port whose EN is 0 stops there. A port that does not run stays
stopped. -/
def Obligations.PortStartAndLines : Prop :=
  (∀ (s : State) (b p : Nat) (v : Word), s.present b = true → p < 4 →
    let x := s.port b p
    let a := b * 0x100000 + 0x100 + 0x100 * p
    let waits := x.armed = true ∧ x.running = false
    let comes := waits ∧ s.beam.line = 0 ∧ portStartAt s x ≤ s.now
    (∃ t, Sys2Proof.Machine.exec (.portEnWrite b p v) s = .next t ∧ t = { s with regs := t.regs, ports := t.ports } ∧
      SetsReg s { t with ports := s.ports } a (v &&& 0x7F#32) ∧
      (∀ b' p', pidx b' p' ≠ pidx b p → t.port b' p' = s.port b' p') ∧
      (v.getLsbD 0 = true → t.port b p = { x with enabled := true, synOn := true, synLock := x.synOn && x.synLock }) ∧
      (v.getLsbD 0 = false → x.running = true → t.port b p = { x with enabled := false }) ∧
      (v.getLsbD 0 = false → x.running = false →
        t.port b p = { x with enabled := false, synOn := false, synLock := false })) ∧
    (x.synOn = false → Gives (.synthLock b p) s s) ∧
    (x.synOn = true → ∃ t, Sys2Proof.Machine.exec (.synthLock b p) s = .next t ∧ t = { s with ports := t.ports } ∧
      t.port b p = { x with synLock := true } ∧ ∀ b' p', pidx b' p' ≠ pidx b p → t.port b' p' = s.port b' p') ∧
    (x.synLock = false → Gives (.synthLockLoss b p) s s) ∧
    (x.synLock = true → x.running = false → x.enabled = false →
      ∃ t, Sys2Proof.Machine.exec (.synthLockLoss b p) s = .next t ∧ t = { s with ports := t.ports } ∧
        t.port b p = { x with synLock := false }) ∧
    (x.synLock = true → ∃ t, Sys2Proof.Machine.exec (.synthLockLoss b p) s = .next t ∧ (t.port b p).synLock = false ∧
      (t.port b p).running = false ∧ (t.port b p).enabled = x.enabled ∧
      ∀ b' p', pidx b' p' ≠ pidx b p → t.port b' p' = s.port b' p') ∧
    (¬ waits → Gives (.portChannelStart b p) s s) ∧
    (comes → ∃ t, Sys2Proof.Machine.exec (.portChannelStart b p) s = .next t ∧ (t.port b p).armed = false ∧
      (x.enabled = false ∨ x.synLock = false → (t.port b p).running = false) ∧
      (x.enabled = true → x.synLock = true → timingOk x.next s.beam.htotal = true →
        (t.port b p).running = true ∧ (t.port b p).cfg = x.next ∧ (t.port b p).line = 0 ∧
        (t.port b p).lineAt = s.now ∧ (t.port b p).lineDots = s.beam.htotal ∧
        (x.missed = none → (t.port b p).frame = s.beam.frame)) ∧
      (x.enabled = true → x.synLock = true → timingOk x.next s.beam.htotal = false →
        (t.port b p).running = false ∧ (t.reg (a + 0x18)).getLsbD 9 = true))) ∧
  (∀ (s : State) (b p : Nat), s.present b = true → p < 4 →
    let x := s.port b p
    let fl := match x.missed with
      | some m => m
      | none => (s.beam.frame, s.beam.line)
    (x.running = true → x.missed = none → x.begun = true → Gives (.portLineStart b p) s s) ∧
    ((x.missed ≠ none ∨ x.begun = false) → portStartAt s x ≤ s.now →
     ∃ t, Sys2Proof.Machine.exec (.portLineStart b p) s = .next t ∧
      (∀ b' p', pidx b' p' ≠ pidx b p → t.port b' p' = s.port b' p') ∧ t.beam = s.beam ∧ t.now = s.now ∧
      (x.running = false → t.ports = s.ports) ∧
      (x.running = true → x.enabled = false → (t.port b p).running = false ∧ (t.port b p).line = 0 ∧
        (t.port b p).frame = 0 ∧ (t.port b p).de = false ∧ (t.port b p).hs = false ∧ (t.port b p).vs = false ∧
        (t.port b p).synOn = false) ∧
      (x.running = true → x.enabled = true → x.stopNext = false → (fl.2 ≠ 0 ∨ timingOk x.next s.beam.htotal = true) →
        (t.port b p).running = true ∧ (t.port b p).line = fl.2 ∧ (t.port b p).lineAt = s.now ∧
        (t.port b p).lineDots = s.beam.htotal ∧ (t.port b p).missed = none ∧
        (t.port b p).cfg = (if fl.2 = 0 then x.next else x.cfg) ∧
        (t.port b p).frame = if fl.2 = 0 then fl.1 else x.frame)))

/-- R55, R74, R76, R77: a beam flag of a running port changes at its dot, with DE on active lines alone, and raises the
event of R74; a comparator whose dot and line have come raises its event; nothing but the flag and what events reach
changes. -/
def Obligations.PortFlagsAndMatches : Prop :=
  ∀ (s : State) (b p k : Nat), s.present b = true → p < 4 → k < 4 →
    let x := s.port b p
    let c := x.cfg
    let m := s.reg (b * 0x100000 + 0x130 + 0x100 * p)
    let mk := s.reg (b * 0x100000 + 0x120 + 0x100 * p + 4 * k)
    let act := activeLine s.beam x.line
    let here := fun (d : Nat) => d < c.hTotal ∧ portDot s x = d ∧ dotAt s x d ≤ s.now
    let named := m.getLsbD k = true ∧ (m.getLsbD (4 + k) = true ∨ fld mk 31 16 = x.line) ∧ fld mk 15 0 < c.hTotal
    let flag := fun (f : BeamFlag) (y : Port) (ev : Option Nat) =>
      ∃ t, Sys2Proof.Machine.exec (.portBeamFlagChange b p f) s = .next t ∧ Side { s with ports := t.ports } t ∧
        t.port b p = y ∧ (∀ b' p', pidx b' p' ≠ pidx b p → t.port b' p' = s.port b' p') ∧
        (∀ e, ev = some e → Raised t b (16 * p + e)) ∧ (ev = none → t = { s with ports := t.ports })
    (x.running = false → ∀ f, Gives (.portBeamFlagChange b p f) s s) ∧
    (x.running = true →
      (c.hAct ≠ 0 → here c.hActStart → flag .activeStart { x with hblank := false, de := act }
        (if act = true ∧ x.line = s.beam.vactStart then some 2 else none)) ∧
      (here (c.hActStart + c.hAct) → flag .activeEnd { x with hblank := true, de := false } none) ∧
      (c.hsStart < c.hsEnd → here c.hsStart → flag .hsStart { x with hs := true } (some 4)) ∧
      (here c.hsEnd → flag .hsEnd { x with hs := false } none) ∧
      (c.vsEnd ≠ c.vsStart → x.line = c.vsStart → here c.hsStart → flag .vsStart { x with vs := true } (some 5)) ∧
      (x.line = c.vsEnd → here c.hsStart → flag .vsEnd { x with vs := false } none)) ∧
    ((x.running = true ∧ named ∧ here (fld mk 15 0)) →
      ∃ t, Sys2Proof.Machine.exec (.portMatch b p k) s = .next t ∧ Side s t ∧ Raised t b (16 * p + 6 + k)) ∧
    (¬ (x.running = true ∧ named) → Gives (.portMatch b p k) s s) ∧
    (dotAt s x (fld mk 15 0) ≤ s.now → portDot s x ≠ fld mk 15 0 → Gives (.portMatch b p k) s s)

/-- R119, R120, R123, R36, R314, R317: at D30 of the running line a line evaluation keeps the values that govern the next
line, newest first, and leaves beam, ports, hammers and memories as they are; past D30 there is none. A fetched unit
arrives with the bytes memory held at its grant, or with zeros and DECERR on a decode error or an uncorrectable word;
INV asks for the tile cache to be emptied. R184-R186: a writeback frame is done when its last row has been composed
and is wholly in memory: the ring's index, whether rows were lost, and the frame number are shown, and the next frame
takes the next buffer; a frame into a video layer is queued for hand-off unless rows were lost. A frame that ended
while rows were still in time is recorded first. Before that nothing changes. -/
def Obligations.LinesFetchesAndWriteback : Prop :=
  (∀ (s : State) (b i : Nat) (err : EccErr), s.present b = true →
    let nl := lineAfter s (s.beam.frame, s.beam.line)
    let out := (s.fetchList b).filter (fun u => u.data = none && (u.hold || isHearthUnit u.unit))
    (s.beam.running = false ∨ s.beam.lineAt + 124 ≤ s.now → Gives .lineEvaluation s s) ∧
    (s.beam.running = true → s.beam.lineAt + 120 ≤ s.now → s.now < s.beam.lineAt + 124 →
      ∃ t, Sys2Proof.Machine.exec .lineEvaluation s = .next t ∧ t.beam = s.beam ∧
      t.hammers = s.hammers ∧ t.ports = s.ports ∧ t.gddr = s.gddr ∧ t.hearth = s.hearth ∧ t.commits = s.commits ∧
      ∃ v : LineView, t.lineViews = (v :: s.lineViews).take 4 ∧
        (s.beam.jam = false → s.beam.cutFrame = false → (v.frame, v.line) = nl)) ∧
    (out.length ≤ i → Gives (.fetchDataReturn b i err) s s) ∧
    (∀ u, out[i]? = some u →
      let held := u.got.getD (unitData s b u.unit)
      let found := if isHearthUnit u.unit then err else eccFound s b (64 * u.unit) err
      let wrong := found = .uncorrectable ∧
        (isHearthUnit u.unit = true ∨ (s.reg (b * 0x100000 + 0x70004)).getLsbD 4 = true)
      let arrived := fun d => { u with data := some d, granted := true, hold := false, got := none }
      ∃ t, Sys2Proof.Machine.exec (.fetchDataReturn b i err) s = .next t ∧
        t.gddr = s.gddr ∧ (isHearthUnit u.unit = false → t.hearth = s.hearth) ∧ t.beam = s.beam ∧ t.ports = s.ports ∧
        t.hammers = s.hammers ∧
        (held.2 = false → ¬ wrong → arrived held.1 ∈ t.fetchList b) ∧
        (held.2 = true ∨ wrong → arrived (List.replicate 64 0) ∈ t.fetchList b ∧
          (t.reg (planeStat b u.plane).1).getLsbD (planeStat b u.plane).2 = true)) ∧
    (∃ t, Sys2Proof.Machine.exec (.pcacheInvalidate b) s = .next t ∧
      SetsReg s t (b * 0x100000 + 0x10400) (s.reg (b * 0x100000 + 0x10400) ||| 2#32))) ∧
  (∀ (s : State) (b p : Nat), s.present b = true → p < 4 →
    let o := s.out b p
    let a := b * 0x100000 + 0x3013C + 0x100 * p
    let shown := fun (t : State) (slot : Nat) (lost : Bool) (frame : Nat) =>
      t = { s with regs := t.regs, outs := t.outs } ∧ fld (t.reg a) 1 0 = slot % 4 ∧ (t.reg a).getLsbD 2 = lost ∧
        t.reg (a + 4) = BitVec.ofNat 32 frame ∧ ∀ x, x ≠ a → x ≠ a + 4 → t.reg x = s.reg x
    let handed := fun (t : State) (w : Word) (slot : Nat) (lost : Bool) =>
      t = { s with outs := t.outs, handQ := t.handQ } ∧
        t.handQ = if lost then s.handQ else s.handQ ++ [(b, fld w 5 4, slot, 2)]
    let done := o.wbOn = true ∧ o.wbDone = false ∧ s.beam.vact ≤ o.wbRows ∧ o.wbQ = []
    let c := Instr.writebackFrameDone b p
    (∀ w, o.wbOld = some w →
      (w.q ≠ [] → Gives c s s) ∧
      (w.q = [] → w.ctrl.getLsbD 1 = false → ∃ t, Sys2Proof.Machine.exec c s = .next t ∧
        shown t w.slot w.lost w.frame ∧ t.out b p = { o with wbOld := none }) ∧
      (w.q = [] → w.ctrl.getLsbD 1 = true → ∃ t, Sys2Proof.Machine.exec c s = .next t ∧
        handed t w.ctrl w.slot w.lost ∧ t.out b p = { o with wbOld := none })) ∧
    (o.wbOld = none → ¬ done → Gives c s s) ∧
    (o.wbOld = none → done → o.wbCtrl.getLsbD 1 = false → ∃ t, Sys2Proof.Machine.exec c s = .next t ∧
      shown t o.wbSlot o.wbLost o.wbFrame ∧ t.out b p = { o with wbDone := true, wbNext := o.wbSlot + 1 }) ∧
    (o.wbOld = none → done → o.wbCtrl.getLsbD 1 = true → ∃ t, Sys2Proof.Machine.exec c s = .next t ∧
      handed t o.wbCtrl o.wbSlot o.wbLost ∧ t.out b p = { o with wbDone := !o.wbLost }))

/-- R172-R177, R20, R56, R533: a port's next group is composed when its pieces are present and no port further left has
one ready, each pixel from its planes or as background outside the span; at its deadline it is composed with the
missing pieces late, or every piece where the composition lead is broken, or leaves as background and the line counts
as short where Anvil did not reach it. A composed group is sent in order at its first pixel's instant, its other
pixels at theirs. Nothing else moves: what the group cannot do leaves the state as it is. -/
def Obligations.CompositionOfGroups : Prop :=
  ∀ (s : State) (b p g : Nat) (ins ins2 : List (Nat × Option PixelIn)) (q : Group), s.present b = true → p < 4 →
    let o := s.out b p
    let x := s.port b p
    let v := portView s b p
    let pxOf := fun (l : List (Nat × Option PixelIn)) => (l.map (fun e =>
      match e.2 with
      | some z =>
        let c := composePx v p (z.planes.map (·.px))
        ⟨c.1.1, c.1.2.1, c.1.2.2, underAt v p z c.2, false⟩
      | none => ⟨(bgOf v p).1, (bgOf v p).2.1, (bgOf v p).2.2, false, false⟩) : List OutPx)
    let bg : List OutPx := ins.map (fun _ => ⟨(bgOf v p).1, (bgOf v p).2.1, (bgOf v p).2.2, false, false⟩)
    let left := ∃ r, r < 4 ∧ r ≠ p ∧ (portView s b r).spanX r < v.spanX p ∧ composable s b r (s.out b r).nextG = true
    let can := composable s b p g = true ∧ ¬ left
    let late := if leadBroken s b p g then groupUnits s b p ins else groupMissing ins
    let dead := beyondLine s v p g = false ∧ (leadBroken s b p g = true ∨ groupMissing ins ≠ [])
    let time := pixelAt s b p (4 * g) - 24 ≤ s.now
    let sends := x.running = true ∧ v.spanW p ≠ 0 ∧ 4 * g < x.cfg.hAct ∧ o.sentG = g
    (¬ can → Gives (.anvilGroupCompose b p g) s s) ∧
    (can → groupIn s b p g = some ins → ∃ t, Sys2Proof.Machine.exec (.anvilGroupCompose b p g) s = .next t ∧
      t = { s with regs := t.regs, outs := t.outs, coll := t.coll, videos := t.videos } ∧
      (t.out b p).groups = o.groups ++ [⟨g, pxOf ins⟩] ∧ (t.out b p).nextG = g + 1) ∧
    (time → (groupIn s b p g = none ∨ o.nextG ≠ g ∨ x.cfg.hAct ≤ 4 * g) → Gives (.groupDeadline b p g) s s) ∧
    (time → groupIn s b p g = some ins → o.nextG = g → 4 * g < x.cfg.hAct → dead →
      groupIn (markLate s b (x.frame, x.line) late.eraseDups) b p g = some ins2 →
      ∃ t, Sys2Proof.Machine.exec (.groupDeadline b p g) s = .next t ∧
        t = { s with regs := t.regs, outs := t.outs, coll := t.coll, videos := t.videos, fetches := t.fetches,
                     colStores := t.colStores } ∧
        (t.out b p).groups = o.groups ++ [⟨g, pxOf ins2⟩] ∧ (t.out b p).nextG = g + 1) ∧
    (time → groupIn s b p g = some ins → o.nextG = g → 4 * g < x.cfg.hAct → ¬ dead →
      ∃ t, Sys2Proof.Machine.exec (.groupDeadline b p g) s = .next t ∧
        t = { s with regs := t.regs, outs := t.outs } ∧ (t.out b p).groups = o.groups ++ [⟨g, bg⟩] ∧
        (t.out b p).nextG = g + 1 ∧ (t.out b p).shortAt = some (x.frame, x.line) ∧
        ((∀ r, r < 4 → (s.out b r).shortAt ≠ some (x.frame, x.line)) →
          SetsReg s { t with outs := s.outs } (b * 0x100000 + 0x3000C) (setFld (s.reg (b * 0x100000 + 0x3000C)) 15 0
            (fld (s.reg (b * 0x100000 + 0x3000C)) 15 0 + 1)))) ∧
    ((x.running = false ∨ v.spanW p = 0 ∨ x.cfg.hAct ≤ 4 * g ∨ (o.sentG ≠ g ∧ (o.sentG ≠ g + 1 ∨ o.due = []))) →
      Gives (.pixelGroupLeave b p g) s s) ∧
    (sends → pixelAt s b p (4 * g) ≤ s.now → o.nextG ≠ g → o.groups.find? (fun r => r.g = g) = some q →
      ∃ t, Sys2Proof.Machine.exec (.pixelGroupLeave b p g) s = .next t ∧ (t.out b p).sentG = g + 1 ∧
        (t.out b p).groups = o.groups.filter (fun r => r.g ≠ g) ∧
        t.ports = s.ports ∧ t.beam = s.beam ∧ t.hammers = s.hammers ∧ t.gddr = s.gddr ∧ t.commits = s.commits ∧
        (∀ z zs, o.due = [] → q.px = z :: zs → s.now < pixelAt s b p (4 * g + 1) →
          (t.out b p).tap1 = o.tap1 ++ [z] ∧ (t.out b p).due.map (·.2) = zs))

/-- R82, R84, R534, R91-R93, R99, R212: an untagged live write reaches its edge and a read shows it, a write of one bit as
applied to what the register then holds, unless a write that comes after it in the order of R84 shows; SWAP and ARM
set their bits; an access of the strike window's user reads or writes the word at ACC and moves WORD on by one; once
another has accessed it, the word is a free value (log entry 3). -/
def Obligations.LiveStrikesAndReflexes : Prop :=
  ∀ (s : State) (who : Who) (b p i k : Nat) (w : LiveWrite) (v : Word), s.present b = true → p < 4 → k < 16 →
    let q := s.liveQueue b
    let waiting := q.filter (fun w => w.edge = none)
    let edge := { w with edge := some s.now }
    let la := b * 0x100000 + w.off
    let m := BitVec.ofNat 32 (liveMask s.variant w.off)
    let word := match w.bitOp with
      | none => w.val
      | some (i, op) => bitApply (s.reg la) i op
    let others := q.filter (fun x => x.off = w.off && x.edge ≠ none)
    let shown := (liveShow s b w.off).reg la = s.reg la
    let c := s.cursor b p
    let acc := b * 0x100000 + 0x8008 + 0x40 * p
    let place := strikeKey b p ((s.reg acc).getLsbD 16) (fld (s.reg acc) 13 0)
    let moved := setFld (s.reg acc) 13 0 (fld (s.reg acc) 13 0 + 1)
    let own := c.clash = false ∧ (c.user = none ∨ c.user = some who)
    let arm := b * 0x100000 + 0x8400 + 0x10 * k
    let used := fun (t : State) (clash : Bool) =>
      t = { s with regs := t.regs, cursors := t.cursors, strikeRam := t.strikeRam, freeCount := t.freeCount } ∧
        t.reg acc = moved ∧ (∀ a, a ≠ acc → t.reg a = s.reg a) ∧
        t.cursor b p = { c with user := some (c.user.getD who), clash := clash }
    (waiting.length ≤ i → Gives (.liveEdge b i) s s) ∧
    (waiting[i]? = some w → ∃ t, Sys2Proof.Machine.exec (.liveEdge b i) s = .next t ∧
      t = { s with liveQ := t.liveQ, regs := t.regs } ∧ t.liveQueue b = q.erase w ++ [edge] ∧
      (∀ a, a ≠ la → t.reg a = s.reg a) ∧
      (shown → (∀ x ∈ others, x.rank ≤ edge.rank) → t.reg la = (s.reg la &&& ~~~m) ||| (word &&& m)) ∧
      (shown → (∃ x ∈ others, x.bitOp = none ∧ edge.rank < x.rank) → t.reg la = s.reg la)) ∧
    (∃ t, Sys2Proof.Machine.exec (.strikeSwapRequest b p) s = .next t ∧
      SetsReg s t (b * 0x100000 + 0x8000 + 0x40 * p) (s.reg (b * 0x100000 + 0x8000 + 0x40 * p) ||| 2#32)) ∧
    (own → ∃ t, Sys2Proof.Machine.exec (.strikeDataAccess who b p none) s = .next t ∧ used t false ∧
      t.strikeRam = s.strikeRam ∧ t.freeCount = s.freeCount) ∧
    (own → ∃ t, Sys2Proof.Machine.exec (.strikeDataAccess who b p (some v)) s = .next t ∧ used t false ∧
      t.freeCount = s.freeCount ∧ Tbl.get (fun _ => 0#32) t.strikeRam place = v ∧
      ∀ j, j ≠ place → Tbl.get (fun _ => 0#32) t.strikeRam j = Tbl.get (fun _ => 0#32) s.strikeRam j) ∧
    (¬ own → ∃ t, Sys2Proof.Machine.exec (.strikeDataAccess who b p none) s = .next t ∧ used t true ∧
      t.strikeRam = s.strikeRam ∧ t.freeCount = s.freeCount + 1) ∧
    (¬ own → ∃ t, Sys2Proof.Machine.exec (.strikeDataAccess who b p (some v)) s = .next t ∧ used t true ∧
      t.freeCount = s.freeCount + 1 ∧
      Tbl.get (fun _ => 0#32) t.strikeRam place = BitVec.ofNat 32 (Config.free s.freeCount) ∧
      ∀ j, j ≠ place → Tbl.get (fun _ => 0#32) t.strikeRam j = Tbl.get (fun _ => 0#32) s.strikeRam j) ∧
    (∃ t, Sys2Proof.Machine.exec (.reflexArm b k) s = .next t ∧ SetsReg s t arm (s.reg arm ||| 0x20000000#32))

/-- R310-R312, R122: TRAIN makes the memory unusable, its contents free values where it had been trained, and samples RATE
and ECC; success on four channels of equal density shows TRAINED and the sizes, starting the fill where ECC is on, a
failure shows the channels that trained, FAIL and MEM_EVT bit 0; the end of the fill makes every byte read 0 and
empties the tile cache; the end of a retrain clears BUSY and counts its slots. None of these acts on a billet that is
not at that point. R34-R36, R313, R314, R321: a write that enters a write buffer with room is what a read of any
requester returns from then on: each byte written, when it lies in the usable range, and every other byte as before;
with ECC on, one that splits a 64-bit word needs a second slot. Where there is no room, where the requester is frozen
(R329) or where nothing is usable, it waits. A mismatch of the pins' check is counted. -/
def Obligations.MemoryTrainingAndData : Prop :=
  (∀ (s : State) (b trained : Nat) (cap : Option Bool), s.present b = true →
    let x := s.mem b
    let ctl := b * 0x100000 + 0x70000
    let lo := b * 2 ^ 32
    let all := trained % 16 = 15 ∧ cap ≠ none
    let elsewhere := fun (t : State) => ∀ a, a < lo ∨ lo + 2 ^ 32 ≤ a → t.gbyte a = s.gbyte a
    (∃ t, Sys2Proof.Machine.exec (.memTrain b) s = .next t ∧
      t = { s with memCtl := t.memCtl, regs := t.regs, gddr := t.gddr, gddrEra := t.gddrEra, freeCount := t.freeCount } ∧
      t.mem b = { x with training := true, filling := false, retrain := false, soft := [], hard := [],
                         rate := min 20 (max 12 (fld (s.reg ctl) 4 0)), ecc := (s.reg ctl).getLsbD 8 } ∧
      t.reg ctl = s.reg ctl ||| 0x80000000#32 ∧ t.reg (ctl + 4) = 0x40#32 ∧ t.memEnd b = 0 ∧ elsewhere t ∧
      (fld (s.reg (ctl + 4)) 3 0 = 0 → t.gddr = s.gddr ∧ t.gddrEra = s.gddrEra) ∧
      (fld (s.reg (ctl + 4)) 3 0 ≠ 0 →
        ∀ a, lo ≤ a → a < lo + 2 ^ 32 → t.gbyte a = Config.eraByte (s.freeCount + 1) a)) ∧
    (x.training = false → Gives (.trainingDone b trained cap) s s) ∧
    (x.training = true → all → ∃ t, Sys2Proof.Machine.exec (.trainingDone b trained cap) s = .next t ∧
      t = { s with memCtl := t.memCtl, regs := t.regs } ∧ (t.mem b).training = false ∧ (t.mem b).filling = x.ecc ∧
      (t.mem b).rtAt = s.now ∧ t.reg ctl = s.reg ctl &&& 0x7FFFFFFF#32 ∧
      t.reg (ctl + 4) = 0xF#32 ||| (if x.ecc then 0x50#32 else 0#32) ||| (if cap = some true then 0x20#32 else 0#32)) ∧
    (x.training = true → ¬ all → ∃ t, Sys2Proof.Machine.exec (.trainingDone b trained cap) s = .next t ∧
      Side { s with memCtl := t.memCtl } t ∧ (t.mem b).training = false ∧ (t.mem b).filling = false ∧
      t.reg (ctl + 4) = 0x80#32 ||| BitVec.ofNat 32 (trained % 16) ∧ (t.reg (ctl + 0x14)).getLsbD 0 = true ∧
      t.memEnd b = 0) ∧
    (x.filling = false → Gives (.eccFillDone b) s s) ∧
    (x.filling = true → ∃ t, Sys2Proof.Machine.exec (.eccFillDone b) s = .next t ∧
      t = { s with memCtl := t.memCtl, regs := t.regs, gddr := t.gddr, gddrEra := t.gddrEra, pcache := t.pcache } ∧
      t.mem b = { x with filling := false, soft := [], hard := [] } ∧
      t.reg (ctl + 4) = s.reg (ctl + 4) &&& ~~~0x40#32 ∧ (∀ kv ∈ t.pcache, kv.1 / 512 ≠ b) ∧
      (∀ a, lo ≤ a → a < lo + 2 ^ 32 → t.gbyte a = 0#8) ∧ elsewhere t) ∧
    (x.retrain = false → Gives (.retrainComplete b) s s) ∧
    (x.retrain = true → ∃ t, Sys2Proof.Machine.exec (.retrainComplete b) s = .next t ∧
      t = { s with memCtl := t.memCtl, regs := t.regs } ∧
      t.mem b = { x with retrain := false,
                         chans := x.chans.map (fun c => { c with slots := c.slots + (2000 * x.rate + 31) / 32 }) } ∧
      (x.filling = true ∨ x.training = true → t.regs = s.regs) ∧
      (x.filling = false → x.training = false →
        SetsReg s { t with memCtl := s.memCtl } (ctl + 4) (s.reg (ctl + 4) &&& ~~~0x40#32)))) ∧
  (∀ (s : State) (b req addr : Nat) (data : List Byte) (edc : Bool), s.present b = true → (req = 0 ∨ 4 < req) →
    let room := writeRoom s b req addr = true ∧ data.length ≤ 64 - addr % 64
    let base := b * 2 ^ 32 + addr
    let m := b * 0x100000 + 0x70000
    let ecc := (s.reg (m + 4)).getLsbD 4
    let split := ecc && (decide (addr % 8 ≠ 0) || decide ((addr + data.length) % 8 ≠ 0))
    let c := Instr.gddr6WriteAccept b req addr ⟨data, edc⟩
    (room → ∃ t, Sys2Proof.Machine.exec c s = .next t ∧
      t = { s with gddr := t.gddr, memCtl := t.memCtl, pcache := t.pcache, regs := t.regs } ∧
      t.reg (m + 0x20) = s.reg (m + 0x20) + (if edc then 1#32 else 0#32) ∧
      (ecc = false → ∀ a, a ≠ m + 0x20 → t.reg a = s.reg a) ∧
      (t.mem b).wbuf = (s.mem b).wbuf ++ (if data = [] then [] else [⟨req, addr / 64, split⟩]) ∧
      (∀ i v, data[i]? = some v → s.memOk (base + i) = true → t.gread (base + i) 1 = [v]) ∧
      (∀ a, a < base ∨ base + data.length ≤ a → t.gread a 1 = s.gread a 1)) ∧
    (¬ room → edc = false → Gives c s s) ∧
    (¬ room → edc = true → ∃ t, Sys2Proof.Machine.exec c s = .next t ∧ SetsReg s t (m + 0x20) (s.reg (m + 0x20) + 1#32)))

/-- R313, R314, R320-R324, R329: a slot of a channel that is training or retraining, or has no usable memory, decides
nothing, and every 32nd refreshes; the owner is the entry's requester when it has a request ready, else the best rank.
A swap request sets its bit; FREEZE keeps its mask and DRAINED shows when no frozen requester holds a tag or an entry.
A read that returns keeps its data for the work it serves, marked bad by an uncorrectable word; its check is counted
by its kind. -/
def Obligations.MemoryArbitration : Prop :=
  ∀ (s : State) (b ch addr req : Nat) (v : Word), s.present b = true → ch < 4 → 0 < req → req < 12 →
    let x := s.mem b
    let c := x.chans.getD ch .init
    let a := b * 0x100000 + 0x70800
    let m := b * 0x100000 + 0x70000
    let off := s.memEnd b = 0 ∨ x.retrain = true ∨ x.training = true
    let ready := readyReqs s b ch
    let entry := slotEntry s b c.copyB (c.pos % tableLen s b c.copyB)
    let within := if c.checkQ ≠ [] then checkWithin s b ch else unitWithin s b ch
    let ecc := (s.reg (m + 4)).getLsbD 4
    let read := x.reads.find? (fun r =>
      r.req = req && r.unit = addr / 64 && (r.st = 2 || (r.st = 1 && !isFrozen s b req)))
    let back := fun e => Instr.gddr6ReadReturn b req addr e
    (off → Gives (.gddr6Slot b ch) s s) ∧
    (¬ off → x.chans.length = 4 → (c.slots + 1) % 32 = 0 → ∃ t, Sys2Proof.Machine.exec (.gddr6Slot b ch) s = .next t ∧
      t = { s with memCtl := t.memCtl } ∧ (t.mem b).chans[ch]? = some { c with slots := c.slots + 1, owner := 15 }) ∧
    (¬ off → x.chans.length = 4 → (c.slots + 1) % 32 ≠ 0 → ∃ t, Sys2Proof.Machine.exec (.gddr6Slot b ch) s = .next t ∧
      t.gddr = s.gddr ∧ t.hammers = s.hammers ∧
      ∃ c', (t.mem b).chans[ch]? = some c' ∧ c'.slots = c.slots + 1 ∧
        (entry ∈ ready → c'.owner = entry) ∧ (ready = [] → c'.owner = 15) ∧
        (entry ∉ ready → ∀ r ∈ ready, c'.owner ∈ ready ∧ rankOf within c'.owner ≤ rankOf within r)) ∧
    (∃ t, Sys2Proof.Machine.exec (.arbSwapRequest b) s = .next t ∧ t = { s with regs := t.regs, memCtl := t.memCtl } ∧
      SetsReg s { t with memCtl := s.memCtl } a (s.reg a ||| 0x80000000#32) ∧
      t.mem b = { x with swapHeld := (s.reg a).getLsbD 30 }) ∧
    (∃ t, Sys2Proof.Machine.exec (.freezeWrite b v) s = .next t ∧ t = { s with regs := t.regs, memCtl := t.memCtl } ∧
      t.reg (a + 4) &&& 0x7FFFFFFF#32 = v &&& 0xFFE#32 ∧ (t.mem b).wbuf = x.wbuf ∧ (t.mem b).reads = x.reads ∧
      ∀ r, 0 < r → r < 12 → isFrozen t b r = v.getLsbD r) ∧
    (fld (s.reg (a + 4)) 11 1 ≠ 0 → frozenIdle s b = true → ∃ t, Sys2Proof.Machine.exec (.freezeDrained b) s = .next t ∧
      t = { s with regs := t.regs } ∧ (t.reg (a + 4)).getLsbD 31 = true) ∧
    ((fld (s.reg (a + 4)) 11 1 = 0 ∨ frozenIdle s b = false) → Gives (.freezeDrained b) s s) ∧
    (read = none → isFrozen s b req = true → ∀ e, Gives (back e) s s) ∧
    (read = none → isFrozen s b req = false → Gives (back .none) s s ∧
      (ecc = false → Gives (back .corrected) s s ∧ Gives (back .uncorrectable) s s) ∧
      (ecc = true → ∃ t, Sys2Proof.Machine.exec (back .corrected) s = .next t ∧
        t = { s with regs := t.regs, memCtl := t.memCtl } ∧
        fld (t.reg (m + 0xC)) 15 0 = (fld (s.reg (m + 0xC)) 15 0 + 1) % 2 ^ 16 ∧
        (t.reg (m + 0x14)).getLsbD 1 = true) ∧
      (ecc = true → ∃ t, Sys2Proof.Machine.exec (back .uncorrectable) s = .next t ∧ Side { s with memCtl := t.memCtl } t ∧
        t.reg (m + 0x10) = BitVec.ofNat 32 (addr / 64 * 64) ∧ (t.reg (m + 0x14)).getLsbD 2 = true) ∧
      ∃ t, Sys2Proof.Machine.exec (back .edc) s = .next t ∧ SetsReg s t (m + 0x20) (s.reg (m + 0x20) + 1#32)) ∧
    (∀ r, read = some r → r.st = 2 → isHearthUnit r.unit = false →
      (∃ t, Sys2Proof.Machine.exec (back .edc) s = .next t ∧ t.gddr = s.gddr ∧ t.hammers = s.hammers ∧
        { r with st := 3 } ∈ (t.mem b).reads) ∧
      (ecc = true → ∃ t, Sys2Proof.Machine.exec (back .uncorrectable) s = .next t ∧ t.gddr = s.gddr ∧
        t.hammers = s.hammers ∧ { r with st := 3, bad := true } ∈ (t.mem b).reads))

/-- R317, R333, R335: a request takes one of its billet's 256 transactions or counts a stall; a poisoned one is counted at
its target and a late one is not performed, neither writes; one in time is performed, here a word in the target's
hearth RAM; a response frees its transaction, and is counted when late or poisoned. -/
def Obligations.FluxTransactions : Prop :=
  ∀ (s : State) (b dst addr margin o : Nat) (v : Word) (rw : Option Word) (late pz : Bool), s.present b = true →
    s.present dst = true → b ≠ dst → stepsAsked s = [] →
    let f := b * 0x100000 + 0x80000
    let n := fld (s.reg f) 8 0
    let peak := fld (s.reg f) 24 16
    let d := dst * 0x100000 + 0x80000
    let c := fun p => Instr.fluxRequest b dst rw addr margin p
    let taken := BitVec.ofNat 32 (max (n + 1) peak * 2 ^ 16 + (n + 1))
    (256 ≤ n → ∀ p, ∃ t, Sys2Proof.Machine.exec (c p) s = .next t ∧ t = { s with regs := t.regs } ∧
      t.reg (f + 4) = s.reg (f + 4) + 1#32 ∧ t.reg (f + 0x10) = s.reg (f + 0x10) ||| 1#32 ∧
      ∀ x, x ≠ f + 4 → x ≠ f + 0x10 → t.reg x = s.reg x) ∧
    (n < 256 → margin < 256 → ∃ t, Sys2Proof.Machine.exec (c false) s = .next t ∧ SetsReg s t f taken) ∧
    (n < 256 → 256 ≤ margin → o < hearthSize → o % 4 = 0 →
      ∃ t, Sys2Proof.Machine.exec (.fluxRequest b dst (some v) (2 ^ 33 + o) margin false) s = .next t ∧
        t = { s with regs := t.regs, hearth := t.hearth } ∧ SetsReg s { t with hearth := s.hearth } f taken ∧
        t.hread dst o 4 = leBytes 4 v.toNat ∧
        ∀ b' k, (b' ≠ dst ∨ k + 4 ≤ o ∨ o + 4 ≤ k) → k + 4 ≤ hearthSize → t.hread b' k 4 = s.hread b' k 4) ∧
    (n < 256 → ∃ t, Sys2Proof.Machine.exec (c true) s = .next t ∧ t = { s with regs := t.regs } ∧
      t.reg f = taken ∧ t.reg (d + 0xC) = s.reg (d + 0xC) + 1#32 ∧
      t.reg (d + 0x10) = s.reg (d + 0x10) ||| 4#32 ∧
      ∀ x, x ≠ f → x ≠ d + 0xC → x ≠ d + 0x10 → t.reg x = s.reg x) ∧
    (n = 0 → Gives (.fluxResponse b late pz) s s) ∧
    (0 < n → ∃ t, Sys2Proof.Machine.exec (.fluxResponse b late pz) s = .next t ∧ t = { s with regs := t.regs } ∧
      t.reg f = BitVec.ofNat 32 (max (n - 1) peak * 2 ^ 16 + (n - 1)) ∧
      t.reg (f + 8) = (if late then s.reg (f + 8) + 1#32 else s.reg (f + 8)) ∧
      t.reg (f + 0xC) = (if pz then s.reg (f + 0xC) + 1#32 else s.reg (f + 0xC)))

/-- R276-R283, R288: a GO on an idle unit starts its operation on the parameters as they stand, with its first piece (log
entry 29); here on a single pixel (a line from a point to itself): the pixel takes what the operation makes of source
and destination, or stays where the clip, the key or a 7-code keeps it, and every other byte of GDDR6 stays. A busy
unit only sets GOBUSY (STAT bit 5); an illegal operation ends at once with DONE and ILLOP; one that waits for a Tongs
channel writes nothing yet. R290-R292, R306: an operation ends with DONE beside ABORTED, DLMISS or the watermark it
passed, BUSY and WAITING clear, DONEPOS at the beam's place and PERF at the cycles since it started (0 for one that
waited); an abort in the work lets at most its current piece go; a watermark sets WMARK once; a wait ends by its
deadline once that line has started; none of these acts on a unit that is not at that point. -/
def Obligations.SwageOperations : Prop :=
  (∀ (s : State) (b u k : Nat) (c : Instr), s.present b = true → u < 2 → s.temper.state ≠ 2 →
    (c, k) ∈ [(.swageCopy b u, 0), (.swageFill b u, 1), (.swageKeycopy b u, 2), (.swageAlpha b u, 3), (.swageLine b u, 4),
      (.swageRect b u, 5), (.swagePatrop b u, 6), (.swageIllegalOp b u, 7)] →
    let r := b * 0x100000 + 0x60000 + 0x100 * u
    let x := swageAsked s b u k
    let n := pixBytes x.fmt
    let d := x.dstAddr x.dx x.dy
    let a := x.srcAddr x.sx x.sy
    let base := b * 2 ^ 32
    let illegal := k = 7 ∨ (k = 3 ∧ x.fmt = 0)
    let waits := (x.w 0x30).getLsbD 31 = true ∧ waitDone s b x = false
    ((s.swage b u).busy = true → ∃ t, Sys2Proof.Machine.exec c s = .next t ∧ t = { s with regs := t.regs } ∧
      t.reg (r + 0x70) = s.reg (r + 0x70) ||| 0x20#32 ∧ t.reg r = setFld (s.reg r) 2 0 k ∧
      ∀ o, o ≠ r → o ≠ r + 0x70 → t.reg o = s.reg o) ∧
    ((s.swage b u).busy = false → illegal → ∃ t, Sys2Proof.Machine.exec c s = .next t ∧
      t = { s with regs := t.regs, swages := t.swages } ∧ (t.swage b u).busy = false ∧
      t.reg (r + 0x70) &&& 0x30011#32 = 0x11#32) ∧
    ((s.swage b u).busy = false → ¬ illegal → waits → ∃ t, Sys2Proof.Machine.exec c s = .next t ∧
      t = { s with regs := t.regs, swages := t.swages } ∧ (t.swage b u).busy = true ∧ (t.swage b u).waiting = true ∧
      ((t.swage b u).deadFrame, (t.swage b u).deadLine) = lineDeadline s (fld (x.w 0x30) 15 0) ∧
      t.reg (r + 0x70) &&& 0x30000#32 = 0x30000#32) ∧
    ((s.swage b u).busy = false → ¬ illegal → ¬ waits → x.w 0x18 = 0#32 → (k = 4 → x.w 0x14 = x.w 0x10) →
      isFrozen s b (10 + u) = false → s.temper.steps < 4 → (x.w 0x64).getLsbD 31 = false → x.hiddenOverlap = false →
      (s.mem b).soft = [] → (s.mem b).hard = [] → d + n ≤ s.memEnd b → (x.readsSrc = true → a + n ≤ s.memEnd b) →
      ∃ t, Sys2Proof.Machine.exec c s = .next t ∧
        t = { s with regs := t.regs, swages := t.swages, gddr := t.gddr, pcache := t.pcache, memCtl := t.memCtl } ∧
        (t.swage b u).busy = true ∧ (t.swage b u).todo = [] ∧
        (∀ g, g < base + d ∨ base + d + n ≤ g → memByte t.gddr g = memByte s.gddr g) ∧
        t.gread (base + d) n =
          (match clipOk x x.dx x.dy, swagePixel x x.dx x.dy (if x.readsSrc then leNat (s.gread (base + a) n) else 0)
              (if x.readsDst then leNat (s.gread (base + d) n) else 0) with
          | true, some v => leBytes n v
          | _, _ => s.gread (base + d) n))) ∧
  (∀ (s : State) (b u : Nat), s.present b = true → u < 2 →
    let x := s.swage b u
    let r := b * 0x100000 + 0x60000 + 0x100 * u
    let wmk := fld (x.w 0x34) 16 0
    let passed := wmk ≠ 0 ∧ wmk ≤ x.rows
    let work := x.busy = true ∧ x.waiting = false
    let ends := fun (c : Instr) (m : Nat) => ∃ t, Sys2Proof.Machine.exec c s = .next t ∧
      t = { s with swages := t.swages, regs := t.regs } ∧
      t.swage b u = { x with busy := false, waiting := false, todo := [], held := false } ∧
      t.reg (r + 0x70) = (s.reg (r + 0x70) ||| BitVec.ofNat 32 (m + 1) |||
        (if passed ∧ x.wmk = false then 2#32 else 0#32)) &&& ~~~0x30000#32 ∧
      t.reg (r + 0x7C) = BitVec.ofNat 32 (s.beam.line % 2 ^ 16 * 2 ^ 16 + s.beam.dot % 2 ^ 16) ∧
      t.reg (r + 0x78) = BitVec.ofNat 32 (if x.waiting then 0 else min (2 ^ 32 - 1) (s.now - x.startAt)) ∧
      ∀ o, o ≠ r + 0x70 → o ≠ r + 0x78 → o ≠ r + 0x7C → t.reg o = s.reg o
    let due := linePassed s (x.deadFrame, x.deadLine)
    (x.busy = true → (x.waiting = true ∨ x.held = true ∨ x.todo = []) → ends (.swageAbort b u) 0x40) ∧
    (x.busy = true → ∃ t, Sys2Proof.Machine.exec (.swageAbort b u) s = .next t ∧ (t.swage b u).busy = false ∧
      (t.swage b u).todo = [] ∧ t.reg (r + 0x70) &&& 0x30041#32 = 0x41#32) ∧
    (x.busy = false → Gives (.swageAbort b u) s s) ∧
    (x.waiting = true → due = true → ends (.swageWaitDeadline b u) 4) ∧
    (x.waiting = false ∨ due = false → Gives (.swageWaitDeadline b u) s s) ∧
    (work → x.todo = [] → ends (.swageDone b u) 0) ∧
    (¬ work → Gives (.swageDone b u) s s) ∧
    (work → passed → x.wmk = false → ∃ t, Sys2Proof.Machine.exec (.swageWatermark b u) s = .next t ∧
      t = { s with swages := t.swages, regs := t.regs } ∧ t.swage b u = { x with wmk := true } ∧
      SetsReg s { t with swages := s.swages } (r + 0x70) (s.reg (r + 0x70) ||| 2#32)) ∧
    ((¬ work ∨ wmk = 0 ∨ x.wmk = true) → Gives (.swageWatermark b u) s s) ∧
    ((x.waiting = false ∨ waitDone s b x = false) → Gives (.swageWaitRelease b u) s s) ∧
    (x.waiting = true → waitDone s b x = true → ∃ t, Sys2Proof.Machine.exec (.swageWaitRelease b u) s = .next t ∧
      t.beam = s.beam ∧ t.hammers = s.hammers ∧ t.hearth = s.hearth ∧ (t.swage b u).waiting = false ∧
      (t.swage b u).startAt = s.now))

/-- R278, R282, R284, R291: FILL gives every pixel of its rectangle inside the clip the foreground colour by the time it
is done, whatever the order of its pieces, where all of them lie in usable memory and neither fence nor freeze nor
Temper's level holds one. -/
def Obligations.SwageFillsItsRectangle : Prop :=
  ∀ (s : State) (b u : Nat), s.present b = true → u < 2 → s.temper.state ≠ 2 → (s.swage b u).busy = false →
    let x := swageAsked s b u 1
    let n := pixBytes x.fmt
    (x.w 0x30).getLsbD 31 = false → isFrozen s b (10 + u) = false → s.temper.steps < 4 →
    (x.w 0x64).getLsbD 31 = false → (s.mem b).soft = [] → (s.mem b).hard = [] →
    (∀ px py, x.dx ≤ px → px < x.dx + x.wd → x.dy ≤ py → py < x.dy + x.ht → x.dstAddr px py + n ≤ s.memEnd b) →
    ∃ s1 t, Sys2Proof.Machine.exec (.swageFill b u) s = .next s1 ∧ Sys2Proof.Machine.exec (.swageDone b u) s1 = .next t ∧
      t = { s with regs := t.regs, swages := t.swages, gddr := t.gddr, pcache := t.pcache, memCtl := t.memCtl } ∧
      (t.swage b u).busy = false ∧
      (∀ px py, x.dx ≤ px → px < x.dx + x.wd → x.dy ≤ py → py < x.dy + x.ht → clipOk x px py = true →
        t.gread (b * 2 ^ 32 + x.dstAddr px py) n = leBytes n ((x.w 0x1C).toNat % 2 ^ (8 * n))) ∧
      ∀ g, (∀ px py, x.dx ≤ px → px < x.dx + x.wd → x.dy ≤ py → py < x.dy + x.ht → clipOk x px py = true →
          g < b * 2 ^ 32 + x.dstAddr px py ∨ b * 2 ^ 32 + x.dstAddr px py + n ≤ g) →
        memByte t.gddr g = memByte s.gddr g

/-- R298, R299, R302-R304: GO with EN arms a stopped channel at DESC and clears the status of the run before, resumes a
paused one, and on a busy channel with another trigger sets GOBUSY (STAT bit 6); a trigger starts an armed channel and
counts on a running or paused one, up to 255 with OVERRUN (bit 5) beyond; DRAIN pauses, EN = 0 stops and leaves CUR,
REM and RUNCHK free (log entry 3), a deadline whose line has started ends in ERROR with DLMISS (bit 2). A channel with
no read in flight leaves the memory controllers alone. R296, R300, R328, R333: a burst of a running channel within a
row copies its words, here within GDDR6, where source and destination do not meet, a read tag and a Flux transaction
for each far side are free: the destination then reads as the source read, every other byte of GDDR6 stays, and the
channel stands the burst's length further. A channel that does not run, or has a side frozen, moves nothing. -/
def Obligations.TongsChannels : Prop :=
  (∀ (s : State) (b c : Nat), s.present b = true → c < 32 →
    let x := s.tong b c
    let r := b * 0x100000 + 0x68000 + 0x20 * c
    let on := (s.reg r).getLsbD 0 = true ∧ s.temper.state ≠ 2
    let soft := tngType s b c = 0
    let stat := s.reg (r + 0xC)
    let quiet := ∀ k, (s.mem k).reads = []
    let within := fun (t : State) =>
      t = { s with tongs := t.tongs, regs := t.regs, memCtl := t.memCtl, fetches := t.fetches, freeCount := t.freeCount } ∧
        (quiet → t.memCtl = s.memCtl ∧ t.fetches = s.fetches)
    let changes := fun (i : Instr) (y : Tongs) (w : Word) => ∃ t, Sys2Proof.Machine.exec i s = .next t ∧
      within t ∧ t.freeCount = s.freeCount ∧ t.tong b c = y ∧ t.reg (r + 0xC) = w ∧ t.reg r = s.reg r ∧
      ∀ b' c', 32 * b' + c' ≠ 32 * b + c → t.tong b' c' = s.tong b' c'
    let counts := fun (i : Instr) (x : Tongs) => (x.pend < 255 → changes i { x with pend := x.pend + 1 } stat) ∧
      (x.pend = 255 → changes i x (stat ||| 0x20#32))
    let less := { x with trig := x.trig - 1 }
    let armed : Tongs := { x with st := 1, pend := 0, trig := 0, descAt := fld (s.reg (r + 8)) 20 5 * 32, loaded := false, row := 0,
                                  word := 0, deadline := tngDeadline s b c }
    (¬ on → Gives (.tongsGo b c) s s) ∧
    (on → x.st = 3 → changes (.tongsGo b c) { x with st := 2 } stat) ∧
    (on → (x.st = 1 ∨ x.st = 2) → ¬ soft → changes (.tongsGo b c) x (stat ||| 0x40#32)) ∧
    (on → x.st = 2 → soft → counts (.tongsGo b c) x) ∧
    (on → (x.st = 1 ∨ x.st = 0 ∨ 4 ≤ x.st) → soft → ∃ t, Sys2Proof.Machine.exec (.tongsGo b c) s = .next t ∧
      within t ∧ ((t.tong b c).st = 2 ∨ (t.tong b c).st = 5) ∧
      (t.tong b c).loaded = true) ∧
    (on → (x.st = 0 ∨ 4 ≤ x.st) → ¬ soft → changes (.tongsGo b c) armed (stat &&& ~~~0x1F#32)) ∧
    (x.trig = 0 → Gives (.tongsTrigger b c) s s) ∧
    (0 < x.trig → x.st = 1 → x.loaded = true → changes (.tongsTrigger b c) { less with st := 2 } stat) ∧
    (0 < x.trig → (x.st = 2 ∨ x.st = 3) → counts (.tongsTrigger b c) less) ∧
    (0 < x.trig → (x.st = 0 ∨ 4 ≤ x.st) → changes (.tongsTrigger b c) less stat) ∧
    (x.st = 2 → changes (.tongsDrain b c) { x with st := 3 } stat) ∧ (x.st ≠ 2 → Gives (.tongsDrain b c) s s) ∧
    (∃ t, Sys2Proof.Machine.exec (.tongsDisable b c) s = .next t ∧
      within t ∧ t.reg r = s.reg r &&& ~~~1#32 ∧
      (x.st = 0 → t = { s with regs := t.regs }) ∧ (x.st ≠ 0 → t.tong b c = Tongs.init ∧
        t.reg (r + 0x10) = BitVec.ofNat 32 (Config.free s.freeCount % 2 ^ 32))) ∧
    ((x.st = 1 ∨ x.st = 2) → x.deadline.any (linePassed s) = true →
      changes (.tongsDeadline b c) { x with st := 5 } (stat ||| 4#32)) ∧
    ((x.st ≠ 1 ∧ x.st ≠ 2) ∨ x.deadline.any (linePassed s) = false → Gives (.tongsDeadline b c) s s)) ∧
  (∀ (s : State) (b c : Nat), s.present b = true → c < 32 → stepsAsked s = [] →
    let x := s.tong b c
    let n := burstWords x
    let src := sideBillet (x.w 1) * 2 ^ 32 + x.srcAt x.row x.word
    let dst := sideBillet (x.w 3) * 2 ^ 32 + x.dstAt x.row x.word
    let k := sideBillet (x.w 1)
    let whole := fun (k : Nat) => (s.mem k).soft = [] ∧ (s.mem k).hard = []
    ((x.st ≠ 2 ∨ x.loaded = false ∨ sideFrozen s b (x.w 1) = true ∨ sideFrozen s b (x.w 3) = true) →
      Gives (.tongsBurstComplete b c) s s) ∧
    (x.st = 2 → x.loaded = true → sideSpace (x.w 1) = 0 → sideSpace (x.w 3) = 0 → sideFix (x.w 1) = false →
      sideFix (x.w 3) = false → sideFrozen s b (x.w 1) = false → sideFrozen s b (x.w 3) = false →
      x.srcAt x.row x.word + 4 * n ≤ s.memEnd (sideBillet (x.w 1)) →
      x.dstAt x.row x.word + 4 * n ≤ s.memEnd (sideBillet (x.w 3)) → x.word + n < x.len →
      (src + 4 * n ≤ dst ∨ dst + 4 * n ≤ src) → (s.mem k).reads = [] →
      tagFree (resvTags s k) (anvTags s k) 0 false = true → whole k → whole (sideBillet (x.w 3)) →
      fluxInUse s b + farSides b x ≤ 256 →
      ∃ t, Sys2Proof.Machine.exec (.tongsBurstComplete b c) s = .next t ∧
        t = { s with tongs := t.tongs, regs := t.regs, gddr := t.gddr, pcache := t.pcache, memCtl := t.memCtl,
                     fetches := t.fetches } ∧
        t.gread dst (4 * n) = s.gread src (4 * n) ∧
        (∀ g, g < dst ∨ dst + 4 * n ≤ g → t.gbyte g = s.gbyte g) ∧
        (t.tong b c).word = x.word + n ∧ (t.tong b c).st = 2 ∧ (t.tong b c).row = x.row))

/-- R338-R343, R346, R359, R362: a frame of a running Tuyere, at the tick it begins at (log entry 1), takes the frame of
the present tick, counts the frames passed over and the frames since EN, shows a program cut short, and performs at
most 128 queued voice commands; only Tuyere, its registers, the flows it takes audio from, the reads it asks for and
the count of free values change. As cycles pass its slots run, one a cycle from cycle 64 on, and at the bus stage (in
its first cycle: log entry 26) no bus with a limiter leaves its ceiling. Where the tick has passed two frame starts
the frame in progress is finished first. A stopped one runs none. EN starts it from the cleared state with the delay
memory being cleared, for 262,144 cycles; EN = 0 stops frames, sinks, amplifiers, TDM. R329, R350-R352: a PCM unit
comes to its voice as memory holds it, or as zeros with DECERR (EVT bit 3) outside usable memory; a frozen requester's
waits. A converter settles after its mute and fade-in, or loses an input that is gone, and shows it once; neither acts
while Tuyere is stopped; a frame sync of a running TDM port takes in its slots, and of a stopped port changes nothing. -/
def Obligations.TuyereFramesAndInputs : Prop :=
  (∀ s : State,
    let y := s.tuy
    let now := (3 * s.tick + 2) / 31250
    let len := tuyLen s
    let due := tuyStart (tuyNext s) ≤ s.tick
    let passed := y.fresh = false ∧ tuyNext s < now
    let ended := y.frameAt + 160 + len ≤ s.now
    (y.running = false → Gives .tuyereFrame s s) ∧
    (y.running = true → passed → ¬ ended → y.frameAt + 160 + len < lineEnd s → s.pkgQueue = [] →
      tuyNext s < tuyIndex (passTo (y.frameAt + 160 + len) s).tick →
      Sys2Proof.Machine.exec .tuyereFrame s = Sys2Proof.Machine.exec .tuyereFrame (passTo (y.frameAt + 160 + len) s)) ∧
    (y.running = true → due → (¬ passed ∨ ended) → ∃ t, Sys2Proof.Machine.exec .tuyereFrame s = .next t ∧
      t = { s with tuy := t.tuy, regs := t.regs, freeCount := t.freeCount, flows := t.flows, memCtl := t.memCtl,
                   fetches := t.fetches } ∧
      t.tuy.running = true ∧ t.tuy.kTick = some now ∧ t.tuy.cmds = y.cmds.drop 128 ∧
      t.tuy.k = (if y.fresh then 0 else (y.k + 1) % 2 ^ 48) ∧ t.tuy.fresh = false ∧ t.tuy.frameAt = s.now ∧
      t.tuy.ran = 0 ∧ t.tuy.staged = false ∧
      (¬ passed → y.fresh = false → y.ran < len → y.kTick ≠ none → (t.reg 0x808010).getLsbD 0 = true) ∧
      (∀ k, y.fresh = false → y.kTick = some k → k + 1 < now → t.reg 0x808018 = s.reg 0x808018 + BitVec.ofNat 32 (now - k - 1) ∧
        (t.reg 0x808010).getLsbD 1 = true) ∧
      (¬ passed → t.reg 0x808018 = s.reg 0x808018)) ∧
    (y.running = true → y.staged = false → ∀ n, let t := passCycles n s
      t.tuy.ran = min len (s.now + n + 1 - (y.frameAt + 64)) ∧ t.tuy.k = y.k ∧
      (s.now + n < y.frameAt + 64 + len → t.tuy.staged = false ∧ t.tuy.buses = y.buses ∧ t.tuy.sinks = y.sinks) ∧
      (y.frameAt + 64 + len ≤ s.now + n → t.tuy.staged = true ∧ ∀ b, b < 64 →
        (tuyEff s (0x800 + 0x10 * b)).getLsbD 31 = true →
        (t.bus b).y.natAbs ≤ min 0x800000 (fld (tuyEff s (0x800 + 0x10 * b)) 23 0))) ∧
    (y.running = false ∨ y.staged = true → ∀ n, (passCycles n s).tuy = y) ∧
    (y.running = true → Gives .tuyereEnable s s) ∧
    (y.running = false → ∃ t, Sys2Proof.Machine.exec .tuyereEnable s = .next t ∧
      t = { s with tuy := t.tuy, regs := t.regs } ∧ t.tuy.running = true ∧ t.tuy.clearing = true ∧ t.tuy.clearAt = s.now ∧ t.tuy.k = 0 ∧
      t.tuy.kTick = some now ∧ t.tuy.fresh = true ∧ t.tuy.staged = true ∧ t.tuy.nodes = [] ∧ t.tuy.slotSt = [] ∧ t.tuy.ramps = [] ∧ t.tuy.delay = [] ∧
      t.reg 0x808000 = 1#32 ∧ t.tuy.voices = y.voices ∧ t.tuy.prog = y.prog) ∧
    (∃ t, Sys2Proof.Machine.exec .tuyereDisable s = .next t ∧ t = { s with tuy := t.tuy, regs := t.regs } ∧
      t.tuy = { y with running := false, clearing := false, convs := [], amp := 0, tdmIn := [], tdmOut := [], sinks := [],
                       down := 0 } ∧ t.reg 0x808000 = 0#32) ∧
    (y.clearing = true → s.now < y.clearAt + 262144 → Gives .delayClearDone s s) ∧
    (y.clearing = false ∨ y.clearAt + 262144 ≤ s.now →
      Gives .delayClearDone s { s with tuy := { y with clearing := false } })) ∧
  (∀ (s : State) (v u k n : Nat) (slots : List Word), v < 512 → u < 2 ^ 26 → k < 32 → n < 8 →
    let y := s.tuy
    let x := s.conv k
    let ctrl := tuyEff s (0x200 + 0x20 * n)
    let good := ∀ i, i < 64 → s.memOk (64 * u + i) = true
    let settles := y.running = true ∧ 6240 ≤ x.age.getD 0 ∧ x.settled = false ∧ x.lost = false ∧ x.rateErr = false
    let loses := y.running = true ∧ x.age ≠ none ∧ inputGone s k = true
    (isFrozen s 0 5 = true → Gives (.voiceReadReturn v u) s s) ∧
    (isFrozen s 0 5 = false → (s.mem 0).soft = [] → (s.mem 0).hard = [] →
      ∃ t, Sys2Proof.Machine.exec (.voiceReadReturn v u) s = .next t ∧
      t = { s with tuy := t.tuy, regs := t.regs, memCtl := t.memCtl } ∧
      (∀ j, j ≠ v → t.voice j = s.voice j) ∧
      (good → (u, s.gread (64 * u) 64) ∈ (t.voice v).units ∧ t.reg 0x808010 = s.reg 0x808010) ∧
      (¬ good → (u, List.replicate 64 0) ∈ (t.voice v).units ∧ t.reg 0x808010 = s.reg 0x808010 ||| 8#32)) ∧
    (settles → ∃ t, Sys2Proof.Machine.exec (.converterSettled k) s = .next t ∧
      SetsReg s { t with tuy := y } 0x808010 (s.reg 0x808010 ||| 0x100#32) ∧ (t.conv k).settled = true ∧
      ∀ j, j ≠ k → t.conv j = s.conv j) ∧
    (¬ settles → Gives (.converterSettled k) s s) ∧
    (loses → ∃ t, Sys2Proof.Machine.exec (.converterInputLost k) s = .next t ∧
      SetsReg s { t with tuy := y } 0x808010 (s.reg 0x808010 ||| 0x400#32) ∧
      t.conv k = { x with lost := true, settled := false, age := none } ∧ ∀ j, j ≠ k → t.conv j = s.conv j) ∧
    (¬ loses → Gives (.converterInputLost k) s s) ∧
    ((y.running = false ∨ ctrl.getLsbD 0 = false) → Gives (.tdmFrameSync n slots) s s) ∧
    (y.running = true → ctrl.getLsbD 0 = true → ∃ t, Sys2Proof.Machine.exec (.tdmFrameSync n slots) s = .next t ∧
      t = { s with tuy := t.tuy, regs := t.regs, freeCount := t.freeCount } ∧
      (∀ j, j < 2 * 2 ^ fld ctrl 5 4 → Tbl.get (fun _ => 0#32) t.tuy.tdmIn (16 * n + j) = slots.getD j 0#32) ∧
      (∀ j, 16 * n + 16 ≤ j → Tbl.get (fun _ => 0#32) t.tuy.tdmIn j = Tbl.get (fun _ => 0#32) y.tdmIn j) ∧
      t.tuy.k = y.k ∧ t.tuy.voices = y.voices))

/-- R346, R353, R354, R360, R361, R363: a voice command joins the queue, or sets CMDOVF (EVT bit 4) where 1,024 wait; a
program word 0 goes to its place at once, a word 1 waits for its word 0; a parameter goes to its place, and both ports
advance; SWAP is made at the next source load, or at once while stopped; a ramp starts from the slot's present gain; a
read of a bus's least gain or peak starts it again. -/
def Obligations.TuyereCommands : Prop :=
  ∀ (s : State) (v bus : Nat) (w : Word), v < 512 → bus < 64 →
    let y := s.tuy
    let pacc := s.reg 0x808028
    let word := fld pacc 14 0
    let place := (if pacc.getLsbD 16 then 24576 else 0) + word
    let pnext := setFld pacc 14 0 (if word = 24575 then 0 else word + 1)
    let m := fld (s.reg 0x808030) 11 0
    let mnext := setFld (s.reg 0x808030) 11 0 (m + 1)
    let x := s.bus bus
    let slot := fld w 13 0
    let others := y.ramps.filter (fun r => r.slot ≠ slot)
    (∀ c k, (c, k) ∈ [(.voiceNone v, 0), (.voiceLoad v, 1), (.keyon v, 2), (.keyoff v, 3)] →
      (y.cmds.length < 1024 → Gives c s { s with tuy := { y with cmds := y.cmds ++ [(k, v)] } }) ∧
      (1024 ≤ y.cmds.length → ∃ t, Sys2Proof.Machine.exec c s = .next t ∧ SetsReg s t 0x808010 (s.reg 0x808010 ||| 0x10#32))) ∧
    (∃ t, Sys2Proof.Machine.exec (.programWordWrite none) s = .next t ∧ SetsReg s t 0x808028 pnext) ∧
    (word < 24576 → word % 2 = 1 → ∃ t, Sys2Proof.Machine.exec (.programWordWrite (some w)) s = .next t ∧
      SetsReg s { t with tuy := y } 0x808028 pnext ∧ t.tuy = { y with progLatch := some (place, w) }) ∧
    (word < 24576 → word % 2 = 0 → y.progLatch = none →
      ∃ t, Sys2Proof.Machine.exec (.programWordWrite (some w)) s = .next t ∧
        SetsReg s { t with tuy := y } 0x808028 pnext ∧ t.tuy = { y with prog := t.tuy.prog } ∧
        Tbl.get (fun _ => 0#32) t.tuy.prog place = w ∧
        ∀ j, j ≠ place → Tbl.get (fun _ => 0#32) t.tuy.prog j = Tbl.get (fun _ => 0#32) y.prog j) ∧
    (∀ u, word < 24576 → word % 2 = 0 → y.progLatch = some (place + 1, u) →
      ∃ t, Sys2Proof.Machine.exec (.programWordWrite (some w)) s = .next t ∧ t.tuy.progLatch = none ∧
        Tbl.get (fun _ => 0#32) t.tuy.prog place = w ∧ Tbl.get (fun _ => 0#32) t.tuy.prog (place + 1) = u) ∧
    (∃ t, Sys2Proof.Machine.exec (.parameterAccess none) s = .next t ∧ SetsReg s t 0x808030 mnext) ∧
    (∃ t, Sys2Proof.Machine.exec (.parameterAccess (some w)) s = .next t ∧
      SetsReg s { t with tuy := y } 0x808030 mnext ∧ t.tuy = { y with par := t.tuy.par } ∧
      Tbl.get (fun _ => 0#32) t.tuy.par m = w ∧
      ∀ j, j ≠ m → Tbl.get (fun _ => 0#32) t.tuy.par j = Tbl.get (fun _ => 0#32) y.par j) ∧
    (y.running = true → Gives .programSwap s { s with tuy := { y with swap := true } }) ∧
    (y.running = false → ∃ t, Sys2Proof.Machine.exec .programSwap s = .next t ∧ t = { s with tuy := t.tuy } ∧
      t.tuy.copyB = !y.copyB ∧ t.tuy.swap = false ∧ t.tuy.ramps = [] ∧ t.tuy.prog = y.prog) ∧
    (12288 ≤ slot → Gives (.gainRamp w) s s) ∧
    (slot < 12288 → others.length < 64 → Gives (.gainRamp w) s { s with tuy := { y with
      ramps := others ++ [⟨slot, slotG s slot, sx 24 (fld (s.reg 0x808048) 23 0), fld w 31 28, 0⟩] } }) ∧
    (slot < 12288 → 64 ≤ others.length → ∃ t, Sys2Proof.Machine.exec (.gainRamp w) s = .next t ∧
      t.tuy.ramps = y.ramps ∧ t.reg 0x808010 = s.reg 0x808010 ||| 0x40#32) ∧
    (∃ t, Sys2Proof.Machine.exec (.busGminRead bus) s = .next t ∧ t = { s with tuy := { y with buses := t.tuy.buses } } ∧
      t.bus bus = { x with gmin := x.g } ∧ ∀ k, k ≠ bus → t.bus k = s.bus k) ∧
    (∃ t, Sys2Proof.Machine.exec (.busPeakRead bus) s = .next t ∧ t = { s with tuy := { y with buses := t.tuy.buses } } ∧
      t.bus bus = { x with peak := 0 } ∧ ∀ k, k ≠ bus → t.bus k = s.bus k)

/-- R371, R372: a write of a lane's CTRL sets what the lane runs; the twin mode on another lane sets MODEERR (STAT bit 11)
and runs nothing, and a change takes the link down, with LINKCHG (STAT bit 8) where it was up. A link comes up or
falls on a running lane alone, with LINKCHG at each change. Only Quench's registers and state may follow (R407). R373,
R374, R379: an idle lane whose link is up starts the oldest frame of its lowest waiting class, counts it in TXFRM and
is idle again after the frame's time; a frame of the firmware ring is then DONE (FW_STAT bit 2). One whose link is
down drops it, with TXDROP. A received frame of a lane that is down changes nothing; one of a bad length or a bad FCS
counts in RXERR; one for another unicast address, or a pause frame, counts in RXFRM and RXDROP; an ARP frame goes to
the firmware ring, or counts in RXDROP where FWFILT leaves it out. -/
def Obligations.LanesAndFrames : Prop :=
  (∀ (s : State) (b l : Nat) (v : Word) (up : Bool), s.present b = true → l < 4 →
    let a := b * 0x100000 + 0x90000 + 0x40 * l
    let stat := s.reg (a + 4)
    let changed := fld v 6 0 ≠ fld (s.reg a) 6 0
    let foreign := fld v 3 1 = 6 ∧ ¬ (b < 2 ∧ 2 ≤ l)
    let off := v.getLsbD 0 = false ∨ fld v 3 1 = 0 ∨ fld v 3 1 = 7 ∨ foreign
    let shape := fun (c : Instr) (ctrl st : Word) => ∃ t, Sys2Proof.Machine.exec c s = .next t ∧
      t = { s with regs := t.regs, quench := t.quench } ∧ t.reg a = ctrl ∧ t.reg (a + 4) = st ∧
      (∀ a', a' ≠ a → a' ≠ a + 4 → a' / 0x1000 ≠ 0x802 → t.reg a' = s.reg a') ∧
      ((s.reg 0x802000).getLsbD 0 = false → t.quench = s.quench)
    let err := if foreign then stat ||| 0x800#32 else stat
    let fell := if stat.getLsbD 2 = true then err ||| 0x100#32 else err
    (¬ changed → shape (.laneCtrlWrite b l v) (v &&& 0x37F#32) err) ∧
    (changed → off → shape (.laneCtrlWrite b l v) (v &&& 0x37F#32) (fell &&& 0xFFFFFFF0#32)) ∧
    (changed → ¬ off → shape (.laneCtrlWrite b l v) (v &&& 0x37F#32) (fell &&& 0xFFFFFFF1#32)) ∧
    (laneMode s b l = 0 → shape (.linkStateChange b l up) (s.reg a) stat) ∧
    (laneMode s b l ≠ 0 → shape (.linkStateChange b l true) (s.reg a)
      ((if stat.getLsbD 2 = true then stat else stat ||| 0x100#32) ||| 0xF#32)) ∧
    (laneMode s b l ≠ 0 → shape (.linkStateChange b l false) (s.reg a)
      ((if stat.getLsbD 2 = true then stat ||| 0x100#32 else stat) &&& 0xFFFFFFF1#32))) ∧
  (∀ (s : State) (b l : Nat) (p q : List TxFrame) (f : TxFrame) (d : List Byte), s.present b = true → l < 4 →
    let a := b * 0x100000 + 0x90000 + 0x40 * l
    let x := s.lane b l
    let up := etherUp s b l = true
    let others := fun (t : State) => ∀ b' l', 4 * b' + l' ≠ 4 * b + l → t.lane b' l' = s.lane b' l'
    let regsBut := fun (t : State) (l : List Nat) => ∀ a', a' ∉ l → t.reg a' = s.reg a'
    let good := 64 ≤ d.length ∧ d.length ≤ 9022 ∧ leNat (d.drop (d.length - 4)) = crc32 (d.take (d.length - 4))
    let body := d.take (d.length - 4)
    let dst := be body 0 6
    let foreign := dst ≠ laneMac s b l ∧ dst / 2 ^ 40 % 2 = 0
    let drops := fun (c : Instr) => ∃ t, Sys2Proof.Machine.exec c s = .next t ∧ t = { s with regs := t.regs } ∧
      t.reg (a + 0x14) = s.reg (a + 0x14) + 1#32 ∧ t.reg (a + 0x1C) = s.reg (a + 0x1C) + 1#32 ∧
      regsBut t [a + 0x14, a + 0x1C]
    let ring := b * 0x100000 + 0x93000
    let size := 2 ^ min 9 (fld (s.reg ring) 3 0)
    let head := fld (s.reg (ring + 4)) 24 16
    let fw := f.cls = 3
    (x.queue = [] → Gives (.transmitFrameStart b l) s s) ∧
    (x.idleAt ≤ s.now → (x.queue = p ++ f :: q ∧ f.cls < 4 ∧ (∀ g ∈ p, f.cls < g.cls) ∧ ∀ g ∈ q, f.cls ≤ g.cls) →
      (up → ∃ t, Sys2Proof.Machine.exec (.transmitFrameStart b l) s = .next t ∧
        t = { s with lanes := t.lanes, regs := t.regs, ptp := t.ptp, hearth := t.hearth, hearthBad := t.hearthBad } ∧
        t.lane b l = ⟨p ++ q, some f, s.now + frameCycles s b l f⟩ ∧ others t ∧
        t.reg (a + 0x20) = s.reg (a + 0x20) + 1#32 ∧ (f.cls ≠ 0 → t.ptp = s.ptp) ∧
        (¬ fw → regsBut t [a + 0x20] ∧ t.hearth = s.hearth ∧ t.hearthBad = s.hearthBad) ∧
        (fw → regsBut t [a + 0x20, ring + 0xC, ring + 0x14] ∧ (t.reg (ring + 0x14)).getLsbD 2 = true)) ∧
      (¬ up → f.stat ≠ a + 4 → f.stat ≠ a + 0x24 → ∃ t, Sys2Proof.Machine.exec (.transmitFrameStart b l) s = .next t ∧
        t = { s with lanes := t.lanes, regs := t.regs } ∧ t.lane b l = { x with queue := p ++ q } ∧ others t ∧
        t.reg (a + 4) = s.reg (a + 4) ||| 0x400#32 ∧ t.reg (a + 0x24) = s.reg (a + 0x24) + 1#32 ∧
        (¬ fw → f.stat ≠ 0 → t.reg f.stat = s.reg f.stat ||| 2#32) ∧
        regsBut t ([a + 4, a + 0x24] ++ (if f.stat = 0 then [] else [f.stat]) ++ (if f.cls = 3 then [ring + 0xC] else [])))) ∧
    (¬ up → Gives (.frameReceive b l d) s s) ∧
    (up → ¬ good → ∃ t, Sys2Proof.Machine.exec (.frameReceive b l d) s = .next t ∧ t = { s with regs := t.regs } ∧
      t.reg (a + 0x18) = s.reg (a + 0x18) + 1#32 ∧ t.reg (a + 4) = s.reg (a + 4) ||| 0x200#32 ∧
      regsBut t [a + 4, a + 0x18]) ∧
    (up → good → (foreign ∨ be body 12 2 = 0x8808) → drops (.frameReceive b l d)) ∧
    (up → good → ¬ foreign → be body 12 2 = 0x0806 →
      ((s.reg (ring + 0x10)).getLsbD 0 = false → drops (.frameReceive b l d)) ∧
      ((s.reg (ring + 0x10)).getLsbD 0 = true → (head + 1) % size ≠ fld (s.reg (ring + 4)) 8 0 % size →
        body.length ≤ 2032 → ∃ t, Sys2Proof.Machine.exec (.frameReceive b l d) s = .next t ∧
          t = { s with regs := t.regs, hearth := t.hearth, hearthBad := t.hearthBad } ∧
          fld (t.reg (ring + 4)) 24 16 = (head + 1) % size ∧
          (t.reg (ring + 0x14)).getLsbD 0 = true ∧ t.reg (a + 0x14) = s.reg (a + 0x14) + 1#32 ∧
          regsBut t [a + 0x14, ring + 4, ring + 0x14] ∧
          t.hread b (fld (s.reg ring) 25 16 * 2048 + head % size * 2048 + 16) body.length = body)))

/-- R379, R383, R393, R398: an ended picture of a receive flow is handed to its layer, with FRAME, once its writes are
accepted; the held raster packet that is due first is released at its time; the firmware transmit ring gives its
oldest entry to the lane it names, which sends it at once where it is idle, and to no lane while one waits; an audio
sender builds a packet only with EN = 1, at the end of its packet time, and counts its sequence number on, and a
shadow part's sender without SHALT sends none. -/
def Obligations.LaneSenders : Prop :=
  ∀ (s : State) (b i j g : Nat), s.present b = true → i < 4 → j < 16 → g < 8 →
    let x := s.flow b j
    let flow := b * 0x100000 + 0x91000 + 0x40 * j
    let r := s.raster b i
    let tx := b * 0x100000 + 0x92000 + 0x40 * i
    let aud := 0x92400 + 0x40 * g
    let ring := b * 0x100000 + 0x93008
    let size := 2 ^ min 9 (fld (s.reg ring) 3 0)
    let head := fld (s.reg (ring + 4)) 24 16 % size
    let entry := fld (s.reg ring) 25 16 * 2048 + head * 2048
    let w0 := leNat (s.hread b entry 4)
    let l := bits w0 17 16
    let f := sealFrame (s.hread b (entry + 16) (w0 % 2 ^ 16))
    let lane := b * 0x100000 + 0x90000 + 0x40 * l
    let room := etherUp s b l = true ∧ laneUsed (s.lane b l) + f.length ≤ 262144
    let gone := fun (t : State) => fld (t.reg (ring + 4)) 24 16 = (head + 1) % size
    let waits := head = fld (s.reg (ring + 4)) 8 0 % size ∨ fwWaiting s b = true
    let active := (s.reg 0x802000).getLsbD 0 = false ∨ s.quench.active = true
    (x.done = [] → Gives (.receiveFrameEnd b j) s s) ∧
    (∀ fr rest, x.done = fr :: rest →
      (fr.slot = none → ∃ t, Sys2Proof.Machine.exec (.receiveFrameEnd b j) s = .next t ∧ t = { s with flows := t.flows } ∧
        t.flow b j = { x with done := rest }) ∧
      (∀ k, fr.slot = some k → ((s.reg 0x802000).getLsbD 0 = false ∨ (s.reg 0x802000).getLsbD 5 = false) →
        ∃ t, Sys2Proof.Machine.exec (.receiveFrameEnd b j) s = .next t ∧
          SetsReg { s with flows := t.flows, handQ := s.handQ ++ [(b, fr.layer, k, 1)] } t (flow + 0x10)
            (s.reg (flow + 0x10) ||| 1#32) ∧ t.flow b j = { x with done := rest })) ∧
    (r.held = [] → Gives (.rasterPacketRelease b i) s s) ∧
    (∀ e k w, rasterFirst r = some e → e.copies = [(k, w)] → e.due ≤ 4 * s.now → etherUp s b k = true →
      laneUsed (s.lane b k) + w.length ≤ 262144 →
      ∃ t, Sys2Proof.Machine.exec (.rasterPacketRelease b i) s = .next t ∧
        SetsReg { s with lanes := t.lanes, rasterTx := t.rasterTx } t (tx + 0x28) (s.reg (tx + 0x28) + 1#32) ∧
        (t.raster b i).held.map (·.copies) = (r.held.erase e).map (·.copies) ∧
        t.lane b k = { s.lane b k with queue := (s.lane b k).queue ++ [⟨2, w, tx + 0x1C⟩] }) ∧
    (waits → Gives (.firmwareTxSend b) s s) ∧
    (¬ waits → ∃ t, Sys2Proof.Machine.exec (.firmwareTxSend b) s = .next t ∧
      t = { s with regs := t.regs, lanes := t.lanes, hearth := t.hearth, hearthBad := t.hearthBad } ∧
      (2032 < w0 % 2 ^ 16 → t.lanes = s.lanes ∧ t.hearth = s.hearth ∧ gone t ∧ (t.reg (ring + 0xC)).getLsbD 3 = true) ∧
      (w0 % 2 ^ 16 ≤ 2032 → room → laneFree s b l = true → gone t ∧ (t.lane b l).onWire = some ⟨3, f, 0⟩ ∧
        (t.lane b l).queue = [] ∧ (t.reg (ring + 0xC)).getLsbD 2 = true) ∧
      (w0 % 2 ^ 16 ≤ 2032 → room → laneFree s b l = false → t.regs = s.regs ∧ t.hearth = s.hearth ∧
        t.lane b l = { s.lane b l with queue := (s.lane b l).queue ++ [⟨3, f, 0⟩] }) ∧
      (w0 % 2 ^ 16 ≤ 2032 → ¬ room → t.lanes = s.lanes ∧ t.hearth = s.hearth ∧ gone t ∧
        t.reg (lane + 0x24) = s.reg (lane + 0x24) + 1#32)) ∧
    ((s.reg aud).getLsbD 31 = false → Gives (.audioPacketBuild g) s s) ∧
    ((s.reg aud).getLsbD 31 = true → (audioEnd s g * 125000 + 5) / 6 ≤ s.tick →
      ∃ t, Sys2Proof.Machine.exec (.audioPacketBuild g) s = .next t ∧
      t = { s with regs := t.regs, lanes := t.lanes, freeCount := t.freeCount, audioTx := t.audioTx } ∧
      Tbl.get (fun _ => (none : Option Nat)) t.audioTx g = some (audioEnd s g) ∧
      t.reg (aud + 0x24) = s.reg (aud + 0x24) + 1#32 ∧
      (¬ active → (s.reg aud).getLsbD 27 = false → t.lanes = s.lanes ∧ t.reg (aud + 0x28) = s.reg (aud + 0x28)))

/-- R402, R404, R405: GMPORT and a new EN start the PTP slave afresh in LISTENING and arm the step, RESTEP arms it, EN = 0
turns it off, and four Sync intervals without one take a tracking slave to holdover; a Delay_Req is made once a Sync
has been used, 2^DRI seconds after the one before. -/
def Obligations.PtpCommands : Prop :=
  ∀ (s : State) (v : Word),
    let p := s.ptp
    let ctrl := s.reg 0x93800
    let stat := s.reg 0x9381C
    let st := fld stat 2 0
    let fresh : Ptp := { p with armed := true, good := 0, bad := 0, wait := none, last := none, req := none, haveMpd := false,
                                reqAt := none }
    let regsBut := fun (t : State) (l : List Nat) => ∀ a', a' ∉ l → t.reg a' = s.reg a'
    let enters := fun (t : State) (n : Nat) => fld (t.reg 0x9381C) 2 0 = n ∧ (t.reg 0x9381C).getLsbD 3 = decide (n = 3) ∧
      (st = 3 → n ≠ 3 → (t.reg 0x9381C).getLsbD 9 = true) ∧ (n = 4 → st ≠ 4 → (t.reg 0x9381C).getLsbD 11 = true) ∧
      (st ≠ 3 → n ≠ 3 → n ≠ 4 → ∀ i, 4 ≤ i → (t.reg 0x9381C).getLsbD i = stat.getLsbD i)
    let x := s.lane 0 (fld ctrl 1 0)
    Gives .ptpRestep s { s with ptp := { p with armed := true } } ∧
    (ctrl.getLsbD 31 = true → Gives .ptpEnable s s) ∧
    (ctrl.getLsbD 31 = false → ∃ t, Sys2Proof.Machine.exec .ptpEnable s = .next t ∧
      t = { s with regs := t.regs, ptp := fresh } ∧ t.reg 0x93800 = ctrl ||| 0x80000000#32 ∧ enters t 1 ∧
      regsBut t [0x93800, 0x9381C]) ∧
    (∃ t, Sys2Proof.Machine.exec .ptpDisable s = .next t ∧ t = { s with regs := t.regs } ∧
      t.reg 0x93800 = ctrl &&& 0x7FFFFFFF#32 ∧ enters t 0 ∧ regsBut t [0x93800, 0x9381C]) ∧
    (∃ t, Sys2Proof.Machine.exec (.ptpGmportWrite v) s = .next t ∧
      t = { s with regs := t.regs, ptp := { fresh with gmid := (s.reg 0x93804).toNat * 2 ^ 32 + (s.reg 0x93808).toNat,
                                                       gmport := fld v 15 0, mpd := 0, integ := 0 } } ∧
      t.reg 0x9380C = v &&& 0xFFFF#32 ∧ t.reg 0x93828 = 0#32 ∧ regsBut t [0x9380C, 0x9381C, 0x93828] ∧
      (ctrl.getLsbD 31 = true → enters t 1) ∧ (ctrl.getLsbD 31 = false → t.reg 0x9381C = stat)) ∧
    (st ≠ 2 → st ≠ 3 → Gives .ptpHoldover s s) ∧
    ((st = 2 ∨ st = 3) → holdoverTick s ≤ s.tick → ∃ t, Sys2Proof.Machine.exec .ptpHoldover s = .next t ∧
      t = { s with regs := t.regs, ptp := { p with good := 0, bad := 0 } } ∧ enters t 4 ∧ regsBut t [0x9381C]) ∧
    ((p.last = none ∨ ctrl.getLsbD 31 = false) → Gives .delayReqSend s s) ∧
    (∀ t1 t2 cs, p.last = some (t1, t2, cs) → ctrl.getLsbD 31 = true → delayReqTick s ≤ s.tick →
      ∃ t, Sys2Proof.Machine.exec .delayReqSend s = .next t ∧
        t = { s with lanes := t.lanes, regs := t.regs,
                     ptp := { p with req := some (p.reqSeq, none, t1, t2, cs), reqSeq := (p.reqSeq + 1) % 2 ^ 16,
                                     reqAt := some s.tick } } ∧
        ∃ g, (etherUp s 0 (fld ctrl 1 0) = true → laneUsed x + g.length ≤ 262144 → t.regs = s.regs ∧
            t.lane 0 (fld ctrl 1 0) = { x with queue := x.queue ++ [⟨0, g, 0⟩] }) ∧
          (¬ (etherUp s 0 (fld ctrl 1 0) = true ∧ laneUsed x + g.length ≤ 262144) → t.lanes = s.lanes ∧
            t.reg (0x90024 + 0x40 * fld ctrl 1 0) = s.reg (0x90024 + 0x40 * fld ctrl 1 0) + 1#32))

/-- R412, R413: EN = 1 starts a part as shadow where no role is asked for; with ID = 1 the role is decided 1.0 ms later,
else at once: ACTIVE where no peer shows itself or IGNPEER is set, and otherwise shadow with SPLIT (QCH_EVT bit 7). EN
= 0 leaves an unpaired part. TWIN_PEER is noted. The clock comes to the instant of the decision within the running
line (log entry 1). R408, R422, R423: a trigger names a boundary at least 2,400 forge cycles away, the next line start
where that lies so far, and is taken only while none is pending; TAKE is the shadow's, YIELD the active part's outside
a resync. Of the boundaries told the earlier holds, frames compared modulo 2^48. The lost link is forgotten and sets
LINKLOST (QCH_EVT bit 6); a shadow that sees no peer takes over with cause 5. -/
def Obligations.QuenchRolesAndTakeover : Prop :=
  (∀ (s : State) (level : Bool),
    let q := s.quench
    let c := s.reg 0x802000
    let evt := s.reg 0x80200C
    let free := q.peer = false ∨ c.getLsbD 7 = true
    let decided := { q with active := decide free, deciding := false }
    let on := fun (z : Quench) => { z with st := 1, link := false }
    let regsBut := fun (t : State) (l : List Nat) => ∀ a', a' ∉ l → t.reg a' = s.reg a'
    let enabled := fun (z : Quench) => ∃ t, Sys2Proof.Machine.exec .quenchEnable s = .next t ∧
      t = { s with regs := t.regs, quench := z } ∧ t.reg 0x802000 = c ||| 1#32 ∧ regsBut t [0x802000, 0x80200C]
    let starts := c.getLsbD 0 = false ∧ lanesUp (s.orReg 0x802000 1) = false
    let falls := q.peer = true ∧ level = false ∧ q.link = false ∧ q.st ≠ 5 ∧ c.getLsbD 7 = false ∧ c.getLsbD 0 = true ∧
      q.active = false
    (starts → c.getLsbD 2 = false → enabled (on { q with active := false, deciding := false })) ∧
    (starts → c.getLsbD 2 = true → c.getLsbD 1 = true →
      enabled (on { q with active := false, deciding := true, decideAt := s.now + 1200000 })) ∧
    (starts → c.getLsbD 2 = true → c.getLsbD 1 = false → enabled (on decided)) ∧
    (∃ t, Sys2Proof.Machine.exec .quenchDisable s = .next t ∧
      t = { s with regs := t.regs, quench := { Quench.init with peer := q.peer } } ∧
      t.reg 0x802000 = c &&& 0xFFFFFFFE#32 ∧ regsBut t [0x802000, 0x80200C, 0x802084]) ∧
    ((c.getLsbD 0 = false ∨ q.deciding = false) → Gives .roleDecide s s) ∧
    (c.getLsbD 0 = true → q.deciding = true → s.now < q.decideAt →
      (lineEnd s ≤ q.decideAt → Gives .roleDecide s s) ∧
      (q.decideAt < lineEnd s → s.pkgQueue = [] →
        Sys2Proof.Machine.exec .roleDecide s = Sys2Proof.Machine.exec .roleDecide (passTo q.decideAt s))) ∧
    (c.getLsbD 0 = true → q.deciding = true → q.decideAt ≤ s.now →
      ∃ t, Sys2Proof.Machine.exec .roleDecide s = .next t ∧
      SetsReg { s with quench := decided } t 0x80200C (if free then evt else evt ||| 0x80#32)) ∧
    ((¬ falls ∨ q.pend ≠ none) → Gives (.twinPeerChange level) s { s with quench := { q with peer := level } }) ∧
    (falls → q.pend = none → ∃ t f l, Sys2Proof.Machine.exec (.twinPeerChange level) s = .next t ∧
      t = { s with quench := { q with peer := level, pend := some (f, l, 5, true) } })) ∧
  (∀ (s : State) (m : TakeMsg),
    let q := s.quench
    let on := (s.reg 0x802000).getLsbD 0 = true
    let shadow := on ∧ q.active = false
    let yields := on ∧ q.active = true ∧ q.st ≠ 5
    let peer := q.peer = true ∧ (s.reg 0x802000).getLsbD 7 = false
    let near := 2400 ≤ s.beam.lineAt + 4 * s.beam.lineLen - s.now
    let triggers := fun (c : Instr) (k : Nat) => ∃ t f l, Sys2Proof.Machine.exec c s = .next t ∧
      t = { s with quench := { q with pend := some (f, l, k, true) } } ∧
      (near → (f, l) = if s.beam.line + 1 < s.beam.vtotal then (s.beam.frame, s.beam.line + 1)
                       else ((s.beam.frame + 1) % 2 ^ 48, 0))
    let hears := on ∧ q.link = true ∧ ¬ (q.st = 5 ∧ q.active = false ∧ m.cause ≠ 1)
    let told := fun p => Gives (.takeoverMessage m) s { s with quench := { q with pend := p } }
    (shadow → q.pend = none → triggers .take 1) ∧
    ((¬ shadow ∨ q.pend ≠ none) → Gives .take s s) ∧
    (yields → q.pend = none → triggers .yield 2) ∧
    ((¬ yields ∨ q.pend ≠ none) → Gives .yield s s) ∧
    (¬ hears → told q.pend) ∧
    (hears → q.pend = none → told (some (m.frame, m.line, m.cause, decide (m.cause ≠ 6)))) ∧
    (∀ f l c own, hears → q.pend = some (f, l, c, own) →
      (linePrec (m.frame, m.line) (f, l) = true → told (some (m.frame, m.line, c, own))) ∧
      (linePrec (m.frame, m.line) (f, l) = false → told q.pend)) ∧
    ((¬ on ∨ q.twin = none ∧ q.link = false) → Gives .twinLinkLost s s) ∧
    (on → (q.twin ≠ none ∨ q.link = true) → ∃ t, Sys2Proof.Machine.exec .twinLinkLost s = .next t ∧
      t = { s with regs := t.regs, quench := t.quench } ∧ (t.reg 0x80200C).getLsbD 6 = true ∧
      (∀ a', a' ∉ [0x80200C, 0x802084] → t.reg a' = s.reg a') ∧
      (peer → (t.reg 0x80200C).getLsbD 7 = true) ∧
      t.quench.link = false ∧ t.quench.twin = none ∧ t.quench.st = 1 ∧ t.quench.own = [] ∧ t.quench.theirs = [] ∧
      t.quench.active = q.active ∧
      (q.active = false → q.st ≠ 5 → ¬ peer → q.pend = none → ∃ f l, t.quench.pend = some (f, l, 5, true)) ∧
      ((q.active = true ∨ q.st = 5 ∨ peer ∨ q.pend ≠ none) → t.quench.pend = q.pend)))

/-- R410, R420: a frame stamp of the twin is kept with its arrival corrected by the link delay, which QCH_LINK shows, and
frames of one number are aligned where their starts lie at most 16 forge cycles apart. A record of a compared port
waits for its partner, or meets it: equal checks count a match, others set MISMATCH (QCH_EVT bit 1). A record four
package lines old is given up and counted with MISS (bit 2). R417, R428: with ALIGN a ready picture waits as a notice,
and the twin's notice of the same layer and picture, where none of the own waits for it, too; a match issues the
hand-off of the own slot under context 22 + n and shows FRAME. A notice old by HWAIT frames (positions compared modulo
2^48 frames) is withdrawn and its filling slot is free. The mailbox holds sixteen words. -/
def Obligations.QuenchRecordsAndNotices : Prop :=
  (∀ (s : State) (m : TwinStamp) (r : LineRec) (w : RecWait) (own : List RecWait),
    let q := s.quench
    let heard := (s.reg 0x802000).getLsbD 0 = true ∧ q.link = true
    let compared := (q.st = 2 ∨ q.st = 3) ∧ q.falign = true ∧ q.ready.testBit r.port = true ∧
      (s.reg 0x802014).getLsbD r.port = true
    let partner := w.port = r.port ∧ w.frame = r.frame % 2 ^ 16 ∧ w.line = r.line
    let old := w.ends + 4 ≤ s.beam.ends
    (¬ heard → Gives (.twinFrameStampReceive m) s s) ∧
    (heard → fld (s.reg 0) 1 0 ≠ 3 → ∃ t, Sys2Proof.Machine.exec (.twinFrameStampReceive m) s = .next t ∧
      t = { s with regs := t.regs, quench := t.quench } ∧ t.reg 0x802020 = BitVec.ofNat 32 (min 65535 m.delay) ∧
      (∀ a', a' ∉ [0x802020, 0x80200C] → t.reg a' = s.reg a') ∧
      t.quench.stamp = some (m.frame, s.now - m.delay, m.seqs) ∧ t.quench.twinActive = m.active ∧
      (m.frame = s.beam.frame → s.beam.frame < 2 ^ 48 →
        t.quench.falign = decide ((((s.now - m.delay : Nat) : Int) - s.beam.frameAt).natAbs ≤ 16)) ∧
      (m.frame = (s.beam.frame + 1) % 2 ^ 48 → s.beam.frame < 2 ^ 48 → t.quench.falign = q.falign)) ∧
    (¬ (heard ∧ compared) → Gives (.lineRecordReceive r) s s) ∧
    (heard → compared → q.own = w :: own → partner → w.crc = r.crc →
      ∃ t, Sys2Proof.Machine.exec (.lineRecordReceive r) s = .next t ∧
        SetsReg { s with quench := { q with own := own } } t 0x802024 (s.reg 0x802024 + 1#32)) ∧
    (heard → compared → q.own = w :: own → partner → w.crc ≠ r.crc →
      ∃ t, Sys2Proof.Machine.exec (.lineRecordReceive r) s = .next t ∧ t = { s with regs := t.regs, quench := t.quench } ∧
        (t.reg 0x80200C).getLsbD 1 = true ∧ t.quench.armGood = false ∧ t.reg 0x802024 = s.reg 0x802024 ∧
        (q.st = 2 → t.quench = { q with own := own, armGood := false, mmLocal := t.quench.mmLocal,
                                        mmTwin := t.quench.mmTwin, mmUnattr := t.quench.mmUnattr })) ∧
    (heard → compared → q.own = [] → Gives (.lineRecordReceive r) s { s with quench := { q with theirs :=
      q.theirs ++ [⟨r.port, r.frame % 2 ^ 16, r.line, r.crc, r.under, s.beam.ends⟩] } }) ∧
    ((∀ v, v ∈ q.own ∨ v ∈ q.theirs → s.beam.ends < v.ends + 4) → Gives .lineRecordMiss s s) ∧
    (q.own = w :: own → old → (∀ v ∈ q.theirs, w.ends ≤ v.ends) →
      ∃ t, Sys2Proof.Machine.exec .lineRecordMiss s = .next t ∧
        t = { s with regs := t.regs, quench := { q with own := own, armGood := false } } ∧
        t.reg 0x80202C = s.reg 0x80202C + 1#32 ∧ t.reg 0x80200C = s.reg 0x80200C ||| 4#32 ∧
        ∀ a', a' ∉ [0x80202C, 0x80200C] → t.reg a' = s.reg a')) ∧
  (∀ (s : State) (m : Notice) (w : NoticeWait) (rest : List NoticeWait) (v : Word) (ws : List Word),
    let q := s.quench
    let on := (s.reg 0x802000).getLsbD 0 = true
    let hears := on ∧ q.link = true ∧ (s.reg 0x802000).getLsbD 5 = true
    let same := w.billet = m.billet ∧ w.layer = m.layer ∧ w.ident = m.ident
    let wait := max 1 (fld (s.reg 0x802040) 7 0) * s.beam.vtotal
    let here := absLine s (s.beam.frame, s.beam.line)
    let old := fun (x : NoticeWait) => absLine s (x.frame, x.line) + wait ≤ here
    let flow := fld (s.video w.billet w.layer).cfg.ctrl 19 16
    (¬ hears → Gives (.handoffNotice m) s s) ∧
    (hears → q.notices = [] → Gives (.handoffNotice m) s
      { s with quench := { q with twinNotices := q.twinNotices ++ [⟨m.billet, m.layer, m.ident, m.frame, m.line, 0⟩] } }) ∧
    (hears → q.notices = w :: rest → same → s.present w.billet = true → w.layer < 4 →
      ∃ t, Sys2Proof.Machine.exec (.handoffNotice m) s = .next t ∧ t.quench = { q with notices := rest } ∧
        (t.reg (w.billet * 0x100000 + 0x91010 + 0x40 * flow)).getLsbD 0 = true ∧
        (t.video w.billet w.layer).hwSeq = ((s.video w.billet w.layer).hwSeq + 1) % 2 ^ 16 ∧
        ∃ c ∈ t.commits.live, c.id = s.commits.next ∧ c.billet = w.billet ∧ c.ctx = 22 + w.layer ∧ c.tick = s.tick) ∧
    ((∀ x ∈ q.notices, ¬ old x) → ∃ l, Gives .handoffNoticeWithdraw s { s with quench := { q with twinNotices := l } } ∧
      ∀ x, x ∈ l ↔ x ∈ q.twinNotices ∧ ¬ old x) ∧
    (q.notices = w :: rest → old w → slotState (s.video w.billet w.layer) w.slot = 1 → w.slot < 4 →
      s.present w.billet = true → w.layer < 4 →
      ∃ t, Sys2Proof.Machine.exec .handoffNoticeWithdraw s = .next t ∧ t.quench.notices = rest ∧
        t.reg 0x802044 = s.reg 0x802044 + 1#32 ∧ t.reg 0x80200C = s.reg 0x80200C ||| 0x200#32 ∧
        slotState (t.video w.billet w.layer) w.slot = 0 ∧
        t = { s with regs := t.regs, quench := t.quench, videos := t.videos }) ∧
    (∃ t, Sys2Proof.Machine.exec (.mailboxSend v) s = .next t ∧ SetsReg s t 0x80243C v) ∧
    (¬ (on ∧ q.link = true) → Gives (.mailboxReceive ws) s s) ∧
    (on → q.link = true → ∃ t, Sys2Proof.Machine.exec (.mailboxReceive ws) s = .next t ∧ t = { s with regs := t.regs } ∧
      (∀ j, j < 16 → t.reg (0x802440 + 4 * j) = ws.getD j 0#32) ∧ t.reg 0x80200C = s.reg 0x80200C ||| 0x1000#32 ∧
      ∀ a', a' ≠ 0x80200C → (∀ j, j < 16 → a' ≠ 0x802440 + 4 * j) → t.reg a' = s.reg a'))

/-- R409, R425-R427: DETACH and ATTACH wait for their boundary; a resync starts in a shadow whose link is up, with its
registers fresh and the keepers in service mode, and elsewhere sets RSERR (QCH_EVT bit 10). Pairing is judged from
what the twin tells. A resync without regions is done, one whose first region is of no valid kind fails; either ends
DETACHED; a hearth RAM region arrives in a shadow's hearth RAM. -/
def Obligations.QuenchResync : Prop :=
  ∀ (s : State) (d : ResyncData) (part step ctrl porten : Nat),
    let q := s.quench
    let c := s.reg 0x802000
    let on := c.getLsbD 0 = true
    let attached := q.st = 2 ∨ q.st = 3 ∨ q.st = 5
    let heard := on ∧ q.link = true
    let msg := fun (k : TwinCtl) => Instr.twinControlMessage k
    let regions := fld (s.reg 0x802080) 5 0
    let base := (s.reg 0x802100).toNat
    let spec := s.reg 0x802104
    let n := (s.reg 0x802108).toNat * 64
    let starts := fun (k : Instr) => ∃ t, Sys2Proof.Machine.exec k s = .next t ∧
      t = { s with regs := t.regs, quench := t.quench, hammers := t.hammers } ∧ t.quench.st = 5 ∧ t.quench.own = [] ∧
      t.reg 0x802084 = 0x80000000#32 ∧ t.reg 0x802088 = 0#32 ∧
      (∀ a', a' ∉ [0x80200C, 0x802084, 0x802088] → t.reg a' = s.reg a') ∧
      (∀ b, s.present b = true → t.hammer b 0 = { s.hammer b 0 with sm := true }) ∧
      ∀ b h, s.present b = true → 0 < h → h < 16 → t.hammer b h = s.hammer b h
    let ends := fun (evt : Nat) => ∃ t, Sys2Proof.Machine.exec (.resyncDone d) s = .next t ∧
      t = { s with regs := t.regs, quench := t.quench } ∧ t.quench.st = 4 ∧ (t.reg 0x80200C).getLsbD evt = true ∧
      (t.reg 0x802084).getLsbD 31 = false ∧ ∀ a', a' ∉ [0x80200C, 0x802084, 0x802088] → t.reg a' = s.reg a'
    let pairs := part = (s.reg 0x800000).toNat ∧ step = (s.reg 0x800004).toNat ∧ ctrl.testBit 1 ≠ c.getLsbD 1 ∧
      bits ctrl 11 8 = fld c 11 8 ∧ porten = (s.reg 0x802014).toNat ∧ fld (s.reg 0x802020) 15 0 ≤ 1800
    (∀ k, (k = .detach ∧ on ∧ attached) ∨ (k = msg .detach ∧ heard ∧ attached) →
      Gives k s { s with quench := { q with detachNext := true } }) ∧
    (∀ k, (k = .attach ∧ on ∧ q.st = 4) ∨ (k = msg .attach ∧ heard ∧ q.st = 4) →
      Gives k s { s with quench := { q with attachNext := true } }) ∧
    (∀ k, (k = .detach ∧ ¬ (on ∧ attached)) ∨ (k = msg .detach ∧ ¬ (heard ∧ attached)) ∨
      (k = .attach ∧ ¬ (on ∧ q.st = 4)) ∨ (k = msg .attach ∧ ¬ (heard ∧ q.st = 4)) ∨ (k = msg .resync ∧ ¬ heard) ∨
      (k = msg (.pairing part step ctrl porten) ∧ ¬ heard) ∨ (k = .resyncDone d ∧ q.st ≠ 5) → Gives k s s) ∧
    (∀ k, (k = .resync ∧ heard ∧ q.active = false ∧ q.st ≠ 6) ∨
      (k = msg .resync ∧ heard ∧ q.active = true ∧ q.st ≠ 6) → starts k) ∧
    (¬ (heard ∧ q.active = false ∧ q.st ≠ 6) → ∃ t, Sys2Proof.Machine.exec .resync s = .next t ∧
      SetsReg s t 0x80200C (s.reg 0x80200C ||| 0x400#32)) ∧
    (heard → ∃ t, Sys2Proof.Machine.exec (msg (.pairing part step ctrl porten)) s = .next t ∧
      t = { s with regs := t.regs, quench := t.quench } ∧ t.quench.twin = some (part, step, ctrl, porten) ∧
      t.reg 0x802048 = BitVec.ofNat 32 (part % 256 * 256 + step % 256) ∧
      (pairs → (q.st = 1 ∨ q.st = 6) → t.quench.st = 2) ∧ (pairs → q.st ≠ 1 → q.st ≠ 6 → t.quench.st = q.st) ∧
      (¬ pairs → t.quench.st = 6 ∧ (t.reg 0x80200C).getLsbD 8 = true)) ∧
    (q.st = 5 → regions = 0 → ends 11) ∧
    (q.st = 5 → regions ≠ 0 → (s.present (fld spec 2 0) = false ∨ fld spec 31 30 = 3) → ends 10) ∧
    (q.st = 5 → regions = 1 → s.present (fld spec 2 0) = true → fld spec 31 30 = 1 → on → q.active = false → n ≤ 2 ^ 21 →
      n ≤ d.mem.length → ∃ t, Sys2Proof.Machine.exec (.resyncDone d) s = .next t ∧
        t = { s with regs := t.regs, quench := t.quench, hearth := t.hearth } ∧
        t.hread (fld spec 2 0) base n = d.mem.take n ∧ t.reg 0x802088 = s.reg 0x802088 + BitVec.ofNat 32 (n / 64) ∧
        t.quench.st = 4 ∧ (t.reg 0x80200C).getLsbD 11 = true)

/-- R434-R437: a pad's new level reaches the observe path of a pin whose bank is supplied and that does not switch, but
not in EMBER; a selected edge sets the pin's bit of PIO_EDGE and sticky bit 368 + n of every hammer. A CFG write acts
at once, starts a switch of BRK + 3 cycles where it changes the function in effect, its SEL under CMPOUT or BEAMOUT,
or a sleep state, and is held during a switch, in its last cycle until the next; the end of a switch, in that last
cycle, loads the observe path and applies a held write. The clock comes to an instant within the running line (log
entry 1). R430, R431, R440, R441: a bank is good while its supply lies in the class VSEL names; its fall sets VIOERR
(bit 9), its rise loads the observe paths of its pins. A write to an enabled matcher's registers loads the present
window and restarts SEQ, and a timeout, TMO units of 1,024 cycles after the last advance, restarts a started SEQ, with
TMO. -/
def Obligations.PinsBanksAndMatchers : Prop :=
  (∀ (s : State) (b n : Nat) (level : Bool) (v : Word), s.present b = true → n < 48 →
    let x := s.pin b n
    let ok := (s.bank b (n / 16)).ok = true
    let awake := s.ember.on = false
    let cfg := b * 0x100000 + 0xA0000 + 4 * n
    let bank := b * 0x100000 + 0xA0100 + 4 * (n / 16)
    let old := s.reg cfg
    let e := fld old 10 9
    let selected := e = 3 ∨ (e = 1 ∧ level = true) ∨ (e = 2 ∧ level = false)
    let others := fun (t : State) => ∀ b' n', 48 * b' + n' ≠ 48 * b + n → t.pin b' n' = s.pin b' n'
    let only := fun (c : Instr) (y : Pin) => ∃ t, Sys2Proof.Machine.exec c s = .next t ∧ t = { s with pins := t.pins } ∧
      t.pin b n = y ∧ others t
    let seen : Pin := { x with pad := level, sync := level, filt := level, edgeAt := s.now - 2 - (2 ^ fld old 13 11 - 1) }
    let idle := ∀ k, k < 16 → (s.reg (b * 0x100000 + 0xA0200 + 0x20 * k)).getLsbD 31 = false
    let refused := fld v 2 0 = 4 ∧ ¬ (b < 2 ∧ n < 28)
    let func := fun (w : Word) => if fld w 2 0 < 4 then fld w 2 0 else if fld w 2 0 = 4 ∧ b < 2 ∧ n < 28 then 4 else 0
    let sw := x.sleep ≠ none ∨ func old ≠ func v ∨ ((func old = 2 ∨ func old = 3) ∧ fld old 8 3 ≠ fld v 8 3)
    let brk := max 2 (fld v 31 24)
    let waits := fun (c : Instr) (at' : Nat) =>
      (lineEnd s ≤ at' → Gives c s s) ∧
      (at' < lineEnd s → s.pkgQueue = [] → Sys2Proof.Machine.exec c s = Sys2Proof.Machine.exec c (passTo at' s))
    let loaded : Pin := { x with switching := false, held := none, sync := x.pad, filt := x.pad, edgeAt := s.now }
    ((¬ ok ∨ x.switching = true ∨ ¬ awake) → only (.pinLevelChange b n level) { x with pad := level }) ∧
    (ok → awake → x.switching = false → x.filt = level → only (.pinLevelChange b n level) { x with pad := level, sync := level }) ∧
    (ok → awake → x.switching = false → x.filt ≠ level →
      (¬ selected → idle → only (.pinLevelChange b n level) seen) ∧
      ∃ t, Sys2Proof.Machine.exec (.pinLevelChange b n level) s = .next t ∧ Side { s with pins := t.pins } t ∧
        t.pin b n = seen ∧ others t ∧
        (selected → (t.reg (b * 0x100000 + 0xA0128 + 4 * (n / 32))).getLsbD (n % 32) = true ∧
          ∀ h, h < 16 → (t.stickyOf b h).testBit (368 + n) = true)) ∧
    (x.switching = true → only (.pinCfgWrite b n v) { x with held := some v }) ∧
    (x.switching = false → s.now < x.swEnd → x.swEnd ≤ lineEnd s → s.pkgQueue = [] →
      Sys2Proof.Machine.exec (.pinCfgWrite b n v) s = Sys2Proof.Machine.exec (.pinCfgWrite b n v) (passTo x.swEnd s)) ∧
    (x.switching = false → x.swEnd ≤ s.now → ∃ t, Sys2Proof.Machine.exec (.pinCfgWrite b n v) s = .next t ∧
      t = { s with regs := t.regs, pins := t.pins } ∧ t.reg cfg = v ∧
      (sw → t.pin b n =
        { x with switching := true, swEnd := s.now + brk + 3, brk := brk, park := fld v 23 22, sleep := none }) ∧
      (¬ sw → t.pin b n = { x with sleep := none }) ∧ others t ∧
      (refused → t.reg bank = s.reg bank ||| 0x400#32 ∧ ∀ a, a ≠ cfg → a ≠ bank → t.reg a = s.reg a) ∧
      (¬ refused → ∀ a, a ≠ cfg → t.reg a = s.reg a)) ∧
    (x.switching = false → Gives (.pinSwitchEnd b n) s s) ∧
    (x.switching = true → s.now + 1 < x.swEnd → waits (.pinSwitchEnd b n) (x.swEnd - 1)) ∧
    (x.switching = true → x.swEnd ≤ s.now + 1 → x.held = none → ¬ ok → only (.pinSwitchEnd b n) { x with switching := false }) ∧
    (x.switching = true → x.swEnd ≤ s.now + 1 → x.held = none → ok → ∃ t, Sys2Proof.Machine.exec (.pinSwitchEnd b n) s = .next t ∧
      Side { s with pins := t.pins } t ∧ t.pin b n = loaded ∧ others t) ∧
    (x.switching = true → x.swEnd ≤ s.now + 1 → x.held = some v →
      ∃ t, Sys2Proof.Machine.exec (.pinSwitchEnd b n) s = .next t ∧ t.reg cfg = v ∧ (t.pin b n).held = none ∧ others t)) ∧
  (∀ (s : State) (b k j r : Nat) (v : Word) (cls : BankSupply), s.present b = true → k < 3 → j < 16 →
    let a := b * 0x100000 + 0xA0100 + 4 * k
    let x := s.bank b k
    let inClass := fun (sup : BankSupply) (n : Nat) =>
      (sup = .v18 ∧ n = 0) ∨ (sup = .v25 ∧ n = 1) ∨ (sup = .v33 ∧ n = 2) ∨ (sup = .v50 ∧ n = 3)
    let word := setFld (s.reg a &&& ~~~ (v &&& 0x600#32)) 1 0 (fld v 1 0)
    let judged := fun (t : State) (sup : BankSupply) (n : Nat) (w : Word) =>
      t.bank b k = ⟨sup, decide (inClass sup n)⟩ ∧
      t.reg a = (if x.ok = true ∧ ¬ inClass sup n then w ||| 0x200#32 else w) ∧
      (x.ok = false → inClass sup n → ∀ i, i < 16 → (s.pin b (16 * k + i)).switching = false →
        (t.pin b (16 * k + i)).filt = (s.pin b (16 * k + i)).pad ∧
        (t.pin b (16 * k + i)).sync = (s.pin b (16 * k + i)).pad)
    let pm := b * 0x100000 + 0xA0200 + 0x20 * j
    let m := s.matcher b j
    let mask := if r = 0 then 0xF03FFFFF#32 else 0xFFFFFFFF#32
    let ctrl := s.reg pm
    let waits := ctrl.getLsbD 31 = true ∧ fld ctrl 30 29 = 2 ∧ fld ctrl 15 0 ≠ 0 ∧ m.st ≠ 0
    let due := m.advAt + fld ctrl 15 0 * 1024
    (∃ t, Sys2Proof.Machine.exec (.bankVselWrite b k v) s = .next t ∧
      Side { s with pioBanks := t.pioBanks, pins := t.pins, legacy := t.legacy } t ∧ judged t x.supply (fld v 1 0) word) ∧
    (∃ t, Sys2Proof.Machine.exec (.bankSupplyChange b k cls) s = .next t ∧
      Side { s with pioBanks := t.pioBanks, pins := t.pins } t ∧ judged t cls (fld (s.reg a) 1 0) (s.reg a) ∧
      (cls = .off → ∀ i, i < 16 → (t.pin b (16 * k + i)).sleep = none)) ∧
    (r % 4 = 0 → r < 0x18 → ∃ t, Sys2Proof.Machine.exec (.matcherConfigWrite b j r v) s = .next t ∧
      t = { s with regs := t.regs, matchers := t.matchers } ∧ t.reg (pm + r) = v &&& mask ∧
      (∀ a', a' ≠ pm + r → t.reg a' = s.reg a') ∧ ((t.reg pm).getLsbD 31 = false → t.matchers = s.matchers) ∧
      ((t.reg pm).getLsbD 31 = true → (t.matcher b j).st = 0 ∧ (t.matcher b j).advAt = s.now ∧
        ∀ i, i < 32 → (t.matcher b j).prev.getLsbD i =
          ((t.reg (pm + 4)).getLsbD i && (s.pin b (min 16 (fld (t.reg pm) 21 16) + i)).filt))) ∧
    (waits → s.now < due → lineEnd s ≤ due → Gives (.matcherTimeout b j) s s) ∧
    (waits → s.now < due → due < lineEnd s → s.pkgQueue = [] →
      Sys2Proof.Machine.exec (.matcherTimeout b j) s = Sys2Proof.Machine.exec (.matcherTimeout b j) (passTo due s)) ∧
    (waits → due ≤ s.now → ∃ t, Sys2Proof.Machine.exec (.matcherTimeout b j) s = .next t ∧
      SetsReg { s with matchers := t.matchers } t (pm + 0x1C) (s.reg (pm + 0x1C) ||| 2#32) ∧
      t.matcher b j = { m with st := 0 }) ∧
    (¬ waits → Gives (.matcherTimeout b j) s s))

/-- R445, R448-R451: STEP_HI is held until STEP_LO puts a step in the queue; the oldest step is added to the tick, with
STEPPED. A CTRL write with EN arms a compare channel, one without stops it, a T_LO write sets T and arms an enabled
one; an armed channel whose T has come fires, once or as the start of a period; a period ends with a wrap. The clock
comes to the instant of each of these within the running line (log entry 1). -/
def Obligations.TickAndCompare : Prop :=
  ∀ (s : State) (b k : Nat) (v : Word), s.present b = true → k < 64 →
    let c := s.tickCtl
    let a := b * 0x100000 + 0xA1000 + 0x20 * k
    let x := s.compare b k
    let ctrl := s.reg a
    let stops : Compare := { x with armed := false, running := false, fired := false, count := 0 }
    let others := fun (t : State) => ∀ b' k', 64 * b' + k' ≠ 64 * b + k → t.compare b' k' = s.compare b' k'
    let writes := fun (c : Instr) (r : Nat) (w : Word) (y : Compare) => ∃ t, Sys2Proof.Machine.exec c s = .next t ∧
      SetsReg { s with compares := t.compares } t r w ∧ t.compare b k = y ∧ others t
    let fires := fun (c : Instr) (y : Compare) (bits' : List Nat) => ∃ t, Sys2Proof.Machine.exec c s = .next t ∧
      Side { s with compares := t.compares } t ∧ t.compare b k = y ∧ others t ∧
      ∀ i ∈ bits', (t.reg (a + 0x18)).getLsbD i = true
    let begins : Compare := { x with armed := false, running := true, count := 0, per := max 2 (s.reg (a + 0xC)).toNat,
                                     duty := (s.reg (a + 0x10)).toNat, wrapAt := s.now + 1 }
    let waits := fun (c : Instr) (at' : Nat) =>
      (lineEnd s ≤ at' → Gives c s s) ∧
      (at' < lineEnd s → s.pkgQueue = [] → Sys2Proof.Machine.exec c s = Sys2Proof.Machine.exec c (passTo at' s))
    let t64 := (s.reg (a + 8)).toNat * 2 ^ 32 + v.toNat
    let fireAt := s.now + cyclesTo s x.t
    let endAt := s.now + cyclesTo s (s.tick + (x.per - x.count))
    Gives (.tickStepHiWrite v) s { s with tickCtl := { c with hi := v } } ∧
    Gives (.tickStepLoWrite v) s { s with tickCtl := { c with hi := 0#32, steps := c.steps ++ [(s.now + 8, c.hi.toNat * 2 ^ 32 + v.toNat)] } } ∧
    (c.steps = [] → Gives .tickStepApply s s) ∧
    (∀ due d rest, c.steps = (due, d) :: rest → (s.now < due → waits .tickStepApply due) ∧
      (due ≤ s.now → ∃ t, Sys2Proof.Machine.exec .tickStepApply s = .next t ∧
        Side { s with tick := (s.tick + d) % 2 ^ 64, tickCtl := { c with steps := rest, lastAt := s.now, lastBy := d } } t ∧
        (t.reg 0xA081C).getLsbD 0 = true)) ∧
    (v.getLsbD 31 = true → writes (.compareArm b k 0 v) a (v &&& 0xF0000000#32)
      { stops with period := v.getLsbD 30, armed := true }) ∧
    (ctrl.getLsbD 31 = true → writes (.compareArm b k 4 v) (a + 4) v
      { stops with t := t64, period := ctrl.getLsbD 30, armed := true }) ∧
    (ctrl.getLsbD 31 = false → writes (.compareArm b k 4 v) (a + 4) v { x with t := t64 }) ∧
    (v.getLsbD 31 = false → writes (.compareStop b k 0 v) a (v &&& 0xF0000000#32) stops) ∧
    (x.armed = false → Gives (.compareFire b k) s s) ∧
    (x.armed = true → s.tick < x.t → lineEnd s ≤ fireAt → Gives (.compareFire b k) s s) ∧
    (x.armed = true → s.tick < x.t → x.t ≤ (passTo fireAt s).tick → waits (.compareFire b k) fireAt) ∧
    (x.armed = true → x.t ≤ s.tick → x.period = false →
      fires (.compareFire b k) { x with armed := false, fired := true } [0, 1]) ∧
    (x.armed = true → x.t ≤ s.tick → x.period = true → fires (.compareFire b k) begins [0]) ∧
    (x.running = false → Gives (.compareWrap b k) s s) ∧
    (x.running = true → x.count + 1 < x.per → lineEnd s ≤ endAt → Gives (.compareWrap b k) s s) ∧
    (x.running = true → x.count + 1 < x.per → x.per ≤ ((passTo endAt s).compare b k).count + 1 →
      waits (.compareWrap b k) endAt) ∧
    (x.running = true → x.per ≤ x.count + 1 →
      fires (.compareWrap b k) begins (if x.per ≤ x.count then [0, 2] else [0]))

/-- R452-R454, R457: a selected change of a watched pin, with no prescale, is captured when the channel's filter accepts
it, FLT samples after the synchroniser shows it, with the tick, the stamp and its LAG, sets FULL and disarms a
one-shot channel; a full channel that does not overwrite keeps its record and sets OVER; one that is off or not armed
records nothing. A write of CTRL or FILT sets the channel. A Tally counter at its top wraps to 0 with WRAP, and CLR
clears it. -/
def Obligations.CaptureAndTally : Prop :=
  ∀ (s : State) (b c : Nat) (v : Word), s.present b = true → c < 16 →
    let a := b * 0x100000 + 0xA1800 + 0x20 * c
    let ctrl := s.reg a
    let n := fld ctrl 5 0
    let p := s.pin b n
    let x := s.capture b c
    let e := fld ctrl 27 26
    let flt := s.reg (a + 4)
    let every := 2 ^ fld flt 11 8
    let at' := ((p.edgeAt + 2 + every - 1) / every + (max 1 (fld flt 7 0) - 1)) * every
    let full := (s.reg (a + 0x1C)).getLsbD 1 = true
    let keeps := full ∧ ctrl.getLsbD 28 = false
    let once := ctrl.getLsbD 30 = true
    let moves := ctrl.getLsbD 31 = true ∧ n < 48 ∧ p.sync ≠ x.level
    let selected := e = 3 ∨ (e = 1 ∧ p.sync = true) ∨ (e = 2 ∧ p.sync = false)
    let takes := moves ∧ at' ≤ s.now ∧ selected ∧ fld flt 23 16 = 0 ∧ ¬ (once ∧ ctrl.getLsbD 29 = false)
    let others := fun (t : State) => ∀ b' c', 16 * b' + c' ≠ 16 * b + c → t.capture b' c' = s.capture b' c'
    let only := fun (y : Capture) => ∃ t, Sys2Proof.Machine.exec (.capture b c) s = .next t ∧
      t = { s with captures := t.captures } ∧ t.capture b c = y ∧ others t
    let y := s.tally b c
    (((ctrl.getLsbD 31 = false) ∨ 48 ≤ n) → Gives (.capture b c) s s) ∧
    (moves → s.now < at' → lineEnd s ≤ at' → Gives (.capture b c) s s) ∧
    (moves → s.now < at' → at' < lineEnd s → s.pkgQueue = [] →
      Sys2Proof.Machine.exec (.capture b c) s = Sys2Proof.Machine.exec (.capture b c) (passTo at' s)) ∧
    (moves → at' ≤ s.now → ¬ selected → only { x with level := p.sync }) ∧
    (moves → at' ≤ s.now → selected → fld flt 23 16 = 0 → once → ctrl.getLsbD 29 = false →
      only { x with level := p.sync, changes := 0 }) ∧
    (takes → keeps → ∃ t, Sys2Proof.Machine.exec (.capture b c) s = .next t ∧
      SetsReg { s with captures := t.captures } t (a + 0x1C) (s.reg (a + 0x1C) ||| 4#32) ∧
      t.capture b c = { x with level := p.sync, changes := 0 }) ∧
    (takes → ¬ keeps → ∃ t, Sys2Proof.Machine.exec (.capture b c) s = .next t ∧ Side s t ∧
      (t.capture b c).level = p.sync ∧ (t.capture b c).changes = 0 ∧ (t.capture b c).lag = s.now - p.edgeAt ∧
      (t.capture b c).tick = tickBack s (s.now - p.edgeAt) ∧
      ((t.capture b c).dot, (t.capture b c).line, (t.capture b c).frame) =
        stampOf s b (if ctrl.getLsbD 23 = true then 4 else fld ctrl 21 20) ∧ others t ∧
      (t.reg (a + 0x1C)).getLsbD 1 = true ∧ (full → (t.reg (a + 0x1C)).getLsbD 2 = true) ∧
      (once → (t.reg a).getLsbD 29 = false)) ∧
    (∃ t, Sys2Proof.Machine.exec (.captureChannelWrite b c 4 v) s = .next t ∧ SetsReg s t (a + 4) (v &&& 0xFF0FFF#32)) ∧
    (∃ t, Sys2Proof.Machine.exec (.captureChannelWrite b c 0 v) s = .next t ∧
      SetsReg { s with captures := t.captures } t a ((v &&& 0xDCB0003F#32) ||| ((ctrl ||| v) &&& 0x20000000#32)) ∧
      others t ∧ t.capture b c = { x with
        level := if v.getLsbD 31 = true ∨ n ≠ fld v 5 0 then decide (fld v 5 0 < 48) && (s.pin b (fld v 5 0)).sync
                 else x.level,
        changes := if v.getLsbD 31 = true ∨ v.getLsbD 29 = true then 0 else x.changes }) ∧
    (y.cnt ≠ 2 ^ 48 - 1 → Gives (.tallyWrap b c) s s) ∧
    (y.cnt = 2 ^ 48 - 1 → y.countAt ≠ s.now + 1 → y.snapAt ≠ s.now + 1 →
      ∃ t, Sys2Proof.Machine.exec (.tallyWrap b c) s = .next t ∧ Side s t ∧ (t.tally b c).cnt = 0 ∧
        (t.tally b c).snap = y.snap ∧ (t.reg (b * 0x100000 + 0xB0014 + 0x20 * c)).getLsbD 0 = true) ∧
    (∃ t, Sys2Proof.Machine.exec (.tallyClear b c) s = .next t ∧ t = { s with tallies := t.tallies } ∧
      t.tally b c = { y with cnt := if y.countAt = s.now + 1 then 1 else 0 } ∧
      ∀ b' c', 16 * b' + c' ≠ 16 * b + c → t.tally b' c' = s.tally b' c')

/-- R467, R478-R480: a reset holds the part with every register at its reset word but GRST_CAUSE, which names the source,
and, except after POR, Ember's; the OTP, the flash and the commands that wait are kept. The loss of a forge clock or
of a Flux receive clock is one with cause CLOCK. SOFT needs its key and EN, the watchdog expires TIMEOUT milliseconds
after it was last loaded, only while it runs, and a wrong kick is a reset of the watchdog, a right one loads it. After
a THERMAL reset the part is held until the junction has cooled. The release starts the beam at F0 L0:D0 and the boot
logic, with BOOT_SEL as sampled; while a test instruction holds the part it does nothing. R484, R526-R529: an
instruction that tests the pins holds the part in reset as PIN does, one that does not leaves a part that runs as it
is; the test access port holds the instruction either way. FUSE blows only what is asked: a blank key-hash slot, a
revoke bit, SECURE, one more version fuse up to 64. -/
def Obligations.ResetsAndTestAccess : Prop :=
  (∀ (s : State) (v : Word) (sel : Nat),
    let resets := fun (c : Instr) (k : Nat) => ∃ t, Sys2Proof.Machine.exec c s = .next t ∧
      t.reg 0x812100 = BitVec.ofNat 32 k ∧
      (∀ a, 0x803000 ≤ a → a < 0x804000 → t.reg a = if k = 1 then regReset s.variant a else s.reg a) ∧
      (∀ a, a ≠ 0x812100 → ¬ (0x803000 ≤ a ∧ a < 0x804000) → t.reg a = regReset s.variant a) ∧
      t.boot.held = true ∧ t.boot.hot = (decide (k = 3) || (s.boot.held && s.boot.hot)) ∧
      t.beam.running = false ∧ t.tick = 0 ∧ t.hammers = State.reset.hammers ∧
      t.ports = State.reset.ports ∧ t.commits = State.reset.commits ∧ t.variant = s.variant ∧ t.otp = s.otp ∧
      t.flash = s.flash ∧ t.pending = s.pending ∧ ∀ b n, (t.pin b n).oe = false ∧ (t.pin b n).sync = false
    let key := fld v 31 24 = 0x5A ∧ v.getLsbD 0 = true
    let runs := (s.reg 0x812108).getLsbD 31 = true
    let ends := s.boot.wdogAt + fld (s.reg 0x812108) 15 0 * 1200000
    let ir := s.hostPort.ir
    let holds := ir = 0 ∨ (3 ≤ ir ∧ ir ≤ 6)
    let host := sel % 4 = 1 ∨ sel % 4 = 2
    resets .powerOnReset 1 ∧ resets .pinReset 2 ∧ resets .thermalReset 3 ∧ resets .clockReset 4 ∧
    (∀ b l, s.present b = true → l < 4 → resets (.clockLoss b .forge) 4 ∧ resets (.clockLoss b (.fluxRx l)) 4) ∧
    (key → resets (.softReset v) 5) ∧ (¬ key → Gives (.softReset v) s s) ∧
    (fld v 7 0 = 0xC3 → Gives (.watchdogKick v) s { s with boot := { s.boot with wdogAt := s.now } }) ∧
    (fld v 7 0 ≠ 0xC3 → resets (.watchdogKick v) 6) ∧
    (runs → s.now < ends → lineEnd s ≤ ends → Gives .watchdogExpiry s s) ∧
    (runs → s.now < ends → ends < lineEnd s → s.pkgQueue = [] →
      Sys2Proof.Machine.exec .watchdogExpiry s = Sys2Proof.Machine.exec .watchdogExpiry (passTo ends s)) ∧
    (runs → ends ≤ s.now → resets .watchdogExpiry 6) ∧ (¬ runs → Gives .watchdogExpiry s s) ∧
    ((s.boot.held = false ∨ s.boot.hot = true ∨ holds) → Gives (.resetRelease sel) s s) ∧
    (s.boot.held = true → s.boot.hot = false → ¬ holds → ∃ t, Sys2Proof.Machine.exec (.resetRelease sel) s = .next t ∧
      t.now = 0 ∧ t.beam = Beam.init ∧ t.boot = { Boot.init with sel := sel % 4, host := decide host } ∧
      t.reg 0x811010 = BitVec.ofNat 32 ((if s.otp.secure = true then 2 ^ 16 else 0) + s.otp.revoke % 4 * 2 ^ 12 + s.otp.svn % 128) ∧
      t.otp = s.otp ∧ t.hammers = s.hammers ∧ t.tick = s.tick ∧
      (host → ∀ b, s.present b = true → (t.mem b).training = true))) ∧
  (∀ (s : State) (op : FuseOp),
    let ir := s.hostPort.ir
    let held := ir = 0 ∨ (3 ≤ ir ∧ ir ≤ 6)
    let o := s.otp
    let selects := fun (k : Nat) => { s with hostPort := { s.hostPort with ir := k } }
    let holds := fun (c : Instr) (k : Nat) => (held → Gives c s (selects k)) ∧
      (¬ held → ∃ t r, Sys2Proof.Machine.exec c s = .next t ∧ Sys2Proof.Machine.exec .pinReset s = .next r ∧
        t = { r with hostPort := { r.hostPort with ir := k } })
    let blown : Otp := match op with
      | .keyHash 0 x => if o.slot0 = none then { o with slot0 := some (x % 2 ^ 256) } else o
      | .keyHash 1 x => if o.slot1 = none then { o with slot1 := some (x % 2 ^ 256) } else o
      | .keyHash _ _ => o
      | .revoke k => if k < 2 then { o with revoke := o.revoke ||| 1 <<< k } else o
      | .secure => { o with secure := true }
      | .svn => { o with svn := min 64 (o.svn + 1) }
    holds .extest 0 ∧ holds .highz 3 ∧ holds .clamp 4 ∧ holds .extestPulse 5 ∧ holds .extestTrain 6 ∧
    (¬ held → Gives .idcode s (selects 1) ∧ Gives .tapReset s (selects 1) ∧ Gives .samplePreload s (selects 2) ∧
      Gives .bypass s (selects 0xFF) ∧ Gives .testResetExit s s ∧ Gives (.fuse op) s { selects 0x80 with otp := blown }) ∧
    (held → (s.boot.held = false ∨ s.boot.hot = true) → ∀ c k, (c, k) ∈ [(.idcode, 1), (.tapReset, 1),
        (.samplePreload, 2), (.bypass, 0xFF), (.testResetExit, 0xFF)] →
      Gives c s { selects k with freeCount := s.freeCount + 1 }) ∧
    (held → s.boot.held = true → s.boot.hot = false → ∀ c k, (c, k) ∈ [(.idcode, 1), (.tapReset, 1), (.samplePreload, 2),
        (.bypass, 0xFF), (.testResetExit, 0xFF), (.fuse op, 0x80)] →
      ∃ t, Sys2Proof.Machine.exec c s = .next t ∧ t.boot.held = false ∧ t.hostPort.ir = k ∧ t.beam = Beam.init ∧ t.now = 0))

/-- R481-R485: while no step of a hammer is asked for, a boot step of image A that fails leaves its code in BOOT_STAT and
image B to be tried: 8 a failed read, 1 a bad header, 7 a lane that did not train, 4 no key on a secured part, 5 a bad
signature, 6 an old version. A good step leads to the next; the last starts the keepers START names and sets DONE. GO
takes the host's image while the boot logic waits for it. -/
def Obligations.BootSteps : Prop :=
  ∀ (s : State) (ok : Bool),
    let x := s.boot
    let ready := x.held = false ∧ stepsAsked s = []
    let imageA := ready ∧ x.host = false ∧ x.imgB = false
    let c := Instr.bootStepComplete ok
    let h := x.header
    let fails := fun (k : Nat) => ∃ t, Sys2Proof.Machine.exec c s = .next t ∧
      t = { s with regs := t.regs, boot := { x with imgB := true, step := 1, header := [] } } ∧
      fld (t.reg 0x811000) 23 20 = k ∧ ∀ a, a ≠ 0x811000 → t.reg a = s.reg a
    let goes := fun (k : Nat) => Gives c s { s with boot := { x with step := k } }
    let flash := memBytes s.flash (if x.imgB = true then 0x1000000 else 0)
    let slot := keySlot s h
    (stepsAsked s = [] → (x.held = true ∨ x.step = 0) → Gives c s s) ∧
    (imageA → (x.step = 1 ∨ x.step = 3 ∨ x.step = 5) → ok = false → fails 8) ∧
    (imageA → x.step = 1 → ok = true → leNat ((flash 1024).take 4) ≠ 0x42385855 → fails 1) ∧
    (ready → x.step = 2 → trained s = false → Gives c s s) ∧
    (imageA → x.step = 2 → trained s = true → (∃ b, s.present b = true ∧ fld (s.reg (b * 0x100000 + 0x70004)) 3 0 ≠ 15) → fails 7) ∧
    (ready → x.step = 2 → trained s = true → (∀ b, s.present b = true → fld (s.reg (b * 0x100000 + 0x70004)) 3 0 = 15) → goes 3) ∧
    (ready → x.step = 3 → ok = true → x.host = true → goes 4) ∧
    (ready → x.step = 3 → ok = true → x.host = false →
      Gives c s { s.gwrite 0 (flash (hdrLen h)) with boot := { x with step := 4 } }) ∧
    (imageA → x.step = 4 → slot = none → s.otp.secure = true → fails 4) ∧
    (imageA → x.step = 4 → (slot ≠ none ∨ s.otp.secure = false) → signatureOk s h = false → fails 5) ∧
    (imageA → x.step = 4 → (slot ≠ none ∨ s.otp.secure = false) → signatureOk s h = true → hdrSvn h < s.otp.svn → fails 6) ∧
    (ready → x.step = 4 → slot ≠ none → signatureOk s h = true → s.otp.svn ≤ hdrSvn h → goes 5) ∧
    (ready → x.step = 5 → ok = true → hdrNsec h = 0 → goes 6) ∧
    (ready → x.step = 6 → ∃ t, Sys2Proof.Machine.exec c s = .next t ∧
      t = { s with regs := t.regs, hammers := t.hammers, boot := { x with step := 0 } } ∧
      (t.reg 0x811000).getLsbD 8 = true ∧
      ∀ b, s.present b = true → (s.hammer b 0).run = .halted →
        ((hdrStart h).testBit b = true → (t.hammer b 0).run = .running) ∧
        ((hdrStart h).testBit b = false → t.hammer b 0 = s.hammer b 0)) ∧
    ((accessible s = false ∨ x.waiting = false) → Gives .bootGo s s) ∧
    (∀ base, accessible s = true → x.waiting = true → base = (s.reg 0x81100C).toNat / 64 * 64 →
      Gives .bootGo s { s with boot := { x with waiting := false, step := 1, base := base, header := s.gread base 1024 } })

/-- R465-R467: a lost clock holds its domain: the crossings of GDDR6 channels are flushed, a lane starts over with its
link down, the hammers of a cluster are off, and a lost reference sets REFLOST (GCLK_EVT bit 0); the loss of a forge
or Flux receive clock resets the package, that of a port's clock is its synthesiser's. The return of a held clock
restarts the domain with its reset values; no other clock returns. R473-R476: a reading of the currents, 1 us or more
after the last, is kept with the last thousand, and more than was granted tightens one step at once; a case
temperature over TMP_TLIM, read 1 ms or more after the last, sets TEMPWARN; a part held in reset has cooled once the
junction falls to 140 degrees. A request for another power state waits for its boundary; another code means RUN. -/
def Obligations.ClocksAndTemper : Prop :=
  ∀ (s : State) (b l : Nat) (dom : ClkDomain) (use : List Nat) (tc tj : Int) (v : Word), s.present b = true → l < 4 →
    let mem := s.mem b
    let chans := channelsOf dom
    let lane := dom = .laneTx l ∨ dom = .laneRx l ∨ dom = .lanePcs l
    let c := Instr.clockLoss b dom
    let back := Instr.domainClockReturn b dom
    let known := (b, dom) ∈ s.heldDoms
    let plain := dom ∈ [.anvil, .flux, .sensing, .retention, .pciePhy, .pcieCore, .spi, .jtag, .ember, .temper, .retimer l]
    let holds := fun (l' : List (Nat × ClkDomain)) => (b, dom) ∈ l' ∧ ∀ e, e ≠ (b, dom) → (e ∈ l' ↔ e ∈ s.heldDoms)
    let others := fun (t : State) => ∀ b' h, ¬ (b' = b ∧ h / 8 = l) → h < 16 → t.hammer b' h = s.hammer b' h
    let x := s.temper
    let want := if fld v 2 0 ≤ 3 then fld v 2 0 else 0
    let granted := ((upto s.n).map (fun c => fld (s.reg (0x801100 + 4 * c)) 15 0)).sum + worstOf s 64 + worstOf s 65 +
      fld (s.reg 0x801000) 15 8
    let waits := fun (c : Instr) (at' : Nat) => s.now < at' →
      (lineEnd s ≤ at' → Gives c s s) ∧
      (at' < lineEnd s → s.pkgQueue = [] → Sys2Proof.Machine.exec c s = Sys2Proof.Machine.exec c (passTo at' s))
    let read := Instr.tempSensorRead tc tj
    let limit := sx 16 (fld (s.reg 0x801010) 15 0)
    (dom = .forge ∨ dom = .fluxRx l → Sys2Proof.Machine.exec c s = Sys2Proof.Machine.exec .clockReset s) ∧
    (dom = .port l → Sys2Proof.Machine.exec c s = Sys2Proof.Machine.exec (.synthLockLoss b l) s) ∧
    (plain → ∃ l', Gives c s { s with heldDoms := l' } ∧ holds l') ∧
    (dom = .reference → ∃ t, Sys2Proof.Machine.exec c s = .next t ∧ holds t.heldDoms ∧
      SetsReg { s with heldDoms := t.heldDoms } t 0x812004 (s.reg 0x812004 ||| 1#32)) ∧
    (chans ≠ [] → ∃ t, Sys2Proof.Machine.exec c s = .next t ∧
      t = { s with memCtl := t.memCtl, heldDoms := t.heldDoms } ∧ holds t.heldDoms ∧
      (t.mem b).wbuf = mem.wbuf.filter (fun e => !chans.contains (unitChan e.unit)) ∧
      (t.mem b).reads = mem.reads.filter (fun r => r.st = 3 || !chans.contains (unitChan r.unit)) ∧
      (t.mem b).retrain = false ∧ (t.mem b).filling = false ∧ (t.mem b).training = false ∧
      ∀ b', b' ≠ b → t.mem b' = s.mem b') ∧
    (lane → ∃ t, Sys2Proof.Machine.exec c s = .next t ∧ holds t.heldDoms ∧ t.lane b l = Lane.init ∧
      (t.reg (b * 0x100000 + 0x90004 + 0x40 * l)).getLsbD 2 = false ∧
      t = { s with lanes := t.lanes, heldDoms := t.heldDoms, regs := t.regs, quench := t.quench }) ∧
    (dom = .cluster l → l < 2 → ∃ t, Sys2Proof.Machine.exec c s = .next t ∧ holds t.heldDoms ∧
      t = { s with hammers := t.hammers, heldDoms := t.heldDoms } ∧ others t ∧
      ∀ h, h / 8 = l → t.hammer b h = { s.hammer b h with run := .off, wait := none, rptLeft := 0 }) ∧
    (¬ known → Gives back s s) ∧
    (known → ∃ t, Sys2Proof.Machine.exec back s = .next t ∧
      t = { s with hammers := t.hammers, lanes := t.lanes, memCtl := t.memCtl, heldDoms := t.heldDoms, regs := t.regs } ∧
      (∀ e, e ∈ t.heldDoms ↔ e ∈ s.heldDoms ∧ e ≠ (b, dom)) ∧
      (chans ≠ [] → t.mem b = MemCtl.init ∧ t.reg (b * 0x100000 + 0x70004) = 0#32) ∧
      (lane → t.lane b l = Lane.init ∧ t.reg (b * 0x100000 + 0x90004 + 0x40 * l) =
        s.reg (b * 0x100000 + 0x90004 + 0x40 * l) &&& 0xFFFFFFF0#32) ∧
      (dom = .cluster l → l < 2 → others t ∧ ∀ h, h / 8 = l → t.hammer b h = Hammer.init (16 * b + h) ∧
        ∀ o, o < 0x1000 → t.reg (b * 0x100000 + 0x40000 + 0x1000 * h + o) =
          regReset s.variant (b * 0x100000 + 0x40000 + 0x1000 * h + o)) ∧
      (plain ∨ dom = .reference → t = { s with heldDoms := t.heldDoms })) ∧
    waits (.temperCurrentCheck use) (x.checkAt + 1200) ∧
    (x.checkAt + 1200 ≤ s.now → ∃ t, Sys2Proof.Machine.exec (.temperCurrentCheck use) s = .next t ∧
      t = { s with regs := t.regs, temper := t.temper } ∧ t.temper.checkAt = s.now ∧
      t.temper.sense = (use :: x.sense).take 1000 ∧ (∀ a, a / 0x1000 ≠ 0x801 → t.reg a = s.reg a) ∧
      (granted < use.sum → t.temper.steps = min 10 (x.steps + 1) ∧ (t.reg 0x801018).getLsbD 2 = true ∧
        t.reg 0x801020 = s.reg 0x801020 + 1#32) ∧
      (use.sum ≤ granted → t.temper.steps = x.steps ∧ t.reg 0x801020 = s.reg 0x801020 ∧
        t.reg 0x801014 = s.reg 0x801014)) ∧
    (s.boot.held = false → waits read (x.sensorAt + 1200000)) ∧
    (s.boot.held = false → x.sensorAt + 1200000 ≤ s.now → ∃ t, Sys2Proof.Machine.exec read s = .next t ∧
      t = { s with regs := t.regs, temper := { x with tcase := tc, sensorAt := s.now } } ∧
      fld (t.reg 0x80100C) 15 0 = narrow 16 tc ∧
      fld (t.reg 0x80100C) 31 16 = narrow 16 tj ∧ (∀ a, a ∉ [0x80100C, 0x801018] → t.reg a = s.reg a) ∧
      (limit < tc → t.reg 0x801018 = s.reg 0x801018 ||| 0x10#32) ∧ (tc ≤ limit → t.reg 0x801018 = s.reg 0x801018)) ∧
    (s.boot.held = true → Gives read s
      { s with boot := { s.boot with hot := s.boot.hot && decide (140 * 8 < tj) } }) ∧
    ((want = x.state ∧ x.req = none) → ∃ t, Sys2Proof.Machine.exec (.powerStateRequest v) s = .next t ∧
      SetsReg s t 0x801030 (v &&& 7#32)) ∧
    (¬ (want = x.state ∧ x.req = none) → x.state ≠ 2 → ∃ t, Sys2Proof.Machine.exec (.powerStateRequest v) s = .next t ∧
      SetsReg { s with temper := { x with req := some want, leftAt := s.now } } t 0x801030 (v &&& 7#32)) ∧
    (¬ (want = x.state ∧ x.req = none) → x.state = 2 → ∃ t, Sys2Proof.Machine.exec (.powerStateRequest v) s = .next t ∧
      t = { s with regs := t.regs, memCtl := t.memCtl, temper := { x with req := some want, leftAt := s.now } } ∧
      t.reg 0x801030 = v &&& 7#32 ∧
      (want ≠ 2 → want ≠ 3 → fld (s.reg (b * 0x100000 + 0x70004)) 3 0 = 15 → (t.mem b).retrain = true))

/-- R270-R273, R79, R438: EMBER is not entered where a level slot is asserted already, and the request ends; else the beam
and the ports stop, the lanes go down, every hammer but the keepers is off and the pads of a supplied bank sleep;
where no port ran, nothing else changes. In EMBER the timer expires; a sample in which no slot is asserted and no edge
is seen is only noted; any other wakes the part, with the beam at L0:D0 of the next frame. Outside EMBER nothing of it
acts. -/
def Obligations.EmberSleepAndWake : Prop :=
  ∀ (s : State) (ins : List Nat),
    let x := s.temper
    let awake := s.ember.on = false
    let enters := awake ∧ s.boot.held = false
    let now := wakeLevels s ins
    let asserted := ∃ k, k < 48 ∧ levelAsserted s now k = true
    let hit := ∃ k, k < 48 ∧ slotHit s s.ember.levels now k = true
    let still := ∀ b p, s.present b = true → p < 4 → (s.port b p).running = false
    (¬ enters → Gives (.emberEnter ins) s s) ∧
    (enters → asserted → ∃ t, Sys2Proof.Machine.exec (.emberEnter ins) s = .next t ∧
      t = { s with regs := t.regs, temper := { x with req := none } } ∧ (t.reg 0x803004).getLsbD 1 = true ∧
      levelAsserted s now (fld (t.reg 0x803004) 13 8) = true ∧
      (∀ k, k < fld (t.reg 0x803004) 13 8 → levelAsserted s now k = false) ∧ ∀ a, a ≠ 0x803004 → t.reg a = s.reg a) ∧
    (enters → ¬ asserted → ∃ t, Sys2Proof.Machine.exec (.emberEnter ins) s = .next t ∧
      t.ember = ⟨true, now, x.state⟩ ∧ t.temper = { x with state := 3, req := none } ∧
      t.beam = { s.beam with running := false } ∧ t.tuy = { s.tuy with running := false } ∧ t.otp = s.otp ∧ t.flash = s.flash ∧ t.pending = s.pending ∧
      (∀ b h, s.present b = true → 0 < h → h < 16 → (t.hammer b h).run = .off) ∧
      (∀ b p, s.present b = true → p < 4 → (t.port b p).running = false ∧ t.lane b p = Lane.init) ∧
      (∀ b n, s.present b = true → n < 48 → (s.bank b (n / 16)).supply ≠ .off →
        (t.pin b n).sleep = some (sleepOf s b n)) ∧
      (still → (∀ b, s.present b = true → t.hammer b 0 = s.hammer b 0) ∧
        t = { s with regs := t.regs, hammers := t.hammers, ports := t.ports, pins := t.pins, lanes := t.lanes,
                     quench := t.quench, tuy := t.tuy, beam := t.beam, ember := t.ember, temper := t.temper })) ∧
    (awake → Gives .emberTimerExpire s s) ∧
    (¬ awake → ∃ t, Sys2Proof.Machine.exec .emberTimerExpire s = .next t ∧ SetsReg s t 0x803008 0#32) ∧
    (awake → Gives (.emberWake ins) s s) ∧
    (¬ awake → ¬ hit → Gives (.emberWake ins) s { s with ember := { s.ember with levels := now } }) ∧
    (¬ awake → hit → ∃ t, Sys2Proof.Machine.exec (.emberWake ins) s = .next t ∧ t.ember.on = false ∧
      t.beam.running = true ∧ t.beam.line = 0 ∧ t.beam.dot = 0 ∧ t.beam.frame = (s.beam.frame + 1) % 2 ^ 48 ∧
      t.beam.htotal = fld (s.reg 4) 15 0 ∧ t.otp = s.otp ∧ t.flash = s.flash ∧ t.pending = s.pending ∧
      (t.reg 0x803004).getLsbD 0 = true ∧ t.now = s.now)

/-- R487, R488, R490, R491: a whole dword of a Memory Write and a whole word of an SPI WRITE are host register writes, a
part of a dword or word is discarded with BYTE or SPIERR of HST_ERR; a read answers the words it names, in SPI as in
PCIe; STATUS answers its byte; another SPI command sets SPIERR. Once its deadline line has started, the oldest posted
write is discarded, with DLMISS, or a waiting read ends with 0. A part held in reset or asleep answers nothing. R487,
R498, R499, R501: a doorbell sets sticky bit 836 + d and private interrupt d + 1 in the hammers its mask names;
HOST_IRQ_SET sets the host's flags; the link's width and speed show in HST_STAT; configuration writes reach Command
and BAR0 alone. A host reset puts the host port's and the data ports' registers and queues at their reset state and
drops what host software's HOLD collected, with HOLDLOST (HST_ERR bit 5) where it held something, and its commit not
yet accepted. -/
def Obligations.HostTransactions : Prop :=
  (∀ (s : State) (a n : Nat) (v : Word) (d : List Byte) (cmd : Nat) (e : Posted), stepsAsked s = [] → a < 2 ^ 24 →
    let open' := accessible s = true
    let h := s.hostPort
    let err := s.reg 0x810004
    let word := leBytes 4 v.toNat
    let dead := ((s.beam.frame + 1) % 2 ^ 48, s.beam.line)
    let gone := open' ∧ h.posted = [e] ∧ h.wait = [] ∧ linePassed s e.dead = true
    let both := fun (c c' : Instr) => ∃ t, Sys2Proof.Machine.exec c s = .next t ∧ Sys2Proof.Machine.exec c' s = .next t
    let status := (if (s.reg 0x811000).getLsbD 8 = true then 8 else 0) + (if (s.reg 0x811000).getLsbD 10 = true then 4 else 0) +
      (if err = 0#32 then 0 else 2) + (if h.posted = [] then 0 else 1)
    (¬ open' → ∀ c, c ∈ [.pcieMemoryWrite a d, .pcieMemoryRead a n, .spiWrite a d, .spiRead a n, .spiStatus,
      .spiBadCommand cmd, .hostAccessDeadline] → Gives c s s) ∧
    (open' → a % 4 = 0 → both (.pcieMemoryWrite a word) (.registerWrite .host a v) ∧
      both (.spiWrite a word) (.registerWrite .host a v)) ∧
    (open' → a < 0xC00000 → a % 4 + d.length ≤ 4 → 0 < d.length → d.length < 4 →
      ∃ t, Sys2Proof.Machine.exec (.pcieMemoryWrite a d) s = .next t ∧ t = { s with regs := t.regs } ∧
        t.reg 0x810004 = err ||| 1#32 ∧ t.reg 0x81000C = BitVec.ofNat 32 (a - a % 4) ∧
        ∀ a', a' ≠ 0x810004 → a' ≠ 0x81000C → t.reg a' = s.reg a') ∧
    (open' → 0 < d.length → d.length < 4 → ∃ t, Sys2Proof.Machine.exec (.spiWrite a d) s = .next t ∧
      t = { s with regs := t.regs } ∧ t.reg 0x810004 = err ||| 0x10#32 ∧
      t.reg 0x81000C = BitVec.ofNat 32 (a / 4 * 4) ∧
      ∀ a', a' ≠ 0x810004 → a' ≠ 0x81000C → t.reg a' = s.reg a') ∧
    (open' → a % 4 = 0 → a < 0xC00000 → both (.spiRead a 1) (.pcieMemoryRead a 4)) ∧
    (open' → ∀ r, r ∈ [0x800000, 0x800004, 0x800008] →
      (h.posted = [] → h.wait = [] → Gives (.pcieMemoryRead r 4) s
        { s with hostPort := { h with out := [s.reg r], wait := [], waitDead := dead } }) ∧
      (h.wait ≠ [] → Gives (.pcieMemoryRead r 4) s { s with hostPort := { h with wait := h.wait ++ [r] } })) ∧
    (open' → Gives .spiStatus s { s with hostPort := { h with out := [BitVec.ofNat 32 status] } }) ∧
    (open' → cmd ∉ [2, 5, 0xB] → ∃ t, Sys2Proof.Machine.exec (.spiBadCommand cmd) s = .next t ∧
      SetsReg s t 0x810004 (err ||| 0x10#32)) ∧
    (cmd ∈ [2, 5, 0xB] → Gives (.spiBadCommand cmd) s s) ∧
    (open' → h.posted = [] → (h.wait = [] ∨ linePassed s h.waitDead = false) → Gives .hostAccessDeadline s s) ∧
    (open' → h.posted = [] → h.wait = [a] → linePassed s h.waitDead = true →
      ∃ t, Sys2Proof.Machine.exec .hostAccessDeadline s = .next t ∧
        t = { s with regs := t.regs, dports := t.dports, hostPort := { h with out := h.out ++ [0#32], wait := [] } } ∧
        (∀ k, dataPortOf a = some k → t.reg (0x820018 + 0x40 * k) = s.reg (0x820018 + 0x40 * k) ||| 4#32) ∧
        (dataPortOf a = none → t.reg 0x810004 = err ||| 4#32 ∧ t.reg 0x81000C = BitVec.ofNat 32 a ∧
          t.dports = s.dports ∧ ∀ a', a' ≠ 0x810004 → a' ≠ 0x81000C → t.reg a' = s.reg a')) ∧
    (∀ q, open' → h.posted = e :: q → linePassed s e.dead = false → Gives .hostAccessDeadline s s) ∧
    (gone → e.port < 4 → ∃ t, Sys2Proof.Machine.exec .hostAccessDeadline s = .next t ∧
      SetsReg { s with hostPort := { h with posted := [] } } t (0x820018 + 0x40 * e.port)
        (s.reg (0x820018 + 0x40 * e.port) ||| 4#32)) ∧
    (gone → 4 ≤ e.port → ∃ t, Sys2Proof.Machine.exec .hostAccessDeadline s = .next t ∧
      t = { s with regs := t.regs, hostPort := { h with posted := [] } } ∧ t.reg 0x810004 = err ||| 4#32 ∧
      t.reg 0x81000C = BitVec.ofNat 32 e.addr ∧ ∀ a', a' ≠ 0x810004 → a' ≠ 0x81000C → t.reg a' = s.reg a')) ∧
  (∀ (s : State) (v : Word) (up : Bool) (width speed reg : Nat), accessible s = true →
    let b := fld v 10 8
    let d := fld v 3 0
    let h := s.hostPort
    let own := fun (a : Nat) => (0x810000 ≤ a ∧ a < 0x811000) ∨ (0x820000 ≤ a ∧ a < 0x830000)
    let held := heldOf s 16
    let word := Tbl.get (fun _ => 0#32) h.cfg
    let mask := if reg = 4 then 0x543#32 else if reg = 0x10 then 0xFF000000#32 else 0#32
    (s.present b = false → Gives (.doorbell v) s s) ∧
    (s.present b = true → ∃ t, Sys2Proof.Machine.exec (.doorbell v) s = .next t ∧
      (∀ k, k < 16 → v.getLsbD (16 + k) = true →
        (t.stickyOf b k).testBit (836 + d) = true ∧ (t.ppendOf b k).testBit (d + 1) = true) ∧
      Side s t ∧
      ∀ k, k < 16 → v.getLsbD (16 + k) = false → t.stickyOf b k = s.stickyOf b k ∧ t.ppendOf b k = s.ppendOf b k) ∧
    (∃ t, Sys2Proof.Machine.exec (.hostIrqSet v) s = .next t ∧ 
      SetsReg { s with hostPort := { h with irqSet := t.hostPort.irqSet } } t 0x810014 (s.reg 0x810014 ||| (v &&& 0xFFFF#32)) ∧
      t.hostPort.irqSet = (s.now + 1, (if h.irqSet.1 = s.now + 1 then h.irqSet.2 else 0#32) ||| v)) ∧
    (∃ t, Sys2Proof.Machine.exec (.pcieLinkChange up width speed) s = .next t ∧ SetsReg s t 0x810000
      (if up = true then BitVec.ofNat 32 (width % 16 * 16 + speed % 8 * 2 + 1) else 0#32)) ∧
    (reg % 4 = 0 → ∃ t, Sys2Proof.Machine.exec (.pcieConfigAccess reg (some v)) s = .next t ∧
      t = { s with hostPort := { h with cfg := t.hostPort.cfg } } ∧
      Tbl.get (fun _ => 0#32) t.hostPort.cfg reg = (word reg &&& ~~~ mask) ||| (v &&& mask) ∧
      ∀ r, r ≠ reg → Tbl.get (fun _ => 0#32) t.hostPort.cfg r = word r) ∧
    Gives (.pcieConfigAccess 8 none) s
      { s with hostPort := { h with out := [BitVec.ofNat 32 (0x04800000 + fld (s.reg 0x800004) 7 0)] } } ∧
    Gives (.pcieConfigAccess 0x10 none) s { s with hostPort := { h with out := [word 0x10] } } ∧
    (∃ t, Sys2Proof.Machine.exec .hostReset s = .next t ∧
      t = { s with regs := t.regs, commits := t.commits, latches := t.latches, dports := [],
                   hostPort := { HostPort.init with ir := h.ir } } ∧
      heldOf t 16 = [] ∧
      t.commits.live = s.commits.live.filter (fun c => c.accepted || c.billet != 0 || c.ctx != 16) ∧ (t.reg 0x80F80).getLsbD 0 = false ∧
      (∀ a, own a → a ≠ 0x810004 → t.reg a = regReset s.variant a) ∧
      t.reg 0x810004 = (if held = [] then 0#32 else 0x20#32) ∧
      ∀ a, ¬ own a → a ≠ 0x80F80 → t.reg a = s.reg a))

/-- R492-R495: a write of ADDR aligns it, restarts the row and drops what was prefetched. A word written to DATA is posted
with the port's control, address and deadline, a word read comes from its space, and either advances ADDR and counts.
With prefetch on the next word is read ahead. A waiting word of hearth RAM is stored when it is accepted, and
prefetched words are then stale. -/
def Obligations.DataPorts : Prop :=
  ∀ (s : State) (k : Nat) (v : Word) (e : Posted) (rest : List Posted), stepsAsked s = [] → k < 4 → accessible s = true →
    let a := 0x820000 + 0x40 * k
    let h := s.hostPort
    let x := s.dport k
    let dead := ((s.beam.frame + 1) % 2 ^ 48, s.beam.line)
    let idle := h.posted = [] ∧ h.wait = []
    let ctl := s.reg a
    let addr := (s.reg (a + 4)).toNat
    let b := fld ctl 10 8
    let len := fld (s.reg (a + 0xC)) 15 0
    let step := (addr + (s.reg (a + 8)).toNat) % 2 ^ 32
    let row := (x.row + (s.reg (a + 0x10)).toNat) % 2 ^ 32
    let advances := fun (t : State) (y : DPort) => t.reg (a + 0x1C) = s.reg (a + 0x1C) + 1#32 ∧
      (len = 0 → t.reg (a + 4) = BitVec.ofNat 32 step ∧ t.dport k = y) ∧
      (len ≠ 0 → x.n + 1 ≠ len → t.reg (a + 4) = BitVec.ofNat 32 step ∧ t.dport k = { y with n := (x.n + 1) % 2 ^ 16 }) ∧
      (len ≠ 0 → x.n + 1 = len → t.reg (a + 4) = BitVec.ofNat 32 row ∧ t.dport k = { y with row := row, n := 0 }) ∧
      (∀ a', a' ≠ a + 4 → a' ≠ a + 0x1C → t.reg a' = s.reg a') ∧ ∀ k', k' ≠ k → t.dport k' = s.dport k'
    let hearth := s.present b = true ∧ fld ctl 13 12 = 1 ∧ s.hbad b (addr % 2 ^ 21) 4 = false
    let stalled := ∃ c ∈ s.commits.live, c.accepted = false ∧ c.billet = 0 ∧ c.ctx = 16
    (∃ t, Sys2Proof.Machine.exec (.dataPortAddrWrite k v) s = .next t ∧
      SetsReg { s with dports := t.dports } t (a + 4) (v &&& 0xFFFFFFFC#32) ∧
      t.dport k = ⟨(v &&& 0xFFFFFFFC#32).toNat, 0, []⟩ ∧ ∀ k', k' ≠ k → t.dport k' = s.dport k') ∧
    ((h.posted.filter (fun p => p.port = k)).length < 1024 →
      ∃ t, Sys2Proof.Machine.exec (.dataPortAccess k (some v)) s = .next t ∧
        t = { s with regs := t.regs, dports := t.dports, hostPort := { h with posted := h.posted ++ [⟨k, ctl, addr, v, dead⟩] } } ∧
        advances t x) ∧
    (idle → x.pref = [] → hearth → ∃ t, Sys2Proof.Machine.exec (.dataPortAccess k none) s = .next t ∧
      t = { s with regs := t.regs, dports := t.dports,
                   hostPort := { h with out := [BitVec.ofNat 32 (leNat (s.hread b (addr % 2 ^ 21) 4))], waitDead := dead } } ∧
      advances t x) ∧
    (∀ w q, idle → x.pref = (addr, w) :: q → dpFrozen s ctl = false → ∃ t, Sys2Proof.Machine.exec (.dataPortAccess k none) s = .next t ∧
      t = { s with regs := t.regs, dports := t.dports, hostPort := { h with out := [w], waitDead := dead } } ∧
      advances t { x with pref := q }) ∧
    (ctl.getLsbD 31 = false → Gives (.dataPortPrefetch k) s s) ∧
    (ctl.getLsbD 31 = true → x.pref = [] → hearth → ∃ t, Sys2Proof.Machine.exec (.dataPortPrefetch k) s = .next t ∧
      t = { s with dports := t.dports } ∧
      t.dport k = { x with pref := [(addr, BitVec.ofNat 32 (leNat (s.hread b (addr % 2 ^ 21) 4)))] }) ∧
    ((∀ p ∈ h.posted, p.port ≠ k) → Gives (.dataPortWordAccept k) s s) ∧
    (h.posted = e :: rest → h.wait = [] → e.port = k → fld e.ctl 13 12 = 1 → s.present (fld e.ctl 10 8) = true → ¬ stalled →
      ∃ t, Sys2Proof.Machine.exec (.dataPortWordAccept k) s = .next t ∧
        t = { s with hearth := t.hearth, dports := t.dports, hostPort := { h with posted := rest } } ∧
        t.hread (fld e.ctl 10 8) (e.addr % 2 ^ 21) 4 = leBytes 4 e.val.toNat ∧
        ∀ j, j < 4 → t.dport j = { s.dport j with pref := [] })
end

