-- ==== Sys2Proof/Laws/Table.lean ====
section
/-! SUPPORT. Sparse tables: what a read after a write gives, and that every operation keeps the canonical form. -/

namespace Sys2Proof.Machine

variable {α : Type} [DecidableEq α] {d : Nat → α}

/-- Every key of the table is above `k`. -/
def Tbl.above (k : Nat) (m : Tbl α) : Prop := ∀ e ∈ m, k < e.1

/-- Canonical form, by its parts. -/
theorem Tbl.wf_cons {k : Nat} {v : α} {t : Tbl α} :
    Tbl.wf d ((k, v) :: t) = true ↔ v ≠ d k ∧ Tbl.above k t ∧ Tbl.wf d t = true := by
  induction t generalizing k v with
  | nil => simp [Tbl.wf, Tbl.above]
  | cons e t ih =>
    obtain ⟨k', v'⟩ := e
    constructor
    · intro h
      simp only [Tbl.wf, Bool.and_eq_true, decide_eq_true_eq] at h
      obtain ⟨⟨h1, h2⟩, h3⟩ := h
      refine ⟨h1, ?_, h3⟩
      intro e he
      rcases List.mem_cons.mp he with rfl | he
      · exact h2
      · exact lt_trans h2 ((ih.mp h3).2.1 e he)
    · rintro ⟨h1, h2, h3⟩
      simp only [Tbl.wf, Bool.and_eq_true, decide_eq_true_eq]
      exact ⟨⟨h1, h2 (k', v') (by simp)⟩, h3⟩

omit [DecidableEq α] in
theorem Tbl.get_above {k : Nat} {m : Tbl α} (h : Tbl.above k m) : Tbl.get d m k = d k := by
  induction m with
  | nil => rfl
  | cons e t ih =>
    obtain ⟨k', v'⟩ := e
    have h1 : k < k' := h (k', v') (by simp)
    have h2 : k ≠ k' := by omega
    simp only [Tbl.get, if_neg h2]
    exact ih (fun e he => h e (by simp [he]))

omit [DecidableEq α] in
theorem Tbl.mem_put {k : Nat} {v : α} {m : Tbl α} {e : Nat × α} (h : e ∈ Tbl.put m k v) : e = (k, v) ∨ e ∈ m := by
  induction m with
  | nil => simp [Tbl.put] at h; exact .inl h
  | cons a t ih =>
    obtain ⟨k', v'⟩ := a
    simp only [Tbl.put] at h
    split at h
    · rcases List.mem_cons.mp h with rfl | h
      · exact .inl rfl
      · exact .inr h
    · split at h
      · rcases List.mem_cons.mp h with rfl | h
        · exact .inl rfl
        · exact .inr (List.mem_cons_of_mem _ h)
      · rcases List.mem_cons.mp h with rfl | h
        · exact .inr (by simp)
        · rcases ih h with h | h
          · exact .inl h
          · exact .inr (List.mem_cons_of_mem _ h)

/-- Dropping entries keeps the canonical form. -/
theorem Tbl.wf_filter {p : Nat × α → Bool} {m : Tbl α} (h : Tbl.wf d m = true) : Tbl.wf d (m.filter p) = true := by
  induction m with
  | nil => rfl
  | cons a t ih =>
    obtain ⟨k', v'⟩ := a
    obtain ⟨h1, h2, h3⟩ := Tbl.wf_cons.mp h
    rw [List.filter_cons]
    split
    · exact Tbl.wf_cons.mpr ⟨h1, fun e he => h2 e (List.mem_filter.mp he).1, ih h3⟩
    · exact ih h3

theorem Tbl.wf_erase {k : Nat} {m : Tbl α} (h : Tbl.wf d m = true) : Tbl.wf d (Tbl.erase m k) = true := Tbl.wf_filter h

theorem Tbl.wf_put {k : Nat} {v : α} {m : Tbl α} (hv : v ≠ d k) (h : Tbl.wf d m = true) :
    Tbl.wf d (Tbl.put m k v) = true := by
  induction m with
  | nil => simp [Tbl.put, Tbl.wf, hv]
  | cons a t ih =>
    obtain ⟨k', v'⟩ := a
    obtain ⟨h1, h2, h3⟩ := Tbl.wf_cons.mp h
    simp only [Tbl.put]
    split
    · rename_i hk
      refine Tbl.wf_cons.mpr ⟨hv, ?_, h⟩
      intro e he
      rcases List.mem_cons.mp he with rfl | he
      · exact hk
      · exact lt_trans hk (h2 e he)
    · split
      · rename_i hk
        exact Tbl.wf_cons.mpr ⟨hv, fun e he => hk ▸ h2 e he, h3⟩
      · refine Tbl.wf_cons.mpr ⟨h1, ?_, ih h3⟩
        intro e he
        rcases Tbl.mem_put he with rfl | he
        · change k' < k
          omega
        · exact h2 e he

/-- A write keeps the canonical form. -/
theorem Tbl.wf_set {k : Nat} {v : α} {m : Tbl α} (h : Tbl.wf d m = true) : Tbl.wf d (Tbl.set d m k v) = true := by
  unfold Tbl.set
  split
  · exact Tbl.wf_erase h
  · rename_i hv
    exact Tbl.wf_put hv h

theorem Tbl.wf_setRun {k st : Nat} {vs : List α} {m : Tbl α} (h : Tbl.wf d m = true) :
    Tbl.wf d (Tbl.setRun d m k st vs) = true := by
  induction vs generalizing m k with
  | nil => exact h
  | cons v vs ih => exact ih (Tbl.wf_set h)

omit [DecidableEq α] in
theorem Tbl.get_put_same {k : Nat} {v : α} {m : Tbl α} : Tbl.get d (Tbl.put m k v) k = v := by
  induction m with
  | nil => simp [Tbl.put, Tbl.get]
  | cons a t ih =>
    obtain ⟨k', v'⟩ := a
    simp only [Tbl.put]
    split
    · simp [Tbl.get]
    · split
      · simp [Tbl.get]
      · rename_i h1 h2
        simp [Tbl.get, h2, ih]

omit [DecidableEq α] in
theorem Tbl.get_put_other {k j : Nat} {v : α} {m : Tbl α} (hj : j ≠ k) :
    Tbl.get d (Tbl.put m k v) j = Tbl.get d m j := by
  induction m with
  | nil => simp [Tbl.put, Tbl.get, hj]
  | cons a t ih =>
    obtain ⟨k', v'⟩ := a
    simp only [Tbl.put]
    split
    · simp [Tbl.get, hj]
    · split
      · rename_i h1 h2
        subst h2
        simp [Tbl.get, hj]
      · simp [Tbl.get, ih]

omit [DecidableEq α] in
theorem Tbl.get_erase_other {k j : Nat} {m : Tbl α} (hj : j ≠ k) : Tbl.get d (Tbl.erase m k) j = Tbl.get d m j := by
  unfold Tbl.erase
  induction m with
  | nil => rfl
  | cons a t ih =>
    obtain ⟨k', v'⟩ := a
    rw [List.filter_cons]
    split
    · simp only [Tbl.get, ih]
    · rename_i h
      have h1 : k' = k := by simpa using h
      subst h1
      simp only [Tbl.get, if_neg hj, ih]

omit [DecidableEq α] in
theorem Tbl.get_erase_same {k : Nat} {m : Tbl α} : Tbl.get d (Tbl.erase m k) k = d k := by
  unfold Tbl.erase
  induction m with
  | nil => rfl
  | cons a t ih =>
    obtain ⟨k', v'⟩ := a
    rw [List.filter_cons]
    split
    · rename_i h
      have h1 : k ≠ k' := fun e => by simp [e] at h
      simp only [Tbl.get, if_neg h1, ih]
    · exact ih

/-- A read after a write of another key is as before. -/
theorem Tbl.get_set_other {k j : Nat} {v : α} {m : Tbl α} (hj : j ≠ k) :
    Tbl.get d (Tbl.set d m k v) j = Tbl.get d m j := by
  unfold Tbl.set
  split
  · exact Tbl.get_erase_other hj
  · exact Tbl.get_put_other hj

/-- A read after a write of the same key gives the value written. -/
theorem Tbl.get_set_same {k : Nat} {v : α} {m : Tbl α} : Tbl.get d (Tbl.set d m k v) k = v := by
  unfold Tbl.set
  split
  · rename_i hv
    rw [Tbl.get_erase_same, hv]
  · exact Tbl.get_put_same

/-- A read after a write. -/
theorem Tbl.get_set {k j : Nat} {v : α} {m : Tbl α} :
    Tbl.get d (Tbl.set d m k v) j = if j = k then v else Tbl.get d m j := by
  split
  · rename_i h
    rw [h, Tbl.get_set_same]
  · rename_i h
    exact Tbl.get_set_other h

end Sys2Proof.Machine
end

