-- ==== Sys2Proof/Laws/State.lean ====
section
/-! SUPPORT. One lemma per field for every named update of the state, and what reading gives after a write. -/

namespace Sys2Proof.Machine

variable (s : State)

/-! ### State.setReg -/

@[simp] theorem State.setReg_variant (a : Nat) (v : Word) : (s.setReg a v).variant = s.variant := rfl
@[simp] theorem State.setReg_now (a : Nat) (v : Word) : (s.setReg a v).now = s.now := rfl
@[simp] theorem State.setReg_freeCount (a : Nat) (v : Word) : (s.setReg a v).freeCount = s.freeCount := rfl
@[simp] theorem State.setReg_eff (a : Nat) (v : Word) : (s.setReg a v).eff = s.eff := rfl
@[simp] theorem State.setReg_latches (a : Nat) (v : Word) : (s.setReg a v).latches = s.latches := rfl
@[simp] theorem State.setReg_beam (a : Nat) (v : Word) : (s.setReg a v).beam = s.beam := rfl
@[simp] theorem State.setReg_pkgQueue (a : Nat) (v : Word) : (s.setReg a v).pkgQueue = s.pkgQueue := rfl
@[simp] theorem State.setReg_genlock (a : Nat) (v : Word) : (s.setReg a v).genlock = s.genlock := rfl
@[simp] theorem State.setReg_ports (a : Nat) (v : Word) : (s.setReg a v).ports = s.ports := rfl
@[simp] theorem State.setReg_evtAt (a : Nat) (v : Word) : (s.setReg a v).evtAt = s.evtAt := rfl
@[simp] theorem State.setReg_sticky (a : Nat) (v : Word) : (s.setReg a v).sticky = s.sticky := rfl
@[simp] theorem State.setReg_commits (a : Nat) (v : Word) : (s.setReg a v).commits = s.commits := rfl
@[simp] theorem State.setReg_strikeRam (a : Nat) (v : Word) : (s.setReg a v).strikeRam = s.strikeRam := rfl
@[simp] theorem State.setReg_cursors (a : Nat) (v : Word) : (s.setReg a v).cursors = s.cursors := rfl
@[simp] theorem State.setReg_liveQ (a : Nat) (v : Word) : (s.setReg a v).liveQ = s.liveQ := rfl
@[simp] theorem State.setReg_liveOut (a : Nat) (v : Word) : (s.setReg a v).liveOut = s.liveOut := rfl
@[simp] theorem State.setReg_reflexWait (a : Nat) (v : Word) : (s.setReg a v).reflexWait = s.reflexWait := rfl
@[simp] theorem State.setReg_hammers (a : Nat) (v : Word) : (s.setReg a v).hammers = s.hammers := rfl
@[simp] theorem State.setReg_progMem (a : Nat) (v : Word) : (s.setReg a v).progMem = s.progMem := rfl
@[simp] theorem State.setReg_banks (a : Nat) (v : Word) : (s.setReg a v).banks = s.banks := rfl
@[simp] theorem State.setReg_privBits (a : Nat) (v : Word) : (s.setReg a v).privBits = s.privBits := rfl
@[simp] theorem State.setReg_irq (a : Nat) (v : Word) : (s.setReg a v).irq = s.irq := rfl
@[simp] theorem State.setReg_ppend (a : Nat) (v : Word) : (s.setReg a v).ppend = s.ppend := rfl
@[simp] theorem State.setReg_slots (a : Nat) (v : Word) : (s.setReg a v).slots = s.slots := rfl
@[simp] theorem State.setReg_hearth (a : Nat) (v : Word) : (s.setReg a v).hearth = s.hearth := rfl
@[simp] theorem State.setReg_gddr (a : Nat) (v : Word) : (s.setReg a v).gddr = s.gddr := rfl
@[simp] theorem State.setReg_gddrEra (a : Nat) (v : Word) : (s.setReg a v).gddrEra = s.gddrEra := rfl
@[simp] theorem State.setReg_hearthEra (a : Nat) (v : Word) : (s.setReg a v).hearthEra = s.hearthEra := rfl
@[simp] theorem State.setReg_hearthBad (a : Nat) (v : Word) : (s.setReg a v).hearthBad = s.hearthBad := rfl
@[simp] theorem State.setReg_tick (a : Nat) (v : Word) : (s.setReg a v).tick = s.tick := rfl
@[simp] theorem State.setReg_tickFrac (a : Nat) (v : Word) : (s.setReg a v).tickFrac = s.tickFrac := rfl
@[simp] theorem State.setReg_tallies (a : Nat) (v : Word) : (s.setReg a v).tallies = s.tallies := rfl
@[simp] theorem State.setReg_pins (a : Nat) (v : Word) : (s.setReg a v).pins = s.pins := rfl
@[simp] theorem State.setReg_legacy (a : Nat) (v : Word) : (s.setReg a v).legacy = s.legacy := rfl
@[simp] theorem State.setReg_pioBanks (a : Nat) (v : Word) : (s.setReg a v).pioBanks = s.pioBanks := rfl
@[simp] theorem State.setReg_matchers (a : Nat) (v : Word) : (s.setReg a v).matchers = s.matchers := rfl
@[simp] theorem State.setReg_tickCtl (a : Nat) (v : Word) : (s.setReg a v).tickCtl = s.tickCtl := rfl
@[simp] theorem State.setReg_compares (a : Nat) (v : Word) : (s.setReg a v).compares = s.compares := rfl
@[simp] theorem State.setReg_captures (a : Nat) (v : Word) : (s.setReg a v).captures = s.captures := rfl
@[simp] theorem State.setReg_fetches (a : Nat) (v : Word) : (s.setReg a v).fetches = s.fetches := rfl
@[simp] theorem State.setReg_lineViews (a : Nat) (v : Word) : (s.setReg a v).lineViews = s.lineViews := rfl
@[simp] theorem State.setReg_colStores (a : Nat) (v : Word) : (s.setReg a v).colStores = s.colStores := rfl
@[simp] theorem State.setReg_pcache (a : Nat) (v : Word) : (s.setReg a v).pcache = s.pcache := rfl
@[simp] theorem State.setReg_sprLines (a : Nat) (v : Word) : (s.setReg a v).sprLines = s.sprLines := rfl
@[simp] theorem State.setReg_coll (a : Nat) (v : Word) : (s.setReg a v).coll = s.coll := rfl
@[simp] theorem State.setReg_videos (a : Nat) (v : Word) : (s.setReg a v).videos = s.videos := rfl
@[simp] theorem State.setReg_luts (a : Nat) (v : Word) : (s.setReg a v).luts = s.luts := rfl
@[simp] theorem State.setReg_outs (a : Nat) (v : Word) : (s.setReg a v).outs = s.outs := rfl
@[simp] theorem State.setReg_handQ (a : Nat) (v : Word) : (s.setReg a v).handQ = s.handQ := rfl
@[simp] theorem State.setReg_memCtl (a : Nat) (v : Word) : (s.setReg a v).memCtl = s.memCtl := rfl
@[simp] theorem State.setReg_lanes (a : Nat) (v : Word) : (s.setReg a v).lanes = s.lanes := rfl
@[simp] theorem State.setReg_rasterTx (a : Nat) (v : Word) : (s.setReg a v).rasterTx = s.rasterTx := rfl
@[simp] theorem State.setReg_audioTx (a : Nat) (v : Word) : (s.setReg a v).audioTx = s.audioTx := rfl
@[simp] theorem State.setReg_flows (a : Nat) (v : Word) : (s.setReg a v).flows = s.flows := rfl
@[simp] theorem State.setReg_ptp (a : Nat) (v : Word) : (s.setReg a v).ptp = s.ptp := rfl
@[simp] theorem State.setReg_quench (a : Nat) (v : Word) : (s.setReg a v).quench = s.quench := rfl
@[simp] theorem State.setReg_tuy (a : Nat) (v : Word) : (s.setReg a v).tuy = s.tuy := rfl
@[simp] theorem State.setReg_swages (a : Nat) (v : Word) : (s.setReg a v).swages = s.swages := rfl
@[simp] theorem State.setReg_tongs (a : Nat) (v : Word) : (s.setReg a v).tongs = s.tongs := rfl
@[simp] theorem State.setReg_temper (a : Nat) (v : Word) : (s.setReg a v).temper = s.temper := rfl
@[simp] theorem State.setReg_boot (a : Nat) (v : Word) : (s.setReg a v).boot = s.boot := rfl
@[simp] theorem State.setReg_otp (a : Nat) (v : Word) : (s.setReg a v).otp = s.otp := rfl
@[simp] theorem State.setReg_flash (a : Nat) (v : Word) : (s.setReg a v).flash = s.flash := rfl
@[simp] theorem State.setReg_ember (a : Nat) (v : Word) : (s.setReg a v).ember = s.ember := rfl
@[simp] theorem State.setReg_dports (a : Nat) (v : Word) : (s.setReg a v).dports = s.dports := rfl
@[simp] theorem State.setReg_hostPort (a : Nat) (v : Word) : (s.setReg a v).hostPort = s.hostPort := rfl
@[simp] theorem State.setReg_heldDoms (a : Nat) (v : Word) : (s.setReg a v).heldDoms = s.heldDoms := rfl
@[simp] theorem State.setReg_pending (a : Nat) (v : Word) : (s.setReg a v).pending = s.pending := rfl

/-! ### State.takeEffect -/

@[simp] theorem State.takeEffect_variant (a : Nat) : (s.takeEffect a).variant = s.variant := rfl
@[simp] theorem State.takeEffect_now (a : Nat) : (s.takeEffect a).now = s.now := rfl
@[simp] theorem State.takeEffect_freeCount (a : Nat) : (s.takeEffect a).freeCount = s.freeCount := rfl
@[simp] theorem State.takeEffect_regs (a : Nat) : (s.takeEffect a).regs = s.regs := rfl
@[simp] theorem State.takeEffect_latches (a : Nat) : (s.takeEffect a).latches = s.latches := rfl
@[simp] theorem State.takeEffect_beam (a : Nat) : (s.takeEffect a).beam = s.beam := rfl
@[simp] theorem State.takeEffect_pkgQueue (a : Nat) : (s.takeEffect a).pkgQueue = s.pkgQueue := rfl
@[simp] theorem State.takeEffect_genlock (a : Nat) : (s.takeEffect a).genlock = s.genlock := rfl
@[simp] theorem State.takeEffect_ports (a : Nat) : (s.takeEffect a).ports = s.ports := rfl
@[simp] theorem State.takeEffect_evtAt (a : Nat) : (s.takeEffect a).evtAt = s.evtAt := rfl
@[simp] theorem State.takeEffect_sticky (a : Nat) : (s.takeEffect a).sticky = s.sticky := rfl
@[simp] theorem State.takeEffect_commits (a : Nat) : (s.takeEffect a).commits = s.commits := rfl
@[simp] theorem State.takeEffect_strikeRam (a : Nat) : (s.takeEffect a).strikeRam = s.strikeRam := rfl
@[simp] theorem State.takeEffect_cursors (a : Nat) : (s.takeEffect a).cursors = s.cursors := rfl
@[simp] theorem State.takeEffect_liveQ (a : Nat) : (s.takeEffect a).liveQ = s.liveQ := rfl
@[simp] theorem State.takeEffect_liveOut (a : Nat) : (s.takeEffect a).liveOut = s.liveOut := rfl
@[simp] theorem State.takeEffect_reflexWait (a : Nat) : (s.takeEffect a).reflexWait = s.reflexWait := rfl
@[simp] theorem State.takeEffect_hammers (a : Nat) : (s.takeEffect a).hammers = s.hammers := rfl
@[simp] theorem State.takeEffect_progMem (a : Nat) : (s.takeEffect a).progMem = s.progMem := rfl
@[simp] theorem State.takeEffect_banks (a : Nat) : (s.takeEffect a).banks = s.banks := rfl
@[simp] theorem State.takeEffect_privBits (a : Nat) : (s.takeEffect a).privBits = s.privBits := rfl
@[simp] theorem State.takeEffect_irq (a : Nat) : (s.takeEffect a).irq = s.irq := rfl
@[simp] theorem State.takeEffect_ppend (a : Nat) : (s.takeEffect a).ppend = s.ppend := rfl
@[simp] theorem State.takeEffect_slots (a : Nat) : (s.takeEffect a).slots = s.slots := rfl
@[simp] theorem State.takeEffect_hearth (a : Nat) : (s.takeEffect a).hearth = s.hearth := rfl
@[simp] theorem State.takeEffect_gddr (a : Nat) : (s.takeEffect a).gddr = s.gddr := rfl
@[simp] theorem State.takeEffect_gddrEra (a : Nat) : (s.takeEffect a).gddrEra = s.gddrEra := rfl
@[simp] theorem State.takeEffect_hearthEra (a : Nat) : (s.takeEffect a).hearthEra = s.hearthEra := rfl
@[simp] theorem State.takeEffect_hearthBad (a : Nat) : (s.takeEffect a).hearthBad = s.hearthBad := rfl
@[simp] theorem State.takeEffect_tick (a : Nat) : (s.takeEffect a).tick = s.tick := rfl
@[simp] theorem State.takeEffect_tickFrac (a : Nat) : (s.takeEffect a).tickFrac = s.tickFrac := rfl
@[simp] theorem State.takeEffect_tallies (a : Nat) : (s.takeEffect a).tallies = s.tallies := rfl
@[simp] theorem State.takeEffect_pins (a : Nat) : (s.takeEffect a).pins = s.pins := rfl
@[simp] theorem State.takeEffect_legacy (a : Nat) : (s.takeEffect a).legacy = s.legacy := rfl
@[simp] theorem State.takeEffect_pioBanks (a : Nat) : (s.takeEffect a).pioBanks = s.pioBanks := rfl
@[simp] theorem State.takeEffect_matchers (a : Nat) : (s.takeEffect a).matchers = s.matchers := rfl
@[simp] theorem State.takeEffect_tickCtl (a : Nat) : (s.takeEffect a).tickCtl = s.tickCtl := rfl
@[simp] theorem State.takeEffect_compares (a : Nat) : (s.takeEffect a).compares = s.compares := rfl
@[simp] theorem State.takeEffect_captures (a : Nat) : (s.takeEffect a).captures = s.captures := rfl
@[simp] theorem State.takeEffect_fetches (a : Nat) : (s.takeEffect a).fetches = s.fetches := rfl
@[simp] theorem State.takeEffect_lineViews (a : Nat) : (s.takeEffect a).lineViews = s.lineViews := rfl
@[simp] theorem State.takeEffect_colStores (a : Nat) : (s.takeEffect a).colStores = s.colStores := rfl
@[simp] theorem State.takeEffect_pcache (a : Nat) : (s.takeEffect a).pcache = s.pcache := rfl
@[simp] theorem State.takeEffect_sprLines (a : Nat) : (s.takeEffect a).sprLines = s.sprLines := rfl
@[simp] theorem State.takeEffect_coll (a : Nat) : (s.takeEffect a).coll = s.coll := rfl
@[simp] theorem State.takeEffect_videos (a : Nat) : (s.takeEffect a).videos = s.videos := rfl
@[simp] theorem State.takeEffect_luts (a : Nat) : (s.takeEffect a).luts = s.luts := rfl
@[simp] theorem State.takeEffect_outs (a : Nat) : (s.takeEffect a).outs = s.outs := rfl
@[simp] theorem State.takeEffect_handQ (a : Nat) : (s.takeEffect a).handQ = s.handQ := rfl
@[simp] theorem State.takeEffect_memCtl (a : Nat) : (s.takeEffect a).memCtl = s.memCtl := rfl
@[simp] theorem State.takeEffect_lanes (a : Nat) : (s.takeEffect a).lanes = s.lanes := rfl
@[simp] theorem State.takeEffect_rasterTx (a : Nat) : (s.takeEffect a).rasterTx = s.rasterTx := rfl
@[simp] theorem State.takeEffect_audioTx (a : Nat) : (s.takeEffect a).audioTx = s.audioTx := rfl
@[simp] theorem State.takeEffect_flows (a : Nat) : (s.takeEffect a).flows = s.flows := rfl
@[simp] theorem State.takeEffect_ptp (a : Nat) : (s.takeEffect a).ptp = s.ptp := rfl
@[simp] theorem State.takeEffect_quench (a : Nat) : (s.takeEffect a).quench = s.quench := rfl
@[simp] theorem State.takeEffect_tuy (a : Nat) : (s.takeEffect a).tuy = s.tuy := rfl
@[simp] theorem State.takeEffect_swages (a : Nat) : (s.takeEffect a).swages = s.swages := rfl
@[simp] theorem State.takeEffect_tongs (a : Nat) : (s.takeEffect a).tongs = s.tongs := rfl
@[simp] theorem State.takeEffect_temper (a : Nat) : (s.takeEffect a).temper = s.temper := rfl
@[simp] theorem State.takeEffect_boot (a : Nat) : (s.takeEffect a).boot = s.boot := rfl
@[simp] theorem State.takeEffect_otp (a : Nat) : (s.takeEffect a).otp = s.otp := rfl
@[simp] theorem State.takeEffect_flash (a : Nat) : (s.takeEffect a).flash = s.flash := rfl
@[simp] theorem State.takeEffect_ember (a : Nat) : (s.takeEffect a).ember = s.ember := rfl
@[simp] theorem State.takeEffect_dports (a : Nat) : (s.takeEffect a).dports = s.dports := rfl
@[simp] theorem State.takeEffect_hostPort (a : Nat) : (s.takeEffect a).hostPort = s.hostPort := rfl
@[simp] theorem State.takeEffect_heldDoms (a : Nat) : (s.takeEffect a).heldDoms = s.heldDoms := rfl
@[simp] theorem State.takeEffect_pending (a : Nat) : (s.takeEffect a).pending = s.pending := rfl

/-! ### State.nextFree -/

@[simp] theorem State.nextFree_variant : (s.nextFree ).variant = s.variant := rfl
@[simp] theorem State.nextFree_now : (s.nextFree ).now = s.now := rfl
@[simp] theorem State.nextFree_regs : (s.nextFree ).regs = s.regs := rfl
@[simp] theorem State.nextFree_eff : (s.nextFree ).eff = s.eff := rfl
@[simp] theorem State.nextFree_latches : (s.nextFree ).latches = s.latches := rfl
@[simp] theorem State.nextFree_beam : (s.nextFree ).beam = s.beam := rfl
@[simp] theorem State.nextFree_pkgQueue : (s.nextFree ).pkgQueue = s.pkgQueue := rfl
@[simp] theorem State.nextFree_genlock : (s.nextFree ).genlock = s.genlock := rfl
@[simp] theorem State.nextFree_ports : (s.nextFree ).ports = s.ports := rfl
@[simp] theorem State.nextFree_evtAt : (s.nextFree ).evtAt = s.evtAt := rfl
@[simp] theorem State.nextFree_sticky : (s.nextFree ).sticky = s.sticky := rfl
@[simp] theorem State.nextFree_commits : (s.nextFree ).commits = s.commits := rfl
@[simp] theorem State.nextFree_strikeRam : (s.nextFree ).strikeRam = s.strikeRam := rfl
@[simp] theorem State.nextFree_cursors : (s.nextFree ).cursors = s.cursors := rfl
@[simp] theorem State.nextFree_liveQ : (s.nextFree ).liveQ = s.liveQ := rfl
@[simp] theorem State.nextFree_liveOut : (s.nextFree ).liveOut = s.liveOut := rfl
@[simp] theorem State.nextFree_reflexWait : (s.nextFree ).reflexWait = s.reflexWait := rfl
@[simp] theorem State.nextFree_hammers : (s.nextFree ).hammers = s.hammers := rfl
@[simp] theorem State.nextFree_progMem : (s.nextFree ).progMem = s.progMem := rfl
@[simp] theorem State.nextFree_banks : (s.nextFree ).banks = s.banks := rfl
@[simp] theorem State.nextFree_privBits : (s.nextFree ).privBits = s.privBits := rfl
@[simp] theorem State.nextFree_irq : (s.nextFree ).irq = s.irq := rfl
@[simp] theorem State.nextFree_ppend : (s.nextFree ).ppend = s.ppend := rfl
@[simp] theorem State.nextFree_slots : (s.nextFree ).slots = s.slots := rfl
@[simp] theorem State.nextFree_hearth : (s.nextFree ).hearth = s.hearth := rfl
@[simp] theorem State.nextFree_gddr : (s.nextFree ).gddr = s.gddr := rfl
@[simp] theorem State.nextFree_gddrEra : (s.nextFree ).gddrEra = s.gddrEra := rfl
@[simp] theorem State.nextFree_hearthEra : (s.nextFree ).hearthEra = s.hearthEra := rfl
@[simp] theorem State.nextFree_hearthBad : (s.nextFree ).hearthBad = s.hearthBad := rfl
@[simp] theorem State.nextFree_tick : (s.nextFree ).tick = s.tick := rfl
@[simp] theorem State.nextFree_tickFrac : (s.nextFree ).tickFrac = s.tickFrac := rfl
@[simp] theorem State.nextFree_tallies : (s.nextFree ).tallies = s.tallies := rfl
@[simp] theorem State.nextFree_pins : (s.nextFree ).pins = s.pins := rfl
@[simp] theorem State.nextFree_legacy : (s.nextFree ).legacy = s.legacy := rfl
@[simp] theorem State.nextFree_pioBanks : (s.nextFree ).pioBanks = s.pioBanks := rfl
@[simp] theorem State.nextFree_matchers : (s.nextFree ).matchers = s.matchers := rfl
@[simp] theorem State.nextFree_tickCtl : (s.nextFree ).tickCtl = s.tickCtl := rfl
@[simp] theorem State.nextFree_compares : (s.nextFree ).compares = s.compares := rfl
@[simp] theorem State.nextFree_captures : (s.nextFree ).captures = s.captures := rfl
@[simp] theorem State.nextFree_fetches : (s.nextFree ).fetches = s.fetches := rfl
@[simp] theorem State.nextFree_lineViews : (s.nextFree ).lineViews = s.lineViews := rfl
@[simp] theorem State.nextFree_colStores : (s.nextFree ).colStores = s.colStores := rfl
@[simp] theorem State.nextFree_pcache : (s.nextFree ).pcache = s.pcache := rfl
@[simp] theorem State.nextFree_sprLines : (s.nextFree ).sprLines = s.sprLines := rfl
@[simp] theorem State.nextFree_coll : (s.nextFree ).coll = s.coll := rfl
@[simp] theorem State.nextFree_videos : (s.nextFree ).videos = s.videos := rfl
@[simp] theorem State.nextFree_luts : (s.nextFree ).luts = s.luts := rfl
@[simp] theorem State.nextFree_outs : (s.nextFree ).outs = s.outs := rfl
@[simp] theorem State.nextFree_handQ : (s.nextFree ).handQ = s.handQ := rfl
@[simp] theorem State.nextFree_memCtl : (s.nextFree ).memCtl = s.memCtl := rfl
@[simp] theorem State.nextFree_lanes : (s.nextFree ).lanes = s.lanes := rfl
@[simp] theorem State.nextFree_rasterTx : (s.nextFree ).rasterTx = s.rasterTx := rfl
@[simp] theorem State.nextFree_audioTx : (s.nextFree ).audioTx = s.audioTx := rfl
@[simp] theorem State.nextFree_flows : (s.nextFree ).flows = s.flows := rfl
@[simp] theorem State.nextFree_ptp : (s.nextFree ).ptp = s.ptp := rfl
@[simp] theorem State.nextFree_quench : (s.nextFree ).quench = s.quench := rfl
@[simp] theorem State.nextFree_tuy : (s.nextFree ).tuy = s.tuy := rfl
@[simp] theorem State.nextFree_swages : (s.nextFree ).swages = s.swages := rfl
@[simp] theorem State.nextFree_tongs : (s.nextFree ).tongs = s.tongs := rfl
@[simp] theorem State.nextFree_temper : (s.nextFree ).temper = s.temper := rfl
@[simp] theorem State.nextFree_boot : (s.nextFree ).boot = s.boot := rfl
@[simp] theorem State.nextFree_otp : (s.nextFree ).otp = s.otp := rfl
@[simp] theorem State.nextFree_flash : (s.nextFree ).flash = s.flash := rfl
@[simp] theorem State.nextFree_ember : (s.nextFree ).ember = s.ember := rfl
@[simp] theorem State.nextFree_dports : (s.nextFree ).dports = s.dports := rfl
@[simp] theorem State.nextFree_hostPort : (s.nextFree ).hostPort = s.hostPort := rfl
@[simp] theorem State.nextFree_heldDoms : (s.nextFree ).heldDoms = s.heldDoms := rfl
@[simp] theorem State.nextFree_pending : (s.nextFree ).pending = s.pending := rfl

/-! ### State.setPort -/

@[simp] theorem State.setPort_variant (b p : Nat) (x : Port) : (s.setPort b p x).variant = s.variant := rfl
@[simp] theorem State.setPort_now (b p : Nat) (x : Port) : (s.setPort b p x).now = s.now := rfl
@[simp] theorem State.setPort_freeCount (b p : Nat) (x : Port) : (s.setPort b p x).freeCount = s.freeCount := rfl
@[simp] theorem State.setPort_regs (b p : Nat) (x : Port) : (s.setPort b p x).regs = s.regs := rfl
@[simp] theorem State.setPort_eff (b p : Nat) (x : Port) : (s.setPort b p x).eff = s.eff := rfl
@[simp] theorem State.setPort_latches (b p : Nat) (x : Port) : (s.setPort b p x).latches = s.latches := rfl
@[simp] theorem State.setPort_beam (b p : Nat) (x : Port) : (s.setPort b p x).beam = s.beam := rfl
@[simp] theorem State.setPort_pkgQueue (b p : Nat) (x : Port) : (s.setPort b p x).pkgQueue = s.pkgQueue := rfl
@[simp] theorem State.setPort_genlock (b p : Nat) (x : Port) : (s.setPort b p x).genlock = s.genlock := rfl
@[simp] theorem State.setPort_evtAt (b p : Nat) (x : Port) : (s.setPort b p x).evtAt = s.evtAt := rfl
@[simp] theorem State.setPort_sticky (b p : Nat) (x : Port) : (s.setPort b p x).sticky = s.sticky := rfl
@[simp] theorem State.setPort_commits (b p : Nat) (x : Port) : (s.setPort b p x).commits = s.commits := rfl
@[simp] theorem State.setPort_strikeRam (b p : Nat) (x : Port) : (s.setPort b p x).strikeRam = s.strikeRam := rfl
@[simp] theorem State.setPort_cursors (b p : Nat) (x : Port) : (s.setPort b p x).cursors = s.cursors := rfl
@[simp] theorem State.setPort_liveQ (b p : Nat) (x : Port) : (s.setPort b p x).liveQ = s.liveQ := rfl
@[simp] theorem State.setPort_liveOut (b p : Nat) (x : Port) : (s.setPort b p x).liveOut = s.liveOut := rfl
@[simp] theorem State.setPort_reflexWait (b p : Nat) (x : Port) : (s.setPort b p x).reflexWait = s.reflexWait := rfl
@[simp] theorem State.setPort_hammers (b p : Nat) (x : Port) : (s.setPort b p x).hammers = s.hammers := rfl
@[simp] theorem State.setPort_progMem (b p : Nat) (x : Port) : (s.setPort b p x).progMem = s.progMem := rfl
@[simp] theorem State.setPort_banks (b p : Nat) (x : Port) : (s.setPort b p x).banks = s.banks := rfl
@[simp] theorem State.setPort_privBits (b p : Nat) (x : Port) : (s.setPort b p x).privBits = s.privBits := rfl
@[simp] theorem State.setPort_irq (b p : Nat) (x : Port) : (s.setPort b p x).irq = s.irq := rfl
@[simp] theorem State.setPort_ppend (b p : Nat) (x : Port) : (s.setPort b p x).ppend = s.ppend := rfl
@[simp] theorem State.setPort_slots (b p : Nat) (x : Port) : (s.setPort b p x).slots = s.slots := rfl
@[simp] theorem State.setPort_hearth (b p : Nat) (x : Port) : (s.setPort b p x).hearth = s.hearth := rfl
@[simp] theorem State.setPort_gddr (b p : Nat) (x : Port) : (s.setPort b p x).gddr = s.gddr := rfl
@[simp] theorem State.setPort_gddrEra (b p : Nat) (x : Port) : (s.setPort b p x).gddrEra = s.gddrEra := rfl
@[simp] theorem State.setPort_hearthEra (b p : Nat) (x : Port) : (s.setPort b p x).hearthEra = s.hearthEra := rfl
@[simp] theorem State.setPort_hearthBad (b p : Nat) (x : Port) : (s.setPort b p x).hearthBad = s.hearthBad := rfl
@[simp] theorem State.setPort_tick (b p : Nat) (x : Port) : (s.setPort b p x).tick = s.tick := rfl
@[simp] theorem State.setPort_tickFrac (b p : Nat) (x : Port) : (s.setPort b p x).tickFrac = s.tickFrac := rfl
@[simp] theorem State.setPort_tallies (b p : Nat) (x : Port) : (s.setPort b p x).tallies = s.tallies := rfl
@[simp] theorem State.setPort_pins (b p : Nat) (x : Port) : (s.setPort b p x).pins = s.pins := rfl
@[simp] theorem State.setPort_legacy (b p : Nat) (x : Port) : (s.setPort b p x).legacy = s.legacy := rfl
@[simp] theorem State.setPort_pioBanks (b p : Nat) (x : Port) : (s.setPort b p x).pioBanks = s.pioBanks := rfl
@[simp] theorem State.setPort_matchers (b p : Nat) (x : Port) : (s.setPort b p x).matchers = s.matchers := rfl
@[simp] theorem State.setPort_tickCtl (b p : Nat) (x : Port) : (s.setPort b p x).tickCtl = s.tickCtl := rfl
@[simp] theorem State.setPort_compares (b p : Nat) (x : Port) : (s.setPort b p x).compares = s.compares := rfl
@[simp] theorem State.setPort_captures (b p : Nat) (x : Port) : (s.setPort b p x).captures = s.captures := rfl
@[simp] theorem State.setPort_fetches (b p : Nat) (x : Port) : (s.setPort b p x).fetches = s.fetches := rfl
@[simp] theorem State.setPort_lineViews (b p : Nat) (x : Port) : (s.setPort b p x).lineViews = s.lineViews := rfl
@[simp] theorem State.setPort_colStores (b p : Nat) (x : Port) : (s.setPort b p x).colStores = s.colStores := rfl
@[simp] theorem State.setPort_pcache (b p : Nat) (x : Port) : (s.setPort b p x).pcache = s.pcache := rfl
@[simp] theorem State.setPort_sprLines (b p : Nat) (x : Port) : (s.setPort b p x).sprLines = s.sprLines := rfl
@[simp] theorem State.setPort_coll (b p : Nat) (x : Port) : (s.setPort b p x).coll = s.coll := rfl
@[simp] theorem State.setPort_videos (b p : Nat) (x : Port) : (s.setPort b p x).videos = s.videos := rfl
@[simp] theorem State.setPort_luts (b p : Nat) (x : Port) : (s.setPort b p x).luts = s.luts := rfl
@[simp] theorem State.setPort_outs (b p : Nat) (x : Port) : (s.setPort b p x).outs = s.outs := rfl
@[simp] theorem State.setPort_handQ (b p : Nat) (x : Port) : (s.setPort b p x).handQ = s.handQ := rfl
@[simp] theorem State.setPort_memCtl (b p : Nat) (x : Port) : (s.setPort b p x).memCtl = s.memCtl := rfl
@[simp] theorem State.setPort_lanes (b p : Nat) (x : Port) : (s.setPort b p x).lanes = s.lanes := rfl
@[simp] theorem State.setPort_rasterTx (b p : Nat) (x : Port) : (s.setPort b p x).rasterTx = s.rasterTx := rfl
@[simp] theorem State.setPort_audioTx (b p : Nat) (x : Port) : (s.setPort b p x).audioTx = s.audioTx := rfl
@[simp] theorem State.setPort_flows (b p : Nat) (x : Port) : (s.setPort b p x).flows = s.flows := rfl
@[simp] theorem State.setPort_ptp (b p : Nat) (x : Port) : (s.setPort b p x).ptp = s.ptp := rfl
@[simp] theorem State.setPort_quench (b p : Nat) (x : Port) : (s.setPort b p x).quench = s.quench := rfl
@[simp] theorem State.setPort_tuy (b p : Nat) (x : Port) : (s.setPort b p x).tuy = s.tuy := rfl
@[simp] theorem State.setPort_swages (b p : Nat) (x : Port) : (s.setPort b p x).swages = s.swages := rfl
@[simp] theorem State.setPort_tongs (b p : Nat) (x : Port) : (s.setPort b p x).tongs = s.tongs := rfl
@[simp] theorem State.setPort_temper (b p : Nat) (x : Port) : (s.setPort b p x).temper = s.temper := rfl
@[simp] theorem State.setPort_boot (b p : Nat) (x : Port) : (s.setPort b p x).boot = s.boot := rfl
@[simp] theorem State.setPort_otp (b p : Nat) (x : Port) : (s.setPort b p x).otp = s.otp := rfl
@[simp] theorem State.setPort_flash (b p : Nat) (x : Port) : (s.setPort b p x).flash = s.flash := rfl
@[simp] theorem State.setPort_ember (b p : Nat) (x : Port) : (s.setPort b p x).ember = s.ember := rfl
@[simp] theorem State.setPort_dports (b p : Nat) (x : Port) : (s.setPort b p x).dports = s.dports := rfl
@[simp] theorem State.setPort_hostPort (b p : Nat) (x : Port) : (s.setPort b p x).hostPort = s.hostPort := rfl
@[simp] theorem State.setPort_heldDoms (b p : Nat) (x : Port) : (s.setPort b p x).heldDoms = s.heldDoms := rfl
@[simp] theorem State.setPort_pending (b p : Nat) (x : Port) : (s.setPort b p x).pending = s.pending := rfl

/-! ### State.setCursor -/

@[simp] theorem State.setCursor_variant (b p : Nat) (x : Cursor) : (s.setCursor b p x).variant = s.variant := rfl
@[simp] theorem State.setCursor_now (b p : Nat) (x : Cursor) : (s.setCursor b p x).now = s.now := rfl
@[simp] theorem State.setCursor_freeCount (b p : Nat) (x : Cursor) : (s.setCursor b p x).freeCount = s.freeCount := rfl
@[simp] theorem State.setCursor_regs (b p : Nat) (x : Cursor) : (s.setCursor b p x).regs = s.regs := rfl
@[simp] theorem State.setCursor_eff (b p : Nat) (x : Cursor) : (s.setCursor b p x).eff = s.eff := rfl
@[simp] theorem State.setCursor_latches (b p : Nat) (x : Cursor) : (s.setCursor b p x).latches = s.latches := rfl
@[simp] theorem State.setCursor_beam (b p : Nat) (x : Cursor) : (s.setCursor b p x).beam = s.beam := rfl
@[simp] theorem State.setCursor_pkgQueue (b p : Nat) (x : Cursor) : (s.setCursor b p x).pkgQueue = s.pkgQueue := rfl
@[simp] theorem State.setCursor_genlock (b p : Nat) (x : Cursor) : (s.setCursor b p x).genlock = s.genlock := rfl
@[simp] theorem State.setCursor_ports (b p : Nat) (x : Cursor) : (s.setCursor b p x).ports = s.ports := rfl
@[simp] theorem State.setCursor_evtAt (b p : Nat) (x : Cursor) : (s.setCursor b p x).evtAt = s.evtAt := rfl
@[simp] theorem State.setCursor_sticky (b p : Nat) (x : Cursor) : (s.setCursor b p x).sticky = s.sticky := rfl
@[simp] theorem State.setCursor_commits (b p : Nat) (x : Cursor) : (s.setCursor b p x).commits = s.commits := rfl
@[simp] theorem State.setCursor_strikeRam (b p : Nat) (x : Cursor) : (s.setCursor b p x).strikeRam = s.strikeRam := rfl
@[simp] theorem State.setCursor_liveQ (b p : Nat) (x : Cursor) : (s.setCursor b p x).liveQ = s.liveQ := rfl
@[simp] theorem State.setCursor_liveOut (b p : Nat) (x : Cursor) : (s.setCursor b p x).liveOut = s.liveOut := rfl
@[simp] theorem State.setCursor_reflexWait (b p : Nat) (x : Cursor) : (s.setCursor b p x).reflexWait = s.reflexWait := rfl
@[simp] theorem State.setCursor_hammers (b p : Nat) (x : Cursor) : (s.setCursor b p x).hammers = s.hammers := rfl
@[simp] theorem State.setCursor_progMem (b p : Nat) (x : Cursor) : (s.setCursor b p x).progMem = s.progMem := rfl
@[simp] theorem State.setCursor_banks (b p : Nat) (x : Cursor) : (s.setCursor b p x).banks = s.banks := rfl
@[simp] theorem State.setCursor_privBits (b p : Nat) (x : Cursor) : (s.setCursor b p x).privBits = s.privBits := rfl
@[simp] theorem State.setCursor_irq (b p : Nat) (x : Cursor) : (s.setCursor b p x).irq = s.irq := rfl
@[simp] theorem State.setCursor_ppend (b p : Nat) (x : Cursor) : (s.setCursor b p x).ppend = s.ppend := rfl
@[simp] theorem State.setCursor_slots (b p : Nat) (x : Cursor) : (s.setCursor b p x).slots = s.slots := rfl
@[simp] theorem State.setCursor_hearth (b p : Nat) (x : Cursor) : (s.setCursor b p x).hearth = s.hearth := rfl
@[simp] theorem State.setCursor_gddr (b p : Nat) (x : Cursor) : (s.setCursor b p x).gddr = s.gddr := rfl
@[simp] theorem State.setCursor_gddrEra (b p : Nat) (x : Cursor) : (s.setCursor b p x).gddrEra = s.gddrEra := rfl
@[simp] theorem State.setCursor_hearthEra (b p : Nat) (x : Cursor) : (s.setCursor b p x).hearthEra = s.hearthEra := rfl
@[simp] theorem State.setCursor_hearthBad (b p : Nat) (x : Cursor) : (s.setCursor b p x).hearthBad = s.hearthBad := rfl
@[simp] theorem State.setCursor_tick (b p : Nat) (x : Cursor) : (s.setCursor b p x).tick = s.tick := rfl
@[simp] theorem State.setCursor_tickFrac (b p : Nat) (x : Cursor) : (s.setCursor b p x).tickFrac = s.tickFrac := rfl
@[simp] theorem State.setCursor_tallies (b p : Nat) (x : Cursor) : (s.setCursor b p x).tallies = s.tallies := rfl
@[simp] theorem State.setCursor_pins (b p : Nat) (x : Cursor) : (s.setCursor b p x).pins = s.pins := rfl
@[simp] theorem State.setCursor_legacy (b p : Nat) (x : Cursor) : (s.setCursor b p x).legacy = s.legacy := rfl
@[simp] theorem State.setCursor_pioBanks (b p : Nat) (x : Cursor) : (s.setCursor b p x).pioBanks = s.pioBanks := rfl
@[simp] theorem State.setCursor_matchers (b p : Nat) (x : Cursor) : (s.setCursor b p x).matchers = s.matchers := rfl
@[simp] theorem State.setCursor_tickCtl (b p : Nat) (x : Cursor) : (s.setCursor b p x).tickCtl = s.tickCtl := rfl
@[simp] theorem State.setCursor_compares (b p : Nat) (x : Cursor) : (s.setCursor b p x).compares = s.compares := rfl
@[simp] theorem State.setCursor_captures (b p : Nat) (x : Cursor) : (s.setCursor b p x).captures = s.captures := rfl
@[simp] theorem State.setCursor_fetches (b p : Nat) (x : Cursor) : (s.setCursor b p x).fetches = s.fetches := rfl
@[simp] theorem State.setCursor_lineViews (b p : Nat) (x : Cursor) : (s.setCursor b p x).lineViews = s.lineViews := rfl
@[simp] theorem State.setCursor_colStores (b p : Nat) (x : Cursor) : (s.setCursor b p x).colStores = s.colStores := rfl
@[simp] theorem State.setCursor_pcache (b p : Nat) (x : Cursor) : (s.setCursor b p x).pcache = s.pcache := rfl
@[simp] theorem State.setCursor_sprLines (b p : Nat) (x : Cursor) : (s.setCursor b p x).sprLines = s.sprLines := rfl
@[simp] theorem State.setCursor_coll (b p : Nat) (x : Cursor) : (s.setCursor b p x).coll = s.coll := rfl
@[simp] theorem State.setCursor_videos (b p : Nat) (x : Cursor) : (s.setCursor b p x).videos = s.videos := rfl
@[simp] theorem State.setCursor_luts (b p : Nat) (x : Cursor) : (s.setCursor b p x).luts = s.luts := rfl
@[simp] theorem State.setCursor_outs (b p : Nat) (x : Cursor) : (s.setCursor b p x).outs = s.outs := rfl
@[simp] theorem State.setCursor_handQ (b p : Nat) (x : Cursor) : (s.setCursor b p x).handQ = s.handQ := rfl
@[simp] theorem State.setCursor_memCtl (b p : Nat) (x : Cursor) : (s.setCursor b p x).memCtl = s.memCtl := rfl
@[simp] theorem State.setCursor_lanes (b p : Nat) (x : Cursor) : (s.setCursor b p x).lanes = s.lanes := rfl
@[simp] theorem State.setCursor_rasterTx (b p : Nat) (x : Cursor) : (s.setCursor b p x).rasterTx = s.rasterTx := rfl
@[simp] theorem State.setCursor_audioTx (b p : Nat) (x : Cursor) : (s.setCursor b p x).audioTx = s.audioTx := rfl
@[simp] theorem State.setCursor_flows (b p : Nat) (x : Cursor) : (s.setCursor b p x).flows = s.flows := rfl
@[simp] theorem State.setCursor_ptp (b p : Nat) (x : Cursor) : (s.setCursor b p x).ptp = s.ptp := rfl
@[simp] theorem State.setCursor_quench (b p : Nat) (x : Cursor) : (s.setCursor b p x).quench = s.quench := rfl
@[simp] theorem State.setCursor_tuy (b p : Nat) (x : Cursor) : (s.setCursor b p x).tuy = s.tuy := rfl
@[simp] theorem State.setCursor_swages (b p : Nat) (x : Cursor) : (s.setCursor b p x).swages = s.swages := rfl
@[simp] theorem State.setCursor_tongs (b p : Nat) (x : Cursor) : (s.setCursor b p x).tongs = s.tongs := rfl
@[simp] theorem State.setCursor_temper (b p : Nat) (x : Cursor) : (s.setCursor b p x).temper = s.temper := rfl
@[simp] theorem State.setCursor_boot (b p : Nat) (x : Cursor) : (s.setCursor b p x).boot = s.boot := rfl
@[simp] theorem State.setCursor_otp (b p : Nat) (x : Cursor) : (s.setCursor b p x).otp = s.otp := rfl
@[simp] theorem State.setCursor_flash (b p : Nat) (x : Cursor) : (s.setCursor b p x).flash = s.flash := rfl
@[simp] theorem State.setCursor_ember (b p : Nat) (x : Cursor) : (s.setCursor b p x).ember = s.ember := rfl
@[simp] theorem State.setCursor_dports (b p : Nat) (x : Cursor) : (s.setCursor b p x).dports = s.dports := rfl
@[simp] theorem State.setCursor_hostPort (b p : Nat) (x : Cursor) : (s.setCursor b p x).hostPort = s.hostPort := rfl
@[simp] theorem State.setCursor_heldDoms (b p : Nat) (x : Cursor) : (s.setCursor b p x).heldDoms = s.heldDoms := rfl
@[simp] theorem State.setCursor_pending (b p : Nat) (x : Cursor) : (s.setCursor b p x).pending = s.pending := rfl

/-! ### State.setHammer -/

@[simp] theorem State.setHammer_variant (b h : Nat) (x : Hammer) : (s.setHammer b h x).variant = s.variant := rfl
@[simp] theorem State.setHammer_now (b h : Nat) (x : Hammer) : (s.setHammer b h x).now = s.now := rfl
@[simp] theorem State.setHammer_freeCount (b h : Nat) (x : Hammer) : (s.setHammer b h x).freeCount = s.freeCount := rfl
@[simp] theorem State.setHammer_regs (b h : Nat) (x : Hammer) : (s.setHammer b h x).regs = s.regs := rfl
@[simp] theorem State.setHammer_eff (b h : Nat) (x : Hammer) : (s.setHammer b h x).eff = s.eff := rfl
@[simp] theorem State.setHammer_latches (b h : Nat) (x : Hammer) : (s.setHammer b h x).latches = s.latches := rfl
@[simp] theorem State.setHammer_beam (b h : Nat) (x : Hammer) : (s.setHammer b h x).beam = s.beam := rfl
@[simp] theorem State.setHammer_pkgQueue (b h : Nat) (x : Hammer) : (s.setHammer b h x).pkgQueue = s.pkgQueue := rfl
@[simp] theorem State.setHammer_genlock (b h : Nat) (x : Hammer) : (s.setHammer b h x).genlock = s.genlock := rfl
@[simp] theorem State.setHammer_ports (b h : Nat) (x : Hammer) : (s.setHammer b h x).ports = s.ports := rfl
@[simp] theorem State.setHammer_evtAt (b h : Nat) (x : Hammer) : (s.setHammer b h x).evtAt = s.evtAt := rfl
@[simp] theorem State.setHammer_sticky (b h : Nat) (x : Hammer) : (s.setHammer b h x).sticky = s.sticky := rfl
@[simp] theorem State.setHammer_commits (b h : Nat) (x : Hammer) : (s.setHammer b h x).commits = s.commits := rfl
@[simp] theorem State.setHammer_strikeRam (b h : Nat) (x : Hammer) : (s.setHammer b h x).strikeRam = s.strikeRam := rfl
@[simp] theorem State.setHammer_cursors (b h : Nat) (x : Hammer) : (s.setHammer b h x).cursors = s.cursors := rfl
@[simp] theorem State.setHammer_liveQ (b h : Nat) (x : Hammer) : (s.setHammer b h x).liveQ = s.liveQ := rfl
@[simp] theorem State.setHammer_liveOut (b h : Nat) (x : Hammer) : (s.setHammer b h x).liveOut = s.liveOut := rfl
@[simp] theorem State.setHammer_reflexWait (b h : Nat) (x : Hammer) : (s.setHammer b h x).reflexWait = s.reflexWait := rfl
@[simp] theorem State.setHammer_progMem (b h : Nat) (x : Hammer) : (s.setHammer b h x).progMem = s.progMem := rfl
@[simp] theorem State.setHammer_banks (b h : Nat) (x : Hammer) : (s.setHammer b h x).banks = s.banks := rfl
@[simp] theorem State.setHammer_privBits (b h : Nat) (x : Hammer) : (s.setHammer b h x).privBits = s.privBits := rfl
@[simp] theorem State.setHammer_irq (b h : Nat) (x : Hammer) : (s.setHammer b h x).irq = s.irq := rfl
@[simp] theorem State.setHammer_ppend (b h : Nat) (x : Hammer) : (s.setHammer b h x).ppend = s.ppend := rfl
@[simp] theorem State.setHammer_slots (b h : Nat) (x : Hammer) : (s.setHammer b h x).slots = s.slots := rfl
@[simp] theorem State.setHammer_hearth (b h : Nat) (x : Hammer) : (s.setHammer b h x).hearth = s.hearth := rfl
@[simp] theorem State.setHammer_gddr (b h : Nat) (x : Hammer) : (s.setHammer b h x).gddr = s.gddr := rfl
@[simp] theorem State.setHammer_gddrEra (b h : Nat) (x : Hammer) : (s.setHammer b h x).gddrEra = s.gddrEra := rfl
@[simp] theorem State.setHammer_hearthEra (b h : Nat) (x : Hammer) : (s.setHammer b h x).hearthEra = s.hearthEra := rfl
@[simp] theorem State.setHammer_hearthBad (b h : Nat) (x : Hammer) : (s.setHammer b h x).hearthBad = s.hearthBad := rfl
@[simp] theorem State.setHammer_tick (b h : Nat) (x : Hammer) : (s.setHammer b h x).tick = s.tick := rfl
@[simp] theorem State.setHammer_tickFrac (b h : Nat) (x : Hammer) : (s.setHammer b h x).tickFrac = s.tickFrac := rfl
@[simp] theorem State.setHammer_tallies (b h : Nat) (x : Hammer) : (s.setHammer b h x).tallies = s.tallies := rfl
@[simp] theorem State.setHammer_pins (b h : Nat) (x : Hammer) : (s.setHammer b h x).pins = s.pins := rfl
@[simp] theorem State.setHammer_legacy (b h : Nat) (x : Hammer) : (s.setHammer b h x).legacy = s.legacy := rfl
@[simp] theorem State.setHammer_pioBanks (b h : Nat) (x : Hammer) : (s.setHammer b h x).pioBanks = s.pioBanks := rfl
@[simp] theorem State.setHammer_matchers (b h : Nat) (x : Hammer) : (s.setHammer b h x).matchers = s.matchers := rfl
@[simp] theorem State.setHammer_tickCtl (b h : Nat) (x : Hammer) : (s.setHammer b h x).tickCtl = s.tickCtl := rfl
@[simp] theorem State.setHammer_compares (b h : Nat) (x : Hammer) : (s.setHammer b h x).compares = s.compares := rfl
@[simp] theorem State.setHammer_captures (b h : Nat) (x : Hammer) : (s.setHammer b h x).captures = s.captures := rfl
@[simp] theorem State.setHammer_fetches (b h : Nat) (x : Hammer) : (s.setHammer b h x).fetches = s.fetches := rfl
@[simp] theorem State.setHammer_lineViews (b h : Nat) (x : Hammer) : (s.setHammer b h x).lineViews = s.lineViews := rfl
@[simp] theorem State.setHammer_colStores (b h : Nat) (x : Hammer) : (s.setHammer b h x).colStores = s.colStores := rfl
@[simp] theorem State.setHammer_pcache (b h : Nat) (x : Hammer) : (s.setHammer b h x).pcache = s.pcache := rfl
@[simp] theorem State.setHammer_sprLines (b h : Nat) (x : Hammer) : (s.setHammer b h x).sprLines = s.sprLines := rfl
@[simp] theorem State.setHammer_coll (b h : Nat) (x : Hammer) : (s.setHammer b h x).coll = s.coll := rfl
@[simp] theorem State.setHammer_videos (b h : Nat) (x : Hammer) : (s.setHammer b h x).videos = s.videos := rfl
@[simp] theorem State.setHammer_luts (b h : Nat) (x : Hammer) : (s.setHammer b h x).luts = s.luts := rfl
@[simp] theorem State.setHammer_outs (b h : Nat) (x : Hammer) : (s.setHammer b h x).outs = s.outs := rfl
@[simp] theorem State.setHammer_handQ (b h : Nat) (x : Hammer) : (s.setHammer b h x).handQ = s.handQ := rfl
@[simp] theorem State.setHammer_memCtl (b h : Nat) (x : Hammer) : (s.setHammer b h x).memCtl = s.memCtl := rfl
@[simp] theorem State.setHammer_lanes (b h : Nat) (x : Hammer) : (s.setHammer b h x).lanes = s.lanes := rfl
@[simp] theorem State.setHammer_rasterTx (b h : Nat) (x : Hammer) : (s.setHammer b h x).rasterTx = s.rasterTx := rfl
@[simp] theorem State.setHammer_audioTx (b h : Nat) (x : Hammer) : (s.setHammer b h x).audioTx = s.audioTx := rfl
@[simp] theorem State.setHammer_flows (b h : Nat) (x : Hammer) : (s.setHammer b h x).flows = s.flows := rfl
@[simp] theorem State.setHammer_ptp (b h : Nat) (x : Hammer) : (s.setHammer b h x).ptp = s.ptp := rfl
@[simp] theorem State.setHammer_quench (b h : Nat) (x : Hammer) : (s.setHammer b h x).quench = s.quench := rfl
@[simp] theorem State.setHammer_tuy (b h : Nat) (x : Hammer) : (s.setHammer b h x).tuy = s.tuy := rfl
@[simp] theorem State.setHammer_swages (b h : Nat) (x : Hammer) : (s.setHammer b h x).swages = s.swages := rfl
@[simp] theorem State.setHammer_tongs (b h : Nat) (x : Hammer) : (s.setHammer b h x).tongs = s.tongs := rfl
@[simp] theorem State.setHammer_temper (b h : Nat) (x : Hammer) : (s.setHammer b h x).temper = s.temper := rfl
@[simp] theorem State.setHammer_boot (b h : Nat) (x : Hammer) : (s.setHammer b h x).boot = s.boot := rfl
@[simp] theorem State.setHammer_otp (b h : Nat) (x : Hammer) : (s.setHammer b h x).otp = s.otp := rfl
@[simp] theorem State.setHammer_flash (b h : Nat) (x : Hammer) : (s.setHammer b h x).flash = s.flash := rfl
@[simp] theorem State.setHammer_ember (b h : Nat) (x : Hammer) : (s.setHammer b h x).ember = s.ember := rfl
@[simp] theorem State.setHammer_dports (b h : Nat) (x : Hammer) : (s.setHammer b h x).dports = s.dports := rfl
@[simp] theorem State.setHammer_hostPort (b h : Nat) (x : Hammer) : (s.setHammer b h x).hostPort = s.hostPort := rfl
@[simp] theorem State.setHammer_heldDoms (b h : Nat) (x : Hammer) : (s.setHammer b h x).heldDoms = s.heldDoms := rfl
@[simp] theorem State.setHammer_pending (b h : Nat) (x : Hammer) : (s.setHammer b h x).pending = s.pending := rfl

/-! ### State.setSrc -/

@[simp] theorem State.setSrc_variant (b id : Nat) (x : IrqSrc) : (s.setSrc b id x).variant = s.variant := rfl
@[simp] theorem State.setSrc_now (b id : Nat) (x : IrqSrc) : (s.setSrc b id x).now = s.now := rfl
@[simp] theorem State.setSrc_freeCount (b id : Nat) (x : IrqSrc) : (s.setSrc b id x).freeCount = s.freeCount := rfl
@[simp] theorem State.setSrc_regs (b id : Nat) (x : IrqSrc) : (s.setSrc b id x).regs = s.regs := rfl
@[simp] theorem State.setSrc_eff (b id : Nat) (x : IrqSrc) : (s.setSrc b id x).eff = s.eff := rfl
@[simp] theorem State.setSrc_latches (b id : Nat) (x : IrqSrc) : (s.setSrc b id x).latches = s.latches := rfl
@[simp] theorem State.setSrc_beam (b id : Nat) (x : IrqSrc) : (s.setSrc b id x).beam = s.beam := rfl
@[simp] theorem State.setSrc_pkgQueue (b id : Nat) (x : IrqSrc) : (s.setSrc b id x).pkgQueue = s.pkgQueue := rfl
@[simp] theorem State.setSrc_genlock (b id : Nat) (x : IrqSrc) : (s.setSrc b id x).genlock = s.genlock := rfl
@[simp] theorem State.setSrc_ports (b id : Nat) (x : IrqSrc) : (s.setSrc b id x).ports = s.ports := rfl
@[simp] theorem State.setSrc_evtAt (b id : Nat) (x : IrqSrc) : (s.setSrc b id x).evtAt = s.evtAt := rfl
@[simp] theorem State.setSrc_sticky (b id : Nat) (x : IrqSrc) : (s.setSrc b id x).sticky = s.sticky := rfl
@[simp] theorem State.setSrc_commits (b id : Nat) (x : IrqSrc) : (s.setSrc b id x).commits = s.commits := rfl
@[simp] theorem State.setSrc_strikeRam (b id : Nat) (x : IrqSrc) : (s.setSrc b id x).strikeRam = s.strikeRam := rfl
@[simp] theorem State.setSrc_cursors (b id : Nat) (x : IrqSrc) : (s.setSrc b id x).cursors = s.cursors := rfl
@[simp] theorem State.setSrc_liveQ (b id : Nat) (x : IrqSrc) : (s.setSrc b id x).liveQ = s.liveQ := rfl
@[simp] theorem State.setSrc_liveOut (b id : Nat) (x : IrqSrc) : (s.setSrc b id x).liveOut = s.liveOut := rfl
@[simp] theorem State.setSrc_reflexWait (b id : Nat) (x : IrqSrc) : (s.setSrc b id x).reflexWait = s.reflexWait := rfl
@[simp] theorem State.setSrc_hammers (b id : Nat) (x : IrqSrc) : (s.setSrc b id x).hammers = s.hammers := rfl
@[simp] theorem State.setSrc_progMem (b id : Nat) (x : IrqSrc) : (s.setSrc b id x).progMem = s.progMem := rfl
@[simp] theorem State.setSrc_banks (b id : Nat) (x : IrqSrc) : (s.setSrc b id x).banks = s.banks := rfl
@[simp] theorem State.setSrc_privBits (b id : Nat) (x : IrqSrc) : (s.setSrc b id x).privBits = s.privBits := rfl
@[simp] theorem State.setSrc_ppend (b id : Nat) (x : IrqSrc) : (s.setSrc b id x).ppend = s.ppend := rfl
@[simp] theorem State.setSrc_slots (b id : Nat) (x : IrqSrc) : (s.setSrc b id x).slots = s.slots := rfl
@[simp] theorem State.setSrc_hearth (b id : Nat) (x : IrqSrc) : (s.setSrc b id x).hearth = s.hearth := rfl
@[simp] theorem State.setSrc_gddr (b id : Nat) (x : IrqSrc) : (s.setSrc b id x).gddr = s.gddr := rfl
@[simp] theorem State.setSrc_gddrEra (b id : Nat) (x : IrqSrc) : (s.setSrc b id x).gddrEra = s.gddrEra := rfl
@[simp] theorem State.setSrc_hearthEra (b id : Nat) (x : IrqSrc) : (s.setSrc b id x).hearthEra = s.hearthEra := rfl
@[simp] theorem State.setSrc_hearthBad (b id : Nat) (x : IrqSrc) : (s.setSrc b id x).hearthBad = s.hearthBad := rfl
@[simp] theorem State.setSrc_tick (b id : Nat) (x : IrqSrc) : (s.setSrc b id x).tick = s.tick := rfl
@[simp] theorem State.setSrc_tickFrac (b id : Nat) (x : IrqSrc) : (s.setSrc b id x).tickFrac = s.tickFrac := rfl
@[simp] theorem State.setSrc_tallies (b id : Nat) (x : IrqSrc) : (s.setSrc b id x).tallies = s.tallies := rfl
@[simp] theorem State.setSrc_pins (b id : Nat) (x : IrqSrc) : (s.setSrc b id x).pins = s.pins := rfl
@[simp] theorem State.setSrc_legacy (b id : Nat) (x : IrqSrc) : (s.setSrc b id x).legacy = s.legacy := rfl
@[simp] theorem State.setSrc_pioBanks (b id : Nat) (x : IrqSrc) : (s.setSrc b id x).pioBanks = s.pioBanks := rfl
@[simp] theorem State.setSrc_matchers (b id : Nat) (x : IrqSrc) : (s.setSrc b id x).matchers = s.matchers := rfl
@[simp] theorem State.setSrc_tickCtl (b id : Nat) (x : IrqSrc) : (s.setSrc b id x).tickCtl = s.tickCtl := rfl
@[simp] theorem State.setSrc_compares (b id : Nat) (x : IrqSrc) : (s.setSrc b id x).compares = s.compares := rfl
@[simp] theorem State.setSrc_captures (b id : Nat) (x : IrqSrc) : (s.setSrc b id x).captures = s.captures := rfl
@[simp] theorem State.setSrc_fetches (b id : Nat) (x : IrqSrc) : (s.setSrc b id x).fetches = s.fetches := rfl
@[simp] theorem State.setSrc_lineViews (b id : Nat) (x : IrqSrc) : (s.setSrc b id x).lineViews = s.lineViews := rfl
@[simp] theorem State.setSrc_colStores (b id : Nat) (x : IrqSrc) : (s.setSrc b id x).colStores = s.colStores := rfl
@[simp] theorem State.setSrc_pcache (b id : Nat) (x : IrqSrc) : (s.setSrc b id x).pcache = s.pcache := rfl
@[simp] theorem State.setSrc_sprLines (b id : Nat) (x : IrqSrc) : (s.setSrc b id x).sprLines = s.sprLines := rfl
@[simp] theorem State.setSrc_coll (b id : Nat) (x : IrqSrc) : (s.setSrc b id x).coll = s.coll := rfl
@[simp] theorem State.setSrc_videos (b id : Nat) (x : IrqSrc) : (s.setSrc b id x).videos = s.videos := rfl
@[simp] theorem State.setSrc_luts (b id : Nat) (x : IrqSrc) : (s.setSrc b id x).luts = s.luts := rfl
@[simp] theorem State.setSrc_outs (b id : Nat) (x : IrqSrc) : (s.setSrc b id x).outs = s.outs := rfl
@[simp] theorem State.setSrc_handQ (b id : Nat) (x : IrqSrc) : (s.setSrc b id x).handQ = s.handQ := rfl
@[simp] theorem State.setSrc_memCtl (b id : Nat) (x : IrqSrc) : (s.setSrc b id x).memCtl = s.memCtl := rfl
@[simp] theorem State.setSrc_lanes (b id : Nat) (x : IrqSrc) : (s.setSrc b id x).lanes = s.lanes := rfl
@[simp] theorem State.setSrc_rasterTx (b id : Nat) (x : IrqSrc) : (s.setSrc b id x).rasterTx = s.rasterTx := rfl
@[simp] theorem State.setSrc_audioTx (b id : Nat) (x : IrqSrc) : (s.setSrc b id x).audioTx = s.audioTx := rfl
@[simp] theorem State.setSrc_flows (b id : Nat) (x : IrqSrc) : (s.setSrc b id x).flows = s.flows := rfl
@[simp] theorem State.setSrc_ptp (b id : Nat) (x : IrqSrc) : (s.setSrc b id x).ptp = s.ptp := rfl
@[simp] theorem State.setSrc_quench (b id : Nat) (x : IrqSrc) : (s.setSrc b id x).quench = s.quench := rfl
@[simp] theorem State.setSrc_tuy (b id : Nat) (x : IrqSrc) : (s.setSrc b id x).tuy = s.tuy := rfl
@[simp] theorem State.setSrc_swages (b id : Nat) (x : IrqSrc) : (s.setSrc b id x).swages = s.swages := rfl
@[simp] theorem State.setSrc_tongs (b id : Nat) (x : IrqSrc) : (s.setSrc b id x).tongs = s.tongs := rfl
@[simp] theorem State.setSrc_temper (b id : Nat) (x : IrqSrc) : (s.setSrc b id x).temper = s.temper := rfl
@[simp] theorem State.setSrc_boot (b id : Nat) (x : IrqSrc) : (s.setSrc b id x).boot = s.boot := rfl
@[simp] theorem State.setSrc_otp (b id : Nat) (x : IrqSrc) : (s.setSrc b id x).otp = s.otp := rfl
@[simp] theorem State.setSrc_flash (b id : Nat) (x : IrqSrc) : (s.setSrc b id x).flash = s.flash := rfl
@[simp] theorem State.setSrc_ember (b id : Nat) (x : IrqSrc) : (s.setSrc b id x).ember = s.ember := rfl
@[simp] theorem State.setSrc_dports (b id : Nat) (x : IrqSrc) : (s.setSrc b id x).dports = s.dports := rfl
@[simp] theorem State.setSrc_hostPort (b id : Nat) (x : IrqSrc) : (s.setSrc b id x).hostPort = s.hostPort := rfl
@[simp] theorem State.setSrc_heldDoms (b id : Nat) (x : IrqSrc) : (s.setSrc b id x).heldDoms = s.heldDoms := rfl
@[simp] theorem State.setSrc_pending (b id : Nat) (x : IrqSrc) : (s.setSrc b id x).pending = s.pending := rfl

/-! ### State.setSlot -/

@[simp] theorem State.setSlot_variant (b h l : Nat) (x : Slot) : (s.setSlot b h l x).variant = s.variant := rfl
@[simp] theorem State.setSlot_now (b h l : Nat) (x : Slot) : (s.setSlot b h l x).now = s.now := rfl
@[simp] theorem State.setSlot_freeCount (b h l : Nat) (x : Slot) : (s.setSlot b h l x).freeCount = s.freeCount := rfl
@[simp] theorem State.setSlot_regs (b h l : Nat) (x : Slot) : (s.setSlot b h l x).regs = s.regs := rfl
@[simp] theorem State.setSlot_eff (b h l : Nat) (x : Slot) : (s.setSlot b h l x).eff = s.eff := rfl
@[simp] theorem State.setSlot_latches (b h l : Nat) (x : Slot) : (s.setSlot b h l x).latches = s.latches := rfl
@[simp] theorem State.setSlot_beam (b h l : Nat) (x : Slot) : (s.setSlot b h l x).beam = s.beam := rfl
@[simp] theorem State.setSlot_pkgQueue (b h l : Nat) (x : Slot) : (s.setSlot b h l x).pkgQueue = s.pkgQueue := rfl
@[simp] theorem State.setSlot_genlock (b h l : Nat) (x : Slot) : (s.setSlot b h l x).genlock = s.genlock := rfl
@[simp] theorem State.setSlot_ports (b h l : Nat) (x : Slot) : (s.setSlot b h l x).ports = s.ports := rfl
@[simp] theorem State.setSlot_evtAt (b h l : Nat) (x : Slot) : (s.setSlot b h l x).evtAt = s.evtAt := rfl
@[simp] theorem State.setSlot_sticky (b h l : Nat) (x : Slot) : (s.setSlot b h l x).sticky = s.sticky := rfl
@[simp] theorem State.setSlot_commits (b h l : Nat) (x : Slot) : (s.setSlot b h l x).commits = s.commits := rfl
@[simp] theorem State.setSlot_strikeRam (b h l : Nat) (x : Slot) : (s.setSlot b h l x).strikeRam = s.strikeRam := rfl
@[simp] theorem State.setSlot_cursors (b h l : Nat) (x : Slot) : (s.setSlot b h l x).cursors = s.cursors := rfl
@[simp] theorem State.setSlot_liveQ (b h l : Nat) (x : Slot) : (s.setSlot b h l x).liveQ = s.liveQ := rfl
@[simp] theorem State.setSlot_liveOut (b h l : Nat) (x : Slot) : (s.setSlot b h l x).liveOut = s.liveOut := rfl
@[simp] theorem State.setSlot_reflexWait (b h l : Nat) (x : Slot) : (s.setSlot b h l x).reflexWait = s.reflexWait := rfl
@[simp] theorem State.setSlot_hammers (b h l : Nat) (x : Slot) : (s.setSlot b h l x).hammers = s.hammers := rfl
@[simp] theorem State.setSlot_progMem (b h l : Nat) (x : Slot) : (s.setSlot b h l x).progMem = s.progMem := rfl
@[simp] theorem State.setSlot_banks (b h l : Nat) (x : Slot) : (s.setSlot b h l x).banks = s.banks := rfl
@[simp] theorem State.setSlot_privBits (b h l : Nat) (x : Slot) : (s.setSlot b h l x).privBits = s.privBits := rfl
@[simp] theorem State.setSlot_irq (b h l : Nat) (x : Slot) : (s.setSlot b h l x).irq = s.irq := rfl
@[simp] theorem State.setSlot_ppend (b h l : Nat) (x : Slot) : (s.setSlot b h l x).ppend = s.ppend := rfl
@[simp] theorem State.setSlot_hearth (b h l : Nat) (x : Slot) : (s.setSlot b h l x).hearth = s.hearth := rfl
@[simp] theorem State.setSlot_gddr (b h l : Nat) (x : Slot) : (s.setSlot b h l x).gddr = s.gddr := rfl
@[simp] theorem State.setSlot_gddrEra (b h l : Nat) (x : Slot) : (s.setSlot b h l x).gddrEra = s.gddrEra := rfl
@[simp] theorem State.setSlot_hearthEra (b h l : Nat) (x : Slot) : (s.setSlot b h l x).hearthEra = s.hearthEra := rfl
@[simp] theorem State.setSlot_hearthBad (b h l : Nat) (x : Slot) : (s.setSlot b h l x).hearthBad = s.hearthBad := rfl
@[simp] theorem State.setSlot_tick (b h l : Nat) (x : Slot) : (s.setSlot b h l x).tick = s.tick := rfl
@[simp] theorem State.setSlot_tickFrac (b h l : Nat) (x : Slot) : (s.setSlot b h l x).tickFrac = s.tickFrac := rfl
@[simp] theorem State.setSlot_tallies (b h l : Nat) (x : Slot) : (s.setSlot b h l x).tallies = s.tallies := rfl
@[simp] theorem State.setSlot_pins (b h l : Nat) (x : Slot) : (s.setSlot b h l x).pins = s.pins := rfl
@[simp] theorem State.setSlot_legacy (b h l : Nat) (x : Slot) : (s.setSlot b h l x).legacy = s.legacy := rfl
@[simp] theorem State.setSlot_pioBanks (b h l : Nat) (x : Slot) : (s.setSlot b h l x).pioBanks = s.pioBanks := rfl
@[simp] theorem State.setSlot_matchers (b h l : Nat) (x : Slot) : (s.setSlot b h l x).matchers = s.matchers := rfl
@[simp] theorem State.setSlot_tickCtl (b h l : Nat) (x : Slot) : (s.setSlot b h l x).tickCtl = s.tickCtl := rfl
@[simp] theorem State.setSlot_compares (b h l : Nat) (x : Slot) : (s.setSlot b h l x).compares = s.compares := rfl
@[simp] theorem State.setSlot_captures (b h l : Nat) (x : Slot) : (s.setSlot b h l x).captures = s.captures := rfl
@[simp] theorem State.setSlot_fetches (b h l : Nat) (x : Slot) : (s.setSlot b h l x).fetches = s.fetches := rfl
@[simp] theorem State.setSlot_lineViews (b h l : Nat) (x : Slot) : (s.setSlot b h l x).lineViews = s.lineViews := rfl
@[simp] theorem State.setSlot_colStores (b h l : Nat) (x : Slot) : (s.setSlot b h l x).colStores = s.colStores := rfl
@[simp] theorem State.setSlot_pcache (b h l : Nat) (x : Slot) : (s.setSlot b h l x).pcache = s.pcache := rfl
@[simp] theorem State.setSlot_sprLines (b h l : Nat) (x : Slot) : (s.setSlot b h l x).sprLines = s.sprLines := rfl
@[simp] theorem State.setSlot_coll (b h l : Nat) (x : Slot) : (s.setSlot b h l x).coll = s.coll := rfl
@[simp] theorem State.setSlot_videos (b h l : Nat) (x : Slot) : (s.setSlot b h l x).videos = s.videos := rfl
@[simp] theorem State.setSlot_luts (b h l : Nat) (x : Slot) : (s.setSlot b h l x).luts = s.luts := rfl
@[simp] theorem State.setSlot_outs (b h l : Nat) (x : Slot) : (s.setSlot b h l x).outs = s.outs := rfl
@[simp] theorem State.setSlot_handQ (b h l : Nat) (x : Slot) : (s.setSlot b h l x).handQ = s.handQ := rfl
@[simp] theorem State.setSlot_memCtl (b h l : Nat) (x : Slot) : (s.setSlot b h l x).memCtl = s.memCtl := rfl
@[simp] theorem State.setSlot_lanes (b h l : Nat) (x : Slot) : (s.setSlot b h l x).lanes = s.lanes := rfl
@[simp] theorem State.setSlot_rasterTx (b h l : Nat) (x : Slot) : (s.setSlot b h l x).rasterTx = s.rasterTx := rfl
@[simp] theorem State.setSlot_audioTx (b h l : Nat) (x : Slot) : (s.setSlot b h l x).audioTx = s.audioTx := rfl
@[simp] theorem State.setSlot_flows (b h l : Nat) (x : Slot) : (s.setSlot b h l x).flows = s.flows := rfl
@[simp] theorem State.setSlot_ptp (b h l : Nat) (x : Slot) : (s.setSlot b h l x).ptp = s.ptp := rfl
@[simp] theorem State.setSlot_quench (b h l : Nat) (x : Slot) : (s.setSlot b h l x).quench = s.quench := rfl
@[simp] theorem State.setSlot_tuy (b h l : Nat) (x : Slot) : (s.setSlot b h l x).tuy = s.tuy := rfl
@[simp] theorem State.setSlot_swages (b h l : Nat) (x : Slot) : (s.setSlot b h l x).swages = s.swages := rfl
@[simp] theorem State.setSlot_tongs (b h l : Nat) (x : Slot) : (s.setSlot b h l x).tongs = s.tongs := rfl
@[simp] theorem State.setSlot_temper (b h l : Nat) (x : Slot) : (s.setSlot b h l x).temper = s.temper := rfl
@[simp] theorem State.setSlot_boot (b h l : Nat) (x : Slot) : (s.setSlot b h l x).boot = s.boot := rfl
@[simp] theorem State.setSlot_otp (b h l : Nat) (x : Slot) : (s.setSlot b h l x).otp = s.otp := rfl
@[simp] theorem State.setSlot_flash (b h l : Nat) (x : Slot) : (s.setSlot b h l x).flash = s.flash := rfl
@[simp] theorem State.setSlot_ember (b h l : Nat) (x : Slot) : (s.setSlot b h l x).ember = s.ember := rfl
@[simp] theorem State.setSlot_dports (b h l : Nat) (x : Slot) : (s.setSlot b h l x).dports = s.dports := rfl
@[simp] theorem State.setSlot_hostPort (b h l : Nat) (x : Slot) : (s.setSlot b h l x).hostPort = s.hostPort := rfl
@[simp] theorem State.setSlot_heldDoms (b h l : Nat) (x : Slot) : (s.setSlot b h l x).heldDoms = s.heldDoms := rfl
@[simp] theorem State.setSlot_pending (b h l : Nat) (x : Slot) : (s.setSlot b h l x).pending = s.pending := rfl

/-! ### State.setPin -/

@[simp] theorem State.setPin_variant (b n : Nat) (x : Pin) : (s.setPin b n x).variant = s.variant := rfl
@[simp] theorem State.setPin_now (b n : Nat) (x : Pin) : (s.setPin b n x).now = s.now := rfl
@[simp] theorem State.setPin_freeCount (b n : Nat) (x : Pin) : (s.setPin b n x).freeCount = s.freeCount := rfl
@[simp] theorem State.setPin_regs (b n : Nat) (x : Pin) : (s.setPin b n x).regs = s.regs := rfl
@[simp] theorem State.setPin_eff (b n : Nat) (x : Pin) : (s.setPin b n x).eff = s.eff := rfl
@[simp] theorem State.setPin_latches (b n : Nat) (x : Pin) : (s.setPin b n x).latches = s.latches := rfl
@[simp] theorem State.setPin_beam (b n : Nat) (x : Pin) : (s.setPin b n x).beam = s.beam := rfl
@[simp] theorem State.setPin_pkgQueue (b n : Nat) (x : Pin) : (s.setPin b n x).pkgQueue = s.pkgQueue := rfl
@[simp] theorem State.setPin_genlock (b n : Nat) (x : Pin) : (s.setPin b n x).genlock = s.genlock := rfl
@[simp] theorem State.setPin_ports (b n : Nat) (x : Pin) : (s.setPin b n x).ports = s.ports := rfl
@[simp] theorem State.setPin_evtAt (b n : Nat) (x : Pin) : (s.setPin b n x).evtAt = s.evtAt := rfl
@[simp] theorem State.setPin_sticky (b n : Nat) (x : Pin) : (s.setPin b n x).sticky = s.sticky := rfl
@[simp] theorem State.setPin_commits (b n : Nat) (x : Pin) : (s.setPin b n x).commits = s.commits := rfl
@[simp] theorem State.setPin_strikeRam (b n : Nat) (x : Pin) : (s.setPin b n x).strikeRam = s.strikeRam := rfl
@[simp] theorem State.setPin_cursors (b n : Nat) (x : Pin) : (s.setPin b n x).cursors = s.cursors := rfl
@[simp] theorem State.setPin_liveQ (b n : Nat) (x : Pin) : (s.setPin b n x).liveQ = s.liveQ := rfl
@[simp] theorem State.setPin_liveOut (b n : Nat) (x : Pin) : (s.setPin b n x).liveOut = s.liveOut := rfl
@[simp] theorem State.setPin_reflexWait (b n : Nat) (x : Pin) : (s.setPin b n x).reflexWait = s.reflexWait := rfl
@[simp] theorem State.setPin_hammers (b n : Nat) (x : Pin) : (s.setPin b n x).hammers = s.hammers := rfl
@[simp] theorem State.setPin_progMem (b n : Nat) (x : Pin) : (s.setPin b n x).progMem = s.progMem := rfl
@[simp] theorem State.setPin_banks (b n : Nat) (x : Pin) : (s.setPin b n x).banks = s.banks := rfl
@[simp] theorem State.setPin_privBits (b n : Nat) (x : Pin) : (s.setPin b n x).privBits = s.privBits := rfl
@[simp] theorem State.setPin_irq (b n : Nat) (x : Pin) : (s.setPin b n x).irq = s.irq := rfl
@[simp] theorem State.setPin_ppend (b n : Nat) (x : Pin) : (s.setPin b n x).ppend = s.ppend := rfl
@[simp] theorem State.setPin_slots (b n : Nat) (x : Pin) : (s.setPin b n x).slots = s.slots := rfl
@[simp] theorem State.setPin_hearth (b n : Nat) (x : Pin) : (s.setPin b n x).hearth = s.hearth := rfl
@[simp] theorem State.setPin_gddr (b n : Nat) (x : Pin) : (s.setPin b n x).gddr = s.gddr := rfl
@[simp] theorem State.setPin_gddrEra (b n : Nat) (x : Pin) : (s.setPin b n x).gddrEra = s.gddrEra := rfl
@[simp] theorem State.setPin_hearthEra (b n : Nat) (x : Pin) : (s.setPin b n x).hearthEra = s.hearthEra := rfl
@[simp] theorem State.setPin_hearthBad (b n : Nat) (x : Pin) : (s.setPin b n x).hearthBad = s.hearthBad := rfl
@[simp] theorem State.setPin_tick (b n : Nat) (x : Pin) : (s.setPin b n x).tick = s.tick := rfl
@[simp] theorem State.setPin_tickFrac (b n : Nat) (x : Pin) : (s.setPin b n x).tickFrac = s.tickFrac := rfl
@[simp] theorem State.setPin_tallies (b n : Nat) (x : Pin) : (s.setPin b n x).tallies = s.tallies := rfl
@[simp] theorem State.setPin_legacy (b n : Nat) (x : Pin) : (s.setPin b n x).legacy = s.legacy := rfl
@[simp] theorem State.setPin_pioBanks (b n : Nat) (x : Pin) : (s.setPin b n x).pioBanks = s.pioBanks := rfl
@[simp] theorem State.setPin_matchers (b n : Nat) (x : Pin) : (s.setPin b n x).matchers = s.matchers := rfl
@[simp] theorem State.setPin_tickCtl (b n : Nat) (x : Pin) : (s.setPin b n x).tickCtl = s.tickCtl := rfl
@[simp] theorem State.setPin_compares (b n : Nat) (x : Pin) : (s.setPin b n x).compares = s.compares := rfl
@[simp] theorem State.setPin_captures (b n : Nat) (x : Pin) : (s.setPin b n x).captures = s.captures := rfl
@[simp] theorem State.setPin_fetches (b n : Nat) (x : Pin) : (s.setPin b n x).fetches = s.fetches := rfl
@[simp] theorem State.setPin_lineViews (b n : Nat) (x : Pin) : (s.setPin b n x).lineViews = s.lineViews := rfl
@[simp] theorem State.setPin_colStores (b n : Nat) (x : Pin) : (s.setPin b n x).colStores = s.colStores := rfl
@[simp] theorem State.setPin_pcache (b n : Nat) (x : Pin) : (s.setPin b n x).pcache = s.pcache := rfl
@[simp] theorem State.setPin_sprLines (b n : Nat) (x : Pin) : (s.setPin b n x).sprLines = s.sprLines := rfl
@[simp] theorem State.setPin_coll (b n : Nat) (x : Pin) : (s.setPin b n x).coll = s.coll := rfl
@[simp] theorem State.setPin_videos (b n : Nat) (x : Pin) : (s.setPin b n x).videos = s.videos := rfl
@[simp] theorem State.setPin_luts (b n : Nat) (x : Pin) : (s.setPin b n x).luts = s.luts := rfl
@[simp] theorem State.setPin_outs (b n : Nat) (x : Pin) : (s.setPin b n x).outs = s.outs := rfl
@[simp] theorem State.setPin_handQ (b n : Nat) (x : Pin) : (s.setPin b n x).handQ = s.handQ := rfl
@[simp] theorem State.setPin_memCtl (b n : Nat) (x : Pin) : (s.setPin b n x).memCtl = s.memCtl := rfl
@[simp] theorem State.setPin_lanes (b n : Nat) (x : Pin) : (s.setPin b n x).lanes = s.lanes := rfl
@[simp] theorem State.setPin_rasterTx (b n : Nat) (x : Pin) : (s.setPin b n x).rasterTx = s.rasterTx := rfl
@[simp] theorem State.setPin_audioTx (b n : Nat) (x : Pin) : (s.setPin b n x).audioTx = s.audioTx := rfl
@[simp] theorem State.setPin_flows (b n : Nat) (x : Pin) : (s.setPin b n x).flows = s.flows := rfl
@[simp] theorem State.setPin_ptp (b n : Nat) (x : Pin) : (s.setPin b n x).ptp = s.ptp := rfl
@[simp] theorem State.setPin_quench (b n : Nat) (x : Pin) : (s.setPin b n x).quench = s.quench := rfl
@[simp] theorem State.setPin_tuy (b n : Nat) (x : Pin) : (s.setPin b n x).tuy = s.tuy := rfl
@[simp] theorem State.setPin_swages (b n : Nat) (x : Pin) : (s.setPin b n x).swages = s.swages := rfl
@[simp] theorem State.setPin_tongs (b n : Nat) (x : Pin) : (s.setPin b n x).tongs = s.tongs := rfl
@[simp] theorem State.setPin_temper (b n : Nat) (x : Pin) : (s.setPin b n x).temper = s.temper := rfl
@[simp] theorem State.setPin_boot (b n : Nat) (x : Pin) : (s.setPin b n x).boot = s.boot := rfl
@[simp] theorem State.setPin_otp (b n : Nat) (x : Pin) : (s.setPin b n x).otp = s.otp := rfl
@[simp] theorem State.setPin_flash (b n : Nat) (x : Pin) : (s.setPin b n x).flash = s.flash := rfl
@[simp] theorem State.setPin_ember (b n : Nat) (x : Pin) : (s.setPin b n x).ember = s.ember := rfl
@[simp] theorem State.setPin_dports (b n : Nat) (x : Pin) : (s.setPin b n x).dports = s.dports := rfl
@[simp] theorem State.setPin_hostPort (b n : Nat) (x : Pin) : (s.setPin b n x).hostPort = s.hostPort := rfl
@[simp] theorem State.setPin_heldDoms (b n : Nat) (x : Pin) : (s.setPin b n x).heldDoms = s.heldDoms := rfl
@[simp] theorem State.setPin_pending (b n : Nat) (x : Pin) : (s.setPin b n x).pending = s.pending := rfl

/-! ### State.setPpend -/

@[simp] theorem State.setPpend_variant (b h x : Nat) : (s.setPpend b h x).variant = s.variant := rfl
@[simp] theorem State.setPpend_now (b h x : Nat) : (s.setPpend b h x).now = s.now := rfl
@[simp] theorem State.setPpend_freeCount (b h x : Nat) : (s.setPpend b h x).freeCount = s.freeCount := rfl
@[simp] theorem State.setPpend_regs (b h x : Nat) : (s.setPpend b h x).regs = s.regs := rfl
@[simp] theorem State.setPpend_eff (b h x : Nat) : (s.setPpend b h x).eff = s.eff := rfl
@[simp] theorem State.setPpend_latches (b h x : Nat) : (s.setPpend b h x).latches = s.latches := rfl
@[simp] theorem State.setPpend_beam (b h x : Nat) : (s.setPpend b h x).beam = s.beam := rfl
@[simp] theorem State.setPpend_pkgQueue (b h x : Nat) : (s.setPpend b h x).pkgQueue = s.pkgQueue := rfl
@[simp] theorem State.setPpend_genlock (b h x : Nat) : (s.setPpend b h x).genlock = s.genlock := rfl
@[simp] theorem State.setPpend_ports (b h x : Nat) : (s.setPpend b h x).ports = s.ports := rfl
@[simp] theorem State.setPpend_evtAt (b h x : Nat) : (s.setPpend b h x).evtAt = s.evtAt := rfl
@[simp] theorem State.setPpend_sticky (b h x : Nat) : (s.setPpend b h x).sticky = s.sticky := rfl
@[simp] theorem State.setPpend_commits (b h x : Nat) : (s.setPpend b h x).commits = s.commits := rfl
@[simp] theorem State.setPpend_strikeRam (b h x : Nat) : (s.setPpend b h x).strikeRam = s.strikeRam := rfl
@[simp] theorem State.setPpend_cursors (b h x : Nat) : (s.setPpend b h x).cursors = s.cursors := rfl
@[simp] theorem State.setPpend_liveQ (b h x : Nat) : (s.setPpend b h x).liveQ = s.liveQ := rfl
@[simp] theorem State.setPpend_liveOut (b h x : Nat) : (s.setPpend b h x).liveOut = s.liveOut := rfl
@[simp] theorem State.setPpend_reflexWait (b h x : Nat) : (s.setPpend b h x).reflexWait = s.reflexWait := rfl
@[simp] theorem State.setPpend_hammers (b h x : Nat) : (s.setPpend b h x).hammers = s.hammers := rfl
@[simp] theorem State.setPpend_progMem (b h x : Nat) : (s.setPpend b h x).progMem = s.progMem := rfl
@[simp] theorem State.setPpend_banks (b h x : Nat) : (s.setPpend b h x).banks = s.banks := rfl
@[simp] theorem State.setPpend_privBits (b h x : Nat) : (s.setPpend b h x).privBits = s.privBits := rfl
@[simp] theorem State.setPpend_irq (b h x : Nat) : (s.setPpend b h x).irq = s.irq := rfl
@[simp] theorem State.setPpend_slots (b h x : Nat) : (s.setPpend b h x).slots = s.slots := rfl
@[simp] theorem State.setPpend_hearth (b h x : Nat) : (s.setPpend b h x).hearth = s.hearth := rfl
@[simp] theorem State.setPpend_gddr (b h x : Nat) : (s.setPpend b h x).gddr = s.gddr := rfl
@[simp] theorem State.setPpend_gddrEra (b h x : Nat) : (s.setPpend b h x).gddrEra = s.gddrEra := rfl
@[simp] theorem State.setPpend_hearthEra (b h x : Nat) : (s.setPpend b h x).hearthEra = s.hearthEra := rfl
@[simp] theorem State.setPpend_hearthBad (b h x : Nat) : (s.setPpend b h x).hearthBad = s.hearthBad := rfl
@[simp] theorem State.setPpend_tick (b h x : Nat) : (s.setPpend b h x).tick = s.tick := rfl
@[simp] theorem State.setPpend_tickFrac (b h x : Nat) : (s.setPpend b h x).tickFrac = s.tickFrac := rfl
@[simp] theorem State.setPpend_tallies (b h x : Nat) : (s.setPpend b h x).tallies = s.tallies := rfl
@[simp] theorem State.setPpend_pins (b h x : Nat) : (s.setPpend b h x).pins = s.pins := rfl
@[simp] theorem State.setPpend_legacy (b h x : Nat) : (s.setPpend b h x).legacy = s.legacy := rfl
@[simp] theorem State.setPpend_pioBanks (b h x : Nat) : (s.setPpend b h x).pioBanks = s.pioBanks := rfl
@[simp] theorem State.setPpend_matchers (b h x : Nat) : (s.setPpend b h x).matchers = s.matchers := rfl
@[simp] theorem State.setPpend_tickCtl (b h x : Nat) : (s.setPpend b h x).tickCtl = s.tickCtl := rfl
@[simp] theorem State.setPpend_compares (b h x : Nat) : (s.setPpend b h x).compares = s.compares := rfl
@[simp] theorem State.setPpend_captures (b h x : Nat) : (s.setPpend b h x).captures = s.captures := rfl
@[simp] theorem State.setPpend_fetches (b h x : Nat) : (s.setPpend b h x).fetches = s.fetches := rfl
@[simp] theorem State.setPpend_lineViews (b h x : Nat) : (s.setPpend b h x).lineViews = s.lineViews := rfl
@[simp] theorem State.setPpend_colStores (b h x : Nat) : (s.setPpend b h x).colStores = s.colStores := rfl
@[simp] theorem State.setPpend_pcache (b h x : Nat) : (s.setPpend b h x).pcache = s.pcache := rfl
@[simp] theorem State.setPpend_sprLines (b h x : Nat) : (s.setPpend b h x).sprLines = s.sprLines := rfl
@[simp] theorem State.setPpend_coll (b h x : Nat) : (s.setPpend b h x).coll = s.coll := rfl
@[simp] theorem State.setPpend_videos (b h x : Nat) : (s.setPpend b h x).videos = s.videos := rfl
@[simp] theorem State.setPpend_luts (b h x : Nat) : (s.setPpend b h x).luts = s.luts := rfl
@[simp] theorem State.setPpend_outs (b h x : Nat) : (s.setPpend b h x).outs = s.outs := rfl
@[simp] theorem State.setPpend_handQ (b h x : Nat) : (s.setPpend b h x).handQ = s.handQ := rfl
@[simp] theorem State.setPpend_memCtl (b h x : Nat) : (s.setPpend b h x).memCtl = s.memCtl := rfl
@[simp] theorem State.setPpend_lanes (b h x : Nat) : (s.setPpend b h x).lanes = s.lanes := rfl
@[simp] theorem State.setPpend_rasterTx (b h x : Nat) : (s.setPpend b h x).rasterTx = s.rasterTx := rfl
@[simp] theorem State.setPpend_audioTx (b h x : Nat) : (s.setPpend b h x).audioTx = s.audioTx := rfl
@[simp] theorem State.setPpend_flows (b h x : Nat) : (s.setPpend b h x).flows = s.flows := rfl
@[simp] theorem State.setPpend_ptp (b h x : Nat) : (s.setPpend b h x).ptp = s.ptp := rfl
@[simp] theorem State.setPpend_quench (b h x : Nat) : (s.setPpend b h x).quench = s.quench := rfl
@[simp] theorem State.setPpend_tuy (b h x : Nat) : (s.setPpend b h x).tuy = s.tuy := rfl
@[simp] theorem State.setPpend_swages (b h x : Nat) : (s.setPpend b h x).swages = s.swages := rfl
@[simp] theorem State.setPpend_tongs (b h x : Nat) : (s.setPpend b h x).tongs = s.tongs := rfl
@[simp] theorem State.setPpend_temper (b h x : Nat) : (s.setPpend b h x).temper = s.temper := rfl
@[simp] theorem State.setPpend_boot (b h x : Nat) : (s.setPpend b h x).boot = s.boot := rfl
@[simp] theorem State.setPpend_otp (b h x : Nat) : (s.setPpend b h x).otp = s.otp := rfl
@[simp] theorem State.setPpend_flash (b h x : Nat) : (s.setPpend b h x).flash = s.flash := rfl
@[simp] theorem State.setPpend_ember (b h x : Nat) : (s.setPpend b h x).ember = s.ember := rfl
@[simp] theorem State.setPpend_dports (b h x : Nat) : (s.setPpend b h x).dports = s.dports := rfl
@[simp] theorem State.setPpend_hostPort (b h x : Nat) : (s.setPpend b h x).hostPort = s.hostPort := rfl
@[simp] theorem State.setPpend_heldDoms (b h x : Nat) : (s.setPpend b h x).heldDoms = s.heldDoms := rfl
@[simp] theorem State.setPpend_pending (b h x : Nat) : (s.setPpend b h x).pending = s.pending := rfl

/-! ### State.setSticky -/

@[simp] theorem State.setSticky_variant (b h x : Nat) : (s.setSticky b h x).variant = s.variant := rfl
@[simp] theorem State.setSticky_now (b h x : Nat) : (s.setSticky b h x).now = s.now := rfl
@[simp] theorem State.setSticky_freeCount (b h x : Nat) : (s.setSticky b h x).freeCount = s.freeCount := rfl
@[simp] theorem State.setSticky_regs (b h x : Nat) : (s.setSticky b h x).regs = s.regs := rfl
@[simp] theorem State.setSticky_eff (b h x : Nat) : (s.setSticky b h x).eff = s.eff := rfl
@[simp] theorem State.setSticky_latches (b h x : Nat) : (s.setSticky b h x).latches = s.latches := rfl
@[simp] theorem State.setSticky_beam (b h x : Nat) : (s.setSticky b h x).beam = s.beam := rfl
@[simp] theorem State.setSticky_pkgQueue (b h x : Nat) : (s.setSticky b h x).pkgQueue = s.pkgQueue := rfl
@[simp] theorem State.setSticky_genlock (b h x : Nat) : (s.setSticky b h x).genlock = s.genlock := rfl
@[simp] theorem State.setSticky_ports (b h x : Nat) : (s.setSticky b h x).ports = s.ports := rfl
@[simp] theorem State.setSticky_evtAt (b h x : Nat) : (s.setSticky b h x).evtAt = s.evtAt := rfl
@[simp] theorem State.setSticky_commits (b h x : Nat) : (s.setSticky b h x).commits = s.commits := rfl
@[simp] theorem State.setSticky_strikeRam (b h x : Nat) : (s.setSticky b h x).strikeRam = s.strikeRam := rfl
@[simp] theorem State.setSticky_cursors (b h x : Nat) : (s.setSticky b h x).cursors = s.cursors := rfl
@[simp] theorem State.setSticky_liveQ (b h x : Nat) : (s.setSticky b h x).liveQ = s.liveQ := rfl
@[simp] theorem State.setSticky_liveOut (b h x : Nat) : (s.setSticky b h x).liveOut = s.liveOut := rfl
@[simp] theorem State.setSticky_reflexWait (b h x : Nat) : (s.setSticky b h x).reflexWait = s.reflexWait := rfl
@[simp] theorem State.setSticky_hammers (b h x : Nat) : (s.setSticky b h x).hammers = s.hammers := rfl
@[simp] theorem State.setSticky_progMem (b h x : Nat) : (s.setSticky b h x).progMem = s.progMem := rfl
@[simp] theorem State.setSticky_banks (b h x : Nat) : (s.setSticky b h x).banks = s.banks := rfl
@[simp] theorem State.setSticky_privBits (b h x : Nat) : (s.setSticky b h x).privBits = s.privBits := rfl
@[simp] theorem State.setSticky_irq (b h x : Nat) : (s.setSticky b h x).irq = s.irq := rfl
@[simp] theorem State.setSticky_ppend (b h x : Nat) : (s.setSticky b h x).ppend = s.ppend := rfl
@[simp] theorem State.setSticky_slots (b h x : Nat) : (s.setSticky b h x).slots = s.slots := rfl
@[simp] theorem State.setSticky_hearth (b h x : Nat) : (s.setSticky b h x).hearth = s.hearth := rfl
@[simp] theorem State.setSticky_gddr (b h x : Nat) : (s.setSticky b h x).gddr = s.gddr := rfl
@[simp] theorem State.setSticky_gddrEra (b h x : Nat) : (s.setSticky b h x).gddrEra = s.gddrEra := rfl
@[simp] theorem State.setSticky_hearthEra (b h x : Nat) : (s.setSticky b h x).hearthEra = s.hearthEra := rfl
@[simp] theorem State.setSticky_hearthBad (b h x : Nat) : (s.setSticky b h x).hearthBad = s.hearthBad := rfl
@[simp] theorem State.setSticky_tick (b h x : Nat) : (s.setSticky b h x).tick = s.tick := rfl
@[simp] theorem State.setSticky_tickFrac (b h x : Nat) : (s.setSticky b h x).tickFrac = s.tickFrac := rfl
@[simp] theorem State.setSticky_tallies (b h x : Nat) : (s.setSticky b h x).tallies = s.tallies := rfl
@[simp] theorem State.setSticky_pins (b h x : Nat) : (s.setSticky b h x).pins = s.pins := rfl
@[simp] theorem State.setSticky_legacy (b h x : Nat) : (s.setSticky b h x).legacy = s.legacy := rfl
@[simp] theorem State.setSticky_pioBanks (b h x : Nat) : (s.setSticky b h x).pioBanks = s.pioBanks := rfl
@[simp] theorem State.setSticky_matchers (b h x : Nat) : (s.setSticky b h x).matchers = s.matchers := rfl
@[simp] theorem State.setSticky_tickCtl (b h x : Nat) : (s.setSticky b h x).tickCtl = s.tickCtl := rfl
@[simp] theorem State.setSticky_compares (b h x : Nat) : (s.setSticky b h x).compares = s.compares := rfl
@[simp] theorem State.setSticky_captures (b h x : Nat) : (s.setSticky b h x).captures = s.captures := rfl
@[simp] theorem State.setSticky_fetches (b h x : Nat) : (s.setSticky b h x).fetches = s.fetches := rfl
@[simp] theorem State.setSticky_lineViews (b h x : Nat) : (s.setSticky b h x).lineViews = s.lineViews := rfl
@[simp] theorem State.setSticky_colStores (b h x : Nat) : (s.setSticky b h x).colStores = s.colStores := rfl
@[simp] theorem State.setSticky_pcache (b h x : Nat) : (s.setSticky b h x).pcache = s.pcache := rfl
@[simp] theorem State.setSticky_sprLines (b h x : Nat) : (s.setSticky b h x).sprLines = s.sprLines := rfl
@[simp] theorem State.setSticky_coll (b h x : Nat) : (s.setSticky b h x).coll = s.coll := rfl
@[simp] theorem State.setSticky_videos (b h x : Nat) : (s.setSticky b h x).videos = s.videos := rfl
@[simp] theorem State.setSticky_luts (b h x : Nat) : (s.setSticky b h x).luts = s.luts := rfl
@[simp] theorem State.setSticky_outs (b h x : Nat) : (s.setSticky b h x).outs = s.outs := rfl
@[simp] theorem State.setSticky_handQ (b h x : Nat) : (s.setSticky b h x).handQ = s.handQ := rfl
@[simp] theorem State.setSticky_memCtl (b h x : Nat) : (s.setSticky b h x).memCtl = s.memCtl := rfl
@[simp] theorem State.setSticky_lanes (b h x : Nat) : (s.setSticky b h x).lanes = s.lanes := rfl
@[simp] theorem State.setSticky_rasterTx (b h x : Nat) : (s.setSticky b h x).rasterTx = s.rasterTx := rfl
@[simp] theorem State.setSticky_audioTx (b h x : Nat) : (s.setSticky b h x).audioTx = s.audioTx := rfl
@[simp] theorem State.setSticky_flows (b h x : Nat) : (s.setSticky b h x).flows = s.flows := rfl
@[simp] theorem State.setSticky_ptp (b h x : Nat) : (s.setSticky b h x).ptp = s.ptp := rfl
@[simp] theorem State.setSticky_quench (b h x : Nat) : (s.setSticky b h x).quench = s.quench := rfl
@[simp] theorem State.setSticky_tuy (b h x : Nat) : (s.setSticky b h x).tuy = s.tuy := rfl
@[simp] theorem State.setSticky_swages (b h x : Nat) : (s.setSticky b h x).swages = s.swages := rfl
@[simp] theorem State.setSticky_tongs (b h x : Nat) : (s.setSticky b h x).tongs = s.tongs := rfl
@[simp] theorem State.setSticky_temper (b h x : Nat) : (s.setSticky b h x).temper = s.temper := rfl
@[simp] theorem State.setSticky_boot (b h x : Nat) : (s.setSticky b h x).boot = s.boot := rfl
@[simp] theorem State.setSticky_otp (b h x : Nat) : (s.setSticky b h x).otp = s.otp := rfl
@[simp] theorem State.setSticky_flash (b h x : Nat) : (s.setSticky b h x).flash = s.flash := rfl
@[simp] theorem State.setSticky_ember (b h x : Nat) : (s.setSticky b h x).ember = s.ember := rfl
@[simp] theorem State.setSticky_dports (b h x : Nat) : (s.setSticky b h x).dports = s.dports := rfl
@[simp] theorem State.setSticky_hostPort (b h x : Nat) : (s.setSticky b h x).hostPort = s.hostPort := rfl
@[simp] theorem State.setSticky_heldDoms (b h x : Nat) : (s.setSticky b h x).heldDoms = s.heldDoms := rfl
@[simp] theorem State.setSticky_pending (b h x : Nat) : (s.setSticky b h x).pending = s.pending := rfl

/-! ### State.setTally -/

@[simp] theorem State.setTally_variant (b k : Nat) (x : Tally) : (s.setTally b k x).variant = s.variant := rfl
@[simp] theorem State.setTally_now (b k : Nat) (x : Tally) : (s.setTally b k x).now = s.now := rfl
@[simp] theorem State.setTally_freeCount (b k : Nat) (x : Tally) : (s.setTally b k x).freeCount = s.freeCount := rfl
@[simp] theorem State.setTally_regs (b k : Nat) (x : Tally) : (s.setTally b k x).regs = s.regs := rfl
@[simp] theorem State.setTally_eff (b k : Nat) (x : Tally) : (s.setTally b k x).eff = s.eff := rfl
@[simp] theorem State.setTally_latches (b k : Nat) (x : Tally) : (s.setTally b k x).latches = s.latches := rfl
@[simp] theorem State.setTally_beam (b k : Nat) (x : Tally) : (s.setTally b k x).beam = s.beam := rfl
@[simp] theorem State.setTally_pkgQueue (b k : Nat) (x : Tally) : (s.setTally b k x).pkgQueue = s.pkgQueue := rfl
@[simp] theorem State.setTally_genlock (b k : Nat) (x : Tally) : (s.setTally b k x).genlock = s.genlock := rfl
@[simp] theorem State.setTally_ports (b k : Nat) (x : Tally) : (s.setTally b k x).ports = s.ports := rfl
@[simp] theorem State.setTally_evtAt (b k : Nat) (x : Tally) : (s.setTally b k x).evtAt = s.evtAt := rfl
@[simp] theorem State.setTally_sticky (b k : Nat) (x : Tally) : (s.setTally b k x).sticky = s.sticky := rfl
@[simp] theorem State.setTally_commits (b k : Nat) (x : Tally) : (s.setTally b k x).commits = s.commits := rfl
@[simp] theorem State.setTally_strikeRam (b k : Nat) (x : Tally) : (s.setTally b k x).strikeRam = s.strikeRam := rfl
@[simp] theorem State.setTally_cursors (b k : Nat) (x : Tally) : (s.setTally b k x).cursors = s.cursors := rfl
@[simp] theorem State.setTally_liveQ (b k : Nat) (x : Tally) : (s.setTally b k x).liveQ = s.liveQ := rfl
@[simp] theorem State.setTally_liveOut (b k : Nat) (x : Tally) : (s.setTally b k x).liveOut = s.liveOut := rfl
@[simp] theorem State.setTally_reflexWait (b k : Nat) (x : Tally) : (s.setTally b k x).reflexWait = s.reflexWait := rfl
@[simp] theorem State.setTally_hammers (b k : Nat) (x : Tally) : (s.setTally b k x).hammers = s.hammers := rfl
@[simp] theorem State.setTally_progMem (b k : Nat) (x : Tally) : (s.setTally b k x).progMem = s.progMem := rfl
@[simp] theorem State.setTally_banks (b k : Nat) (x : Tally) : (s.setTally b k x).banks = s.banks := rfl
@[simp] theorem State.setTally_privBits (b k : Nat) (x : Tally) : (s.setTally b k x).privBits = s.privBits := rfl
@[simp] theorem State.setTally_irq (b k : Nat) (x : Tally) : (s.setTally b k x).irq = s.irq := rfl
@[simp] theorem State.setTally_ppend (b k : Nat) (x : Tally) : (s.setTally b k x).ppend = s.ppend := rfl
@[simp] theorem State.setTally_slots (b k : Nat) (x : Tally) : (s.setTally b k x).slots = s.slots := rfl
@[simp] theorem State.setTally_hearth (b k : Nat) (x : Tally) : (s.setTally b k x).hearth = s.hearth := rfl
@[simp] theorem State.setTally_gddr (b k : Nat) (x : Tally) : (s.setTally b k x).gddr = s.gddr := rfl
@[simp] theorem State.setTally_gddrEra (b k : Nat) (x : Tally) : (s.setTally b k x).gddrEra = s.gddrEra := rfl
@[simp] theorem State.setTally_hearthEra (b k : Nat) (x : Tally) : (s.setTally b k x).hearthEra = s.hearthEra := rfl
@[simp] theorem State.setTally_hearthBad (b k : Nat) (x : Tally) : (s.setTally b k x).hearthBad = s.hearthBad := rfl
@[simp] theorem State.setTally_tick (b k : Nat) (x : Tally) : (s.setTally b k x).tick = s.tick := rfl
@[simp] theorem State.setTally_tickFrac (b k : Nat) (x : Tally) : (s.setTally b k x).tickFrac = s.tickFrac := rfl
@[simp] theorem State.setTally_pins (b k : Nat) (x : Tally) : (s.setTally b k x).pins = s.pins := rfl
@[simp] theorem State.setTally_legacy (b k : Nat) (x : Tally) : (s.setTally b k x).legacy = s.legacy := rfl
@[simp] theorem State.setTally_pioBanks (b k : Nat) (x : Tally) : (s.setTally b k x).pioBanks = s.pioBanks := rfl
@[simp] theorem State.setTally_matchers (b k : Nat) (x : Tally) : (s.setTally b k x).matchers = s.matchers := rfl
@[simp] theorem State.setTally_tickCtl (b k : Nat) (x : Tally) : (s.setTally b k x).tickCtl = s.tickCtl := rfl
@[simp] theorem State.setTally_compares (b k : Nat) (x : Tally) : (s.setTally b k x).compares = s.compares := rfl
@[simp] theorem State.setTally_captures (b k : Nat) (x : Tally) : (s.setTally b k x).captures = s.captures := rfl
@[simp] theorem State.setTally_fetches (b k : Nat) (x : Tally) : (s.setTally b k x).fetches = s.fetches := rfl
@[simp] theorem State.setTally_lineViews (b k : Nat) (x : Tally) : (s.setTally b k x).lineViews = s.lineViews := rfl
@[simp] theorem State.setTally_colStores (b k : Nat) (x : Tally) : (s.setTally b k x).colStores = s.colStores := rfl
@[simp] theorem State.setTally_pcache (b k : Nat) (x : Tally) : (s.setTally b k x).pcache = s.pcache := rfl
@[simp] theorem State.setTally_sprLines (b k : Nat) (x : Tally) : (s.setTally b k x).sprLines = s.sprLines := rfl
@[simp] theorem State.setTally_coll (b k : Nat) (x : Tally) : (s.setTally b k x).coll = s.coll := rfl
@[simp] theorem State.setTally_videos (b k : Nat) (x : Tally) : (s.setTally b k x).videos = s.videos := rfl
@[simp] theorem State.setTally_luts (b k : Nat) (x : Tally) : (s.setTally b k x).luts = s.luts := rfl
@[simp] theorem State.setTally_outs (b k : Nat) (x : Tally) : (s.setTally b k x).outs = s.outs := rfl
@[simp] theorem State.setTally_handQ (b k : Nat) (x : Tally) : (s.setTally b k x).handQ = s.handQ := rfl
@[simp] theorem State.setTally_memCtl (b k : Nat) (x : Tally) : (s.setTally b k x).memCtl = s.memCtl := rfl
@[simp] theorem State.setTally_lanes (b k : Nat) (x : Tally) : (s.setTally b k x).lanes = s.lanes := rfl
@[simp] theorem State.setTally_rasterTx (b k : Nat) (x : Tally) : (s.setTally b k x).rasterTx = s.rasterTx := rfl
@[simp] theorem State.setTally_audioTx (b k : Nat) (x : Tally) : (s.setTally b k x).audioTx = s.audioTx := rfl
@[simp] theorem State.setTally_flows (b k : Nat) (x : Tally) : (s.setTally b k x).flows = s.flows := rfl
@[simp] theorem State.setTally_ptp (b k : Nat) (x : Tally) : (s.setTally b k x).ptp = s.ptp := rfl
@[simp] theorem State.setTally_quench (b k : Nat) (x : Tally) : (s.setTally b k x).quench = s.quench := rfl
@[simp] theorem State.setTally_tuy (b k : Nat) (x : Tally) : (s.setTally b k x).tuy = s.tuy := rfl
@[simp] theorem State.setTally_swages (b k : Nat) (x : Tally) : (s.setTally b k x).swages = s.swages := rfl
@[simp] theorem State.setTally_tongs (b k : Nat) (x : Tally) : (s.setTally b k x).tongs = s.tongs := rfl
@[simp] theorem State.setTally_temper (b k : Nat) (x : Tally) : (s.setTally b k x).temper = s.temper := rfl
@[simp] theorem State.setTally_boot (b k : Nat) (x : Tally) : (s.setTally b k x).boot = s.boot := rfl
@[simp] theorem State.setTally_otp (b k : Nat) (x : Tally) : (s.setTally b k x).otp = s.otp := rfl
@[simp] theorem State.setTally_flash (b k : Nat) (x : Tally) : (s.setTally b k x).flash = s.flash := rfl
@[simp] theorem State.setTally_ember (b k : Nat) (x : Tally) : (s.setTally b k x).ember = s.ember := rfl
@[simp] theorem State.setTally_dports (b k : Nat) (x : Tally) : (s.setTally b k x).dports = s.dports := rfl
@[simp] theorem State.setTally_hostPort (b k : Nat) (x : Tally) : (s.setTally b k x).hostPort = s.hostPort := rfl
@[simp] theorem State.setTally_heldDoms (b k : Nat) (x : Tally) : (s.setTally b k x).heldDoms = s.heldDoms := rfl
@[simp] theorem State.setTally_pending (b k : Nat) (x : Tally) : (s.setTally b k x).pending = s.pending := rfl

/-! ### State.setLive -/

@[simp] theorem State.setLive_variant (l : List Commit) : (s.setLive l).variant = s.variant := rfl
@[simp] theorem State.setLive_now (l : List Commit) : (s.setLive l).now = s.now := rfl
@[simp] theorem State.setLive_freeCount (l : List Commit) : (s.setLive l).freeCount = s.freeCount := rfl
@[simp] theorem State.setLive_regs (l : List Commit) : (s.setLive l).regs = s.regs := rfl
@[simp] theorem State.setLive_eff (l : List Commit) : (s.setLive l).eff = s.eff := rfl
@[simp] theorem State.setLive_latches (l : List Commit) : (s.setLive l).latches = s.latches := rfl
@[simp] theorem State.setLive_beam (l : List Commit) : (s.setLive l).beam = s.beam := rfl
@[simp] theorem State.setLive_pkgQueue (l : List Commit) : (s.setLive l).pkgQueue = s.pkgQueue := rfl
@[simp] theorem State.setLive_genlock (l : List Commit) : (s.setLive l).genlock = s.genlock := rfl
@[simp] theorem State.setLive_ports (l : List Commit) : (s.setLive l).ports = s.ports := rfl
@[simp] theorem State.setLive_evtAt (l : List Commit) : (s.setLive l).evtAt = s.evtAt := rfl
@[simp] theorem State.setLive_sticky (l : List Commit) : (s.setLive l).sticky = s.sticky := rfl
@[simp] theorem State.setLive_strikeRam (l : List Commit) : (s.setLive l).strikeRam = s.strikeRam := rfl
@[simp] theorem State.setLive_cursors (l : List Commit) : (s.setLive l).cursors = s.cursors := rfl
@[simp] theorem State.setLive_liveQ (l : List Commit) : (s.setLive l).liveQ = s.liveQ := rfl
@[simp] theorem State.setLive_liveOut (l : List Commit) : (s.setLive l).liveOut = s.liveOut := rfl
@[simp] theorem State.setLive_reflexWait (l : List Commit) : (s.setLive l).reflexWait = s.reflexWait := rfl
@[simp] theorem State.setLive_hammers (l : List Commit) : (s.setLive l).hammers = s.hammers := rfl
@[simp] theorem State.setLive_progMem (l : List Commit) : (s.setLive l).progMem = s.progMem := rfl
@[simp] theorem State.setLive_banks (l : List Commit) : (s.setLive l).banks = s.banks := rfl
@[simp] theorem State.setLive_privBits (l : List Commit) : (s.setLive l).privBits = s.privBits := rfl
@[simp] theorem State.setLive_irq (l : List Commit) : (s.setLive l).irq = s.irq := rfl
@[simp] theorem State.setLive_ppend (l : List Commit) : (s.setLive l).ppend = s.ppend := rfl
@[simp] theorem State.setLive_slots (l : List Commit) : (s.setLive l).slots = s.slots := rfl
@[simp] theorem State.setLive_hearth (l : List Commit) : (s.setLive l).hearth = s.hearth := rfl
@[simp] theorem State.setLive_gddr (l : List Commit) : (s.setLive l).gddr = s.gddr := rfl
@[simp] theorem State.setLive_gddrEra (l : List Commit) : (s.setLive l).gddrEra = s.gddrEra := rfl
@[simp] theorem State.setLive_hearthEra (l : List Commit) : (s.setLive l).hearthEra = s.hearthEra := rfl
@[simp] theorem State.setLive_hearthBad (l : List Commit) : (s.setLive l).hearthBad = s.hearthBad := rfl
@[simp] theorem State.setLive_tick (l : List Commit) : (s.setLive l).tick = s.tick := rfl
@[simp] theorem State.setLive_tickFrac (l : List Commit) : (s.setLive l).tickFrac = s.tickFrac := rfl
@[simp] theorem State.setLive_tallies (l : List Commit) : (s.setLive l).tallies = s.tallies := rfl
@[simp] theorem State.setLive_pins (l : List Commit) : (s.setLive l).pins = s.pins := rfl
@[simp] theorem State.setLive_legacy (l : List Commit) : (s.setLive l).legacy = s.legacy := rfl
@[simp] theorem State.setLive_pioBanks (l : List Commit) : (s.setLive l).pioBanks = s.pioBanks := rfl
@[simp] theorem State.setLive_matchers (l : List Commit) : (s.setLive l).matchers = s.matchers := rfl
@[simp] theorem State.setLive_tickCtl (l : List Commit) : (s.setLive l).tickCtl = s.tickCtl := rfl
@[simp] theorem State.setLive_compares (l : List Commit) : (s.setLive l).compares = s.compares := rfl
@[simp] theorem State.setLive_captures (l : List Commit) : (s.setLive l).captures = s.captures := rfl
@[simp] theorem State.setLive_fetches (l : List Commit) : (s.setLive l).fetches = s.fetches := rfl
@[simp] theorem State.setLive_lineViews (l : List Commit) : (s.setLive l).lineViews = s.lineViews := rfl
@[simp] theorem State.setLive_colStores (l : List Commit) : (s.setLive l).colStores = s.colStores := rfl
@[simp] theorem State.setLive_pcache (l : List Commit) : (s.setLive l).pcache = s.pcache := rfl
@[simp] theorem State.setLive_sprLines (l : List Commit) : (s.setLive l).sprLines = s.sprLines := rfl
@[simp] theorem State.setLive_coll (l : List Commit) : (s.setLive l).coll = s.coll := rfl
@[simp] theorem State.setLive_videos (l : List Commit) : (s.setLive l).videos = s.videos := rfl
@[simp] theorem State.setLive_luts (l : List Commit) : (s.setLive l).luts = s.luts := rfl
@[simp] theorem State.setLive_outs (l : List Commit) : (s.setLive l).outs = s.outs := rfl
@[simp] theorem State.setLive_handQ (l : List Commit) : (s.setLive l).handQ = s.handQ := rfl
@[simp] theorem State.setLive_memCtl (l : List Commit) : (s.setLive l).memCtl = s.memCtl := rfl
@[simp] theorem State.setLive_lanes (l : List Commit) : (s.setLive l).lanes = s.lanes := rfl
@[simp] theorem State.setLive_rasterTx (l : List Commit) : (s.setLive l).rasterTx = s.rasterTx := rfl
@[simp] theorem State.setLive_audioTx (l : List Commit) : (s.setLive l).audioTx = s.audioTx := rfl
@[simp] theorem State.setLive_flows (l : List Commit) : (s.setLive l).flows = s.flows := rfl
@[simp] theorem State.setLive_ptp (l : List Commit) : (s.setLive l).ptp = s.ptp := rfl
@[simp] theorem State.setLive_quench (l : List Commit) : (s.setLive l).quench = s.quench := rfl
@[simp] theorem State.setLive_tuy (l : List Commit) : (s.setLive l).tuy = s.tuy := rfl
@[simp] theorem State.setLive_swages (l : List Commit) : (s.setLive l).swages = s.swages := rfl
@[simp] theorem State.setLive_tongs (l : List Commit) : (s.setLive l).tongs = s.tongs := rfl
@[simp] theorem State.setLive_temper (l : List Commit) : (s.setLive l).temper = s.temper := rfl
@[simp] theorem State.setLive_boot (l : List Commit) : (s.setLive l).boot = s.boot := rfl
@[simp] theorem State.setLive_otp (l : List Commit) : (s.setLive l).otp = s.otp := rfl
@[simp] theorem State.setLive_flash (l : List Commit) : (s.setLive l).flash = s.flash := rfl
@[simp] theorem State.setLive_ember (l : List Commit) : (s.setLive l).ember = s.ember := rfl
@[simp] theorem State.setLive_dports (l : List Commit) : (s.setLive l).dports = s.dports := rfl
@[simp] theorem State.setLive_hostPort (l : List Commit) : (s.setLive l).hostPort = s.hostPort := rfl
@[simp] theorem State.setLive_heldDoms (l : List Commit) : (s.setLive l).heldDoms = s.heldDoms := rfl
@[simp] theorem State.setLive_pending (l : List Commit) : (s.setLive l).pending = s.pending := rfl

/-! ### State.latch -/

@[simp] theorem State.latch_variant (who : Who) (b a : Nat) (v : Word) : (s.latch who b a v).variant = s.variant := rfl
@[simp] theorem State.latch_now (who : Who) (b a : Nat) (v : Word) : (s.latch who b a v).now = s.now := rfl
@[simp] theorem State.latch_freeCount (who : Who) (b a : Nat) (v : Word) : (s.latch who b a v).freeCount = s.freeCount := rfl
@[simp] theorem State.latch_regs (who : Who) (b a : Nat) (v : Word) : (s.latch who b a v).regs = s.regs := rfl
@[simp] theorem State.latch_eff (who : Who) (b a : Nat) (v : Word) : (s.latch who b a v).eff = s.eff := rfl
@[simp] theorem State.latch_beam (who : Who) (b a : Nat) (v : Word) : (s.latch who b a v).beam = s.beam := rfl
@[simp] theorem State.latch_pkgQueue (who : Who) (b a : Nat) (v : Word) : (s.latch who b a v).pkgQueue = s.pkgQueue := rfl
@[simp] theorem State.latch_genlock (who : Who) (b a : Nat) (v : Word) : (s.latch who b a v).genlock = s.genlock := rfl
@[simp] theorem State.latch_ports (who : Who) (b a : Nat) (v : Word) : (s.latch who b a v).ports = s.ports := rfl
@[simp] theorem State.latch_evtAt (who : Who) (b a : Nat) (v : Word) : (s.latch who b a v).evtAt = s.evtAt := rfl
@[simp] theorem State.latch_sticky (who : Who) (b a : Nat) (v : Word) : (s.latch who b a v).sticky = s.sticky := rfl
@[simp] theorem State.latch_commits (who : Who) (b a : Nat) (v : Word) : (s.latch who b a v).commits = s.commits := rfl
@[simp] theorem State.latch_strikeRam (who : Who) (b a : Nat) (v : Word) : (s.latch who b a v).strikeRam = s.strikeRam := rfl
@[simp] theorem State.latch_cursors (who : Who) (b a : Nat) (v : Word) : (s.latch who b a v).cursors = s.cursors := rfl
@[simp] theorem State.latch_liveQ (who : Who) (b a : Nat) (v : Word) : (s.latch who b a v).liveQ = s.liveQ := rfl
@[simp] theorem State.latch_liveOut (who : Who) (b a : Nat) (v : Word) : (s.latch who b a v).liveOut = s.liveOut := rfl
@[simp] theorem State.latch_reflexWait (who : Who) (b a : Nat) (v : Word) : (s.latch who b a v).reflexWait = s.reflexWait := rfl
@[simp] theorem State.latch_hammers (who : Who) (b a : Nat) (v : Word) : (s.latch who b a v).hammers = s.hammers := rfl
@[simp] theorem State.latch_progMem (who : Who) (b a : Nat) (v : Word) : (s.latch who b a v).progMem = s.progMem := rfl
@[simp] theorem State.latch_banks (who : Who) (b a : Nat) (v : Word) : (s.latch who b a v).banks = s.banks := rfl
@[simp] theorem State.latch_privBits (who : Who) (b a : Nat) (v : Word) : (s.latch who b a v).privBits = s.privBits := rfl
@[simp] theorem State.latch_irq (who : Who) (b a : Nat) (v : Word) : (s.latch who b a v).irq = s.irq := rfl
@[simp] theorem State.latch_ppend (who : Who) (b a : Nat) (v : Word) : (s.latch who b a v).ppend = s.ppend := rfl
@[simp] theorem State.latch_slots (who : Who) (b a : Nat) (v : Word) : (s.latch who b a v).slots = s.slots := rfl
@[simp] theorem State.latch_hearth (who : Who) (b a : Nat) (v : Word) : (s.latch who b a v).hearth = s.hearth := rfl
@[simp] theorem State.latch_gddr (who : Who) (b a : Nat) (v : Word) : (s.latch who b a v).gddr = s.gddr := rfl
@[simp] theorem State.latch_gddrEra (who : Who) (b a : Nat) (v : Word) : (s.latch who b a v).gddrEra = s.gddrEra := rfl
@[simp] theorem State.latch_hearthEra (who : Who) (b a : Nat) (v : Word) : (s.latch who b a v).hearthEra = s.hearthEra := rfl
@[simp] theorem State.latch_hearthBad (who : Who) (b a : Nat) (v : Word) : (s.latch who b a v).hearthBad = s.hearthBad := rfl
@[simp] theorem State.latch_tick (who : Who) (b a : Nat) (v : Word) : (s.latch who b a v).tick = s.tick := rfl
@[simp] theorem State.latch_tickFrac (who : Who) (b a : Nat) (v : Word) : (s.latch who b a v).tickFrac = s.tickFrac := rfl
@[simp] theorem State.latch_tallies (who : Who) (b a : Nat) (v : Word) : (s.latch who b a v).tallies = s.tallies := rfl
@[simp] theorem State.latch_pins (who : Who) (b a : Nat) (v : Word) : (s.latch who b a v).pins = s.pins := rfl
@[simp] theorem State.latch_legacy (who : Who) (b a : Nat) (v : Word) : (s.latch who b a v).legacy = s.legacy := rfl
@[simp] theorem State.latch_pioBanks (who : Who) (b a : Nat) (v : Word) : (s.latch who b a v).pioBanks = s.pioBanks := rfl
@[simp] theorem State.latch_matchers (who : Who) (b a : Nat) (v : Word) : (s.latch who b a v).matchers = s.matchers := rfl
@[simp] theorem State.latch_tickCtl (who : Who) (b a : Nat) (v : Word) : (s.latch who b a v).tickCtl = s.tickCtl := rfl
@[simp] theorem State.latch_compares (who : Who) (b a : Nat) (v : Word) : (s.latch who b a v).compares = s.compares := rfl
@[simp] theorem State.latch_captures (who : Who) (b a : Nat) (v : Word) : (s.latch who b a v).captures = s.captures := rfl
@[simp] theorem State.latch_fetches (who : Who) (b a : Nat) (v : Word) : (s.latch who b a v).fetches = s.fetches := rfl
@[simp] theorem State.latch_lineViews (who : Who) (b a : Nat) (v : Word) : (s.latch who b a v).lineViews = s.lineViews := rfl
@[simp] theorem State.latch_colStores (who : Who) (b a : Nat) (v : Word) : (s.latch who b a v).colStores = s.colStores := rfl
@[simp] theorem State.latch_pcache (who : Who) (b a : Nat) (v : Word) : (s.latch who b a v).pcache = s.pcache := rfl
@[simp] theorem State.latch_sprLines (who : Who) (b a : Nat) (v : Word) : (s.latch who b a v).sprLines = s.sprLines := rfl
@[simp] theorem State.latch_coll (who : Who) (b a : Nat) (v : Word) : (s.latch who b a v).coll = s.coll := rfl
@[simp] theorem State.latch_videos (who : Who) (b a : Nat) (v : Word) : (s.latch who b a v).videos = s.videos := rfl
@[simp] theorem State.latch_luts (who : Who) (b a : Nat) (v : Word) : (s.latch who b a v).luts = s.luts := rfl
@[simp] theorem State.latch_outs (who : Who) (b a : Nat) (v : Word) : (s.latch who b a v).outs = s.outs := rfl
@[simp] theorem State.latch_handQ (who : Who) (b a : Nat) (v : Word) : (s.latch who b a v).handQ = s.handQ := rfl
@[simp] theorem State.latch_memCtl (who : Who) (b a : Nat) (v : Word) : (s.latch who b a v).memCtl = s.memCtl := rfl
@[simp] theorem State.latch_lanes (who : Who) (b a : Nat) (v : Word) : (s.latch who b a v).lanes = s.lanes := rfl
@[simp] theorem State.latch_rasterTx (who : Who) (b a : Nat) (v : Word) : (s.latch who b a v).rasterTx = s.rasterTx := rfl
@[simp] theorem State.latch_audioTx (who : Who) (b a : Nat) (v : Word) : (s.latch who b a v).audioTx = s.audioTx := rfl
@[simp] theorem State.latch_flows (who : Who) (b a : Nat) (v : Word) : (s.latch who b a v).flows = s.flows := rfl
@[simp] theorem State.latch_ptp (who : Who) (b a : Nat) (v : Word) : (s.latch who b a v).ptp = s.ptp := rfl
@[simp] theorem State.latch_quench (who : Who) (b a : Nat) (v : Word) : (s.latch who b a v).quench = s.quench := rfl
@[simp] theorem State.latch_tuy (who : Who) (b a : Nat) (v : Word) : (s.latch who b a v).tuy = s.tuy := rfl
@[simp] theorem State.latch_swages (who : Who) (b a : Nat) (v : Word) : (s.latch who b a v).swages = s.swages := rfl
@[simp] theorem State.latch_tongs (who : Who) (b a : Nat) (v : Word) : (s.latch who b a v).tongs = s.tongs := rfl
@[simp] theorem State.latch_temper (who : Who) (b a : Nat) (v : Word) : (s.latch who b a v).temper = s.temper := rfl
@[simp] theorem State.latch_boot (who : Who) (b a : Nat) (v : Word) : (s.latch who b a v).boot = s.boot := rfl
@[simp] theorem State.latch_otp (who : Who) (b a : Nat) (v : Word) : (s.latch who b a v).otp = s.otp := rfl
@[simp] theorem State.latch_flash (who : Who) (b a : Nat) (v : Word) : (s.latch who b a v).flash = s.flash := rfl
@[simp] theorem State.latch_ember (who : Who) (b a : Nat) (v : Word) : (s.latch who b a v).ember = s.ember := rfl
@[simp] theorem State.latch_dports (who : Who) (b a : Nat) (v : Word) : (s.latch who b a v).dports = s.dports := rfl
@[simp] theorem State.latch_hostPort (who : Who) (b a : Nat) (v : Word) : (s.latch who b a v).hostPort = s.hostPort := rfl
@[simp] theorem State.latch_heldDoms (who : Who) (b a : Nat) (v : Word) : (s.latch who b a v).heldDoms = s.heldDoms := rfl
@[simp] theorem State.latch_pending (who : Who) (b a : Nat) (v : Word) : (s.latch who b a v).pending = s.pending := rfl

/-! ### State.gwrite -/

@[simp] theorem State.gwrite_variant (a : Nat) (vs : List Byte) : (s.gwrite a vs).variant = s.variant := rfl
@[simp] theorem State.gwrite_now (a : Nat) (vs : List Byte) : (s.gwrite a vs).now = s.now := rfl
@[simp] theorem State.gwrite_freeCount (a : Nat) (vs : List Byte) : (s.gwrite a vs).freeCount = s.freeCount := rfl
@[simp] theorem State.gwrite_regs (a : Nat) (vs : List Byte) : (s.gwrite a vs).regs = s.regs := rfl
@[simp] theorem State.gwrite_eff (a : Nat) (vs : List Byte) : (s.gwrite a vs).eff = s.eff := rfl
@[simp] theorem State.gwrite_latches (a : Nat) (vs : List Byte) : (s.gwrite a vs).latches = s.latches := rfl
@[simp] theorem State.gwrite_beam (a : Nat) (vs : List Byte) : (s.gwrite a vs).beam = s.beam := rfl
@[simp] theorem State.gwrite_pkgQueue (a : Nat) (vs : List Byte) : (s.gwrite a vs).pkgQueue = s.pkgQueue := rfl
@[simp] theorem State.gwrite_genlock (a : Nat) (vs : List Byte) : (s.gwrite a vs).genlock = s.genlock := rfl
@[simp] theorem State.gwrite_ports (a : Nat) (vs : List Byte) : (s.gwrite a vs).ports = s.ports := rfl
@[simp] theorem State.gwrite_evtAt (a : Nat) (vs : List Byte) : (s.gwrite a vs).evtAt = s.evtAt := rfl
@[simp] theorem State.gwrite_sticky (a : Nat) (vs : List Byte) : (s.gwrite a vs).sticky = s.sticky := rfl
@[simp] theorem State.gwrite_commits (a : Nat) (vs : List Byte) : (s.gwrite a vs).commits = s.commits := rfl
@[simp] theorem State.gwrite_strikeRam (a : Nat) (vs : List Byte) : (s.gwrite a vs).strikeRam = s.strikeRam := rfl
@[simp] theorem State.gwrite_cursors (a : Nat) (vs : List Byte) : (s.gwrite a vs).cursors = s.cursors := rfl
@[simp] theorem State.gwrite_liveQ (a : Nat) (vs : List Byte) : (s.gwrite a vs).liveQ = s.liveQ := rfl
@[simp] theorem State.gwrite_liveOut (a : Nat) (vs : List Byte) : (s.gwrite a vs).liveOut = s.liveOut := rfl
@[simp] theorem State.gwrite_reflexWait (a : Nat) (vs : List Byte) : (s.gwrite a vs).reflexWait = s.reflexWait := rfl
@[simp] theorem State.gwrite_hammers (a : Nat) (vs : List Byte) : (s.gwrite a vs).hammers = s.hammers := rfl
@[simp] theorem State.gwrite_progMem (a : Nat) (vs : List Byte) : (s.gwrite a vs).progMem = s.progMem := rfl
@[simp] theorem State.gwrite_banks (a : Nat) (vs : List Byte) : (s.gwrite a vs).banks = s.banks := rfl
@[simp] theorem State.gwrite_privBits (a : Nat) (vs : List Byte) : (s.gwrite a vs).privBits = s.privBits := rfl
@[simp] theorem State.gwrite_irq (a : Nat) (vs : List Byte) : (s.gwrite a vs).irq = s.irq := rfl
@[simp] theorem State.gwrite_ppend (a : Nat) (vs : List Byte) : (s.gwrite a vs).ppend = s.ppend := rfl
@[simp] theorem State.gwrite_slots (a : Nat) (vs : List Byte) : (s.gwrite a vs).slots = s.slots := rfl
@[simp] theorem State.gwrite_hearth (a : Nat) (vs : List Byte) : (s.gwrite a vs).hearth = s.hearth := rfl
@[simp] theorem State.gwrite_gddrEra (a : Nat) (vs : List Byte) : (s.gwrite a vs).gddrEra = s.gddrEra := rfl
@[simp] theorem State.gwrite_hearthEra (a : Nat) (vs : List Byte) : (s.gwrite a vs).hearthEra = s.hearthEra := rfl
@[simp] theorem State.gwrite_hearthBad (a : Nat) (vs : List Byte) : (s.gwrite a vs).hearthBad = s.hearthBad := rfl
@[simp] theorem State.gwrite_tick (a : Nat) (vs : List Byte) : (s.gwrite a vs).tick = s.tick := rfl
@[simp] theorem State.gwrite_tickFrac (a : Nat) (vs : List Byte) : (s.gwrite a vs).tickFrac = s.tickFrac := rfl
@[simp] theorem State.gwrite_tallies (a : Nat) (vs : List Byte) : (s.gwrite a vs).tallies = s.tallies := rfl
@[simp] theorem State.gwrite_pins (a : Nat) (vs : List Byte) : (s.gwrite a vs).pins = s.pins := rfl
@[simp] theorem State.gwrite_legacy (a : Nat) (vs : List Byte) : (s.gwrite a vs).legacy = s.legacy := rfl
@[simp] theorem State.gwrite_pioBanks (a : Nat) (vs : List Byte) : (s.gwrite a vs).pioBanks = s.pioBanks := rfl
@[simp] theorem State.gwrite_matchers (a : Nat) (vs : List Byte) : (s.gwrite a vs).matchers = s.matchers := rfl
@[simp] theorem State.gwrite_tickCtl (a : Nat) (vs : List Byte) : (s.gwrite a vs).tickCtl = s.tickCtl := rfl
@[simp] theorem State.gwrite_compares (a : Nat) (vs : List Byte) : (s.gwrite a vs).compares = s.compares := rfl
@[simp] theorem State.gwrite_captures (a : Nat) (vs : List Byte) : (s.gwrite a vs).captures = s.captures := rfl
@[simp] theorem State.gwrite_fetches (a : Nat) (vs : List Byte) : (s.gwrite a vs).fetches = s.fetches := rfl
@[simp] theorem State.gwrite_lineViews (a : Nat) (vs : List Byte) : (s.gwrite a vs).lineViews = s.lineViews := rfl
@[simp] theorem State.gwrite_colStores (a : Nat) (vs : List Byte) : (s.gwrite a vs).colStores = s.colStores := rfl
@[simp] theorem State.gwrite_sprLines (a : Nat) (vs : List Byte) : (s.gwrite a vs).sprLines = s.sprLines := rfl
@[simp] theorem State.gwrite_coll (a : Nat) (vs : List Byte) : (s.gwrite a vs).coll = s.coll := rfl
@[simp] theorem State.gwrite_videos (a : Nat) (vs : List Byte) : (s.gwrite a vs).videos = s.videos := rfl
@[simp] theorem State.gwrite_luts (a : Nat) (vs : List Byte) : (s.gwrite a vs).luts = s.luts := rfl
@[simp] theorem State.gwrite_outs (a : Nat) (vs : List Byte) : (s.gwrite a vs).outs = s.outs := rfl
@[simp] theorem State.gwrite_handQ (a : Nat) (vs : List Byte) : (s.gwrite a vs).handQ = s.handQ := rfl
@[simp] theorem State.gwrite_memCtl (a : Nat) (vs : List Byte) : (s.gwrite a vs).memCtl = s.memCtl := rfl
@[simp] theorem State.gwrite_lanes (a : Nat) (vs : List Byte) : (s.gwrite a vs).lanes = s.lanes := rfl
@[simp] theorem State.gwrite_rasterTx (a : Nat) (vs : List Byte) : (s.gwrite a vs).rasterTx = s.rasterTx := rfl
@[simp] theorem State.gwrite_audioTx (a : Nat) (vs : List Byte) : (s.gwrite a vs).audioTx = s.audioTx := rfl
@[simp] theorem State.gwrite_flows (a : Nat) (vs : List Byte) : (s.gwrite a vs).flows = s.flows := rfl
@[simp] theorem State.gwrite_ptp (a : Nat) (vs : List Byte) : (s.gwrite a vs).ptp = s.ptp := rfl
@[simp] theorem State.gwrite_quench (a : Nat) (vs : List Byte) : (s.gwrite a vs).quench = s.quench := rfl
@[simp] theorem State.gwrite_tuy (a : Nat) (vs : List Byte) : (s.gwrite a vs).tuy = s.tuy := rfl
@[simp] theorem State.gwrite_swages (a : Nat) (vs : List Byte) : (s.gwrite a vs).swages = s.swages := rfl
@[simp] theorem State.gwrite_tongs (a : Nat) (vs : List Byte) : (s.gwrite a vs).tongs = s.tongs := rfl
@[simp] theorem State.gwrite_temper (a : Nat) (vs : List Byte) : (s.gwrite a vs).temper = s.temper := rfl
@[simp] theorem State.gwrite_boot (a : Nat) (vs : List Byte) : (s.gwrite a vs).boot = s.boot := rfl
@[simp] theorem State.gwrite_otp (a : Nat) (vs : List Byte) : (s.gwrite a vs).otp = s.otp := rfl
@[simp] theorem State.gwrite_flash (a : Nat) (vs : List Byte) : (s.gwrite a vs).flash = s.flash := rfl
@[simp] theorem State.gwrite_ember (a : Nat) (vs : List Byte) : (s.gwrite a vs).ember = s.ember := rfl
@[simp] theorem State.gwrite_dports (a : Nat) (vs : List Byte) : (s.gwrite a vs).dports = s.dports := rfl
@[simp] theorem State.gwrite_hostPort (a : Nat) (vs : List Byte) : (s.gwrite a vs).hostPort = s.hostPort := rfl
@[simp] theorem State.gwrite_heldDoms (a : Nat) (vs : List Byte) : (s.gwrite a vs).heldDoms = s.heldDoms := rfl
@[simp] theorem State.gwrite_pending (a : Nat) (vs : List Byte) : (s.gwrite a vs).pending = s.pending := rfl

/-! ### State.hwrite -/

@[simp] theorem State.hwrite_variant (b o : Nat) (vs : List Byte) : (s.hwrite b o vs).variant = s.variant := rfl
@[simp] theorem State.hwrite_now (b o : Nat) (vs : List Byte) : (s.hwrite b o vs).now = s.now := rfl
@[simp] theorem State.hwrite_freeCount (b o : Nat) (vs : List Byte) : (s.hwrite b o vs).freeCount = s.freeCount := rfl
@[simp] theorem State.hwrite_regs (b o : Nat) (vs : List Byte) : (s.hwrite b o vs).regs = s.regs := rfl
@[simp] theorem State.hwrite_eff (b o : Nat) (vs : List Byte) : (s.hwrite b o vs).eff = s.eff := rfl
@[simp] theorem State.hwrite_latches (b o : Nat) (vs : List Byte) : (s.hwrite b o vs).latches = s.latches := rfl
@[simp] theorem State.hwrite_beam (b o : Nat) (vs : List Byte) : (s.hwrite b o vs).beam = s.beam := rfl
@[simp] theorem State.hwrite_pkgQueue (b o : Nat) (vs : List Byte) : (s.hwrite b o vs).pkgQueue = s.pkgQueue := rfl
@[simp] theorem State.hwrite_genlock (b o : Nat) (vs : List Byte) : (s.hwrite b o vs).genlock = s.genlock := rfl
@[simp] theorem State.hwrite_ports (b o : Nat) (vs : List Byte) : (s.hwrite b o vs).ports = s.ports := rfl
@[simp] theorem State.hwrite_evtAt (b o : Nat) (vs : List Byte) : (s.hwrite b o vs).evtAt = s.evtAt := rfl
@[simp] theorem State.hwrite_sticky (b o : Nat) (vs : List Byte) : (s.hwrite b o vs).sticky = s.sticky := rfl
@[simp] theorem State.hwrite_commits (b o : Nat) (vs : List Byte) : (s.hwrite b o vs).commits = s.commits := rfl
@[simp] theorem State.hwrite_strikeRam (b o : Nat) (vs : List Byte) : (s.hwrite b o vs).strikeRam = s.strikeRam := rfl
@[simp] theorem State.hwrite_cursors (b o : Nat) (vs : List Byte) : (s.hwrite b o vs).cursors = s.cursors := rfl
@[simp] theorem State.hwrite_liveQ (b o : Nat) (vs : List Byte) : (s.hwrite b o vs).liveQ = s.liveQ := rfl
@[simp] theorem State.hwrite_liveOut (b o : Nat) (vs : List Byte) : (s.hwrite b o vs).liveOut = s.liveOut := rfl
@[simp] theorem State.hwrite_reflexWait (b o : Nat) (vs : List Byte) : (s.hwrite b o vs).reflexWait = s.reflexWait := rfl
@[simp] theorem State.hwrite_hammers (b o : Nat) (vs : List Byte) : (s.hwrite b o vs).hammers = s.hammers := rfl
@[simp] theorem State.hwrite_progMem (b o : Nat) (vs : List Byte) : (s.hwrite b o vs).progMem = s.progMem := rfl
@[simp] theorem State.hwrite_banks (b o : Nat) (vs : List Byte) : (s.hwrite b o vs).banks = s.banks := rfl
@[simp] theorem State.hwrite_privBits (b o : Nat) (vs : List Byte) : (s.hwrite b o vs).privBits = s.privBits := rfl
@[simp] theorem State.hwrite_irq (b o : Nat) (vs : List Byte) : (s.hwrite b o vs).irq = s.irq := rfl
@[simp] theorem State.hwrite_ppend (b o : Nat) (vs : List Byte) : (s.hwrite b o vs).ppend = s.ppend := rfl
@[simp] theorem State.hwrite_slots (b o : Nat) (vs : List Byte) : (s.hwrite b o vs).slots = s.slots := rfl
@[simp] theorem State.hwrite_gddr (b o : Nat) (vs : List Byte) : (s.hwrite b o vs).gddr = s.gddr := rfl
@[simp] theorem State.hwrite_gddrEra (b o : Nat) (vs : List Byte) : (s.hwrite b o vs).gddrEra = s.gddrEra := rfl
@[simp] theorem State.hwrite_hearthEra (b o : Nat) (vs : List Byte) : (s.hwrite b o vs).hearthEra = s.hearthEra := rfl
@[simp] theorem State.hwrite_tick (b o : Nat) (vs : List Byte) : (s.hwrite b o vs).tick = s.tick := rfl
@[simp] theorem State.hwrite_tickFrac (b o : Nat) (vs : List Byte) : (s.hwrite b o vs).tickFrac = s.tickFrac := rfl
@[simp] theorem State.hwrite_tallies (b o : Nat) (vs : List Byte) : (s.hwrite b o vs).tallies = s.tallies := rfl
@[simp] theorem State.hwrite_pins (b o : Nat) (vs : List Byte) : (s.hwrite b o vs).pins = s.pins := rfl
@[simp] theorem State.hwrite_legacy (b o : Nat) (vs : List Byte) : (s.hwrite b o vs).legacy = s.legacy := rfl
@[simp] theorem State.hwrite_pioBanks (b o : Nat) (vs : List Byte) : (s.hwrite b o vs).pioBanks = s.pioBanks := rfl
@[simp] theorem State.hwrite_matchers (b o : Nat) (vs : List Byte) : (s.hwrite b o vs).matchers = s.matchers := rfl
@[simp] theorem State.hwrite_tickCtl (b o : Nat) (vs : List Byte) : (s.hwrite b o vs).tickCtl = s.tickCtl := rfl
@[simp] theorem State.hwrite_compares (b o : Nat) (vs : List Byte) : (s.hwrite b o vs).compares = s.compares := rfl
@[simp] theorem State.hwrite_captures (b o : Nat) (vs : List Byte) : (s.hwrite b o vs).captures = s.captures := rfl
@[simp] theorem State.hwrite_fetches (b o : Nat) (vs : List Byte) : (s.hwrite b o vs).fetches = s.fetches := rfl
@[simp] theorem State.hwrite_lineViews (b o : Nat) (vs : List Byte) : (s.hwrite b o vs).lineViews = s.lineViews := rfl
@[simp] theorem State.hwrite_colStores (b o : Nat) (vs : List Byte) : (s.hwrite b o vs).colStores = s.colStores := rfl
@[simp] theorem State.hwrite_pcache (b o : Nat) (vs : List Byte) : (s.hwrite b o vs).pcache = s.pcache := rfl
@[simp] theorem State.hwrite_sprLines (b o : Nat) (vs : List Byte) : (s.hwrite b o vs).sprLines = s.sprLines := rfl
@[simp] theorem State.hwrite_coll (b o : Nat) (vs : List Byte) : (s.hwrite b o vs).coll = s.coll := rfl
@[simp] theorem State.hwrite_videos (b o : Nat) (vs : List Byte) : (s.hwrite b o vs).videos = s.videos := rfl
@[simp] theorem State.hwrite_luts (b o : Nat) (vs : List Byte) : (s.hwrite b o vs).luts = s.luts := rfl
@[simp] theorem State.hwrite_outs (b o : Nat) (vs : List Byte) : (s.hwrite b o vs).outs = s.outs := rfl
@[simp] theorem State.hwrite_handQ (b o : Nat) (vs : List Byte) : (s.hwrite b o vs).handQ = s.handQ := rfl
@[simp] theorem State.hwrite_memCtl (b o : Nat) (vs : List Byte) : (s.hwrite b o vs).memCtl = s.memCtl := rfl
@[simp] theorem State.hwrite_lanes (b o : Nat) (vs : List Byte) : (s.hwrite b o vs).lanes = s.lanes := rfl
@[simp] theorem State.hwrite_rasterTx (b o : Nat) (vs : List Byte) : (s.hwrite b o vs).rasterTx = s.rasterTx := rfl
@[simp] theorem State.hwrite_audioTx (b o : Nat) (vs : List Byte) : (s.hwrite b o vs).audioTx = s.audioTx := rfl
@[simp] theorem State.hwrite_flows (b o : Nat) (vs : List Byte) : (s.hwrite b o vs).flows = s.flows := rfl
@[simp] theorem State.hwrite_ptp (b o : Nat) (vs : List Byte) : (s.hwrite b o vs).ptp = s.ptp := rfl
@[simp] theorem State.hwrite_quench (b o : Nat) (vs : List Byte) : (s.hwrite b o vs).quench = s.quench := rfl
@[simp] theorem State.hwrite_tuy (b o : Nat) (vs : List Byte) : (s.hwrite b o vs).tuy = s.tuy := rfl
@[simp] theorem State.hwrite_swages (b o : Nat) (vs : List Byte) : (s.hwrite b o vs).swages = s.swages := rfl
@[simp] theorem State.hwrite_tongs (b o : Nat) (vs : List Byte) : (s.hwrite b o vs).tongs = s.tongs := rfl
@[simp] theorem State.hwrite_temper (b o : Nat) (vs : List Byte) : (s.hwrite b o vs).temper = s.temper := rfl
@[simp] theorem State.hwrite_boot (b o : Nat) (vs : List Byte) : (s.hwrite b o vs).boot = s.boot := rfl
@[simp] theorem State.hwrite_otp (b o : Nat) (vs : List Byte) : (s.hwrite b o vs).otp = s.otp := rfl
@[simp] theorem State.hwrite_flash (b o : Nat) (vs : List Byte) : (s.hwrite b o vs).flash = s.flash := rfl
@[simp] theorem State.hwrite_ember (b o : Nat) (vs : List Byte) : (s.hwrite b o vs).ember = s.ember := rfl
@[simp] theorem State.hwrite_dports (b o : Nat) (vs : List Byte) : (s.hwrite b o vs).dports = s.dports := rfl
@[simp] theorem State.hwrite_hostPort (b o : Nat) (vs : List Byte) : (s.hwrite b o vs).hostPort = s.hostPort := rfl
@[simp] theorem State.hwrite_heldDoms (b o : Nat) (vs : List Byte) : (s.hwrite b o vs).heldDoms = s.heldDoms := rfl
@[simp] theorem State.hwrite_pending (b o : Nat) (vs : List Byte) : (s.hwrite b o vs).pending = s.pending := rfl

/-! ### State.setMem -/

@[simp] theorem State.setMem_variant (b : Nat) (x : MemCtl) : (s.setMem b x).variant = s.variant := rfl
@[simp] theorem State.setMem_now (b : Nat) (x : MemCtl) : (s.setMem b x).now = s.now := rfl
@[simp] theorem State.setMem_freeCount (b : Nat) (x : MemCtl) : (s.setMem b x).freeCount = s.freeCount := rfl
@[simp] theorem State.setMem_regs (b : Nat) (x : MemCtl) : (s.setMem b x).regs = s.regs := rfl
@[simp] theorem State.setMem_eff (b : Nat) (x : MemCtl) : (s.setMem b x).eff = s.eff := rfl
@[simp] theorem State.setMem_latches (b : Nat) (x : MemCtl) : (s.setMem b x).latches = s.latches := rfl
@[simp] theorem State.setMem_beam (b : Nat) (x : MemCtl) : (s.setMem b x).beam = s.beam := rfl
@[simp] theorem State.setMem_pkgQueue (b : Nat) (x : MemCtl) : (s.setMem b x).pkgQueue = s.pkgQueue := rfl
@[simp] theorem State.setMem_genlock (b : Nat) (x : MemCtl) : (s.setMem b x).genlock = s.genlock := rfl
@[simp] theorem State.setMem_ports (b : Nat) (x : MemCtl) : (s.setMem b x).ports = s.ports := rfl
@[simp] theorem State.setMem_evtAt (b : Nat) (x : MemCtl) : (s.setMem b x).evtAt = s.evtAt := rfl
@[simp] theorem State.setMem_sticky (b : Nat) (x : MemCtl) : (s.setMem b x).sticky = s.sticky := rfl
@[simp] theorem State.setMem_commits (b : Nat) (x : MemCtl) : (s.setMem b x).commits = s.commits := rfl
@[simp] theorem State.setMem_strikeRam (b : Nat) (x : MemCtl) : (s.setMem b x).strikeRam = s.strikeRam := rfl
@[simp] theorem State.setMem_cursors (b : Nat) (x : MemCtl) : (s.setMem b x).cursors = s.cursors := rfl
@[simp] theorem State.setMem_liveQ (b : Nat) (x : MemCtl) : (s.setMem b x).liveQ = s.liveQ := rfl
@[simp] theorem State.setMem_liveOut (b : Nat) (x : MemCtl) : (s.setMem b x).liveOut = s.liveOut := rfl
@[simp] theorem State.setMem_reflexWait (b : Nat) (x : MemCtl) : (s.setMem b x).reflexWait = s.reflexWait := rfl
@[simp] theorem State.setMem_hammers (b : Nat) (x : MemCtl) : (s.setMem b x).hammers = s.hammers := rfl
@[simp] theorem State.setMem_progMem (b : Nat) (x : MemCtl) : (s.setMem b x).progMem = s.progMem := rfl
@[simp] theorem State.setMem_banks (b : Nat) (x : MemCtl) : (s.setMem b x).banks = s.banks := rfl
@[simp] theorem State.setMem_privBits (b : Nat) (x : MemCtl) : (s.setMem b x).privBits = s.privBits := rfl
@[simp] theorem State.setMem_irq (b : Nat) (x : MemCtl) : (s.setMem b x).irq = s.irq := rfl
@[simp] theorem State.setMem_ppend (b : Nat) (x : MemCtl) : (s.setMem b x).ppend = s.ppend := rfl
@[simp] theorem State.setMem_slots (b : Nat) (x : MemCtl) : (s.setMem b x).slots = s.slots := rfl
@[simp] theorem State.setMem_hearth (b : Nat) (x : MemCtl) : (s.setMem b x).hearth = s.hearth := rfl
@[simp] theorem State.setMem_gddr (b : Nat) (x : MemCtl) : (s.setMem b x).gddr = s.gddr := rfl
@[simp] theorem State.setMem_gddrEra (b : Nat) (x : MemCtl) : (s.setMem b x).gddrEra = s.gddrEra := rfl
@[simp] theorem State.setMem_hearthEra (b : Nat) (x : MemCtl) : (s.setMem b x).hearthEra = s.hearthEra := rfl
@[simp] theorem State.setMem_hearthBad (b : Nat) (x : MemCtl) : (s.setMem b x).hearthBad = s.hearthBad := rfl
@[simp] theorem State.setMem_tick (b : Nat) (x : MemCtl) : (s.setMem b x).tick = s.tick := rfl
@[simp] theorem State.setMem_tickFrac (b : Nat) (x : MemCtl) : (s.setMem b x).tickFrac = s.tickFrac := rfl
@[simp] theorem State.setMem_tallies (b : Nat) (x : MemCtl) : (s.setMem b x).tallies = s.tallies := rfl
@[simp] theorem State.setMem_pins (b : Nat) (x : MemCtl) : (s.setMem b x).pins = s.pins := rfl
@[simp] theorem State.setMem_legacy (b : Nat) (x : MemCtl) : (s.setMem b x).legacy = s.legacy := rfl
@[simp] theorem State.setMem_pioBanks (b : Nat) (x : MemCtl) : (s.setMem b x).pioBanks = s.pioBanks := rfl
@[simp] theorem State.setMem_matchers (b : Nat) (x : MemCtl) : (s.setMem b x).matchers = s.matchers := rfl
@[simp] theorem State.setMem_tickCtl (b : Nat) (x : MemCtl) : (s.setMem b x).tickCtl = s.tickCtl := rfl
@[simp] theorem State.setMem_compares (b : Nat) (x : MemCtl) : (s.setMem b x).compares = s.compares := rfl
@[simp] theorem State.setMem_captures (b : Nat) (x : MemCtl) : (s.setMem b x).captures = s.captures := rfl
@[simp] theorem State.setMem_fetches (b : Nat) (x : MemCtl) : (s.setMem b x).fetches = s.fetches := rfl
@[simp] theorem State.setMem_lineViews (b : Nat) (x : MemCtl) : (s.setMem b x).lineViews = s.lineViews := rfl
@[simp] theorem State.setMem_colStores (b : Nat) (x : MemCtl) : (s.setMem b x).colStores = s.colStores := rfl
@[simp] theorem State.setMem_pcache (b : Nat) (x : MemCtl) : (s.setMem b x).pcache = s.pcache := rfl
@[simp] theorem State.setMem_sprLines (b : Nat) (x : MemCtl) : (s.setMem b x).sprLines = s.sprLines := rfl
@[simp] theorem State.setMem_coll (b : Nat) (x : MemCtl) : (s.setMem b x).coll = s.coll := rfl
@[simp] theorem State.setMem_videos (b : Nat) (x : MemCtl) : (s.setMem b x).videos = s.videos := rfl
@[simp] theorem State.setMem_luts (b : Nat) (x : MemCtl) : (s.setMem b x).luts = s.luts := rfl
@[simp] theorem State.setMem_outs (b : Nat) (x : MemCtl) : (s.setMem b x).outs = s.outs := rfl
@[simp] theorem State.setMem_handQ (b : Nat) (x : MemCtl) : (s.setMem b x).handQ = s.handQ := rfl
@[simp] theorem State.setMem_lanes (b : Nat) (x : MemCtl) : (s.setMem b x).lanes = s.lanes := rfl
@[simp] theorem State.setMem_rasterTx (b : Nat) (x : MemCtl) : (s.setMem b x).rasterTx = s.rasterTx := rfl
@[simp] theorem State.setMem_audioTx (b : Nat) (x : MemCtl) : (s.setMem b x).audioTx = s.audioTx := rfl
@[simp] theorem State.setMem_flows (b : Nat) (x : MemCtl) : (s.setMem b x).flows = s.flows := rfl
@[simp] theorem State.setMem_ptp (b : Nat) (x : MemCtl) : (s.setMem b x).ptp = s.ptp := rfl
@[simp] theorem State.setMem_quench (b : Nat) (x : MemCtl) : (s.setMem b x).quench = s.quench := rfl
@[simp] theorem State.setMem_tuy (b : Nat) (x : MemCtl) : (s.setMem b x).tuy = s.tuy := rfl
@[simp] theorem State.setMem_swages (b : Nat) (x : MemCtl) : (s.setMem b x).swages = s.swages := rfl
@[simp] theorem State.setMem_tongs (b : Nat) (x : MemCtl) : (s.setMem b x).tongs = s.tongs := rfl
@[simp] theorem State.setMem_temper (b : Nat) (x : MemCtl) : (s.setMem b x).temper = s.temper := rfl
@[simp] theorem State.setMem_boot (b : Nat) (x : MemCtl) : (s.setMem b x).boot = s.boot := rfl
@[simp] theorem State.setMem_otp (b : Nat) (x : MemCtl) : (s.setMem b x).otp = s.otp := rfl
@[simp] theorem State.setMem_flash (b : Nat) (x : MemCtl) : (s.setMem b x).flash = s.flash := rfl
@[simp] theorem State.setMem_ember (b : Nat) (x : MemCtl) : (s.setMem b x).ember = s.ember := rfl
@[simp] theorem State.setMem_dports (b : Nat) (x : MemCtl) : (s.setMem b x).dports = s.dports := rfl
@[simp] theorem State.setMem_hostPort (b : Nat) (x : MemCtl) : (s.setMem b x).hostPort = s.hostPort := rfl
@[simp] theorem State.setMem_heldDoms (b : Nat) (x : MemCtl) : (s.setMem b x).heldDoms = s.heldDoms := rfl
@[simp] theorem State.setMem_pending (b : Nat) (x : MemCtl) : (s.setMem b x).pending = s.pending := rfl

/-! ### State.setSwage -/

@[simp] theorem State.setSwage_variant (b u : Nat) (x : Swage) : (s.setSwage b u x).variant = s.variant := rfl
@[simp] theorem State.setSwage_now (b u : Nat) (x : Swage) : (s.setSwage b u x).now = s.now := rfl
@[simp] theorem State.setSwage_freeCount (b u : Nat) (x : Swage) : (s.setSwage b u x).freeCount = s.freeCount := rfl
@[simp] theorem State.setSwage_regs (b u : Nat) (x : Swage) : (s.setSwage b u x).regs = s.regs := rfl
@[simp] theorem State.setSwage_eff (b u : Nat) (x : Swage) : (s.setSwage b u x).eff = s.eff := rfl
@[simp] theorem State.setSwage_latches (b u : Nat) (x : Swage) : (s.setSwage b u x).latches = s.latches := rfl
@[simp] theorem State.setSwage_beam (b u : Nat) (x : Swage) : (s.setSwage b u x).beam = s.beam := rfl
@[simp] theorem State.setSwage_pkgQueue (b u : Nat) (x : Swage) : (s.setSwage b u x).pkgQueue = s.pkgQueue := rfl
@[simp] theorem State.setSwage_genlock (b u : Nat) (x : Swage) : (s.setSwage b u x).genlock = s.genlock := rfl
@[simp] theorem State.setSwage_ports (b u : Nat) (x : Swage) : (s.setSwage b u x).ports = s.ports := rfl
@[simp] theorem State.setSwage_evtAt (b u : Nat) (x : Swage) : (s.setSwage b u x).evtAt = s.evtAt := rfl
@[simp] theorem State.setSwage_sticky (b u : Nat) (x : Swage) : (s.setSwage b u x).sticky = s.sticky := rfl
@[simp] theorem State.setSwage_commits (b u : Nat) (x : Swage) : (s.setSwage b u x).commits = s.commits := rfl
@[simp] theorem State.setSwage_strikeRam (b u : Nat) (x : Swage) : (s.setSwage b u x).strikeRam = s.strikeRam := rfl
@[simp] theorem State.setSwage_cursors (b u : Nat) (x : Swage) : (s.setSwage b u x).cursors = s.cursors := rfl
@[simp] theorem State.setSwage_liveQ (b u : Nat) (x : Swage) : (s.setSwage b u x).liveQ = s.liveQ := rfl
@[simp] theorem State.setSwage_liveOut (b u : Nat) (x : Swage) : (s.setSwage b u x).liveOut = s.liveOut := rfl
@[simp] theorem State.setSwage_reflexWait (b u : Nat) (x : Swage) : (s.setSwage b u x).reflexWait = s.reflexWait := rfl
@[simp] theorem State.setSwage_hammers (b u : Nat) (x : Swage) : (s.setSwage b u x).hammers = s.hammers := rfl
@[simp] theorem State.setSwage_progMem (b u : Nat) (x : Swage) : (s.setSwage b u x).progMem = s.progMem := rfl
@[simp] theorem State.setSwage_banks (b u : Nat) (x : Swage) : (s.setSwage b u x).banks = s.banks := rfl
@[simp] theorem State.setSwage_privBits (b u : Nat) (x : Swage) : (s.setSwage b u x).privBits = s.privBits := rfl
@[simp] theorem State.setSwage_irq (b u : Nat) (x : Swage) : (s.setSwage b u x).irq = s.irq := rfl
@[simp] theorem State.setSwage_ppend (b u : Nat) (x : Swage) : (s.setSwage b u x).ppend = s.ppend := rfl
@[simp] theorem State.setSwage_slots (b u : Nat) (x : Swage) : (s.setSwage b u x).slots = s.slots := rfl
@[simp] theorem State.setSwage_hearth (b u : Nat) (x : Swage) : (s.setSwage b u x).hearth = s.hearth := rfl
@[simp] theorem State.setSwage_gddr (b u : Nat) (x : Swage) : (s.setSwage b u x).gddr = s.gddr := rfl
@[simp] theorem State.setSwage_gddrEra (b u : Nat) (x : Swage) : (s.setSwage b u x).gddrEra = s.gddrEra := rfl
@[simp] theorem State.setSwage_hearthEra (b u : Nat) (x : Swage) : (s.setSwage b u x).hearthEra = s.hearthEra := rfl
@[simp] theorem State.setSwage_hearthBad (b u : Nat) (x : Swage) : (s.setSwage b u x).hearthBad = s.hearthBad := rfl
@[simp] theorem State.setSwage_tick (b u : Nat) (x : Swage) : (s.setSwage b u x).tick = s.tick := rfl
@[simp] theorem State.setSwage_tickFrac (b u : Nat) (x : Swage) : (s.setSwage b u x).tickFrac = s.tickFrac := rfl
@[simp] theorem State.setSwage_tallies (b u : Nat) (x : Swage) : (s.setSwage b u x).tallies = s.tallies := rfl
@[simp] theorem State.setSwage_pins (b u : Nat) (x : Swage) : (s.setSwage b u x).pins = s.pins := rfl
@[simp] theorem State.setSwage_legacy (b u : Nat) (x : Swage) : (s.setSwage b u x).legacy = s.legacy := rfl
@[simp] theorem State.setSwage_pioBanks (b u : Nat) (x : Swage) : (s.setSwage b u x).pioBanks = s.pioBanks := rfl
@[simp] theorem State.setSwage_matchers (b u : Nat) (x : Swage) : (s.setSwage b u x).matchers = s.matchers := rfl
@[simp] theorem State.setSwage_tickCtl (b u : Nat) (x : Swage) : (s.setSwage b u x).tickCtl = s.tickCtl := rfl
@[simp] theorem State.setSwage_compares (b u : Nat) (x : Swage) : (s.setSwage b u x).compares = s.compares := rfl
@[simp] theorem State.setSwage_captures (b u : Nat) (x : Swage) : (s.setSwage b u x).captures = s.captures := rfl
@[simp] theorem State.setSwage_fetches (b u : Nat) (x : Swage) : (s.setSwage b u x).fetches = s.fetches := rfl
@[simp] theorem State.setSwage_lineViews (b u : Nat) (x : Swage) : (s.setSwage b u x).lineViews = s.lineViews := rfl
@[simp] theorem State.setSwage_colStores (b u : Nat) (x : Swage) : (s.setSwage b u x).colStores = s.colStores := rfl
@[simp] theorem State.setSwage_pcache (b u : Nat) (x : Swage) : (s.setSwage b u x).pcache = s.pcache := rfl
@[simp] theorem State.setSwage_sprLines (b u : Nat) (x : Swage) : (s.setSwage b u x).sprLines = s.sprLines := rfl
@[simp] theorem State.setSwage_coll (b u : Nat) (x : Swage) : (s.setSwage b u x).coll = s.coll := rfl
@[simp] theorem State.setSwage_videos (b u : Nat) (x : Swage) : (s.setSwage b u x).videos = s.videos := rfl
@[simp] theorem State.setSwage_luts (b u : Nat) (x : Swage) : (s.setSwage b u x).luts = s.luts := rfl
@[simp] theorem State.setSwage_outs (b u : Nat) (x : Swage) : (s.setSwage b u x).outs = s.outs := rfl
@[simp] theorem State.setSwage_handQ (b u : Nat) (x : Swage) : (s.setSwage b u x).handQ = s.handQ := rfl
@[simp] theorem State.setSwage_memCtl (b u : Nat) (x : Swage) : (s.setSwage b u x).memCtl = s.memCtl := rfl
@[simp] theorem State.setSwage_lanes (b u : Nat) (x : Swage) : (s.setSwage b u x).lanes = s.lanes := rfl
@[simp] theorem State.setSwage_rasterTx (b u : Nat) (x : Swage) : (s.setSwage b u x).rasterTx = s.rasterTx := rfl
@[simp] theorem State.setSwage_audioTx (b u : Nat) (x : Swage) : (s.setSwage b u x).audioTx = s.audioTx := rfl
@[simp] theorem State.setSwage_flows (b u : Nat) (x : Swage) : (s.setSwage b u x).flows = s.flows := rfl
@[simp] theorem State.setSwage_ptp (b u : Nat) (x : Swage) : (s.setSwage b u x).ptp = s.ptp := rfl
@[simp] theorem State.setSwage_quench (b u : Nat) (x : Swage) : (s.setSwage b u x).quench = s.quench := rfl
@[simp] theorem State.setSwage_tuy (b u : Nat) (x : Swage) : (s.setSwage b u x).tuy = s.tuy := rfl
@[simp] theorem State.setSwage_tongs (b u : Nat) (x : Swage) : (s.setSwage b u x).tongs = s.tongs := rfl
@[simp] theorem State.setSwage_temper (b u : Nat) (x : Swage) : (s.setSwage b u x).temper = s.temper := rfl
@[simp] theorem State.setSwage_boot (b u : Nat) (x : Swage) : (s.setSwage b u x).boot = s.boot := rfl
@[simp] theorem State.setSwage_otp (b u : Nat) (x : Swage) : (s.setSwage b u x).otp = s.otp := rfl
@[simp] theorem State.setSwage_flash (b u : Nat) (x : Swage) : (s.setSwage b u x).flash = s.flash := rfl
@[simp] theorem State.setSwage_ember (b u : Nat) (x : Swage) : (s.setSwage b u x).ember = s.ember := rfl
@[simp] theorem State.setSwage_dports (b u : Nat) (x : Swage) : (s.setSwage b u x).dports = s.dports := rfl
@[simp] theorem State.setSwage_hostPort (b u : Nat) (x : Swage) : (s.setSwage b u x).hostPort = s.hostPort := rfl
@[simp] theorem State.setSwage_heldDoms (b u : Nat) (x : Swage) : (s.setSwage b u x).heldDoms = s.heldDoms := rfl
@[simp] theorem State.setSwage_pending (b u : Nat) (x : Swage) : (s.setSwage b u x).pending = s.pending := rfl

/-! ### State.setTong -/

@[simp] theorem State.setTong_variant (b c : Nat) (x : Tongs) : (s.setTong b c x).variant = s.variant := rfl
@[simp] theorem State.setTong_now (b c : Nat) (x : Tongs) : (s.setTong b c x).now = s.now := rfl
@[simp] theorem State.setTong_freeCount (b c : Nat) (x : Tongs) : (s.setTong b c x).freeCount = s.freeCount := rfl
@[simp] theorem State.setTong_regs (b c : Nat) (x : Tongs) : (s.setTong b c x).regs = s.regs := rfl
@[simp] theorem State.setTong_eff (b c : Nat) (x : Tongs) : (s.setTong b c x).eff = s.eff := rfl
@[simp] theorem State.setTong_latches (b c : Nat) (x : Tongs) : (s.setTong b c x).latches = s.latches := rfl
@[simp] theorem State.setTong_beam (b c : Nat) (x : Tongs) : (s.setTong b c x).beam = s.beam := rfl
@[simp] theorem State.setTong_pkgQueue (b c : Nat) (x : Tongs) : (s.setTong b c x).pkgQueue = s.pkgQueue := rfl
@[simp] theorem State.setTong_genlock (b c : Nat) (x : Tongs) : (s.setTong b c x).genlock = s.genlock := rfl
@[simp] theorem State.setTong_ports (b c : Nat) (x : Tongs) : (s.setTong b c x).ports = s.ports := rfl
@[simp] theorem State.setTong_evtAt (b c : Nat) (x : Tongs) : (s.setTong b c x).evtAt = s.evtAt := rfl
@[simp] theorem State.setTong_sticky (b c : Nat) (x : Tongs) : (s.setTong b c x).sticky = s.sticky := rfl
@[simp] theorem State.setTong_commits (b c : Nat) (x : Tongs) : (s.setTong b c x).commits = s.commits := rfl
@[simp] theorem State.setTong_strikeRam (b c : Nat) (x : Tongs) : (s.setTong b c x).strikeRam = s.strikeRam := rfl
@[simp] theorem State.setTong_cursors (b c : Nat) (x : Tongs) : (s.setTong b c x).cursors = s.cursors := rfl
@[simp] theorem State.setTong_liveQ (b c : Nat) (x : Tongs) : (s.setTong b c x).liveQ = s.liveQ := rfl
@[simp] theorem State.setTong_liveOut (b c : Nat) (x : Tongs) : (s.setTong b c x).liveOut = s.liveOut := rfl
@[simp] theorem State.setTong_reflexWait (b c : Nat) (x : Tongs) : (s.setTong b c x).reflexWait = s.reflexWait := rfl
@[simp] theorem State.setTong_hammers (b c : Nat) (x : Tongs) : (s.setTong b c x).hammers = s.hammers := rfl
@[simp] theorem State.setTong_progMem (b c : Nat) (x : Tongs) : (s.setTong b c x).progMem = s.progMem := rfl
@[simp] theorem State.setTong_banks (b c : Nat) (x : Tongs) : (s.setTong b c x).banks = s.banks := rfl
@[simp] theorem State.setTong_privBits (b c : Nat) (x : Tongs) : (s.setTong b c x).privBits = s.privBits := rfl
@[simp] theorem State.setTong_irq (b c : Nat) (x : Tongs) : (s.setTong b c x).irq = s.irq := rfl
@[simp] theorem State.setTong_ppend (b c : Nat) (x : Tongs) : (s.setTong b c x).ppend = s.ppend := rfl
@[simp] theorem State.setTong_slots (b c : Nat) (x : Tongs) : (s.setTong b c x).slots = s.slots := rfl
@[simp] theorem State.setTong_hearth (b c : Nat) (x : Tongs) : (s.setTong b c x).hearth = s.hearth := rfl
@[simp] theorem State.setTong_gddr (b c : Nat) (x : Tongs) : (s.setTong b c x).gddr = s.gddr := rfl
@[simp] theorem State.setTong_gddrEra (b c : Nat) (x : Tongs) : (s.setTong b c x).gddrEra = s.gddrEra := rfl
@[simp] theorem State.setTong_hearthEra (b c : Nat) (x : Tongs) : (s.setTong b c x).hearthEra = s.hearthEra := rfl
@[simp] theorem State.setTong_hearthBad (b c : Nat) (x : Tongs) : (s.setTong b c x).hearthBad = s.hearthBad := rfl
@[simp] theorem State.setTong_tick (b c : Nat) (x : Tongs) : (s.setTong b c x).tick = s.tick := rfl
@[simp] theorem State.setTong_tickFrac (b c : Nat) (x : Tongs) : (s.setTong b c x).tickFrac = s.tickFrac := rfl
@[simp] theorem State.setTong_tallies (b c : Nat) (x : Tongs) : (s.setTong b c x).tallies = s.tallies := rfl
@[simp] theorem State.setTong_pins (b c : Nat) (x : Tongs) : (s.setTong b c x).pins = s.pins := rfl
@[simp] theorem State.setTong_legacy (b c : Nat) (x : Tongs) : (s.setTong b c x).legacy = s.legacy := rfl
@[simp] theorem State.setTong_pioBanks (b c : Nat) (x : Tongs) : (s.setTong b c x).pioBanks = s.pioBanks := rfl
@[simp] theorem State.setTong_matchers (b c : Nat) (x : Tongs) : (s.setTong b c x).matchers = s.matchers := rfl
@[simp] theorem State.setTong_tickCtl (b c : Nat) (x : Tongs) : (s.setTong b c x).tickCtl = s.tickCtl := rfl
@[simp] theorem State.setTong_compares (b c : Nat) (x : Tongs) : (s.setTong b c x).compares = s.compares := rfl
@[simp] theorem State.setTong_captures (b c : Nat) (x : Tongs) : (s.setTong b c x).captures = s.captures := rfl
@[simp] theorem State.setTong_fetches (b c : Nat) (x : Tongs) : (s.setTong b c x).fetches = s.fetches := rfl
@[simp] theorem State.setTong_lineViews (b c : Nat) (x : Tongs) : (s.setTong b c x).lineViews = s.lineViews := rfl
@[simp] theorem State.setTong_colStores (b c : Nat) (x : Tongs) : (s.setTong b c x).colStores = s.colStores := rfl
@[simp] theorem State.setTong_pcache (b c : Nat) (x : Tongs) : (s.setTong b c x).pcache = s.pcache := rfl
@[simp] theorem State.setTong_sprLines (b c : Nat) (x : Tongs) : (s.setTong b c x).sprLines = s.sprLines := rfl
@[simp] theorem State.setTong_coll (b c : Nat) (x : Tongs) : (s.setTong b c x).coll = s.coll := rfl
@[simp] theorem State.setTong_videos (b c : Nat) (x : Tongs) : (s.setTong b c x).videos = s.videos := rfl
@[simp] theorem State.setTong_luts (b c : Nat) (x : Tongs) : (s.setTong b c x).luts = s.luts := rfl
@[simp] theorem State.setTong_outs (b c : Nat) (x : Tongs) : (s.setTong b c x).outs = s.outs := rfl
@[simp] theorem State.setTong_handQ (b c : Nat) (x : Tongs) : (s.setTong b c x).handQ = s.handQ := rfl
@[simp] theorem State.setTong_memCtl (b c : Nat) (x : Tongs) : (s.setTong b c x).memCtl = s.memCtl := rfl
@[simp] theorem State.setTong_lanes (b c : Nat) (x : Tongs) : (s.setTong b c x).lanes = s.lanes := rfl
@[simp] theorem State.setTong_rasterTx (b c : Nat) (x : Tongs) : (s.setTong b c x).rasterTx = s.rasterTx := rfl
@[simp] theorem State.setTong_audioTx (b c : Nat) (x : Tongs) : (s.setTong b c x).audioTx = s.audioTx := rfl
@[simp] theorem State.setTong_flows (b c : Nat) (x : Tongs) : (s.setTong b c x).flows = s.flows := rfl
@[simp] theorem State.setTong_ptp (b c : Nat) (x : Tongs) : (s.setTong b c x).ptp = s.ptp := rfl
@[simp] theorem State.setTong_quench (b c : Nat) (x : Tongs) : (s.setTong b c x).quench = s.quench := rfl
@[simp] theorem State.setTong_tuy (b c : Nat) (x : Tongs) : (s.setTong b c x).tuy = s.tuy := rfl
@[simp] theorem State.setTong_swages (b c : Nat) (x : Tongs) : (s.setTong b c x).swages = s.swages := rfl
@[simp] theorem State.setTong_temper (b c : Nat) (x : Tongs) : (s.setTong b c x).temper = s.temper := rfl
@[simp] theorem State.setTong_boot (b c : Nat) (x : Tongs) : (s.setTong b c x).boot = s.boot := rfl
@[simp] theorem State.setTong_otp (b c : Nat) (x : Tongs) : (s.setTong b c x).otp = s.otp := rfl
@[simp] theorem State.setTong_flash (b c : Nat) (x : Tongs) : (s.setTong b c x).flash = s.flash := rfl
@[simp] theorem State.setTong_ember (b c : Nat) (x : Tongs) : (s.setTong b c x).ember = s.ember := rfl
@[simp] theorem State.setTong_dports (b c : Nat) (x : Tongs) : (s.setTong b c x).dports = s.dports := rfl
@[simp] theorem State.setTong_hostPort (b c : Nat) (x : Tongs) : (s.setTong b c x).hostPort = s.hostPort := rfl
@[simp] theorem State.setTong_heldDoms (b c : Nat) (x : Tongs) : (s.setTong b c x).heldDoms = s.heldDoms := rfl
@[simp] theorem State.setTong_pending (b c : Nat) (x : Tongs) : (s.setTong b c x).pending = s.pending := rfl

/-! ### State.setCompare -/

@[simp] theorem State.setCompare_variant (b k : Nat) (x : Compare) : (s.setCompare b k x).variant = s.variant := rfl
@[simp] theorem State.setCompare_now (b k : Nat) (x : Compare) : (s.setCompare b k x).now = s.now := rfl
@[simp] theorem State.setCompare_freeCount (b k : Nat) (x : Compare) : (s.setCompare b k x).freeCount = s.freeCount := rfl
@[simp] theorem State.setCompare_regs (b k : Nat) (x : Compare) : (s.setCompare b k x).regs = s.regs := rfl
@[simp] theorem State.setCompare_eff (b k : Nat) (x : Compare) : (s.setCompare b k x).eff = s.eff := rfl
@[simp] theorem State.setCompare_latches (b k : Nat) (x : Compare) : (s.setCompare b k x).latches = s.latches := rfl
@[simp] theorem State.setCompare_beam (b k : Nat) (x : Compare) : (s.setCompare b k x).beam = s.beam := rfl
@[simp] theorem State.setCompare_pkgQueue (b k : Nat) (x : Compare) : (s.setCompare b k x).pkgQueue = s.pkgQueue := rfl
@[simp] theorem State.setCompare_genlock (b k : Nat) (x : Compare) : (s.setCompare b k x).genlock = s.genlock := rfl
@[simp] theorem State.setCompare_ports (b k : Nat) (x : Compare) : (s.setCompare b k x).ports = s.ports := rfl
@[simp] theorem State.setCompare_evtAt (b k : Nat) (x : Compare) : (s.setCompare b k x).evtAt = s.evtAt := rfl
@[simp] theorem State.setCompare_sticky (b k : Nat) (x : Compare) : (s.setCompare b k x).sticky = s.sticky := rfl
@[simp] theorem State.setCompare_commits (b k : Nat) (x : Compare) : (s.setCompare b k x).commits = s.commits := rfl
@[simp] theorem State.setCompare_strikeRam (b k : Nat) (x : Compare) : (s.setCompare b k x).strikeRam = s.strikeRam := rfl
@[simp] theorem State.setCompare_cursors (b k : Nat) (x : Compare) : (s.setCompare b k x).cursors = s.cursors := rfl
@[simp] theorem State.setCompare_liveQ (b k : Nat) (x : Compare) : (s.setCompare b k x).liveQ = s.liveQ := rfl
@[simp] theorem State.setCompare_liveOut (b k : Nat) (x : Compare) : (s.setCompare b k x).liveOut = s.liveOut := rfl
@[simp] theorem State.setCompare_reflexWait (b k : Nat) (x : Compare) : (s.setCompare b k x).reflexWait = s.reflexWait := rfl
@[simp] theorem State.setCompare_hammers (b k : Nat) (x : Compare) : (s.setCompare b k x).hammers = s.hammers := rfl
@[simp] theorem State.setCompare_progMem (b k : Nat) (x : Compare) : (s.setCompare b k x).progMem = s.progMem := rfl
@[simp] theorem State.setCompare_banks (b k : Nat) (x : Compare) : (s.setCompare b k x).banks = s.banks := rfl
@[simp] theorem State.setCompare_privBits (b k : Nat) (x : Compare) : (s.setCompare b k x).privBits = s.privBits := rfl
@[simp] theorem State.setCompare_irq (b k : Nat) (x : Compare) : (s.setCompare b k x).irq = s.irq := rfl
@[simp] theorem State.setCompare_ppend (b k : Nat) (x : Compare) : (s.setCompare b k x).ppend = s.ppend := rfl
@[simp] theorem State.setCompare_slots (b k : Nat) (x : Compare) : (s.setCompare b k x).slots = s.slots := rfl
@[simp] theorem State.setCompare_hearth (b k : Nat) (x : Compare) : (s.setCompare b k x).hearth = s.hearth := rfl
@[simp] theorem State.setCompare_gddr (b k : Nat) (x : Compare) : (s.setCompare b k x).gddr = s.gddr := rfl
@[simp] theorem State.setCompare_gddrEra (b k : Nat) (x : Compare) : (s.setCompare b k x).gddrEra = s.gddrEra := rfl
@[simp] theorem State.setCompare_hearthEra (b k : Nat) (x : Compare) : (s.setCompare b k x).hearthEra = s.hearthEra := rfl
@[simp] theorem State.setCompare_hearthBad (b k : Nat) (x : Compare) : (s.setCompare b k x).hearthBad = s.hearthBad := rfl
@[simp] theorem State.setCompare_tick (b k : Nat) (x : Compare) : (s.setCompare b k x).tick = s.tick := rfl
@[simp] theorem State.setCompare_tickFrac (b k : Nat) (x : Compare) : (s.setCompare b k x).tickFrac = s.tickFrac := rfl
@[simp] theorem State.setCompare_tallies (b k : Nat) (x : Compare) : (s.setCompare b k x).tallies = s.tallies := rfl
@[simp] theorem State.setCompare_pins (b k : Nat) (x : Compare) : (s.setCompare b k x).pins = s.pins := rfl
@[simp] theorem State.setCompare_legacy (b k : Nat) (x : Compare) : (s.setCompare b k x).legacy = s.legacy := rfl
@[simp] theorem State.setCompare_pioBanks (b k : Nat) (x : Compare) : (s.setCompare b k x).pioBanks = s.pioBanks := rfl
@[simp] theorem State.setCompare_matchers (b k : Nat) (x : Compare) : (s.setCompare b k x).matchers = s.matchers := rfl
@[simp] theorem State.setCompare_tickCtl (b k : Nat) (x : Compare) : (s.setCompare b k x).tickCtl = s.tickCtl := rfl
@[simp] theorem State.setCompare_captures (b k : Nat) (x : Compare) : (s.setCompare b k x).captures = s.captures := rfl
@[simp] theorem State.setCompare_fetches (b k : Nat) (x : Compare) : (s.setCompare b k x).fetches = s.fetches := rfl
@[simp] theorem State.setCompare_lineViews (b k : Nat) (x : Compare) : (s.setCompare b k x).lineViews = s.lineViews := rfl
@[simp] theorem State.setCompare_colStores (b k : Nat) (x : Compare) : (s.setCompare b k x).colStores = s.colStores := rfl
@[simp] theorem State.setCompare_pcache (b k : Nat) (x : Compare) : (s.setCompare b k x).pcache = s.pcache := rfl
@[simp] theorem State.setCompare_sprLines (b k : Nat) (x : Compare) : (s.setCompare b k x).sprLines = s.sprLines := rfl
@[simp] theorem State.setCompare_coll (b k : Nat) (x : Compare) : (s.setCompare b k x).coll = s.coll := rfl
@[simp] theorem State.setCompare_videos (b k : Nat) (x : Compare) : (s.setCompare b k x).videos = s.videos := rfl
@[simp] theorem State.setCompare_luts (b k : Nat) (x : Compare) : (s.setCompare b k x).luts = s.luts := rfl
@[simp] theorem State.setCompare_outs (b k : Nat) (x : Compare) : (s.setCompare b k x).outs = s.outs := rfl
@[simp] theorem State.setCompare_handQ (b k : Nat) (x : Compare) : (s.setCompare b k x).handQ = s.handQ := rfl
@[simp] theorem State.setCompare_memCtl (b k : Nat) (x : Compare) : (s.setCompare b k x).memCtl = s.memCtl := rfl
@[simp] theorem State.setCompare_lanes (b k : Nat) (x : Compare) : (s.setCompare b k x).lanes = s.lanes := rfl
@[simp] theorem State.setCompare_rasterTx (b k : Nat) (x : Compare) : (s.setCompare b k x).rasterTx = s.rasterTx := rfl
@[simp] theorem State.setCompare_audioTx (b k : Nat) (x : Compare) : (s.setCompare b k x).audioTx = s.audioTx := rfl
@[simp] theorem State.setCompare_flows (b k : Nat) (x : Compare) : (s.setCompare b k x).flows = s.flows := rfl
@[simp] theorem State.setCompare_ptp (b k : Nat) (x : Compare) : (s.setCompare b k x).ptp = s.ptp := rfl
@[simp] theorem State.setCompare_quench (b k : Nat) (x : Compare) : (s.setCompare b k x).quench = s.quench := rfl
@[simp] theorem State.setCompare_tuy (b k : Nat) (x : Compare) : (s.setCompare b k x).tuy = s.tuy := rfl
@[simp] theorem State.setCompare_swages (b k : Nat) (x : Compare) : (s.setCompare b k x).swages = s.swages := rfl
@[simp] theorem State.setCompare_tongs (b k : Nat) (x : Compare) : (s.setCompare b k x).tongs = s.tongs := rfl
@[simp] theorem State.setCompare_temper (b k : Nat) (x : Compare) : (s.setCompare b k x).temper = s.temper := rfl
@[simp] theorem State.setCompare_boot (b k : Nat) (x : Compare) : (s.setCompare b k x).boot = s.boot := rfl
@[simp] theorem State.setCompare_otp (b k : Nat) (x : Compare) : (s.setCompare b k x).otp = s.otp := rfl
@[simp] theorem State.setCompare_flash (b k : Nat) (x : Compare) : (s.setCompare b k x).flash = s.flash := rfl
@[simp] theorem State.setCompare_ember (b k : Nat) (x : Compare) : (s.setCompare b k x).ember = s.ember := rfl
@[simp] theorem State.setCompare_dports (b k : Nat) (x : Compare) : (s.setCompare b k x).dports = s.dports := rfl
@[simp] theorem State.setCompare_hostPort (b k : Nat) (x : Compare) : (s.setCompare b k x).hostPort = s.hostPort := rfl
@[simp] theorem State.setCompare_heldDoms (b k : Nat) (x : Compare) : (s.setCompare b k x).heldDoms = s.heldDoms := rfl
@[simp] theorem State.setCompare_pending (b k : Nat) (x : Compare) : (s.setCompare b k x).pending = s.pending := rfl

/-! ### State.setCapture -/

@[simp] theorem State.setCapture_variant (b c : Nat) (x : Capture) : (s.setCapture b c x).variant = s.variant := rfl
@[simp] theorem State.setCapture_now (b c : Nat) (x : Capture) : (s.setCapture b c x).now = s.now := rfl
@[simp] theorem State.setCapture_freeCount (b c : Nat) (x : Capture) : (s.setCapture b c x).freeCount = s.freeCount := rfl
@[simp] theorem State.setCapture_regs (b c : Nat) (x : Capture) : (s.setCapture b c x).regs = s.regs := rfl
@[simp] theorem State.setCapture_eff (b c : Nat) (x : Capture) : (s.setCapture b c x).eff = s.eff := rfl
@[simp] theorem State.setCapture_latches (b c : Nat) (x : Capture) : (s.setCapture b c x).latches = s.latches := rfl
@[simp] theorem State.setCapture_beam (b c : Nat) (x : Capture) : (s.setCapture b c x).beam = s.beam := rfl
@[simp] theorem State.setCapture_pkgQueue (b c : Nat) (x : Capture) : (s.setCapture b c x).pkgQueue = s.pkgQueue := rfl
@[simp] theorem State.setCapture_genlock (b c : Nat) (x : Capture) : (s.setCapture b c x).genlock = s.genlock := rfl
@[simp] theorem State.setCapture_ports (b c : Nat) (x : Capture) : (s.setCapture b c x).ports = s.ports := rfl
@[simp] theorem State.setCapture_evtAt (b c : Nat) (x : Capture) : (s.setCapture b c x).evtAt = s.evtAt := rfl
@[simp] theorem State.setCapture_sticky (b c : Nat) (x : Capture) : (s.setCapture b c x).sticky = s.sticky := rfl
@[simp] theorem State.setCapture_commits (b c : Nat) (x : Capture) : (s.setCapture b c x).commits = s.commits := rfl
@[simp] theorem State.setCapture_strikeRam (b c : Nat) (x : Capture) : (s.setCapture b c x).strikeRam = s.strikeRam := rfl
@[simp] theorem State.setCapture_cursors (b c : Nat) (x : Capture) : (s.setCapture b c x).cursors = s.cursors := rfl
@[simp] theorem State.setCapture_liveQ (b c : Nat) (x : Capture) : (s.setCapture b c x).liveQ = s.liveQ := rfl
@[simp] theorem State.setCapture_liveOut (b c : Nat) (x : Capture) : (s.setCapture b c x).liveOut = s.liveOut := rfl
@[simp] theorem State.setCapture_reflexWait (b c : Nat) (x : Capture) : (s.setCapture b c x).reflexWait = s.reflexWait := rfl
@[simp] theorem State.setCapture_hammers (b c : Nat) (x : Capture) : (s.setCapture b c x).hammers = s.hammers := rfl
@[simp] theorem State.setCapture_progMem (b c : Nat) (x : Capture) : (s.setCapture b c x).progMem = s.progMem := rfl
@[simp] theorem State.setCapture_banks (b c : Nat) (x : Capture) : (s.setCapture b c x).banks = s.banks := rfl
@[simp] theorem State.setCapture_privBits (b c : Nat) (x : Capture) : (s.setCapture b c x).privBits = s.privBits := rfl
@[simp] theorem State.setCapture_irq (b c : Nat) (x : Capture) : (s.setCapture b c x).irq = s.irq := rfl
@[simp] theorem State.setCapture_ppend (b c : Nat) (x : Capture) : (s.setCapture b c x).ppend = s.ppend := rfl
@[simp] theorem State.setCapture_slots (b c : Nat) (x : Capture) : (s.setCapture b c x).slots = s.slots := rfl
@[simp] theorem State.setCapture_hearth (b c : Nat) (x : Capture) : (s.setCapture b c x).hearth = s.hearth := rfl
@[simp] theorem State.setCapture_gddr (b c : Nat) (x : Capture) : (s.setCapture b c x).gddr = s.gddr := rfl
@[simp] theorem State.setCapture_gddrEra (b c : Nat) (x : Capture) : (s.setCapture b c x).gddrEra = s.gddrEra := rfl
@[simp] theorem State.setCapture_hearthEra (b c : Nat) (x : Capture) : (s.setCapture b c x).hearthEra = s.hearthEra := rfl
@[simp] theorem State.setCapture_hearthBad (b c : Nat) (x : Capture) : (s.setCapture b c x).hearthBad = s.hearthBad := rfl
@[simp] theorem State.setCapture_tick (b c : Nat) (x : Capture) : (s.setCapture b c x).tick = s.tick := rfl
@[simp] theorem State.setCapture_tickFrac (b c : Nat) (x : Capture) : (s.setCapture b c x).tickFrac = s.tickFrac := rfl
@[simp] theorem State.setCapture_tallies (b c : Nat) (x : Capture) : (s.setCapture b c x).tallies = s.tallies := rfl
@[simp] theorem State.setCapture_pins (b c : Nat) (x : Capture) : (s.setCapture b c x).pins = s.pins := rfl
@[simp] theorem State.setCapture_legacy (b c : Nat) (x : Capture) : (s.setCapture b c x).legacy = s.legacy := rfl
@[simp] theorem State.setCapture_pioBanks (b c : Nat) (x : Capture) : (s.setCapture b c x).pioBanks = s.pioBanks := rfl
@[simp] theorem State.setCapture_matchers (b c : Nat) (x : Capture) : (s.setCapture b c x).matchers = s.matchers := rfl
@[simp] theorem State.setCapture_tickCtl (b c : Nat) (x : Capture) : (s.setCapture b c x).tickCtl = s.tickCtl := rfl
@[simp] theorem State.setCapture_compares (b c : Nat) (x : Capture) : (s.setCapture b c x).compares = s.compares := rfl
@[simp] theorem State.setCapture_fetches (b c : Nat) (x : Capture) : (s.setCapture b c x).fetches = s.fetches := rfl
@[simp] theorem State.setCapture_lineViews (b c : Nat) (x : Capture) : (s.setCapture b c x).lineViews = s.lineViews := rfl
@[simp] theorem State.setCapture_colStores (b c : Nat) (x : Capture) : (s.setCapture b c x).colStores = s.colStores := rfl
@[simp] theorem State.setCapture_pcache (b c : Nat) (x : Capture) : (s.setCapture b c x).pcache = s.pcache := rfl
@[simp] theorem State.setCapture_sprLines (b c : Nat) (x : Capture) : (s.setCapture b c x).sprLines = s.sprLines := rfl
@[simp] theorem State.setCapture_coll (b c : Nat) (x : Capture) : (s.setCapture b c x).coll = s.coll := rfl
@[simp] theorem State.setCapture_videos (b c : Nat) (x : Capture) : (s.setCapture b c x).videos = s.videos := rfl
@[simp] theorem State.setCapture_luts (b c : Nat) (x : Capture) : (s.setCapture b c x).luts = s.luts := rfl
@[simp] theorem State.setCapture_outs (b c : Nat) (x : Capture) : (s.setCapture b c x).outs = s.outs := rfl
@[simp] theorem State.setCapture_handQ (b c : Nat) (x : Capture) : (s.setCapture b c x).handQ = s.handQ := rfl
@[simp] theorem State.setCapture_memCtl (b c : Nat) (x : Capture) : (s.setCapture b c x).memCtl = s.memCtl := rfl
@[simp] theorem State.setCapture_lanes (b c : Nat) (x : Capture) : (s.setCapture b c x).lanes = s.lanes := rfl
@[simp] theorem State.setCapture_rasterTx (b c : Nat) (x : Capture) : (s.setCapture b c x).rasterTx = s.rasterTx := rfl
@[simp] theorem State.setCapture_audioTx (b c : Nat) (x : Capture) : (s.setCapture b c x).audioTx = s.audioTx := rfl
@[simp] theorem State.setCapture_flows (b c : Nat) (x : Capture) : (s.setCapture b c x).flows = s.flows := rfl
@[simp] theorem State.setCapture_ptp (b c : Nat) (x : Capture) : (s.setCapture b c x).ptp = s.ptp := rfl
@[simp] theorem State.setCapture_quench (b c : Nat) (x : Capture) : (s.setCapture b c x).quench = s.quench := rfl
@[simp] theorem State.setCapture_tuy (b c : Nat) (x : Capture) : (s.setCapture b c x).tuy = s.tuy := rfl
@[simp] theorem State.setCapture_swages (b c : Nat) (x : Capture) : (s.setCapture b c x).swages = s.swages := rfl
@[simp] theorem State.setCapture_tongs (b c : Nat) (x : Capture) : (s.setCapture b c x).tongs = s.tongs := rfl
@[simp] theorem State.setCapture_temper (b c : Nat) (x : Capture) : (s.setCapture b c x).temper = s.temper := rfl
@[simp] theorem State.setCapture_boot (b c : Nat) (x : Capture) : (s.setCapture b c x).boot = s.boot := rfl
@[simp] theorem State.setCapture_otp (b c : Nat) (x : Capture) : (s.setCapture b c x).otp = s.otp := rfl
@[simp] theorem State.setCapture_flash (b c : Nat) (x : Capture) : (s.setCapture b c x).flash = s.flash := rfl
@[simp] theorem State.setCapture_ember (b c : Nat) (x : Capture) : (s.setCapture b c x).ember = s.ember := rfl
@[simp] theorem State.setCapture_dports (b c : Nat) (x : Capture) : (s.setCapture b c x).dports = s.dports := rfl
@[simp] theorem State.setCapture_hostPort (b c : Nat) (x : Capture) : (s.setCapture b c x).hostPort = s.hostPort := rfl
@[simp] theorem State.setCapture_heldDoms (b c : Nat) (x : Capture) : (s.setCapture b c x).heldDoms = s.heldDoms := rfl
@[simp] theorem State.setCapture_pending (b c : Nat) (x : Capture) : (s.setCapture b c x).pending = s.pending := rfl

/-! ### State.setMatcher -/

@[simp] theorem State.setMatcher_variant (b k : Nat) (x : Matcher) : (s.setMatcher b k x).variant = s.variant := rfl
@[simp] theorem State.setMatcher_now (b k : Nat) (x : Matcher) : (s.setMatcher b k x).now = s.now := rfl
@[simp] theorem State.setMatcher_freeCount (b k : Nat) (x : Matcher) : (s.setMatcher b k x).freeCount = s.freeCount := rfl
@[simp] theorem State.setMatcher_regs (b k : Nat) (x : Matcher) : (s.setMatcher b k x).regs = s.regs := rfl
@[simp] theorem State.setMatcher_eff (b k : Nat) (x : Matcher) : (s.setMatcher b k x).eff = s.eff := rfl
@[simp] theorem State.setMatcher_latches (b k : Nat) (x : Matcher) : (s.setMatcher b k x).latches = s.latches := rfl
@[simp] theorem State.setMatcher_beam (b k : Nat) (x : Matcher) : (s.setMatcher b k x).beam = s.beam := rfl
@[simp] theorem State.setMatcher_pkgQueue (b k : Nat) (x : Matcher) : (s.setMatcher b k x).pkgQueue = s.pkgQueue := rfl
@[simp] theorem State.setMatcher_genlock (b k : Nat) (x : Matcher) : (s.setMatcher b k x).genlock = s.genlock := rfl
@[simp] theorem State.setMatcher_ports (b k : Nat) (x : Matcher) : (s.setMatcher b k x).ports = s.ports := rfl
@[simp] theorem State.setMatcher_evtAt (b k : Nat) (x : Matcher) : (s.setMatcher b k x).evtAt = s.evtAt := rfl
@[simp] theorem State.setMatcher_sticky (b k : Nat) (x : Matcher) : (s.setMatcher b k x).sticky = s.sticky := rfl
@[simp] theorem State.setMatcher_commits (b k : Nat) (x : Matcher) : (s.setMatcher b k x).commits = s.commits := rfl
@[simp] theorem State.setMatcher_strikeRam (b k : Nat) (x : Matcher) : (s.setMatcher b k x).strikeRam = s.strikeRam := rfl
@[simp] theorem State.setMatcher_cursors (b k : Nat) (x : Matcher) : (s.setMatcher b k x).cursors = s.cursors := rfl
@[simp] theorem State.setMatcher_liveQ (b k : Nat) (x : Matcher) : (s.setMatcher b k x).liveQ = s.liveQ := rfl
@[simp] theorem State.setMatcher_liveOut (b k : Nat) (x : Matcher) : (s.setMatcher b k x).liveOut = s.liveOut := rfl
@[simp] theorem State.setMatcher_reflexWait (b k : Nat) (x : Matcher) : (s.setMatcher b k x).reflexWait = s.reflexWait := rfl
@[simp] theorem State.setMatcher_hammers (b k : Nat) (x : Matcher) : (s.setMatcher b k x).hammers = s.hammers := rfl
@[simp] theorem State.setMatcher_progMem (b k : Nat) (x : Matcher) : (s.setMatcher b k x).progMem = s.progMem := rfl
@[simp] theorem State.setMatcher_banks (b k : Nat) (x : Matcher) : (s.setMatcher b k x).banks = s.banks := rfl
@[simp] theorem State.setMatcher_privBits (b k : Nat) (x : Matcher) : (s.setMatcher b k x).privBits = s.privBits := rfl
@[simp] theorem State.setMatcher_irq (b k : Nat) (x : Matcher) : (s.setMatcher b k x).irq = s.irq := rfl
@[simp] theorem State.setMatcher_ppend (b k : Nat) (x : Matcher) : (s.setMatcher b k x).ppend = s.ppend := rfl
@[simp] theorem State.setMatcher_slots (b k : Nat) (x : Matcher) : (s.setMatcher b k x).slots = s.slots := rfl
@[simp] theorem State.setMatcher_hearth (b k : Nat) (x : Matcher) : (s.setMatcher b k x).hearth = s.hearth := rfl
@[simp] theorem State.setMatcher_gddr (b k : Nat) (x : Matcher) : (s.setMatcher b k x).gddr = s.gddr := rfl
@[simp] theorem State.setMatcher_gddrEra (b k : Nat) (x : Matcher) : (s.setMatcher b k x).gddrEra = s.gddrEra := rfl
@[simp] theorem State.setMatcher_hearthEra (b k : Nat) (x : Matcher) : (s.setMatcher b k x).hearthEra = s.hearthEra := rfl
@[simp] theorem State.setMatcher_hearthBad (b k : Nat) (x : Matcher) : (s.setMatcher b k x).hearthBad = s.hearthBad := rfl
@[simp] theorem State.setMatcher_tick (b k : Nat) (x : Matcher) : (s.setMatcher b k x).tick = s.tick := rfl
@[simp] theorem State.setMatcher_tickFrac (b k : Nat) (x : Matcher) : (s.setMatcher b k x).tickFrac = s.tickFrac := rfl
@[simp] theorem State.setMatcher_tallies (b k : Nat) (x : Matcher) : (s.setMatcher b k x).tallies = s.tallies := rfl
@[simp] theorem State.setMatcher_pins (b k : Nat) (x : Matcher) : (s.setMatcher b k x).pins = s.pins := rfl
@[simp] theorem State.setMatcher_legacy (b k : Nat) (x : Matcher) : (s.setMatcher b k x).legacy = s.legacy := rfl
@[simp] theorem State.setMatcher_pioBanks (b k : Nat) (x : Matcher) : (s.setMatcher b k x).pioBanks = s.pioBanks := rfl
@[simp] theorem State.setMatcher_tickCtl (b k : Nat) (x : Matcher) : (s.setMatcher b k x).tickCtl = s.tickCtl := rfl
@[simp] theorem State.setMatcher_compares (b k : Nat) (x : Matcher) : (s.setMatcher b k x).compares = s.compares := rfl
@[simp] theorem State.setMatcher_captures (b k : Nat) (x : Matcher) : (s.setMatcher b k x).captures = s.captures := rfl
@[simp] theorem State.setMatcher_fetches (b k : Nat) (x : Matcher) : (s.setMatcher b k x).fetches = s.fetches := rfl
@[simp] theorem State.setMatcher_lineViews (b k : Nat) (x : Matcher) : (s.setMatcher b k x).lineViews = s.lineViews := rfl
@[simp] theorem State.setMatcher_colStores (b k : Nat) (x : Matcher) : (s.setMatcher b k x).colStores = s.colStores := rfl
@[simp] theorem State.setMatcher_pcache (b k : Nat) (x : Matcher) : (s.setMatcher b k x).pcache = s.pcache := rfl
@[simp] theorem State.setMatcher_sprLines (b k : Nat) (x : Matcher) : (s.setMatcher b k x).sprLines = s.sprLines := rfl
@[simp] theorem State.setMatcher_coll (b k : Nat) (x : Matcher) : (s.setMatcher b k x).coll = s.coll := rfl
@[simp] theorem State.setMatcher_videos (b k : Nat) (x : Matcher) : (s.setMatcher b k x).videos = s.videos := rfl
@[simp] theorem State.setMatcher_luts (b k : Nat) (x : Matcher) : (s.setMatcher b k x).luts = s.luts := rfl
@[simp] theorem State.setMatcher_outs (b k : Nat) (x : Matcher) : (s.setMatcher b k x).outs = s.outs := rfl
@[simp] theorem State.setMatcher_handQ (b k : Nat) (x : Matcher) : (s.setMatcher b k x).handQ = s.handQ := rfl
@[simp] theorem State.setMatcher_memCtl (b k : Nat) (x : Matcher) : (s.setMatcher b k x).memCtl = s.memCtl := rfl
@[simp] theorem State.setMatcher_lanes (b k : Nat) (x : Matcher) : (s.setMatcher b k x).lanes = s.lanes := rfl
@[simp] theorem State.setMatcher_rasterTx (b k : Nat) (x : Matcher) : (s.setMatcher b k x).rasterTx = s.rasterTx := rfl
@[simp] theorem State.setMatcher_audioTx (b k : Nat) (x : Matcher) : (s.setMatcher b k x).audioTx = s.audioTx := rfl
@[simp] theorem State.setMatcher_flows (b k : Nat) (x : Matcher) : (s.setMatcher b k x).flows = s.flows := rfl
@[simp] theorem State.setMatcher_ptp (b k : Nat) (x : Matcher) : (s.setMatcher b k x).ptp = s.ptp := rfl
@[simp] theorem State.setMatcher_quench (b k : Nat) (x : Matcher) : (s.setMatcher b k x).quench = s.quench := rfl
@[simp] theorem State.setMatcher_tuy (b k : Nat) (x : Matcher) : (s.setMatcher b k x).tuy = s.tuy := rfl
@[simp] theorem State.setMatcher_swages (b k : Nat) (x : Matcher) : (s.setMatcher b k x).swages = s.swages := rfl
@[simp] theorem State.setMatcher_tongs (b k : Nat) (x : Matcher) : (s.setMatcher b k x).tongs = s.tongs := rfl
@[simp] theorem State.setMatcher_temper (b k : Nat) (x : Matcher) : (s.setMatcher b k x).temper = s.temper := rfl
@[simp] theorem State.setMatcher_boot (b k : Nat) (x : Matcher) : (s.setMatcher b k x).boot = s.boot := rfl
@[simp] theorem State.setMatcher_otp (b k : Nat) (x : Matcher) : (s.setMatcher b k x).otp = s.otp := rfl
@[simp] theorem State.setMatcher_flash (b k : Nat) (x : Matcher) : (s.setMatcher b k x).flash = s.flash := rfl
@[simp] theorem State.setMatcher_ember (b k : Nat) (x : Matcher) : (s.setMatcher b k x).ember = s.ember := rfl
@[simp] theorem State.setMatcher_dports (b k : Nat) (x : Matcher) : (s.setMatcher b k x).dports = s.dports := rfl
@[simp] theorem State.setMatcher_hostPort (b k : Nat) (x : Matcher) : (s.setMatcher b k x).hostPort = s.hostPort := rfl
@[simp] theorem State.setMatcher_heldDoms (b k : Nat) (x : Matcher) : (s.setMatcher b k x).heldDoms = s.heldDoms := rfl
@[simp] theorem State.setMatcher_pending (b k : Nat) (x : Matcher) : (s.setMatcher b k x).pending = s.pending := rfl

/-! ### State.setBank -/

@[simp] theorem State.setBank_variant (b k : Nat) (x : Bank) : (s.setBank b k x).variant = s.variant := rfl
@[simp] theorem State.setBank_now (b k : Nat) (x : Bank) : (s.setBank b k x).now = s.now := rfl
@[simp] theorem State.setBank_freeCount (b k : Nat) (x : Bank) : (s.setBank b k x).freeCount = s.freeCount := rfl
@[simp] theorem State.setBank_regs (b k : Nat) (x : Bank) : (s.setBank b k x).regs = s.regs := rfl
@[simp] theorem State.setBank_eff (b k : Nat) (x : Bank) : (s.setBank b k x).eff = s.eff := rfl
@[simp] theorem State.setBank_latches (b k : Nat) (x : Bank) : (s.setBank b k x).latches = s.latches := rfl
@[simp] theorem State.setBank_beam (b k : Nat) (x : Bank) : (s.setBank b k x).beam = s.beam := rfl
@[simp] theorem State.setBank_pkgQueue (b k : Nat) (x : Bank) : (s.setBank b k x).pkgQueue = s.pkgQueue := rfl
@[simp] theorem State.setBank_genlock (b k : Nat) (x : Bank) : (s.setBank b k x).genlock = s.genlock := rfl
@[simp] theorem State.setBank_ports (b k : Nat) (x : Bank) : (s.setBank b k x).ports = s.ports := rfl
@[simp] theorem State.setBank_evtAt (b k : Nat) (x : Bank) : (s.setBank b k x).evtAt = s.evtAt := rfl
@[simp] theorem State.setBank_sticky (b k : Nat) (x : Bank) : (s.setBank b k x).sticky = s.sticky := rfl
@[simp] theorem State.setBank_commits (b k : Nat) (x : Bank) : (s.setBank b k x).commits = s.commits := rfl
@[simp] theorem State.setBank_strikeRam (b k : Nat) (x : Bank) : (s.setBank b k x).strikeRam = s.strikeRam := rfl
@[simp] theorem State.setBank_cursors (b k : Nat) (x : Bank) : (s.setBank b k x).cursors = s.cursors := rfl
@[simp] theorem State.setBank_liveQ (b k : Nat) (x : Bank) : (s.setBank b k x).liveQ = s.liveQ := rfl
@[simp] theorem State.setBank_liveOut (b k : Nat) (x : Bank) : (s.setBank b k x).liveOut = s.liveOut := rfl
@[simp] theorem State.setBank_reflexWait (b k : Nat) (x : Bank) : (s.setBank b k x).reflexWait = s.reflexWait := rfl
@[simp] theorem State.setBank_hammers (b k : Nat) (x : Bank) : (s.setBank b k x).hammers = s.hammers := rfl
@[simp] theorem State.setBank_progMem (b k : Nat) (x : Bank) : (s.setBank b k x).progMem = s.progMem := rfl
@[simp] theorem State.setBank_banks (b k : Nat) (x : Bank) : (s.setBank b k x).banks = s.banks := rfl
@[simp] theorem State.setBank_privBits (b k : Nat) (x : Bank) : (s.setBank b k x).privBits = s.privBits := rfl
@[simp] theorem State.setBank_irq (b k : Nat) (x : Bank) : (s.setBank b k x).irq = s.irq := rfl
@[simp] theorem State.setBank_ppend (b k : Nat) (x : Bank) : (s.setBank b k x).ppend = s.ppend := rfl
@[simp] theorem State.setBank_slots (b k : Nat) (x : Bank) : (s.setBank b k x).slots = s.slots := rfl
@[simp] theorem State.setBank_hearth (b k : Nat) (x : Bank) : (s.setBank b k x).hearth = s.hearth := rfl
@[simp] theorem State.setBank_gddr (b k : Nat) (x : Bank) : (s.setBank b k x).gddr = s.gddr := rfl
@[simp] theorem State.setBank_gddrEra (b k : Nat) (x : Bank) : (s.setBank b k x).gddrEra = s.gddrEra := rfl
@[simp] theorem State.setBank_hearthEra (b k : Nat) (x : Bank) : (s.setBank b k x).hearthEra = s.hearthEra := rfl
@[simp] theorem State.setBank_hearthBad (b k : Nat) (x : Bank) : (s.setBank b k x).hearthBad = s.hearthBad := rfl
@[simp] theorem State.setBank_tick (b k : Nat) (x : Bank) : (s.setBank b k x).tick = s.tick := rfl
@[simp] theorem State.setBank_tickFrac (b k : Nat) (x : Bank) : (s.setBank b k x).tickFrac = s.tickFrac := rfl
@[simp] theorem State.setBank_tallies (b k : Nat) (x : Bank) : (s.setBank b k x).tallies = s.tallies := rfl
@[simp] theorem State.setBank_pins (b k : Nat) (x : Bank) : (s.setBank b k x).pins = s.pins := rfl
@[simp] theorem State.setBank_legacy (b k : Nat) (x : Bank) : (s.setBank b k x).legacy = s.legacy := rfl
@[simp] theorem State.setBank_matchers (b k : Nat) (x : Bank) : (s.setBank b k x).matchers = s.matchers := rfl
@[simp] theorem State.setBank_tickCtl (b k : Nat) (x : Bank) : (s.setBank b k x).tickCtl = s.tickCtl := rfl
@[simp] theorem State.setBank_compares (b k : Nat) (x : Bank) : (s.setBank b k x).compares = s.compares := rfl
@[simp] theorem State.setBank_captures (b k : Nat) (x : Bank) : (s.setBank b k x).captures = s.captures := rfl
@[simp] theorem State.setBank_fetches (b k : Nat) (x : Bank) : (s.setBank b k x).fetches = s.fetches := rfl
@[simp] theorem State.setBank_lineViews (b k : Nat) (x : Bank) : (s.setBank b k x).lineViews = s.lineViews := rfl
@[simp] theorem State.setBank_colStores (b k : Nat) (x : Bank) : (s.setBank b k x).colStores = s.colStores := rfl
@[simp] theorem State.setBank_pcache (b k : Nat) (x : Bank) : (s.setBank b k x).pcache = s.pcache := rfl
@[simp] theorem State.setBank_sprLines (b k : Nat) (x : Bank) : (s.setBank b k x).sprLines = s.sprLines := rfl
@[simp] theorem State.setBank_coll (b k : Nat) (x : Bank) : (s.setBank b k x).coll = s.coll := rfl
@[simp] theorem State.setBank_videos (b k : Nat) (x : Bank) : (s.setBank b k x).videos = s.videos := rfl
@[simp] theorem State.setBank_luts (b k : Nat) (x : Bank) : (s.setBank b k x).luts = s.luts := rfl
@[simp] theorem State.setBank_outs (b k : Nat) (x : Bank) : (s.setBank b k x).outs = s.outs := rfl
@[simp] theorem State.setBank_handQ (b k : Nat) (x : Bank) : (s.setBank b k x).handQ = s.handQ := rfl
@[simp] theorem State.setBank_memCtl (b k : Nat) (x : Bank) : (s.setBank b k x).memCtl = s.memCtl := rfl
@[simp] theorem State.setBank_lanes (b k : Nat) (x : Bank) : (s.setBank b k x).lanes = s.lanes := rfl
@[simp] theorem State.setBank_rasterTx (b k : Nat) (x : Bank) : (s.setBank b k x).rasterTx = s.rasterTx := rfl
@[simp] theorem State.setBank_audioTx (b k : Nat) (x : Bank) : (s.setBank b k x).audioTx = s.audioTx := rfl
@[simp] theorem State.setBank_flows (b k : Nat) (x : Bank) : (s.setBank b k x).flows = s.flows := rfl
@[simp] theorem State.setBank_ptp (b k : Nat) (x : Bank) : (s.setBank b k x).ptp = s.ptp := rfl
@[simp] theorem State.setBank_quench (b k : Nat) (x : Bank) : (s.setBank b k x).quench = s.quench := rfl
@[simp] theorem State.setBank_tuy (b k : Nat) (x : Bank) : (s.setBank b k x).tuy = s.tuy := rfl
@[simp] theorem State.setBank_swages (b k : Nat) (x : Bank) : (s.setBank b k x).swages = s.swages := rfl
@[simp] theorem State.setBank_tongs (b k : Nat) (x : Bank) : (s.setBank b k x).tongs = s.tongs := rfl
@[simp] theorem State.setBank_temper (b k : Nat) (x : Bank) : (s.setBank b k x).temper = s.temper := rfl
@[simp] theorem State.setBank_boot (b k : Nat) (x : Bank) : (s.setBank b k x).boot = s.boot := rfl
@[simp] theorem State.setBank_otp (b k : Nat) (x : Bank) : (s.setBank b k x).otp = s.otp := rfl
@[simp] theorem State.setBank_flash (b k : Nat) (x : Bank) : (s.setBank b k x).flash = s.flash := rfl
@[simp] theorem State.setBank_ember (b k : Nat) (x : Bank) : (s.setBank b k x).ember = s.ember := rfl
@[simp] theorem State.setBank_dports (b k : Nat) (x : Bank) : (s.setBank b k x).dports = s.dports := rfl
@[simp] theorem State.setBank_hostPort (b k : Nat) (x : Bank) : (s.setBank b k x).hostPort = s.hostPort := rfl
@[simp] theorem State.setBank_heldDoms (b k : Nat) (x : Bank) : (s.setBank b k x).heldDoms = s.heldDoms := rfl
@[simp] theorem State.setBank_pending (b k : Nat) (x : Bank) : (s.setBank b k x).pending = s.pending := rfl

/-! ### State.setLane -/

@[simp] theorem State.setLane_variant (b l : Nat) (x : Lane) : (s.setLane b l x).variant = s.variant := rfl
@[simp] theorem State.setLane_now (b l : Nat) (x : Lane) : (s.setLane b l x).now = s.now := rfl
@[simp] theorem State.setLane_freeCount (b l : Nat) (x : Lane) : (s.setLane b l x).freeCount = s.freeCount := rfl
@[simp] theorem State.setLane_regs (b l : Nat) (x : Lane) : (s.setLane b l x).regs = s.regs := rfl
@[simp] theorem State.setLane_eff (b l : Nat) (x : Lane) : (s.setLane b l x).eff = s.eff := rfl
@[simp] theorem State.setLane_latches (b l : Nat) (x : Lane) : (s.setLane b l x).latches = s.latches := rfl
@[simp] theorem State.setLane_beam (b l : Nat) (x : Lane) : (s.setLane b l x).beam = s.beam := rfl
@[simp] theorem State.setLane_pkgQueue (b l : Nat) (x : Lane) : (s.setLane b l x).pkgQueue = s.pkgQueue := rfl
@[simp] theorem State.setLane_genlock (b l : Nat) (x : Lane) : (s.setLane b l x).genlock = s.genlock := rfl
@[simp] theorem State.setLane_ports (b l : Nat) (x : Lane) : (s.setLane b l x).ports = s.ports := rfl
@[simp] theorem State.setLane_evtAt (b l : Nat) (x : Lane) : (s.setLane b l x).evtAt = s.evtAt := rfl
@[simp] theorem State.setLane_sticky (b l : Nat) (x : Lane) : (s.setLane b l x).sticky = s.sticky := rfl
@[simp] theorem State.setLane_commits (b l : Nat) (x : Lane) : (s.setLane b l x).commits = s.commits := rfl
@[simp] theorem State.setLane_strikeRam (b l : Nat) (x : Lane) : (s.setLane b l x).strikeRam = s.strikeRam := rfl
@[simp] theorem State.setLane_cursors (b l : Nat) (x : Lane) : (s.setLane b l x).cursors = s.cursors := rfl
@[simp] theorem State.setLane_liveQ (b l : Nat) (x : Lane) : (s.setLane b l x).liveQ = s.liveQ := rfl
@[simp] theorem State.setLane_liveOut (b l : Nat) (x : Lane) : (s.setLane b l x).liveOut = s.liveOut := rfl
@[simp] theorem State.setLane_reflexWait (b l : Nat) (x : Lane) : (s.setLane b l x).reflexWait = s.reflexWait := rfl
@[simp] theorem State.setLane_hammers (b l : Nat) (x : Lane) : (s.setLane b l x).hammers = s.hammers := rfl
@[simp] theorem State.setLane_progMem (b l : Nat) (x : Lane) : (s.setLane b l x).progMem = s.progMem := rfl
@[simp] theorem State.setLane_banks (b l : Nat) (x : Lane) : (s.setLane b l x).banks = s.banks := rfl
@[simp] theorem State.setLane_privBits (b l : Nat) (x : Lane) : (s.setLane b l x).privBits = s.privBits := rfl
@[simp] theorem State.setLane_irq (b l : Nat) (x : Lane) : (s.setLane b l x).irq = s.irq := rfl
@[simp] theorem State.setLane_ppend (b l : Nat) (x : Lane) : (s.setLane b l x).ppend = s.ppend := rfl
@[simp] theorem State.setLane_slots (b l : Nat) (x : Lane) : (s.setLane b l x).slots = s.slots := rfl
@[simp] theorem State.setLane_hearth (b l : Nat) (x : Lane) : (s.setLane b l x).hearth = s.hearth := rfl
@[simp] theorem State.setLane_gddr (b l : Nat) (x : Lane) : (s.setLane b l x).gddr = s.gddr := rfl
@[simp] theorem State.setLane_gddrEra (b l : Nat) (x : Lane) : (s.setLane b l x).gddrEra = s.gddrEra := rfl
@[simp] theorem State.setLane_hearthEra (b l : Nat) (x : Lane) : (s.setLane b l x).hearthEra = s.hearthEra := rfl
@[simp] theorem State.setLane_hearthBad (b l : Nat) (x : Lane) : (s.setLane b l x).hearthBad = s.hearthBad := rfl
@[simp] theorem State.setLane_tick (b l : Nat) (x : Lane) : (s.setLane b l x).tick = s.tick := rfl
@[simp] theorem State.setLane_tickFrac (b l : Nat) (x : Lane) : (s.setLane b l x).tickFrac = s.tickFrac := rfl
@[simp] theorem State.setLane_tallies (b l : Nat) (x : Lane) : (s.setLane b l x).tallies = s.tallies := rfl
@[simp] theorem State.setLane_pins (b l : Nat) (x : Lane) : (s.setLane b l x).pins = s.pins := rfl
@[simp] theorem State.setLane_legacy (b l : Nat) (x : Lane) : (s.setLane b l x).legacy = s.legacy := rfl
@[simp] theorem State.setLane_pioBanks (b l : Nat) (x : Lane) : (s.setLane b l x).pioBanks = s.pioBanks := rfl
@[simp] theorem State.setLane_matchers (b l : Nat) (x : Lane) : (s.setLane b l x).matchers = s.matchers := rfl
@[simp] theorem State.setLane_tickCtl (b l : Nat) (x : Lane) : (s.setLane b l x).tickCtl = s.tickCtl := rfl
@[simp] theorem State.setLane_compares (b l : Nat) (x : Lane) : (s.setLane b l x).compares = s.compares := rfl
@[simp] theorem State.setLane_captures (b l : Nat) (x : Lane) : (s.setLane b l x).captures = s.captures := rfl
@[simp] theorem State.setLane_fetches (b l : Nat) (x : Lane) : (s.setLane b l x).fetches = s.fetches := rfl
@[simp] theorem State.setLane_lineViews (b l : Nat) (x : Lane) : (s.setLane b l x).lineViews = s.lineViews := rfl
@[simp] theorem State.setLane_colStores (b l : Nat) (x : Lane) : (s.setLane b l x).colStores = s.colStores := rfl
@[simp] theorem State.setLane_pcache (b l : Nat) (x : Lane) : (s.setLane b l x).pcache = s.pcache := rfl
@[simp] theorem State.setLane_sprLines (b l : Nat) (x : Lane) : (s.setLane b l x).sprLines = s.sprLines := rfl
@[simp] theorem State.setLane_coll (b l : Nat) (x : Lane) : (s.setLane b l x).coll = s.coll := rfl
@[simp] theorem State.setLane_videos (b l : Nat) (x : Lane) : (s.setLane b l x).videos = s.videos := rfl
@[simp] theorem State.setLane_luts (b l : Nat) (x : Lane) : (s.setLane b l x).luts = s.luts := rfl
@[simp] theorem State.setLane_outs (b l : Nat) (x : Lane) : (s.setLane b l x).outs = s.outs := rfl
@[simp] theorem State.setLane_handQ (b l : Nat) (x : Lane) : (s.setLane b l x).handQ = s.handQ := rfl
@[simp] theorem State.setLane_memCtl (b l : Nat) (x : Lane) : (s.setLane b l x).memCtl = s.memCtl := rfl
@[simp] theorem State.setLane_rasterTx (b l : Nat) (x : Lane) : (s.setLane b l x).rasterTx = s.rasterTx := rfl
@[simp] theorem State.setLane_audioTx (b l : Nat) (x : Lane) : (s.setLane b l x).audioTx = s.audioTx := rfl
@[simp] theorem State.setLane_flows (b l : Nat) (x : Lane) : (s.setLane b l x).flows = s.flows := rfl
@[simp] theorem State.setLane_ptp (b l : Nat) (x : Lane) : (s.setLane b l x).ptp = s.ptp := rfl
@[simp] theorem State.setLane_quench (b l : Nat) (x : Lane) : (s.setLane b l x).quench = s.quench := rfl
@[simp] theorem State.setLane_tuy (b l : Nat) (x : Lane) : (s.setLane b l x).tuy = s.tuy := rfl
@[simp] theorem State.setLane_swages (b l : Nat) (x : Lane) : (s.setLane b l x).swages = s.swages := rfl
@[simp] theorem State.setLane_tongs (b l : Nat) (x : Lane) : (s.setLane b l x).tongs = s.tongs := rfl
@[simp] theorem State.setLane_temper (b l : Nat) (x : Lane) : (s.setLane b l x).temper = s.temper := rfl
@[simp] theorem State.setLane_boot (b l : Nat) (x : Lane) : (s.setLane b l x).boot = s.boot := rfl
@[simp] theorem State.setLane_otp (b l : Nat) (x : Lane) : (s.setLane b l x).otp = s.otp := rfl
@[simp] theorem State.setLane_flash (b l : Nat) (x : Lane) : (s.setLane b l x).flash = s.flash := rfl
@[simp] theorem State.setLane_ember (b l : Nat) (x : Lane) : (s.setLane b l x).ember = s.ember := rfl
@[simp] theorem State.setLane_dports (b l : Nat) (x : Lane) : (s.setLane b l x).dports = s.dports := rfl
@[simp] theorem State.setLane_hostPort (b l : Nat) (x : Lane) : (s.setLane b l x).hostPort = s.hostPort := rfl
@[simp] theorem State.setLane_heldDoms (b l : Nat) (x : Lane) : (s.setLane b l x).heldDoms = s.heldDoms := rfl
@[simp] theorem State.setLane_pending (b l : Nat) (x : Lane) : (s.setLane b l x).pending = s.pending := rfl

/-! ### State.setDport -/

@[simp] theorem State.setDport_variant (k : Nat) (x : DPort) : (s.setDport k x).variant = s.variant := rfl
@[simp] theorem State.setDport_now (k : Nat) (x : DPort) : (s.setDport k x).now = s.now := rfl
@[simp] theorem State.setDport_freeCount (k : Nat) (x : DPort) : (s.setDport k x).freeCount = s.freeCount := rfl
@[simp] theorem State.setDport_regs (k : Nat) (x : DPort) : (s.setDport k x).regs = s.regs := rfl
@[simp] theorem State.setDport_eff (k : Nat) (x : DPort) : (s.setDport k x).eff = s.eff := rfl
@[simp] theorem State.setDport_latches (k : Nat) (x : DPort) : (s.setDport k x).latches = s.latches := rfl
@[simp] theorem State.setDport_beam (k : Nat) (x : DPort) : (s.setDport k x).beam = s.beam := rfl
@[simp] theorem State.setDport_pkgQueue (k : Nat) (x : DPort) : (s.setDport k x).pkgQueue = s.pkgQueue := rfl
@[simp] theorem State.setDport_genlock (k : Nat) (x : DPort) : (s.setDport k x).genlock = s.genlock := rfl
@[simp] theorem State.setDport_ports (k : Nat) (x : DPort) : (s.setDport k x).ports = s.ports := rfl
@[simp] theorem State.setDport_evtAt (k : Nat) (x : DPort) : (s.setDport k x).evtAt = s.evtAt := rfl
@[simp] theorem State.setDport_sticky (k : Nat) (x : DPort) : (s.setDport k x).sticky = s.sticky := rfl
@[simp] theorem State.setDport_commits (k : Nat) (x : DPort) : (s.setDport k x).commits = s.commits := rfl
@[simp] theorem State.setDport_strikeRam (k : Nat) (x : DPort) : (s.setDport k x).strikeRam = s.strikeRam := rfl
@[simp] theorem State.setDport_cursors (k : Nat) (x : DPort) : (s.setDport k x).cursors = s.cursors := rfl
@[simp] theorem State.setDport_liveQ (k : Nat) (x : DPort) : (s.setDport k x).liveQ = s.liveQ := rfl
@[simp] theorem State.setDport_liveOut (k : Nat) (x : DPort) : (s.setDport k x).liveOut = s.liveOut := rfl
@[simp] theorem State.setDport_reflexWait (k : Nat) (x : DPort) : (s.setDport k x).reflexWait = s.reflexWait := rfl
@[simp] theorem State.setDport_hammers (k : Nat) (x : DPort) : (s.setDport k x).hammers = s.hammers := rfl
@[simp] theorem State.setDport_progMem (k : Nat) (x : DPort) : (s.setDport k x).progMem = s.progMem := rfl
@[simp] theorem State.setDport_banks (k : Nat) (x : DPort) : (s.setDport k x).banks = s.banks := rfl
@[simp] theorem State.setDport_privBits (k : Nat) (x : DPort) : (s.setDport k x).privBits = s.privBits := rfl
@[simp] theorem State.setDport_irq (k : Nat) (x : DPort) : (s.setDport k x).irq = s.irq := rfl
@[simp] theorem State.setDport_ppend (k : Nat) (x : DPort) : (s.setDport k x).ppend = s.ppend := rfl
@[simp] theorem State.setDport_slots (k : Nat) (x : DPort) : (s.setDport k x).slots = s.slots := rfl
@[simp] theorem State.setDport_hearth (k : Nat) (x : DPort) : (s.setDport k x).hearth = s.hearth := rfl
@[simp] theorem State.setDport_gddr (k : Nat) (x : DPort) : (s.setDport k x).gddr = s.gddr := rfl
@[simp] theorem State.setDport_gddrEra (k : Nat) (x : DPort) : (s.setDport k x).gddrEra = s.gddrEra := rfl
@[simp] theorem State.setDport_hearthEra (k : Nat) (x : DPort) : (s.setDport k x).hearthEra = s.hearthEra := rfl
@[simp] theorem State.setDport_hearthBad (k : Nat) (x : DPort) : (s.setDport k x).hearthBad = s.hearthBad := rfl
@[simp] theorem State.setDport_tick (k : Nat) (x : DPort) : (s.setDport k x).tick = s.tick := rfl
@[simp] theorem State.setDport_tickFrac (k : Nat) (x : DPort) : (s.setDport k x).tickFrac = s.tickFrac := rfl
@[simp] theorem State.setDport_tallies (k : Nat) (x : DPort) : (s.setDport k x).tallies = s.tallies := rfl
@[simp] theorem State.setDport_pins (k : Nat) (x : DPort) : (s.setDport k x).pins = s.pins := rfl
@[simp] theorem State.setDport_legacy (k : Nat) (x : DPort) : (s.setDport k x).legacy = s.legacy := rfl
@[simp] theorem State.setDport_pioBanks (k : Nat) (x : DPort) : (s.setDport k x).pioBanks = s.pioBanks := rfl
@[simp] theorem State.setDport_matchers (k : Nat) (x : DPort) : (s.setDport k x).matchers = s.matchers := rfl
@[simp] theorem State.setDport_tickCtl (k : Nat) (x : DPort) : (s.setDport k x).tickCtl = s.tickCtl := rfl
@[simp] theorem State.setDport_compares (k : Nat) (x : DPort) : (s.setDport k x).compares = s.compares := rfl
@[simp] theorem State.setDport_captures (k : Nat) (x : DPort) : (s.setDport k x).captures = s.captures := rfl
@[simp] theorem State.setDport_fetches (k : Nat) (x : DPort) : (s.setDport k x).fetches = s.fetches := rfl
@[simp] theorem State.setDport_lineViews (k : Nat) (x : DPort) : (s.setDport k x).lineViews = s.lineViews := rfl
@[simp] theorem State.setDport_colStores (k : Nat) (x : DPort) : (s.setDport k x).colStores = s.colStores := rfl
@[simp] theorem State.setDport_pcache (k : Nat) (x : DPort) : (s.setDport k x).pcache = s.pcache := rfl
@[simp] theorem State.setDport_sprLines (k : Nat) (x : DPort) : (s.setDport k x).sprLines = s.sprLines := rfl
@[simp] theorem State.setDport_coll (k : Nat) (x : DPort) : (s.setDport k x).coll = s.coll := rfl
@[simp] theorem State.setDport_videos (k : Nat) (x : DPort) : (s.setDport k x).videos = s.videos := rfl
@[simp] theorem State.setDport_luts (k : Nat) (x : DPort) : (s.setDport k x).luts = s.luts := rfl
@[simp] theorem State.setDport_outs (k : Nat) (x : DPort) : (s.setDport k x).outs = s.outs := rfl
@[simp] theorem State.setDport_handQ (k : Nat) (x : DPort) : (s.setDport k x).handQ = s.handQ := rfl
@[simp] theorem State.setDport_memCtl (k : Nat) (x : DPort) : (s.setDport k x).memCtl = s.memCtl := rfl
@[simp] theorem State.setDport_lanes (k : Nat) (x : DPort) : (s.setDport k x).lanes = s.lanes := rfl
@[simp] theorem State.setDport_rasterTx (k : Nat) (x : DPort) : (s.setDport k x).rasterTx = s.rasterTx := rfl
@[simp] theorem State.setDport_audioTx (k : Nat) (x : DPort) : (s.setDport k x).audioTx = s.audioTx := rfl
@[simp] theorem State.setDport_flows (k : Nat) (x : DPort) : (s.setDport k x).flows = s.flows := rfl
@[simp] theorem State.setDport_ptp (k : Nat) (x : DPort) : (s.setDport k x).ptp = s.ptp := rfl
@[simp] theorem State.setDport_quench (k : Nat) (x : DPort) : (s.setDport k x).quench = s.quench := rfl
@[simp] theorem State.setDport_tuy (k : Nat) (x : DPort) : (s.setDport k x).tuy = s.tuy := rfl
@[simp] theorem State.setDport_swages (k : Nat) (x : DPort) : (s.setDport k x).swages = s.swages := rfl
@[simp] theorem State.setDport_tongs (k : Nat) (x : DPort) : (s.setDport k x).tongs = s.tongs := rfl
@[simp] theorem State.setDport_temper (k : Nat) (x : DPort) : (s.setDport k x).temper = s.temper := rfl
@[simp] theorem State.setDport_boot (k : Nat) (x : DPort) : (s.setDport k x).boot = s.boot := rfl
@[simp] theorem State.setDport_otp (k : Nat) (x : DPort) : (s.setDport k x).otp = s.otp := rfl
@[simp] theorem State.setDport_flash (k : Nat) (x : DPort) : (s.setDport k x).flash = s.flash := rfl
@[simp] theorem State.setDport_ember (k : Nat) (x : DPort) : (s.setDport k x).ember = s.ember := rfl
@[simp] theorem State.setDport_hostPort (k : Nat) (x : DPort) : (s.setDport k x).hostPort = s.hostPort := rfl
@[simp] theorem State.setDport_heldDoms (k : Nat) (x : DPort) : (s.setDport k x).heldDoms = s.heldDoms := rfl
@[simp] theorem State.setDport_pending (k : Nat) (x : DPort) : (s.setDport k x).pending = s.pending := rfl

/-! ### Reading after a write -/

theorem State.reg_setReg (a a' : Nat) (v : Word) : (s.setReg a v).reg a' = if a' = a then v else s.reg a' :=
  Tbl.get_set

@[simp] theorem State.reg_setReg_same (a : Nat) (v : Word) : (s.setReg a v).reg a = v := Tbl.get_set_same

@[simp] theorem State.reg_setReg_other {a a' : Nat} (v : Word) (h : a' ≠ a) : (s.setReg a v).reg a' = s.reg a' :=
  Tbl.get_set_other h

@[simp] theorem State.port_setPort_same (b p : Nat) (x : Port) : (s.setPort b p x).port b p = x := Tbl.get_set_same

theorem State.port_setPort_other {b p b' p' : Nat} (x : Port) (h : pidx b' p' ≠ pidx b p) :
    (s.setPort b p x).port b' p' = s.port b' p' := Tbl.get_set_other h

@[simp] theorem State.cursor_setCursor_same (b p : Nat) (x : Cursor) : (s.setCursor b p x).cursor b p = x := Tbl.get_set_same

theorem State.cursor_setCursor_other {b p b' p' : Nat} (x : Cursor) (h : pidx b' p' ≠ pidx b p) :
    (s.setCursor b p x).cursor b' p' = s.cursor b' p' := Tbl.get_set_other h

@[simp] theorem State.hammer_setHammer_same (b p : Nat) (x : Hammer) : (s.setHammer b p x).hammer b p = x := Tbl.get_set_same

theorem State.hammer_setHammer_other {b p b' p' : Nat} (x : Hammer) (h : hidx b' p' ≠ hidx b p) :
    (s.setHammer b p x).hammer b' p' = s.hammer b' p' := Tbl.get_set_other h

@[simp] theorem State.src_setSrc_same (b id : Nat) (x : IrqSrc) : (s.setSrc b id x).src b id = x := Tbl.get_set_same

theorem State.src_setSrc_other {b id b' id' : Nat} (x : IrqSrc) (hn : 1024 * b' + id' ≠ 1024 * b + id) :
    (s.setSrc b id x).src b' id' = s.src b' id' := Tbl.get_set_other hn

@[simp] theorem State.slot_setSlot_same (b h l : Nat) (x : Slot) : (s.setSlot b h l x).slot b h l = x := Tbl.get_set_same

theorem State.slot_setSlot_other {b h l b' h' l' : Nat} (x : Slot) (hn : 4 * hidx b' h' + l' ≠ 4 * hidx b h + l) :
    (s.setSlot b h l x).slot b' h' l' = s.slot b' h' l' := Tbl.get_set_other hn

@[simp] theorem State.pin_setPin_same (b n : Nat) (x : Pin) : (s.setPin b n x).pin b n = x := Tbl.get_set_same

theorem State.pin_setPin_other {b n b' n' : Nat} (x : Pin) (hn : 48 * b' + n' ≠ 48 * b + n) :
    (s.setPin b n x).pin b' n' = s.pin b' n' := Tbl.get_set_other hn

@[simp] theorem State.ppendOf_setPpend_same (b h : Nat) (x : Nat) : (s.setPpend b h x).ppendOf b h = x := Tbl.get_set_same

theorem State.ppendOf_setPpend_other {b h b' h' : Nat} (x : Nat) (hn : hidx b' h' ≠ hidx b h) :
    (s.setPpend b h x).ppendOf b' h' = s.ppendOf b' h' := Tbl.get_set_other hn

@[simp] theorem State.stickyOf_setSticky_same (b h : Nat) (x : Nat) : (s.setSticky b h x).stickyOf b h = x := Tbl.get_set_same

theorem State.stickyOf_setSticky_other {b h b' h' : Nat} (x : Nat) (hn : hidx b' h' ≠ hidx b h) :
    (s.setSticky b h x).stickyOf b' h' = s.stickyOf b' h' := Tbl.get_set_other hn

@[simp] theorem State.tally_setTally_same (b k : Nat) (x : Tally) : (s.setTally b k x).tally b k = x := Tbl.get_set_same

theorem State.tally_setTally_other {b k b' k' : Nat} (x : Tally) (hn : 16 * b' + k' ≠ 16 * b + k) :
    (s.setTally b k x).tally b' k' = s.tally b' k' := Tbl.get_set_other hn

@[simp] theorem State.mem_setMem_same (b : Nat) (x : MemCtl) : (s.setMem b x).mem b = x := Tbl.get_set_same

theorem State.mem_setMem_other {b b' : Nat} (x : MemCtl) (hn : b' ≠ b) :
    (s.setMem b x).mem b' = s.mem b' := Tbl.get_set_other hn

@[simp] theorem State.swage_setSwage_same (b u : Nat) (x : Swage) : (s.setSwage b u x).swage b u = x := Tbl.get_set_same

@[simp] theorem State.tong_setTong_same (b c : Nat) (x : Tongs) : (s.setTong b c x).tong b c = x := Tbl.get_set_same

theorem State.tong_setTong_other {b c b' c' : Nat} (x : Tongs) (hn : 32 * b' + c' ≠ 32 * b + c) :
    (s.setTong b c x).tong b' c' = s.tong b' c' := Tbl.get_set_other hn

@[simp] theorem State.compare_setCompare_same (b k : Nat) (x : Compare) : (s.setCompare b k x).compare b k = x := Tbl.get_set_same

theorem State.compare_setCompare_other {b k b' k' : Nat} (x : Compare) (hn : 64 * b' + k' ≠ 64 * b + k) :
    (s.setCompare b k x).compare b' k' = s.compare b' k' := Tbl.get_set_other hn

@[simp] theorem State.capture_setCapture_same (b c : Nat) (x : Capture) : (s.setCapture b c x).capture b c = x := Tbl.get_set_same

theorem State.capture_setCapture_other {b c b' c' : Nat} (x : Capture) (hn : 16 * b' + c' ≠ 16 * b + c) :
    (s.setCapture b c x).capture b' c' = s.capture b' c' := Tbl.get_set_other hn

@[simp] theorem State.matcher_setMatcher_same (b k : Nat) (x : Matcher) : (s.setMatcher b k x).matcher b k = x := Tbl.get_set_same

theorem State.matcher_setMatcher_other {b k b' k' : Nat} (x : Matcher) (hn : 16 * b' + k' ≠ 16 * b + k) :
    (s.setMatcher b k x).matcher b' k' = s.matcher b' k' := Tbl.get_set_other hn

@[simp] theorem State.bank_setBank_same (b k : Nat) (x : Bank) : (s.setBank b k x).bank b k = x := Tbl.get_set_same

theorem State.bank_setBank_other {b k b' k' : Nat} (x : Bank) (hn : 4 * b' + k' ≠ 4 * b + k) :
    (s.setBank b k x).bank b' k' = s.bank b' k' := Tbl.get_set_other hn

@[simp] theorem State.lane_setLane_same (b l : Nat) (x : Lane) : (s.setLane b l x).lane b l = x := Tbl.get_set_same

theorem State.lane_setLane_other {b l b' l' : Nat} (x : Lane) (hn : 4 * b' + l' ≠ 4 * b + l) :
    (s.setLane b l x).lane b' l' = s.lane b' l' := Tbl.get_set_other hn

@[simp] theorem State.dport_setDport_same (k : Nat) (x : DPort) : (s.setDport k x).dport k = x := Tbl.get_set_same

theorem State.dport_setDport_other {k k' : Nat} (x : DPort) (hn : k' ≠ k) :
    (s.setDport k x).dport k' = s.dport k' := Tbl.get_set_other hn

@[simp] theorem State.latched_latch_same (who : Who) (b a : Nat) (v : Word) :
    (s.latch who b a v).latched who b a = v := Tbl.get_set_same

end Sys2Proof.Machine
end

