-- ==== Sys2Proof/Laws/Issue.lean ====
section
/-! SUPPORT. What the issue of a hammer instruction does (R204, R225): the lemmas through which a statement about an
instruction goes. -/

namespace Sys2Proof.Machine

/-- No step waits exactly when no listed hammer asks for one. -/
theorem stepsAsked_nil {s : State} : stepsAsked s = [] ↔ ∀ kv ∈ s.hammers, kv.2.stepReq = false := by
  unfold stepsAsked
  rw [List.map_eq_nil_iff, List.filter_eq_nil_iff]
  simp only [Bool.not_eq_true]

theorem stepsAsked_setHammer {s : State} {b h : Nat} {x : Hammer} (hs : stepsAsked s = []) (hx : x.stepReq = false) :
    stepsAsked (s.setHammer b h x) = [] := by
  rw [stepsAsked_nil] at hs ⊢
  intro kv hkv
  change kv ∈ Tbl.set Hammer.init s.hammers (hidx b h) x at hkv
  unfold Tbl.set at hkv
  split at hkv
  · exact hs kv (List.mem_filter.mp hkv).1
  · rcases Tbl.mem_put hkv with h1 | h1
    · rw [h1]; exact hx
    · exact hs kv h1

theorem Tbl.get_mem {α : Type} {d : Nat → α} {m : Tbl α} {k : Nat} :
    (k, Tbl.get d m k) ∈ m ∨ Tbl.get d m k = d k := by
  induction m with
  | nil => exact Or.inr rfl
  | cons e t ih =>
    obtain ⟨k', v⟩ := e
    unfold Tbl.get
    split
    · rename_i h; left; rw [h]; exact List.mem_cons_self
    · rcases ih with h | h
      · exact Or.inl (List.mem_cons_of_mem _ h)
      · exact Or.inr h

theorem stepReq_false {s : State} {b h : Nat} (hs : stepsAsked s = []) : (s.hammer b h).stepReq = false := by
  rw [stepsAsked_nil] at hs
  rcases Tbl.get_mem (d := Hammer.init) (m := s.hammers) (k := hidx b h) with h1 | h1
  · exact hs _ h1
  · change (Tbl.get Hammer.init s.hammers (hidx b h)).stepReq = false
    rw [h1]; rfl

theorem stepsAsked_same {s t : State} (hs : stepsAsked s = []) (ht : t.hammers = s.hammers) : stepsAsked t = [] := by
  unfold stepsAsked at *
  rw [ht]; exact hs

theorem stepsAsked_setReg {s : State} {a : Nat} {v : Word} (hs : stepsAsked s = []) : stepsAsked (s.setReg a v) = [] := hs

theorem settleSteps_none {s : State} (hs : stepsAsked s = []) : settleSteps s = s := by
  unfold settleSteps
  rw [runSteps, hs]

theorem settleFor_none {s : State} {b h : Nat} {regs : List Nat}
    (hl : ∀ l, (s.hammer b h).load = some l → l.dst.target % 16 ∉ regs) : settleFor s b h regs = .done s := by
  unfold settleFor
  cases e : (s.hammer b h).load with
  | none => rfl
  | some x =>
    have : regs.contains (x.dst.target % 16) = false := by
      rw [List.contains_eq_mem]; exact decide_eq_false (hl x e)
    simp only [this]
    rfl

@[simp] theorem hammer_setReg {s : State} {a : Nat} {v : Word} {b h : Nat} : (s.setReg a v).hammer b h = s.hammer b h := rfl
@[simp] theorem reg_setHammer {s : State} {b h a : Nat} {x : Hammer} : (s.setHammer b h x).reg a = s.reg a := rfl

@[simp] theorem hammer_setHammer {s : State} {b h : Nat} {x : Hammer} : (s.setHammer b h x).hammer b h = x := Tbl.get_set_same

theorem setsHammer_self {s : State} {b h : Nat} {x : Hammer} : SetsHammer s (s.setHammer b h x) b h x :=
  ⟨Tbl.get_set_same, fun _ _ hn => Tbl.get_set_other hn, rfl⟩

theorem SetsHammer.again {s t : State} {b h : Nat} {x y : Hammer} (k : SetsHammer s t b h x) :
    SetsHammer s (t.setHammer b h y) b h y :=
  ⟨Tbl.get_set_same, fun b' h' hn => (Tbl.get_set_other hn).trans (k.2.1 b' h' hn), by rw [k.2.2]; rfl⟩

/-- At a boundary that nothing waits for, nothing happens. -/
theorem atBoundary_calm {s : State} {b h : Nat} (hc : (s.hammer b h).calm) : atBoundary s b h = s := by
  unfold atBoundary
  rw [hc.2.1]
  dsimp only
  rw [hc.1]
  rfl

/-- What the hammer is when its instruction begins to act. -/
theorem setPc_past {s : State} {u : HAt} :
    setPc s u.b u.h ((s.hammer u.b u.h).pc + u.words) = s.setHammer u.b u.h (past s u) := rfl

/-- The issue of an instruction that is done at once. -/
theorem hIssue_done {s : State} {u : HAt} {op : HOp} {t : State} (hi : Issues s u op.regs)
    (e : opRun (s.setHammer u.b u.h (past s u)) u.b u.h (s.hammer u.b u.h).pc u.words op = .done t)
    (hc : (t.hammer u.b u.h).calm) (ht : stepsAsked t = []) : hIssue u op s = t := by
  obtain ⟨h1, h2, h3, _, h4⟩ := hi
  unfold hIssue
  simp only [h1, h2, Bool.true_and, decide_true, if_true]
  unfold issueHere issueAt
  dsimp only
  rw [settleFor_none h4]
  simp only [Issue.andThen, setPc_past]
  rw [e]
  exact (congrArg settleSteps (atBoundary_calm hc)).trans (settleSteps_none ht)

theorem hIssue_trap {s : State} {u : HAt} {op : HOp} {t : State} (hi : Issues s u op.regs)
    (e : opRun (s.setHammer u.b u.h (past s u)) u.b u.h (s.hammer u.b u.h).pc u.words op = .trap t)
    (hc : (t.hammer u.b u.h).calm) (ht : stepsAsked t = []) : hIssue u op s = t := by
  obtain ⟨h1, h2, h3, _, h4⟩ := hi
  unfold hIssue
  simp only [h1, h2, Bool.true_and, decide_true, if_true]
  unfold issueHere issueAt
  dsimp only
  rw [settleFor_none h4]
  simp only [Issue.andThen, setPc_past]
  rw [e]
  exact (congrArg settleSteps (atBoundary_calm hc)).trans (settleSteps_none ht)

/-- What an instruction's own record keeps, if it asks for no step and for nothing at the boundary. -/
def Hammer.asked (x : Hammer) :
    Bool × Bool × Option (Nat × Option (Nat × HWord)) × Option (Nat × Bool × Bool) :=
  (x.stepReq, x.haltAsk, x.trapDue, x.failing)

theorem calm_of {s : State} {u : HAt} {regs : List Nat} {y : Hammer} (hi : Issues s u regs)
    (hy : y.asked = (past s u).asked) : y.calm := by
  simp only [Hammer.asked, Prod.mk.injEq] at hy
  exact ⟨hy.2.1.trans hi.2.2.2.1.1, hy.2.2.1.trans hi.2.2.2.1.2.1, hy.2.2.2.trans hi.2.2.2.1.2.2⟩

theorem past_stepReq {s : State} {u : HAt} (hs : stepsAsked s = []) : (past s u).stepReq = false :=
  stepReq_false (b := u.b) (h := u.h) hs

/-- An instruction that changes the hammer's own record only. -/
theorem runs_onHammer {c : Instr} {s : State} {u : HAt} {op : HOp} {f : Hammer → Hammer}
    (hc : Sys2Proof.Machine.exec c s = .next (hIssue u op s)) (hi : Issues s u op.regs)
    (e : ∀ r : State, opRun r u.b u.h (s.hammer u.b u.h).pc u.words op = onHammer r u.b u.h f)
    (hf : (f (past s u)).asked = (past s u).asked) : Runs c s u (f (past s u)) := by
  refine ⟨_, hc, ?_⟩
  have e1 := e (s.setHammer u.b u.h (past s u))
  unfold onHammer at e1
  rw [hammer_setHammer] at e1
  rw [hIssue_done hi e1 (by rw [hammer_setHammer]; exact calm_of hi hf)
    (stepsAsked_setHammer (stepsAsked_setHammer hi.2.2.1 (past_stepReq hi.2.2.1))
      ((congrArg Prod.fst hf).trans (past_stepReq hi.2.2.1)))]
  exact setsHammer_self.again

theorem trapEnter_sets {s : State} {b h cause pc : Nat} (ht : (s.hammer b h).trapAct = false) :
    trapEnter s b h cause pc =
      (s.setHammer b h
        { s.hammer b h with
            trapAct := true, ie := false, pc := (vbase s b h + 4 * cause) % 2 ^ 14, run := .running, wait := none,
            rptLeft := 0, trapDue := none }).setReg (haddr b h 0x2C)
        (wd ((s.hammer b h).sp * 2 ^ 20 + cause * 2 ^ 16 + (stackWord (s.hammer b h).sm (s.hammer b h).ie pc).toNat)) := by
  unfold trapEnter
  simp only [ht]
  rfl

/-- An instruction that ends in a trap (R217). -/
theorem trapsAt_of {c : Instr} {s : State} {u : HAt} {op : HOp} {cause pc : Nat}
    (hc : Sys2Proof.Machine.exec c s = .next (hIssue u op s)) (hi : Issues s u op.regs)
    (ht : (s.hammer u.b u.h).trapAct = false)
    (e : opRun (s.setHammer u.b u.h (past s u)) u.b u.h (s.hammer u.b u.h).pc u.words op =
      .trap (trapEnter (s.setHammer u.b u.h (past s u)) u.b u.h cause pc)) : TrapsAt c s u.b u.h cause pc := by
  rw [trapEnter_sets (by rw [hammer_setHammer]; exact ht), hammer_setHammer] at e
  have hs : stepsAsked (s.setHammer u.b u.h (past s u)) = [] := stepsAsked_setHammer hi.2.2.1 (past_stepReq hi.2.2.1)
  refine ⟨_, hc, ?_⟩
  rw [hIssue_trap hi e (by rw [hammer_setReg, hammer_setHammer]; exact ⟨hi.2.2.2.1.1, rfl, hi.2.2.2.1.2.2⟩)
    (stepsAsked_setReg (stepsAsked_setHammer hs (past_stepReq (u := u) hi.2.2.1)))]
  refine ⟨⟨?_, ?_⟩, ?_, ?_, rfl⟩
  · rw [hammer_setReg, hammer_setHammer]
    have h1 : (past s u).run = .running := hi.2.1
    have h2 : (past s u).trapDue = none := hi.2.2.2.1.2.1
    rw [← h1, ← h2]
    rfl
  · intro b' h' hn
    rw [hammer_setReg, State.hammer_setHammer_other (h := hn), State.hammer_setHammer_other (h := hn)]
  · rw [State.reg_setReg_same, stackWord, BitVec.toNat_ofNat]
    rfl
  · intro a ha
    rw [State.reg_setReg_other (h := ha)]
    rfl

/-- An instruction that is done with the hammer's own record changed to `y`. -/
theorem runs_done {c : Instr} {s : State} {u : HAt} {op : HOp} {y : Hammer}
    (hc : Sys2Proof.Machine.exec c s = .next (hIssue u op s)) (hi : Issues s u op.regs)
    (e : opRun (s.setHammer u.b u.h (past s u)) u.b u.h (s.hammer u.b u.h).pc u.words op =
      .done ((s.setHammer u.b u.h (past s u)).setHammer u.b u.h y))
    (hy : y.asked = (past s u).asked) : Runs c s u y := by
  refine ⟨_, hc, ?_⟩
  rw [hIssue_done hi e (by rw [hammer_setHammer]; exact calm_of hi hy)
    (stepsAsked_setHammer (stepsAsked_setHammer hi.2.2.1 (past_stepReq hi.2.2.1))
      ((congrArg Prod.fst hy).trans (past_stepReq hi.2.2.1)))]
  exact setsHammer_self.again

/-- An instruction that is done in a state that differs in the hammer only. -/
theorem runs_any {c : Instr} {s t : State} {u : HAt} {op : HOp} {y : Hammer}
    (hc : Sys2Proof.Machine.exec c s = .next (hIssue u op s)) (hi : Issues s u op.regs)
    (e : opRun (s.setHammer u.b u.h (past s u)) u.b u.h (s.hammer u.b u.h).pc u.words op = .done t)
    (hy : y.calm) (ht : stepsAsked t = []) (k : SetsHammer s t u.b u.h y) : Runs c s u y :=
  ⟨_, hc, (hIssue_done hi e (k.1.symm ▸ hy) ht).symm ▸ k⟩

theorem afterStores_none {s : State} {b h : Nat} (h1 : (s.hammer b h).stores = []) (h2 : commitStalled s b h = false) :
    afterStores s b h = .done s := by
  have e : settleStores (s.hammer b h).stores.length s b h = s := by rw [h1]; rfl
  unfold afterStores
  rw [e]
  unfold storesDone
  dsimp only
  rw [h1, h2]
  rfl

theorem settleLoad_none {s : State} {b h : Nat} (h1 : (s.hammer b h).load = none) : settleLoad s b h = .done s := by
  unfold settleLoad
  rw [h1]

/-- A data address below 0x2000 lies in the banks (R198). -/
theorem regionOf_bank {s : State} {b h : Nat} {x : HWord} (hx : x.toNat < 0x2000) : regionOf s b h x = .bank x.toNat := by
  unfold regionOf
  exact if_pos hx

/-- A data address from 0x2000 to 0x7FFF lies in the hearth window (R198, R201). -/
theorem regionOf_hearth {s : State} {b h : Nat} {x : HWord} (h1 : 0x2000 ≤ x.toNat) (h2 : x.toNat < 0x8000) :
    regionOf s b h x = .hearth ((fld (s.reg (haddr b h 0x10)) 6 0 * 16384 + 2 * (x.toNat - 0x2000)) % hearthSize) := by
  unfold regionOf
  exact (if_neg (Nat.not_lt.mpr h1)).trans (if_pos h2)

/-- An instruction that is done and has changed nothing but the PC. -/
theorem runs_same {c : Instr} {s : State} {u : HAt} {op : HOp}
    (hc : Sys2Proof.Machine.exec c s = .next (hIssue u op s)) (hi : Issues s u op.regs)
    (e : opRun (s.setHammer u.b u.h (past s u)) u.b u.h (s.hammer u.b u.h).pc u.words op =
      .done (s.setHammer u.b u.h (past s u))) : Runs c s u (past s u) := by
  refine ⟨_, hc, ?_⟩
  rw [hIssue_done hi e (by rw [hammer_setHammer]; exact calm_of hi rfl)
    (stepsAsked_setHammer hi.2.2.1 (past_stepReq hi.2.2.1))]
  exact setsHammer_self

@[simp] theorem Hammer.reg_setReg_same {y : Hammer} {g : Nat} {v : HWord} : (y.setReg g v).reg g = v := Tbl.get_set_same

theorem Hammer.reg_setReg_other {y : Hammer} {g k : Nat} {v : HWord} (h : k % 16 ≠ g % 16) :
    (y.setReg g v).reg k = y.reg k := Tbl.get_set_other h

theorem Opd_val {x : Opd} {y : Hammer} : opd y x = x.val y := by cases x <;> rfl

/-- A register operation (R233). -/
theorem runs_alu {c : Instr} {s : State} {u : HAt} {f : AluOp} {gd : Nat} {x : Opd}
    (hc : Sys2Proof.Machine.exec c s = .next (hIssue u (.alu f gd x) s)) (hi : Issues s u (gd :: Opd.regs x)) :
    Runs c s u ((past s u).setReg gd (aluValue f ((past s u).reg gd) (x.val (past s u)))) := by
  rw [← Opd_val]
  exact runs_onHammer (op := .alu f gd x) (f := fun y => y.setReg gd (aluValue f (y.reg gd) (opd y x))) hc hi
    (fun _ => rfl) rfl

end Sys2Proof.Machine
end

