-- ==== Sys2Proof/Laws/Kept.lean ====
section
/-! SUPPORT. `Kept` for the shapes that meanings are built from: record updates, folds, pairs, and the memory operations.
The files beside it say of every operation, once, that it keeps what `Kept` names. -/

namespace Sys2Proof.Machine

theorem Kept.refl {s : State} (h : Inv s) : Kept s s := ⟨rfl, rfl, rfl, rfl, h⟩

/-- Only what `Kept` names matters. -/
theorem Kept.same {r s t : State} (h : Kept r s) (h1 : t.variant = s.variant) (h2 : t.pending = s.pending)
    (h3 : t.otp = s.otp) (h4 : t.flash = s.flash) (h5 : t.gddr = s.gddr) (h6 : t.hearth = s.hearth)
    (h7 : t.beam.phase = s.beam.phase) : Kept r t := by
  obtain ⟨a, b, c, d, e, f, g⟩ := h
  exact ⟨h1.trans a, h2.trans b, h3.trans c, h4.trans d, by rw [h5]; exact e, by rw [h6]; exact f, by rw [h7]; exact g⟩

/-- The first component of a pair known by an equation. -/
theorem Kept.fst {α : Type} {r s : State} {p : State × α} {a : α} (e : p = (s, a)) (h : Kept r p.1) : Kept r s := by
  rw [e] at h
  exact h

theorem Kept.foldl {α : Type} {r : State} {g : State → α → State} {l : List α} {s : State}
    (hg : ∀ s e, Kept r s → Kept r (g s e)) (h : Kept r s) : Kept r (l.foldl g s) := by
  induction l generalizing s with
  | nil => exact h
  | cons e l ih => exact ih (hg s e h)

theorem Kept.foldlFst {α β : Type} {r : State} {g : State × β → α → State × β} {l : List α} {p : State × β}
    (hg : ∀ p e, Kept r p.1 → Kept r (g p e).1) (h : Kept r p.1) : Kept r (l.foldl g p).1 := by
  induction l generalizing p with
  | nil => exact h
  | cons e l ih => exact ih (hg p e h)

theorem State.eachBillet_kept {r s : State} {f : State → Nat → State} (hf : ∀ s b, Kept r s → Kept r (f s b))
    (h : Kept r s) : Kept r (s.eachBillet f) := Kept.foldl hf h

theorem ite_kept {r s t : State} {c : Prop} [Decidable c] (h1 : Kept r s) (h2 : Kept r t) :
    Kept r (if c then s else t) := by
  split
  · exact h1
  · exact h2

/-! ### Answers of the hammers' accesses -/

/-- The state a read leaves. -/
def WordRead.state : WordRead → State
  | .val s _ => s
  | .err s _ => s
  | .stop r => r.state

theorem Kept.done {r s : State} (h : Kept r s) : Kept r (Issue.done s).state := h
theorem Kept.stall {r s : State} (h : Kept r s) : Kept r (Issue.stall s).state := h
theorem Kept.trap {r s : State} (h : Kept r s) : Kept r (Issue.trap s).state := h
theorem Kept.val {r s : State} {v : HWord} (h : Kept r s) : Kept r (WordRead.val s v).state := h
theorem Kept.err {r s : State} {m : Bool} (h : Kept r s) : Kept r (WordRead.err s m).state := h
theorem Kept.stop {r : State} {x : Issue} (h : Kept r x.state) : Kept r (WordRead.stop x).state := h

theorem Kept.issue {r s : State} {x : Issue} (e : x = .done s) (h : Kept r x.state) : Kept r s := by
  rw [e] at h
  exact h

theorem Kept.issueStall {r s : State} {x : Issue} (e : x = .stall s) (h : Kept r x.state) : Kept r s := by
  rw [e] at h
  exact h

theorem Kept.issueTrap {r s : State} {x : Issue} (e : x = .trap s) (h : Kept r x.state) : Kept r s := by
  rw [e] at h
  exact h

theorem Kept.read {r s : State} {v : HWord} {x : WordRead} (e : x = .val s v) (h : Kept r x.state) : Kept r s := by
  rw [e] at h
  exact h

theorem Kept.readErr {r s : State} {m : Bool} {x : WordRead} (e : x = .err s m) (h : Kept r x.state) : Kept r s := by
  rw [e] at h
  exact h

theorem Kept.readStop {r : State} {y : Issue} {x : WordRead} (e : x = .stop y) (h : Kept r x.state) : Kept r y.state := by
  rw [e] at h
  exact h

theorem Issue.andThen_kept {r : State} {x : Issue} {f : State → Issue} (hf : ∀ s, Kept r s → Kept r (f s).state)
    (h : Kept r x.state) : Kept r (x.andThen f).state := by
  cases x with
  | done s => exact hf s h
  | stall s => exact h
  | trap s => exact h

/-! ### Memories -/

theorem Kept.gddr {r s : State} {m : List Host.Cell} (h : Kept r s) (hm : Memory.wf s.gddr = true → Memory.wf m = true) :
    Kept r { s with gddr := m } := ⟨h.1, h.2.1, h.2.2.1, h.2.2.2.1, hm h.2.2.2.2.1, h.2.2.2.2.2⟩

theorem Kept.hearth {r s : State} {m : List Host.Cell} (h : Kept r s)
    (hm : Memory.wf s.hearth = true → Memory.wf m = true) : Kept r { s with hearth := m } :=
  ⟨h.1, h.2.1, h.2.2.1, h.2.2.2.1, h.2.2.2.2.1, hm h.2.2.2.2.2.1, h.2.2.2.2.2.2⟩

theorem Kept.beam {r s : State} {b : Beam} (h : Kept r s) (hb : b.phase < 4) : Kept r { s with beam := b } :=
  ⟨h.1, h.2.1, h.2.2.1, h.2.2.2.1, h.2.2.2.2.1, h.2.2.2.2.2.1, hb⟩

theorem Kept.phase {r s : State} (h : Kept r s) : s.beam.phase < 4 := h.2.2.2.2.2.2

theorem memSet_wf {m : List Host.Cell} {a : Nat} {v : Byte} (h : Memory.wf m = true) : Memory.wf (memSet m a v) = true :=
  Tbl.wf_set h

theorem memSets_wf {m : List Host.Cell} {a : Nat} {vs : List Byte} (h : Memory.wf m = true) :
    Memory.wf (memSets m a vs) = true := Tbl.wf_setRun h

theorem memSetWord_wf {m : List Host.Cell} {a : Nat} {v : Word} (h : Memory.wf m = true) :
    Memory.wf (memSetWord m a v) = true := memSets_wf h

theorem gwriteList_wf {s : State} {a : Nat} {vs : List Byte} {m : List Host.Cell} (h : Memory.wf m = true) :
    Memory.wf (gwriteList s a vs m) = true := by
  induction vs generalizing a m with
  | nil => exact h
  | cons v vs ih =>
    unfold gwriteList
    split
    · exact ih (memSet_wf h)
    · exact ih h

theorem hwriteList_wf {e b a : Nat} {vs : List Byte} {m : List Host.Cell} (h : Memory.wf m = true) :
    Memory.wf (hwriteList e b a vs m) = true := by
  induction vs generalizing a m with
  | nil => exact h
  | cons v vs ih => exact ih (memSet_wf h)

theorem State.gwrite_kept {r s : State} {a : Nat} {vs : List Byte} (h : Kept r s) : Kept r (s.gwrite a vs) :=
  ⟨h.1, h.2.1, h.2.2.1, h.2.2.2.1, gwriteList_wf h.2.2.2.2.1, h.2.2.2.2.2⟩

theorem State.hwrite_kept {r s : State} {b a : Nat} {vs : List Byte} (h : Kept r s) : Kept r (s.hwrite b a vs) :=
  ⟨h.1, h.2.1, h.2.2.1, h.2.2.2.1, h.2.2.2.2.1, hwriteList_wf h.2.2.2.2.2.1, h.2.2.2.2.2.2⟩

theorem freeTbl_wf {α : Type} [DecidableEq α] {d : Nat → α} {mk : Nat → α} {p : Nat → Bool} {m : Tbl α} {n : Nat}
    (h : Tbl.wf d m = true) : Tbl.wf d (freeTbl d mk p m n).1 = true := by
  unfold freeTbl
  generalize m.filter (fun kv => p kv.1) = l
  induction l generalizing m n with
  | nil => exact h
  | cons e l ih => exact ih (Tbl.wf_set h)

end Sys2Proof.Machine
end

