-- ==== Sys2Proof/Laws/KeptOps.lean ====
section
/-! SUPPORT. What the operations of Machine/Ops.lean keep. -/

namespace Sys2Proof.Machine

theorem State.setReg_kept {ρ : State} {s : State} {a : ℕ} {v : Word} (hk : Kept ρ s) :
    Kept ρ (State.setReg s a v) := by
  unfold State.setReg
  try dsimp only
  repeat' (first
    | with_reducible assumption
    | with_reducible refine Kept.fst (by assumption) ?_
    | (unfold Kept Inv; dsimp only; refine (show Kept _ _ from ?_); with_reducible assumption)
    )

theorem State.setBreg_kept {ρ : State} {s : State} {b : ℕ} {off : ℕ} {v : Word} (hk : Kept ρ s) :
    Kept ρ (State.setBreg s b off v) := by
  unfold State.setBreg
  try dsimp only
  repeat' (first
    | with_reducible assumption
    | with_reducible apply State.setReg_kept
    )

theorem State.orReg_kept {ρ : State} {s : State} {a : ℕ} {m : ℕ} (hk : Kept ρ s) :
    Kept ρ (State.orReg s a m) := by
  unfold State.orReg
  try dsimp only
  repeat' (first
    | with_reducible assumption
    | with_reducible apply State.setReg_kept
    )

theorem State.clrReg_kept {ρ : State} {s : State} {a : ℕ} {m : ℕ} (hk : Kept ρ s) :
    Kept ρ (State.clrReg s a m) := by
  unfold State.clrReg
  try dsimp only
  repeat' (first
    | with_reducible assumption
    | with_reducible apply State.setReg_kept
    )

theorem State.addReg_kept {ρ : State} {s : State} {a : ℕ} {n : ℕ} (hk : Kept ρ s) :
    Kept ρ (State.addReg s a n) := by
  unfold State.addReg
  try dsimp only
  repeat' (first
    | with_reducible assumption
    | with_reducible apply State.setReg_kept
    )

theorem State.setRf_kept {ρ : State} {s : State} {a : ℕ} {hi : ℕ} {lo : ℕ} {n : ℕ} (hk : Kept ρ s) :
    Kept ρ (State.setRf s a hi lo n) := by
  unfold State.setRf
  try dsimp only
  repeat' (first
    | with_reducible assumption
    | with_reducible apply State.setReg_kept
    )

theorem State.addRf_kept {ρ : State} {s : State} {a : ℕ} {hi : ℕ} {lo : ℕ} {n : ℕ} (hk : Kept ρ s) :
    Kept ρ (State.addRf s a hi lo n) := by
  unfold State.addRf
  try dsimp only
  repeat' (first
    | with_reducible assumption
    | with_reducible apply State.setRf_kept
    )

theorem State.takeEffect_kept {ρ : State} {s : State} {a : ℕ} (hk : Kept ρ s) :
    Kept ρ (State.takeEffect s a) := by
  unfold State.takeEffect
  try dsimp only
  repeat' (first
    | with_reducible assumption
    | with_reducible refine Kept.fst (by assumption) ?_
    | (unfold Kept Inv; dsimp only; refine (show Kept _ _ from ?_); with_reducible assumption)
    )

theorem State.nextFree_kept {ρ : State} {s : State} (hk : Kept ρ s) :
    Kept ρ (State.nextFree s) := by
  unfold State.nextFree
  try dsimp only
  repeat' (first
    | with_reducible assumption
    | with_reducible refine Kept.fst (by assumption) ?_
    | (unfold Kept Inv; dsimp only; refine (show Kept _ _ from ?_); with_reducible assumption)
    )

theorem State.setPort_kept {ρ : State} {s : State} {b : ℕ} {p : ℕ} {x : Port} (hk : Kept ρ s) :
    Kept ρ (State.setPort s b p x) := by
  unfold State.setPort
  try dsimp only
  repeat' (first
    | with_reducible assumption
    | with_reducible refine Kept.fst (by assumption) ?_
    | (unfold Kept Inv; dsimp only; refine (show Kept _ _ from ?_); with_reducible assumption)
    )

theorem State.setCursor_kept {ρ : State} {s : State} {b : ℕ} {p : ℕ} {x : Cursor} (hk : Kept ρ s) :
    Kept ρ (State.setCursor s b p x) := by
  unfold State.setCursor
  try dsimp only
  repeat' (first
    | with_reducible assumption
    | with_reducible refine Kept.fst (by assumption) ?_
    | (unfold Kept Inv; dsimp only; refine (show Kept _ _ from ?_); with_reducible assumption)
    )

theorem State.setHammer_kept {ρ : State} {s : State} {b : ℕ} {h : ℕ} {x : Hammer} (hk : Kept ρ s) :
    Kept ρ (State.setHammer s b h x) := by
  unfold State.setHammer
  try dsimp only
  repeat' (first
    | with_reducible assumption
    | with_reducible refine Kept.fst (by assumption) ?_
    | (unfold Kept Inv; dsimp only; refine (show Kept _ _ from ?_); with_reducible assumption)
    )

theorem State.setSrc_kept {ρ : State} {s : State} {b : ℕ} {id : ℕ} {x : IrqSrc} (hk : Kept ρ s) :
    Kept ρ (State.setSrc s b id x) := by
  unfold State.setSrc
  try dsimp only
  repeat' (first
    | with_reducible assumption
    | with_reducible refine Kept.fst (by assumption) ?_
    | (unfold Kept Inv; dsimp only; refine (show Kept _ _ from ?_); with_reducible assumption)
    )

theorem State.setSlot_kept {ρ : State} {s : State} {b : ℕ} {h : ℕ} {l : ℕ} {x : Slot} (hk : Kept ρ s) :
    Kept ρ (State.setSlot s b h l x) := by
  unfold State.setSlot
  try dsimp only
  repeat' (first
    | with_reducible assumption
    | with_reducible refine Kept.fst (by assumption) ?_
    | (unfold Kept Inv; dsimp only; refine (show Kept _ _ from ?_); with_reducible assumption)
    )

theorem State.hspoil_kept {ρ : State} {s : State} {b : ℕ} {off : ℕ} (hk : Kept ρ s) :
    Kept ρ (State.hspoil s b off) := by
  unfold State.hspoil
  try dsimp only
  repeat' (first
    | with_reducible assumption
    | with_reducible refine Kept.fst (by assumption) ?_
    | (unfold Kept Inv; dsimp only; refine (show Kept _ _ from ?_); with_reducible assumption)
    )

theorem State.latch_kept {ρ : State} {s : State} {who : Who} {b : ℕ} {a : ℕ} {v : Word} (hk : Kept ρ s) :
    Kept ρ (State.latch s who b a v) := by
  unfold State.latch
  try dsimp only
  repeat' (first
    | with_reducible assumption
    | with_reducible refine Kept.fst (by assumption) ?_
    | (unfold Kept Inv; dsimp only; refine (show Kept _ _ from ?_); with_reducible assumption)
    )

end Sys2Proof.Machine
end

