-- ==== Sys2Proof/Laws/KeptVideo.lean ====
section
/-! SUPPORT. What the operations of Machine/Video.lean keep. -/

namespace Sys2Proof.Machine

theorem State.setVideo_kept {ρ : State} {s : State} {b : ℕ} {n : ℕ} {x : Video} (hk : Kept ρ s) :
    Kept ρ (State.setVideo s b n x) := by
  unfold State.setVideo
  try dsimp only
  repeat' (first
    | with_reducible assumption
    | with_reducible refine Kept.fst (by assumption) ?_
    | (unfold Kept Inv; dsimp only; refine (show Kept _ _ from ?_); with_reducible assumption)
    )

theorem vidBufstat_kept {ρ : State} {s : State} {b : ℕ} {n : ℕ} (hk : Kept ρ s) :
    Kept ρ (vidBufstat s b n) := by
  unfold vidBufstat
  try dsimp only
  repeat' (first
    | with_reducible assumption
    | with_reducible apply State.setReg_kept
    )

theorem handOff_kept {ρ : State} {s : State} {b : ℕ} {n : ℕ} {slot : ℕ} {seq : ℕ} (hk : Kept ρ s) :
    Kept ρ (handOff s b n slot seq) := by
  unfold handOff
  try dsimp only
  repeat' (first
    | with_reducible assumption
    | with_reducible apply State.setVideo_kept
    | with_reducible apply State.addRf_kept
    | with_reducible apply State.orReg_kept
    | with_reducible apply vidBufstat_kept
    | with_reducible refine Kept.fst (by assumption) ?_
    | split
    )

theorem softHandOff_kept {ρ : State} {s : State} {b : ℕ} {n : ℕ} {id : ℕ} {old : Word} {new : Word} (hk : Kept ρ s) :
    Kept ρ (softHandOff s b n id old new) := by
  unfold softHandOff
  try dsimp only
  repeat' (first
    | with_reducible assumption
    | with_reducible apply handOff_kept
    | with_reducible refine Kept.fst (by assumption) ?_
    | split
    )

theorem hardHandOff_kept {ρ : State} {s : State} {b : ℕ} {n : ℕ} {id : ℕ} {v : Word} (hk : Kept ρ s) :
    Kept ρ (hardHandOff s b n id v) := by
  unfold hardHandOff
  try dsimp only
  repeat' (first
    | with_reducible assumption
    | with_reducible apply handOff_kept
    | with_reducible refine Kept.fst (by assumption) ?_
    | split
    )

theorem takeSlot_kept {ρ : State} {s : State} {b : ℕ} {n : ℕ} (hk : Kept ρ s) :
    Kept ρ (takeSlot s b n).1 := by
  unfold takeSlot
  try dsimp only
  repeat' (first
    | with_reducible assumption
    | with_reducible apply vidBufstat_kept
    | with_reducible apply State.setVideo_kept
    | with_reducible refine Kept.fst (by assumption) ?_
    | split
    )

theorem dropSlot_kept {ρ : State} {s : State} {b : ℕ} {n : ℕ} {k : ℕ} (hk : Kept ρ s) :
    Kept ρ (dropSlot s b n k) := by
  unfold dropSlot
  try dsimp only
  repeat' (first
    | with_reducible assumption
    | with_reducible apply vidBufstat_kept
    | with_reducible apply State.setVideo_kept
    | with_reducible refine Kept.fst (by assumption) ?_
    | split
    )

theorem dropFilling_kept {ρ : State} {s : State} {b : ℕ} {n : ℕ} (hk : Kept ρ s) :
    Kept ρ (dropFilling s b n) := by
  unfold dropFilling
  try dsimp only
  repeat' (first
    | with_reducible assumption
    | with_reducible apply dropSlot_kept
    | with_reducible apply Kept.foldl
    | with_reducible apply Kept.foldlFst
    | with_reducible refine Kept.fst (by assumption) ?_
    | split
    | intro _
    )

theorem flipSlots_kept {ρ : State} {s : State} {b : ℕ} {n : ℕ} (hk : Kept ρ s) :
    Kept ρ (flipSlots s b n) := by
  unfold flipSlots
  try dsimp only
  repeat' (first
    | with_reducible assumption
    | with_reducible apply State.setVideo_kept
    | with_reducible apply State.addRf_kept
    | with_reducible apply State.orReg_kept
    | with_reducible refine Kept.fst (by assumption) ?_
    | split
    )

theorem vidFlip_kept {ρ : State} {s : State} {v : View} {n : ℕ} {fmtOk : Bool} {fl : ℕ × ℕ} (hk : Kept ρ s) :
    Kept ρ (vidFlip s v n fmtOk fl) := by
  unfold vidFlip
  try dsimp only
  repeat' (first
    | with_reducible assumption
    | with_reducible apply dropFilling_kept
    | with_reducible apply flipSlots_kept
    | with_reducible apply State.setReg_kept
    | with_reducible apply State.setVideo_kept
    | with_reducible apply vidBufstat_kept
    | with_reducible apply State.orReg_kept
    | with_reducible refine Kept.fst (by assumption) ?_
    | (unfold Kept Inv; dsimp only; refine (show Kept _ _ from ?_); with_reducible apply State.setReg_kept)
    | split
    )

end Sys2Proof.Machine
end

