-- ==== Sys2Proof/Laws/KeptIrq.lean ====
section
/-! SUPPORT. What the operations of Machine/Irq.lean keep. -/

namespace Sys2Proof.Machine

theorem State.setPin_kept {ρ : State} {s : State} {b : ℕ} {n : ℕ} {x : Pin} (hk : Kept ρ s) :
    Kept ρ (State.setPin s b n x) := by
  unfold State.setPin
  try dsimp only
  repeat' (first
    | with_reducible assumption
    | with_reducible refine Kept.fst (by assumption) ?_
    | (unfold Kept Inv; dsimp only; refine (show Kept _ _ from ?_); with_reducible assumption)
    )

theorem State.setPpend_kept {ρ : State} {s : State} {b : ℕ} {h : ℕ} {x : ℕ} (hk : Kept ρ s) :
    Kept ρ (State.setPpend s b h x) := by
  unfold State.setPpend
  try dsimp only
  repeat' (first
    | with_reducible assumption
    | with_reducible refine Kept.fst (by assumption) ?_
    | (unfold Kept Inv; dsimp only; refine (show Kept _ _ from ?_); with_reducible assumption)
    )

theorem raisePrivate_kept {ρ : State} {s : State} {b : ℕ} {h : ℕ} {id : ℕ} (hk : Kept ρ s) :
    Kept ρ (raisePrivate s b h id) := by
  unfold raisePrivate
  try dsimp only
  repeat' (first
    | with_reducible assumption
    | with_reducible apply State.addRf_kept
    | with_reducible apply State.setPpend_kept
    | with_reducible refine Kept.fst (by assumption) ?_
    | split
    )

theorem irqEvent_kept {ρ : State} {s : State} {b : ℕ} {id : ℕ} (hk : Kept ρ s) :
    Kept ρ (irqEvent s b id) := by
  unfold irqEvent
  try dsimp only
  repeat' (first
    | with_reducible assumption
    | with_reducible apply State.setReg_kept
    | with_reducible apply State.addReg_kept
    | with_reducible apply State.setSrc_kept
    | with_reducible refine Kept.fst (by assumption) ?_
    | split
    )

theorem pulseIrq_kept {ρ : State} {s : State} {b : ℕ} {id : ℕ} (hk : Kept ρ s) :
    Kept ρ (pulseIrq s b id) := by
  unfold pulseIrq
  try dsimp only
  repeat' (first
    | with_reducible assumption
    | with_reducible apply irqEvent_kept
    | with_reducible refine Kept.fst (by assumption) ?_
    | split
    )

theorem markWithdrawn_kept {ρ : State} {s : State} {b : ℕ} {id : ℕ} {tb : ℕ} (hk : Kept ρ s) :
    Kept ρ (markWithdrawn s b id tb) := by
  unfold markWithdrawn
  try dsimp only
  repeat' (first
    | with_reducible assumption
    | with_reducible apply State.setSlot_kept
    | with_reducible apply Kept.foldl
    | with_reducible apply Kept.foldlFst
    | with_reducible refine Kept.fst (by assumption) ?_
    | split
    | intro _
    )

theorem irqSense_kept {ρ : State} {s : State} {b : ℕ} {id : ℕ} (hk : Kept ρ s) :
    Kept ρ (irqSense s b id) := by
  unfold irqSense
  try dsimp only
  repeat' (first
    | with_reducible assumption
    | with_reducible apply State.setSrc_kept
    | with_reducible apply irqEvent_kept
    | with_reducible apply markWithdrawn_kept
    | with_reducible refine Kept.fst (by assumption) ?_
    | split
    )

theorem execIrqSourceSense_kept {ρ : State} {b : ℕ} {id : ℕ} {s : State} (hk : Kept ρ s) :
    ∃ s', execIrqSourceSense b id s = .next s' ∧ Kept ρ s' := by
  refine ⟨_, rfl, ?_⟩
  try dsimp only
  repeat' (first
    | with_reducible assumption
    | with_reducible apply irqSense_kept
    | with_reducible refine Kept.fst (by assumption) ?_
    | split
    )

theorem irqExchange_kept {ρ : State} {s : State} {b : ℕ} {id : ℕ} (hk : Kept ρ s) :
    Kept ρ (irqExchange s b id) := by
  unfold irqExchange
  try dsimp only
  repeat' (first
    | with_reducible assumption
    | with_reducible apply State.setSrc_kept
    | with_reducible apply markWithdrawn_kept
    | with_reducible apply Kept.foldl
    | with_reducible apply Kept.foldlFst
    | with_reducible refine Kept.fst (by assumption) ?_
    | (unfold Kept Inv; dsimp only; refine (show Kept _ _ from ?_); split)
    | split
    | intro _
    )

theorem execIrqStateMessage_kept {ρ : State} {b : ℕ} {id : ℕ} {s : State} (hk : Kept ρ s) :
    ∃ s', execIrqStateMessage b id s = .next s' ∧ Kept ρ s' := by
  refine ⟨_, rfl, ?_⟩
  try dsimp only
  repeat' (first
    | with_reducible assumption
    | with_reducible apply irqExchange_kept
    | with_reducible refine Kept.fst (by assumption) ?_
    | split
    )

end Sys2Proof.Machine
end

