-- ==== Sys2Proof/Laws/KeptTally.lean ====
section
/-! SUPPORT. What the operations of Machine/Tally.lean keep. -/

namespace Sys2Proof.Machine

theorem State.setTally_kept {ρ : State} {s : State} {b : ℕ} {k : ℕ} {x : Tally} (hk : Kept ρ s) :
    Kept ρ (State.setTally s b k x) := by
  unfold State.setTally
  try dsimp only
  repeat' (first
    | with_reducible assumption
    | with_reducible refine Kept.fst (by assumption) ?_
    | (unfold Kept Inv; dsimp only; refine (show Kept _ _ from ?_); with_reducible assumption)
    )

theorem tallyCount_kept {ρ : State} {s : State} {b : ℕ} {k : ℕ} (hk : Kept ρ s) :
    Kept ρ (tallyCount s b k) := by
  unfold tallyCount
  try dsimp only
  repeat' (first
    | with_reducible assumption
    | with_reducible apply State.setTally_kept
    | with_reducible apply pulseIrq_kept
    | with_reducible apply State.orReg_kept
    | with_reducible refine Kept.fst (by assumption) ?_
    | split
    )

theorem tallySource_kept {ρ : State} {s : State} {b : ℕ} {src : ℕ} (hk : Kept ρ s) :
    Kept ρ (tallySource s b src) := by
  unfold tallySource
  try dsimp only
  repeat' (first
    | with_reducible assumption
    | with_reducible apply tallyCount_kept
    | with_reducible apply Kept.foldl
    | with_reducible apply Kept.foldlFst
    | with_reducible refine Kept.fst (by assumption) ?_
    | split
    | intro _
    )

theorem tallySnap_kept {ρ : State} {s : State} {b : ℕ} {e : ℕ} (hk : Kept ρ s) :
    Kept ρ (tallySnap s b e) := by
  unfold tallySnap
  try dsimp only
  repeat' (first
    | with_reducible assumption
    | with_reducible apply State.setTally_kept
    | with_reducible apply Kept.foldl
    | with_reducible apply Kept.foldlFst
    | with_reducible refine Kept.fst (by assumption) ?_
    | split
    | intro _
    )

theorem tallyClear_kept {ρ : State} {s : State} {b : ℕ} {k : ℕ} (hk : Kept ρ s) :
    Kept ρ (tallyClear s b k) := by
  unfold tallyClear
  try dsimp only
  repeat' (first
    | with_reducible assumption
    | with_reducible apply State.setTally_kept
    )

theorem execTallyWrap_kept {ρ : State} {b : ℕ} {k : ℕ} {s : State} (hk : Kept ρ s) :
    ∃ s', execTallyWrap b k s = .next s' ∧ Kept ρ s' := by
  refine ⟨_, rfl, ?_⟩
  try dsimp only
  repeat' (first
    | with_reducible assumption
    | with_reducible apply tallyCount_kept
    | with_reducible refine Kept.fst (by assumption) ?_
    | split
    )

theorem execTallyClear_kept {ρ : State} {b : ℕ} {k : ℕ} {s : State} (hk : Kept ρ s) :
    ∃ s', execTallyClear b k s = .next s' ∧ Kept ρ s' := by
  refine ⟨_, rfl, ?_⟩
  try dsimp only
  repeat' (first
    | with_reducible assumption
    | with_reducible apply tallyClear_kept
    | with_reducible refine Kept.fst (by assumption) ?_
    | split
    )

theorem tallyLatch_kept {ρ : State} {s : State} {who : Who} {b : ℕ} {k : ℕ} {snap : Bool} (hk : Kept ρ s) :
    Kept ρ (tallyLatch s who b k snap).1 := by
  unfold tallyLatch
  try dsimp only
  repeat' (first
    | with_reducible assumption
    | with_reducible apply State.latch_kept
    )

theorem execTallyLatchRead_kept {ρ : State} {who : Who} {b : ℕ} {k : ℕ} {snap : Bool} {s : State} (hk : Kept ρ s) :
    ∃ s', execTallyLatchRead who b k snap s = .next s' ∧ Kept ρ s' := by
  refine ⟨_, rfl, ?_⟩
  try dsimp only
  repeat' (first
    | with_reducible assumption
    | with_reducible apply tallyLatch_kept
    | with_reducible refine Kept.fst (by assumption) ?_
    | split
    )

end Sys2Proof.Machine
end

