-- ==== Sys2Proof/Laws/KeptTrigger.lean ====
section
/-! SUPPORT. What the operations of Machine/Trigger.lean keep. -/

namespace Sys2Proof.Machine

theorem State.setTong_kept {ρ : State} {s : State} {b : ℕ} {c : ℕ} {x : Tongs} (hk : Kept ρ s) :
    Kept ρ (State.setTong s b c x) := by
  unfold State.setTong
  try dsimp only
  repeat' (first
    | with_reducible assumption
    | with_reducible refine Kept.fst (by assumption) ?_
    | (unfold Kept Inv; dsimp only; refine (show Kept _ _ from ?_); with_reducible assumption)
    )

theorem tngSignal_kept {ρ : State} {s : State} {b : ℕ} {ty : ℕ} {sel : ℕ} (hk : Kept ρ s) :
    Kept ρ (tngSignal s b ty sel) := by
  unfold tngSignal
  try dsimp only
  repeat' (first
    | with_reducible assumption
    | with_reducible refine Kept.fst (by assumption) ?_
    | (unfold Kept Inv; dsimp only; refine (show Kept _ _ from ?_); with_reducible assumption)
    )

theorem noteDone_kept {ρ : State} {s : State} {b : ℕ} {c : ℕ} (hk : Kept ρ s) :
    Kept ρ (noteDone s b c) := by
  unfold noteDone
  try dsimp only
  repeat' (first
    | with_reducible assumption
    | with_reducible refine Kept.fst (by assumption) ?_
    | (unfold Kept Inv; dsimp only; refine (show Kept _ _ from ?_); with_reducible assumption)
    )

end Sys2Proof.Machine
end

