-- ==== Sys2Proof/Laws/KeptEvents.lean ====
section
/-! SUPPORT. What the operations of Machine/Events.lean keep. -/

namespace Sys2Proof.Machine

theorem State.setSticky_kept {ρ : State} {s : State} {b : ℕ} {h : ℕ} {x : ℕ} (hk : Kept ρ s) :
    Kept ρ (State.setSticky s b h x) := by
  unfold State.setSticky
  try dsimp only
  repeat' (first
    | with_reducible assumption
    | with_reducible refine Kept.fst (by assumption) ?_
    | (unfold Kept Inv; dsimp only; refine (show Kept _ _ from ?_); with_reducible assumption)
    )

theorem stickyAll_kept {ρ : State} {s : State} {b : ℕ} {n : ℕ} (hk : Kept ρ s) :
    Kept ρ (stickyAll s b n) := by
  unfold stickyAll
  try dsimp only
  repeat' (first
    | with_reducible assumption
    | with_reducible apply State.setSticky_kept
    | with_reducible apply Kept.foldl
    | with_reducible apply Kept.foldlFst
    | with_reducible refine Kept.fst (by assumption) ?_
    | split
    | intro _
    )

theorem noteEvent_kept {ρ : State} {s : State} {b : ℕ} {e : ℕ} (hk : Kept ρ s) :
    Kept ρ (noteEvent s b e) := by
  unfold noteEvent
  try dsimp only
  repeat' (first
    | with_reducible assumption
    | with_reducible refine Kept.fst (by assumption) ?_
    | (unfold Kept Inv; dsimp only; refine (show Kept _ _ from ?_); with_reducible assumption)
    )

theorem beamEvent_kept {ρ : State} {s : State} {b : ℕ} {e : ℕ} (hk : Kept ρ s) :
    Kept ρ (beamEvent s b e) := by
  unfold beamEvent
  try dsimp only
  repeat' (first
    | with_reducible assumption
    | with_reducible apply noteEvent_kept
    | with_reducible apply State.orReg_kept
    | with_reducible apply stickyAll_kept
    | with_reducible apply raisePrivate_kept
    | with_reducible apply tallySnap_kept
    | with_reducible apply tallySource_kept
    | with_reducible apply tngSignal_kept
    | with_reducible apply Kept.foldl
    | with_reducible apply Kept.foldlFst
    | with_reducible refine Kept.fst (by assumption) ?_
    | split
    | intro _
    )

theorem pkgEvent_kept {ρ : State} {s : State} {e : ℕ} (hk : Kept ρ s) :
    Kept ρ (pkgEvent s e) := by
  unfold pkgEvent
  try dsimp only
  repeat' (first
    | with_reducible assumption
    | with_reducible apply State.eachBillet_kept
    | with_reducible apply beamEvent_kept
    | with_reducible refine Kept.fst (by assumption) ?_
    | split
    | intro _
    )

end Sys2Proof.Machine
end

