-- ==== Sys2Proof/Laws/KeptStages.lean ====
section
/-! SUPPORT. What the operations of Machine/Stages.lean keep. -/

namespace Sys2Proof.Machine

theorem tuyEvt_kept {ρ : State} {s : State} {m : ℕ} (hk : Kept ρ s) :
    Kept ρ (tuyEvt s m) := by
  unfold tuyEvt
  try dsimp only
  repeat' (first
    | with_reducible assumption
    | with_reducible apply State.orReg_kept
    )

theorem tuySat_kept {ρ : State} {s : State} (hk : Kept ρ s) :
    Kept ρ (tuySat s) := by
  unfold tuySat
  try dsimp only
  repeat' (first
    | with_reducible assumption
    | with_reducible apply tuyEvt_kept
    | with_reducible apply State.addReg_kept
    )

theorem setNodeRaw_kept {ρ : State} {s : State} {i : ℕ} {v : ℤ} (hk : Kept ρ s) :
    Kept ρ (setNodeRaw s i v) := by
  unfold setNodeRaw
  try dsimp only
  repeat' (first
    | with_reducible assumption
    | with_reducible refine Kept.fst (by assumption) ?_
    | (unfold Kept Inv; dsimp only; refine (show Kept _ _ from ?_); with_reducible assumption)
    )

theorem setNode_kept {ρ : State} {s : State} {i : ℕ} {v : ℤ} (hk : Kept ρ s) :
    Kept ρ (setNode s i v) := by
  unfold setNode
  try dsimp only
  repeat' (first
    | with_reducible assumption
    | with_reducible apply setNodeRaw_kept
    | with_reducible apply tuySat_kept
    | with_reducible refine Kept.fst (by assumption) ?_
    | split
    )

theorem progSet_kept {ρ : State} {s : State} {copyB : Bool} {w : ℕ} {v : Word} (hk : Kept ρ s) :
    Kept ρ (progSet s copyB w v) := by
  unfold progSet
  try dsimp only
  repeat' (first
    | with_reducible assumption
    | with_reducible refine Kept.fst (by assumption) ?_
    | (unfold Kept Inv; dsimp only; refine (show Kept _ _ from ?_); with_reducible assumption)
    )

theorem setSlotState'_kept {ρ : State} {s : State} {i : ℕ} {l : List ℤ} (hk : Kept ρ s) :
    Kept ρ (setSlotState' s i l) := by
  unfold setSlotState'
  try dsimp only
  repeat' (first
    | with_reducible assumption
    | with_reducible refine Kept.fst (by assumption) ?_
    | (unfold Kept Inv; dsimp only; refine (show Kept _ _ from ?_); with_reducible assumption)
    )

theorem biquad_kept {ρ : State} {s : State} {i : ℕ} {dst : ℕ} {x : ℤ} {aux : ℕ} (hk : Kept ρ s) :
    Kept ρ (biquad s i dst x aux) := by
  unfold biquad
  try dsimp only
  repeat' (first
    | with_reducible assumption
    | with_reducible apply setSlotState'_kept
    | with_reducible apply setNodeRaw_kept
    | with_reducible apply tuySat_kept
    | with_reducible refine Kept.fst (by assumption) ?_
    | split
    )

theorem follower_kept {ρ : State} {s : State} {i : ℕ} {dst : ℕ} {x : ℤ} {aux : ℕ} (hk : Kept ρ s) :
    Kept ρ (follower s i dst x aux) := by
  unfold follower
  try dsimp only
  repeat' (first
    | with_reducible assumption
    | with_reducible apply setSlotState'_kept
    | with_reducible apply setNodeRaw_kept
    | with_reducible apply tuySat_kept
    | with_reducible refine Kept.fst (by assumption) ?_
    | split
    )

theorem delaySlot_kept {ρ : State} {s : State} {dst : ℕ} {x : ℤ} {g : ℕ} {line : ℕ} (hk : Kept ρ s) :
    Kept ρ (delaySlot s dst x g line) := by
  unfold delaySlot
  try dsimp only
  repeat' (first
    | with_reducible assumption
    | with_reducible apply setNodeRaw_kept
    | with_reducible refine Kept.fst (by assumption) ?_
    | (unfold Kept Inv; dsimp only; refine (show Kept _ _ from ?_); with_reducible assumption)
    | split
    )

theorem runSlot_kept {ρ : State} {s : State} {i : ℕ} (hk : Kept ρ s) :
    Kept ρ (runSlot s i) := by
  unfold runSlot
  try dsimp only
  repeat' (first
    | with_reducible assumption
    | with_reducible apply setNodeRaw_kept
    | with_reducible apply tuySat_kept
    | with_reducible apply setNode_kept
    | with_reducible apply biquad_kept
    | with_reducible apply follower_kept
    | with_reducible apply delaySlot_kept
    | with_reducible refine Kept.fst (by assumption) ?_
    | split
    )

theorem State.setBus_kept {ρ : State} {s : State} {b : ℕ} {x : Bus} (hk : Kept ρ s) :
    Kept ρ (State.setBus s b x) := by
  unfold State.setBus
  try dsimp only
  repeat' (first
    | with_reducible assumption
    | with_reducible refine Kept.fst (by assumption) ?_
    | (unfold Kept Inv; dsimp only; refine (show Kept _ _ from ?_); with_reducible assumption)
    )

theorem silEvent_kept {ρ : State} {s : State} {b : ℕ} {nsil : Bool} (hk : Kept ρ s) :
    Kept ρ (silEvent s b nsil) := by
  unfold silEvent
  try dsimp only
  repeat' (first
    | with_reducible assumption
    | with_reducible apply State.orReg_kept
    )

theorem silence_kept {ρ : State} {s : State} {b : ℕ} {x : Bus} {a : ℕ} (hk : Kept ρ s) :
    Kept ρ (silence s b x a).1 := by
  unfold silence
  try dsimp only
  repeat' (first
    | with_reducible assumption
    | with_reducible apply silEvent_kept
    | with_reducible refine Kept.fst (by assumption) ?_
    | (unfold Kept Inv; dsimp only; refine (show Kept _ _ from ?_); split)
    | split
    )

theorem busFrame_kept {ρ : State} {s : State} {b : ℕ} (hk : Kept ρ s) :
    Kept ρ (busFrame s b) := by
  unfold busFrame
  try dsimp only
  repeat' (first
    | with_reducible assumption
    | with_reducible apply State.setBus_kept
    | with_reducible apply silence_kept
    | with_reducible refine Kept.fst (by assumption) ?_
    | split
    )

theorem busOutputs_kept {ρ : State} {s : State} (hk : Kept ρ s) :
    Kept ρ (busOutputs s) := by
  unfold busOutputs
  try dsimp only
  repeat' (first
    | with_reducible assumption
    | with_reducible apply State.setReg_kept
    | with_reducible apply Kept.foldl
    | with_reducible apply Kept.foldlFst
    | with_reducible refine Kept.fst (by assumption) ?_
    | (unfold Kept Inv; dsimp only; refine (show Kept _ _ from ?_); with_reducible apply State.setReg_kept)
    )

theorem Kept.tuy {ρ s : State} {y : Tuyere} (hk : Kept ρ s) : Kept ρ { s with tuy := y } := hk

theorem tuySlots_kept {ρ : State} {s : State} (hk : Kept ρ s) :
    Kept ρ (tuySlots s) := by
  unfold tuySlots
  dsimp only
  exact Kept.tuy (Kept.foldl (fun _ _ h => runSlot_kept h) hk)

theorem busStage_kept {ρ : State} {s : State} (hk : Kept ρ s) :
    Kept ρ (busStage s) := by
  unfold busStage
  dsimp only
  exact Kept.tuy (busOutputs_kept (Kept.foldl (fun _ _ h => busFrame_kept h) hk))

theorem tuyStages_kept {ρ : State} {s : State} (hk : Kept ρ s) :
    Kept ρ (tuyStages s) := by
  unfold tuyStages
  dsimp only
  split
  · exact hk
  · split
    · exact busStage_kept (tuySlots_kept hk)
    · exact tuySlots_kept hk

end Sys2Proof.Machine
end

