-- ==== Sys2Proof/Laws/KeptTime.lean ====
section
/-! SUPPORT. What the operations of Machine/Time.lean keep. -/

namespace Sys2Proof.Machine

theorem setTickFull_kept {ρ : State} {s : State} {n : ℕ} (hk : Kept ρ s) :
    Kept ρ (setTickFull s n) := by
  unfold setTickFull
  try dsimp only
  repeat' (first
    | with_reducible assumption
    | with_reducible refine Kept.fst (by assumption) ?_
    | (unfold Kept Inv; dsimp only; refine (show Kept _ _ from ?_); with_reducible assumption)
    )

theorem tallyAdd_kept {ρ : State} {s : State} {b : ℕ} {k : ℕ} {n : ℕ} {at' : ℕ} (hk : Kept ρ s) :
    Kept ρ (tallyAdd s b k n at') := by
  unfold tallyAdd
  try dsimp only
  repeat' (first
    | with_reducible assumption
    | with_reducible apply State.setTally_kept
    | with_reducible apply pulseIrq_kept
    | with_reducible apply State.orReg_kept
    | with_reducible refine Kept.fst (by assumption) ?_
    | split
    )

theorem tallyPast_kept {ρ : State} {s : State} {b : ℕ} {src : ℕ} {n : ℕ} {at' : ℕ} (hk : Kept ρ s) :
    Kept ρ (tallyPast s b src n at') := by
  unfold tallyPast
  try dsimp only
  repeat' (first
    | with_reducible assumption
    | with_reducible apply tallyAdd_kept
    | with_reducible apply Kept.foldl
    | with_reducible apply Kept.foldlFst
    | with_reducible refine Kept.fst (by assumption) ?_
    | split
    | intro _
    )

theorem tickCross_kept {ρ : State} {s : State} {old : ℕ} (hk : Kept ρ s) :
    Kept ρ (tickCross s old) := by
  unfold tickCross
  try dsimp only
  repeat' (first
    | with_reducible assumption
    | with_reducible apply State.eachBillet_kept
    | with_reducible apply tallySource_kept
    | with_reducible refine Kept.fst (by assumption) ?_
    | split
    | intro _
    )

theorem passCycles_kept {k : ℕ} {ρ s : State} (hk : Kept ρ s) : Kept ρ (passCycles k s) := by
  unfold passCycles
  dsimp only
  refine tuyStages_kept (State.eachBillet_kept (fun s b h => tallyPast_kept (tallyPast_kept (tallyPast_kept h)))
    (setTickFull_kept ?_))
  exact (hk.beam (Nat.mod_lt _ (by omega) : (beamCycles (lineDotsNow s) k s.beam).phase < 4)).same rfl rfl rfl rfl rfl rfl rfl

theorem passTo_kept {ρ : State} {t : ℕ} {s : State} (hk : Kept ρ s) :
    Kept ρ (passTo t s) := by
  unfold passTo
  try dsimp only
  repeat' (first
    | with_reducible assumption
    | with_reducible apply passCycles_kept
    | with_reducible refine Kept.fst (by assumption) ?_
    | split
    )

end Sys2Proof.Machine
end

