-- ==== Sys2Proof/Laws/KeptCommit.lean ====
section
/-! SUPPORT. What the operations of Machine/Commit.lean keep. -/

namespace Sys2Proof.Machine

theorem countDefer_kept {ρ : State} {s : State} {c : Commit} {off : ℕ} {evt : ℕ} (hk : Kept ρ s) :
    Kept ρ (countDefer s c off evt) := by
  unfold countDefer
  try dsimp only
  repeat' (first
    | with_reducible assumption
    | with_reducible apply State.setRf_kept
    | with_reducible apply State.orReg_kept
    | with_reducible apply State.addReg_kept
    | with_reducible apply Kept.foldl
    | with_reducible apply Kept.foldlFst
    | with_reducible refine Kept.fst (by assumption) ?_
    | split
    | intro _
    )

theorem countLate_kept {ρ : State} {s : State} {c : Commit} (hk : Kept ρ s) :
    Kept ρ (countLate s c) := by
  unfold countLate
  try dsimp only
  repeat' (first
    | with_reducible assumption
    | with_reducible apply countDefer_kept
    )

theorem State.setLive_kept {ρ : State} {s : State} {l : List Commit} (hk : Kept ρ s) :
    Kept ρ (State.setLive s l) := by
  unfold State.setLive
  try dsimp only
  repeat' (first
    | with_reducible assumption
    | with_reducible refine Kept.fst (by assumption) ?_
    | (unfold Kept Inv; dsimp only; refine (show Kept _ _ from ?_); with_reducible assumption)
    )

theorem acceptCommit_kept {ρ : State} {s : State} {id : ℕ} (hk : Kept ρ s) :
    Kept ρ (acceptCommit s id) := by
  unfold acceptCommit
  try dsimp only
  repeat' (first
    | with_reducible assumption
    | with_reducible apply State.setLive_kept
    | with_reducible refine Kept.fst (by assumption) ?_
    | (unfold Kept Inv; dsimp only; refine (show Kept _ _ from ?_); with_reducible apply State.setLive_kept)
    | split
    )

theorem issueCommit_kept {ρ : State} {s : State} {billet : ℕ} {ctx : ℕ} {writes : List CWrite} {target : ℕ × ℕ} {orig : ℕ} {late : Bool} (hk : Kept ρ s) :
    Kept ρ (issueCommit s billet ctx writes target orig late) := by
  unfold issueCommit
  try dsimp only
  repeat' (first
    | with_reducible assumption
    | with_reducible apply acceptCommit_kept
    | with_reducible apply countLate_kept
    | with_reducible refine Kept.fst (by assumption) ?_
    | (unfold Kept Inv; dsimp only; refine (show Kept _ _ from ?_); with_reducible assumption)
    | split
    )

theorem issueFrom_kept {ρ : State} {s : State} {billet : ℕ} {ctx : ℕ} {writes : List CWrite} (hk : Kept ρ s) :
    Kept ρ (issueFrom s billet ctx writes) := by
  unfold issueFrom
  try dsimp only
  repeat' (first
    | with_reducible assumption
    | with_reducible apply issueCommit_kept
    | with_reducible refine Kept.fst (by assumption) ?_
    | split
    )

theorem setHeld_kept {ρ : State} {s : State} {key : ℕ} {l : List CWrite} (hk : Kept ρ s) :
    Kept ρ (setHeld s key l) := by
  unfold setHeld
  try dsimp only
  repeat' (first
    | with_reducible assumption
    | with_reducible refine Kept.fst (by assumption) ?_
    | (unfold Kept Inv; dsimp only; refine (show Kept _ _ from ?_); with_reducible assumption)
    )

theorem setSingle_kept {ρ : State} {s : State} {key : ℕ} {v : Bool} (hk : Kept ρ s) :
    Kept ρ (setSingle s key v) := by
  unfold setSingle
  try dsimp only
  repeat' (first
    | with_reducible assumption
    | with_reducible refine Kept.fst (by assumption) ?_
    | (unfold Kept Inv; dsimp only; refine (show Kept _ _ from ?_); with_reducible assumption)
    )

theorem commitWrite_kept {ρ : State} {s : State} {billet : ℕ} {ctx : ℕ} {w : CWrite} (hk : Kept ρ s) :
    Kept ρ (commitWrite s billet ctx w) := by
  unfold commitWrite
  try dsimp only
  repeat' (first
    | with_reducible assumption
    | with_reducible apply setHeld_kept
    | with_reducible apply issueFrom_kept
    | with_reducible apply setSingle_kept
    | with_reducible apply State.orReg_kept
    | with_reducible refine Kept.fst (by assumption) ?_
    | split
    )

theorem holdOn_kept {ρ : State} {s : State} {b : ℕ} {k : ℕ} (hk : Kept ρ s) :
    Kept ρ (holdOn s b k) := by
  unfold holdOn
  try dsimp only
  repeat' (first
    | with_reducible assumption
    | with_reducible apply setSingle_kept
    | with_reducible apply State.orReg_kept
    )

theorem holdOff_kept {ρ : State} {s : State} {b : ℕ} {k : ℕ} (hk : Kept ρ s) :
    Kept ρ (holdOff s b k) := by
  unfold holdOff
  try dsimp only
  repeat' (first
    | with_reducible assumption
    | with_reducible apply setSingle_kept
    | with_reducible apply setHeld_kept
    | with_reducible apply State.clrReg_kept
    | with_reducible apply issueFrom_kept
    | with_reducible refine Kept.fst (by assumption) ?_
    | split
    )

theorem execCommitHold_kept {ρ : State} {b : ℕ} {k : ℕ} {s : State} (hk : Kept ρ s) :
    ∃ s', execCommitHold b k s = .next s' ∧ Kept ρ s' := by
  refine ⟨_, rfl, ?_⟩
  try dsimp only
  repeat' (first
    | with_reducible assumption
    | with_reducible apply holdOn_kept
    | with_reducible refine Kept.fst (by assumption) ?_
    | split
    )

theorem execCommitGroupIssue_kept {ρ : State} {b : ℕ} {k : ℕ} {s : State} (hk : Kept ρ s) :
    ∃ s', execCommitGroupIssue b k s = .next s' ∧ Kept ρ s' := by
  refine ⟨_, rfl, ?_⟩
  try dsimp only
  repeat' (first
    | with_reducible assumption
    | with_reducible apply holdOff_kept
    | with_reducible refine Kept.fst (by assumption) ?_
    | split
    )

theorem lineCommit_kept {ρ : State} {s : State} {who : Who} {addr : ℕ} {v : Word} (hk : Kept ρ s) :
    Kept ρ (lineCommit s who addr v) := by
  unfold lineCommit
  try dsimp only
  repeat' (first
    | with_reducible assumption
    | with_reducible apply commitWrite_kept
    | with_reducible refine Kept.fst (by assumption) ?_
    | split
    )

theorem execLineCommitIssue_kept {ρ : State} {who : Who} {addr : ℕ} {v : Word} {s : State} (hk : Kept ρ s) :
    ∃ s', execLineCommitIssue who addr v s = .next s' ∧ Kept ρ s' := by
  refine ⟨_, rfl, ?_⟩
  try dsimp only
  repeat' (first
    | with_reducible assumption
    | with_reducible apply lineCommit_kept
    )

theorem hostErr_kept {ρ : State} {s : State} {i : ℕ} {addr : ℕ} (hk : Kept ρ s) :
    Kept ρ (hostErr s i addr) := by
  unfold hostErr
  try dsimp only
  repeat' (first
    | with_reducible assumption
    | with_reducible apply State.setReg_kept
    | with_reducible apply State.orReg_kept
    )

theorem immediateBits_kept {ρ : State} {s : State} {addr : ℕ} {v : Word} (hk : Kept ρ s) :
    Kept ρ (immediateBits s addr v) := by
  unfold immediateBits
  try dsimp only
  repeat' (first
    | with_reducible assumption
    | with_reducible apply State.setReg_kept
    | with_reducible refine Kept.fst (by assumption) ?_
    | split
    )

theorem aliasWrite_kept {ρ : State} {s : State} {who : Who} {off : ℕ} {v : Word} (hk : Kept ρ s) :
    Kept ρ (aliasWrite s who off v) := by
  unfold aliasWrite
  try dsimp only
  repeat' (first
    | with_reducible assumption
    | with_reducible apply hostErr_kept
    | with_reducible apply State.eachBillet_kept
    | with_reducible apply immediateBits_kept
    | with_reducible apply commitWrite_kept
    | with_reducible refine Kept.fst (by assumption) ?_
    | split
    | intro _
    )

theorem execBroadcastAliasWrite_kept {ρ : State} {who : Who} {off : ℕ} {v : Word} {s : State} (hk : Kept ρ s) :
    ∃ s', execBroadcastAliasWrite who off v s = .next s' ∧ Kept ρ s' := by
  refine ⟨_, rfl, ?_⟩
  try dsimp only
  repeat' (first
    | with_reducible assumption
    | with_reducible apply aliasWrite_kept
    )

theorem execCommitAccept_kept {ρ : State} {id : ℕ} {s : State} (hk : Kept ρ s) :
    ∃ s', execCommitAccept id s = .next s' ∧ Kept ρ s' := by
  refine ⟨_, rfl, ?_⟩
  try dsimp only
  repeat' (first
    | with_reducible assumption
    | with_reducible apply acceptCommit_kept
    )

theorem receiveCommit_kept {ρ : State} {s : State} {id : ℕ} {b : ℕ} {poisoned : Bool} (hk : Kept ρ s) :
    Kept ρ (receiveCommit s id b poisoned) := by
  unfold receiveCommit
  try dsimp only
  repeat' (first
    | with_reducible assumption
    | with_reducible apply State.setLive_kept
    | with_reducible apply State.orReg_kept
    | with_reducible apply State.addReg_kept
    | with_reducible refine Kept.fst (by assumption) ?_
    | split
    )

theorem execCommitReceive_kept {ρ : State} {id : ℕ} {b : ℕ} {poisoned : Bool} {s : State} (hk : Kept ρ s) :
    ∃ s', execCommitReceive id b poisoned s = .next s' ∧ Kept ρ s' := by
  refine ⟨_, rfl, ?_⟩
  try dsimp only
  repeat' (first
    | with_reducible assumption
    | with_reducible apply receiveCommit_kept
    | with_reducible refine Kept.fst (by assumption) ?_
    | split
    )

theorem judgeSeal_kept {ρ : State} {s : State} (hk : Kept ρ s) :
    Kept ρ (judgeSeal s) := by
  unfold judgeSeal
  try dsimp only
  repeat' (first
    | with_reducible assumption
    | with_reducible apply countLate_kept
    | with_reducible apply Kept.foldl
    | with_reducible apply Kept.foldlFst
    | with_reducible refine Kept.fst (by assumption) ?_
    | (unfold Kept Inv; dsimp only; refine (show Kept _ _ from ?_); with_reducible assumption)
    | split
    )

theorem sealLine_kept {ρ : State} {s : State} (hk : Kept ρ s) :
    Kept ρ (sealLine s) := by
  unfold sealLine
  try dsimp only
  repeat' (first
    | with_reducible assumption
    | with_reducible refine Kept.fst (by assumption) ?_
    | (unfold Kept Inv; dsimp only; refine (show Kept _ _ from ?_); with_reducible assumption)
    )

theorem execSeal_kept {ρ : State} {s : State} (hk : Kept ρ s) :
    ∃ s', execSeal s = .next s' ∧ Kept ρ s' := by
  refine ⟨_, rfl, ?_⟩
  try dsimp only
  repeat' (first
    | with_reducible assumption
    | with_reducible apply sealLine_kept
    | with_reducible refine Kept.fst (by assumption) ?_
    | split
    )

theorem sealSet_kept {ρ : State} {s : State} {dst : ℕ} {src : ℕ} (hk : Kept ρ s) :
    Kept ρ (sealSet s dst src) := by
  unfold sealSet
  try dsimp only
  repeat' (first
    | with_reducible assumption
    | with_reducible apply judgeSeal_kept
    | with_reducible refine Kept.fst (by assumption) ?_
    | (unfold Kept Inv; dsimp only; refine (show Kept _ _ from ?_); with_reducible assumption)
    | split
    )

theorem execSealSetReceive_kept {ρ : State} {dst : ℕ} {src : ℕ} {s : State} (hk : Kept ρ s) :
    ∃ s', execSealSetReceive dst src s = .next s' ∧ Kept ρ s' := by
  refine ⟨_, rfl, ?_⟩
  try dsimp only
  repeat' (first
    | with_reducible assumption
    | with_reducible apply sealSet_kept
    | with_reducible refine Kept.fst (by assumption) ?_
    | split
    )

end Sys2Proof.Machine
end

