-- ==== Sys2Proof/Laws/KeptTakeover.lean ====
section
/-! SUPPORT. What the operations of Machine/Takeover.lean keep. -/

namespace Sys2Proof.Machine

theorem setQch_kept {ρ : State} {s : State} {x : Quench} (hk : Kept ρ s) :
    Kept ρ (setQch s x) := by
  unfold setQch
  try dsimp only
  repeat' (first
    | with_reducible assumption
    | with_reducible refine Kept.fst (by assumption) ?_
    | (unfold Kept Inv; dsimp only; refine (show Kept _ _ from ?_); with_reducible assumption)
    )

theorem qchEvt_kept {ρ : State} {s : State} {m : ℕ} (hk : Kept ρ s) :
    Kept ρ (qchEvt s m) := by
  unfold qchEvt
  try dsimp only
  repeat' (first
    | with_reducible assumption
    | with_reducible apply State.orReg_kept
    )

theorem takeTrigger_kept {ρ : State} {s : State} {cause : ℕ} (hk : Kept ρ s) :
    Kept ρ (takeTrigger s cause) := by
  unfold takeTrigger
  try dsimp only
  repeat' (first
    | with_reducible assumption
    | with_reducible apply setQch_kept
    | with_reducible refine Kept.fst (by assumption) ?_
    | split
    )

theorem localFault_kept {ρ : State} {s : State} {i : ℕ} (hk : Kept ρ s) :
    Kept ρ (localFault s i) := by
  unfold localFault
  try dsimp only
  repeat' (first
    | with_reducible assumption
    | with_reducible apply qchEvt_kept
    | with_reducible apply takeTrigger_kept
    | with_reducible refine Kept.fst (by assumption) ?_
    | split
    )

end Sys2Proof.Machine
end

