-- ==== Sys2Proof/Laws/KeptMemory.lean ====
section
/-! SUPPORT. What the operations of Machine/Memory.lean keep. -/

namespace Sys2Proof.Machine

theorem State.setMem_kept {ρ : State} {s : State} {b : ℕ} {x : MemCtl} (hk : Kept ρ s) :
    Kept ρ (State.setMem s b x) := by
  unfold State.setMem
  try dsimp only
  repeat' (first
    | with_reducible assumption
    | with_reducible refine Kept.fst (by assumption) ?_
    | (unfold Kept Inv; dsimp only; refine (show Kept _ _ from ?_); with_reducible assumption)
    )

theorem gddrWithout_wf
    {m : List Host.Cell} {b : Nat} (h : Memory.wf m = true) : Memory.wf (gddrWithout m b) = true := Tbl.wf_filter h

theorem undefineGddr_kept {ρ s : State} {b : Nat} (hk : Kept ρ s) : Kept ρ (undefineGddr s b) :=
  ((State.nextFree_kept hk).gddr gddrWithout_wf).same rfl rfl rfl rfl rfl rfl rfl

theorem memTrain_kept {ρ : State} {s : State} {b : ℕ} (hk : Kept ρ s) :
    Kept ρ (memTrain s b) := by
  unfold memTrain
  try dsimp only
  repeat' (first
    | with_reducible assumption
    | with_reducible apply undefineGddr_kept
    | with_reducible apply State.setMem_kept
    | with_reducible apply State.setReg_kept
    | with_reducible apply State.orReg_kept
    | with_reducible refine Kept.fst (by assumption) ?_
    | split
    )

theorem execMemTrain_kept {ρ : State} {b : ℕ} {s : State} (hk : Kept ρ s) :
    ∃ s', execMemTrain b s = .next s' ∧ Kept ρ s' := by
  refine ⟨_, rfl, ?_⟩
  try dsimp only
  repeat' (first
    | with_reducible assumption
    | with_reducible apply memTrain_kept
    | with_reducible refine Kept.fst (by assumption) ?_
    | split
    )

theorem trainingDone_kept {ρ : State} {s : State} {b : ℕ} {trained : ℕ} {cap : Option Bool} (hk : Kept ρ s) :
    Kept ρ (trainingDone s b trained cap) := by
  unfold trainingDone
  try dsimp only
  repeat' (first
    | with_reducible assumption
    | with_reducible apply State.setMem_kept
    | with_reducible apply State.clrReg_kept
    | with_reducible apply State.setReg_kept
    | with_reducible apply localFault_kept
    | with_reducible apply State.orReg_kept
    | with_reducible refine Kept.fst (by assumption) ?_
    | split
    )

theorem execTrainingDone_kept {ρ : State} {b : ℕ} {trained : ℕ} {cap : Option Bool} {s : State} (hk : Kept ρ s) :
    ∃ s', execTrainingDone b trained cap s = .next s' ∧ Kept ρ s' := by
  refine ⟨_, rfl, ?_⟩
  try dsimp only
  repeat' (first
    | with_reducible assumption
    | with_reducible apply trainingDone_kept
    | with_reducible refine Kept.fst (by assumption) ?_
    | split
    )

theorem eccFillDone_kept {ρ s : State} {b : Nat} (hk : Kept ρ s) : Kept ρ (eccFillDone s b) := by
  unfold eccFillDone
  dsimp only
  split
  · exact hk
  · exact State.clrReg_kept ((State.setMem_kept hk).gddr Tbl.wf_filter)

theorem execEccFillDone_kept {ρ : State} {b : ℕ} {s : State} (hk : Kept ρ s) :
    ∃ s', execEccFillDone b s = .next s' ∧ Kept ρ s' := by
  refine ⟨_, rfl, ?_⟩
  try dsimp only
  repeat' (first
    | with_reducible assumption
    | with_reducible apply eccFillDone_kept
    | with_reducible refine Kept.fst (by assumption) ?_
    | split
    )

theorem retrainStart_kept {ρ : State} {s : State} {b : ℕ} (hk : Kept ρ s) :
    Kept ρ (retrainStart s b) := by
  unfold retrainStart
  try dsimp only
  repeat' (first
    | with_reducible assumption
    | with_reducible apply State.orReg_kept
    | with_reducible apply State.setMem_kept
    )

theorem retrainDone_kept {ρ : State} {s : State} {b : ℕ} (hk : Kept ρ s) :
    Kept ρ (retrainDone s b) := by
  unfold retrainDone
  try dsimp only
  repeat' (first
    | with_reducible assumption
    | with_reducible apply State.setMem_kept
    | with_reducible apply State.clrReg_kept
    | with_reducible refine Kept.fst (by assumption) ?_
    | split
    )

theorem execRetrainComplete_kept {ρ : State} {b : ℕ} {s : State} (hk : Kept ρ s) :
    ∃ s', execRetrainComplete b s = .next s' ∧ Kept ρ s' := by
  refine ⟨_, rfl, ?_⟩
  try dsimp only
  repeat' (first
    | with_reducible assumption
    | with_reducible apply retrainDone_kept
    | with_reducible refine Kept.fst (by assumption) ?_
    | split
    )

theorem retrainCheck_kept {ρ : State} {s : State} {b : ℕ} {n : ℕ} (hk : Kept ρ s) :
    Kept ρ (retrainCheck s b n).1 := by
  unfold retrainCheck
  try dsimp only
  repeat' (first
    | with_reducible assumption
    | with_reducible apply State.setMem_kept
    | with_reducible apply retrainStart_kept
    | with_reducible apply State.orReg_kept
    | with_reducible refine Kept.fst (by assumption) ?_
    | split
    )

theorem arbNewLine_kept {ρ : State} {s : State} {b : ℕ} (hk : Kept ρ s) :
    Kept ρ (arbNewLine s b) := by
  unfold arbNewLine
  try dsimp only
  repeat' (first
    | with_reducible assumption
    | with_reducible apply State.setMem_kept
    | with_reducible apply State.setReg_kept
    | with_reducible apply Kept.foldl
    | with_reducible apply Kept.foldlFst
    | with_reducible refine Kept.fst (by assumption) ?_
    | split
    | intro _
    )

theorem arbEval_kept {ρ : State} {s : State} {b : ℕ} {retrain : Bool} {demand : ℕ} (hk : Kept ρ s) :
    Kept ρ (arbEval s b retrain demand) := by
  unfold arbEval
  try dsimp only
  repeat' (first
    | with_reducible assumption
    | with_reducible apply State.setMem_kept
    | with_reducible apply State.setReg_kept
    | with_reducible apply State.orReg_kept
    | with_reducible apply Kept.foldl
    | with_reducible apply Kept.foldlFst
    | with_reducible refine Kept.fst (by assumption) ?_
    | split
    | intro _
    )

theorem State.setFetchList_kept {ρ : State} {s : State} {b : ℕ} {l : List FetchUnit} (hk : Kept ρ s) :
    Kept ρ (State.setFetchList s b l) := by
  unfold State.setFetchList
  try dsimp only
  repeat' (first
    | with_reducible assumption
    | with_reducible refine Kept.fst (by assumption) ?_
    | (unfold Kept Inv; dsimp only; refine (show Kept _ _ from ?_); with_reducible assumption)
    )

theorem tagNote_kept {ρ : State} {s : State} {b : ℕ} {n : ℕ} (hk : Kept ρ s) :
    Kept ρ (tagNote s b n) := by
  unfold tagNote
  try dsimp only
  repeat' (first
    | with_reducible assumption
    | with_reducible apply State.setReg_kept
    )

theorem tagServe_kept {ρ : State} {s : State} {b : ℕ} (hk : Kept ρ s) :
    Kept ρ (tagServe s b) := by
  unfold tagServe
  try dsimp only
  repeat' (first
    | with_reducible assumption
    | with_reducible apply State.setFetchList_kept
    | with_reducible apply State.setMem_kept
    | with_reducible apply tagNote_kept
    | with_reducible apply State.setRf_kept
    )

theorem tagStall_kept {ρ : State} {s : State} {b : ℕ} (hk : Kept ρ s) :
    Kept ρ (tagStall s b) := by
  unfold tagStall
  try dsimp only
  repeat' (first
    | with_reducible assumption
    | with_reducible apply State.orReg_kept
    | with_reducible apply State.addReg_kept
    )

theorem issueReads_kept {ρ : State} {s : State} {b : ℕ} {req : ℕ} {src : ℕ} {units : List ℕ} (hk : Kept ρ s) :
    Kept ρ (issueReads s b req src units) := by
  unfold issueReads
  try dsimp only
  repeat' (first
    | with_reducible assumption
    | with_reducible apply tagServe_kept
    | with_reducible apply State.setMem_kept
    | with_reducible apply tagStall_kept
    | with_reducible apply Kept.foldl
    | with_reducible apply Kept.foldlFst
    | with_reducible refine Kept.fst (by assumption) ?_
    | split
    | intro _
    )

theorem endReads_kept {ρ : State} {s : State} {b : ℕ} {req : ℕ} {src : ℕ} (hk : Kept ρ s) :
    Kept ρ (endReads s b req src) := by
  unfold endReads
  try dsimp only
  repeat' (first
    | with_reducible assumption
    | with_reducible apply tagServe_kept
    | with_reducible apply State.setMem_kept
    )

theorem setHint_kept {ρ : State} {s : State} {b : ℕ} {r : ℕ} {h : ℕ} (hk : Kept ρ s) :
    Kept ρ (setHint s b r h) := by
  unfold setHint
  try dsimp only
  repeat' (first
    | with_reducible assumption
    | with_reducible apply State.setRf_kept
    )

theorem clearHints_kept {ρ : State} {s : State} {b : ℕ} {p : ℕ → Bool} (hk : Kept ρ s) :
    Kept ρ (clearHints s b p) := by
  unfold clearHints
  try dsimp only
  repeat' (first
    | with_reducible assumption
    | with_reducible apply State.setMem_kept
    | with_reducible apply setHint_kept
    | with_reducible apply Kept.foldl
    | with_reducible apply Kept.foldlFst
    | with_reducible refine Kept.fst (by assumption) ?_
    | split
    | intro _
    )

theorem noteGrant_kept {ρ : State} {s : State} {b : ℕ} {r : ℕ} {t : ℕ} (hk : Kept ρ s) :
    Kept ρ (noteGrant s b r t) := by
  unfold noteGrant
  try dsimp only
  repeat' (first
    | with_reducible assumption
    | with_reducible apply setHint_kept
    | with_reducible apply State.setMem_kept
    )

theorem needCheck_kept {ρ : State} {s : State} {b : ℕ} {unit : ℕ} (hk : Kept ρ s) :
    Kept ρ (needCheck s b unit) := by
  unfold needCheck
  try dsimp only
  repeat' (first
    | with_reducible assumption
    | with_reducible apply State.setMem_kept
    | with_reducible refine Kept.fst (by assumption) ?_
    | split
    )

theorem grantZero_kept {ρ : State} {s : State} {b : ℕ} {c : ℕ} {free : Bool} (hk : Kept ρ s) :
    Kept ρ (grantZero s b c free) := by
  unfold grantZero
  try dsimp only
  repeat' (first
    | with_reducible assumption
    | with_reducible apply State.setMem_kept
    | with_reducible apply noteGrant_kept
    | with_reducible apply State.setFetchList_kept
    | with_reducible apply needCheck_kept
    | with_reducible apply State.addReg_kept
    | with_reducible refine Kept.fst (by assumption) ?_
    | split
    )

theorem grantOther_kept {ρ : State} {s : State} {b : ℕ} {c : ℕ} {r : ℕ} (hk : Kept ρ s) :
    Kept ρ (grantOther s b c r) := by
  unfold grantOther
  try dsimp only
  repeat' (first
    | with_reducible assumption
    | with_reducible apply needCheck_kept
    | with_reducible apply noteGrant_kept
    | with_reducible apply State.setMem_kept
    | with_reducible refine Kept.fst (by assumption) ?_
    | split
    )

theorem scrubSlot_kept {ρ : State} {s : State} {b : ℕ} (hk : Kept ρ s) :
    Kept ρ (scrubSlot s b) := by
  unfold scrubSlot
  try dsimp only
  repeat' (first
    | with_reducible assumption
    | with_reducible apply State.addRf_kept
    | with_reducible apply State.setMem_kept
    | with_reducible refine Kept.fst (by assumption) ?_
    | split
    )

theorem makeSwap_kept {ρ : State} {s : State} {b : ℕ} (hk : Kept ρ s) :
    Kept ρ (makeSwap s b) := by
  unfold makeSwap
  try dsimp only
  repeat' (first
    | with_reducible assumption
    | with_reducible apply State.setReg_kept
    | with_reducible apply clearHints_kept
    | with_reducible apply State.orReg_kept
    | with_reducible apply State.setMem_kept
    | with_reducible apply Kept.foldl
    | with_reducible apply Kept.foldlFst
    | with_reducible refine Kept.fst (by assumption) ?_
    | split
    | intro _
    )

theorem walkWrap_kept {ρ : State} {s : State} {b : ℕ} {c : ℕ} (hk : Kept ρ s) :
    Kept ρ (walkWrap s b c) := by
  unfold walkWrap
  try dsimp only
  repeat' (first
    | with_reducible assumption
    | with_reducible apply makeSwap_kept
    | with_reducible apply State.setMem_kept
    | with_reducible refine Kept.fst (by assumption) ?_
    | split
    )

theorem memSlot_kept {ρ : State} {s : State} {b : ℕ} {c : ℕ} (hk : Kept ρ s) :
    Kept ρ (memSlot s b c) := by
  unfold memSlot
  try dsimp only
  repeat' (first
    | with_reducible assumption
    | with_reducible apply State.setMem_kept
    | with_reducible apply grantZero_kept
    | with_reducible apply grantOther_kept
    | with_reducible apply scrubSlot_kept
    | with_reducible apply walkWrap_kept
    | with_reducible refine Kept.fst (by assumption) ?_
    | split
    )

theorem execGddr6Slot_kept {ρ : State} {b : ℕ} {ch : ℕ} {s : State} (hk : Kept ρ s) :
    ∃ s', execGddr6Slot b ch s = .next s' ∧ Kept ρ s' := by
  refine ⟨_, rfl, ?_⟩
  try dsimp only
  repeat' (first
    | with_reducible assumption
    | with_reducible apply memSlot_kept
    | with_reducible refine Kept.fst (by assumption) ?_
    | split
    )

theorem arbSwap_kept {ρ : State} {s : State} {b : ℕ} (hk : Kept ρ s) :
    Kept ρ (arbSwap s b) := by
  unfold arbSwap
  try dsimp only
  repeat' (first
    | with_reducible assumption
    | with_reducible apply State.setMem_kept
    | with_reducible apply State.setReg_kept
    )

theorem execArbSwapRequest_kept {ρ : State} {b : ℕ} {s : State} (hk : Kept ρ s) :
    ∃ s', execArbSwapRequest b s = .next s' ∧ Kept ρ s' := by
  refine ⟨_, rfl, ?_⟩
  try dsimp only
  repeat' (first
    | with_reducible assumption
    | with_reducible apply arbSwap_kept
    | with_reducible refine Kept.fst (by assumption) ?_
    | split
    )

theorem arbFrameStart_kept {ρ : State} {s : State} (hk : Kept ρ s) :
    Kept ρ (arbFrameStart s) := by
  unfold arbFrameStart
  try dsimp only
  repeat' (first
    | with_reducible assumption
    | with_reducible apply State.eachBillet_kept
    | with_reducible apply State.setMem_kept
    | with_reducible refine Kept.fst (by assumption) ?_
    | split
    | intro _
    )

theorem freezeWrite_kept {ρ : State} {s : State} {b : ℕ} {v : Word} (hk : Kept ρ s) :
    Kept ρ (freezeWrite s b v) := by
  unfold freezeWrite
  try dsimp only
  repeat' (first
    | with_reducible assumption
    | with_reducible apply State.setReg_kept
    | with_reducible apply clearHints_kept
    )

theorem execFreezeWrite_kept {ρ : State} {b : ℕ} {v : Word} {s : State} (hk : Kept ρ s) :
    ∃ s', execFreezeWrite b v s = .next s' ∧ Kept ρ s' := by
  refine ⟨_, rfl, ?_⟩
  try dsimp only
  repeat' (first
    | with_reducible assumption
    | with_reducible apply freezeWrite_kept
    | with_reducible refine Kept.fst (by assumption) ?_
    | split
    )

theorem freezeDrained_kept {ρ : State} {s : State} {b : ℕ} (hk : Kept ρ s) :
    Kept ρ (freezeDrained s b) := by
  unfold freezeDrained
  try dsimp only
  repeat' (first
    | with_reducible assumption
    | with_reducible apply State.orReg_kept
    | with_reducible refine Kept.fst (by assumption) ?_
    | split
    )

theorem execFreezeDrained_kept {ρ : State} {b : ℕ} {s : State} (hk : Kept ρ s) :
    ∃ s', execFreezeDrained b s = .next s' ∧ Kept ρ s' := by
  refine ⟨_, rfl, ?_⟩
  try dsimp only
  repeat' (first
    | with_reducible assumption
    | with_reducible apply freezeDrained_kept
    | with_reducible refine Kept.fst (by assumption) ?_
    | split
    )

theorem cacheTouch_kept {ρ : State} {s : State} {b : ℕ} {unit : ℕ} {d : List Byte} (hk : Kept ρ s) :
    Kept ρ (cacheTouch s b unit d) := by
  unfold cacheTouch
  try dsimp only
  repeat' (first
    | with_reducible assumption
    | with_reducible refine Kept.fst (by assumption) ?_
    | (unfold Kept Inv; dsimp only; refine (show Kept _ _ from ?_); with_reducible assumption)
    )

theorem askUnit_kept {ρ : State} {s : State} {b : ℕ} {plane : ℕ} {tag : ℕ} {unit : ℕ} {fl : ℕ × ℕ} (hk : Kept ρ s) :
    Kept ρ (askUnit s b plane tag unit fl) := by
  unfold askUnit
  try dsimp only
  repeat' (first
    | with_reducible assumption
    | with_reducible apply State.addReg_kept
    | with_reducible apply cacheTouch_kept
    | with_reducible apply State.setFetchList_kept
    | with_reducible apply State.addRf_kept
    | with_reducible apply tagServe_kept
    | with_reducible apply tagStall_kept
    | with_reducible refine Kept.fst (by assumption) ?_
    | split
    )

theorem askAll_kept {ρ : State} {s : State} {b : ℕ} {plane : ℕ} {fl : ℕ × ℕ} {l : List (ℕ × ℕ)} (hk : Kept ρ s) :
    Kept ρ (askAll s b plane fl l) := by
  unfold askAll
  try dsimp only
  repeat' (first
    | with_reducible assumption
    | with_reducible apply askUnit_kept
    | with_reducible apply Kept.foldl
    | with_reducible apply Kept.foldlFst
    | with_reducible refine Kept.fst (by assumption) ?_
    | split
    | intro _
    )

theorem State.setColStore_kept {ρ : State} {s : State} {b : ℕ} {n : ℕ} {x : ColStore} (hk : Kept ρ s) :
    Kept ρ (State.setColStore s b n x) := by
  unfold State.setColStore
  try dsimp only
  repeat' (first
    | with_reducible assumption
    | with_reducible refine Kept.fst (by assumption) ?_
    | (unfold Kept Inv; dsimp only; refine (show Kept _ _ from ?_); with_reducible assumption)
    )

theorem askLayer_kept {ρ : State} {s : State} {v : View} {n : ℕ} {fl : ℕ × ℕ} (hk : Kept ρ s) :
    Kept ρ (askLayer s v n fl) := by
  unfold askLayer
  try dsimp only
  repeat' (first
    | with_reducible assumption
    | with_reducible apply askAll_kept
    | with_reducible refine Kept.fst (by assumption) ?_
    | split
    )

theorem askColumns_kept {ρ : State} {s : State} {v : View} {n : ℕ} {fl : ℕ × ℕ} (hk : Kept ρ s) :
    Kept ρ (askColumns s v n fl) := by
  unfold askColumns
  try dsimp only
  repeat' (first
    | with_reducible assumption
    | with_reducible apply State.setColStore_kept
    | with_reducible apply State.setFetchList_kept
    | with_reducible apply askAll_kept
    | with_reducible refine Kept.fst (by assumption) ?_
    | split
    )

theorem eccNote_kept {ρ : State} {s : State} {b : ℕ} {addr : ℕ} {err : EccErr} (hk : Kept ρ s) :
    Kept ρ (eccNote s b addr err) := by
  unfold eccNote
  try dsimp only
  repeat' (first
    | with_reducible assumption
    | with_reducible apply State.setMem_kept
    | with_reducible apply State.orReg_kept
    | with_reducible apply State.addRf_kept
    | with_reducible apply localFault_kept
    | with_reducible apply State.setReg_kept
    | with_reducible apply State.addReg_kept
    | with_reducible refine Kept.fst (by assumption) ?_
    | split
    )

theorem unitCheck_kept {ρ : State} {s : State} {b : ℕ} {unit : ℕ} {err : EccErr} (hk : Kept ρ s) :
    Kept ρ (unitCheck s b unit err).1 := by
  unfold unitCheck
  try dsimp only
  repeat' (first
    | with_reducible assumption
    | with_reducible apply State.hspoil_kept
    | with_reducible apply eccNote_kept
    | with_reducible refine Kept.fst (by assumption) ?_
    | split
    )

theorem askLines_kept {ρ : State} {s : State} {b : ℕ} {n : ℕ} (hk : Kept ρ s) :
    Kept ρ (askLines s b n) := by
  unfold askLines
  try dsimp only
  repeat' (first
    | with_reducible assumption
    | with_reducible apply askLayer_kept
    | with_reducible apply Kept.foldl
    | with_reducible apply Kept.foldlFst
    | with_reducible refine Kept.fst (by assumption) ?_
    | split
    | intro _
    )

theorem fetchArrive_kept {ρ : State} {s : State} {b : ℕ} {u : FetchUnit} {err : EccErr} (hk : Kept ρ s) :
    Kept ρ (fetchArrive s b u err) := by
  unfold fetchArrive
  try dsimp only
  repeat' (first
    | with_reducible assumption
    | with_reducible apply unitCheck_kept
    | with_reducible apply State.setFetchList_kept
    | with_reducible apply State.orReg_kept
    | with_reducible apply cacheTouch_kept
    | with_reducible apply tagServe_kept
    | with_reducible apply askLines_kept
    | with_reducible apply askLayer_kept
    | with_reducible refine Kept.fst (by assumption) ?_
    | split
    )

theorem execFetchDataReturn_kept {ρ : State} {b : ℕ} {i : ℕ} {err : EccErr} {s : State} (hk : Kept ρ s) :
    ∃ s', execFetchDataReturn b i err s = .next s' ∧ Kept ρ s' := by
  refine ⟨_, rfl, ?_⟩
  try dsimp only
  repeat' (first
    | with_reducible assumption
    | with_reducible apply fetchArrive_kept
    | with_reducible refine Kept.fst (by assumption) ?_
    | split
    )

theorem bufPush_kept {ρ : State} {s : State} {b : ℕ} {e : WriteEnt} (hk : Kept ρ s) :
    Kept ρ (bufPush s b e) := by
  unfold bufPush
  try dsimp only
  repeat' (first
    | with_reducible assumption
    | with_reducible apply State.setMem_kept
    | with_reducible apply noteGrant_kept
    | with_reducible refine Kept.fst (by assumption) ?_
    | split
    )

theorem writeWords_kept {ρ : State} {s : State} {b : ℕ} {addr : ℕ} {len : ℕ} (hk : Kept ρ s) :
    Kept ρ (writeWords s b addr len) := by
  unfold writeWords
  try dsimp only
  repeat' (first
    | with_reducible assumption
    | with_reducible apply eccNote_kept
    | with_reducible apply State.setMem_kept
    | with_reducible apply Kept.foldl
    | with_reducible apply Kept.foldlFst
    | with_reducible refine Kept.fst (by assumption) ?_
    | split
    | intro _
    )

theorem memWrite_kept {ρ : State} {s : State} {b : ℕ} {req : ℕ} {addr : ℕ} {data : List Byte} (hk : Kept ρ s) :
    Kept ρ (memWrite s b req addr data) := by
  unfold memWrite
  try dsimp only
  repeat' (first
    | with_reducible assumption
    | with_reducible apply writeWords_kept
    | with_reducible apply State.gwrite_kept
    | with_reducible apply bufPush_kept
    | with_reducible apply Kept.foldl
    | with_reducible apply Kept.foldlFst
    | with_reducible refine Kept.fst (by assumption) ?_
    | split
    | intro _
    )

theorem memStore_kept {ρ : State} {s : State} {b : ℕ} {req : ℕ} {addr : ℕ} {data : List Byte} (hk : Kept ρ s) :
    Kept ρ (memStore s b req addr data) := by
  unfold memStore
  try dsimp only
  repeat' (first
    | with_reducible assumption
    | with_reducible apply memWrite_kept
    | with_reducible refine Kept.fst (by assumption) ?_
    | split
    )

theorem memRead_kept {ρ : State} {s : State} {b : ℕ} {req : ℕ} {addr : ℕ} {len : ℕ} (hk : Kept ρ s) :
    Kept ρ (memRead s b req addr len).1 := by
  unfold memRead
  try dsimp only
  repeat' (first
    | with_reducible assumption
    | with_reducible apply tagNote_kept
    | with_reducible apply tagStall_kept
    | with_reducible apply noteGrant_kept
    | with_reducible apply unitCheck_kept
    | with_reducible apply Kept.foldl
    | with_reducible apply Kept.foldlFst
    | with_reducible refine Kept.fst (by assumption) ?_
    | split
    | intro _
    )

theorem takeRead_kept {ρ : State} {s : State} {b : ℕ} {req : ℕ} {src : ℕ} {unit : ℕ} (hk : Kept ρ s) :
    Kept ρ (takeRead s b req src unit).1 := by
  unfold takeRead
  try dsimp only
  repeat' (first
    | with_reducible assumption
    | with_reducible apply unitCheck_kept
    | with_reducible apply tagServe_kept
    | with_reducible apply State.setMem_kept
    | with_reducible refine Kept.fst (by assumption) ?_
    | (unfold Kept Inv; dsimp only; refine (show Kept _ _ from ?_); split)
    | split
    )

theorem otherReturn_kept {ρ : State} {s : State} {b : ℕ} {req : ℕ} {addr : ℕ} {err : EccErr} (hk : Kept ρ s) :
    Kept ρ (otherReturn s b req addr err) := by
  unfold otherReturn
  try dsimp only
  repeat' (first
    | with_reducible assumption
    | with_reducible apply eccNote_kept
    | with_reducible apply unitCheck_kept
    | with_reducible apply tagServe_kept
    | with_reducible apply State.setMem_kept
    | with_reducible refine Kept.fst (by assumption) ?_
    | split
    )

theorem readReturn_kept {ρ : State} {s : State} {b : ℕ} {req : ℕ} {addr : ℕ} {err : EccErr} (hk : Kept ρ s) :
    Kept ρ (readReturn s b req addr err) := by
  unfold readReturn
  try dsimp only
  repeat' (first
    | with_reducible assumption
    | with_reducible apply fetchArrive_kept
    | with_reducible apply eccNote_kept
    | with_reducible apply otherReturn_kept
    | with_reducible refine Kept.fst (by assumption) ?_
    | split
    )

theorem execGddr6ReadReturn_kept {ρ : State} {b : ℕ} {req : ℕ} {addr : ℕ} {err : EccErr} {s : State} (hk : Kept ρ s) :
    ∃ s', execGddr6ReadReturn b req addr err s = .next s' ∧ Kept ρ s' := by
  refine ⟨_, rfl, ?_⟩
  try dsimp only
  repeat' (first
    | with_reducible assumption
    | with_reducible apply readReturn_kept
    | with_reducible refine Kept.fst (by assumption) ?_
    | split
    )

theorem execPcacheInvalidate_kept {ρ : State} {b : ℕ} {s : State} (hk : Kept ρ s) :
    ∃ s', execPcacheInvalidate b s = .next s' ∧ Kept ρ s' := by
  refine ⟨_, rfl, ?_⟩
  try dsimp only
  repeat' (first
    | with_reducible assumption
    | with_reducible apply State.orReg_kept
    | with_reducible refine Kept.fst (by assumption) ?_
    | split
    )

theorem cacheLineStart_kept {ρ : State} {s : State} (hk : Kept ρ s) :
    Kept ρ (cacheLineStart s) := by
  unfold cacheLineStart
  try dsimp only
  repeat' (first
    | with_reducible assumption
    | with_reducible apply State.eachBillet_kept
    | with_reducible apply State.clrReg_kept
    | with_reducible refine Kept.fst (by assumption) ?_
    | (unfold Kept Inv; dsimp only; refine (show Kept _ _ from ?_); with_reducible assumption)
    | split
    | intro _
    )

end Sys2Proof.Machine
end

