-- ==== Sys2Proof/Laws/KeptBellows.lean ====
section
/-! SUPPORT. What the operations of Machine/Bellows.lean keep. -/

namespace Sys2Proof.Machine

theorem pkgAccept_kept {ρ : State} {s : State} {off : ℕ} {v : Word} {op : optParam (Option (ℕ × BitOp)) none} (hk : Kept ρ s) :
    Kept ρ (pkgAccept s off v op) := by
  unfold pkgAccept
  try dsimp only
  repeat' (first
    | with_reducible assumption
    | with_reducible refine Kept.fst (by assumption) ?_
    | (unfold Kept Inv; dsimp only; refine (show Kept _ _ from ?_); with_reducible assumption)
    )

theorem unlock_kept {ρ : State} {s : State} (hk : Kept ρ s) :
    Kept ρ (unlock s) := by
  unfold unlock
  try dsimp only
  repeat' (first
    | with_reducible assumption
    | with_reducible apply localFault_kept
    | with_reducible apply pkgEvent_kept
    | with_reducible refine Kept.fst (by assumption) ?_
    | (unfold Kept Inv; dsimp only; refine (show Kept _ _ from ?_); with_reducible assumption)
    | split
    )

theorem restartLoop_kept {ρ : State} {s : State} (hk : Kept ρ s) :
    Kept ρ (restartLoop s) := by
  unfold restartLoop
  try dsimp only
  repeat' (first
    | with_reducible assumption
    | with_reducible apply State.setReg_kept
    | with_reducible apply unlock_kept
    | with_reducible refine Kept.fst (by assumption) ?_
    | (unfold Kept Inv; dsimp only; refine (show Kept _ _ from ?_); with_reducible apply State.setReg_kept)
    )

theorem immediateH_kept {ρ : State} {s : State} {h : ℕ} (hk : Kept ρ s) :
    Kept ρ (immediateH s h) := by
  unfold immediateH
  try dsimp only
  repeat' (first
    | with_reducible assumption
    | with_reducible apply pkgEvent_kept
    | with_reducible refine Kept.fst (by assumption) ?_
    | (unfold Kept Inv; dsimp only; refine (show Kept _ _ from ?_); with_reducible assumption)
    | split
    )

theorem immediateV_kept {ρ : State} {s : State} {v : ℕ} (hk : Kept ρ s) :
    Kept ρ (immediateV s v) := by
  unfold immediateV
  try dsimp only
  repeat' (first
    | with_reducible assumption
    | with_reducible apply pkgEvent_kept
    | with_reducible refine Kept.fst (by assumption) ?_
    | (unfold Kept Inv; dsimp only; refine (show Kept _ _ from ?_); with_reducible assumption)
    | split
    )

theorem setFreq_kept {ρ : State} {s : State} {b : ℕ} {p : ℕ} (hk : Kept ρ s) :
    Kept ρ (setFreq s b p) := by
  unfold setFreq
  try dsimp only
  repeat' (first
    | with_reducible assumption
    | with_reducible apply State.setReg_kept
    )

theorem recheckPorts_kept {ρ : State} {s : State} (hk : Kept ρ s) :
    Kept ρ (recheckPorts s) := by
  unfold recheckPorts
  try dsimp only
  repeat' (first
    | with_reducible assumption
    | with_reducible apply State.eachBillet_kept
    | with_reducible apply setFreq_kept
    | with_reducible apply State.setPort_kept
    | with_reducible apply Kept.foldl
    | with_reducible apply Kept.foldlFst
    | with_reducible refine Kept.fst (by assumption) ?_
    | split
    | intro _
    )

theorem applyPkg_kept {ρ : State} {s : State} {w : PkgWrite} (hk : Kept ρ s) :
    Kept ρ (applyPkg s w) := by
  unfold applyPkg
  try dsimp only
  repeat' (first
    | with_reducible assumption
    | with_reducible apply State.setReg_kept
    | with_reducible apply restartLoop_kept
    | with_reducible apply State.orReg_kept
    | with_reducible apply recheckPorts_kept
    | with_reducible apply immediateH_kept
    | with_reducible apply immediateV_kept
    | with_reducible refine Kept.fst (by assumption) ?_
    | (unfold Kept Inv; dsimp only; refine (show Kept _ _ from ?_); with_reducible apply State.setReg_kept)
    | split
    )

theorem pkgApplyNext_kept {ρ : State} {s : State} (hk : Kept ρ s) :
    Kept ρ (pkgApplyNext s) := by
  unfold pkgApplyNext
  try dsimp only
  repeat' (first
    | with_reducible assumption
    | with_reducible apply applyPkg_kept
    | with_reducible apply passTo_kept
    | with_reducible refine Kept.fst (by assumption) ?_
    | (unfold Kept Inv; dsimp only; refine (show Kept _ _ from ?_); with_reducible apply passTo_kept)
    | split
    )

theorem pkgDue_kept {ρ : State} {x0 : List PkgWrite} {x1 : State} (hk : Kept ρ x1) :
    Kept ρ (pkgDue x0 x1) := by
  induction x0 generalizing x1 with
  | nil =>
    unfold pkgDue
    try dsimp only
    repeat' (with_reducible assumption)
  | cons e l ih =>
    unfold pkgDue
    try dsimp only
    repeat' (first
      | with_reducible assumption
      | with_reducible apply applyPkg_kept
      | with_reducible apply ih
      | with_reducible refine Kept.fst (by assumption) ?_
      | (unfold Kept Inv; dsimp only; refine (show Kept _ _ from ?_); with_reducible assumption)
      | split
      )

theorem bringVia_kept {ρ : State} {inst : State → ℕ} {x1 : List PkgWrite} {x2 : State} (hk : Kept ρ x2) :
    Kept ρ (bringVia inst x1 x2) := by
  induction x1 generalizing inst x2 with
  | nil =>
    unfold bringVia
    try dsimp only
    repeat' (first
      | with_reducible assumption
      | with_reducible apply applyPkg_kept
      | with_reducible apply passTo_kept
      )
  | cons e l ih =>
    unfold bringVia
    try dsimp only
    repeat' (first
      | with_reducible assumption
      | with_reducible apply applyPkg_kept
      | with_reducible apply passTo_kept
      | with_reducible apply ih
      | with_reducible refine Kept.fst (by assumption) ?_
      | (unfold Kept Inv; dsimp only; refine (show Kept _ _ from ?_); with_reducible apply passTo_kept)
      | split
      )

theorem bring_kept {ρ : State} {inst : State → ℕ} {s : State} (hk : Kept ρ s) :
    Kept ρ (bring inst s) := by
  unfold bring
  try dsimp only
  repeat' (first
    | with_reducible assumption
    | with_reducible apply bringVia_kept
    | with_reducible refine Kept.fst (by assumption) ?_
    | split
    )

theorem atInstant_kept {ρ : State} {inst : State → ℕ} {f : State → State} (hf : ∀ s, Kept ρ s → Kept ρ (f s)) {s : State} (hk : Kept ρ s) :
    Kept ρ (atInstant inst f s) := by
  unfold atInstant
  try dsimp only
  repeat' (first
    | with_reducible assumption
    | with_reducible apply bring_kept
    | with_reducible apply hf
    | with_reducible refine Kept.fst (by assumption) ?_
    | split
    )

theorem measure_kept {ρ : State} {s : State} {e : ℤ} {m : ℕ} (hk : Kept ρ s) :
    Kept ρ (measure s e m) := by
  unfold measure
  try dsimp only
  repeat' (first
    | with_reducible assumption
    | with_reducible apply State.setReg_kept
    | with_reducible apply State.orReg_kept
    | with_reducible apply pkgEvent_kept
    | with_reducible apply unlock_kept
    | with_reducible refine Kept.fst (by assumption) ?_
    | (unfold Kept Inv; dsimp only; refine (show Kept _ _ from ?_); with_reducible assumption)
    | (unfold Kept Inv; dsimp only; refine (show Kept _ _ from ?_); split)
    | split
    )

theorem acquired_kept {ρ : State} {s : State} {jamAt : Option ℕ} {jamFrame : Option ℕ} (hk : Kept ρ s) :
    Kept ρ (acquired s jamAt jamFrame) := by
  unfold acquired
  try dsimp only
  repeat' (first
    | with_reducible assumption
    | with_reducible apply State.setReg_kept
    | with_reducible refine Kept.fst (by assumption) ?_
    | (unfold Kept Inv; dsimp only; refine (show Kept _ _ from ?_); with_reducible assumption)
    )

theorem trackEvent_kept {ρ : State} {s : State} {t : ℕ} {m : ℕ} (hk : Kept ρ s) :
    Kept ρ (trackEvent s t m) := by
  unfold trackEvent
  try dsimp only
  repeat' (first
    | with_reducible assumption
    | with_reducible apply measure_kept
    | with_reducible refine Kept.fst (by assumption) ?_
    | (unfold Kept Inv; dsimp only; refine (show Kept _ _ from ?_); with_reducible assumption)
    | split
    )

theorem refEvent_kept {ρ : State} {s : State} {t : ℕ} {frame : Option ℕ} (hk : Kept ρ s) :
    Kept ρ (refEvent s t frame) := by
  unfold refEvent
  try dsimp only
  repeat' (first
    | with_reducible assumption
    | with_reducible apply acquired_kept
    | with_reducible apply trackEvent_kept
    | with_reducible refine Kept.fst (by assumption) ?_
    | (unfold Kept Inv; dsimp only; refine (show Kept _ _ from ?_); with_reducible assumption)
    | (unfold Kept Inv; dsimp only; refine (show Kept _ _ from ?_); split)
    | split
    )

theorem genlockEdge_kept {ρ : State} {s : State} {pin : GlkPin} {rising : Bool} (hk : Kept ρ s) :
    Kept ρ (genlockEdge s pin rising) := by
  unfold genlockEdge
  try dsimp only
  repeat' (first
    | with_reducible assumption
    | with_reducible apply refEvent_kept
    | with_reducible refine Kept.fst (by assumption) ?_
    | (unfold Kept Inv; dsimp only; refine (show Kept _ _ from ?_); with_reducible assumption)
    | split
    )

theorem execGenlockEdge_kept {ρ : State} {pin : GlkPin} {rising : Bool} {s : State} (hk : Kept ρ s) :
    ∃ s', execGenlockEdge pin rising s = .next s' ∧ Kept ρ s' := by
  refine ⟨_, rfl, ?_⟩
  try dsimp only
  repeat' (first
    | with_reducible assumption
    | with_reducible apply genlockEdge_kept
    )

theorem ptpAlign_kept {ρ : State} {s : State} {k : ℕ} (hk : Kept ρ s) :
    Kept ρ (ptpAlign s k) := by
  unfold ptpAlign
  try dsimp only
  repeat' (first
    | with_reducible assumption
    | with_reducible apply atInstant_kept
    | with_reducible apply refEvent_kept
    | with_reducible refine Kept.fst (by assumption) ?_
    | split
    | intro _
    )

theorem execPtpAlignmentPoint_kept {ρ : State} {k : ℕ} {s : State} (hk : Kept ρ s) :
    ∃ s', execPtpAlignmentPoint k s = .next s' ∧ Kept ρ s' := by
  refine ⟨_, rfl, ?_⟩
  try dsimp only
  repeat' (first
    | with_reducible assumption
    | with_reducible apply ptpAlign_kept
    )

theorem refLost_kept {ρ : State} {s : State} (hk : Kept ρ s) :
    Kept ρ (refLost s) := by
  unfold refLost
  try dsimp only
  repeat' (first
    | with_reducible assumption
    | with_reducible apply unlock_kept
    | with_reducible apply localFault_kept
    | with_reducible apply pkgEvent_kept
    | with_reducible apply State.orReg_kept
    | with_reducible refine Kept.fst (by assumption) ?_
    | (unfold Kept Inv; dsimp only; refine (show Kept _ _ from ?_); with_reducible apply unlock_kept)
    | split
    )

theorem execRefLost_kept {ρ : State} {s : State} (hk : Kept ρ s) :
    ∃ s', execRefLost s = .next s' ∧ Kept ρ s' := by
  refine ⟨_, rfl, ?_⟩
  try dsimp only
  repeat' (first
    | with_reducible assumption
    | with_reducible apply refLost_kept
    )

theorem slipAtEnd_kept {ρ : State} {s : State} (hk : Kept ρ s) :
    Kept ρ (slipAtEnd s) := by
  unfold slipAtEnd
  try dsimp only
  repeat' (first
    | with_reducible assumption
    | with_reducible apply pkgEvent_kept
    | with_reducible apply State.addRf_kept
    | with_reducible refine Kept.fst (by assumption) ?_
    | (unfold Kept Inv; dsimp only; refine (show Kept _ _ from ?_); with_reducible assumption)
    | split
    )

theorem jamDone_kept {ρ : State} {s : State} (hk : Kept ρ s) :
    Kept ρ (jamDone s) := by
  unfold jamDone
  try dsimp only
  repeat' (first
    | with_reducible assumption
    | with_reducible apply pkgEvent_kept
    | with_reducible apply State.orReg_kept
    | with_reducible refine Kept.fst (by assumption) ?_
    | (unfold Kept Inv; dsimp only; refine (show Kept _ _ from ?_); with_reducible assumption)
    )

theorem aimJam_kept {ρ : State} {s : State} (hk : Kept ρ s) :
    Kept ρ (aimJam s) := by
  unfold aimJam
  try dsimp only
  repeat' (first
    | with_reducible assumption
    | with_reducible refine Kept.fst (by assumption) ?_
    | (unfold Kept Inv; dsimp only; refine (show Kept _ _ from ?_); with_reducible assumption)
    | split
    )

theorem pkgFrameMeasured_kept {ρ : State} {s : State} (hk : Kept ρ s) :
    Kept ρ (pkgFrameMeasured s) := by
  unfold pkgFrameMeasured
  try dsimp only
  repeat' (first
    | with_reducible assumption
    | with_reducible apply measure_kept
    | with_reducible refine Kept.fst (by assumption) ?_
    | (unfold Kept Inv; dsimp only; refine (show Kept _ _ from ?_); with_reducible assumption)
    | split
    )

theorem pkgLineMeasured_kept {ρ : State} {s : State} (hk : Kept ρ s) :
    Kept ρ (pkgLineMeasured s) := by
  unfold pkgLineMeasured
  try dsimp only
  repeat' (first
    | with_reducible assumption
    | with_reducible apply measure_kept
    | with_reducible refine Kept.fst (by assumption) ?_
    | (unfold Kept Inv; dsimp only; refine (show Kept _ _ from ?_); with_reducible assumption)
    | split
    )

theorem frameMatch_kept {ρ : State} {s : State} (hk : Kept ρ s) :
    Kept ρ (frameMatch s) := by
  unfold frameMatch
  try dsimp only
  repeat' (first
    | with_reducible assumption
    | with_reducible apply pkgEvent_kept
    | with_reducible refine Kept.fst (by assumption) ?_
    | split
    )

theorem advanceBeam_kept {ρ s : State} (hk : Kept ρ s) : Kept ρ (advanceBeam s) := hk.beam (Nat.zero_lt_succ 3)

theorem lineEvents_kept {ρ : State} {s : State} (hk : Kept ρ s) :
    Kept ρ (lineEvents s) := by
  unfold lineEvents
  try dsimp only
  repeat' (first
    | with_reducible assumption
    | with_reducible apply pkgEvent_kept
    | with_reducible apply frameMatch_kept
    | with_reducible refine Kept.fst (by assumption) ?_
    | split
    )

theorem beamLineStart_kept {ρ : State} {s : State} (hk : Kept ρ s) :
    Kept ρ (beamLineStart s) := by
  unfold beamLineStart
  try dsimp only
  repeat' (first
    | with_reducible assumption
    | with_reducible apply advanceBeam_kept
    | with_reducible apply slipAtEnd_kept
    | with_reducible apply jamDone_kept
    | with_reducible apply pkgFrameMeasured_kept
    | with_reducible apply aimJam_kept
    | with_reducible apply pkgLineMeasured_kept
    | with_reducible apply recheckPorts_kept
    | with_reducible apply lineEvents_kept
    | with_reducible refine Kept.fst (by assumption) ?_
    | split
    )

theorem slaveCheck_kept {ρ : State} {s : State} {b : ℕ} {p : ℕ} (hk : Kept ρ s) :
    Kept ρ (slaveCheck s b p) := by
  unfold slaveCheck
  try dsimp only
  repeat' (first
    | with_reducible assumption
    | with_reducible apply State.orReg_kept
    | with_reducible refine Kept.fst (by assumption) ?_
    | split
    )

theorem setRange_kept {ρ : State} {s : State} {b : ℕ} {p : ℕ} (hk : Kept ρ s) :
    Kept ρ (setRange s b p) := by
  unfold setRange
  try dsimp only
  repeat' (first
    | with_reducible assumption
    | with_reducible apply State.orReg_kept
    | with_reducible apply localFault_kept
    | with_reducible refine Kept.fst (by assumption) ?_
    | split
    )

theorem stopPort_kept {ρ : State} {s : State} {b : ℕ} {p : ℕ} (hk : Kept ρ s) :
    Kept ρ (stopPort s b p) := by
  unfold stopPort
  try dsimp only
  repeat' (first
    | with_reducible assumption
    | with_reducible apply setFreq_kept
    | with_reducible apply State.setPort_kept
    )

theorem portsTakeTiming_kept {ρ : State} {s : State} (hk : Kept ρ s) :
    Kept ρ (portsTakeTiming s) := by
  unfold portsTakeTiming
  try dsimp only
  repeat' (first
    | with_reducible assumption
    | with_reducible apply State.eachBillet_kept
    | with_reducible apply slaveCheck_kept
    | with_reducible apply State.setPort_kept
    | with_reducible apply Kept.foldl
    | with_reducible apply Kept.foldlFst
    | with_reducible refine Kept.fst (by assumption) ?_
    | split
    | intro _
    )

theorem portsMissed_kept {ρ : State} {s : State} (hk : Kept ρ s) :
    Kept ρ (portsMissed s) := by
  unfold portsMissed
  try dsimp only
  repeat' (first
    | with_reducible assumption
    | with_reducible apply State.eachBillet_kept
    | with_reducible apply State.setPort_kept
    | with_reducible apply Kept.foldl
    | with_reducible apply Kept.foldlFst
    | with_reducible refine Kept.fst (by assumption) ?_
    | split
    | intro _
    )

theorem leadCheck_kept {ρ : State} {s : State} {b : ℕ} {p : ℕ} (hk : Kept ρ s) :
    Kept ρ (leadCheck s b p) := by
  unfold leadCheck
  try dsimp only
  repeat' (first
    | with_reducible assumption
    | with_reducible apply State.orReg_kept
    | with_reducible refine Kept.fst (by assumption) ?_
    | split
    )

theorem portBeginLine_kept {ρ : State} {s : State} {b : ℕ} {p : ℕ} {fl : ℕ × ℕ} (hk : Kept ρ s) :
    Kept ρ (portBeginLine s b p fl) := by
  unfold portBeginLine
  try dsimp only
  repeat' (first
    | with_reducible assumption
    | with_reducible apply State.setPort_kept
    | with_reducible apply beamEvent_kept
    | with_reducible refine Kept.fst (by assumption) ?_
    | split
    )

theorem portLineStart_kept {ρ : State} {s : State} {b : ℕ} {p : ℕ} (hk : Kept ρ s) :
    Kept ρ (portLineStart s b p) := by
  unfold portLineStart
  try dsimp only
  repeat' (first
    | with_reducible assumption
    | with_reducible apply stopPort_kept
    | with_reducible apply setRange_kept
    | with_reducible apply portBeginLine_kept
    | with_reducible apply leadCheck_kept
    | with_reducible apply setFreq_kept
    | with_reducible refine Kept.fst (by assumption) ?_
    | split
    )

theorem portChannelStart_kept {ρ : State} {s : State} {b : ℕ} {p : ℕ} (hk : Kept ρ s) :
    Kept ρ (portChannelStart s b p) := by
  unfold portChannelStart
  try dsimp only
  repeat' (first
    | with_reducible assumption
    | with_reducible apply State.setPort_kept
    | with_reducible apply leadCheck_kept
    | with_reducible apply setFreq_kept
    | with_reducible apply portBeginLine_kept
    | with_reducible apply setRange_kept
    | with_reducible refine Kept.fst (by assumption) ?_
    | split
    )

theorem portMatch_kept {ρ : State} {s : State} {b : ℕ} {p : ℕ} {k : ℕ} (hk : Kept ρ s) :
    Kept ρ (portMatch s b p k) := by
  unfold portMatch
  try dsimp only
  repeat' (first
    | with_reducible assumption
    | with_reducible apply atInstant_kept
    | with_reducible apply beamEvent_kept
    | with_reducible refine Kept.fst (by assumption) ?_
    | split
    | intro _
    )

theorem execPortMatch_kept {ρ : State} {b : ℕ} {p : ℕ} {k : ℕ} {s : State} (hk : Kept ρ s) :
    ∃ s', execPortMatch b p k s = .next s' ∧ Kept ρ s' := by
  refine ⟨_, rfl, ?_⟩
  try dsimp only
  repeat' (first
    | with_reducible assumption
    | with_reducible apply portMatch_kept
    | with_reducible refine Kept.fst (by assumption) ?_
    | split
    )

theorem portFlag_kept {ρ : State} {s : State} {b : ℕ} {p : ℕ} {f : BeamFlag} (hk : Kept ρ s) :
    Kept ρ (portFlag s b p f) := by
  unfold portFlag
  try dsimp only
  repeat' (first
    | with_reducible assumption
    | with_reducible apply State.setPort_kept
    | with_reducible apply beamEvent_kept
    | with_reducible refine Kept.fst (by assumption) ?_
    | split
    )

theorem portFlagChange_kept {ρ : State} {s : State} {b : ℕ} {p : ℕ} {f : BeamFlag} (hk : Kept ρ s) :
    Kept ρ (portFlagChange s b p f) := by
  unfold portFlagChange
  try dsimp only
  repeat' (first
    | with_reducible assumption
    | with_reducible apply atInstant_kept
    | with_reducible apply portFlag_kept
    | with_reducible refine Kept.fst (by assumption) ?_
    | split
    | intro _
    )

theorem execPortBeamFlagChange_kept {ρ : State} {b : ℕ} {p : ℕ} {f : BeamFlag} {s : State} (hk : Kept ρ s) :
    ∃ s', execPortBeamFlagChange b p f s = .next s' ∧ Kept ρ s' := by
  refine ⟨_, rfl, ?_⟩
  try dsimp only
  repeat' (first
    | with_reducible assumption
    | with_reducible apply portFlagChange_kept
    | with_reducible refine Kept.fst (by assumption) ?_
    | split
    )

theorem stampLatch_kept {ρ : State} {s : State} {who : Who} {b : ℕ} {p : ℕ} (hk : Kept ρ s) :
    Kept ρ (stampLatch s who b p).1 := by
  unfold stampLatch
  try dsimp only
  repeat' (first
    | with_reducible assumption
    | with_reducible apply State.latch_kept
    )

theorem execBeamStampLatchRead_kept {ρ : State} {who : Who} {b : ℕ} {p : ℕ} {s : State} (hk : Kept ρ s) :
    ∃ s', execBeamStampLatchRead who b p s = .next s' ∧ Kept ρ s' := by
  refine ⟨_, rfl, ?_⟩
  try dsimp only
  repeat' (first
    | with_reducible assumption
    | with_reducible apply stampLatch_kept
    | with_reducible refine Kept.fst (by assumption) ?_
    | split
    )

end Sys2Proof.Machine
end

