-- ==== Sys2Proof/Laws/KeptStrike.lean ====
section
/-! SUPPORT. What the operations of Machine/Strike.lean keep. -/

namespace Sys2Proof.Machine

theorem strikeNote_kept {ρ : State} {s : State} {b : ℕ} {p : ℕ} {i : ℕ} {k : Strike} (hk : Kept ρ s) :
    Kept ρ (strikeNote s b p i k) := by
  unfold strikeNote
  try dsimp only
  repeat' (first
    | with_reducible assumption
    | with_reducible apply State.setReg_kept
    | with_reducible apply State.orReg_kept
    )

theorem strikeSkip_kept {ρ : State} {s : State} {b : ℕ} {p : ℕ} {i : ℕ} {k : Strike} (hk : Kept ρ s) :
    Kept ρ (strikeSkip s b p i k) := by
  unfold strikeSkip
  try dsimp only
  repeat' (first
    | with_reducible assumption
    | with_reducible apply State.addReg_kept
    | with_reducible apply strikeNote_kept
    )

theorem fetchFor_kept {ρ : State} {s : State} {b : ℕ} {p : ℕ} {t : ℕ} {x4 : ℕ} (hk : Kept ρ s) :
    Kept ρ (fetchFor s b p t x4).1 := by
  induction x4 generalizing s b p t with
  | zero =>
    unfold fetchFor
    try dsimp only
    repeat' (with_reducible assumption)
  | succ m ih =>
    unfold fetchFor
    try dsimp only
    repeat' (first
      | with_reducible assumption
      | with_reducible apply State.setCursor_kept
      | with_reducible apply strikeSkip_kept
      | with_reducible apply ih
      | with_reducible refine Kept.fst (by assumption) ?_
      | split
      )

theorem takeLine_kept {ρ : State} {s : State} {b : ℕ} {p : ℕ} {fl : ℕ × ℕ} {new : List Strike} (hk : Kept ρ s) :
    Kept ρ (takeLine s b p fl new) := by
  unfold takeLine
  try dsimp only
  repeat' (first
    | with_reducible assumption
    | with_reducible apply State.addReg_kept
    | with_reducible apply strikeNote_kept
    | with_reducible apply State.setCursor_kept
    | with_reducible apply Kept.foldl
    | with_reducible apply Kept.foldlFst
    | with_reducible refine Kept.fst (by assumption) ?_
    | split
    | intro _
    )

theorem cursorFetch_kept {ρ : State} {s : State} {b : ℕ} {p : ℕ} {fl : ℕ × ℕ} (hk : Kept ρ s) :
    Kept ρ (cursorFetch s b p fl) := by
  unfold cursorFetch
  try dsimp only
  repeat' (first
    | with_reducible assumption
    | with_reducible apply fetchFor_kept
    | with_reducible apply takeLine_kept
    | with_reducible refine Kept.fst (by assumption) ?_
    | split
    )

theorem unreached_kept {ρ : State} {s : State} {b : ℕ} {p : ℕ} (hk : Kept ρ s) :
    Kept ρ (unreached s b p) := by
  unfold unreached
  try dsimp only
  repeat' (first
    | with_reducible assumption
    | with_reducible apply State.addReg_kept
    | with_reducible apply strikeNote_kept
    | with_reducible refine Kept.fst (by assumption) ?_
    | split
    )

theorem cursorBoundary_kept {ρ : State} {s : State} {b : ℕ} {p : ℕ} (hk : Kept ρ s) :
    Kept ρ (cursorBoundary s b p) := by
  unfold cursorBoundary
  try dsimp only
  repeat' (first
    | with_reducible assumption
    | with_reducible apply unreached_kept
    | with_reducible apply State.setReg_kept
    | with_reducible apply State.setCursor_kept
    )

theorem groupIssue_kept {ρ : State} {s : State} {b : ℕ} {p : ℕ} {fl : ℕ × ℕ} {target : ℕ × ℕ} {late : Bool} (hk : Kept ρ s) :
    Kept ρ (groupIssue s b p fl target late) := by
  unfold groupIssue
  try dsimp only
  repeat' (first
    | with_reducible assumption
    | with_reducible apply State.setCursor_kept
    | with_reducible apply issueCommit_kept
    | with_reducible refine Kept.fst (by assumption) ?_
    | split
    )

theorem discardLive_kept {ρ : State} {s : State} {b : ℕ} {p : ℕ} {drop : (ℕ × ℕ) × Strike → Bool} (hk : Kept ρ s) :
    Kept ρ (discardLive s b p drop) := by
  unfold discardLive
  try dsimp only
  repeat' (first
    | with_reducible assumption
    | with_reducible apply State.setCursor_kept
    | with_reducible apply strikeSkip_kept
    | with_reducible apply Kept.foldl
    | with_reducible apply Kept.foldlFst
    | with_reducible refine Kept.fst (by assumption) ?_
    | split
    | intro _
    )

theorem discardAllLive_kept {ρ : State} {s : State} {b : ℕ} {p : ℕ} (hk : Kept ρ s) :
    Kept ρ (discardAllLive s b p) := by
  unfold discardAllLive
  try dsimp only
  repeat' (first
    | with_reducible assumption
    | with_reducible apply discardLive_kept
    | with_reducible apply State.setCursor_kept
    | with_reducible apply strikeSkip_kept
    | with_reducible apply Kept.foldl
    | with_reducible apply Kept.foldlFst
    | with_reducible refine Kept.fst (by assumption) ?_
    | split
    | intro _
    )

theorem cursorUnforeseen_kept {ρ : State} {s : State} {b : ℕ} {p : ℕ} (hk : Kept ρ s) :
    Kept ρ (cursorUnforeseen s b p) := by
  unfold cursorUnforeseen
  try dsimp only
  repeat' (first
    | with_reducible assumption
    | with_reducible apply groupIssue_kept
    | with_reducible apply State.setCursor_kept
    | with_reducible apply cursorBoundary_kept
    | with_reducible apply discardAllLive_kept
    | with_reducible apply cursorFetch_kept
    | with_reducible apply Kept.foldl
    | with_reducible apply Kept.foldlFst
    | with_reducible refine Kept.fst (by assumption) ?_
    | split
    | intro _
    )

theorem cursorLine_kept {ρ : State} {s : State} {b : ℕ} {p : ℕ} {sudden : Bool} (hk : Kept ρ s) :
    Kept ρ (cursorLine s b p sudden) := by
  unfold cursorLine
  try dsimp only
  repeat' (first
    | with_reducible assumption
    | with_reducible apply cursorUnforeseen_kept
    | with_reducible apply State.setCursor_kept
    | with_reducible apply cursorBoundary_kept
    | with_reducible apply cursorFetch_kept
    | with_reducible apply groupIssue_kept
    | with_reducible refine Kept.fst (by assumption) ?_
    | split
    )

theorem renumberStrikes_kept {ρ : State} {f0 : ℕ} {f1 : ℕ} {s : State} (hk : Kept ρ s) :
    Kept ρ (renumberStrikes f0 f1 s) := by
  unfold renumberStrikes
  try dsimp only
  repeat' (first
    | with_reducible assumption
    | with_reducible refine Kept.fst (by assumption) ?_
    | (unfold Kept Inv; dsimp only; refine (show Kept _ _ from ?_); with_reducible assumption)
    )

theorem discardPast_kept {ρ : State} {s : State} {b : ℕ} {q : ℕ} (hk : Kept ρ s) :
    Kept ρ (discardPast s b q) := by
  unfold discardPast
  try dsimp only
  repeat' (first
    | with_reducible assumption
    | with_reducible apply discardLive_kept
    | with_reducible apply Kept.foldl
    | with_reducible apply Kept.foldlFst
    | with_reducible refine Kept.fst (by assumption) ?_
    | split
    | intro _
    )

theorem strikesLine_kept {ρ : State} {s : State} {sudden : Bool} (hk : Kept ρ s) :
    Kept ρ (strikesLine s sudden) := by
  unfold strikesLine
  try dsimp only
  repeat' (first
    | with_reducible assumption
    | with_reducible apply State.eachBillet_kept
    | with_reducible apply discardPast_kept
    | with_reducible apply cursorLine_kept
    | with_reducible apply Kept.foldl
    | with_reducible apply Kept.foldlFst
    | with_reducible refine Kept.fst (by assumption) ?_
    | split
    | intro _
    )

theorem State.setLiveQueue_kept {ρ : State} {s : State} {b : ℕ} {l : List LiveWrite} (hk : Kept ρ s) :
    Kept ρ (State.setLiveQueue s b l) := by
  unfold State.setLiveQueue
  try dsimp only
  repeat' (first
    | with_reducible assumption
    | with_reducible refine Kept.fst (by assumption) ?_
    | (unfold Kept Inv; dsimp only; refine (show Kept _ _ from ?_); with_reducible assumption)
    )

theorem pushLive_kept {ρ : State} {s : State} {b : ℕ} {key : ℕ} {off : ℕ} {v : Word} {op : optParam (Option (ℕ × BitOp)) none} (hk : Kept ρ s) :
    Kept ρ (pushLive s b key off v op) := by
  unfold pushLive
  try dsimp only
  repeat' (first
    | with_reducible assumption
    | with_reducible apply State.setLiveQueue_kept
    )

theorem liveShow_kept {ρ : State} {s : State} {b : ℕ} {off : ℕ} (hk : Kept ρ s) :
    Kept ρ (liveShow s b off) := by
  unfold liveShow
  try dsimp only
  repeat' (first
    | with_reducible assumption
    | with_reducible apply State.setBreg_kept
    )

theorem setLiveOut_kept {ρ : State} {s : State} {b : ℕ} {off : ℕ} {v : Word} (hk : Kept ρ s) :
    Kept ρ (setLiveOut s b off v) := by
  unfold setLiveOut
  try dsimp only
  repeat' (first
    | with_reducible assumption
    | with_reducible refine Kept.fst (by assumption) ?_
    | (unfold Kept Inv; dsimp only; refine (show Kept _ _ from ?_); with_reducible assumption)
    )

theorem liveEdge_kept {ρ : State} {s : State} {b : ℕ} {i : ℕ} (hk : Kept ρ s) :
    Kept ρ (liveEdge s b i) := by
  unfold liveEdge
  try dsimp only
  repeat' (first
    | with_reducible assumption
    | with_reducible apply liveShow_kept
    | with_reducible apply State.setLiveQueue_kept
    | with_reducible refine Kept.fst (by assumption) ?_
    | split
    )

theorem execLiveEdge_kept {ρ : State} {b : ℕ} {i : ℕ} {s : State} (hk : Kept ρ s) :
    ∃ s', execLiveEdge b i s = .next s' ∧ Kept ρ s' := by
  refine ⟨_, rfl, ?_⟩
  try dsimp only
  repeat' (first
    | with_reducible assumption
    | with_reducible apply liveEdge_kept
    | with_reducible refine Kept.fst (by assumption) ?_
    | split
    )

theorem settleLive_kept {ρ : State} {s : State} {b : ℕ} {at' : ℕ} (hk : Kept ρ s) :
    Kept ρ (settleLive s b at') := by
  unfold settleLive
  try dsimp only
  repeat' (first
    | with_reducible assumption
    | with_reducible apply setLiveOut_kept
    | with_reducible apply State.setLiveQueue_kept
    | with_reducible apply Kept.foldl
    | with_reducible apply Kept.foldlFst
    | with_reducible refine Kept.fst (by assumption) ?_
    | split
    | intro _
    )

theorem applyTagged_kept {ρ : State} {s : State} {b : ℕ} {k : Strike} (hk : Kept ρ s) :
    Kept ρ (applyTagged s b k) := by
  unfold applyTagged
  try dsimp only
  repeat' (first
    | with_reducible assumption
    | with_reducible apply liveShow_kept
    | with_reducible apply setLiveOut_kept
    )

theorem applyStrikesAt_kept {ρ : State} {s : State} {b : ℕ} {q : ℕ} {fl : ℕ × ℕ} {d : ℕ} (hk : Kept ρ s) :
    Kept ρ (applyStrikesAt s b q fl d) := by
  unfold applyStrikesAt
  try dsimp only
  repeat' (first
    | with_reducible assumption
    | with_reducible apply State.setCursor_kept
    | with_reducible apply applyTagged_kept
    | with_reducible apply Kept.foldl
    | with_reducible apply Kept.foldlFst
    | with_reducible refine Kept.fst (by assumption) ?_
    | split
    | intro _
    )

theorem discardStopped_kept {ρ : State} {s : State} {b : ℕ} {q : ℕ} {fl : Option (ℕ × ℕ)} (hk : Kept ρ s) :
    Kept ρ (discardStopped s b q fl) := by
  unfold discardStopped
  try dsimp only
  repeat' (first
    | with_reducible assumption
    | with_reducible apply discardLive_kept
    | with_reducible apply Kept.foldl
    | with_reducible apply Kept.foldlFst
    | with_reducible refine Kept.fst (by assumption) ?_
    | split
    | intro _
    )

theorem execStrikeSwapRequest_kept {ρ : State} {b : ℕ} {p : ℕ} {s : State} (hk : Kept ρ s) :
    ∃ s', execStrikeSwapRequest b p s = .next s' ∧ Kept ρ s' := by
  refine ⟨_, rfl, ?_⟩
  try dsimp only
  repeat' (first
    | with_reducible assumption
    | with_reducible apply State.orReg_kept
    | with_reducible refine Kept.fst (by assumption) ?_
    | split
    )

theorem strikeAccWrite_kept {ρ : State} {s : State} {who : Who} {b : ℕ} {p : ℕ} {v : Word} (hk : Kept ρ s) :
    Kept ρ (strikeAccWrite s who b p v) := by
  unfold strikeAccWrite
  try dsimp only
  repeat' (first
    | with_reducible assumption
    | with_reducible apply State.setCursor_kept
    | with_reducible apply State.setReg_kept
    )

theorem strikeData_kept {ρ : State} {s : State} {who : Who} {b : ℕ} {p : ℕ} {w : Option Word} (hk : Kept ρ s) :
    Kept ρ (strikeData s who b p w).1 := by
  unfold strikeData
  try dsimp only
  repeat' (first
    | with_reducible assumption
    | with_reducible apply State.setCursor_kept
    | with_reducible apply State.setRf_kept
    | with_reducible apply State.nextFree_kept
    | with_reducible refine Kept.fst (by assumption) ?_
    | (unfold Kept Inv; dsimp only; refine (show Kept _ _ from ?_); split)
    | split
    )

theorem execStrikeDataAccess_kept {ρ : State} {who : Who} {b : ℕ} {p : ℕ} {w : Option Word} {s : State} (hk : Kept ρ s) :
    ∃ s', execStrikeDataAccess who b p w s = .next s' ∧ Kept ρ s' := by
  refine ⟨_, rfl, ?_⟩
  try dsimp only
  repeat' (first
    | with_reducible assumption
    | with_reducible apply strikeData_kept
    | with_reducible refine Kept.fst (by assumption) ?_
    | split
    )

theorem execReflexArm_kept {ρ : State} {b : ℕ} {k : ℕ} {s : State} (hk : Kept ρ s) :
    ∃ s', execReflexArm b k s = .next s' ∧ Kept ρ s' := by
  refine ⟨_, rfl, ?_⟩
  try dsimp only
  repeat' (first
    | with_reducible assumption
    | with_reducible apply State.setReg_kept
    | with_reducible refine Kept.fst (by assumption) ?_
    | split
    )

theorem reflexIssue_kept {ρ s1 : State} {b k off : ℕ} {all : Bool} {v : Word} (hk : Kept ρ s1) :
    Kept ρ (reflexIssue s1 b k off all v) := by
  have h0 := ite_kept (c := all = true) (State.eachBillet_kept (fun _ b h => immediateBits_kept (addr := baddr b off) (v := v) h) hk)
    (immediateBits_kept (addr := baddr b off) (v := v) hk)
  unfold reflexIssue
  refine ite_kept (Kept.same ?_ rfl rfl rfl rfl rfl rfl rfl) ?_
  all_goals exact ite_kept h0 (issueFrom_kept h0)

theorem reflexFire_kept {ρ : State} {s : State} {b : ℕ} {k : ℕ} (hk : Kept ρ s) :
    Kept ρ (reflexFire s b k) := by
  unfold reflexFire
  try dsimp only
  repeat' (first
    | with_reducible assumption
    | with_reducible apply State.addReg_kept
    | with_reducible apply State.setReg_kept
    | with_reducible apply State.orReg_kept
    | with_reducible apply pushLive_kept
    | with_reducible apply reflexIssue_kept
    | with_reducible refine Kept.fst (by assumption) ?_
    | split
    )

end Sys2Proof.Machine
end

