-- ==== Sys2Proof/Laws/KeptHammerCore.lean ====
section
/-! SUPPORT. What the operations of Machine/HammerCore.lean keep. -/

namespace Sys2Proof.Machine

theorem setStat_kept {ρ : State} {s : State} {b : ℕ} {h : ℕ} {i : ℕ} (hk : Kept ρ s) :
    Kept ρ (setStat s b h i) := by
  unfold setStat
  try dsimp only
  repeat' (first
    | with_reducible assumption
    | with_reducible apply State.orReg_kept
    )

theorem raiseDlMiss_kept {ρ : State} {s : State} {b : ℕ} {h : ℕ} (hk : Kept ρ s) :
    Kept ρ (raiseDlMiss s b h) := by
  unfold raiseDlMiss
  try dsimp only
  repeat' (first
    | with_reducible assumption
    | with_reducible apply raisePrivate_kept
    | with_reducible apply setStat_kept
    )

theorem trapEnter_kept {ρ : State} {s : State} {b : ℕ} {h : ℕ} {cause : ℕ} {pc : ℕ} (hk : Kept ρ s) :
    Kept ρ (trapEnter s b h cause pc) := by
  unfold trapEnter
  try dsimp only
  repeat' (first
    | with_reducible assumption
    | with_reducible apply localFault_kept
    | with_reducible apply setStat_kept
    | with_reducible apply State.setHammer_kept
    | with_reducible apply State.setReg_kept
    | with_reducible refine Kept.fst (by assumption) ?_
    | split
    )

theorem freeSlot_kept {ρ : State} {s : State} {b : ℕ} {h : ℕ} {l : ℕ} (hk : Kept ρ s) :
    Kept ρ (freeSlot s b h l) := by
  unfold freeSlot
  try dsimp only
  repeat' (first
    | with_reducible assumption
    | with_reducible apply State.setSlot_kept
    | with_reducible apply State.setSrc_kept
    | with_reducible refine Kept.fst (by assumption) ?_
    | split
    )

theorem resetHammer_kept {ρ : State} {s : State} {b : ℕ} {h : ℕ} (hk : Kept ρ s) :
    Kept ρ (resetHammer s b h) := by
  unfold resetHammer
  try dsimp only
  repeat' (first
    | with_reducible assumption
    | with_reducible apply State.setHammer_kept
    | with_reducible apply State.setReg_kept
    | with_reducible apply State.clrReg_kept
    | with_reducible apply State.setPpend_kept
    | with_reducible apply State.setSticky_kept
    | with_reducible apply freeSlot_kept
    | with_reducible apply Kept.foldl
    | with_reducible apply Kept.foldlFst
    | with_reducible refine Kept.fst (by assumption) ?_
    | (unfold Kept Inv; dsimp only; refine (show Kept _ _ from ?_); with_reducible assumption)
    | split
    | intro _
    )

theorem hammerRun_kept {ρ : State} {s : State} {b : ℕ} {h : ℕ} (hk : Kept ρ s) :
    Kept ρ (hammerRun s b h) := by
  unfold hammerRun
  try dsimp only
  repeat' (first
    | with_reducible assumption
    | with_reducible apply State.setHammer_kept
    | with_reducible refine Kept.fst (by assumption) ?_
    | split
    )

theorem hammerStop_kept {ρ : State} {s : State} {b : ℕ} {h : ℕ} (hk : Kept ρ s) :
    Kept ρ (hammerStop s b h) := by
  unfold hammerStop
  try dsimp only
  repeat' (first
    | with_reducible assumption
    | with_reducible apply State.setHammer_kept
    | with_reducible refine Kept.fst (by assumption) ?_
    | split
    )

theorem serviceWrite_kept {ρ : State} {s : State} {who : Who} {b : ℕ} {h : ℕ} {on : Bool} (hk : Kept ρ s) :
    Kept ρ (serviceWrite s who b h on) := by
  unfold serviceWrite
  try dsimp only
  repeat' (first
    | with_reducible assumption
    | with_reducible apply State.setHammer_kept
    | with_reducible refine Kept.fst (by assumption) ?_
    | split
    )

theorem privErr_kept {ρ : State} {s : State} {who : Who} (hk : Kept ρ s) :
    Kept ρ (privErr s who) := by
  unfold privErr
  try dsimp only
  repeat' (first
    | with_reducible assumption
    | with_reducible apply setStat_kept
    | with_reducible refine Kept.fst (by assumption) ?_
    | split
    )

theorem guarded_kept {ρ s : State} {who : Who} {b h o : Nat} {f : State → State} (hf : ∀ s, Kept ρ s → Kept ρ (f s))
    (hk : Kept ρ s) : Kept ρ (guarded s who b h o f) := by
  unfold guarded
  split
  · exact hf s hk
  · exact privErr_kept hk

theorem execHammerRun_kept {ρ : State} {who : Who} {b : ℕ} {h : ℕ} {s : State} (hk : Kept ρ s) :
    ∃ s', execHammerRun who b h s = .next s' ∧ Kept ρ s' := by
  refine ⟨_, rfl, ?_⟩
  try dsimp only
  repeat' (first
    | with_reducible assumption
    | with_reducible apply guarded_kept
    | with_reducible apply hammerRun_kept
    | with_reducible refine Kept.fst (by assumption) ?_
    | split
    | intro _
    )

theorem execHammerStop_kept {ρ : State} {who : Who} {b : ℕ} {h : ℕ} {s : State} (hk : Kept ρ s) :
    ∃ s', execHammerStop who b h s = .next s' ∧ Kept ρ s' := by
  refine ⟨_, rfl, ?_⟩
  try dsimp only
  repeat' (first
    | with_reducible assumption
    | with_reducible apply guarded_kept
    | with_reducible apply hammerStop_kept
    | with_reducible refine Kept.fst (by assumption) ?_
    | split
    | intro _
    )

theorem execHammerReset_kept {ρ : State} {who : Who} {b : ℕ} {h : ℕ} {s : State} (hk : Kept ρ s) :
    ∃ s', execHammerReset who b h s = .next s' ∧ Kept ρ s' := by
  refine ⟨_, rfl, ?_⟩
  try dsimp only
  repeat' (first
    | with_reducible assumption
    | with_reducible apply guarded_kept
    | with_reducible apply resetHammer_kept
    | with_reducible refine Kept.fst (by assumption) ?_
    | split
    | intro _
    )

theorem execServiceModeWrite_kept {ρ : State} {who : Who} {b : ℕ} {h : ℕ} {on : Bool} {s : State} (hk : Kept ρ s) :
    ∃ s', execServiceModeWrite who b h on s = .next s' ∧ Kept ρ s' := by
  refine ⟨_, rfl, ?_⟩
  try dsimp only
  repeat' (first
    | with_reducible assumption
    | with_reducible apply guarded_kept
    | with_reducible apply serviceWrite_kept
    | with_reducible refine Kept.fst (by assumption) ?_
    | split
    | intro _
    )

theorem setProgWord_kept {ρ : State} {s : State} {b : ℕ} {h : ℕ} {pc : ℕ} {v : BitVec 14} (hk : Kept ρ s) :
    Kept ρ (setProgWord s b h pc v) := by
  unfold setProgWord
  try dsimp only
  repeat' (first
    | with_reducible assumption
    | with_reducible refine Kept.fst (by assumption) ?_
    | (unfold Kept Inv; dsimp only; refine (show Kept _ _ from ?_); with_reducible assumption)
    )

theorem setBankWord_kept {ρ : State} {s : State} {b : ℕ} {h : ℕ} {a : ℕ} {v : HWord} (hk : Kept ρ s) :
    Kept ρ (setBankWord s b h a v) := by
  unfold setBankWord
  try dsimp only
  repeat' (first
    | with_reducible assumption
    | with_reducible refine Kept.fst (by assumption) ?_
    | (unfold Kept Inv; dsimp only; refine (show Kept _ _ from ?_); with_reducible assumption)
    )

theorem pmAccess_kept {ρ : State} {s : State} {who : Who} {b : ℕ} {h : ℕ} {w : Option Word} (hk : Kept ρ s) :
    Kept ρ (pmAccess s who b h w).1 := by
  unfold pmAccess
  try dsimp only
  repeat' (first
    | with_reducible assumption
    | with_reducible apply State.setRf_kept
    | with_reducible apply privErr_kept
    | with_reducible apply setStat_kept
    | with_reducible apply setProgWord_kept
    | with_reducible refine Kept.fst (by assumption) ?_
    | split
    )

theorem execPmdataAccess_kept {ρ : State} {who : Who} {b : ℕ} {h : ℕ} {w : Option Word} {s : State} (hk : Kept ρ s) :
    ∃ s', execPmdataAccess who b h w s = .next s' ∧ Kept ρ s' := by
  refine ⟨_, rfl, ?_⟩
  try dsimp only
  repeat' (first
    | with_reducible assumption
    | with_reducible apply pmAccess_kept
    | with_reducible refine Kept.fst (by assumption) ?_
    | split
    )

theorem dmAccess_kept {ρ : State} {s : State} {who : Who} {b : ℕ} {h : ℕ} {w : Option Word} (hk : Kept ρ s) :
    Kept ρ (dmAccess s who b h w).1 := by
  unfold dmAccess
  try dsimp only
  repeat' (first
    | with_reducible assumption
    | with_reducible apply State.setRf_kept
    | with_reducible apply setBankWord_kept
    | with_reducible apply privErr_kept
    | with_reducible refine Kept.fst (by assumption) ?_
    | split
    )

theorem execDmdataAccess_kept {ρ : State} {who : Who} {b : ℕ} {h : ℕ} {w : Option Word} {s : State} (hk : Kept ρ s) :
    ∃ s', execDmdataAccess who b h w s = .next s' ∧ Kept ρ s' := by
  refine ⟨_, rfl, ?_⟩
  try dsimp only
  repeat' (first
    | with_reducible assumption
    | with_reducible apply dmAccess_kept
    | with_reducible refine Kept.fst (by assumption) ?_
    | split
    )

theorem dbgAccess_kept {ρ : State} {s : State} {who : Who} {b : ℕ} {h : ℕ} {w : Option Word} (hk : Kept ρ s) :
    Kept ρ (dbgAccess s who b h w).1 := by
  unfold dbgAccess
  try dsimp only
  repeat' (first
    | with_reducible assumption
    | with_reducible apply privErr_kept
    | with_reducible apply State.setHammer_kept
    | with_reducible refine Kept.fst (by assumption) ?_
    | split
    )

theorem execDbgdataAccess_kept {ρ : State} {who : Who} {b : ℕ} {h : ℕ} {w : Option Word} {s : State} (hk : Kept ρ s) :
    ∃ s', execDbgdataAccess who b h w s = .next s' ∧ Kept ρ s' := by
  refine ⟨_, rfl, ?_⟩
  try dsimp only
  repeat' (first
    | with_reducible assumption
    | with_reducible apply dbgAccess_kept
    | with_reducible refine Kept.fst (by assumption) ?_
    | split
    )

theorem ownWrite_kept {ρ : State} {s : State} {who : Who} {b : ℕ} {j : ℕ} {v : Word} (hk : Kept ρ s) :
    Kept ρ (ownWrite s who b j v) := by
  unfold ownWrite
  try dsimp only
  repeat' (first
    | with_reducible assumption
    | with_reducible apply State.setBreg_kept
    | with_reducible apply privErr_kept
    | with_reducible refine Kept.fst (by assumption) ?_
    | split
    )

theorem execPioOwnWrite_kept {ρ : State} {who : Who} {b : ℕ} {j : ℕ} {v : Word} {s : State} (hk : Kept ρ s) :
    ∃ s', execPioOwnWrite who b j v s = .next s' ∧ Kept ρ s' := by
  refine ⟨_, rfl, ?_⟩
  try dsimp only
  repeat' (first
    | with_reducible assumption
    | with_reducible apply ownWrite_kept
    | with_reducible refine Kept.fst (by assumption) ?_
    | split
    )

theorem endWait_kept {ρ : State} {s : State} {b : ℕ} {h : ℕ} {miss : Bool} {noRun : Bool} (hk : Kept ρ s) :
    Kept ρ (endWait s b h miss noRun) := by
  unfold endWait
  try dsimp only
  repeat' (first
    | with_reducible assumption
    | with_reducible apply State.setHammer_kept
    | with_reducible apply raiseDlMiss_kept
    | with_reducible refine Kept.fst (by assumption) ?_
    | split
    )

theorem waitersStop_kept {ρ : State} {s : State} {b : ℕ} {p : ℕ} (hk : Kept ρ s) :
    Kept ρ (waitersStop s b p) := by
  unfold waitersStop
  try dsimp only
  repeat' (first
    | with_reducible assumption
    | with_reducible apply endWait_kept
    | with_reducible apply Kept.foldl
    | with_reducible apply Kept.foldlFst
    | with_reducible refine Kept.fst (by assumption) ?_
    | split
    | intro _
    )

theorem waitMiss_kept {ρ : State} {s : State} {b : ℕ} {h : ℕ} (hk : Kept ρ s) :
    Kept ρ (waitMiss s b h) := by
  unfold waitMiss
  try dsimp only
  repeat' (first
    | with_reducible assumption
    | with_reducible apply endWait_kept
    )

theorem execWaitDeadline_kept {ρ : State} {b : ℕ} {h : ℕ} {s : State} (hk : Kept ρ s) :
    ∃ s', execWaitDeadline b h s = .next s' ∧ Kept ρ s' := by
  refine ⟨_, rfl, ?_⟩
  try dsimp only
  repeat' (first
    | with_reducible assumption
    | with_reducible apply waitMiss_kept
    | with_reducible refine Kept.fst (by assumption) ?_
    | split
    )

theorem interruptAccept_kept {ρ : State} {s : State} {b : ℕ} {h : ℕ} (hk : Kept ρ s) :
    Kept ρ (interruptAccept s b h) := by
  unfold interruptAccept
  try dsimp only
  repeat' (first
    | with_reducible assumption
    | with_reducible apply trapEnter_kept
    | with_reducible apply State.setHammer_kept
    | with_reducible refine Kept.fst (by assumption) ?_
    | split
    )

theorem execInterruptAccept_kept {ρ : State} {b : ℕ} {h : ℕ} {s : State} (hk : Kept ρ s) :
    ∃ s', execInterruptAccept b h s = .next s' ∧ Kept ρ s' := by
  refine ⟨_, rfl, ?_⟩
  try dsimp only
  repeat' (first
    | with_reducible assumption
    | with_reducible apply interruptAccept_kept
    | with_reducible refine Kept.fst (by assumption) ?_
    | split
    )

theorem claimSource_kept {ρ : State} {s : State} {b : ℕ} {h : ℕ} (hk : Kept ρ s) :
    Kept ρ (claimSource s b h).1 := by
  unfold claimSource
  try dsimp only
  repeat' (first
    | with_reducible assumption
    | with_reducible apply State.addRf_kept
    | with_reducible apply State.setSlot_kept
    | with_reducible apply State.setPpend_kept
    | with_reducible apply State.setSrc_kept
    | with_reducible refine Kept.fst (by assumption) ?_
    | (unfold Kept Inv; dsimp only; refine (show Kept _ _ from ?_); split)
    | split
    )

theorem execClaim_kept {ρ : State} {b : ℕ} {h : ℕ} {s : State} (hk : Kept ρ s) :
    ∃ s', execClaim b h s = .next s' ∧ Kept ρ s' := by
  refine ⟨_, rfl, ?_⟩
  try dsimp only
  repeat' (first
    | with_reducible assumption
    | with_reducible apply claimSource_kept
    | with_reducible refine Kept.fst (by assumption) ?_
    | split
    )

theorem completeId_kept {ρ : State} {s : State} {b : ℕ} {h : ℕ} {id : ℕ} (hk : Kept ρ s) :
    Kept ρ (completeId s b h id) := by
  unfold completeId
  try dsimp only
  repeat' (first
    | with_reducible assumption
    | with_reducible apply State.orReg_kept
    | with_reducible apply freeSlot_kept
    | with_reducible refine Kept.fst (by assumption) ?_
    | split
    )

theorem execComplete_kept {ρ : State} {b : ℕ} {h : ℕ} {id : ℕ} {s : State} (hk : Kept ρ s) :
    ∃ s', execComplete b h id s = .next s' ∧ Kept ρ s' := by
  refine ⟨_, rfl, ?_⟩
  try dsimp only
  repeat' (first
    | with_reducible assumption
    | with_reducible apply completeId_kept
    | with_reducible refine Kept.fst (by assumption) ?_
    | split
    )

theorem icSrcWrite_kept {ρ : State} {s : State} {b : ℕ} {i : ℕ} {v : Word} (hk : Kept ρ s) :
    Kept ρ (icSrcWrite s b i v) := by
  unfold icSrcWrite
  try dsimp only
  repeat' (first
    | with_reducible assumption
    | with_reducible apply State.setReg_kept
    | with_reducible apply State.setSrc_kept
    )

theorem execIcSrcWrite_kept {ρ : State} {b : ℕ} {i : ℕ} {v : Word} {s : State} (hk : Kept ρ s) :
    ∃ s', execIcSrcWrite b i v s = .next s' ∧ Kept ρ s' := by
  refine ⟨_, rfl, ?_⟩
  try dsimp only
  repeat' (first
    | with_reducible assumption
    | with_reducible apply icSrcWrite_kept
    | with_reducible refine Kept.fst (by assumption) ?_
    | split
    )

theorem privSet_kept {ρ : State} {s : State} {b : ℕ} {h : ℕ} {v : Word} (hk : Kept ρ s) :
    Kept ρ (privSet s b h v) := by
  unfold privSet
  try dsimp only
  repeat' (first
    | with_reducible assumption
    | with_reducible apply raisePrivate_kept
    | with_reducible apply Kept.foldl
    | with_reducible apply Kept.foldlFst
    | with_reducible refine Kept.fst (by assumption) ?_
    | split
    | intro _
    )

theorem execPrivateSoftwareSet_kept {ρ : State} {b : ℕ} {h : ℕ} {v : Word} {s : State} (hk : Kept ρ s) :
    ∃ s', execPrivateSoftwareSet b h v s = .next s' ∧ Kept ρ s' := by
  refine ⟨_, rfl, ?_⟩
  try dsimp only
  repeat' (first
    | with_reducible assumption
    | with_reducible apply privSet_kept
    | with_reducible refine Kept.fst (by assumption) ?_
    | split
    )

theorem execSoftwareSourceSet_kept {ρ : State} {b : ℕ} {j : ℕ} {v : Word} {s : State} (hk : Kept ρ s) :
    ∃ s', execSoftwareSourceSet b j v s = .next s' ∧ Kept ρ s' := by
  refine ⟨_, rfl, ?_⟩
  try dsimp only
  repeat' (first
    | with_reducible assumption
    | with_reducible apply State.setBreg_kept
    | with_reducible refine Kept.fst (by assumption) ?_
    | split
    )

theorem execSoftwareSourceClear_kept {ρ : State} {b : ℕ} {j : ℕ} {v : Word} {s : State} (hk : Kept ρ s) :
    ∃ s', execSoftwareSourceClear b j v s = .next s' ∧ Kept ρ s' := by
  refine ⟨_, rfl, ?_⟩
  try dsimp only
  repeat' (first
    | with_reducible assumption
    | with_reducible apply State.setBreg_kept
    | with_reducible refine Kept.fst (by assumption) ?_
    | split
    )

end Sys2Proof.Machine
end

