-- ==== Sys2Proof/Laws/KeptPins.lean ====
section
/-! SUPPORT. What the operations of Machine/Pins.lean keep. -/

namespace Sys2Proof.Machine

theorem State.setLegacy_kept {ρ : State} {s : State} {b : ℕ} {x : Legacy} (hk : Kept ρ s) :
    Kept ρ (State.setLegacy s b x) := by
  unfold State.setLegacy
  try dsimp only
  repeat' (first
    | with_reducible assumption
    | with_reducible refine Kept.fst (by assumption) ?_
    | (unfold Kept Inv; dsimp only; refine (show Kept _ _ from ?_); with_reducible assumption)
    )

theorem lppSet_kept {ρ : State} {s : State} {b : ℕ} {x : Legacy} {ok : Bool} (hk : Kept ρ s) :
    Kept ρ (lppSet s b x ok) := by
  unfold lppSet
  try dsimp only
  repeat' (first
    | with_reducible assumption
    | with_reducible apply State.setLegacy_kept
    | with_reducible apply State.orReg_kept
    | with_reducible refine Kept.fst (by assumption) ?_
    | split
    )

theorem lppFrameStart_kept {ρ : State} {s : State} {b : ℕ} {p : ℕ} (hk : Kept ρ s) :
    Kept ρ (lppFrameStart s b p) := by
  unfold lppFrameStart
  try dsimp only
  repeat' (first
    | with_reducible assumption
    | with_reducible apply lppSet_kept
    | with_reducible refine Kept.fst (by assumption) ?_
    | (unfold Kept Inv; dsimp only; refine (show Kept _ _ from ?_); split)
    | split
    )

theorem lppPortStop_kept {ρ : State} {s : State} {b : ℕ} {p : ℕ} (hk : Kept ρ s) :
    Kept ρ (lppPortStop s b p) := by
  unfold lppPortStop
  try dsimp only
  repeat' (first
    | with_reducible assumption
    | with_reducible apply lppSet_kept
    | with_reducible refine Kept.fst (by assumption) ?_
    | split
    )

theorem lppVsel_kept {ρ : State} {s : State} {b : ℕ} (hk : Kept ρ s) :
    Kept ρ (lppVsel s b) := by
  unfold lppVsel
  try dsimp only
  repeat' (first
    | with_reducible assumption
    | with_reducible apply lppSet_kept
    | with_reducible refine Kept.fst (by assumption) ?_
    | split
    )

theorem State.setBank_kept {ρ : State} {s : State} {b : ℕ} {k : ℕ} {x : Bank} (hk : Kept ρ s) :
    Kept ρ (State.setBank s b k x) := by
  unfold State.setBank
  try dsimp only
  repeat' (first
    | with_reducible assumption
    | with_reducible refine Kept.fst (by assumption) ?_
    | (unfold Kept Inv; dsimp only; refine (show Kept _ _ from ?_); with_reducible assumption)
    )

theorem State.setMatcher_kept {ρ : State} {s : State} {b : ℕ} {k : ℕ} {x : Matcher} (hk : Kept ρ s) :
    Kept ρ (State.setMatcher s b k x) := by
  unfold State.setMatcher
  try dsimp only
  repeat' (first
    | with_reducible assumption
    | with_reducible refine Kept.fst (by assumption) ?_
    | (unfold Kept Inv; dsimp only; refine (show Kept _ _ from ?_); with_reducible assumption)
    )

theorem pmFire_kept {ρ : State} {s : State} {b : ℕ} {k : ℕ} (hk : Kept ρ s) :
    Kept ρ (pmFire s b k) := by
  unfold pmFire
  try dsimp only
  repeat' (first
    | with_reducible assumption
    | with_reducible apply State.addReg_kept
    | with_reducible apply State.orReg_kept
    | with_reducible apply stickyAll_kept
    | with_reducible apply tallySource_kept
    | with_reducible apply reflexFire_kept
    | with_reducible apply pulseIrq_kept
    )

theorem pmEval_kept {ρ : State} {s : State} {b : ℕ} {k : ℕ} (hk : Kept ρ s) :
    Kept ρ (pmEval s b k) := by
  unfold pmEval
  try dsimp only
  repeat' (first
    | with_reducible assumption
    | with_reducible apply State.setMatcher_kept
    | with_reducible apply pmFire_kept
    | with_reducible refine Kept.fst (by assumption) ?_
    | split
    )

theorem pmAll_kept {ρ : State} {s : State} {b : ℕ} (hk : Kept ρ s) :
    Kept ρ (pmAll s b) := by
  unfold pmAll
  try dsimp only
  repeat' (first
    | with_reducible assumption
    | with_reducible apply pmEval_kept
    | with_reducible apply Kept.foldl
    | with_reducible apply Kept.foldlFst
    | with_reducible refine Kept.fst (by assumption) ?_
    | split
    | intro _
    )

theorem pmLoad_kept {ρ : State} {s : State} {b : ℕ} {k : ℕ} (hk : Kept ρ s) :
    Kept ρ (pmLoad s b k) := by
  unfold pmLoad
  try dsimp only
  repeat' (first
    | with_reducible assumption
    | with_reducible apply State.setMatcher_kept
    )

theorem pmQuiet_kept {ρ : State} {s : State} {b : ℕ} (hk : Kept ρ s) :
    Kept ρ (pmQuiet s b) := by
  unfold pmQuiet
  try dsimp only
  repeat' (first
    | with_reducible assumption
    | with_reducible apply State.setMatcher_kept
    | with_reducible apply Kept.foldl
    | with_reducible apply Kept.foldlFst
    | with_reducible refine Kept.fst (by assumption) ?_
    | split
    | intro _
    )

theorem pmWrite_kept {ρ : State} {s : State} {b : ℕ} {k : ℕ} {r : ℕ} {v : Word} (hk : Kept ρ s) :
    Kept ρ (pmWrite s b k r v) := by
  unfold pmWrite
  try dsimp only
  repeat' (first
    | with_reducible assumption
    | with_reducible apply State.setReg_kept
    | with_reducible apply pmLoad_kept
    | with_reducible refine Kept.fst (by assumption) ?_
    | split
    )

theorem execMatcherConfigWrite_kept {ρ : State} {b : ℕ} {k : ℕ} {r : ℕ} {v : Word} {s : State} (hk : Kept ρ s) :
    ∃ s', execMatcherConfigWrite b k r v s = .next s' ∧ Kept ρ s' := by
  refine ⟨_, rfl, ?_⟩
  try dsimp only
  repeat' (first
    | with_reducible assumption
    | with_reducible apply pmWrite_kept
    | with_reducible refine Kept.fst (by assumption) ?_
    | split
    )

theorem execMatcherTimeout_kept {ρ : State} {b : ℕ} {k : ℕ} {s : State} (hk : Kept ρ s) :
    ∃ s', execMatcherTimeout b k s = .next s' ∧ Kept ρ s' := by
  refine ⟨_, rfl, ?_⟩
  try dsimp only
  repeat' (first
    | with_reducible assumption
    | with_reducible apply atInstant_kept
    | with_reducible apply State.orReg_kept
    | with_reducible apply State.setMatcher_kept
    | with_reducible refine Kept.fst (by assumption) ?_
    | split
    | intro _
    )

theorem capQuiet_kept {ρ : State} {s : State} {b : ℕ} {n : ℕ} (hk : Kept ρ s) :
    Kept ρ (capQuiet s b n) := by
  unfold capQuiet
  try dsimp only
  repeat' (first
    | with_reducible assumption
    | with_reducible apply Kept.foldl
    | with_reducible apply Kept.foldlFst
    | with_reducible refine Kept.fst (by assumption) ?_
    | (unfold Kept Inv; dsimp only; refine (show Kept _ _ from ?_); with_reducible assumption)
    | split
    | intro _
    )

theorem irqQuiet_kept {ρ : State} {s : State} {b : ℕ} {n : ℕ} (hk : Kept ρ s) :
    Kept ρ (irqQuiet s b n) := by
  unfold irqQuiet
  try dsimp only
  repeat' (first
    | with_reducible assumption
    | with_reducible apply State.setSrc_kept
    | with_reducible apply irqSense_kept
    | with_reducible refine Kept.fst (by assumption) ?_
    | split
    )

theorem loadObserve_kept {ρ : State} {s : State} {b : ℕ} {ns : List ℕ} (hk : Kept ρ s) :
    Kept ρ (loadObserve s b ns) := by
  unfold loadObserve
  try dsimp only
  repeat' (first
    | with_reducible assumption
    | with_reducible apply State.setPin_kept
    | with_reducible apply irqQuiet_kept
    | with_reducible apply capQuiet_kept
    | with_reducible apply pmQuiet_kept
    | with_reducible apply Kept.foldl
    | with_reducible apply Kept.foldlFst
    | with_reducible refine Kept.fst (by assumption) ?_
    | split
    | intro _
    )

theorem pinEdge_kept {ρ : State} {s : State} {b : ℕ} {n : ℕ} (hk : Kept ρ s) :
    Kept ρ (pinEdge s b n) := by
  unfold pinEdge
  try dsimp only
  repeat' (first
    | with_reducible assumption
    | with_reducible apply State.orReg_kept
    | with_reducible apply stickyAll_kept
    | with_reducible apply tallySource_kept
    )

theorem pinLevel_kept {ρ : State} {s : State} {b : ℕ} {n : ℕ} {level : Bool} (hk : Kept ρ s) :
    Kept ρ (pinLevel s b n level) := by
  unfold pinLevel
  try dsimp only
  repeat' (first
    | with_reducible assumption
    | with_reducible apply State.setPin_kept
    | with_reducible apply pinEdge_kept
    | with_reducible apply pmAll_kept
    | with_reducible refine Kept.fst (by assumption) ?_
    | split
    )

theorem execPinLevelChange_kept {ρ : State} {b : ℕ} {n : ℕ} {level : Bool} {s : State} (hk : Kept ρ s) :
    ∃ s', execPinLevelChange b n level s = .next s' ∧ Kept ρ s' := by
  refine ⟨_, rfl, ?_⟩
  try dsimp only
  repeat' (first
    | with_reducible assumption
    | with_reducible apply pinLevel_kept
    | with_reducible refine Kept.fst (by assumption) ?_
    | split
    )

theorem cfgApply_kept {ρ : State} {s : State} {b : ℕ} {n : ℕ} {v : Word} (hk : Kept ρ s) :
    Kept ρ (cfgApply s b n v) := by
  unfold cfgApply
  try dsimp only
  repeat' (first
    | with_reducible assumption
    | with_reducible apply State.setPin_kept
    | with_reducible apply State.setBreg_kept
    | with_reducible apply State.orReg_kept
    | with_reducible refine Kept.fst (by assumption) ?_
    | split
    )

theorem cfgWrite_kept {ρ : State} {s : State} {b : ℕ} {n : ℕ} {v : Word} (hk : Kept ρ s) :
    Kept ρ (cfgWrite s b n v) := by
  unfold cfgWrite
  try dsimp only
  repeat' (first
    | with_reducible assumption
    | with_reducible apply State.setPin_kept
    | with_reducible apply bring_kept
    | with_reducible apply cfgApply_kept
    | with_reducible refine Kept.fst (by assumption) ?_
    | split
    )

theorem execPinCfgWrite_kept {ρ : State} {b : ℕ} {n : ℕ} {v : Word} {s : State} (hk : Kept ρ s) :
    ∃ s', execPinCfgWrite b n v s = .next s' ∧ Kept ρ s' := by
  refine ⟨_, rfl, ?_⟩
  try dsimp only
  repeat' (first
    | with_reducible assumption
    | with_reducible apply cfgWrite_kept
    | with_reducible refine Kept.fst (by assumption) ?_
    | split
    )

theorem switchEnd_kept {ρ : State} {s : State} {b : ℕ} {n : ℕ} (hk : Kept ρ s) :
    Kept ρ (switchEnd s b n) := by
  unfold switchEnd
  try dsimp only
  repeat' (first
    | with_reducible assumption
    | with_reducible apply State.setPin_kept
    | with_reducible apply loadObserve_kept
    | with_reducible apply cfgApply_kept
    | with_reducible apply bring_kept
    | with_reducible refine Kept.fst (by assumption) ?_
    | split
    )

theorem execPinSwitchEnd_kept {ρ : State} {b : ℕ} {n : ℕ} {s : State} (hk : Kept ρ s) :
    ∃ s', execPinSwitchEnd b n s = .next s' ∧ Kept ρ s' := by
  refine ⟨_, rfl, ?_⟩
  try dsimp only
  repeat' (first
    | with_reducible assumption
    | with_reducible apply atInstant_kept
    | with_reducible apply switchEnd_kept
    | with_reducible refine Kept.fst (by assumption) ?_
    | split
    | intro _
    )

theorem bankJudge_kept {ρ : State} {s : State} {b : ℕ} {k : ℕ} (hk : Kept ρ s) :
    Kept ρ (bankJudge s b k) := by
  unfold bankJudge
  try dsimp only
  repeat' (first
    | with_reducible assumption
    | with_reducible apply State.setBank_kept
    | with_reducible apply State.orReg_kept
    | with_reducible apply loadObserve_kept
    | with_reducible refine Kept.fst (by assumption) ?_
    | split
    )

theorem bankWrite_kept {ρ : State} {s : State} {b : ℕ} {k : ℕ} {v : Word} (hk : Kept ρ s) :
    Kept ρ (bankWrite s b k v) := by
  unfold bankWrite
  try dsimp only
  repeat' (first
    | with_reducible assumption
    | with_reducible apply State.setReg_kept
    | with_reducible apply bankJudge_kept
    | with_reducible apply lppVsel_kept
    | with_reducible refine Kept.fst (by assumption) ?_
    | split
    )

theorem execBankVselWrite_kept {ρ : State} {b : ℕ} {k : ℕ} {v : Word} {s : State} (hk : Kept ρ s) :
    ∃ s', execBankVselWrite b k v s = .next s' ∧ Kept ρ s' := by
  refine ⟨_, rfl, ?_⟩
  try dsimp only
  repeat' (first
    | with_reducible assumption
    | with_reducible apply bankWrite_kept
    | with_reducible refine Kept.fst (by assumption) ?_
    | split
    )

theorem execBankSupplyChange_kept {ρ : State} {b : ℕ} {k : ℕ} {cls : BankSupply} {s : State} (hk : Kept ρ s) :
    ∃ s', execBankSupplyChange b k cls s = .next s' ∧ Kept ρ s' := by
  refine ⟨_, rfl, ?_⟩
  try dsimp only
  repeat' (first
    | with_reducible assumption
    | with_reducible apply State.setBank_kept
    | with_reducible apply State.setPin_kept
    | with_reducible apply bankJudge_kept
    | with_reducible apply Kept.foldl
    | with_reducible apply Kept.foldlFst
    | with_reducible refine Kept.fst (by assumption) ?_
    | split
    | intro _
    )

theorem outWrite_kept {ρ : State} {s : State} {b : ℕ} {oe : Bool} {base : ℕ} {v : Word} (hk : Kept ρ s) :
    Kept ρ (outWrite s b oe base v) := by
  unfold outWrite
  try dsimp only
  repeat' (first
    | with_reducible assumption
    | with_reducible apply State.setPin_kept
    | with_reducible apply Kept.foldl
    | with_reducible apply Kept.foldlFst
    | with_reducible refine Kept.fst (by assumption) ?_
    | split
    | intro _
    )

end Sys2Proof.Machine
end

