-- ==== Sys2Proof/Laws/KeptCompose.lean ====
section
/-! SUPPORT. What the operations of Machine/Compose.lean keep. -/

namespace Sys2Proof.Machine

theorem State.setOut_kept {ρ : State} {s : State} {b : ℕ} {p : ℕ} {x : PortOut} (hk : Kept ρ s) :
    Kept ρ (State.setOut s b p x) := by
  unfold State.setOut
  try dsimp only
  repeat' (first
    | with_reducible assumption
    | with_reducible refine Kept.fst (by assumption) ?_
    | (unfold Kept Inv; dsimp only; refine (show Kept _ _ from ?_); with_reducible assumption)
    )

theorem State.setColl_kept {ρ : State} {s : State} {b : ℕ} {x : CollWork} (hk : Kept ρ s) :
    Kept ρ (State.setColl s b x) := by
  unfold State.setColl
  try dsimp only
  repeat' (first
    | with_reducible assumption
    | with_reducible refine Kept.fst (by assumption) ?_
    | (unfold Kept Inv; dsimp only; refine (show Kept _ _ from ?_); with_reducible assumption)
    )

theorem evalLayers_kept {ρ : State} {s : State} {v : View} {fl : ℕ × ℕ} (hk : Kept ρ s) :
    Kept ρ (evalLayers s v fl).1 := by
  unfold evalLayers
  try dsimp only
  repeat' (first
    | with_reducible assumption
    | with_reducible apply State.setReg_kept
    | with_reducible apply askColumns_kept
    | with_reducible apply askLayer_kept
    | with_reducible apply Kept.foldl
    | with_reducible apply Kept.foldlFst
    | with_reducible refine Kept.fst (by assumption) ?_
    | split
    | intro _
    )

theorem evalSprites_kept {ρ : State} {s : State} {v : View} {fl : ℕ × ℕ} (hk : Kept ρ s) :
    Kept ρ (evalSprites s v fl).1 := by
  unfold evalSprites
  try dsimp only
  repeat' (first
    | with_reducible assumption
    | with_reducible apply State.addReg_kept
    | with_reducible apply State.orReg_kept
    | with_reducible apply State.setReg_kept
    | with_reducible apply State.setColl_kept
    | with_reducible apply askAll_kept
    | with_reducible apply Kept.foldl
    | with_reducible apply Kept.foldlFst
    | with_reducible refine Kept.fst (by assumption) ?_
    | (unfold Kept Inv; dsimp only; refine (show Kept _ _ from ?_); with_reducible assumption)
    | split
    | intro _
    )

theorem evalVideo_kept {ρ : State} {s : State} {v : View} {fl : ℕ × ℕ} (hk : Kept ρ s) :
    Kept ρ (evalVideo s v fl).1 := by
  unfold evalVideo
  try dsimp only
  repeat' (first
    | with_reducible assumption
    | with_reducible apply vidFlip_kept
    | with_reducible apply State.setReg_kept
    | with_reducible apply State.setVideo_kept
    | with_reducible apply askAll_kept
    | with_reducible apply Kept.foldl
    | with_reducible apply Kept.foldlFst
    | with_reducible refine Kept.fst (by assumption) ?_
    | split
    | intro _
    )

theorem evalPlanes_kept {ρ : State} {p : State × Bool} {v : View} {fl : ℕ × ℕ} (hk : Kept ρ p.1) :
    Kept ρ (evalPlanes p v fl) := by
  unfold evalPlanes
  try dsimp only
  repeat' (first
    | with_reducible assumption
    | with_reducible apply arbEval_kept
    | with_reducible apply evalLayers_kept
    | with_reducible apply evalSprites_kept
    | with_reducible apply evalVideo_kept
    | with_reducible refine Kept.fst (by assumption) ?_
    | split
    )

theorem evalBillet_kept {ρ : State} {s : State} {v : View} {fl : ℕ × ℕ} (hk : Kept ρ s) :
    Kept ρ (evalBillet s v fl) := by
  unfold evalBillet
  try dsimp only
  repeat' (first
    | with_reducible assumption
    | with_reducible apply State.setFetchList_kept
    | with_reducible apply evalPlanes_kept
    | with_reducible apply retrainCheck_kept
    | with_reducible apply arbNewLine_kept
    )

theorem countUnder_kept {ρ : State} {s : State} {b : ℕ} {q : PixelIn} (hk : Kept ρ s) :
    Kept ρ (countUnder s b q) := by
  unfold countUnder
  try dsimp only
  repeat' (first
    | with_reducible assumption
    | with_reducible apply State.orReg_kept
    | with_reducible apply State.addReg_kept
    | with_reducible apply State.setColl_kept
    | with_reducible apply Kept.foldl
    | with_reducible apply Kept.foldlFst
    | with_reducible refine Kept.fst (by assumption) ?_
    | split
    | intro _
    )

theorem collideAt_kept {ρ : State} {s : State} {v : View} {fl : ℕ × ℕ} {q : PixelIn} {y : ℕ} (hk : Kept ρ s) :
    Kept ρ (collideAt s v fl q y) := by
  unfold collideAt
  try dsimp only
  repeat' (first
    | with_reducible assumption
    | with_reducible apply State.setColl_kept
    | with_reducible apply State.orReg_kept
    | with_reducible apply Kept.foldl
    | with_reducible apply Kept.foldlFst
    | with_reducible refine Kept.fst (by assumption) ?_
    | split
    )

theorem ctUse_kept {ρ : State} {s : State} {fl : ℕ × ℕ} {b : ℕ} {n : ℕ} {x : ℕ} {y : ℕ} (hk : Kept ρ s) :
    Kept ρ (ctUse s fl b n x y) := by
  unfold ctUse
  try dsimp only
  repeat' (first
    | with_reducible assumption
    | with_reducible apply State.setVideo_kept
    | with_reducible refine Kept.fst (by assumption) ?_
    | split
    )

theorem pixelEffects_kept {ρ : State} {s : State} {v : View} {fl : ℕ × ℕ} {q : PixelIn} {y : ℕ} (hk : Kept ρ s) :
    Kept ρ (pixelEffects s v fl q y) := by
  unfold pixelEffects
  try dsimp only
  repeat' (first
    | with_reducible assumption
    | with_reducible apply collideAt_kept
    | with_reducible apply countUnder_kept
    | with_reducible apply State.orReg_kept
    | with_reducible apply ctUse_kept
    | with_reducible apply Kept.foldl
    | with_reducible apply Kept.foldlFst
    | with_reducible refine Kept.fst (by assumption) ?_
    | split
    | intro _
    )

theorem countPortUnder_kept {ρ : State} {s : State} {b : ℕ} {p : ℕ} {dot : ℕ} {line : ℕ} (hk : Kept ρ s) :
    Kept ρ (countPortUnder s b p dot line) := by
  unfold countPortUnder
  try dsimp only
  repeat' (first
    | with_reducible assumption
    | with_reducible apply State.orReg_kept
    | with_reducible apply State.addReg_kept
    | with_reducible apply State.setOut_kept
    | with_reducible apply State.setReg_kept
    | with_reducible refine Kept.fst (by assumption) ?_
    | split
    )

theorem composeGroup_kept {ρ : State} {s : State} {b : ℕ} {p : ℕ} {g : ℕ} {ins : List (ℕ × Option PixelIn)} (hk : Kept ρ s) :
    Kept ρ (composeGroup s b p g ins) := by
  unfold composeGroup
  try dsimp only
  repeat' (first
    | with_reducible assumption
    | with_reducible apply pixelEffects_kept
    | with_reducible apply countPortUnder_kept
    | with_reducible apply State.setOut_kept
    | with_reducible apply Kept.foldl
    | with_reducible apply Kept.foldlFst
    | with_reducible refine Kept.fst (by assumption) ?_
    | split
    | intro _
    )

theorem execAnvilGroupCompose_kept {ρ : State} {b : ℕ} {p : ℕ} {g : ℕ} {s : State} (hk : Kept ρ s) :
    ∃ s', execAnvilGroupCompose b p g s = .next s' ∧ Kept ρ s' := by
  refine ⟨_, rfl, ?_⟩
  try dsimp only
  repeat' (first
    | with_reducible assumption
    | with_reducible apply composeGroup_kept
    | with_reducible refine Kept.fst (by assumption) ?_
    | split
    )

theorem markLate_kept {ρ : State} {s : State} {b : ℕ} {fl : ℕ × ℕ} {l : List (ℕ × ℕ × ℕ)} (hk : Kept ρ s) :
    Kept ρ (markLate s b fl l) := by
  unfold markLate
  try dsimp only
  repeat' (first
    | with_reducible assumption
    | with_reducible apply State.setColStore_kept
    | with_reducible apply State.setFetchList_kept
    | with_reducible apply Kept.foldl
    | with_reducible apply Kept.foldlFst
    | with_reducible refine Kept.fst (by assumption) ?_
    | split
    | intro _
    )

theorem groupBackground_kept {ρ : State} {s : State} {b : ℕ} {p : ℕ} {g : ℕ} {ins : List (ℕ × Option PixelIn)} (hk : Kept ρ s) :
    Kept ρ (groupBackground s b p g ins) := by
  unfold groupBackground
  try dsimp only
  repeat' (first
    | with_reducible assumption
    | with_reducible apply State.addRf_kept
    | with_reducible apply State.setOut_kept
    | with_reducible refine Kept.fst (by assumption) ?_
    | split
    )

theorem composeLate_kept {ρ : State} {s : State} {b : ℕ} {p : ℕ} {g : ℕ} {l : List (ℕ × ℕ × ℕ)} (hk : Kept ρ s) :
    Kept ρ (composeLate s b p g l) := by
  unfold composeLate
  try dsimp only
  repeat' (first
    | with_reducible assumption
    | with_reducible apply markLate_kept
    | with_reducible apply composeGroup_kept
    | with_reducible refine Kept.fst (by assumption) ?_
    | split
    )

theorem groupDeadline_kept {ρ : State} {s : State} {b : ℕ} {p : ℕ} {g : ℕ} (hk : Kept ρ s) :
    Kept ρ (groupDeadline s b p g) := by
  unfold groupDeadline
  try dsimp only
  repeat' (first
    | with_reducible assumption
    | with_reducible apply groupBackground_kept
    | with_reducible apply composeLate_kept
    | with_reducible refine Kept.fst (by assumption) ?_
    | split
    )

theorem execGroupDeadline_kept {ρ : State} {b : ℕ} {p : ℕ} {g : ℕ} {s : State} (hk : Kept ρ s) :
    ∃ s', execGroupDeadline b p g s = .next s' ∧ Kept ρ s' := by
  refine ⟨_, rfl, ?_⟩
  try dsimp only
  repeat' (first
    | with_reducible assumption
    | with_reducible apply atInstant_kept
    | with_reducible apply groupDeadline_kept
    | with_reducible refine Kept.fst (by assumption) ?_
    | split
    | intro _
    )

theorem lutWrite_kept {ρ : State} {s : State} {b : ℕ} {p : ℕ} {v : Word} (hk : Kept ρ s) :
    Kept ρ (lutWrite s b p v) := by
  unfold lutWrite
  try dsimp only
  repeat' (first
    | with_reducible assumption
    | with_reducible apply Kept.foldl
    | with_reducible apply Kept.foldlFst
    | with_reducible refine Kept.fst (by assumption) ?_
    | (unfold Kept Inv; dsimp only; refine (show Kept _ _ from ?_); with_reducible assumption)
    )

theorem legacyPixel_kept {ρ : State} {s : State} {b : ℕ} {p : ℕ} {q : OutPx} (hk : Kept ρ s) :
    Kept ρ (legacyPixel s b p q) := by
  unfold legacyPixel
  try dsimp only
  repeat' (first
    | with_reducible assumption
    | with_reducible apply State.setLegacy_kept
    | with_reducible refine Kept.fst (by assumption) ?_
    | split
    )

theorem pixelLeave_kept {ρ : State} {s : State} {b : ℕ} {p : ℕ} {ad : ℕ} {q : OutPx} (hk : Kept ρ s) :
    Kept ρ (pixelLeave s b p ad q) := by
  unfold pixelLeave
  try dsimp only
  repeat' (first
    | with_reducible assumption
    | with_reducible apply applyStrikesAt_kept
    | with_reducible apply settleLive_kept
    | with_reducible apply legacyPixel_kept
    | with_reducible apply State.setOut_kept
    )

theorem wbFrameEnd_kept {ρ : State} {s : State} {b : ℕ} {p : ℕ} (hk : Kept ρ s) :
    Kept ρ (wbFrameEnd s b p) := by
  unfold wbFrameEnd
  try dsimp only
  repeat' (first
    | with_reducible assumption
    | with_reducible apply State.setOut_kept
    | with_reducible apply dropSlot_kept
    | with_reducible refine Kept.fst (by assumption) ?_
    | split
    )

theorem wbFrameStart_kept {ρ : State} {s : State} {b : ℕ} {p : ℕ} (hk : Kept ρ s) :
    Kept ρ (wbFrameStart s b p) := by
  unfold wbFrameStart
  try dsimp only
  repeat' (first
    | with_reducible assumption
    | with_reducible apply wbFrameEnd_kept
    | with_reducible apply State.setOut_kept
    | with_reducible apply takeSlot_kept
    | with_reducible apply State.orReg_kept
    | with_reducible refine Kept.fst (by assumption) ?_
    | split
    )

theorem wbRow_kept {ρ : State} {s : State} {b : ℕ} {p : ℕ} {row : ℕ} (hk : Kept ρ s) :
    Kept ρ (wbRow s b p row) := by
  unfold wbRow
  try dsimp only
  repeat' (first
    | with_reducible assumption
    | with_reducible apply State.setOut_kept
    | with_reducible refine Kept.fst (by assumption) ?_
    | split
    )

theorem wbCount_kept {ρ : State} {s : State} {b : ℕ} {p : ℕ} (hk : Kept ρ s) :
    Kept ρ (wbCount s b p) := by
  unfold wbCount
  try dsimp only
  repeat' (first
    | with_reducible assumption
    | with_reducible apply State.addRf_kept
    | with_reducible apply State.orReg_kept
    )

theorem wbLose_kept {ρ : State} {s : State} {b : ℕ} {p : ℕ} (hk : Kept ρ s) :
    Kept ρ (wbLose s b p) := by
  unfold wbLose
  try dsimp only
  repeat' (first
    | with_reducible assumption
    | with_reducible apply wbCount_kept
    | with_reducible apply State.setOut_kept
    )

theorem wbOldLine_kept {ρ : State} {s : State} {b : ℕ} {p : ℕ} {cur : ℕ} (hk : Kept ρ s) :
    Kept ρ (wbOldLine s b p cur) := by
  unfold wbOldLine
  try dsimp only
  repeat' (first
    | with_reducible assumption
    | with_reducible apply wbCount_kept
    | with_reducible apply dropSlot_kept
    | with_reducible apply State.setOut_kept
    | with_reducible apply Kept.foldl
    | with_reducible apply Kept.foldlFst
    | with_reducible refine Kept.fst (by assumption) ?_
    | split
    | intro _
    )

theorem wbLineStart_kept {ρ : State} {s : State} {b : ℕ} {p : ℕ} (hk : Kept ρ s) :
    Kept ρ (wbLineStart s b p) := by
  unfold wbLineStart
  try dsimp only
  repeat' (first
    | with_reducible assumption
    | with_reducible apply wbOldLine_kept
    | with_reducible apply wbLose_kept
    | with_reducible apply State.setOut_kept
    | with_reducible apply Kept.foldl
    | with_reducible apply Kept.foldlFst
    | with_reducible refine Kept.fst (by assumption) ?_
    | split
    | intro _
    )

theorem wbAccept_kept {ρ : State} {s : State} {b : ℕ} {p : ℕ} {addr : ℕ} (hk : Kept ρ s) :
    Kept ρ (wbAccept s b p addr) := by
  unfold wbAccept
  try dsimp only
  repeat' (first
    | with_reducible assumption
    | with_reducible apply memWrite_kept
    | with_reducible apply State.setOut_kept
    | with_reducible refine Kept.fst (by assumption) ?_
    | split
    )

theorem execGddr6WriteAccept_kept {ρ : State} {b : ℕ} {req : ℕ} {addr : ℕ} {w : PinWrite} {s : State} (hk : Kept ρ s) :
    ∃ s', execGddr6WriteAccept b req addr w s = .next s' ∧ Kept ρ s' := by
  refine ⟨_, rfl, ?_⟩
  try dsimp only
  repeat' (first
    | with_reducible assumption
    | with_reducible apply State.addReg_kept
    | with_reducible apply wbAccept_kept
    | with_reducible apply memWrite_kept
    | with_reducible refine Kept.fst (by assumption) ?_
    | split
    )

theorem wbRecord_kept {ρ : State} {s : State} {b : ℕ} {p : ℕ} {w : WbOld} (hk : Kept ρ s) :
    Kept ρ (wbRecord s b p w) := by
  unfold wbRecord
  try dsimp only
  repeat' (first
    | with_reducible assumption
    | with_reducible apply State.setReg_kept
    | with_reducible refine Kept.fst (by assumption) ?_
    | (unfold Kept Inv; dsimp only; refine (show Kept _ _ from ?_); with_reducible assumption)
    | split
    )

theorem wbDone_kept {ρ : State} {s : State} {b : ℕ} {p : ℕ} (hk : Kept ρ s) :
    Kept ρ (wbDone s b p) := by
  induction p generalizing s b with
  | zero =>
    unfold wbDone
    try dsimp only
    repeat' (first
      | with_reducible assumption
      | with_reducible apply wbRecord_kept
      | with_reducible apply State.setOut_kept
      | with_reducible refine Kept.fst (by assumption) ?_
      | split
      )
  | succ m ih =>
    unfold wbDone
    try dsimp only
    repeat' (first
      | with_reducible assumption
      | with_reducible apply wbRecord_kept
      | with_reducible apply State.setOut_kept
      | with_reducible apply ih
      | with_reducible refine Kept.fst (by assumption) ?_
      | split
      )

theorem execWritebackFrameDone_kept {ρ : State} {b : ℕ} {p : ℕ} {s : State} (hk : Kept ρ s) :
    ∃ s', execWritebackFrameDone b p s = .next s' ∧ Kept ρ s' := by
  refine ⟨_, rfl, ?_⟩
  try dsimp only
  repeat' (first
    | with_reducible assumption
    | with_reducible apply wbDone_kept
    | with_reducible refine Kept.fst (by assumption) ?_
    | split
    )

theorem darkFrame_kept {ρ : State} {s : State} {b : ℕ} {p : ℕ} (hk : Kept ρ s) :
    Kept ρ (darkFrame s b p) := by
  unfold darkFrame
  try dsimp only
  repeat' (first
    | with_reducible assumption
    | with_reducible apply State.setOut_kept
    | with_reducible apply State.setReg_kept
    | with_reducible apply State.addReg_kept
    | with_reducible apply State.orReg_kept
    | with_reducible refine Kept.fst (by assumption) ?_
    | split
    )

theorem lineLeft_kept {ρ : State} {s : State} {b : ℕ} {p : ℕ} (hk : Kept ρ s) :
    Kept ρ (lineLeft s b p) := by
  unfold lineLeft
  try dsimp only
  repeat' (first
    | with_reducible assumption
    | with_reducible apply State.setOut_kept
    | with_reducible apply wbRow_kept
    | with_reducible apply darkFrame_kept
    | with_reducible refine Kept.fst (by assumption) ?_
    | split
    )

theorem passPixels_kept {ρ : State} {s : State} {b : ℕ} {p : ℕ} {t : ℕ} (hk : Kept ρ s) :
    Kept ρ (passPixels s b p t) := by
  unfold passPixels
  try dsimp only
  repeat' (first
    | with_reducible assumption
    | with_reducible apply State.setOut_kept
    | with_reducible apply pixelLeave_kept
    | with_reducible apply lineLeft_kept
    | with_reducible apply Kept.foldl
    | with_reducible apply Kept.foldlFst
    | with_reducible refine Kept.fst (by assumption) ?_
    | split
    | intro _
    )

theorem groupLeave_kept {ρ : State} {s : State} {b : ℕ} {p : ℕ} {g : ℕ} (hk : Kept ρ s) :
    Kept ρ (groupLeave s b p g) := by
  unfold groupLeave
  try dsimp only
  repeat' (first
    | with_reducible assumption
    | with_reducible apply groupDeadline_kept
    | with_reducible apply State.setOut_kept
    | with_reducible refine Kept.fst (by assumption) ?_
    | split
    )

theorem legacyDark_kept {ρ : State} {s : State} {b : ℕ} {p : ℕ} (hk : Kept ρ s) :
    Kept ρ (legacyDark s b p) := by
  unfold legacyDark
  try dsimp only
  repeat' (first
    | with_reducible assumption
    | with_reducible apply State.setLegacy_kept
    | with_reducible refine Kept.fst (by assumption) ?_
    | split
    )

theorem outLineStart_kept {ρ : State} {s : State} {b : ℕ} {p : ℕ} (hk : Kept ρ s) :
    Kept ρ (outLineStart s b p) := by
  unfold outLineStart
  try dsimp only
  repeat' (first
    | with_reducible assumption
    | with_reducible apply wbLose_kept
    | with_reducible apply State.setOut_kept
    | with_reducible apply legacyDark_kept
    | with_reducible apply wbLineStart_kept
    | with_reducible apply wbFrameStart_kept
    | with_reducible refine Kept.fst (by assumption) ?_
    | split
    )

theorem outStop_kept {ρ : State} {s : State} {b : ℕ} {p : ℕ} (hk : Kept ρ s) :
    Kept ρ (outStop s b p) := by
  unfold outStop
  try dsimp only
  repeat' (first
    | with_reducible assumption
    | with_reducible apply State.setOut_kept
    )

theorem detect_kept {ρ : State} {v : View} {s : State} {e : CollEntry} (hk : Kept ρ s) :
    Kept ρ (detect v s e) := by
  unfold detect
  try dsimp only
  repeat' (first
    | with_reducible assumption
    | with_reducible apply State.setColl_kept
    | with_reducible apply State.orReg_kept
    | with_reducible refine Kept.fst (by assumption) ?_
    | split
    )

theorem takeFound_kept {ρ : State} {s : State} {b : ℕ} {done : ℕ → Bool} (hk : Kept ρ s) :
    Kept ρ (takeFound s b done) := by
  unfold takeFound
  try dsimp only
  repeat' (first
    | with_reducible assumption
    | with_reducible apply detect_kept
    | with_reducible apply State.setColl_kept
    | with_reducible apply Kept.foldl
    | with_reducible apply Kept.foldlFst
    | with_reducible refine Kept.fst (by assumption) ?_
    | split
    | intro _
    )

theorem collClose_kept {ρ : State} {s : State} {b : ℕ} {cut : Bool} (hk : Kept ρ s) :
    Kept ρ (collClose s b cut) := by
  unfold collClose
  try dsimp only
  repeat' (first
    | with_reducible assumption
    | with_reducible apply State.setColl_kept
    | with_reducible apply State.orReg_kept
    | with_reducible apply State.setReg_kept
    | with_reducible apply Kept.foldl
    | with_reducible apply Kept.foldlFst
    | with_reducible refine Kept.fst (by assumption) ?_
    | split
    | intro _
    )

theorem collDue_kept {ρ : State} {s : State} {b : ℕ} {f0 : ℕ} (hk : Kept ρ s) :
    Kept ρ (collDue s b f0) := by
  unfold collDue
  try dsimp only
  repeat' (first
    | with_reducible assumption
    | with_reducible apply State.setColl_kept
    | with_reducible apply collClose_kept
    | with_reducible apply takeFound_kept
    | with_reducible refine Kept.fst (by assumption) ?_
    | (unfold Kept Inv; dsimp only; refine (show Kept _ _ from ?_); split)
    | split
    )

theorem collLine_kept {ρ : State} {s : State} {f0 : ℕ} (hk : Kept ρ s) :
    Kept ρ (collLine s f0) := by
  unfold collLine
  try dsimp only
  repeat' (first
    | with_reducible assumption
    | with_reducible apply State.eachBillet_kept
    | with_reducible apply collDue_kept
    | with_reducible apply State.setColl_kept
    | with_reducible apply State.setReg_kept
    | with_reducible refine Kept.fst (by assumption) ?_
    | split
    | intro _
    )

theorem ctFrameStart_kept {ρ : State} {s : State} (hk : Kept ρ s) :
    Kept ρ (ctFrameStart s) := by
  unfold ctFrameStart
  try dsimp only
  repeat' (first
    | with_reducible assumption
    | with_reducible apply State.eachBillet_kept
    | with_reducible apply State.setVideo_kept
    | with_reducible apply State.setReg_kept
    | with_reducible apply Kept.foldl
    | with_reducible apply Kept.foldlFst
    | with_reducible refine Kept.fst (by assumption) ?_
    | split
    | intro _
    )

end Sys2Proof.Machine
end

