-- ==== Sys2Proof/Laws/KeptTimers.lean ====
section
/-! SUPPORT. What the operations of Machine/Timers.lean keep. -/

namespace Sys2Proof.Machine

theorem tickStepAdd_kept {ρ : State} {s : State} {by' : ℕ} (hk : Kept ρ s) :
    Kept ρ (tickStepAdd s by') := by
  unfold tickStepAdd
  try dsimp only
  repeat' (first
    | with_reducible assumption
    | with_reducible refine Kept.fst (by assumption) ?_
    | (unfold Kept Inv; dsimp only; refine (show Kept _ _ from ?_); with_reducible assumption)
    )

theorem tickStepHi_kept {ρ : State} {s : State} {v : Word} (hk : Kept ρ s) :
    Kept ρ (tickStepHi s v) := by
  unfold tickStepHi
  try dsimp only
  repeat' (first
    | with_reducible assumption
    | with_reducible refine Kept.fst (by assumption) ?_
    | (unfold Kept Inv; dsimp only; refine (show Kept _ _ from ?_); with_reducible assumption)
    )

theorem execTickStepHiWrite_kept {ρ : State} {v : Word} {s : State} (hk : Kept ρ s) :
    ∃ s', execTickStepHiWrite v s = .next s' ∧ Kept ρ s' := by
  refine ⟨_, rfl, ?_⟩
  try dsimp only
  repeat' (first
    | with_reducible assumption
    | with_reducible apply tickStepHi_kept
    )

theorem tickStepLo_kept {ρ : State} {s : State} {v : Word} (hk : Kept ρ s) :
    Kept ρ (tickStepLo s v) := by
  unfold tickStepLo
  try dsimp only
  repeat' (first
    | with_reducible assumption
    | with_reducible apply tickStepAdd_kept
    | with_reducible apply tickStepHi_kept
    )

theorem execTickStepLoWrite_kept {ρ : State} {v : Word} {s : State} (hk : Kept ρ s) :
    ∃ s', execTickStepLoWrite v s = .next s' ∧ Kept ρ s' := by
  refine ⟨_, rfl, ?_⟩
  try dsimp only
  repeat' (first
    | with_reducible assumption
    | with_reducible apply tickStepLo_kept
    )

theorem tickStepApply_kept {ρ : State} {s : State} (hk : Kept ρ s) :
    Kept ρ (tickStepApply s) := by
  unfold tickStepApply
  try dsimp only
  repeat' (first
    | with_reducible assumption
    | with_reducible apply tickCross_kept
    | with_reducible apply State.orReg_kept
    | with_reducible refine Kept.fst (by assumption) ?_
    | (unfold Kept Inv; dsimp only; refine (show Kept _ _ from ?_); with_reducible assumption)
    | split
    )

theorem execTickStepApply_kept {ρ : State} {s : State} (hk : Kept ρ s) :
    ∃ s', execTickStepApply s = .next s' ∧ Kept ρ s' := by
  refine ⟨_, rfl, ?_⟩
  try dsimp only
  repeat' (first
    | with_reducible assumption
    | with_reducible apply atInstant_kept
    | with_reducible apply tickStepApply_kept
    | with_reducible refine Kept.fst (by assumption) ?_
    | split
    )

theorem tickLatch_kept {ρ : State} {s : State} {who : Who} {b : ℕ} (hk : Kept ρ s) :
    Kept ρ (tickLatch s who b).1 := by
  unfold tickLatch
  try dsimp only
  repeat' (first
    | with_reducible assumption
    | with_reducible apply State.latch_kept
    )

theorem execTickLatchRead_kept {ρ : State} {who : Who} {b : ℕ} {s : State} (hk : Kept ρ s) :
    ∃ s', execTickLatchRead who b s = .next s' ∧ Kept ρ s' := by
  refine ⟨_, rfl, ?_⟩
  try dsimp only
  repeat' (first
    | with_reducible assumption
    | with_reducible apply tickLatch_kept
    | with_reducible refine Kept.fst (by assumption) ?_
    | split
    )

theorem State.setCompare_kept {ρ : State} {s : State} {b : ℕ} {k : ℕ} {x : Compare} (hk : Kept ρ s) :
    Kept ρ (State.setCompare s b k x) := by
  unfold State.setCompare
  try dsimp only
  repeat' (first
    | with_reducible assumption
    | with_reducible refine Kept.fst (by assumption) ?_
    | (unfold Kept Inv; dsimp only; refine (show Kept _ _ from ?_); with_reducible assumption)
    )

theorem cmpArm_kept {ρ : State} {s : State} {b : ℕ} {k : ℕ} (hk : Kept ρ s) :
    Kept ρ (cmpArm s b k) := by
  unfold cmpArm
  try dsimp only
  repeat' (first
    | with_reducible assumption
    | with_reducible apply State.setCompare_kept
    )

theorem cmpHalt_kept {ρ : State} {s : State} {b : ℕ} {k : ℕ} (hk : Kept ρ s) :
    Kept ρ (cmpHalt s b k) := by
  unfold cmpHalt
  try dsimp only
  repeat' (first
    | with_reducible assumption
    | with_reducible apply State.setCompare_kept
    )

theorem cmpCtrl_kept {ρ : State} {s : State} {b : ℕ} {k : ℕ} {v : Word} (hk : Kept ρ s) :
    Kept ρ (cmpCtrl s b k v) := by
  unfold cmpCtrl
  try dsimp only
  repeat' (first
    | with_reducible assumption
    | with_reducible apply State.setReg_kept
    | with_reducible apply cmpArm_kept
    | with_reducible apply cmpHalt_kept
    | with_reducible refine Kept.fst (by assumption) ?_
    | split
    )

theorem cmpTlo_kept {ρ : State} {s : State} {b : ℕ} {k : ℕ} {v : Word} (hk : Kept ρ s) :
    Kept ρ (cmpTlo s b k v) := by
  unfold cmpTlo
  try dsimp only
  repeat' (first
    | with_reducible assumption
    | with_reducible apply State.setReg_kept
    | with_reducible apply State.setCompare_kept
    | with_reducible apply cmpArm_kept
    | with_reducible refine Kept.fst (by assumption) ?_
    | split
    )

theorem cmpShadow_kept {ρ : State} {s : State} {b : ℕ} {k : ℕ} {o : ℕ} {v : Word} (hk : Kept ρ s) :
    Kept ρ (cmpShadow s b k o v) := by
  unfold cmpShadow
  try dsimp only
  repeat' (first
    | with_reducible assumption
    | with_reducible apply State.setReg_kept
    | with_reducible apply State.setCompare_kept
    | with_reducible refine Kept.fst (by assumption) ?_
    | split
    )

theorem execCompareArm_kept {ρ : State} {b : ℕ} {k : ℕ} {r : ℕ} {v : Word} {s : State} (hk : Kept ρ s) :
    ∃ s', execCompareArm b k r v s = .next s' ∧ Kept ρ s' := by
  refine ⟨_, rfl, ?_⟩
  try dsimp only
  repeat' (first
    | with_reducible assumption
    | with_reducible apply cmpCtrl_kept
    | with_reducible apply cmpTlo_kept
    | with_reducible refine Kept.fst (by assumption) ?_
    | split
    )

theorem execCompareStop_kept {ρ : State} {b : ℕ} {k : ℕ} {r : ℕ} {v : Word} {s : State} (hk : Kept ρ s) :
    ∃ s', execCompareStop b k r v s = .next s' ∧ Kept ρ s' := by
  refine ⟨_, rfl, ?_⟩
  try dsimp only
  repeat' (first
    | with_reducible assumption
    | with_reducible apply cmpCtrl_kept
    | with_reducible refine Kept.fst (by assumption) ?_
    | split
    )

theorem cmpFired_kept {ρ : State} {s : State} {b : ℕ} {k : ℕ} {bits' : ℕ} (hk : Kept ρ s) :
    Kept ρ (cmpFired s b k bits') := by
  unfold cmpFired
  try dsimp only
  repeat' (first
    | with_reducible assumption
    | with_reducible apply tngSignal_kept
    | with_reducible apply tallySource_kept
    | with_reducible apply pulseIrq_kept
    | with_reducible apply State.orReg_kept
    )

theorem cmpBegin_kept {ρ : State} {s : State} {b : ℕ} {k : ℕ} (hk : Kept ρ s) :
    Kept ρ (cmpBegin s b k) := by
  unfold cmpBegin
  try dsimp only
  repeat' (first
    | with_reducible assumption
    | with_reducible apply State.setCompare_kept
    )

theorem cmpFire_kept {ρ : State} {s : State} {b : ℕ} {k : ℕ} (hk : Kept ρ s) :
    Kept ρ (cmpFire s b k) := by
  unfold cmpFire
  try dsimp only
  repeat' (first
    | with_reducible assumption
    | with_reducible apply cmpFired_kept
    | with_reducible apply cmpBegin_kept
    | with_reducible apply State.setCompare_kept
    | with_reducible refine Kept.fst (by assumption) ?_
    | split
    )

theorem execCompareFire_kept {ρ : State} {b : ℕ} {k : ℕ} {s : State} (hk : Kept ρ s) :
    ∃ s', execCompareFire b k s = .next s' ∧ Kept ρ s' := by
  refine ⟨_, rfl, ?_⟩
  try dsimp only
  repeat' (first
    | with_reducible assumption
    | with_reducible apply atInstant_kept
    | with_reducible apply cmpFire_kept
    | with_reducible refine Kept.fst (by assumption) ?_
    | split
    | intro _
    )

theorem cmpWrap_kept {ρ : State} {s : State} {b : ℕ} {k : ℕ} (hk : Kept ρ s) :
    Kept ρ (cmpWrap s b k) := by
  unfold cmpWrap
  try dsimp only
  repeat' (first
    | with_reducible assumption
    | with_reducible apply cmpFired_kept
    | with_reducible apply cmpBegin_kept
    | with_reducible refine Kept.fst (by assumption) ?_
    | split
    )

theorem execCompareWrap_kept {ρ : State} {b : ℕ} {k : ℕ} {s : State} (hk : Kept ρ s) :
    ∃ s', execCompareWrap b k s = .next s' ∧ Kept ρ s' := by
  refine ⟨_, rfl, ?_⟩
  try dsimp only
  repeat' (first
    | with_reducible assumption
    | with_reducible apply atInstant_kept
    | with_reducible apply cmpWrap_kept
    | with_reducible refine Kept.fst (by assumption) ?_
    | split
    | intro _
    )

theorem State.setCapture_kept {ρ : State} {s : State} {b : ℕ} {c : ℕ} {x : Capture} (hk : Kept ρ s) :
    Kept ρ (State.setCapture s b c x) := by
  unfold State.setCapture
  try dsimp only
  repeat' (first
    | with_reducible assumption
    | with_reducible refine Kept.fst (by assumption) ?_
    | (unfold Kept Inv; dsimp only; refine (show Kept _ _ from ?_); with_reducible assumption)
    )

theorem capRecord_kept {ρ : State} {s : State} {b : ℕ} {c : ℕ} {lag : ℕ} (hk : Kept ρ s) :
    Kept ρ (capRecord s b c lag) := by
  unfold capRecord
  try dsimp only
  repeat' (first
    | with_reducible assumption
    | with_reducible apply State.setCapture_kept
    | with_reducible apply State.setReg_kept
    | with_reducible apply tallySource_kept
    | with_reducible apply pulseIrq_kept
    | with_reducible refine Kept.fst (by assumption) ?_
    | split
    )

theorem capTake_kept {ρ : State} {s : State} {b : ℕ} {c : ℕ} {lag : ℕ} (hk : Kept ρ s) :
    Kept ρ (capTake s b c lag) := by
  unfold capTake
  try dsimp only
  repeat' (first
    | with_reducible assumption
    | with_reducible apply State.orReg_kept
    | with_reducible apply capRecord_kept
    | with_reducible refine Kept.fst (by assumption) ?_
    | split
    )

theorem capAccept_kept {ρ : State} {s : State} {b : ℕ} {c : ℕ} {lag : ℕ} (hk : Kept ρ s) :
    Kept ρ (capAccept s b c lag) := by
  unfold capAccept
  try dsimp only
  repeat' (first
    | with_reducible assumption
    | with_reducible apply State.setCapture_kept
    | with_reducible apply capTake_kept
    | with_reducible refine Kept.fst (by assumption) ?_
    | split
    )

theorem capEvent_kept {ρ : State} {s : State} {b : ℕ} {c : ℕ} (hk : Kept ρ s) :
    Kept ρ (capEvent s b c) := by
  unfold capEvent
  try dsimp only
  repeat' (first
    | with_reducible assumption
    | with_reducible apply capAccept_kept
    | with_reducible apply State.nextFree_kept
    | with_reducible refine Kept.fst (by assumption) ?_
    | split
    )

theorem execCapture_kept {ρ : State} {b : ℕ} {c : ℕ} {s : State} (hk : Kept ρ s) :
    ∃ s', execCapture b c s = .next s' ∧ Kept ρ s' := by
  refine ⟨_, rfl, ?_⟩
  try dsimp only
  repeat' (first
    | with_reducible assumption
    | with_reducible apply atInstant_kept
    | with_reducible apply capEvent_kept
    | with_reducible refine Kept.fst (by assumption) ?_
    | split
    | intro _
    )

theorem capWrite_kept {ρ : State} {s : State} {b : ℕ} {c : ℕ} {r : ℕ} {v : Word} (hk : Kept ρ s) :
    Kept ρ (capWrite s b c r v) := by
  unfold capWrite
  try dsimp only
  repeat' (first
    | with_reducible assumption
    | with_reducible apply State.setReg_kept
    | with_reducible apply State.setCapture_kept
    | with_reducible refine Kept.fst (by assumption) ?_
    | split
    )

theorem execCaptureChannelWrite_kept {ρ : State} {b : ℕ} {c : ℕ} {r : ℕ} {v : Word} {s : State} (hk : Kept ρ s) :
    ∃ s', execCaptureChannelWrite b c r v s = .next s' ∧ Kept ρ s' := by
  refine ⟨_, rfl, ?_⟩
  try dsimp only
  repeat' (first
    | with_reducible assumption
    | with_reducible apply capWrite_kept
    | with_reducible refine Kept.fst (by assumption) ?_
    | split
    )

theorem capLatch_kept {ρ : State} {s : State} {who : Who} {b : ℕ} {c : ℕ} (hk : Kept ρ s) :
    Kept ρ (capLatch s who b c).1 := by
  unfold capLatch
  try dsimp only
  repeat' (first
    | with_reducible assumption
    | with_reducible apply State.latch_kept
    )

theorem execCaptureLatchRead_kept {ρ : State} {who : Who} {b : ℕ} {c : ℕ} {s : State} (hk : Kept ρ s) :
    ∃ s', execCaptureLatchRead who b c s = .next s' ∧ Kept ρ s' := by
  refine ⟨_, rfl, ?_⟩
  try dsimp only
  repeat' (first
    | with_reducible assumption
    | with_reducible apply capLatch_kept
    | with_reducible refine Kept.fst (by assumption) ?_
    | split
    )

end Sys2Proof.Machine
end

