-- ==== Sys2Proof/Laws/KeptLanes.lean ====
section
/-! SUPPORT. What the operations of Machine/Lanes.lean keep. -/

namespace Sys2Proof.Machine

theorem State.setLane_kept {ρ : State} {s : State} {b : ℕ} {l : ℕ} {x : Lane} (hk : Kept ρ s) :
    Kept ρ (State.setLane s b l x) := by
  unfold State.setLane
  try dsimp only
  repeat' (first
    | with_reducible assumption
    | with_reducible refine Kept.fst (by assumption) ?_
    | (unfold Kept Inv; dsimp only; refine (show Kept _ _ from ?_); with_reducible assumption)
    )

theorem laneCtrl_kept {ρ : State} {s : State} {b : ℕ} {l : ℕ} {v : Word} (hk : Kept ρ s) :
    Kept ρ (laneCtrl s b l v) := by
  unfold laneCtrl
  try dsimp only
  repeat' (first
    | with_reducible assumption
    | with_reducible apply State.setReg_kept
    | with_reducible apply State.orReg_kept
    | with_reducible apply State.clrReg_kept
    | with_reducible refine Kept.fst (by assumption) ?_
    | split
    )

theorem laneLink_kept {ρ : State} {s : State} {b : ℕ} {l : ℕ} {up : Bool} (hk : Kept ρ s) :
    Kept ρ (laneLink s b l up) := by
  unfold laneLink
  try dsimp only
  repeat' (first
    | with_reducible assumption
    | with_reducible apply State.orReg_kept
    | with_reducible apply State.clrReg_kept
    | with_reducible refine Kept.fst (by assumption) ?_
    | split
    )

theorem laneDrop_kept {ρ : State} {s : State} {b : ℕ} {l : ℕ} (hk : Kept ρ s) :
    Kept ρ (laneDrop s b l) := by
  unfold laneDrop
  try dsimp only
  repeat' (first
    | with_reducible assumption
    | with_reducible apply State.addReg_kept
    | with_reducible apply State.orReg_kept
    )

theorem senderDrop_kept {ρ : State} {s : State} {stat : ℕ} (hk : Kept ρ s) :
    Kept ρ (senderDrop s stat) := by
  unfold senderDrop
  try dsimp only
  repeat' (first
    | with_reducible assumption
    | with_reducible apply State.orReg_kept
    | with_reducible refine Kept.fst (by assumption) ?_
    | split
    )

theorem laneSend_kept {ρ : State} {s : State} {b : ℕ} {l : ℕ} {cls : ℕ} {stat : ℕ} {f : List Byte} (hk : Kept ρ s) :
    Kept ρ (laneSend s b l cls stat f).1 := by
  unfold laneSend
  try dsimp only
  repeat' (first
    | with_reducible assumption
    | with_reducible apply State.setLane_kept
    | with_reducible apply senderDrop_kept
    | with_reducible apply laneDrop_kept
    | with_reducible refine Kept.fst (by assumption) ?_
    | split
    )

theorem fwAdvance_kept {ρ : State} {s : State} {b : ℕ} (hk : Kept ρ s) :
    Kept ρ (fwAdvance s b) := by
  unfold fwAdvance
  try dsimp only
  repeat' (first
    | with_reducible assumption
    | with_reducible apply State.setRf_kept
    )

theorem fwSent_kept {ρ : State} {s : State} {b : ℕ} (hk : Kept ρ s) :
    Kept ρ (fwSent s b) := by
  unfold fwSent
  try dsimp only
  repeat' (first
    | with_reducible assumption
    | with_reducible apply State.orReg_kept
    | with_reducible apply fwAdvance_kept
    | with_reducible apply State.hwrite_kept
    )

theorem ptpSent_kept {ρ : State} {s : State} (hk : Kept ρ s) :
    Kept ρ (ptpSent s) := by
  unfold ptpSent
  try dsimp only
  repeat' (first
    | with_reducible assumption
    | with_reducible refine Kept.fst (by assumption) ?_
    | (unfold Kept Inv; dsimp only; refine (show Kept _ _ from ?_); with_reducible assumption)
    | split
    )

theorem laneStart_kept {ρ : State} {s : State} {b : ℕ} {l : ℕ} (hk : Kept ρ s) :
    Kept ρ (laneStart s b l) := by
  unfold laneStart
  try dsimp only
  repeat' (first
    | with_reducible assumption
    | with_reducible apply State.addReg_kept
    | with_reducible apply State.setLane_kept
    | with_reducible apply ptpSent_kept
    | with_reducible apply fwSent_kept
    | with_reducible apply senderDrop_kept
    | with_reducible apply laneDrop_kept
    | with_reducible apply fwAdvance_kept
    | with_reducible refine Kept.fst (by assumption) ?_
    | split
    )

theorem execTransmitFrameStart_kept {ρ : State} {b : ℕ} {l : ℕ} {s : State} (hk : Kept ρ s) :
    ∃ s', execTransmitFrameStart b l s = .next s' ∧ Kept ρ s' := by
  refine ⟨_, rfl, ?_⟩
  try dsimp only
  repeat' (first
    | with_reducible assumption
    | with_reducible apply atInstant_kept
    | with_reducible apply laneStart_kept
    | with_reducible refine Kept.fst (by assumption) ?_
    | split
    | intro _
    )

theorem sendCopies_kept {ρ : State} {s : State} {b : ℕ} {base : ℕ} {cls : ℕ} {copies : List (ℕ × List Byte)} (hk : Kept ρ s) :
    Kept ρ (sendCopies s b base cls copies) := by
  unfold sendCopies
  try dsimp only
  repeat' (first
    | with_reducible assumption
    | with_reducible apply laneSend_kept
    | with_reducible apply State.addReg_kept
    | with_reducible apply Kept.foldl
    | with_reducible apply Kept.foldlFst
    | with_reducible refine Kept.fst (by assumption) ?_
    | split
    | intro _
    )

theorem State.setRaster_kept {ρ : State} {s : State} {b : ℕ} {p : ℕ} {x : RasterTx} (hk : Kept ρ s) :
    Kept ρ (State.setRaster s b p x) := by
  unfold State.setRaster
  try dsimp only
  repeat' (first
    | with_reducible assumption
    | with_reducible refine Kept.fst (by assumption) ?_
    | (unfold Kept Inv; dsimp only; refine (show Kept _ _ from ?_); with_reducible assumption)
    )

theorem rasterRelease_kept {ρ : State} {s : State} {b : ℕ} {p : ℕ} {copies : List (ℕ × List Byte)} (hk : Kept ρ s) :
    Kept ρ (rasterRelease s b p copies) := by
  unfold rasterRelease
  try dsimp only
  repeat' (first
    | with_reducible assumption
    | with_reducible apply sendCopies_kept
    )

theorem rasterReady_kept {ρ : State} {s : State} {b : ℕ} {p : ℕ} {i : ℕ} {n : ℕ} {last : Bool} {clamp : Bool} (hk : Kept ρ s) :
    Kept ρ (rasterReady s b p i n last clamp) := by
  unfold rasterReady
  try dsimp only
  repeat' (first
    | with_reducible assumption
    | with_reducible apply State.addReg_kept
    | with_reducible apply State.orReg_kept
    | with_reducible apply rasterRelease_kept
    | with_reducible apply State.setRaster_kept
    | with_reducible refine Kept.fst (by assumption) ?_
    | split
    )

theorem rasterFeed_kept {ρ : State} {s : State} {b : ℕ} {p : ℕ} {x3 : ℕ} (hk : Kept ρ s) :
    Kept ρ (rasterFeed s b p x3) := by
  induction x3 generalizing s b p with
  | zero =>
    unfold rasterFeed
    try dsimp only
    repeat' (with_reducible assumption)
  | succ m ih =>
    unfold rasterFeed
    try dsimp only
    repeat' (first
      | with_reducible assumption
      | with_reducible apply State.setRaster_kept
      | with_reducible apply rasterReady_kept
      | with_reducible apply ih
      | with_reducible refine Kept.fst (by assumption) ?_
      | split
      )

theorem rasterLineStart_kept {ρ : State} {s : State} {b : ℕ} {p : ℕ} (hk : Kept ρ s) :
    Kept ρ (rasterLineStart s b p) := by
  unfold rasterLineStart
  try dsimp only
  repeat' (first
    | with_reducible assumption
    | with_reducible apply State.setRaster_kept
    | with_reducible apply State.orReg_kept
    | with_reducible refine Kept.fst (by assumption) ?_
    | split
    )

theorem rasterNext_kept {ρ : State} {s : State} {b : ℕ} {p : ℕ} (hk : Kept ρ s) :
    Kept ρ (rasterNext s b p) := by
  unfold rasterNext
  try dsimp only
  repeat' (first
    | with_reducible assumption
    | with_reducible apply rasterRelease_kept
    | with_reducible apply State.setRaster_kept
    | with_reducible refine Kept.fst (by assumption) ?_
    | split
    )

theorem execRasterPacketRelease_kept {ρ : State} {b : ℕ} {p : ℕ} {s : State} (hk : Kept ρ s) :
    ∃ s', execRasterPacketRelease b p s = .next s' ∧ Kept ρ s' := by
  refine ⟨_, rfl, ?_⟩
  try dsimp only
  repeat' (first
    | with_reducible assumption
    | with_reducible apply atInstant_kept
    | with_reducible apply rasterNext_kept
    | with_reducible refine Kept.fst (by assumption) ?_
    | split
    | intro _
    )

theorem fwReceive_kept {ρ : State} {s : State} {b : ℕ} {l : ℕ} {cls : ℕ} {f : List Byte} (hk : Kept ρ s) :
    Kept ρ (fwReceive s b l cls f) := by
  unfold fwReceive
  try dsimp only
  repeat' (first
    | with_reducible assumption
    | with_reducible apply State.orReg_kept
    | with_reducible apply State.addReg_kept
    | with_reducible apply State.setRf_kept
    | with_reducible apply State.hwrite_kept
    | with_reducible refine Kept.fst (by assumption) ?_
    | split
    )

theorem fwSend_kept {ρ : State} {s : State} {b : ℕ} (hk : Kept ρ s) :
    Kept ρ (fwSend s b) := by
  unfold fwSend
  try dsimp only
  repeat' (first
    | with_reducible assumption
    | with_reducible apply State.orReg_kept
    | with_reducible apply fwAdvance_kept
    | with_reducible apply laneSend_kept
    | with_reducible apply laneStart_kept
    | with_reducible refine Kept.fst (by assumption) ?_
    | split
    )

theorem execFirmwareTxSend_kept {ρ : State} {b : ℕ} {s : State} (hk : Kept ρ s) :
    ∃ s', execFirmwareTxSend b s = .next s' ∧ Kept ρ s' := by
  refine ⟨_, rfl, ?_⟩
  try dsimp only
  repeat' (first
    | with_reducible assumption
    | with_reducible apply fwSend_kept
    | with_reducible refine Kept.fst (by assumption) ?_
    | split
    )

end Sys2Proof.Machine
end

