-- ==== Sys2Proof/Laws/KeptTuyere.lean ====
section
/-! SUPPORT. What the operations of Machine/Tuyere.lean keep. -/

namespace Sys2Proof.Machine

theorem State.setConv_kept {ρ : State} {s : State} {k : ℕ} {x : Conv} (hk : Kept ρ s) :
    Kept ρ (State.setConv s k x) := by
  unfold State.setConv
  try dsimp only
  repeat' (first
    | with_reducible assumption
    | with_reducible refine Kept.fst (by assumption) ?_
    | (unfold Kept Inv; dsimp only; refine (show Kept _ _ from ?_); with_reducible assumption)
    )

theorem convStart_kept {ρ : State} {s : State} {k : ℕ} (hk : Kept ρ s) :
    Kept ρ (convStart s k) := by
  unfold convStart
  try dsimp only
  repeat' (first
    | with_reducible assumption
    | with_reducible apply tuyEvt_kept
    | with_reducible apply State.setConv_kept
    )

theorem convSettled_kept {ρ : State} {s : State} {k : ℕ} (hk : Kept ρ s) :
    Kept ρ (convSettled s k) := by
  unfold convSettled
  try dsimp only
  repeat' (first
    | with_reducible assumption
    | with_reducible apply tuyEvt_kept
    | with_reducible apply State.setConv_kept
    | with_reducible refine Kept.fst (by assumption) ?_
    | split
    )

theorem execConverterSettled_kept {ρ : State} {k : ℕ} {s : State} (hk : Kept ρ s) :
    ∃ s', execConverterSettled k s = .next s' ∧ Kept ρ s' := by
  refine ⟨_, rfl, ?_⟩
  try dsimp only
  repeat' (first
    | with_reducible assumption
    | with_reducible apply convSettled_kept
    | with_reducible refine Kept.fst (by assumption) ?_
    | split
    )

theorem convSeen_kept {ρ : State} {s : State} {k : ℕ} (hk : Kept ρ s) :
    Kept ρ (convSeen s k) := by
  unfold convSeen
  try dsimp only
  repeat' (first
    | with_reducible assumption
    | with_reducible apply convStart_kept
    | with_reducible refine Kept.fst (by assumption) ?_
    | split
    )

theorem convLost_kept {ρ : State} {s : State} {k : ℕ} (hk : Kept ρ s) :
    Kept ρ (convLost s k) := by
  unfold convLost
  try dsimp only
  repeat' (first
    | with_reducible assumption
    | with_reducible apply tuyEvt_kept
    | with_reducible apply State.setConv_kept
    | with_reducible refine Kept.fst (by assumption) ?_
    | split
    )

theorem execConverterInputLost_kept {ρ : State} {k : ℕ} {s : State} (hk : Kept ρ s) :
    ∃ s', execConverterInputLost k s = .next s' ∧ Kept ρ s' := by
  refine ⟨_, rfl, ?_⟩
  try dsimp only
  repeat' (first
    | with_reducible assumption
    | with_reducible apply convLost_kept
    | with_reducible refine Kept.fst (by assumption) ?_
    | split
    )

theorem convFrame_kept {ρ : State} {s : State} (hk : Kept ρ s) :
    Kept ρ (convFrame s) := by
  unfold convFrame
  try dsimp only
  repeat' (first
    | with_reducible assumption
    | with_reducible apply State.setConv_kept
    | with_reducible apply convStart_kept
    | with_reducible apply convSettled_kept
    | with_reducible apply Kept.foldl
    | with_reducible apply Kept.foldlFst
    | with_reducible refine Kept.fst (by assumption) ?_
    | split
    | intro _
    )

theorem State.setVoice_kept {ρ : State} {s : State} {v : ℕ} {x : Voice} (hk : Kept ρ s) :
    Kept ρ (State.setVoice s v x) := by
  unfold State.setVoice
  try dsimp only
  repeat' (first
    | with_reducible assumption
    | with_reducible refine Kept.fst (by assumption) ?_
    | (unfold Kept Inv; dsimp only; refine (show Kept _ _ from ?_); with_reducible assumption)
    )

theorem voiceApply_kept {ρ : State} {s : State} {cmd : ℕ} {v : ℕ} (hk : Kept ρ s) :
    Kept ρ (voiceApply s cmd v) := by
  unfold voiceApply
  try dsimp only
  repeat' (first
    | with_reducible assumption
    | with_reducible apply State.setVoice_kept
    | with_reducible refine Kept.fst (by assumption) ?_
    | split
    )

theorem voiceQueue_kept {ρ : State} {s : State} {cmd : ℕ} {v : ℕ} (hk : Kept ρ s) :
    Kept ρ (voiceQueue s cmd v) := by
  unfold voiceQueue
  try dsimp only
  repeat' (first
    | with_reducible assumption
    | with_reducible apply tuyEvt_kept
    | with_reducible refine Kept.fst (by assumption) ?_
    | (unfold Kept Inv; dsimp only; refine (show Kept _ _ from ?_); with_reducible assumption)
    | split
    )

theorem execVoiceNone_kept {ρ : State} {v : ℕ} {s : State} (hk : Kept ρ s) :
    ∃ s', execVoiceNone v s = .next s' ∧ Kept ρ s' := by
  refine ⟨_, rfl, ?_⟩
  try dsimp only
  repeat' (first
    | with_reducible assumption
    | with_reducible apply voiceQueue_kept
    )

theorem execVoiceLoad_kept {ρ : State} {v : ℕ} {s : State} (hk : Kept ρ s) :
    ∃ s', execVoiceLoad v s = .next s' ∧ Kept ρ s' := by
  refine ⟨_, rfl, ?_⟩
  try dsimp only
  repeat' (first
    | with_reducible assumption
    | with_reducible apply voiceQueue_kept
    )

theorem execKeyon_kept {ρ : State} {v : ℕ} {s : State} (hk : Kept ρ s) :
    ∃ s', execKeyon v s = .next s' ∧ Kept ρ s' := by
  refine ⟨_, rfl, ?_⟩
  try dsimp only
  repeat' (first
    | with_reducible assumption
    | with_reducible apply voiceQueue_kept
    )

theorem execKeyoff_kept {ρ : State} {v : ℕ} {s : State} (hk : Kept ρ s) :
    ∃ s', execKeyoff v s = .next s' ∧ Kept ρ s' := by
  refine ⟨_, rfl, ?_⟩
  try dsimp only
  repeat' (first
    | with_reducible assumption
    | with_reducible apply voiceQueue_kept
    )

theorem voiceIdle_kept {ρ : State} {s : State} {v : ℕ} {x : Voice} (hk : Kept ρ s) :
    Kept ρ (voiceIdle s v x) := by
  unfold voiceIdle
  try dsimp only
  repeat' (first
    | with_reducible assumption
    | with_reducible apply State.orReg_kept
    | with_reducible apply State.setVoice_kept
    )

theorem voiceFrame_kept {ρ : State} {s : State} {v : ℕ} (hk : Kept ρ s) :
    Kept ρ (voiceFrame s v) := by
  unfold voiceFrame
  try dsimp only
  repeat' (first
    | with_reducible assumption
    | with_reducible apply State.setVoice_kept
    | with_reducible apply tuySat_kept
    | with_reducible apply tuyEvt_kept
    | with_reducible apply State.addReg_kept
    | with_reducible apply voiceIdle_kept
    | with_reducible refine Kept.fst (by assumption) ?_
    | split
    )

theorem voiceUnit_kept {ρ : State} {s : State} {v : ℕ} {u : ℕ} (hk : Kept ρ s) :
    Kept ρ (voiceUnit s v u) := by
  unfold voiceUnit
  try dsimp only
  repeat' (first
    | with_reducible assumption
    | with_reducible apply memRead_kept
    | with_reducible apply State.setVoice_kept
    | with_reducible apply tuyEvt_kept
    | with_reducible refine Kept.fst (by assumption) ?_
    | split
    )

theorem execVoiceReadReturn_kept {ρ : State} {v : ℕ} {unit : ℕ} {s : State} (hk : Kept ρ s) :
    ∃ s', execVoiceReadReturn v unit s = .next s' ∧ Kept ρ s' := by
  refine ⟨_, rfl, ?_⟩
  try dsimp only
  repeat' (first
    | with_reducible assumption
    | with_reducible apply voiceUnit_kept
    | with_reducible refine Kept.fst (by assumption) ?_
    | split
    )

theorem tuyTake_kept {ρ : State} {s : State} (hk : Kept ρ s) :
    Kept ρ (tuyTake s) := by
  unfold tuyTake
  try dsimp only
  repeat' (first
    | with_reducible assumption
    | with_reducible refine Kept.fst (by assumption) ?_
    | (unfold Kept Inv; dsimp only; refine (show Kept _ _ from ?_); with_reducible assumption)
    )

theorem tuySwapNow_kept {ρ : State} {s : State} (hk : Kept ρ s) :
    Kept ρ (tuySwapNow s) := by
  unfold tuySwapNow
  try dsimp only
  repeat' (first
    | with_reducible assumption
    | with_reducible refine Kept.fst (by assumption) ?_
    | (unfold Kept Inv; dsimp only; refine (show Kept _ _ from ?_); with_reducible assumption)
    )

theorem setSlotG_kept {ρ : State} {s : State} {i : ℕ} {g : ℤ} (hk : Kept ρ s) :
    Kept ρ (setSlotG s i g) := by
  unfold setSlotG
  try dsimp only
  repeat' (first
    | with_reducible assumption
    | with_reducible apply progSet_kept
    )

theorem rampFrame_kept {ρ : State} {s : State} (hk : Kept ρ s) :
    Kept ρ (rampFrame s) := by
  unfold rampFrame
  try dsimp only
  repeat' (first
    | with_reducible assumption
    | with_reducible apply setSlotG_kept
    | with_reducible apply Kept.foldl
    | with_reducible apply Kept.foldlFst
    | with_reducible refine Kept.fst (by assumption) ?_
    | (unfold Kept Inv; dsimp only; refine (show Kept _ _ from ?_); with_reducible apply Kept.foldl)
    | split
    | intro _
    )

theorem rampStart_kept {ρ : State} {s : State} {v : Word} (hk : Kept ρ s) :
    Kept ρ (rampStart s v) := by
  unfold rampStart
  try dsimp only
  repeat' (first
    | with_reducible assumption
    | with_reducible apply tuyEvt_kept
    | with_reducible refine Kept.fst (by assumption) ?_
    | (unfold Kept Inv; dsimp only; refine (show Kept _ _ from ?_); with_reducible assumption)
    | split
    )

theorem execGainRamp_kept {ρ : State} {v : Word} {s : State} (hk : Kept ρ s) :
    ∃ s', execGainRamp v s = .next s' ∧ Kept ρ s' := by
  refine ⟨_, rfl, ?_⟩
  try dsimp only
  repeat' (first
    | with_reducible assumption
    | with_reducible apply rampStart_kept
    | with_reducible refine Kept.fst (by assumption) ?_
    | split
    )

theorem convOut_kept {ρ : State} {s : State} {live : Bool} {x : Conv} (hk : Kept ρ s) :
    Kept ρ (convOut s live x).1 := by
  unfold convOut
  try dsimp only
  repeat' (first
    | with_reducible assumption
    | with_reducible apply State.nextFree_kept
    | with_reducible refine Kept.fst (by assumption) ?_
    | split
    )

theorem loadNodes_kept {ρ : State} {s : State} (hk : Kept ρ s) :
    Kept ρ (loadNodes s) := by
  unfold loadNodes
  try dsimp only
  repeat' (first
    | with_reducible assumption
    | with_reducible apply setNodeRaw_kept
    | with_reducible apply convOut_kept
    | with_reducible apply Kept.foldl
    | with_reducible apply Kept.foldlFst
    | with_reducible refine Kept.fst (by assumption) ?_
    | split
    | intro _
    )

theorem tuySkip_kept {ρ : State} {s : State} {now : ℕ} (hk : Kept ρ s) :
    Kept ρ (tuySkip s now) := by
  unfold tuySkip
  try dsimp only
  repeat' (first
    | with_reducible assumption
    | with_reducible apply tuyEvt_kept
    | with_reducible apply State.addReg_kept
    | with_reducible refine Kept.fst (by assumption) ?_
    | split
    )

theorem tuyCommands_kept {ρ : State} {s : State} (hk : Kept ρ s) :
    Kept ρ (tuyCommands s) := by
  unfold tuyCommands
  try dsimp only
  repeat' (first
    | with_reducible assumption
    | with_reducible apply voiceApply_kept
    | with_reducible apply Kept.foldl
    | with_reducible apply Kept.foldlFst
    | with_reducible refine Kept.fst (by assumption) ?_
    | (unfold Kept Inv; dsimp only; refine (show Kept _ _ from ?_); with_reducible assumption)
    | split
    | intro _
    )

theorem audioHandoff_kept {ρ : State} {s : State} (hk : Kept ρ s) :
    Kept ρ (audioHandoff s) := by
  unfold audioHandoff
  try dsimp only
  repeat' (first
    | with_reducible assumption
    | with_reducible apply Kept.foldl
    | with_reducible apply Kept.foldlFst
    | with_reducible refine Kept.fst (by assumption) ?_
    | (unfold Kept Inv; dsimp only; refine (show Kept _ _ from ?_); with_reducible assumption)
    | split
    | intro _
    )

theorem tuyFrame_kept {ρ : State} {s : State} (hk : Kept ρ s) :
    Kept ρ (tuyFrame s) := by
  unfold tuyFrame
  try dsimp only
  repeat' (first
    | with_reducible assumption
    | with_reducible apply tuySkip_kept
    | with_reducible apply tuyTake_kept
    | with_reducible apply tuySwapNow_kept
    | with_reducible apply rampFrame_kept
    | with_reducible apply tuyCommands_kept
    | with_reducible apply loadNodes_kept
    | with_reducible apply convFrame_kept
    | with_reducible apply audioHandoff_kept
    | with_reducible apply voiceFrame_kept
    | with_reducible apply Kept.foldl
    | with_reducible apply Kept.foldlFst
    | with_reducible refine Kept.fst (by assumption) ?_
    | (unfold Kept Inv; dsimp only; refine (show Kept _ _ from ?_); with_reducible apply tuySkip_kept)
    | split
    )

theorem execTuyereFrame_kept {ρ : State} {s : State} (hk : Kept ρ s) :
    ∃ s', execTuyereFrame s = .next s' ∧ Kept ρ s' := by
  refine ⟨_, rfl, ?_⟩
  try dsimp only
  repeat' (first
    | with_reducible assumption
    | with_reducible apply atInstant_kept
    | with_reducible apply tuyFrame_kept
    | with_reducible refine Kept.fst (by assumption) ?_
    | split
    | intro _
    )

theorem tuyEnable_kept {ρ : State} {s : State} (hk : Kept ρ s) :
    Kept ρ (tuyEnable s) := by
  unfold tuyEnable
  try dsimp only
  repeat' (first
    | with_reducible assumption
    | with_reducible apply tuyTake_kept
    | with_reducible apply State.setReg_kept
    | with_reducible apply State.setBus_kept
    | with_reducible apply convStart_kept
    | with_reducible apply Kept.foldl
    | with_reducible apply Kept.foldlFst
    | with_reducible refine Kept.fst (by assumption) ?_
    | (unfold Kept Inv; dsimp only; refine (show Kept _ _ from ?_); with_reducible assumption)
    | split
    | intro _
    )

theorem execTuyereEnable_kept {ρ : State} {s : State} (hk : Kept ρ s) :
    ∃ s', execTuyereEnable s = .next s' ∧ Kept ρ s' := by
  refine ⟨_, rfl, ?_⟩
  try dsimp only
  repeat' (first
    | with_reducible assumption
    | with_reducible apply tuyEnable_kept
    )

theorem tuyDisable_kept {ρ : State} {s : State} (hk : Kept ρ s) :
    Kept ρ (tuyDisable s) := by
  unfold tuyDisable
  try dsimp only
  repeat' (first
    | with_reducible assumption
    | with_reducible apply State.setReg_kept
    | with_reducible refine Kept.fst (by assumption) ?_
    | (unfold Kept Inv; dsimp only; refine (show Kept _ _ from ?_); with_reducible apply State.setReg_kept)
    )

theorem execTuyereDisable_kept {ρ : State} {s : State} (hk : Kept ρ s) :
    ∃ s', execTuyereDisable s = .next s' ∧ Kept ρ s' := by
  refine ⟨_, rfl, ?_⟩
  try dsimp only
  repeat' (first
    | with_reducible assumption
    | with_reducible apply tuyDisable_kept
    )

theorem execDelayClearDone_kept {ρ : State} {s : State} (hk : Kept ρ s) :
    ∃ s', execDelayClearDone s = .next s' ∧ Kept ρ s' := by
  refine ⟨_, rfl, ?_⟩
  try dsimp only
  repeat' (first
    | with_reducible assumption
    | with_reducible refine Kept.fst (by assumption) ?_
    | (unfold Kept Inv; dsimp only; refine (show Kept _ _ from ?_); with_reducible assumption)
    | split
    )

theorem progAccess_kept {ρ : State} {s : State} {w : Option Word} (hk : Kept ρ s) :
    Kept ρ (progAccess s w).1 := by
  unfold progAccess
  try dsimp only
  repeat' (first
    | with_reducible assumption
    | with_reducible apply State.setRf_kept
    | with_reducible apply progSet_kept
    | with_reducible refine Kept.fst (by assumption) ?_
    | (unfold Kept Inv; dsimp only; refine (show Kept _ _ from ?_); with_reducible apply State.setRf_kept)
    | (unfold Kept Inv; dsimp only; refine (show Kept _ _ from ?_); with_reducible apply progSet_kept)
    | split
    )

theorem execProgramWordWrite_kept {ρ : State} {w : Option Word} {s : State} (hk : Kept ρ s) :
    ∃ s', execProgramWordWrite w s = .next s' ∧ Kept ρ s' := by
  refine ⟨_, rfl, ?_⟩
  try dsimp only
  repeat' (first
    | with_reducible assumption
    | with_reducible apply progAccess_kept
    )

theorem tuySwap_kept {ρ : State} {s : State} (hk : Kept ρ s) :
    Kept ρ (tuySwap s) := by
  unfold tuySwap
  try dsimp only
  repeat' (first
    | with_reducible assumption
    | with_reducible apply tuySwapNow_kept
    | with_reducible refine Kept.fst (by assumption) ?_
    | (unfold Kept Inv; dsimp only; refine (show Kept _ _ from ?_); with_reducible assumption)
    | split
    )

theorem execProgramSwap_kept {ρ : State} {s : State} (hk : Kept ρ s) :
    ∃ s', execProgramSwap s = .next s' ∧ Kept ρ s' := by
  refine ⟨_, rfl, ?_⟩
  try dsimp only
  repeat' (first
    | with_reducible assumption
    | with_reducible apply tuySwap_kept
    )

theorem paramAccess_kept {ρ : State} {s : State} {w : Option Word} (hk : Kept ρ s) :
    Kept ρ (paramAccess s w).1 := by
  unfold paramAccess
  try dsimp only
  repeat' (first
    | with_reducible assumption
    | with_reducible apply State.setRf_kept
    | with_reducible refine Kept.fst (by assumption) ?_
    | (unfold Kept Inv; dsimp only; refine (show Kept _ _ from ?_); with_reducible apply State.setRf_kept)
    | split
    )

theorem execParameterAccess_kept {ρ : State} {w : Option Word} {s : State} (hk : Kept ρ s) :
    ∃ s', execParameterAccess w s = .next s' ∧ Kept ρ s' := by
  refine ⟨_, rfl, ?_⟩
  try dsimp only
  repeat' (first
    | with_reducible assumption
    | with_reducible apply paramAccess_kept
    )

theorem tuyFrameRead_kept {ρ : State} {s : State} {who : Who} (hk : Kept ρ s) :
    Kept ρ (tuyFrameRead s who).1 := by
  unfold tuyFrameRead
  try dsimp only
  repeat' (first
    | with_reducible assumption
    | with_reducible apply State.latch_kept
    )

theorem execTuyereFrameRead_kept {ρ : State} {who : Who} {s : State} (hk : Kept ρ s) :
    ∃ s', execTuyereFrameRead who s = .next s' ∧ Kept ρ s' := by
  refine ⟨_, rfl, ?_⟩
  try dsimp only
  repeat' (first
    | with_reducible assumption
    | with_reducible apply tuyFrameRead_kept
    )

theorem gminRead_kept {ρ : State} {s : State} {b : ℕ} (hk : Kept ρ s) :
    Kept ρ (gminRead s b).1 := by
  unfold gminRead
  try dsimp only
  repeat' (first
    | with_reducible assumption
    | with_reducible apply State.setBus_kept
    )

theorem peakRead_kept {ρ : State} {s : State} {b : ℕ} (hk : Kept ρ s) :
    Kept ρ (peakRead s b).1 := by
  unfold peakRead
  try dsimp only
  repeat' (first
    | with_reducible assumption
    | with_reducible apply State.setBus_kept
    )

theorem execBusGminRead_kept {ρ : State} {bus : ℕ} {s : State} (hk : Kept ρ s) :
    ∃ s', execBusGminRead bus s = .next s' ∧ Kept ρ s' := by
  refine ⟨_, rfl, ?_⟩
  try dsimp only
  repeat' (first
    | with_reducible assumption
    | with_reducible apply gminRead_kept
    | with_reducible refine Kept.fst (by assumption) ?_
    | split
    )

theorem execBusPeakRead_kept {ρ : State} {bus : ℕ} {s : State} (hk : Kept ρ s) :
    ∃ s', execBusPeakRead bus s = .next s' ∧ Kept ρ s' := by
  refine ⟨_, rfl, ?_⟩
  try dsimp only
  repeat' (first
    | with_reducible assumption
    | with_reducible apply peakRead_kept
    | with_reducible refine Kept.fst (by assumption) ?_
    | split
    )

theorem tdmMeasure_kept {ρ : State} {s : State} {n : ℕ} {k : ℕ} (hk : Kept ρ s) :
    Kept ρ (tdmMeasure s n k) := by
  unfold tdmMeasure
  try dsimp only
  repeat' (first
    | with_reducible assumption
    | with_reducible apply State.setConv_kept
    | with_reducible apply tuyEvt_kept
    | with_reducible apply convStart_kept
    | with_reducible refine Kept.fst (by assumption) ?_
    | split
    )

theorem tdmFrame_kept {ρ : State} {s : State} {n : ℕ} {slots : List Word} (hk : Kept ρ s) :
    Kept ρ (tdmFrame s n slots) := by
  unfold tdmFrame
  try dsimp only
  repeat' (first
    | with_reducible assumption
    | with_reducible apply tdmMeasure_kept
    | with_reducible apply convSeen_kept
    | with_reducible apply convOut_kept
    | with_reducible apply Kept.foldl
    | with_reducible apply Kept.foldlFst
    | with_reducible refine Kept.fst (by assumption) ?_
    | (unfold Kept Inv; dsimp only; refine (show Kept _ _ from ?_); with_reducible apply convOut_kept)
    | split
    | intro _
    )

theorem execTdmFrameSync_kept {ρ : State} {n : ℕ} {slots : List Word} {s : State} (hk : Kept ρ s) :
    ∃ s', execTdmFrameSync n slots s = .next s' ∧ Kept ρ s' := by
  refine ⟨_, rfl, ?_⟩
  try dsimp only
  repeat' (first
    | with_reducible assumption
    | with_reducible apply tdmFrame_kept
    | with_reducible refine Kept.fst (by assumption) ?_
    | split
    )

end Sys2Proof.Machine
end

