-- ==== Sys2Proof/Laws/KeptStreams.lean ====
section
/-! SUPPORT. What the operations of Machine/Streams.lean keep. -/

namespace Sys2Proof.Machine

theorem State.setFlow_kept {ρ : State} {s : State} {b : ℕ} {f : ℕ} {x : RxFlow} (hk : Kept ρ s) :
    Kept ρ (State.setFlow s b f x) := by
  unfold State.setFlow
  try dsimp only
  repeat' (first
    | with_reducible assumption
    | with_reducible refine Kept.fst (by assumption) ?_
    | (unfold Kept Inv; dsimp only; refine (show Kept _ _ from ?_); with_reducible assumption)
    )

theorem flowStat_kept {ρ : State} {s : State} {b : ℕ} {f : ℕ} {m : ℕ} (hk : Kept ρ s) :
    Kept ρ (flowStat s b f m) := by
  unfold flowStat
  try dsimp only
  repeat' (first
    | with_reducible assumption
    | with_reducible apply State.orReg_kept
    )

theorem flowSeq_kept {ρ : State} {s : State} {b : ℕ} {f : ℕ} {setB : Bool} {n : ℕ} (hk : Kept ρ s) :
    Kept ρ (flowSeq s b f setB n).1 := by
  unfold flowSeq
  try dsimp only
  repeat' (first
    | with_reducible assumption
    | with_reducible apply State.addReg_kept
    | with_reducible apply State.setFlow_kept
    | with_reducible apply flowStat_kept
    | with_reducible refine Kept.fst (by assumption) ?_
    | split
    )

theorem noteLost_kept {ρ : State} {s : State} {b : ℕ} {f : ℕ} {k : ℕ} (hk : Kept ρ s) :
    Kept ρ (noteLost s b f k) := by
  unfold noteLost
  try dsimp only
  repeat' (first
    | with_reducible assumption
    | with_reducible apply flowStat_kept
    | with_reducible apply State.addReg_kept
    | with_reducible refine Kept.fst (by assumption) ?_
    | split
    )

theorem pictureWrite_kept {ρ : State} {s : State} {b : ℕ} {n : ℕ} {slot : ℕ} {row : ℕ} {off : ℕ} {d : List Byte} (hk : Kept ρ s) :
    Kept ρ (pictureWrite s b n slot row off d) := by
  unfold pictureWrite
  try dsimp only
  repeat' (first
    | with_reducible assumption
    | with_reducible apply memStore_kept
    | with_reducible apply Kept.foldl
    | with_reducible apply Kept.foldlFst
    | with_reducible refine Kept.fst (by assumption) ?_
    | split
    | intro _
    )

theorem flushGroup_kept {ρ : State} {s : State} {b : ℕ} {f : ℕ} (hk : Kept ρ s) :
    Kept ρ (flushGroup s b f) := by
  unfold flushGroup
  try dsimp only
  repeat' (first
    | with_reducible assumption
    | with_reducible apply State.setFlow_kept
    | with_reducible apply pictureWrite_kept
    | with_reducible refine Kept.fst (by assumption) ?_
    | split
    )

theorem groupsWrite_kept {ρ : State} {s : State} {b : ℕ} {f : ℕ} {row : ℕ} {x4 : ℕ} {x5 : ℕ} {x6 : List ℕ} (hk : Kept ρ s) :
    Kept ρ (groupsWrite s b f row x4 x5 x6) := by
  induction x4 generalizing s x5 x6 with
  | zero => exact hk
  | succ m ih =>
    cases x6 with
    | nil => exact hk
    | cons e l =>
    unfold groupsWrite
    try dsimp only
    repeat' (first
    | with_reducible assumption
    | with_reducible apply State.setFlow_kept
    | with_reducible apply flushGroup_kept
    | with_reducible apply ih
    | with_reducible refine Kept.fst (by assumption) ?_
    | split
    )

theorem settleGroup_kept {ρ : State} {s : State} {b : ℕ} {f : ℕ} {row : ℕ} {i : ℕ} (hk : Kept ρ s) :
    Kept ρ (settleGroup s b f row i) := by
  unfold settleGroup
  try dsimp only
  repeat' (first
    | with_reducible assumption
    | with_reducible apply flushGroup_kept
    | with_reducible refine Kept.fst (by assumption) ?_
    | split
    )

theorem ringRow_kept {ρ : State} {s : State} {b : ℕ} {n : ℕ} {row : ℕ} {col : ℕ} {cnt : ℕ} {put : List Host.Cell → ℕ → List Host.Cell} (hk : Kept ρ s) :
    Kept ρ (ringRow s b n row col cnt put) := by
  unfold ringRow
  try dsimp only
  repeat' (first
    | with_reducible assumption
    | with_reducible apply State.setVideo_kept
    | with_reducible apply State.orReg_kept
    | with_reducible apply Kept.foldl
    | with_reducible apply Kept.foldlFst
    | with_reducible refine Kept.fst (by assumption) ?_
    | split
    )

theorem segment_kept {ρ : State} {s : State} {b : ℕ} {f : ℕ} {row : ℕ} {col : ℕ} {d : List Byte} (hk : Kept ρ s) :
    Kept ρ (segment s b f row col d) := by
  unfold segment
  try dsimp only
  repeat' (first
    | with_reducible assumption
    | with_reducible apply flowStat_kept
    | with_reducible apply pictureWrite_kept
    | with_reducible apply groupsWrite_kept
    | with_reducible apply settleGroup_kept
    | with_reducible apply ringRow_kept
    | with_reducible apply Kept.foldl
    | with_reducible apply Kept.foldlFst
    | with_reducible refine Kept.fst (by assumption) ?_
    | split
    | intro _
    )

theorem frameEnd_kept {ρ : State} {s : State} {b : ℕ} {f : ℕ} {e : ℕ} {cut : Bool} (hk : Kept ρ s) :
    Kept ρ (frameEnd s b f e cut) := by
  unfold frameEnd
  try dsimp only
  repeat' (first
    | with_reducible assumption
    | with_reducible apply flushGroup_kept
    | with_reducible apply noteLost_kept
    | with_reducible apply State.setFlow_kept
    | with_reducible apply flowStat_kept
    | with_reducible apply dropSlot_kept
    | with_reducible refine Kept.fst (by assumption) ?_
    | (unfold Kept Inv; dsimp only; refine (show Kept _ _ from ?_); split)
    | split
    )

theorem frameStart_kept {ρ : State} {s : State} {b : ℕ} {f : ℕ} {ident : ℕ} {n : ℕ} (hk : Kept ρ s) :
    Kept ρ (frameStart s b f ident n) := by
  unfold frameStart
  try dsimp only
  repeat' (first
    | with_reducible assumption
    | with_reducible apply frameEnd_kept
    | with_reducible apply takeSlot_kept
    | with_reducible apply State.setFlow_kept
    | with_reducible apply flowStat_kept
    | with_reducible refine Kept.fst (by assumption) ?_
    | (unfold Kept Inv; dsimp only; refine (show Kept _ _ from ?_); split)
    | split
    )

theorem mergeSettle_kept {ρ : State} {s : State} {b : ℕ} {f : ℕ} (hk : Kept ρ s) :
    Kept ρ (mergeSettle s b f) := by
  unfold mergeSettle
  try dsimp only
  repeat' (first
    | with_reducible assumption
    | with_reducible apply noteLost_kept
    | with_reducible apply State.setFlow_kept
    | with_reducible apply frameEnd_kept
    | with_reducible refine Kept.fst (by assumption) ?_
    | split
    )

theorem lastPacket_kept {ρ : State} {s : State} {b : ℕ} {f : ℕ} {n : ℕ} (hk : Kept ρ s) :
    Kept ρ (lastPacket s b f n) := by
  unfold lastPacket
  try dsimp only
  repeat' (first
    | with_reducible assumption
    | with_reducible apply State.setFlow_kept
    | with_reducible apply frameEnd_kept
    | with_reducible refine Kept.fst (by assumption) ?_
    | split
    )

theorem picture_kept {ρ : State} {s : State} {b : ℕ} {f : ℕ} {ident : ℕ} {n : ℕ} {last : Bool} {segs : List (ℕ × ℕ × List Byte)} (hk : Kept ρ s) :
    Kept ρ (picture s b f ident n last segs) := by
  unfold picture
  try dsimp only
  repeat' (first
    | with_reducible assumption
    | with_reducible apply frameStart_kept
    | with_reducible apply segment_kept
    | with_reducible apply lastPacket_kept
    | with_reducible apply Kept.foldl
    | with_reducible apply Kept.foldlFst
    | with_reducible refine Kept.fst (by assumption) ?_
    | split
    | intro _
    )

theorem pictureIn_kept {ρ : State} {s : State} {b : ℕ} {f : ℕ} {ident : ℕ} {n : ℕ} {last : Bool} {segs : List (ℕ × ℕ × List Byte)} (hk : Kept ρ s) :
    Kept ρ (pictureIn s b f ident n last segs) := by
  unfold pictureIn
  try dsimp only
  repeat' (first
    | with_reducible assumption
    | with_reducible apply picture_kept
    | with_reducible apply mergeSettle_kept
    | with_reducible refine Kept.fst (by assumption) ?_
    | split
    )

theorem video2110_kept {ρ : State} {s : State} {b : ℕ} {f : ℕ} {setB : Bool} {d : List Byte} (hk : Kept ρ s) :
    Kept ρ (video2110 s b f setB d) := by
  unfold video2110
  try dsimp only
  repeat' (first
    | with_reducible assumption
    | with_reducible apply flowStat_kept
    | with_reducible apply flowSeq_kept
    | with_reducible apply pictureIn_kept
    | with_reducible refine Kept.fst (by assumption) ?_
    | split
    )

theorem ewetuPacket_kept {ρ : State} {s : State} {b : ℕ} {f : ℕ} {setB : Bool} {d : List Byte} (hk : Kept ρ s) :
    Kept ρ (ewetuPacket s b f setB d) := by
  unfold ewetuPacket
  try dsimp only
  repeat' (first
    | with_reducible assumption
    | with_reducible apply flowStat_kept
    | with_reducible apply flowSeq_kept
    | with_reducible apply pictureIn_kept
    | with_reducible refine Kept.fst (by assumption) ?_
    | split
    )

theorem audio2110_kept {ρ : State} {s : State} {f : ℕ} {setB : Bool} {d : List Byte} (hk : Kept ρ s) :
    Kept ρ (audio2110 s f setB d) := by
  unfold audio2110
  try dsimp only
  repeat' (first
    | with_reducible assumption
    | with_reducible apply flowStat_kept
    | with_reducible apply flowSeq_kept
    | with_reducible apply convSeen_kept
    | with_reducible apply noteLost_kept
    | with_reducible apply State.setFlow_kept
    | with_reducible refine Kept.fst (by assumption) ?_
    | split
    )

theorem freeSamples_kept {ρ : State} {s : State} {x : Conv} {live : ℕ → Bool} {n : ℕ} (hk : Kept ρ s) :
    Kept ρ (freeSamples s x live n).1 := by
  unfold freeSamples
  try dsimp only
  repeat' (first
    | with_reducible assumption
    | with_reducible apply convOut_kept
    | with_reducible apply Kept.foldl
    | with_reducible apply Kept.foldlFst
    | with_reducible refine Kept.fst (by assumption) ?_
    | split
    | intro _
    )

theorem audioBuild_kept {ρ : State} {s0 : State} {g : ℕ} (hk : Kept ρ s0) :
    Kept ρ (audioBuild s0 g) := by
  unfold audioBuild
  try dsimp only
  repeat' (first
    | with_reducible assumption
    | with_reducible apply freeSamples_kept
    | with_reducible apply State.orReg_kept
    | with_reducible apply State.addReg_kept
    | with_reducible apply sendCopies_kept
    | with_reducible refine Kept.fst (by assumption) ?_
    | (unfold Kept Inv; dsimp only; refine (show Kept _ _ from ?_); with_reducible assumption)
    | split
    )

theorem execAudioPacketBuild_kept {ρ : State} {g : ℕ} {s : State} (hk : Kept ρ s) :
    ∃ s', execAudioPacketBuild g s = .next s' ∧ Kept ρ s' := by
  refine ⟨_, rfl, ?_⟩
  try dsimp only
  repeat' (first
    | with_reducible assumption
    | with_reducible apply atInstant_kept
    | with_reducible apply audioBuild_kept
    | with_reducible refine Kept.fst (by assumption) ?_
    | split
    | intro _
    )

end Sys2Proof.Machine
end

