-- ==== Sys2Proof/Laws/KeptPtp.lean ====
section
/-! SUPPORT. What the operations of Machine/Ptp.lean keep. -/

namespace Sys2Proof.Machine

theorem ptpEnter_kept {ρ : State} {s : State} {n : ℕ} (hk : Kept ρ s) :
    Kept ρ (ptpEnter s n) := by
  unfold ptpEnter
  try dsimp only
  repeat' (first
    | with_reducible assumption
    | with_reducible apply State.setRf_kept
    | with_reducible apply State.orReg_kept
    )

theorem setPtp_kept {ρ : State} {s : State} {x : Ptp} (hk : Kept ρ s) :
    Kept ρ (setPtp s x) := by
  unfold setPtp
  try dsimp only
  repeat' (first
    | with_reducible assumption
    | with_reducible refine Kept.fst (by assumption) ?_
    | (unfold Kept Inv; dsimp only; refine (show Kept _ _ from ?_); with_reducible assumption)
    )

theorem ptpArm_kept {ρ : State} {s : State} (hk : Kept ρ s) :
    Kept ρ (ptpArm s) := by
  unfold ptpArm
  try dsimp only
  repeat' (first
    | with_reducible assumption
    | with_reducible apply setPtp_kept
    )

theorem execPtpRestep_kept {ρ : State} {s : State} (hk : Kept ρ s) :
    ∃ s', execPtpRestep s = .next s' ∧ Kept ρ s' := by
  refine ⟨_, rfl, ?_⟩
  try dsimp only
  repeat' (first
    | with_reducible assumption
    | with_reducible apply ptpArm_kept
    )

theorem ptpEnable_kept {ρ : State} {s : State} (hk : Kept ρ s) :
    Kept ρ (ptpEnable s) := by
  unfold ptpEnable
  try dsimp only
  repeat' (first
    | with_reducible assumption
    | with_reducible apply ptpEnter_kept
    | with_reducible apply setPtp_kept
    | with_reducible apply State.setRf_kept
    | with_reducible refine Kept.fst (by assumption) ?_
    | split
    )

theorem execPtpEnable_kept {ρ : State} {s : State} (hk : Kept ρ s) :
    ∃ s', execPtpEnable s = .next s' ∧ Kept ρ s' := by
  refine ⟨_, rfl, ?_⟩
  try dsimp only
  repeat' (first
    | with_reducible assumption
    | with_reducible apply ptpEnable_kept
    )

theorem ptpDisable_kept {ρ : State} {s : State} (hk : Kept ρ s) :
    Kept ρ (ptpDisable s) := by
  unfold ptpDisable
  try dsimp only
  repeat' (first
    | with_reducible assumption
    | with_reducible apply ptpEnter_kept
    | with_reducible apply State.setRf_kept
    )

theorem execPtpDisable_kept {ρ : State} {s : State} (hk : Kept ρ s) :
    ∃ s', execPtpDisable s = .next s' ∧ Kept ρ s' := by
  refine ⟨_, rfl, ?_⟩
  try dsimp only
  repeat' (first
    | with_reducible assumption
    | with_reducible apply ptpDisable_kept
    )

theorem ptpGmport_kept {ρ : State} {s : State} {v : Word} (hk : Kept ρ s) :
    Kept ρ (ptpGmport s v) := by
  unfold ptpGmport
  try dsimp only
  repeat' (first
    | with_reducible assumption
    | with_reducible apply State.setReg_kept
    | with_reducible apply setPtp_kept
    | with_reducible apply ptpEnter_kept
    | with_reducible refine Kept.fst (by assumption) ?_
    | split
    )

theorem execPtpGmportWrite_kept {ρ : State} {v : Word} {s : State} (hk : Kept ρ s) :
    ∃ s', execPtpGmportWrite v s = .next s' ∧ Kept ρ s' := by
  refine ⟨_, rfl, ?_⟩
  try dsimp only
  repeat' (first
    | with_reducible assumption
    | with_reducible apply ptpGmport_kept
    )

theorem execPtpHoldover_kept {ρ : State} {s : State} (hk : Kept ρ s) :
    ∃ s', execPtpHoldover s = .next s' ∧ Kept ρ s' := by
  refine ⟨_, rfl, ?_⟩
  try dsimp only
  repeat' (first
    | with_reducible assumption
    | with_reducible apply atInstant_kept
    | with_reducible apply ptpEnter_kept
    | with_reducible apply setPtp_kept
    | with_reducible refine Kept.fst (by assumption) ?_
    | split
    | intro _
    )

theorem ptpCount_kept {ρ : State} {s : State} {ofs : ℤ} (hk : Kept ρ s) :
    Kept ρ (ptpCount s ofs) := by
  unfold ptpCount
  try dsimp only
  repeat' (first
    | with_reducible assumption
    | with_reducible apply setPtp_kept
    | with_reducible apply ptpEnter_kept
    | with_reducible refine Kept.fst (by assumption) ?_
    | split
    )

theorem ptpSync_kept {ρ : State} {s : State} {t1 : ℤ} {t2 : ℤ} {cs : ℤ} {log : ℤ} {ip : ℕ} {mac : ℕ} (hk : Kept ρ s) :
    Kept ρ (ptpSync s t1 t2 cs log ip mac) := by
  unfold ptpSync
  try dsimp only
  repeat' (first
    | with_reducible assumption
    | with_reducible apply setPtp_kept
    | with_reducible apply ptpEnter_kept
    | with_reducible apply State.setRf_kept
    | with_reducible apply State.setReg_kept
    | with_reducible apply State.orReg_kept
    | with_reducible apply tickStepAdd_kept
    | with_reducible apply ptpCount_kept
    | with_reducible refine Kept.fst (by assumption) ?_
    | split
    )

theorem ptpResp_kept {ρ : State} {s : State} {t4 : ℤ} {cr : ℤ} (hk : Kept ρ s) :
    Kept ρ (ptpResp s t4 cr) := by
  unfold ptpResp
  try dsimp only
  repeat' (first
    | with_reducible assumption
    | with_reducible apply State.setRf_kept
    | with_reducible apply State.setReg_kept
    | with_reducible apply setPtp_kept
    | with_reducible refine Kept.fst (by assumption) ?_
    | split
    )

theorem toFirmware_kept {ρ : State} {s : State} {b : ℕ} {l : ℕ} {cls : ℕ} {f : List Byte} (hk : Kept ρ s) :
    Kept ρ (toFirmware s b l cls f) := by
  unfold toFirmware
  try dsimp only
  repeat' (first
    | with_reducible assumption
    | with_reducible apply fwReceive_kept
    | with_reducible apply State.addReg_kept
    | with_reducible refine Kept.fst (by assumption) ?_
    | split
    )

theorem ptpMessage_kept {ρ : State} {s : State} {l : ℕ} {f : List Byte} {p : Parsed} {ip : ℕ} {d : List Byte} (hk : Kept ρ s) :
    Kept ρ (ptpMessage s l f p ip d) := by
  unfold ptpMessage
  try dsimp only
  repeat' (first
    | with_reducible assumption
    | with_reducible apply toFirmware_kept
    | with_reducible apply setPtp_kept
    | with_reducible apply ptpSync_kept
    | with_reducible apply ptpResp_kept
    | with_reducible refine Kept.fst (by assumption) ?_
    | split
    )

theorem delayReq_kept {ρ : State} {s : State} (hk : Kept ρ s) :
    Kept ρ (delayReq s) := by
  unfold delayReq
  try dsimp only
  repeat' (first
    | with_reducible assumption
    | with_reducible apply setPtp_kept
    | with_reducible apply laneSend_kept
    | with_reducible refine Kept.fst (by assumption) ?_
    | split
    )

theorem execDelayReqSend_kept {ρ : State} {s : State} (hk : Kept ρ s) :
    ∃ s', execDelayReqSend s = .next s' ∧ Kept ρ s' := by
  refine ⟨_, rfl, ?_⟩
  try dsimp only
  repeat' (first
    | with_reducible assumption
    | with_reducible apply atInstant_kept
    | with_reducible apply delayReq_kept
    | with_reducible refine Kept.fst (by assumption) ?_
    | split
    )

theorem classify_kept {ρ : State} {s : State} {b : ℕ} {l : ℕ} {f : List Byte} {p : Parsed} (hk : Kept ρ s) :
    Kept ρ (classify s b l f p) := by
  unfold classify
  try dsimp only
  repeat' (first
    | with_reducible assumption
    | with_reducible apply State.addReg_kept
    | with_reducible apply ewetuPacket_kept
    | with_reducible apply ptpMessage_kept
    | with_reducible apply audio2110_kept
    | with_reducible apply video2110_kept
    | with_reducible apply toFirmware_kept
    | with_reducible refine Kept.fst (by assumption) ?_
    | split
    )

theorem frameIn_kept {ρ : State} {s : State} {b : ℕ} {l : ℕ} {frame : List Byte} (hk : Kept ρ s) :
    Kept ρ (frameIn s b l frame) := by
  unfold frameIn
  try dsimp only
  repeat' (first
    | with_reducible assumption
    | with_reducible apply State.orReg_kept
    | with_reducible apply State.addReg_kept
    | with_reducible apply toFirmware_kept
    | with_reducible apply classify_kept
    | with_reducible refine Kept.fst (by assumption) ?_
    | split
    )

theorem execFrameReceive_kept {ρ : State} {b : ℕ} {l : ℕ} {frame : List Byte} {s : State} (hk : Kept ρ s) :
    ∃ s', execFrameReceive b l frame s = .next s' ∧ Kept ρ s' := by
  refine ⟨_, rfl, ?_⟩
  try dsimp only
  repeat' (first
    | with_reducible assumption
    | with_reducible apply frameIn_kept
    | with_reducible refine Kept.fst (by assumption) ?_
    | split
    )

end Sys2Proof.Machine
end

