-- ==== Sys2Proof/Laws/KeptQuench.lean ====
section
/-! SUPPORT. What the operations of Machine/Quench.lean keep. -/

namespace Sys2Proof.Machine

theorem stopCompare_kept {ρ : State} {s : State} (hk : Kept ρ s) :
    Kept ρ (stopCompare s) := by
  unfold stopCompare
  try dsimp only
  repeat' (first
    | with_reducible assumption
    | with_reducible apply setQch_kept
    )

theorem setSt_kept {ρ : State} {s : State} {n : ℕ} (hk : Kept ρ s) :
    Kept ρ (setSt s n) := by
  unfold setSt
  try dsimp only
  repeat' (first
    | with_reducible assumption
    | with_reducible apply setQch_kept
    | with_reducible apply qchEvt_kept
    | with_reducible apply stopCompare_kept
    | with_reducible refine Kept.fst (by assumption) ?_
    | split
    )

theorem resyncFail_kept {ρ : State} {s : State} (hk : Kept ρ s) :
    Kept ρ (resyncFail s) := by
  unfold resyncFail
  try dsimp only
  repeat' (first
    | with_reducible assumption
    | with_reducible apply State.clrReg_kept
    | with_reducible apply qchEvt_kept
    )

theorem linkDown_kept {ρ : State} {s : State} (hk : Kept ρ s) :
    Kept ρ (linkDown s) := by
  unfold linkDown
  try dsimp only
  repeat' (first
    | with_reducible assumption
    | with_reducible apply resyncFail_kept
    | with_reducible apply setQch_kept
    | with_reducible apply setSt_kept
    | with_reducible refine Kept.fst (by assumption) ?_
    | split
    )

theorem pairCheck_kept {ρ : State} {s : State} (hk : Kept ρ s) :
    Kept ρ (pairCheck s) := by
  unfold pairCheck
  try dsimp only
  repeat' (first
    | with_reducible assumption
    | with_reducible apply setSt_kept
    | with_reducible apply setQch_kept
    | with_reducible apply qchEvt_kept
    | with_reducible apply resyncFail_kept
    | with_reducible refine Kept.fst (by assumption) ?_
    | split
    )

theorem linkJudge_kept {ρ : State} {s : State} (hk : Kept ρ s) :
    Kept ρ (linkJudge s) := by
  unfold linkJudge
  try dsimp only
  repeat' (first
    | with_reducible assumption
    | with_reducible apply pairCheck_kept
    | with_reducible apply qchEvt_kept
    | with_reducible apply setQch_kept
    | with_reducible apply linkDown_kept
    | with_reducible refine Kept.fst (by assumption) ?_
    | split
    )

theorem execLinkStateChange_kept {ρ : State} {b : ℕ} {l : ℕ} {up : Bool} {s : State} (hk : Kept ρ s) :
    ∃ s', execLinkStateChange b l up s = .next s' ∧ Kept ρ s' := by
  refine ⟨_, rfl, ?_⟩
  try dsimp only
  repeat' (first
    | with_reducible assumption
    | with_reducible apply linkJudge_kept
    | with_reducible apply laneLink_kept
    | with_reducible refine Kept.fst (by assumption) ?_
    | split
    )

theorem execLaneCtrlWrite_kept {ρ : State} {b : ℕ} {l : ℕ} {v : Word} {s : State} (hk : Kept ρ s) :
    ∃ s', execLaneCtrlWrite b l v s = .next s' ∧ Kept ρ s' := by
  refine ⟨_, rfl, ?_⟩
  try dsimp only
  repeat' (first
    | with_reducible assumption
    | with_reducible apply linkJudge_kept
    | with_reducible apply laneCtrl_kept
    | with_reducible refine Kept.fst (by assumption) ?_
    | split
    )

theorem decideRole_kept {ρ : State} {s : State} (hk : Kept ρ s) :
    Kept ρ (decideRole s) := by
  unfold decideRole
  try dsimp only
  repeat' (first
    | with_reducible assumption
    | with_reducible apply setQch_kept
    | with_reducible apply qchEvt_kept
    | with_reducible refine Kept.fst (by assumption) ?_
    | split
    )

theorem quenchOn_kept {ρ : State} {s : State} (hk : Kept ρ s) :
    Kept ρ (quenchOn s) := by
  unfold quenchOn
  try dsimp only
  repeat' (first
    | with_reducible assumption
    | with_reducible apply State.orReg_kept
    | with_reducible apply setQch_kept
    | with_reducible apply decideRole_kept
    | with_reducible apply pairCheck_kept
    | with_reducible apply linkJudge_kept
    | with_reducible refine Kept.fst (by assumption) ?_
    | split
    )

theorem execQuenchEnable_kept {ρ : State} {s : State} (hk : Kept ρ s) :
    ∃ s', execQuenchEnable s = .next s' ∧ Kept ρ s' := by
  refine ⟨_, rfl, ?_⟩
  try dsimp only
  repeat' (first
    | with_reducible assumption
    | with_reducible apply quenchOn_kept
    )

theorem quenchOff_kept {ρ : State} {s : State} (hk : Kept ρ s) :
    Kept ρ (quenchOff s) := by
  unfold quenchOff
  try dsimp only
  repeat' (first
    | with_reducible assumption
    | with_reducible apply resyncFail_kept
    | with_reducible apply setSt_kept
    | with_reducible apply State.clrReg_kept
    | with_reducible apply setQch_kept
    | with_reducible refine Kept.fst (by assumption) ?_
    | split
    )

theorem execQuenchDisable_kept {ρ : State} {s : State} (hk : Kept ρ s) :
    ∃ s', execQuenchDisable s = .next s' ∧ Kept ρ s' := by
  refine ⟨_, rfl, ?_⟩
  try dsimp only
  repeat' (first
    | with_reducible assumption
    | with_reducible apply quenchOff_kept
    )

theorem quenchCtrl_kept {ρ : State} {s : State} {v : Word} (hk : Kept ρ s) :
    Kept ρ (quenchCtrl s v) := by
  unfold quenchCtrl
  try dsimp only
  repeat' (first
    | with_reducible assumption
    | with_reducible apply State.setReg_kept
    | with_reducible apply quenchOn_kept
    | with_reducible apply quenchOff_kept
    | with_reducible refine Kept.fst (by assumption) ?_
    | split
    )

theorem quenchPorten_kept {ρ : State} {s : State} {v : Word} (hk : Kept ρ s) :
    Kept ρ (quenchPorten s v) := by
  unfold quenchPorten
  try dsimp only
  repeat' (first
    | with_reducible assumption
    | with_reducible apply pairCheck_kept
    | with_reducible apply State.setReg_kept
    )

theorem execRoleDecide_kept {ρ : State} {s : State} (hk : Kept ρ s) :
    ∃ s', execRoleDecide s = .next s' ∧ Kept ρ s' := by
  refine ⟨_, rfl, ?_⟩
  try dsimp only
  repeat' (first
    | with_reducible assumption
    | with_reducible apply atInstant_kept
    | with_reducible apply decideRole_kept
    | with_reducible refine Kept.fst (by assumption) ?_
    | split
    )

theorem peerChange_kept {ρ : State} {s : State} {level : Bool} (hk : Kept ρ s) :
    Kept ρ (peerChange s level) := by
  unfold peerChange
  try dsimp only
  repeat' (first
    | with_reducible assumption
    | with_reducible apply setQch_kept
    | with_reducible apply takeTrigger_kept
    | with_reducible refine Kept.fst (by assumption) ?_
    | split
    )

theorem execTwinPeerChange_kept {ρ : State} {level : Bool} {s : State} (hk : Kept ρ s) :
    ∃ s', execTwinPeerChange level s = .next s' ∧ Kept ρ s' := by
  refine ⟨_, rfl, ?_⟩
  try dsimp only
  repeat' (first
    | with_reducible assumption
    | with_reducible apply peerChange_kept
    )

theorem twinLost_kept {ρ : State} {s : State} (hk : Kept ρ s) :
    Kept ρ (twinLost s) := by
  unfold twinLost
  try dsimp only
  repeat' (first
    | with_reducible assumption
    | with_reducible apply qchEvt_kept
    | with_reducible apply linkDown_kept
    | with_reducible apply setQch_kept
    | with_reducible apply takeTrigger_kept
    | with_reducible refine Kept.fst (by assumption) ?_
    | split
    )

theorem execTwinLinkLost_kept {ρ : State} {s : State} (hk : Kept ρ s) :
    ∃ s', execTwinLinkLost s = .next s' ∧ Kept ρ s' := by
  refine ⟨_, rfl, ?_⟩
  try dsimp only
  repeat' (first
    | with_reducible assumption
    | with_reducible apply twinLost_kept
    )

theorem judgeAlign_kept {ρ : State} {s : State} (hk : Kept ρ s) :
    Kept ρ (judgeAlign s) := by
  unfold judgeAlign
  try dsimp only
  repeat' (first
    | with_reducible assumption
    | with_reducible apply setQch_kept
    | with_reducible apply stopCompare_kept
    | with_reducible apply setSt_kept
    | with_reducible refine Kept.fst (by assumption) ?_
    | split
    )

theorem alignSeqs_kept {ρ : State} {s : State} (hk : Kept ρ s) :
    Kept ρ (alignSeqs s) := by
  unfold alignSeqs
  try dsimp only
  repeat' (first
    | with_reducible assumption
    | with_reducible apply setQch_kept
    | with_reducible apply qchEvt_kept
    | with_reducible refine Kept.fst (by assumption) ?_
    | split
    )

theorem stampRef_kept {ρ : State} {s : State} {m : TwinStamp} (hk : Kept ρ s) :
    Kept ρ (stampRef s m) := by
  unfold stampRef
  try dsimp only
  repeat' (first
    | with_reducible assumption
    | with_reducible apply State.orReg_kept
    | with_reducible apply restartLoop_kept
    | with_reducible apply refEvent_kept
    | with_reducible refine Kept.fst (by assumption) ?_
    | (unfold Kept Inv; dsimp only; refine (show Kept _ _ from ?_); with_reducible assumption)
    | split
    )

theorem stampIn_kept {ρ : State} {s : State} {m : TwinStamp} (hk : Kept ρ s) :
    Kept ρ (stampIn s m) := by
  unfold stampIn
  try dsimp only
  repeat' (first
    | with_reducible assumption
    | with_reducible apply State.setReg_kept
    | with_reducible apply setQch_kept
    | with_reducible apply takeTrigger_kept
    | with_reducible apply alignSeqs_kept
    | with_reducible apply judgeAlign_kept
    | with_reducible apply stampRef_kept
    | with_reducible refine Kept.fst (by assumption) ?_
    | split
    )

theorem execTwinFrameStampReceive_kept {ρ : State} {m : TwinStamp} {s : State} (hk : Kept ρ s) :
    ∃ s', execTwinFrameStampReceive m s = .next s' ∧ Kept ρ s' := by
  refine ⟨_, rfl, ?_⟩
  try dsimp only
  repeat' (first
    | with_reducible assumption
    | with_reducible apply stampIn_kept
    )

theorem recMismatch_kept {ρ : State} {s : State} {own : LineRec} {theirs : LineRec} (hk : Kept ρ s) :
    Kept ρ (recMismatch s own theirs) := by
  unfold recMismatch
  try dsimp only
  repeat' (first
    | with_reducible assumption
    | with_reducible apply State.setReg_kept
    | with_reducible apply qchEvt_kept
    | with_reducible apply setQch_kept
    | with_reducible apply State.addRf_kept
    | with_reducible apply takeTrigger_kept
    | with_reducible apply setSt_kept
    | with_reducible refine Kept.fst (by assumption) ?_
    | split
    )

theorem recJudge_kept {ρ : State} {s : State} {own : LineRec} {theirs : LineRec} (hk : Kept ρ s) :
    Kept ρ (recJudge s own theirs) := by
  unfold recJudge
  try dsimp only
  repeat' (first
    | with_reducible assumption
    | with_reducible apply State.addReg_kept
    | with_reducible apply recMismatch_kept
    | with_reducible refine Kept.fst (by assumption) ?_
    | split
    )

theorem recIn_kept {ρ : State} {s : State} {m : LineRec} (hk : Kept ρ s) :
    Kept ρ (recIn s m) := by
  unfold recIn
  try dsimp only
  repeat' (first
    | with_reducible assumption
    | with_reducible apply recJudge_kept
    | with_reducible apply setQch_kept
    | with_reducible refine Kept.fst (by assumption) ?_
    | split
    )

theorem execLineRecordReceive_kept {ρ : State} {m : LineRec} {s : State} (hk : Kept ρ s) :
    ∃ s', execLineRecordReceive m s = .next s' ∧ Kept ρ s' := by
  refine ⟨_, rfl, ?_⟩
  try dsimp only
  repeat' (first
    | with_reducible assumption
    | with_reducible apply recIn_kept
    )

theorem recOut_kept {ρ : State} {s : State} {b : ℕ} {p : ℕ} (hk : Kept ρ s) :
    Kept ρ (recOut s b p) := by
  unfold recOut
  try dsimp only
  repeat' (first
    | with_reducible assumption
    | with_reducible apply recJudge_kept
    | with_reducible apply setQch_kept
    | with_reducible refine Kept.fst (by assumption) ?_
    | split
    )

theorem recMiss_kept {ρ : State} {s : State} (hk : Kept ρ s) :
    Kept ρ (recMiss s) := by
  unfold recMiss
  try dsimp only
  repeat' (first
    | with_reducible assumption
    | with_reducible apply qchEvt_kept
    | with_reducible apply State.addReg_kept
    | with_reducible apply setQch_kept
    | with_reducible refine Kept.fst (by assumption) ?_
    | split
    )

theorem execLineRecordMiss_kept {ρ : State} {s : State} (hk : Kept ρ s) :
    ∃ s', execLineRecordMiss s = .next s' ∧ Kept ρ s' := by
  refine ⟨_, rfl, ?_⟩
  try dsimp only
  repeat' (first
    | with_reducible assumption
    | with_reducible apply recMiss_kept
    )

theorem execTake_kept {ρ : State} {s : State} (hk : Kept ρ s) :
    ∃ s', execTake s = .next s' ∧ Kept ρ s' := by
  refine ⟨_, rfl, ?_⟩
  try dsimp only
  repeat' (first
    | with_reducible assumption
    | with_reducible apply takeTrigger_kept
    | with_reducible refine Kept.fst (by assumption) ?_
    | split
    )

theorem execYield_kept {ρ : State} {s : State} (hk : Kept ρ s) :
    ∃ s', execYield s = .next s' ∧ Kept ρ s' := by
  refine ⟨_, rfl, ?_⟩
  try dsimp only
  repeat' (first
    | with_reducible assumption
    | with_reducible apply takeTrigger_kept
    | with_reducible refine Kept.fst (by assumption) ?_
    | split
    )

theorem takeIn_kept {ρ : State} {s : State} {m : TakeMsg} (hk : Kept ρ s) :
    Kept ρ (takeIn s m) := by
  unfold takeIn
  try dsimp only
  repeat' (first
    | with_reducible assumption
    | with_reducible apply setQch_kept
    | with_reducible refine Kept.fst (by assumption) ?_
    | split
    )

theorem execTakeoverMessage_kept {ρ : State} {m : TakeMsg} {s : State} (hk : Kept ρ s) :
    ∃ s', execTakeoverMessage m s = .next s' ∧ Kept ρ s' := by
  refine ⟨_, rfl, ?_⟩
  try dsimp only
  repeat' (first
    | with_reducible assumption
    | with_reducible apply takeIn_kept
    )

theorem takeApply_kept {ρ : State} {s : State} (hk : Kept ρ s) :
    Kept ρ (takeApply s) := by
  unfold takeApply
  try dsimp only
  repeat' (first
    | with_reducible assumption
    | with_reducible apply setQch_kept
    | with_reducible apply State.setReg_kept
    | with_reducible apply State.setRf_kept
    | with_reducible apply qchEvt_kept
    | with_reducible refine Kept.fst (by assumption) ?_
    | split
    )

theorem detachAsk_kept {ρ : State} {s : State} (hk : Kept ρ s) :
    Kept ρ (detachAsk s) := by
  unfold detachAsk
  try dsimp only
  repeat' (first
    | with_reducible assumption
    | with_reducible apply setQch_kept
    | with_reducible refine Kept.fst (by assumption) ?_
    | split
    )

theorem execDetach_kept {ρ : State} {s : State} (hk : Kept ρ s) :
    ∃ s', execDetach s = .next s' ∧ Kept ρ s' := by
  refine ⟨_, rfl, ?_⟩
  try dsimp only
  repeat' (first
    | with_reducible assumption
    | with_reducible apply detachAsk_kept
    )

theorem attachAsk_kept {ρ : State} {s : State} (hk : Kept ρ s) :
    Kept ρ (attachAsk s) := by
  unfold attachAsk
  try dsimp only
  repeat' (first
    | with_reducible assumption
    | with_reducible apply setQch_kept
    | with_reducible refine Kept.fst (by assumption) ?_
    | split
    )

theorem execAttach_kept {ρ : State} {s : State} (hk : Kept ρ s) :
    ∃ s', execAttach s = .next s' ∧ Kept ρ s' := by
  refine ⟨_, rfl, ?_⟩
  try dsimp only
  repeat' (first
    | with_reducible assumption
    | with_reducible apply attachAsk_kept
    )

theorem resyncStart_kept {ρ : State} {s : State} (hk : Kept ρ s) :
    Kept ρ (resyncStart s) := by
  unfold resyncStart
  try dsimp only
  repeat' (first
    | with_reducible assumption
    | with_reducible apply State.setReg_kept
    | with_reducible apply setSt_kept
    | with_reducible apply State.eachBillet_kept
    | with_reducible apply State.setHammer_kept
    | with_reducible refine Kept.fst (by assumption) ?_
    | split
    | intro _
    )

theorem resyncAsk_kept {ρ : State} {s : State} (hk : Kept ρ s) :
    Kept ρ (resyncAsk s) := by
  unfold resyncAsk
  try dsimp only
  repeat' (first
    | with_reducible assumption
    | with_reducible apply resyncStart_kept
    | with_reducible apply qchEvt_kept
    | with_reducible refine Kept.fst (by assumption) ?_
    | split
    )

theorem execResync_kept {ρ : State} {s : State} (hk : Kept ρ s) :
    ∃ s', execResync s = .next s' ∧ Kept ρ s' := by
  refine ⟨_, rfl, ?_⟩
  try dsimp only
  repeat' (first
    | with_reducible assumption
    | with_reducible apply resyncAsk_kept
    )

theorem twinMessage_kept {ρ : State} {s : State} {m : TwinCtl} (hk : Kept ρ s) :
    Kept ρ (twinMessage s m) := by
  unfold twinMessage
  try dsimp only
  repeat' (first
    | with_reducible assumption
    | with_reducible apply detachAsk_kept
    | with_reducible apply attachAsk_kept
    | with_reducible apply resyncStart_kept
    | with_reducible apply pairCheck_kept
    | with_reducible apply State.setReg_kept
    | with_reducible apply setQch_kept
    | with_reducible refine Kept.fst (by assumption) ?_
    | split
    )

theorem execTwinControlMessage_kept {ρ : State} {m : TwinCtl} {s : State} (hk : Kept ρ s) :
    ∃ s', execTwinControlMessage m s = .next s' ∧ Kept ρ s' := by
  refine ⟨_, rfl, ?_⟩
  try dsimp only
  repeat' (first
    | with_reducible assumption
    | with_reducible apply twinMessage_kept
    )

theorem pixelWord_kept {ρ : State} {s : State} {b : ℕ} {e : ℕ × Word} (hk : Kept ρ s) :
    Kept ρ (pixelWord s b e) := by
  unfold pixelWord
  try dsimp only
  repeat' (first
    | with_reducible assumption
    | with_reducible apply pushLive_kept
    | with_reducible apply State.setReg_kept
    | with_reducible apply commitWrite_kept
    | with_reducible refine Kept.fst (by assumption) ?_
    | split
    )

theorem regionCopy_kept {ρ : State} {d : ResyncData} {acc : State × List Byte × Bool} {k : ℕ} (hk : Kept ρ acc.1) :
    Kept ρ (regionCopy d acc k).1 := by
  unfold regionCopy
  try dsimp only
  repeat' (first
    | with_reducible assumption
    | with_reducible apply State.setRf_kept
    | with_reducible apply State.addReg_kept
    | with_reducible apply memStore_kept
    | with_reducible apply State.hwrite_kept
    | with_reducible apply pixelWord_kept
    | with_reducible apply Kept.foldl
    | with_reducible apply Kept.foldlFst
    | with_reducible refine Kept.fst (by assumption) ?_
    | (unfold Kept Inv; dsimp only; refine (show Kept _ _ from ?_); with_reducible apply Kept.foldl)
    | split
    | intro _
    )

theorem resyncEnd_kept {ρ : State} {s : State} {d : ResyncData} (hk : Kept ρ s) :
    Kept ρ (resyncEnd s d) := by
  unfold resyncEnd
  try dsimp only
  repeat' (first
    | with_reducible assumption
    | with_reducible apply regionCopy_kept
    | with_reducible apply setSt_kept
    | with_reducible apply State.clrReg_kept
    | with_reducible apply qchEvt_kept
    | with_reducible apply resyncFail_kept
    | with_reducible apply Kept.foldl
    | with_reducible apply Kept.foldlFst
    | with_reducible refine Kept.fst (by assumption) ?_
    | split
    )

theorem execResyncDone_kept {ρ : State} {d : ResyncData} {s : State} (hk : Kept ρ s) :
    ∃ s', execResyncDone d s = .next s' ∧ Kept ρ s' := by
  refine ⟨_, rfl, ?_⟩
  try dsimp only
  repeat' (first
    | with_reducible assumption
    | with_reducible apply resyncEnd_kept
    )

theorem handIssue_kept {ρ : State} {s : State} {b : ℕ} {n : ℕ} {slot : ℕ} {hsrc : ℕ} {target : ℕ × ℕ} (hk : Kept ρ s) :
    Kept ρ (handIssue s b n slot hsrc target) := by
  unfold handIssue
  try dsimp only
  repeat' (first
    | with_reducible assumption
    | with_reducible apply issueCommit_kept
    | with_reducible apply State.setVideo_kept
    )

theorem alignedIssue_kept {ρ : State} {s : State} {own : NoticeWait} {theirs : NoticeWait} (hk : Kept ρ s) :
    Kept ρ (alignedIssue s own theirs) := by
  unfold alignedIssue
  try dsimp only
  repeat' (first
    | with_reducible assumption
    | with_reducible apply flowStat_kept
    | with_reducible apply handIssue_kept
    )

theorem frameReady_kept {ρ : State} {s : State} {b : ℕ} {f : ℕ} (hk : Kept ρ s) :
    Kept ρ (frameReady s b f) := by
  unfold frameReady
  try dsimp only
  repeat' (first
    | with_reducible assumption
    | with_reducible apply State.setFlow_kept
    | with_reducible apply alignedIssue_kept
    | with_reducible apply setQch_kept
    | with_reducible apply flowStat_kept
    | with_reducible refine Kept.fst (by assumption) ?_
    | (unfold Kept Inv; dsimp only; refine (show Kept _ _ from ?_); with_reducible apply State.setFlow_kept)
    | split
    )

theorem execReceiveFrameEnd_kept {ρ : State} {b : ℕ} {f : ℕ} {s : State} (hk : Kept ρ s) :
    ∃ s', execReceiveFrameEnd b f s = .next s' ∧ Kept ρ s' := by
  refine ⟨_, rfl, ?_⟩
  try dsimp only
  repeat' (first
    | with_reducible assumption
    | with_reducible apply frameReady_kept
    | with_reducible refine Kept.fst (by assumption) ?_
    | split
    )

theorem noticeIn_kept {ρ : State} {s : State} {m : Notice} (hk : Kept ρ s) :
    Kept ρ (noticeIn s m) := by
  unfold noticeIn
  try dsimp only
  repeat' (first
    | with_reducible assumption
    | with_reducible apply alignedIssue_kept
    | with_reducible apply setQch_kept
    | with_reducible refine Kept.fst (by assumption) ?_
    | split
    )

theorem execHandoffNotice_kept {ρ : State} {m : Notice} {s : State} (hk : Kept ρ s) :
    ∃ s', execHandoffNotice m s = .next s' ∧ Kept ρ s' := by
  refine ⟨_, rfl, ?_⟩
  try dsimp only
  repeat' (first
    | with_reducible assumption
    | with_reducible apply noticeIn_kept
    )

theorem noticeDrop_kept {ρ : State} {s : State} (hk : Kept ρ s) :
    Kept ρ (noticeDrop s) := by
  unfold noticeDrop
  try dsimp only
  repeat' (first
    | with_reducible assumption
    | with_reducible apply setQch_kept
    | with_reducible apply vidBufstat_kept
    | with_reducible apply State.setVideo_kept
    | with_reducible apply qchEvt_kept
    | with_reducible apply State.addReg_kept
    | with_reducible refine Kept.fst (by assumption) ?_
    | split
    )

theorem execHandoffNoticeWithdraw_kept {ρ : State} {s : State} (hk : Kept ρ s) :
    ∃ s', execHandoffNoticeWithdraw s = .next s' ∧ Kept ρ s' := by
  refine ⟨_, rfl, ?_⟩
  try dsimp only
  repeat' (first
    | with_reducible assumption
    | with_reducible apply noticeDrop_kept
    )

theorem execMailboxSend_kept {ρ : State} {v : Word} {s : State} (hk : Kept ρ s) :
    ∃ s', execMailboxSend v s = .next s' ∧ Kept ρ s' := by
  refine ⟨_, rfl, ?_⟩
  try dsimp only
  repeat' (first
    | with_reducible assumption
    | with_reducible apply State.setReg_kept
    )

theorem mailIn_kept {ρ : State} {s : State} {ws : List Word} (hk : Kept ρ s) :
    Kept ρ (mailIn s ws) := by
  unfold mailIn
  try dsimp only
  repeat' (first
    | with_reducible assumption
    | with_reducible apply qchEvt_kept
    | with_reducible apply State.setReg_kept
    | with_reducible apply Kept.foldl
    | with_reducible apply Kept.foldlFst
    | with_reducible refine Kept.fst (by assumption) ?_
    | split
    | intro _
    )

theorem execMailboxReceive_kept {ρ : State} {ws : List Word} {s : State} (hk : Kept ρ s) :
    ∃ s', execMailboxReceive ws s = .next s' ∧ Kept ρ s' := by
  refine ⟨_, rfl, ?_⟩
  try dsimp only
  repeat' (first
    | with_reducible assumption
    | with_reducible apply mailIn_kept
    )

theorem quenchLine_kept {ρ : State} {s : State} (hk : Kept ρ s) :
    Kept ρ (quenchLine s) := by
  unfold quenchLine
  try dsimp only
  repeat' (first
    | with_reducible assumption
    | with_reducible apply takeApply_kept
    | with_reducible apply setQch_kept
    | with_reducible apply setSt_kept
    | with_reducible apply resyncFail_kept
    | with_reducible refine Kept.fst (by assumption) ?_
    | split
    )

theorem quenchFrame_kept {ρ : State} {s : State} (hk : Kept ρ s) :
    Kept ρ (quenchFrame s) := by
  unfold quenchFrame
  try dsimp only
  repeat' (first
    | with_reducible assumption
    | with_reducible apply setSt_kept
    | with_reducible apply State.addReg_kept
    | with_reducible apply setQch_kept
    | with_reducible apply alignSeqs_kept
    | with_reducible apply judgeAlign_kept
    | with_reducible apply Kept.foldl
    | with_reducible apply Kept.foldlFst
    | with_reducible refine Kept.fst (by assumption) ?_
    | split
    | intro _
    )

theorem quenchPort_kept {ρ : State} {s : State} {b : ℕ} {p : ℕ} (hk : Kept ρ s) :
    Kept ρ (quenchPort s b p) := by
  unfold quenchPort
  try dsimp only
  repeat' (first
    | with_reducible assumption
    | with_reducible apply setQch_kept
    | with_reducible refine Kept.fst (by assumption) ?_
    | split
    )

end Sys2Proof.Machine
end

