-- ==== Sys2Proof/Laws/KeptLeave.lean ====
section
/-! SUPPORT. What the operations of Machine/Leave.lean keep. -/

namespace Sys2Proof.Machine

theorem pixelsLeave_kept {ρ : State} {s : State} {b : ℕ} {p : ℕ} {t : ℕ} (hk : Kept ρ s) :
    Kept ρ (pixelsLeave s b p t) := by
  unfold pixelsLeave
  try dsimp only
  repeat' (first
    | with_reducible assumption
    | with_reducible apply passPixels_kept
    | with_reducible apply rasterFeed_kept
    | with_reducible apply recOut_kept
    | with_reducible refine Kept.fst (by assumption) ?_
    | split
    )

theorem groupGoes_kept {ρ : State} {s : State} {b : ℕ} {p : ℕ} {g : ℕ} (hk : Kept ρ s) :
    Kept ρ (groupGoes s b p g) := by
  unfold groupGoes
  try dsimp only
  repeat' (first
    | with_reducible assumption
    | with_reducible apply pixelsLeave_kept
    | with_reducible apply groupLeave_kept
    )

theorem pixelGroupLeave_kept {ρ : State} {s : State} {b : ℕ} {p : ℕ} {g : ℕ} (hk : Kept ρ s) :
    Kept ρ (pixelGroupLeave s b p g) := by
  unfold pixelGroupLeave
  try dsimp only
  repeat' (first
    | with_reducible assumption
    | with_reducible apply atInstant_kept
    | with_reducible apply groupGoes_kept
    | with_reducible apply pixelsLeave_kept
    | with_reducible refine Kept.fst (by assumption) ?_
    | split
    | intro _
    )

end Sys2Proof.Machine
end

