-- ==== Sys2Proof/Laws/KeptSwage.lean ====
section
/-! SUPPORT. What the operations of Machine/Swage.lean keep. -/

namespace Sys2Proof.Machine

theorem State.setSwage_kept {ρ : State} {s : State} {b : ℕ} {u : ℕ} {x : Swage} (hk : Kept ρ s) :
    Kept ρ (State.setSwage s b u x) := by
  unfold State.setSwage
  try dsimp only
  repeat' (first
    | with_reducible assumption
    | with_reducible refine Kept.fst (by assumption) ?_
    | (unfold Kept Inv; dsimp only; refine (show Kept _ _ from ?_); with_reducible assumption)
    )

theorem rowRead_kept {ρ : State} {s : State} {b : ℕ} {u : ℕ} {reads : Bool} {addr : ℕ} {len : ℕ} (hk : Kept ρ s) :
    Kept ρ (rowRead s b u reads addr len).1 := by
  unfold rowRead
  try dsimp only
  repeat' (first
    | with_reducible assumption
    | with_reducible apply memRead_kept
    | with_reducible refine Kept.fst (by assumption) ?_
    | split
    )

theorem swageStore_kept {ρ : State} {s : State} {b : ℕ} {u : ℕ} {n : ℕ} {free : Bool} {vals : List (ℕ × ℕ)} (hk : Kept ρ s) :
    Kept ρ (swageStore s b u n free vals) := by
  unfold swageStore
  try dsimp only
  repeat' (first
    | with_reducible assumption
    | with_reducible apply writeWords_kept
    | with_reducible apply bufPush_kept
    | with_reducible apply State.gwrite_kept
    | with_reducible apply State.nextFree_kept
    | with_reducible apply Kept.foldl
    | with_reducible apply Kept.foldlFst
    | with_reducible refine Kept.fst (by assumption) ?_
    | split
    | intro _
    )

theorem swagePiece_kept
    {ρ s t : State} {b u : Nat} {x : Swage} {pc : Nat × Nat × Nat} (hk : Kept ρ s)
    (e : swagePiece s b u x pc = .ok t ∨ swagePiece s b u x pc = .bad t) : Kept ρ t := by
  unfold swagePiece at e
  dsimp only at e
  split at e
  · rcases e with e | e <;> cases e
    exact hk
  · split at e
    · rcases e with e | e <;> cases e
      exact hk
    · have h1 := fun r a n => rowRead_kept (b := b) (u := u) (reads := r) (addr := a) (len := n) hk
      have h2 := fun r a n r' a' n' => rowRead_kept (b := b) (u := u) (reads := r) (addr := a) (len := n)
        (h1 r' a' n')
      split at e
      · split at e
        · rcases e with e | e <;> cases e
          exact h2 _ _ _ _ _ _
        · split at e
          · rcases e with e | e <;> cases e
          · rcases e with e | e <;> cases e
            exact swageStore_kept (h2 _ _ _ _ _ _)
      · rcases e with e | e <;> cases e
        exact h2 _ _ _ _ _ _

theorem swageFinish_kept {ρ : State} {s : State} {b : ℕ} {u : ℕ} {m : ℕ} (hk : Kept ρ s) :
    Kept ρ (swageFinish s b u m) := by
  unfold swageFinish
  try dsimp only
  repeat' (first
    | with_reducible assumption
    | with_reducible apply State.setSwage_kept
    | with_reducible apply State.setReg_kept
    | with_reducible apply State.clrReg_kept
    | with_reducible apply State.orReg_kept
    )

theorem swageUnit_kept
    {ρ s t : State} {b u : Nat} (hk : Kept ρ s)
    (e : swageUnit s b u = .went t ∨ swageUnit s b u = .stays t ∨ swageUnit s b u = .ended t) : Kept ρ t := by
  unfold swageUnit at e
  dsimp only at e
  split at e
  · rcases e with e | e | e <;> cases e
    exact hk
  · split at e
    · rcases e with e | e | e <;> cases e
      exact ite_kept (State.setSwage_kept hk) (State.orReg_kept (State.setSwage_kept hk))
    · rename_i h
      split at e
      · rcases e with e | e | e <;> cases e
        exact State.setSwage_kept hk
      · rcases e with e | e | e <;> cases e
        exact State.setSwage_kept (swagePiece_kept hk (Or.inl h))
    · rename_i h
      split at e
      · rcases e with e | e | e <;> cases e
        exact hk
      · rcases e with e | e | e <;> cases e
        exact swageFinish_kept (swagePiece_kept hk (Or.inr h))

theorem swageWork_kept {ρ s : State} {b u fuel : Nat} {go : Swage → Bool} (hk : Kept ρ s) :
    Kept ρ (swageWork b u go fuel s) := by
  induction fuel generalizing s with
  | zero => exact hk
  | succ n ih =>
    unfold swageWork
    split
    · split
      · rename_i h
        exact ih (swageUnit_kept hk (Or.inl h))
      · rename_i h
        exact swageUnit_kept hk (Or.inr (Or.inl h))
      · rename_i h
        exact swageUnit_kept hk (Or.inr (Or.inr h))
    · exact hk

theorem swageRun_kept {ρ : State} {s : State} {b : ℕ} {u : ℕ} (hk : Kept ρ s) :
    Kept ρ (swageRun s b u) := by
  unfold swageRun
  try dsimp only
  repeat' (first
    | with_reducible assumption
    | with_reducible apply swageWork_kept
    )

theorem swageStart_kept {ρ : State} {s : State} {b : ℕ} {u : ℕ} (hk : Kept ρ s) :
    Kept ρ (swageStart s b u) := by
  unfold swageStart
  try dsimp only
  repeat' (first
    | with_reducible assumption
    | with_reducible apply swageWork_kept
    | with_reducible apply State.clrReg_kept
    | with_reducible apply State.setSwage_kept
    )

theorem swageGo_kept {ρ : State} {s : State} {b : ℕ} {u : ℕ} (hk : Kept ρ s) :
    Kept ρ (swageGo s b u) := by
  unfold swageGo
  try dsimp only
  repeat' (first
    | with_reducible assumption
    | with_reducible apply State.orReg_kept
    | with_reducible apply State.setRf_kept
    | with_reducible apply State.setSwage_kept
    | with_reducible apply swageFinish_kept
    | with_reducible apply swageStart_kept
    | with_reducible apply Kept.foldl
    | with_reducible apply Kept.foldlFst
    | with_reducible refine Kept.fst (by assumption) ?_
    | split
    )

theorem swageOp_kept {ρ : State} {s : State} {b : ℕ} {u : ℕ} {op : ℕ} (hk : Kept ρ s) :
    Kept ρ (swageOp s b u op) := by
  unfold swageOp
  try dsimp only
  repeat' (first
    | with_reducible assumption
    | with_reducible apply swageGo_kept
    | with_reducible apply State.setRf_kept
    | with_reducible refine Kept.fst (by assumption) ?_
    | split
    )

theorem execSwageCopy_kept {ρ : State} {b : ℕ} {u : ℕ} {s : State} (hk : Kept ρ s) :
    ∃ s', execSwageCopy b u s = .next s' ∧ Kept ρ s' := by
  refine ⟨_, rfl, ?_⟩
  try dsimp only
  repeat' (first
    | with_reducible assumption
    | with_reducible apply swageOp_kept
    )

theorem execSwageFill_kept {ρ : State} {b : ℕ} {u : ℕ} {s : State} (hk : Kept ρ s) :
    ∃ s', execSwageFill b u s = .next s' ∧ Kept ρ s' := by
  refine ⟨_, rfl, ?_⟩
  try dsimp only
  repeat' (first
    | with_reducible assumption
    | with_reducible apply swageOp_kept
    )

theorem execSwageKeycopy_kept {ρ : State} {b : ℕ} {u : ℕ} {s : State} (hk : Kept ρ s) :
    ∃ s', execSwageKeycopy b u s = .next s' ∧ Kept ρ s' := by
  refine ⟨_, rfl, ?_⟩
  try dsimp only
  repeat' (first
    | with_reducible assumption
    | with_reducible apply swageOp_kept
    )

theorem execSwageAlpha_kept {ρ : State} {b : ℕ} {u : ℕ} {s : State} (hk : Kept ρ s) :
    ∃ s', execSwageAlpha b u s = .next s' ∧ Kept ρ s' := by
  refine ⟨_, rfl, ?_⟩
  try dsimp only
  repeat' (first
    | with_reducible assumption
    | with_reducible apply swageOp_kept
    )

theorem execSwageLine_kept {ρ : State} {b : ℕ} {u : ℕ} {s : State} (hk : Kept ρ s) :
    ∃ s', execSwageLine b u s = .next s' ∧ Kept ρ s' := by
  refine ⟨_, rfl, ?_⟩
  try dsimp only
  repeat' (first
    | with_reducible assumption
    | with_reducible apply swageOp_kept
    )

theorem execSwageRect_kept {ρ : State} {b : ℕ} {u : ℕ} {s : State} (hk : Kept ρ s) :
    ∃ s', execSwageRect b u s = .next s' ∧ Kept ρ s' := by
  refine ⟨_, rfl, ?_⟩
  try dsimp only
  repeat' (first
    | with_reducible assumption
    | with_reducible apply swageOp_kept
    )

theorem execSwagePatrop_kept {ρ : State} {b : ℕ} {u : ℕ} {s : State} (hk : Kept ρ s) :
    ∃ s', execSwagePatrop b u s = .next s' ∧ Kept ρ s' := by
  refine ⟨_, rfl, ?_⟩
  try dsimp only
  repeat' (first
    | with_reducible assumption
    | with_reducible apply swageOp_kept
    )

theorem execSwageIllegalOp_kept {ρ : State} {b : ℕ} {u : ℕ} {s : State} (hk : Kept ρ s) :
    ∃ s', execSwageIllegalOp b u s = .next s' ∧ Kept ρ s' := by
  refine ⟨_, rfl, ?_⟩
  try dsimp only
  repeat' (first
    | with_reducible assumption
    | with_reducible apply swageOp_kept
    )

theorem swageAbort_kept {ρ s : State} {b u : Nat} (hk : Kept ρ s) : Kept ρ (swageAbort s b u) := by
  unfold swageAbort
  dsimp only
  refine ite_kept hk (ite_kept (swageFinish_kept hk) ?_)
  split
  · rename_i h
    exact swageFinish_kept (swageUnit_kept hk (Or.inl h))
  · exact swageFinish_kept hk
  · rename_i h
    exact State.orReg_kept (swageUnit_kept hk (Or.inr (Or.inr h)))

theorem execSwageAbort_kept {ρ : State} {b : ℕ} {u : ℕ} {s : State} (hk : Kept ρ s) :
    ∃ s', execSwageAbort b u s = .next s' ∧ Kept ρ s' := by
  refine ⟨_, rfl, ?_⟩
  try dsimp only
  repeat' (first
    | with_reducible assumption
    | with_reducible apply swageAbort_kept
    | with_reducible refine Kept.fst (by assumption) ?_
    | split
    )

theorem execSwageWaitRelease_kept {ρ : State} {b : ℕ} {u : ℕ} {s : State} (hk : Kept ρ s) :
    ∃ s', execSwageWaitRelease b u s = .next s' ∧ Kept ρ s' := by
  refine ⟨_, rfl, ?_⟩
  try dsimp only
  repeat' (first
    | with_reducible assumption
    | with_reducible apply swageStart_kept
    | with_reducible refine Kept.fst (by assumption) ?_
    | split
    )

theorem swageMiss_kept {ρ : State} {s : State} {b : ℕ} {u : ℕ} (hk : Kept ρ s) :
    Kept ρ (swageMiss s b u) := by
  unfold swageMiss
  try dsimp only
  repeat' (first
    | with_reducible assumption
    | with_reducible apply swageFinish_kept
    | with_reducible refine Kept.fst (by assumption) ?_
    | split
    )

theorem execSwageWaitDeadline_kept {ρ : State} {b : ℕ} {u : ℕ} {s : State} (hk : Kept ρ s) :
    ∃ s', execSwageWaitDeadline b u s = .next s' ∧ Kept ρ s' := by
  refine ⟨_, rfl, ?_⟩
  try dsimp only
  repeat' (first
    | with_reducible assumption
    | with_reducible apply swageMiss_kept
    | with_reducible refine Kept.fst (by assumption) ?_
    | split
    )

theorem swageDone_kept {ρ : State} {s : State} {b : ℕ} {u : ℕ} (hk : Kept ρ s) :
    Kept ρ (swageDone s b u) := by
  unfold swageDone
  try dsimp only
  repeat' (first
    | with_reducible assumption
    | with_reducible apply swageRun_kept
    | with_reducible apply swageFinish_kept
    | with_reducible refine Kept.fst (by assumption) ?_
    | split
    )

theorem execSwageDone_kept {ρ : State} {b : ℕ} {u : ℕ} {s : State} (hk : Kept ρ s) :
    ∃ s', execSwageDone b u s = .next s' ∧ Kept ρ s' := by
  refine ⟨_, rfl, ?_⟩
  try dsimp only
  repeat' (first
    | with_reducible assumption
    | with_reducible apply swageDone_kept
    | with_reducible refine Kept.fst (by assumption) ?_
    | split
    )

theorem swageMark_kept {ρ : State} {s : State} {b : ℕ} {u : ℕ} (hk : Kept ρ s) :
    Kept ρ (swageMark s b u) := by
  unfold swageMark
  try dsimp only
  repeat' (first
    | with_reducible assumption
    | with_reducible apply swageWork_kept
    | with_reducible apply State.orReg_kept
    | with_reducible apply State.setSwage_kept
    | with_reducible refine Kept.fst (by assumption) ?_
    | split
    )

theorem execSwageWatermark_kept {ρ : State} {b : ℕ} {u : ℕ} {s : State} (hk : Kept ρ s) :
    ∃ s', execSwageWatermark b u s = .next s' ∧ Kept ρ s' := by
  refine ⟨_, rfl, ?_⟩
  try dsimp only
  repeat' (first
    | with_reducible assumption
    | with_reducible apply swageMark_kept
    | with_reducible refine Kept.fst (by assumption) ?_
    | split
    )

theorem eachSwage_kept {ρ : State} {s : State} {f : State → ℕ → ℕ → State} (hf : ∀ s v0 v1, Kept ρ s → Kept ρ (f s v0 v1)) (hk : Kept ρ s) :
    Kept ρ (eachSwage s f) := by
  unfold eachSwage
  try dsimp only
  repeat' (first
    | with_reducible assumption
    | with_reducible apply State.eachBillet_kept
    | with_reducible apply hf
    | with_reducible apply Kept.foldl
    | with_reducible apply Kept.foldlFst
    | with_reducible refine Kept.fst (by assumption) ?_
    | split
    | intro _
    )

theorem swageLine_kept {ρ : State} {s : State} (hk : Kept ρ s) :
    Kept ρ (swageLine s) := by
  unfold swageLine
  try dsimp only
  repeat' (first
    | with_reducible assumption
    | with_reducible apply eachSwage_kept
    | with_reducible apply swageRun_kept
    | with_reducible refine Kept.fst (by assumption) ?_
    | split
    | intro _
    )

theorem swageOverdue_kept {ρ : State} {s : State} (hk : Kept ρ s) :
    Kept ρ (swageOverdue s) := by
  unfold swageOverdue
  try dsimp only
  repeat' (first
    | with_reducible assumption
    | with_reducible apply eachSwage_kept
    | with_reducible apply swageMiss_kept
    )

theorem swageFrame_kept {ρ : State} {s : State} (hk : Kept ρ s) :
    Kept ρ (swageFrame s) := by
  unfold swageFrame
  try dsimp only
  repeat' (first
    | with_reducible assumption
    | with_reducible refine Kept.fst (by assumption) ?_
    | (unfold Kept Inv; dsimp only; refine (show Kept _ _ from ?_); with_reducible assumption)
    )

theorem swageCmd_kept {ρ : State} {s : State} {b : ℕ} {u : ℕ} {v : Word} (hk : Kept ρ s) :
    Kept ρ (swageCmd s b u v) := by
  unfold swageCmd
  try dsimp only
  repeat' (first
    | with_reducible assumption
    | with_reducible apply State.setReg_kept
    | with_reducible apply swageAbort_kept
    | with_reducible apply swageGo_kept
    | with_reducible refine Kept.fst (by assumption) ?_
    | split
    )

end Sys2Proof.Machine
end

