-- ==== Sys2Proof/Laws/KeptPower.lean ====
section
/-! SUPPORT. What the operations of Machine/Power.lean keep. -/

namespace Sys2Proof.Machine

theorem tmpEvt_kept {ρ : State} {s : State} {m : ℕ} (hk : Kept ρ s) :
    Kept ρ (tmpEvt s m) := by
  unfold tmpEvt
  try dsimp only
  repeat' (first
    | with_reducible assumption
    | with_reducible apply State.orReg_kept
    )

theorem setTmp_kept {ρ : State} {s : State} {x : Temper} (hk : Kept ρ s) :
    Kept ρ (setTmp s x) := by
  unfold setTmp
  try dsimp only
  repeat' (first
    | with_reducible assumption
    | with_reducible refine Kept.fst (by assumption) ?_
    | (unfold Kept Inv; dsimp only; refine (show Kept _ _ from ?_); with_reducible assumption)
    )

theorem showLevels_kept {ρ : State} {s : State} (hk : Kept ρ s) :
    Kept ρ (showLevels s) := by
  unfold showLevels
  try dsimp only
  repeat' (first
    | with_reducible assumption
    | with_reducible apply State.setReg_kept
    )

theorem temperDecide_kept {ρ : State} {s : State} {preds : List ℕ} (hk : Kept ρ s) :
    Kept ρ (temperDecide s preds) := by
  unfold temperDecide
  try dsimp only
  repeat' (first
    | with_reducible assumption
    | with_reducible apply setTmp_kept
    | with_reducible apply tmpEvt_kept
    | with_reducible apply State.setRf_kept
    | with_reducible apply showLevels_kept
    | with_reducible apply State.setReg_kept
    | with_reducible apply Kept.foldl
    | with_reducible apply Kept.foldlFst
    | with_reducible refine Kept.fst (by assumption) ?_
    | split
    | intro _
    )

theorem currentCheck_kept {ρ : State} {s : State} {use : List ℕ} (hk : Kept ρ s) :
    Kept ρ (currentCheck s use) := by
  unfold currentCheck
  try dsimp only
  repeat' (first
    | with_reducible assumption
    | with_reducible apply setTmp_kept
    | with_reducible apply tmpEvt_kept
    | with_reducible apply State.setRf_kept
    | with_reducible apply showLevels_kept
    | with_reducible apply State.addReg_kept
    | with_reducible apply Kept.foldl
    | with_reducible apply Kept.foldlFst
    | with_reducible refine Kept.fst (by assumption) ?_
    | split
    | intro _
    )

theorem execTemperCurrentCheck_kept {ρ : State} {use : List ℕ} {s : State} (hk : Kept ρ s) :
    ∃ s', execTemperCurrentCheck use s = .next s' ∧ Kept ρ s' := by
  refine ⟨_, rfl, ?_⟩
  try dsimp only
  repeat' (first
    | with_reducible assumption
    | with_reducible apply atInstant_kept
    | with_reducible apply currentCheck_kept
    | with_reducible refine Kept.fst (by assumption) ?_
    | split
    | intro _
    )

theorem sensorRead_kept {ρ : State} {s : State} {t : ℤ} {tj : ℤ} (hk : Kept ρ s) :
    Kept ρ (sensorRead s t tj) := by
  unfold sensorRead
  try dsimp only
  repeat' (first
    | with_reducible assumption
    | with_reducible apply State.setReg_kept
    | with_reducible apply setTmp_kept
    | with_reducible apply tmpEvt_kept
    | with_reducible refine Kept.fst (by assumption) ?_
    | split
    )

theorem sensorHeld_kept {ρ : State} {s : State} {tj : ℤ} (hk : Kept ρ s) :
    Kept ρ (sensorHeld s tj) := by
  unfold sensorHeld
  try dsimp only
  repeat' (first
    | with_reducible assumption
    | with_reducible refine Kept.fst (by assumption) ?_
    | (unfold Kept Inv; dsimp only; refine (show Kept _ _ from ?_); with_reducible assumption)
    | split
    )

theorem execTempSensorRead_kept {ρ : State} {t : ℤ} {tj : ℤ} {s : State} (hk : Kept ρ s) :
    ∃ s', execTempSensorRead t tj s = .next s' ∧ Kept ρ s' := by
  refine ⟨_, rfl, ?_⟩
  try dsimp only
  repeat' (first
    | with_reducible assumption
    | with_reducible apply sensorHeld_kept
    | with_reducible apply atInstant_kept
    | with_reducible apply sensorRead_kept
    | with_reducible refine Kept.fst (by assumption) ?_
    | split
    | intro _
    )

theorem retrainAll_kept {ρ : State} {s : State} (hk : Kept ρ s) :
    Kept ρ (retrainAll s) := by
  unfold retrainAll
  try dsimp only
  repeat' (first
    | with_reducible assumption
    | with_reducible apply State.eachBillet_kept
    | with_reducible apply retrainStart_kept
    | with_reducible refine Kept.fst (by assumption) ?_
    | split
    | intro _
    )

theorem powerAsk_kept {ρ : State} {s : State} {v : Word} (hk : Kept ρ s) :
    Kept ρ (powerAsk s v) := by
  unfold powerAsk
  try dsimp only
  repeat' (first
    | with_reducible assumption
    | with_reducible apply State.setReg_kept
    | with_reducible apply setTmp_kept
    | with_reducible apply retrainAll_kept
    | with_reducible refine Kept.fst (by assumption) ?_
    | split
    )

theorem execPowerStateRequest_kept {ρ : State} {v : Word} {s : State} (hk : Kept ρ s) :
    ∃ s', execPowerStateRequest v s = .next s' ∧ Kept ρ s' := by
  refine ⟨_, rfl, ?_⟩
  try dsimp only
  repeat' (first
    | with_reducible assumption
    | with_reducible apply powerAsk_kept
    )

theorem powerFrame_kept {ρ : State} {s : State} (hk : Kept ρ s) :
    Kept ρ (powerFrame s) := by
  unfold powerFrame
  try dsimp only
  repeat' (first
    | with_reducible assumption
    | with_reducible apply setTmp_kept
    | with_reducible refine Kept.fst (by assumption) ?_
    | split
    )

theorem clkEvt_kept {ρ : State} {s : State} {b : ℕ} {m : ℕ} (hk : Kept ρ s) :
    Kept ρ (clkEvt s b m) := by
  unfold clkEvt
  try dsimp only
  repeat' (first
    | with_reducible assumption
    | with_reducible apply State.orReg_kept
    )

theorem wbStop_kept {ρ : State} {s : State} {b : ℕ} {p : ℕ} (hk : Kept ρ s) :
    Kept ρ (wbStop s b p) := by
  unfold wbStop
  try dsimp only
  repeat' (first
    | with_reducible assumption
    | with_reducible apply wbCount_kept
    | with_reducible apply dropSlot_kept
    | with_reducible apply State.setOut_kept
    | with_reducible apply wbLose_kept
    | with_reducible apply Kept.foldl
    | with_reducible apply Kept.foldlFst
    | with_reducible refine Kept.fst (by assumption) ?_
    | split
    | intro _
    )

theorem portGone_kept {ρ : State} {s : State} {b : ℕ} {p : ℕ} (hk : Kept ρ s) :
    Kept ρ (portGone s b p) := by
  unfold portGone
  try dsimp only
  repeat' (first
    | with_reducible assumption
    | with_reducible apply lppPortStop_kept
    | with_reducible apply waitersStop_kept
    | with_reducible apply outStop_kept
    | with_reducible apply wbStop_kept
    | with_reducible apply discardStopped_kept
    )

theorem synthOff_kept {ρ : State} {s : State} {b : ℕ} {p : ℕ} (hk : Kept ρ s) :
    Kept ρ (synthOff s b p) := by
  unfold synthOff
  try dsimp only
  repeat' (first
    | with_reducible assumption
    | with_reducible apply State.setPort_kept
    | with_reducible refine Kept.fst (by assumption) ?_
    | split
    )

theorem portCtrl_kept {ρ : State} {s : State} {b : ℕ} {p : ℕ} {v : Word} (hk : Kept ρ s) :
    Kept ρ (portCtrl s b p v) := by
  unfold portCtrl
  try dsimp only
  repeat' (first
    | with_reducible assumption
    | with_reducible apply State.setBreg_kept
    | with_reducible apply State.setPort_kept
    | with_reducible apply synthOff_kept
    | with_reducible refine Kept.fst (by assumption) ?_
    | split
    )

theorem execPortEnWrite_kept {ρ : State} {b : ℕ} {p : ℕ} {v : Word} {s : State} (hk : Kept ρ s) :
    ∃ s', execPortEnWrite b p v s = .next s' ∧ Kept ρ s' := by
  refine ⟨_, rfl, ?_⟩
  try dsimp only
  repeat' (first
    | with_reducible assumption
    | with_reducible apply portCtrl_kept
    | with_reducible refine Kept.fst (by assumption) ?_
    | split
    )

theorem execSynthLock_kept {ρ : State} {b : ℕ} {p : ℕ} {s : State} (hk : Kept ρ s) :
    ∃ s', execSynthLock b p s = .next s' ∧ Kept ρ s' := by
  refine ⟨_, rfl, ?_⟩
  try dsimp only
  repeat' (first
    | with_reducible assumption
    | with_reducible apply State.setPort_kept
    | with_reducible refine Kept.fst (by assumption) ?_
    | split
    )

theorem synthLoss_kept {ρ : State} {s : State} {b : ℕ} {p : ℕ} (hk : Kept ρ s) :
    Kept ρ (synthLoss s b p) := by
  unfold synthLoss
  try dsimp only
  repeat' (first
    | with_reducible assumption
    | with_reducible apply State.setPort_kept
    | with_reducible apply portGone_kept
    | with_reducible apply stopPort_kept
    | with_reducible apply clkEvt_kept
    | with_reducible refine Kept.fst (by assumption) ?_
    | split
    )

theorem execSynthLockLoss_kept {ρ : State} {b : ℕ} {p : ℕ} {s : State} (hk : Kept ρ s) :
    ∃ s', execSynthLockLoss b p s = .next s' ∧ Kept ρ s' := by
  refine ⟨_, rfl, ?_⟩
  try dsimp only
  repeat' (first
    | with_reducible assumption
    | with_reducible apply synthLoss_kept
    | with_reducible refine Kept.fst (by assumption) ?_
    | split
    )

theorem undefineMemories_kept {ρ s : State} {p : Nat → Bool} (hk : Kept ρ s) : Kept ρ (undefineMemories s p) := by
  unfold undefineMemories
  exact ⟨hk.1, hk.2.1, hk.2.2.1, hk.2.2.2.1, rfl, rfl, hk.phase⟩

theorem packageReset_kept {ρ s : State} {cause : Nat} (hk : Kept ρ s) : Kept ρ (packageReset s cause) := by
  have hu : Kept ρ (undefineMemories s (fun _ => true)) := undefineMemories_kept hk
  unfold packageReset
  exact State.setReg_kept ⟨hk.1, hk.2.1, hk.2.2.1, hk.2.2.2.1, hu.2.2.2.2.1, hu.2.2.2.2.2.1, Nat.zero_lt_succ 3⟩

theorem execPowerOnReset_kept {ρ : State} {s : State} (hk : Kept ρ s) :
    ∃ s', execPowerOnReset s = .next s' ∧ Kept ρ s' := by
  refine ⟨_, rfl, ?_⟩
  try dsimp only
  repeat' (first
    | with_reducible assumption
    | with_reducible apply packageReset_kept
    )

theorem execPinReset_kept {ρ : State} {s : State} (hk : Kept ρ s) :
    ∃ s', execPinReset s = .next s' ∧ Kept ρ s' := by
  refine ⟨_, rfl, ?_⟩
  try dsimp only
  repeat' (first
    | with_reducible assumption
    | with_reducible apply packageReset_kept
    )

theorem execThermalReset_kept {ρ : State} {s : State} (hk : Kept ρ s) :
    ∃ s', execThermalReset s = .next s' ∧ Kept ρ s' := by
  refine ⟨_, rfl, ?_⟩
  try dsimp only
  repeat' (first
    | with_reducible assumption
    | with_reducible apply packageReset_kept
    )

theorem execClockReset_kept {ρ : State} {s : State} (hk : Kept ρ s) :
    ∃ s', execClockReset s = .next s' ∧ Kept ρ s' := by
  refine ⟨_, rfl, ?_⟩
  try dsimp only
  repeat' (first
    | with_reducible assumption
    | with_reducible apply packageReset_kept
    )

theorem grstWrite_kept {ρ : State} {s : State} {v : Word} (hk : Kept ρ s) :
    Kept ρ (grstWrite s v) := by
  unfold grstWrite
  try dsimp only
  repeat' (first
    | with_reducible assumption
    | with_reducible apply packageReset_kept
    | with_reducible refine Kept.fst (by assumption) ?_
    | split
    )

theorem execSoftReset_kept {ρ : State} {v : Word} {s : State} (hk : Kept ρ s) :
    ∃ s', execSoftReset v s = .next s' ∧ Kept ρ s' := by
  refine ⟨_, rfl, ?_⟩
  try dsimp only
  repeat' (first
    | with_reducible assumption
    | with_reducible apply grstWrite_kept
    )

theorem wdogLoad_kept {ρ : State} {s : State} (hk : Kept ρ s) :
    Kept ρ (wdogLoad s) := by
  unfold wdogLoad
  try dsimp only
  repeat' (first
    | with_reducible assumption
    | with_reducible refine Kept.fst (by assumption) ?_
    | (unfold Kept Inv; dsimp only; refine (show Kept _ _ from ?_); with_reducible assumption)
    )

theorem kickWrite_kept {ρ : State} {s : State} {v : Word} (hk : Kept ρ s) :
    Kept ρ (kickWrite s v) := by
  unfold kickWrite
  try dsimp only
  repeat' (first
    | with_reducible assumption
    | with_reducible apply wdogLoad_kept
    | with_reducible apply packageReset_kept
    | with_reducible refine Kept.fst (by assumption) ?_
    | split
    )

theorem execWatchdogKick_kept {ρ : State} {v : Word} {s : State} (hk : Kept ρ s) :
    ∃ s', execWatchdogKick v s = .next s' ∧ Kept ρ s' := by
  refine ⟨_, rfl, ?_⟩
  try dsimp only
  repeat' (first
    | with_reducible assumption
    | with_reducible apply kickWrite_kept
    )

theorem execWatchdogExpiry_kept {ρ : State} {s : State} (hk : Kept ρ s) :
    ∃ s', execWatchdogExpiry s = .next s' ∧ Kept ρ s' := by
  refine ⟨_, rfl, ?_⟩
  try dsimp only
  repeat' (first
    | with_reducible assumption
    | with_reducible apply atInstant_kept
    | with_reducible apply packageReset_kept
    | with_reducible refine Kept.fst (by assumption) ?_
    | split
    | intro _
    )

theorem holdDomain_kept {ρ : State} {s : State} {b : ℕ} {dom : ClkDomain} (hk : Kept ρ s) :
    Kept ρ (holdDomain s b dom) := by
  unfold holdDomain
  try dsimp only
  repeat' (first
    | with_reducible assumption
    | with_reducible refine Kept.fst (by assumption) ?_
    | (unfold Kept Inv; dsimp only; refine (show Kept _ _ from ?_); with_reducible assumption)
    | split
    )

theorem flushChannels_kept {ρ : State} {s : State} {b : ℕ} {l : List ℕ} (hk : Kept ρ s) :
    Kept ρ (flushChannels s b l) := by
  unfold flushChannels
  try dsimp only
  repeat' (first
    | with_reducible assumption
    | with_reducible apply State.setMem_kept
    )

theorem clockLost_kept {ρ : State} {s : State} {b : ℕ} {dom : ClkDomain} (hk : Kept ρ s) :
    Kept ρ (clockLost s b dom) := by
  unfold clockLost
  try dsimp only
  repeat' (first
    | with_reducible assumption
    | with_reducible apply packageReset_kept
    | with_reducible apply synthLoss_kept
    | with_reducible apply holdDomain_kept
    | with_reducible apply State.setHammer_kept
    | with_reducible apply linkJudge_kept
    | with_reducible apply laneLink_kept
    | with_reducible apply State.setLane_kept
    | with_reducible apply State.orReg_kept
    | with_reducible apply flushChannels_kept
    | with_reducible apply Kept.foldl
    | with_reducible apply Kept.foldlFst
    | with_reducible refine Kept.fst (by assumption) ?_
    | split
    | intro _
    )

theorem execClockLoss_kept {ρ : State} {b : ℕ} {dom : ClkDomain} {s : State} (hk : Kept ρ s) :
    ∃ s', execClockLoss b dom s = .next s' ∧ Kept ρ s' := by
  refine ⟨_, rfl, ?_⟩
  try dsimp only
  repeat' (first
    | with_reducible assumption
    | with_reducible apply clockLost_kept
    | with_reducible refine Kept.fst (by assumption) ?_
    | split
    )

theorem clockBack_kept {ρ : State} {s : State} {b : ℕ} {dom : ClkDomain} (hk : Kept ρ s) :
    Kept ρ (clockBack s b dom) := by
  unfold clockBack
  try dsimp only
  repeat' (first
    | with_reducible assumption
    | with_reducible apply State.setHammer_kept
    | with_reducible apply State.clrReg_kept
    | with_reducible apply State.setLane_kept
    | with_reducible apply State.setReg_kept
    | with_reducible apply State.setMem_kept
    | with_reducible apply Kept.foldl
    | with_reducible apply Kept.foldlFst
    | with_reducible refine Kept.fst (by assumption) ?_
    | (unfold Kept Inv; dsimp only; refine (show Kept _ _ from ?_); with_reducible assumption)
    | split
    | intro _
    )

theorem execDomainClockReturn_kept {ρ : State} {b : ℕ} {dom : ClkDomain} {s : State} (hk : Kept ρ s) :
    ∃ s', execDomainClockReturn b dom s = .next s' ∧ Kept ρ s' := by
  refine ⟨_, rfl, ?_⟩
  try dsimp only
  repeat' (first
    | with_reducible assumption
    | with_reducible apply clockBack_kept
    | with_reducible refine Kept.fst (by assumption) ?_
    | split
    )

theorem heldAccess_kept {ρ : State} {s : State} {b : ℕ} {off : ℕ} (hk : Kept ρ s) :
    Kept ρ (heldAccess s b off) := by
  unfold heldAccess
  try dsimp only
  repeat' (first
    | with_reducible assumption
    | with_reducible apply State.setReg_kept
    | with_reducible apply clkEvt_kept
    )

theorem wdogWrite_kept {ρ : State} {s : State} {v : Word} (hk : Kept ρ s) :
    Kept ρ (wdogWrite s v) := by
  unfold wdogWrite
  try dsimp only
  repeat' (first
    | with_reducible assumption
    | with_reducible apply State.setReg_kept
    | with_reducible apply wdogLoad_kept
    | with_reducible refine Kept.fst (by assumption) ?_
    | split
    )

theorem judgeBanks_kept {ρ : State} {s : State} (hk : Kept ρ s) :
    Kept ρ (judgeBanks s) := by
  unfold judgeBanks
  try dsimp only
  repeat' (first
    | with_reducible assumption
    | with_reducible apply State.eachBillet_kept
    | with_reducible apply bankJudge_kept
    | with_reducible apply Kept.foldl
    | with_reducible apply Kept.foldlFst
    | with_reducible refine Kept.fst (by assumption) ?_
    | split
    | intro _
    )

theorem resetRelease_kept {ρ s : State} {sel : Nat} (hk : Kept ρ s) : Kept ρ (resetRelease s sel) := by
  unfold resetRelease
  dsimp only
  split
  · exact hk
  · refine ite_kept (State.eachBillet_kept (fun s b h => memTrain_kept h) ?_) ?_
    all_goals
      refine judgeBanks_kept (State.setReg_kept ?_)
      exact ⟨hk.1, hk.2.1, hk.2.2.1, hk.2.2.2.1, hk.2.2.2.2.1, hk.2.2.2.2.2.1, Nat.zero_lt_succ 3⟩

theorem execResetRelease_kept {ρ : State} {bootSel : ℕ} {s : State} (hk : Kept ρ s) :
    ∃ s', execResetRelease bootSel s = .next s' ∧ Kept ρ s' := by
  refine ⟨_, rfl, ?_⟩
  try dsimp only
  repeat' (first
    | with_reducible assumption
    | with_reducible apply resetRelease_kept
    )

theorem sleepPins_kept {ρ : State} {s : State} (hk : Kept ρ s) :
    Kept ρ (sleepPins s) := by
  unfold sleepPins
  try dsimp only
  repeat' (first
    | with_reducible assumption
    | with_reducible apply State.eachBillet_kept
    | with_reducible apply State.setPin_kept
    | with_reducible apply Kept.foldl
    | with_reducible apply Kept.foldlFst
    | with_reducible refine Kept.fst (by assumption) ?_
    | split
    | intro _
    )

theorem emberStops_kept {ρ : State} {s : State} (hk : Kept ρ s) :
    Kept ρ (emberStops s) := by
  unfold emberStops
  try dsimp only
  repeat' (first
    | with_reducible assumption
    | with_reducible apply State.eachBillet_kept
    | with_reducible apply sleepPins_kept
    | with_reducible apply State.setHammer_kept
    | with_reducible apply linkJudge_kept
    | with_reducible apply portGone_kept
    | with_reducible apply stopPort_kept
    | with_reducible apply laneLink_kept
    | with_reducible apply State.setLane_kept
    | with_reducible apply Kept.foldl
    | with_reducible apply Kept.foldlFst
    | with_reducible refine Kept.fst (by assumption) ?_
    | split
    | intro _
    )

theorem emberEnter_kept {ρ s : State} {ins : List Nat} (hk : Kept ρ s) : Kept ρ (emberEnter s ins) := by
  unfold emberEnter
  dsimp only
  split
  · exact hk
  · split
    · exact setTmp_kept (State.setReg_kept hk)
    · have h4 : Kept ρ (emberStops s) := emberStops_kept hk
      exact ⟨h4.1, h4.2.1, h4.2.2.1, h4.2.2.2.1, h4.2.2.2.2.1, h4.2.2.2.2.2.1, hk.phase⟩

theorem execEmberEnter_kept {ρ : State} {ins : List ℕ} {s : State} (hk : Kept ρ s) :
    ∃ s', execEmberEnter ins s = .next s' ∧ Kept ρ s' := by
  refine ⟨_, rfl, ?_⟩
  try dsimp only
  repeat' (first
    | with_reducible assumption
    | with_reducible apply emberEnter_kept
    )

theorem execEmberTimerExpire_kept {ρ : State} {s : State} (hk : Kept ρ s) :
    ∃ s', execEmberTimerExpire s = .next s' ∧ Kept ρ s' := by
  refine ⟨_, rfl, ?_⟩
  try dsimp only
  repeat' (first
    | with_reducible assumption
    | with_reducible apply State.setReg_kept
    | with_reducible refine Kept.fst (by assumption) ?_
    | split
    )

theorem wakeBase_kept {ρ s : State} (hk : Kept ρ s) : Kept ρ (wakeBase s) := by
  have hu : Kept ρ (undefineMemories s (fun i => !isKeeper i)) := undefineMemories_kept hk
  exact ⟨hk.1, hk.2.1, hk.2.2.1, hk.2.2.2.1, hu.2.2.2.2.1, hu.2.2.2.2.2.1, Nat.zero_lt_succ 3⟩

theorem wakeSources_kept {ρ : State} {s : State} (hk : Kept ρ s) :
    Kept ρ (wakeSources s) := by
  unfold wakeSources
  try dsimp only
  repeat' (first
    | with_reducible assumption
    | with_reducible apply State.eachBillet_kept
    | with_reducible apply State.setSrc_kept
    | with_reducible apply Kept.foldl
    | with_reducible apply Kept.foldlFst
    | with_reducible refine Kept.fst (by assumption) ?_
    | split
    | intro _
    )

theorem wakeBeam_kept {ρ s : State} {frame : Nat} (hk : Kept ρ s) : Kept ρ (wakeBeam s frame) :=
  ⟨hk.1, hk.2.1, hk.2.2.1, hk.2.2.2.1, hk.2.2.2.2.1, hk.2.2.2.2.2.1, Nat.zero_lt_succ 3⟩

theorem wakePorts_kept {ρ : State} {s : State} (hk : Kept ρ s) :
    Kept ρ (wakePorts s) := by
  unfold wakePorts
  try dsimp only
  repeat' (first
    | with_reducible assumption
    | with_reducible apply State.eachBillet_kept
    | with_reducible apply State.setPort_kept
    | with_reducible apply Kept.foldl
    | with_reducible apply Kept.foldlFst
    | with_reducible refine Kept.fst (by assumption) ?_
    | split
    | intro _
    )

theorem emberWake_kept {ρ : State} {s : State} {now : List ℕ} (hk : Kept ρ s) :
    Kept ρ (emberWake s now) := by
  unfold emberWake
  try dsimp only
  repeat' (first
    | with_reducible assumption
    | with_reducible apply State.setReg_kept
    | with_reducible apply wakeBase_kept
    | with_reducible apply State.nextFree_kept
    | with_reducible apply setTickFull_kept
    | with_reducible apply State.orReg_kept
    | with_reducible apply wakeSources_kept
    | with_reducible apply judgeBanks_kept
    | with_reducible apply wakePorts_kept
    | with_reducible apply wakeBeam_kept
    | with_reducible apply State.eachBillet_kept
    | with_reducible apply raisePrivate_kept
    | with_reducible apply Kept.foldl
    | with_reducible apply Kept.foldlFst
    | with_reducible refine Kept.fst (by assumption) ?_
    | split
    | intro _
    )

theorem emberSample_kept {ρ : State} {s : State} {ins : List ℕ} (hk : Kept ρ s) :
    Kept ρ (emberSample s ins) := by
  unfold emberSample
  try dsimp only
  repeat' (first
    | with_reducible assumption
    | with_reducible apply emberWake_kept
    | with_reducible refine Kept.fst (by assumption) ?_
    | (unfold Kept Inv; dsimp only; refine (show Kept _ _ from ?_); with_reducible assumption)
    | split
    )

theorem execEmberWake_kept {ρ : State} {ins : List ℕ} {s : State} (hk : Kept ρ s) :
    ∃ s', execEmberWake ins s = .next s' ∧ Kept ρ s' := by
  refine ⟨_, rfl, ?_⟩
  try dsimp only
  repeat' (first
    | with_reducible assumption
    | with_reducible apply emberSample_kept
    )

end Sys2Proof.Machine
end

