-- ==== Sys2Proof/Laws/KeptTongs.lean ====
section
/-! SUPPORT. What the operations of Machine/Tongs.lean keep. -/

namespace Sys2Proof.Machine

theorem tngStat_kept {ρ : State} {s : State} {b : ℕ} {c : ℕ} {m : ℕ} (hk : Kept ρ s) :
    Kept ρ (tngStat s b c m) := by
  unfold tngStat
  try dsimp only
  repeat' (first
    | with_reducible assumption
    | with_reducible apply State.orReg_kept
    )

theorem tngShow_kept {ρ : State} {s : State} {b : ℕ} {c : ℕ} (hk : Kept ρ s) :
    Kept ρ (tngShow s b c) := by
  unfold tngShow
  try dsimp only
  repeat' (first
    | with_reducible assumption
    | with_reducible apply State.setReg_kept
    )

theorem tngDrop_kept {ρ : State} {s : State} {b : ℕ} {c : ℕ} (hk : Kept ρ s) :
    Kept ρ (tngDrop s b c) := by
  unfold tngDrop
  try dsimp only
  repeat' (first
    | with_reducible assumption
    | with_reducible apply State.eachBillet_kept
    | with_reducible apply endReads_kept
    | with_reducible refine Kept.fst (by assumption) ?_
    | split
    | intro _
    )

theorem tngError_kept {ρ : State} {s : State} {b : ℕ} {c : ℕ} {m : ℕ} (hk : Kept ρ s) :
    Kept ρ (tngError s b c m) := by
  unfold tngError
  try dsimp only
  repeat' (first
    | with_reducible assumption
    | with_reducible apply tngStat_kept
    | with_reducible apply tngShow_kept
    | with_reducible apply tngDrop_kept
    | with_reducible apply State.setTong_kept
    )

theorem tngLoad_kept {ρ : State} {s : State} {b : ℕ} {c : ℕ} (hk : Kept ρ s) :
    Kept ρ (tngLoad s b c) := by
  unfold tngLoad
  try dsimp only
  repeat' (first
    | with_reducible assumption
    | with_reducible apply tngShow_kept
    | with_reducible apply State.setTong_kept
    | with_reducible apply tngError_kept
    | with_reducible refine Kept.fst (by assumption) ?_
    | split
    )

theorem tngArm_kept {ρ : State} {s : State} {b : ℕ} {c : ℕ} (hk : Kept ρ s) :
    Kept ρ (tngArm s b c) := by
  unfold tngArm
  try dsimp only
  repeat' (first
    | with_reducible assumption
    | with_reducible apply tngShow_kept
    | with_reducible apply State.setTong_kept
    )

theorem tngBegin_kept {ρ : State} {s : State} {b : ℕ} {c : ℕ} (hk : Kept ρ s) :
    Kept ρ (tngBegin s b c) := by
  unfold tngBegin
  try dsimp only
  repeat' (first
    | with_reducible assumption
    | with_reducible apply State.setTong_kept
    | with_reducible apply tngLoad_kept
    | with_reducible refine Kept.fst (by assumption) ?_
    | split
    )

theorem tngTrigger_kept {ρ : State} {s : State} {b : ℕ} {c : ℕ} (hk : Kept ρ s) :
    Kept ρ (tngTrigger s b c) := by
  unfold tngTrigger
  try dsimp only
  repeat' (first
    | with_reducible assumption
    | with_reducible apply tngBegin_kept
    | with_reducible apply tngStat_kept
    | with_reducible apply State.setTong_kept
    | with_reducible refine Kept.fst (by assumption) ?_
    | split
    )

theorem tngTake_kept {ρ : State} {s : State} {b : ℕ} {c : ℕ} (hk : Kept ρ s) :
    Kept ρ (tngTake s b c) := by
  unfold tngTake
  try dsimp only
  repeat' (first
    | with_reducible assumption
    | with_reducible apply tngTrigger_kept
    | with_reducible apply State.setTong_kept
    | with_reducible refine Kept.fst (by assumption) ?_
    | split
    )

theorem execTongsTrigger_kept {ρ : State} {b : ℕ} {ch : ℕ} {s : State} (hk : Kept ρ s) :
    ∃ s', execTongsTrigger b ch s = .next s' ∧ Kept ρ s' := by
  refine ⟨_, rfl, ?_⟩
  try dsimp only
  repeat' (first
    | with_reducible assumption
    | with_reducible apply tngTake_kept
    | with_reducible refine Kept.fst (by assumption) ?_
    | split
    )

theorem tngGo_kept {ρ : State} {s : State} {b : ℕ} {c : ℕ} (hk : Kept ρ s) :
    Kept ρ (tngGo s b c) := by
  unfold tngGo
  try dsimp only
  repeat' (first
    | with_reducible assumption
    | with_reducible apply State.setTong_kept
    | with_reducible apply tngTrigger_kept
    | with_reducible apply tngStat_kept
    | with_reducible apply tngArm_kept
    | with_reducible apply State.clrReg_kept
    | with_reducible refine Kept.fst (by assumption) ?_
    | split
    )

theorem execTongsGo_kept {ρ : State} {b : ℕ} {ch : ℕ} {s : State} (hk : Kept ρ s) :
    ∃ s', execTongsGo b ch s = .next s' ∧ Kept ρ s' := by
  refine ⟨_, rfl, ?_⟩
  try dsimp only
  repeat' (first
    | with_reducible assumption
    | with_reducible apply tngGo_kept
    | with_reducible refine Kept.fst (by assumption) ?_
    | split
    )

theorem tngDrain_kept {ρ : State} {s : State} {b : ℕ} {c : ℕ} (hk : Kept ρ s) :
    Kept ρ (tngDrain s b c) := by
  unfold tngDrain
  try dsimp only
  repeat' (first
    | with_reducible assumption
    | with_reducible apply tngShow_kept
    | with_reducible apply tngDrop_kept
    | with_reducible apply State.setTong_kept
    | with_reducible refine Kept.fst (by assumption) ?_
    | split
    )

theorem execTongsDrain_kept {ρ : State} {b : ℕ} {ch : ℕ} {s : State} (hk : Kept ρ s) :
    ∃ s', execTongsDrain b ch s = .next s' ∧ Kept ρ s' := by
  refine ⟨_, rfl, ?_⟩
  try dsimp only
  repeat' (first
    | with_reducible assumption
    | with_reducible apply tngDrain_kept
    | with_reducible refine Kept.fst (by assumption) ?_
    | split
    )

theorem tngDisable_kept {ρ : State} {s : State} {b : ℕ} {c : ℕ} (hk : Kept ρ s) :
    Kept ρ (tngDisable s b c) := by
  unfold tngDisable
  try dsimp only
  repeat' (first
    | with_reducible assumption
    | with_reducible apply State.setReg_kept
    | with_reducible apply tngDrop_kept
    | with_reducible apply State.setTong_kept
    | with_reducible apply State.nextFree_kept
    | with_reducible refine Kept.fst (by assumption) ?_
    | split
    )

theorem execTongsDisable_kept {ρ : State} {b : ℕ} {ch : ℕ} {s : State} (hk : Kept ρ s) :
    ∃ s', execTongsDisable b ch s = .next s' ∧ Kept ρ s' := by
  refine ⟨_, rfl, ?_⟩
  try dsimp only
  repeat' (first
    | with_reducible assumption
    | with_reducible apply tngDisable_kept
    | with_reducible refine Kept.fst (by assumption) ?_
    | split
    )

theorem tngMiss_kept {ρ : State} {s : State} {b : ℕ} {c : ℕ} (hk : Kept ρ s) :
    Kept ρ (tngMiss s b c) := by
  unfold tngMiss
  try dsimp only
  repeat' (first
    | with_reducible assumption
    | with_reducible apply tngError_kept
    | with_reducible refine Kept.fst (by assumption) ?_
    | split
    )

theorem execTongsDeadline_kept {ρ : State} {b : ℕ} {ch : ℕ} {s : State} (hk : Kept ρ s) :
    ∃ s', execTongsDeadline b ch s = .next s' ∧ Kept ρ s' := by
  refine ⟨_, rfl, ?_⟩
  try dsimp only
  repeat' (first
    | with_reducible assumption
    | with_reducible apply tngMiss_kept
    | with_reducible refine Kept.fst (by assumption) ?_
    | split
    )

theorem tngWrite_kept {ρ : State} {s : State} {b : ℕ} {c : ℕ} {v : Word} (hk : Kept ρ s) :
    Kept ρ (tngWrite s b c v) := by
  unfold tngWrite
  try dsimp only
  repeat' (first
    | with_reducible assumption
    | with_reducible apply State.setReg_kept
    | with_reducible apply tngDisable_kept
    | with_reducible apply tngGo_kept
    | with_reducible apply tngDrain_kept
    | with_reducible refine Kept.fst (by assumption) ?_
    | split
    )

theorem tngChainEnd_kept {ρ : State} {s : State} {b : ℕ} {c : ℕ} (hk : Kept ρ s) :
    Kept ρ (tngChainEnd s b c) := by
  unfold tngChainEnd
  try dsimp only
  repeat' (first
    | with_reducible assumption
    | with_reducible apply tngSignal_kept
    | with_reducible apply noteDone_kept
    | with_reducible apply tngStat_kept
    | with_reducible apply tngArm_kept
    | with_reducible apply tngShow_kept
    | with_reducible apply State.setTong_kept
    | with_reducible refine Kept.fst (by assumption) ?_
    | split
    )

theorem tngUnitEnd_kept {ρ : State} {s : State} {b : ℕ} {c : ℕ} (hk : Kept ρ s) :
    Kept ρ (tngUnitEnd s b c) := by
  unfold tngUnitEnd
  try dsimp only
  repeat' (first
    | with_reducible assumption
    | with_reducible apply State.setTong_kept
    | with_reducible apply tngBegin_kept
    | with_reducible apply tngShow_kept
    | with_reducible refine Kept.fst (by assumption) ?_
    | split
    )

theorem eachTong_kept {ρ : State} {s : State} {f : State → ℕ → ℕ → State} (hf : ∀ s v0 v1, Kept ρ s → Kept ρ (f s v0 v1)) (hk : Kept ρ s) :
    Kept ρ (eachTong s f) := by
  unfold eachTong
  try dsimp only
  repeat' (first
    | with_reducible assumption
    | with_reducible apply hf
    | with_reducible apply Kept.foldl
    | with_reducible apply Kept.foldlFst
    | with_reducible refine Kept.fst (by assumption) ?_
    | split
    | intro _
    )

theorem tngOverdue_kept {ρ : State} {s : State} (hk : Kept ρ s) :
    Kept ρ (tngOverdue s) := by
  unfold tngOverdue
  try dsimp only
  repeat' (first
    | with_reducible assumption
    | with_reducible apply eachTong_kept
    | with_reducible apply tngMiss_kept
    )

theorem tngTakeAll_kept {ρ : State} {s : State} (hk : Kept ρ s) :
    Kept ρ (tngTakeAll s) := by
  unfold tngTakeAll
  try dsimp only
  repeat' (first
    | with_reducible assumption
    | with_reducible apply eachTong_kept
    | with_reducible apply tngTake_kept
    | with_reducible apply Kept.foldl
    | with_reducible apply Kept.foldlFst
    | with_reducible refine Kept.fst (by assumption) ?_
    | split
    | intro _
    )

theorem tngFrame_kept {ρ : State} {s : State} (hk : Kept ρ s) :
    Kept ρ (tngFrame s) := by
  unfold tngFrame
  try dsimp only
  repeat' (first
    | with_reducible assumption
    | with_reducible refine Kept.fst (by assumption) ?_
    | (unfold Kept Inv; dsimp only; refine (show Kept _ _ from ?_); with_reducible assumption)
    )

end Sys2Proof.Machine
end

