-- ==== Sys2Proof/Laws/KeptBus.lean ====
section
/-! SUPPORT. What the operations of Machine/Bus.lean keep. -/

namespace Sys2Proof.Machine

theorem plainAt_kept {ρ : State} {s : State} {addr : ℕ} {v : Word} (hk : Kept ρ s) :
    Kept ρ (plainAt s addr v) := by
  unfold plainAt
  try dsimp only
  repeat' (first
    | with_reducible assumption
    | with_reducible apply State.setReg_kept
    | with_reducible refine Kept.fst (by assumption) ?_
    | split
    )

theorem fieldsAt_kept {ρ : State} {s : State} {addr : ℕ} {v : Word} (hk : Kept ρ s) :
    Kept ρ (fieldsAt s addr v) := by
  unfold fieldsAt
  try dsimp only
  repeat' (first
    | with_reducible assumption
    | with_reducible apply State.setReg_kept
    | with_reducible refine Kept.fst (by assumption) ?_
    | split
    )

theorem belWrite_kept {ρ : State} {s : State} {b : ℕ} {off : ℕ} {v : Word} (hk : Kept ρ s) :
    Kept ρ (belWrite s b off v) := by
  unfold belWrite
  try dsimp only
  repeat' (first
    | with_reducible assumption
    | with_reducible apply pkgAccept_kept
    | with_reducible apply portCtrl_kept
    | with_reducible apply State.orReg_kept
    | with_reducible apply plainAt_kept
    | with_reducible refine Kept.fst (by assumption) ?_
    | split
    )

theorem stkWrite_kept {ρ : State} {s : State} {who : Who} {b : ℕ} {off : ℕ} {v : Word} (hk : Kept ρ s) :
    Kept ρ (stkWrite s who b off v) := by
  unfold stkWrite
  try dsimp only
  repeat' (first
    | with_reducible assumption
    | with_reducible apply strikeAccWrite_kept
    | with_reducible apply strikeData_kept
    | with_reducible apply plainAt_kept
    | with_reducible refine Kept.fst (by assumption) ?_
    | split
    )

theorem latchedWrite_kept {ρ : State} {s : State} {who : Who} {b : ℕ} {off : ℕ} {v : Word} (hk : Kept ρ s) :
    Kept ρ (latchedWrite s who b off v) := by
  unfold latchedWrite
  try dsimp only
  repeat' (first
    | with_reducible assumption
    | with_reducible apply pushLive_kept
    | with_reducible apply lineCommit_kept
    | with_reducible apply immediateBits_kept
    | with_reducible refine Kept.fst (by assumption) ?_
    | split
    )

theorem hmrCtrl_kept {ρ : State} {s : State} {who : Who} {b : ℕ} {h : ℕ} {v : Word} (hk : Kept ρ s) :
    Kept ρ (hmrCtrl s who b h v) := by
  unfold hmrCtrl
  try dsimp only
  repeat' (first
    | with_reducible assumption
    | with_reducible apply resetHammer_kept
    | with_reducible apply serviceWrite_kept
    | with_reducible apply hammerRun_kept
    | with_reducible apply State.setHammer_kept
    | with_reducible apply hammerStop_kept
    | with_reducible refine Kept.fst (by assumption) ?_
    | split
    )

theorem hmrWrite_kept {ρ : State} {s : State} {who : Who} {b : ℕ} {off : ℕ} {v : Word} (hk : Kept ρ s) :
    Kept ρ (hmrWrite s who b off v) := by
  unfold hmrWrite
  try dsimp only
  repeat' (first
    | with_reducible assumption
    | with_reducible apply pmAccess_kept
    | with_reducible apply dmAccess_kept
    | with_reducible apply dbgAccess_kept
    | with_reducible apply guarded_kept
    | with_reducible apply hmrCtrl_kept
    | with_reducible apply completeId_kept
    | with_reducible apply State.setPpend_kept
    | with_reducible apply plainAt_kept
    | with_reducible refine Kept.fst (by assumption) ?_
    | split
    | intro _
    )

theorem icWrite_kept {ρ : State} {s : State} {b : ℕ} {off : ℕ} {v : Word} (hk : Kept ρ s) :
    Kept ρ (icWrite s b off v) := by
  unfold icWrite
  try dsimp only
  repeat' (first
    | with_reducible assumption
    | with_reducible apply icSrcWrite_kept
    | with_reducible apply privSet_kept
    | with_reducible apply State.setBreg_kept
    | with_reducible refine Kept.fst (by assumption) ?_
    | split
    )

theorem forgeWrite_kept {ρ : State} {s : State} {b : ℕ} {off : ℕ} {v : Word} (hk : Kept ρ s) :
    Kept ρ (forgeWrite s b off v) := by
  unfold forgeWrite
  try dsimp only
  repeat' (first
    | with_reducible assumption
    | with_reducible apply swageCmd_kept
    | with_reducible apply tngWrite_kept
    | with_reducible apply plainAt_kept
    | with_reducible refine Kept.fst (by assumption) ?_
    | split
    )

theorem memRegWrite_kept {ρ : State} {s : State} {b : ℕ} {off : ℕ} {v : Word} (hk : Kept ρ s) :
    Kept ρ (memRegWrite s b off v) := by
  unfold memRegWrite
  try dsimp only
  repeat' (first
    | with_reducible assumption
    | with_reducible apply fieldsAt_kept
    | with_reducible apply memTrain_kept
    | with_reducible apply arbSwap_kept
    | with_reducible apply freezeWrite_kept
    | with_reducible apply plainAt_kept
    | with_reducible refine Kept.fst (by assumption) ?_
    | split
    )

theorem ctxWrite_kept {ρ : State} {s : State} {b : ℕ} {k : ℕ} {v : Word} (hk : Kept ρ s) :
    Kept ρ (ctxWrite s b k v) := by
  unfold ctxWrite
  try dsimp only
  repeat' (first
    | with_reducible assumption
    | with_reducible apply State.setReg_kept
    | with_reducible apply holdOn_kept
    | with_reducible apply holdOff_kept
    | with_reducible refine Kept.fst (by assumption) ?_
    | split
    )

theorem flxWrite_kept {ρ : State} {s : State} {b : ℕ} {off : ℕ} {v : Word} (hk : Kept ρ s) :
    Kept ρ (flxWrite s b off v) := by
  unfold flxWrite
  try dsimp only
  repeat' (first
    | with_reducible assumption
    | with_reducible apply ctxWrite_kept
    | with_reducible apply plainAt_kept
    | with_reducible refine Kept.fst (by assumption) ?_
    | split
    )

theorem ptpCtrl_kept {ρ : State} {s : State} {v : Word} (hk : Kept ρ s) :
    Kept ρ (ptpCtrl s v) := by
  unfold ptpCtrl
  try dsimp only
  repeat' (first
    | with_reducible assumption
    | with_reducible apply State.setReg_kept
    | with_reducible apply ptpEnable_kept
    | with_reducible apply ptpDisable_kept
    | with_reducible apply ptpArm_kept
    | with_reducible refine Kept.fst (by assumption) ?_
    | split
    )

theorem lnkWrite_kept {ρ : State} {s : State} {b : ℕ} {off : ℕ} {v : Word} (hk : Kept ρ s) :
    Kept ρ (lnkWrite s b off v) := by
  unfold lnkWrite
  try dsimp only
  repeat' (first
    | with_reducible assumption
    | with_reducible apply pixelsLeave_kept
    | with_reducible apply linkJudge_kept
    | with_reducible apply laneCtrl_kept
    | with_reducible apply ptpCtrl_kept
    | with_reducible apply ptpGmport_kept
    | with_reducible apply plainAt_kept
    | with_reducible refine Kept.fst (by assumption) ?_
    | split
    )

theorem pioWrite_kept {ρ : State} {s : State} {who : Who} {b : ℕ} {off : ℕ} {v : Word} (hk : Kept ρ s) :
    Kept ρ (pioWrite s who b off v) := by
  unfold pioWrite
  try dsimp only
  repeat' (first
    | with_reducible assumption
    | with_reducible apply cfgWrite_kept
    | with_reducible apply bankWrite_kept
    | with_reducible apply outWrite_kept
    | with_reducible apply pmWrite_kept
    | with_reducible apply ownWrite_kept
    | with_reducible apply plainAt_kept
    | with_reducible refine Kept.fst (by assumption) ?_
    | split
    )

theorem timWrite_kept {ρ : State} {s : State} {b : ℕ} {off : ℕ} {v : Word} (hk : Kept ρ s) :
    Kept ρ (timWrite s b off v) := by
  unfold timWrite
  try dsimp only
  repeat' (first
    | with_reducible assumption
    | with_reducible apply tickStepLo_kept
    | with_reducible apply tickStepHi_kept
    | with_reducible apply plainAt_kept
    | with_reducible apply cmpCtrl_kept
    | with_reducible apply cmpTlo_kept
    | with_reducible apply cmpShadow_kept
    | with_reducible apply capWrite_kept
    | with_reducible refine Kept.fst (by assumption) ?_
    | split
    )

theorem talWrite_kept {ρ : State} {s : State} {b : ℕ} {off : ℕ} {v : Word} (hk : Kept ρ s) :
    Kept ρ (talWrite s b off v) := by
  unfold talWrite
  try dsimp only
  repeat' (first
    | with_reducible assumption
    | with_reducible apply fieldsAt_kept
    | with_reducible apply tallyClear_kept
    | with_reducible apply plainAt_kept
    | with_reducible refine Kept.fst (by assumption) ?_
    | split
    )

theorem billetWrite_kept {ρ : State} {s : State} {who : Who} {b : ℕ} {off : ℕ} {v : Word} (hk : Kept ρ s) :
    Kept ρ (billetWrite s who b off v) := by
  unfold billetWrite
  try dsimp only
  repeat' (first
    | with_reducible assumption
    | with_reducible apply heldAccess_kept
    | with_reducible apply belWrite_kept
    | with_reducible apply stkWrite_kept
    | with_reducible apply hmrWrite_kept
    | with_reducible apply icWrite_kept
    | with_reducible apply forgeWrite_kept
    | with_reducible apply memRegWrite_kept
    | with_reducible apply flxWrite_kept
    | with_reducible apply lnkWrite_kept
    | with_reducible apply pioWrite_kept
    | with_reducible apply timWrite_kept
    | with_reducible apply talWrite_kept
    | with_reducible apply plainAt_kept
    | with_reducible apply latchedWrite_kept
    | with_reducible refine Kept.fst (by assumption) ?_
    | split
    )

theorem qchCmd_kept {ρ : State} {s : State} {v : Word} (hk : Kept ρ s) :
    Kept ρ (qchCmd s v) := by
  unfold qchCmd
  try dsimp only
  repeat' (first
    | with_reducible assumption
    | with_reducible apply takeTrigger_kept
    | with_reducible apply detachAsk_kept
    | with_reducible apply attachAsk_kept
    | with_reducible apply resyncAsk_kept
    | with_reducible refine Kept.fst (by assumption) ?_
    | split
    )

theorem qchWrite_kept {ρ : State} {s : State} {addr : ℕ} {v : Word} (hk : Kept ρ s) :
    Kept ρ (qchWrite s addr v) := by
  unfold qchWrite
  try dsimp only
  repeat' (first
    | with_reducible assumption
    | with_reducible apply quenchCtrl_kept
    | with_reducible apply qchCmd_kept
    | with_reducible apply quenchPorten_kept
    | with_reducible apply plainAt_kept
    | with_reducible refine Kept.fst (by assumption) ?_
    | split
    )

theorem tuyWrite_kept {ρ : State} {s : State} {addr : ℕ} {v : Word} (hk : Kept ρ s) :
    Kept ρ (tuyWrite s addr v) := by
  unfold tuyWrite
  try dsimp only
  repeat' (first
    | with_reducible assumption
    | with_reducible apply tuyEnable_kept
    | with_reducible apply tuyDisable_kept
    | with_reducible apply fieldsAt_kept
    | with_reducible apply tuySwap_kept
    | with_reducible apply progAccess_kept
    | with_reducible apply paramAccess_kept
    | with_reducible apply rampStart_kept
    | with_reducible apply voiceQueue_kept
    | with_reducible apply plainAt_kept
    | with_reducible refine Kept.fst (by assumption) ?_
    | (unfold Kept Inv; dsimp only; refine (show Kept _ _ from ?_); with_reducible apply plainAt_kept)
    | split
    )

theorem ringDoorbell_kept {ρ : State} {s : State} {v : Word} (hk : Kept ρ s) :
    Kept ρ (ringDoorbell s v) := by
  unfold ringDoorbell
  try dsimp only
  repeat' (first
    | with_reducible assumption
    | with_reducible apply raisePrivate_kept
    | with_reducible apply State.setSticky_kept
    | with_reducible apply tngSignal_kept
    | with_reducible apply Kept.foldl
    | with_reducible apply Kept.foldlFst
    | with_reducible refine Kept.fst (by assumption) ?_
    | split
    | intro _
    )

theorem hirqSet_kept {ρ : State} {s : State} {v : Word} (hk : Kept ρ s) :
    Kept ρ (hirqSet s v) := by
  unfold hirqSet
  try dsimp only
  repeat' (first
    | with_reducible assumption
    | with_reducible apply State.orReg_kept
    | with_reducible refine Kept.fst (by assumption) ?_
    | (unfold Kept Inv; dsimp only; refine (show Kept _ _ from ?_); with_reducible apply State.orReg_kept)
    )

theorem hirqClear_kept {ρ : State} {s : State} {v : Word} (hk : Kept ρ s) :
    Kept ρ (hirqClear s v) := by
  unfold hirqClear
  try dsimp only
  repeat' (first
    | with_reducible assumption
    | with_reducible apply plainAt_kept
    )

theorem hstWrite_kept {ρ : State} {s : State} {addr : ℕ} {v : Word} (hk : Kept ρ s) :
    Kept ρ (hstWrite s addr v) := by
  unfold hstWrite
  try dsimp only
  repeat' (first
    | with_reducible assumption
    | with_reducible apply ringDoorbell_kept
    | with_reducible apply hirqClear_kept
    | with_reducible apply hirqSet_kept
    | with_reducible apply plainAt_kept
    | with_reducible refine Kept.fst (by assumption) ?_
    | split
    )

theorem bootGoes_kept {ρ : State} {s : State} (hk : Kept ρ s) :
    Kept ρ (bootGoes s) := by
  unfold bootGoes
  try dsimp only
  repeat' (first
    | with_reducible assumption
    | with_reducible refine Kept.fst (by assumption) ?_
    | (unfold Kept Inv; dsimp only; refine (show Kept _ _ from ?_); with_reducible assumption)
    | split
    )

theorem bootWrite_kept {ρ : State} {s : State} {addr : ℕ} {v : Word} (hk : Kept ρ s) :
    Kept ρ (bootWrite s addr v) := by
  unfold bootWrite
  try dsimp only
  repeat' (first
    | with_reducible assumption
    | with_reducible apply bootGoes_kept
    | with_reducible apply plainAt_kept
    | with_reducible refine Kept.fst (by assumption) ?_
    | split
    )

theorem gclkWrite_kept {ρ : State} {s : State} {addr : ℕ} {v : Word} (hk : Kept ρ s) :
    Kept ρ (gclkWrite s addr v) := by
  unfold gclkWrite
  try dsimp only
  repeat' (first
    | with_reducible assumption
    | with_reducible apply grstWrite_kept
    | with_reducible apply wdogWrite_kept
    | with_reducible apply kickWrite_kept
    | with_reducible apply plainAt_kept
    | with_reducible refine Kept.fst (by assumption) ?_
    | split
    )

theorem globalWrite_kept {ρ : State} {s : State} {addr : ℕ} {v : Word} (hk : Kept ρ s) :
    Kept ρ (globalWrite s addr v) := by
  unfold globalWrite
  try dsimp only
  repeat' (first
    | with_reducible assumption
    | with_reducible apply qchWrite_kept
    | with_reducible apply tuyWrite_kept
    | with_reducible apply hstWrite_kept
    | with_reducible apply bootWrite_kept
    | with_reducible apply gclkWrite_kept
    | with_reducible apply powerAsk_kept
    | with_reducible apply plainAt_kept
    | with_reducible refine Kept.fst (by assumption) ?_
    | split
    )

theorem coreWrite_kept {ρ : State} {s : State} {who : Who} {addr : ℕ} {v : Word} (hk : Kept ρ s) :
    Kept ρ (coreWrite s who addr v) := by
  unfold coreWrite
  try dsimp only
  repeat' (first
    | with_reducible assumption
    | with_reducible apply billetWrite_kept
    | with_reducible apply aliasWrite_kept
    | with_reducible apply globalWrite_kept
    | with_reducible refine Kept.fst (by assumption) ?_
    | split
    )

theorem stampRead_kept {ρ : State} {s : State} {who : Who} {b : ℕ} {p : ℕ} {o : ℕ} (hk : Kept ρ s) :
    Kept ρ (stampRead s who b p o).1 := by
  unfold stampRead
  try dsimp only
  repeat' (first
    | with_reducible assumption
    | with_reducible apply stampLatch_kept
    | with_reducible refine Kept.fst (by assumption) ?_
    | split
    )

theorem belRead_kept {ρ : State} {s : State} {who : Who} {b : ℕ} {off : ℕ} (hk : Kept ρ s) :
    Kept ρ (belRead s who b off).1 := by
  unfold belRead
  try dsimp only
  repeat' (first
    | with_reducible assumption
    | with_reducible apply stampRead_kept
    | with_reducible refine Kept.fst (by assumption) ?_
    | split
    )

theorem hmrRead_kept {ρ : State} {s : State} {who : Who} {b : ℕ} {off : ℕ} (hk : Kept ρ s) :
    Kept ρ (hmrRead s who b off).1 := by
  unfold hmrRead
  try dsimp only
  repeat' (first
    | with_reducible assumption
    | with_reducible apply pmAccess_kept
    | with_reducible apply dmAccess_kept
    | with_reducible apply dbgAccess_kept
    | with_reducible refine Kept.fst (by assumption) ?_
    | split
    )

theorem latchedRead_kept {ρ : State} {s : State} {who : Who} {b : ℕ} {off : ℕ} (hk : Kept ρ s) :
    Kept ρ (latchedRead s who b off).1 := by
  unfold latchedRead
  try dsimp only
  repeat' (with_reducible assumption)

theorem timRead_kept {ρ : State} {s : State} {who : Who} {b : ℕ} {off : ℕ} (hk : Kept ρ s) :
    Kept ρ (timRead s who b off).1 := by
  unfold timRead
  try dsimp only
  repeat' (first
    | with_reducible assumption
    | with_reducible apply tickLatch_kept
    | with_reducible apply latchedRead_kept
    | with_reducible apply capLatch_kept
    | with_reducible refine Kept.fst (by assumption) ?_
    | split
    )

theorem talRead_kept {ρ : State} {s : State} {who : Who} {b : ℕ} {off : ℕ} (hk : Kept ρ s) :
    Kept ρ (talRead s who b off).1 := by
  unfold talRead
  try dsimp only
  repeat' (first
    | with_reducible assumption
    | with_reducible apply tallyLatch_kept
    | with_reducible apply latchedRead_kept
    | with_reducible refine Kept.fst (by assumption) ?_
    | split
    )

theorem liveRead_kept {ρ : State} {s : State} {b : ℕ} {off : ℕ} (hk : Kept ρ s) :
    Kept ρ (liveRead s b off).1 := by
  unfold liveRead
  try dsimp only
  repeat' (first
    | with_reducible assumption
    | with_reducible apply pixelsLeave_kept
    )

theorem billetRead_kept {ρ : State} {s : State} {who : Who} {b : ℕ} {off : ℕ} (hk : Kept ρ s) :
    Kept ρ (billetRead s who b off).1 := by
  unfold billetRead
  try dsimp only
  repeat' (first
    | with_reducible assumption
    | with_reducible apply heldAccess_kept
    | with_reducible apply belRead_kept
    | with_reducible apply strikeData_kept
    | with_reducible apply liveRead_kept
    | with_reducible apply hmrRead_kept
    | with_reducible apply timRead_kept
    | with_reducible apply talRead_kept
    | with_reducible refine Kept.fst (by assumption) ?_
    | split
    )

theorem globalRead_kept {ρ : State} {s : State} {who : Who} {addr : ℕ} (hk : Kept ρ s) :
    Kept ρ (globalRead s who addr).1 := by
  unfold globalRead
  try dsimp only
  repeat' (first
    | with_reducible assumption
    | with_reducible apply tuyFrameRead_kept
    | with_reducible apply progAccess_kept
    | with_reducible apply paramAccess_kept
    | with_reducible apply gminRead_kept
    | with_reducible apply peakRead_kept
    | with_reducible refine Kept.fst (by assumption) ?_
    | split
    )

theorem coreRead_kept {ρ : State} {s : State} {who : Who} {addr : ℕ} (hk : Kept ρ s) :
    Kept ρ (coreRead s who addr).1 := by
  unfold coreRead
  try dsimp only
  repeat' (first
    | with_reducible assumption
    | with_reducible apply billetRead_kept
    | with_reducible apply globalRead_kept
    | with_reducible refine Kept.fst (by assumption) ?_
    | split
    )

end Sys2Proof.Machine
end

