-- ==== Sys2Proof/Laws/KeptHostPort.lean ====
section
/-! SUPPORT. What the operations of Machine/HostPort.lean keep. -/

namespace Sys2Proof.Machine

theorem State.setDport_kept {ρ : State} {s : State} {k : ℕ} {x : DPort} (hk : Kept ρ s) :
    Kept ρ (State.setDport s k x) := by
  unfold State.setDport
  try dsimp only
  repeat' (first
    | with_reducible assumption
    | with_reducible refine Kept.fst (by assumption) ?_
    | (unfold Kept Inv; dsimp only; refine (show Kept _ _ from ?_); with_reducible assumption)
    )

theorem setHost_kept {ρ : State} {s : State} {x : HostPort} (hk : Kept ρ s) :
    Kept ρ (setHost s x) := by
  unfold setHost
  try dsimp only
  repeat' (first
    | with_reducible assumption
    | with_reducible refine Kept.fst (by assumption) ?_
    | (unfold Kept Inv; dsimp only; refine (show Kept _ _ from ?_); with_reducible assumption)
    )

theorem dpErr_kept {ρ : State} {s : State} {k : ℕ} {i : ℕ} (hk : Kept ρ s) :
    Kept ρ (dpErr s k i) := by
  unfold dpErr
  try dsimp only
  repeat' (first
    | with_reducible assumption
    | with_reducible apply State.orReg_kept
    )

theorem dpAdvance_kept {ρ : State} {s : State} {k : ℕ} (hk : Kept ρ s) :
    Kept ρ (dpAdvance s k) := by
  unfold dpAdvance
  try dsimp only
  repeat' (first
    | with_reducible assumption
    | with_reducible apply State.addReg_kept
    | with_reducible apply State.setDport_kept
    | with_reducible apply State.setReg_kept
    )

theorem dpStore_kept {ρ : State} {s : State} {k : ℕ} {ctl : Word} {a : ℕ} {v : Word} (hk : Kept ρ s) :
    Kept ρ (dpStore s k ctl a v) := by
  unfold dpStore
  try dsimp only
  repeat' (first
    | with_reducible assumption
    | with_reducible apply memStore_kept
    | with_reducible apply dpErr_kept
    | with_reducible apply State.hwrite_kept
    | with_reducible apply coreWrite_kept
    | with_reducible refine Kept.fst (by assumption) ?_
    | split
    )

theorem dpLoad_kept {ρ : State} {s : State} {k : ℕ} {ctl : Word} {a : ℕ} (hk : Kept ρ s) :
    Kept ρ (dpLoad s k ctl a).1 := by
  unfold dpLoad
  try dsimp only
  repeat' (first
    | with_reducible assumption
    | with_reducible apply memRead_kept
    | with_reducible apply dpErr_kept
    | with_reducible apply coreRead_kept
    | with_reducible refine Kept.fst (by assumption) ?_
    | split
    )

theorem dropPrefetch_kept {ρ : State} {s : State} (hk : Kept ρ s) :
    Kept ρ (dropPrefetch s) := by
  unfold dropPrefetch
  try dsimp only
  repeat' (first
    | with_reducible assumption
    | with_reducible apply State.setDport_kept
    | with_reducible apply Kept.foldl
    | with_reducible apply Kept.foldlFst
    | with_reducible refine Kept.fst (by assumption) ?_
    | split
    | intro _
    )

theorem acceptPosted_kept {ρ : State} {s : State} {e : Posted} (hk : Kept ρ s) :
    Kept ρ (acceptPosted s e) := by
  unfold acceptPosted
  try dsimp only
  repeat' (first
    | with_reducible assumption
    | with_reducible apply dropPrefetch_kept
    | with_reducible apply dpStore_kept
    | with_reducible apply coreWrite_kept
    | with_reducible refine Kept.fst (by assumption) ?_
    | split
    )

theorem hostDrain_kept {ρ : State} {p : Posted → Bool} {x1 : ℕ} {x2 : State} (hk : Kept ρ x2) :
    Kept ρ (hostDrain p x1 x2) := by
  induction x1 generalizing p x2 with
  | zero =>
    unfold hostDrain
    try dsimp only
    repeat' (with_reducible assumption)
  | succ m ih =>
    unfold hostDrain
    try dsimp only
    repeat' (first
      | with_reducible assumption
      | with_reducible apply acceptPosted_kept
      | with_reducible apply setHost_kept
      | with_reducible apply ih
      | with_reducible refine Kept.fst (by assumption) ?_
      | split
      )

theorem drainAll_kept {ρ : State} {s : State} (hk : Kept ρ s) :
    Kept ρ (drainAll s) := by
  unfold drainAll
  try dsimp only
  repeat' (first
    | with_reducible assumption
    | with_reducible apply hostDrain_kept
    )

theorem post_kept {ρ : State} {s : State} {e : Posted} (hk : Kept ρ s) :
    Kept ρ (post s e) := by
  unfold post
  try dsimp only
  repeat' (first
    | with_reducible assumption
    | with_reducible apply setHost_kept
    )

theorem dpMakeRoom_kept {ρ : State} {s : State} {k : ℕ} (hk : Kept ρ s) :
    Kept ρ (dpMakeRoom s k) := by
  unfold dpMakeRoom
  try dsimp only
  repeat' (first
    | with_reducible assumption
    | with_reducible apply hostDrain_kept
    )

theorem dpPost_kept {ρ : State} {s : State} {k : ℕ} {v : Word} (hk : Kept ρ s) :
    Kept ρ (dpPost s k v) := by
  unfold dpPost
  try dsimp only
  repeat' (first
    | with_reducible assumption
    | with_reducible apply dpMakeRoom_kept
    | with_reducible apply dpAdvance_kept
    | with_reducible apply post_kept
    | with_reducible refine Kept.fst (by assumption) ?_
    | split
    )

theorem dpRead_kept {ρ : State} {s : State} {k : ℕ} (hk : Kept ρ s) :
    Kept ρ (dpRead s k).1 := by
  unfold dpRead
  try dsimp only
  repeat' (first
    | with_reducible assumption
    | with_reducible apply dpAdvance_kept
    | with_reducible apply State.setDport_kept
    | with_reducible apply dpLoad_kept
    | with_reducible refine Kept.fst (by assumption) ?_
    | split
    )

theorem dpDiscard_kept {ρ : State} {s : State} {k : ℕ} (hk : Kept ρ s) :
    Kept ρ (dpDiscard s k) := by
  unfold dpDiscard
  try dsimp only
  repeat' (first
    | with_reducible assumption
    | with_reducible apply State.setDport_kept
    )

theorem dpAddr_kept {ρ : State} {s : State} {k : ℕ} {v : Word} (hk : Kept ρ s) :
    Kept ρ (dpAddr s k v) := by
  unfold dpAddr
  try dsimp only
  repeat' (first
    | with_reducible assumption
    | with_reducible apply State.setDport_kept
    | with_reducible apply State.setReg_kept
    )

theorem dpWrite_kept {ρ : State} {s : State} {addr : ℕ} {v : Word} (hk : Kept ρ s) :
    Kept ρ (dpWrite s addr v) := by
  unfold dpWrite
  try dsimp only
  repeat' (first
    | with_reducible assumption
    | with_reducible apply dpAddr_kept
    | with_reducible apply dpPost_kept
    | with_reducible apply dpDiscard_kept
    | with_reducible apply fieldsAt_kept
    | with_reducible apply plainAt_kept
    | with_reducible refine Kept.fst (by assumption) ?_
    | split
    )

theorem dpRegRead_kept {ρ s : State} {addr : Nat} (hk : Kept ρ s) : Kept ρ (dpRegRead s addr).1 := by
  rw [dpRegRead]
  generalize (addr - 0x820000) / 0x40 = k
  split
  · exact hk
  · split
    · exact dpRead_kept hk
    · split
      · exact hk
      · exact hk

theorem busWrite_kept {ρ : State} {s : State} {who : Who} {addr : ℕ} {v : Word} (hk : Kept ρ s) :
    Kept ρ (busWrite s who addr v) := by
  unfold busWrite
  try dsimp only
  repeat' (first
    | with_reducible assumption
    | with_reducible apply dpWrite_kept
    | with_reducible apply dpPost_kept
    | with_reducible apply coreWrite_kept
    | with_reducible refine Kept.fst (by assumption) ?_
    | split
    )

theorem busRead_kept {ρ : State} {s : State} {who : Who} {addr : ℕ} (hk : Kept ρ s) :
    Kept ρ (busRead s who addr).1 := by
  unfold busRead
  try dsimp only
  repeat' (first
    | with_reducible assumption
    | with_reducible apply dpRegRead_kept
    | with_reducible apply dpRead_kept
    | with_reducible apply coreRead_kept
    | with_reducible refine Kept.fst (by assumption) ?_
    | split
    )

theorem hostWrite_kept {ρ : State} {s : State} {addr : ℕ} {v : Word} (hk : Kept ρ s) :
    Kept ρ (hostWrite s addr v) := by
  unfold hostWrite
  try dsimp only
  repeat' (first
    | with_reducible assumption
    | with_reducible apply dropPrefetch_kept
    | with_reducible apply dpWrite_kept
    | with_reducible apply busWrite_kept
    | with_reducible apply drainAll_kept
    | with_reducible apply post_kept
    | with_reducible refine Kept.fst (by assumption) ?_
    | split
    )

theorem hostRead_kept {ρ : State} {s : State} {addr : ℕ} (hk : Kept ρ s) :
    Kept ρ (hostRead s addr).1 := by
  unfold hostRead
  try dsimp only
  repeat' (first
    | with_reducible assumption
    | with_reducible apply drainAll_kept
    | with_reducible apply busRead_kept
    | with_reducible refine Kept.fst (by assumption) ?_
    | split
    )

theorem anyWrite_kept {ρ : State} {s : State} {who : Who} {addr : ℕ} {v : Word} (hk : Kept ρ s) :
    Kept ρ (anyWrite s who addr v) := by
  unfold anyWrite
  try dsimp only
  repeat' (first
    | with_reducible assumption
    | with_reducible apply hostWrite_kept
    | with_reducible apply busWrite_kept
    | with_reducible refine Kept.fst (by assumption) ?_
    | split
    )

theorem hostReads_kept {ρ : State} {s : State} {x1 : List ℕ} (hk : Kept ρ s) :
    Kept ρ (hostReads s x1).1 := by
  induction x1 generalizing s with
  | nil =>
    unfold hostReads
    try dsimp only
    repeat' (with_reducible assumption)
  | cons e l ih =>
    unfold hostReads
    try dsimp only
    repeat' (first
      | with_reducible assumption
      | with_reducible apply hostRead_kept
      | with_reducible apply ih
      | with_reducible refine Kept.fst (by assumption) ?_
      | split
      )

theorem hostComplete_kept {ρ : State} {r : State × List Word} (hk : Kept ρ r.1) :
    Kept ρ (hostComplete r) := by
  unfold hostComplete
  try dsimp only
  repeat' (first
    | with_reducible assumption
    | with_reducible apply setHost_kept
    )

theorem readStart_kept {ρ : State} {s : State} {l : List ℕ} (hk : Kept ρ s) :
    Kept ρ (readStart s l) := by
  unfold readStart
  try dsimp only
  repeat' (first
    | with_reducible assumption
    | with_reducible apply hostReads_kept
    | with_reducible apply setHost_kept
    | with_reducible refine Kept.fst (by assumption) ?_
    | split
    )

theorem readsGo_kept {ρ : State} {s : State} (hk : Kept ρ s) :
    Kept ρ (readsGo s) := by
  unfold readsGo
  try dsimp only
  repeat' (first
    | with_reducible assumption
    | with_reducible apply hostReads_kept
    | with_reducible apply setHost_kept
    | with_reducible refine Kept.fst (by assumption) ?_
    | split
    )

theorem partDword_kept {ρ : State} {s : State} {addr : ℕ} (hk : Kept ρ s) :
    Kept ρ (partDword s addr) := by
  unfold partDword
  try dsimp only
  repeat' (first
    | with_reducible assumption
    | with_reducible apply dpAdvance_kept
    | with_reducible apply hostErr_kept
    )

theorem memoryWrite_kept {ρ s : State} {addr n : Nat} {d : List Byte} (hk : Kept ρ s) :
    Kept ρ (memoryWrite s addr n d) := by
  induction n generalizing s addr d with
  | zero => exact hk
  | succ m ih =>
    cases d with
    | nil => exact hk
    | cons e l =>
      unfold memoryWrite
      dsimp only
      refine ih (ite_kept (hostWrite_kept hk) (ite_kept (partDword_kept hk) (hostErr_kept hk)))

theorem pcieWrite_kept {ρ : State} {s : State} {addr : ℕ} {d : List Byte} (hk : Kept ρ s) :
    Kept ρ (pcieWrite s addr d) := by
  unfold pcieWrite
  try dsimp only
  repeat' (first
    | with_reducible assumption
    | with_reducible apply memoryWrite_kept
    | with_reducible refine Kept.fst (by assumption) ?_
    | split
    )

theorem pcieRead_kept {ρ : State} {s : State} {addr : ℕ} {n : ℕ} (hk : Kept ρ s) :
    Kept ρ (pcieRead s addr n) := by
  unfold pcieRead
  try dsimp only
  repeat' (first
    | with_reducible assumption
    | with_reducible apply readStart_kept
    | with_reducible refine Kept.fst (by assumption) ?_
    | split
    )

theorem spiErr_kept {ρ : State} {s : State} (hk : Kept ρ s) :
    Kept ρ (spiErr s) := by
  unfold spiErr
  try dsimp only
  repeat' (first
    | with_reducible assumption
    | with_reducible apply State.orReg_kept
    )

theorem spiWrites_kept {ρ : State} {s : State} {addr : ℕ} {i : ℕ} {x3 : ℕ} {x4 : List Byte} (hk : Kept ρ s) :
    Kept ρ (spiWrites s addr i x3 x4) := by
  induction x3 generalizing s addr i x4 with
  | zero =>
    unfold spiWrites
    try dsimp only
    repeat' (with_reducible assumption)
  | succ m ih =>
    unfold spiWrites
    try dsimp only
    repeat' (first
      | with_reducible assumption
      | with_reducible apply hostErr_kept
      | with_reducible apply hostWrite_kept
      | with_reducible apply spiErr_kept
      | with_reducible apply ih
      | with_reducible refine Kept.fst (by assumption) ?_
      | split
      )

theorem readsEnd_kept {ρ : State} {s : State} (hk : Kept ρ s) :
    Kept ρ (readsEnd s) := by
  unfold readsEnd
  try dsimp only
  repeat' (first
    | with_reducible assumption
    | with_reducible apply dpAdvance_kept
    | with_reducible apply dpErr_kept
    | with_reducible apply hostErr_kept
    | with_reducible apply setHost_kept
    | with_reducible apply Kept.foldl
    | with_reducible apply Kept.foldlFst
    | with_reducible refine Kept.fst (by assumption) ?_
    | split
    | intro _
    )

theorem hostMiss_kept {ρ : State} {s : State} (hk : Kept ρ s) :
    Kept ρ (hostMiss s) := by
  unfold hostMiss
  try dsimp only
  repeat' (first
    | with_reducible assumption
    | with_reducible apply setHost_kept
    | with_reducible apply readsGo_kept
    | with_reducible apply hostDrain_kept
    | with_reducible apply dpErr_kept
    | with_reducible apply hostErr_kept
    | with_reducible apply readsEnd_kept
    | with_reducible refine Kept.fst (by assumption) ?_
    | split
    )

theorem hostOverdue_kept {ρ : State} {s : State} (hk : Kept ρ s) :
    Kept ρ (hostOverdue s) := by
  unfold hostOverdue
  try dsimp only
  repeat' (first
    | with_reducible assumption
    | with_reducible apply hostMiss_kept
    | with_reducible apply Kept.foldl
    | with_reducible apply Kept.foldlFst
    | with_reducible refine Kept.fst (by assumption) ?_
    | split
    | intro _
    )

theorem hostFrame_kept {ρ : State} {s : State} (hk : Kept ρ s) :
    Kept ρ (hostFrame s) := by
  unfold hostFrame
  try dsimp only
  repeat' (first
    | with_reducible assumption
    | with_reducible apply setHost_kept
    )

theorem dpPrefetch_kept {ρ : State} {s : State} {k : ℕ} (hk : Kept ρ s) :
    Kept ρ (dpPrefetch s k) := by
  unfold dpPrefetch
  try dsimp only
  repeat' (first
    | with_reducible assumption
    | with_reducible apply memRead_kept
    | with_reducible apply State.setDport_kept
    | with_reducible apply Kept.foldl
    | with_reducible apply Kept.foldlFst
    | with_reducible refine Kept.fst (by assumption) ?_
    | split
    )

theorem hostReset_kept {ρ : State} {s : State} (hk : Kept ρ s) :
    Kept ρ (hostReset s) := by
  unfold hostReset
  try dsimp only
  repeat' (first
    | with_reducible assumption
    | with_reducible apply State.setLive_kept
    | with_reducible apply setSingle_kept
    | with_reducible apply setHeld_kept
    | with_reducible apply State.clrReg_kept
    | with_reducible apply State.orReg_kept
    | with_reducible refine Kept.fst (by assumption) ?_
    | (unfold Kept Inv; dsimp only; refine (show Kept _ _ from ?_); with_reducible apply setSingle_kept)
    | split
    )

theorem linkChange_kept {ρ : State} {s : State} {up : Bool} {width : ℕ} {speed : ℕ} (hk : Kept ρ s) :
    Kept ρ (linkChange s up width speed) := by
  unfold linkChange
  try dsimp only
  repeat' (first
    | with_reducible assumption
    | with_reducible apply State.setReg_kept
    )

theorem cfgRead_kept {ρ : State} {s : State} {reg : ℕ} (hk : Kept ρ s) :
    Kept ρ (cfgRead s reg).1 := by
  unfold cfgRead
  try dsimp only
  repeat' (first
    | with_reducible assumption
    | with_reducible apply State.nextFree_kept
    | with_reducible refine Kept.fst (by assumption) ?_
    | split
    )

theorem cfgAccess_kept {ρ : State} {s : State} {reg : ℕ} {w : Option Word} (hk : Kept ρ s) :
    Kept ρ (cfgAccess s reg w) := by
  unfold cfgAccess
  try dsimp only
  repeat' (first
    | with_reducible assumption
    | with_reducible apply setHost_kept
    | with_reducible apply hostComplete_kept
    | with_reducible apply cfgRead_kept
    | with_reducible refine Kept.fst (by assumption) ?_
    | split
    )

end Sys2Proof.Machine
end

