-- ==== Sys2Proof/Laws/KeptHammerAccess.lean ====
section
/-! SUPPORT. What the operations of Machine/HammerAccess.lean keep. -/

namespace Sys2Proof.Machine

theorem setPc_kept {ρ : State} {s : State} {b : ℕ} {h : ℕ} {pc : ℕ} (hk : Kept ρ s) :
    Kept ρ (setPc s b h pc) := by
  unfold setPc
  try dsimp only
  repeat' (first
    | with_reducible assumption
    | with_reducible apply State.setHammer_kept
    )

theorem setG_kept {ρ : State} {s : State} {b : ℕ} {h : ℕ} {g : ℕ} {v : HWord} (hk : Kept ρ s) :
    Kept ρ (setG s b h g v) := by
  unfold setG
  try dsimp only
  repeat' (first
    | with_reducible assumption
    | with_reducible apply State.setHammer_kept
    )

theorem fluxSet_kept {ρ : State} {s : State} {b : ℕ} {n : ℕ} (hk : Kept ρ s) :
    Kept ρ (fluxSet s b n) := by
  unfold fluxSet
  try dsimp only
  repeat' (first
    | with_reducible assumption
    | with_reducible apply State.setBreg_kept
    )

theorem fluxCount_kept {ρ : State} {s : State} {b : ℕ} {off : ℕ} {evt : ℕ} (hk : Kept ρ s) :
    Kept ρ (fluxCount s b off evt) := by
  unfold fluxCount
  try dsimp only
  repeat' (first
    | with_reducible assumption
    | with_reducible apply State.orReg_kept
    | with_reducible apply State.addReg_kept
    )

theorem fluxTake_kept {ρ : State} {s : State} {b : ℕ} {t : Target} (hk : Kept ρ s) :
    Kept ρ (fluxTake s b t).state := by
  unfold fluxTake
  split
  · exact hk
  · split
    · exact fluxCount_kept hk
    · exact fluxSet_kept hk

theorem fluxFree_kept {ρ : State} {s : State} {b : ℕ} {t : Target} (hk : Kept ρ s) :
    Kept ρ (fluxFree s b t) := by
  unfold fluxFree
  split
  · exact fluxSet_kept hk
  · exact hk

theorem fluxFails_kept {ρ : State} {s : State} {b : ℕ} {t : Target} {miss : Bool} (hk : Kept ρ s) :
    Kept ρ (fluxFails s b t miss) := by
  unfold fluxFails
  split
  · exact hk
  · exact fluxFree_kept hk

theorem farWrite_kept {ρ : State} {s : State} {who : Who} {addr : ℕ} {i : ℕ} {op : BitOp} (hk : Kept ρ s) :
    Kept ρ (farWrite s who addr i op) := by
  unfold farWrite
  try dsimp only
  repeat' (first
    | with_reducible assumption
    | with_reducible apply commitWrite_kept
    | with_reducible apply immediateBits_kept
    | with_reducible apply pushLive_kept
    | with_reducible apply pkgAccept_kept
    | with_reducible apply busRead_kept
    | with_reducible apply busWrite_kept
    | with_reducible apply Kept.done
    | with_reducible apply Kept.stall
    | with_reducible apply Kept.trap
    | with_reducible apply hf
    | with_reducible refine Kept.issue (by assumption) ?_
    | with_reducible refine Kept.issueStall (by assumption) ?_
    | with_reducible refine Kept.issueTrap (by assumption) ?_
    | with_reducible refine Kept.read (by assumption) ?_
    | with_reducible refine Kept.readErr (by assumption) ?_
    | with_reducible refine Kept.readStop (by assumption) ?_
    | with_reducible apply Kept.val
    | with_reducible apply Kept.err
    | with_reducible apply Kept.stop
    | with_reducible refine Issue.andThen_kept ?_ ?_
    | with_reducible refine Kept.fst (by assumption) ?_
    | split
    )

theorem performStore_kept {ρ : State} {s : State} {b : ℕ} {h : ℕ} {x : PendStore} (hk : Kept ρ s) :
    Kept ρ (performStore s b h x) := by
  unfold performStore
  try dsimp only
  repeat' (first
    | with_reducible assumption
    | with_reducible apply State.hwrite_kept
    | with_reducible apply busWrite_kept
    | with_reducible apply farWrite_kept
    | with_reducible apply Kept.done
    | with_reducible apply Kept.stall
    | with_reducible apply Kept.trap
    | with_reducible apply hf
    | with_reducible refine Kept.issue (by assumption) ?_
    | with_reducible refine Kept.issueStall (by assumption) ?_
    | with_reducible refine Kept.issueTrap (by assumption) ?_
    | with_reducible refine Kept.read (by assumption) ?_
    | with_reducible refine Kept.readErr (by assumption) ?_
    | with_reducible refine Kept.readStop (by assumption) ?_
    | with_reducible apply Kept.val
    | with_reducible apply Kept.err
    | with_reducible apply Kept.stop
    | with_reducible refine Issue.andThen_kept ?_ ?_
    | with_reducible refine Kept.fst (by assumption) ?_
    | split
    )

theorem storeOut_kept {ρ : State} {s : State} {b : ℕ} {h : ℕ} {perform : Bool} (hk : Kept ρ s) :
    Kept ρ (storeOut s b h perform) := by
  unfold storeOut
  try dsimp only
  repeat' (first
    | with_reducible assumption
    | with_reducible apply State.setHammer_kept
    | with_reducible apply performStore_kept
    | with_reducible apply Kept.done
    | with_reducible apply Kept.stall
    | with_reducible apply Kept.trap
    | with_reducible apply hf
    | with_reducible refine Kept.issue (by assumption) ?_
    | with_reducible refine Kept.issueStall (by assumption) ?_
    | with_reducible refine Kept.issueTrap (by assumption) ?_
    | with_reducible refine Kept.read (by assumption) ?_
    | with_reducible refine Kept.readErr (by assumption) ?_
    | with_reducible refine Kept.readStop (by assumption) ?_
    | with_reducible apply Kept.val
    | with_reducible apply Kept.err
    | with_reducible apply Kept.stop
    | with_reducible refine Issue.andThen_kept ?_ ?_
    | with_reducible refine Kept.fst (by assumption) ?_
    | split
    )

theorem storeLands_kept {ρ : State} {s : State} {b : ℕ} {h : ℕ} (hk : Kept ρ s) :
    Kept ρ (storeLands s b h) := by
  unfold storeLands
  split
  · exact hk
  · exact fluxFree_kept (storeOut_kept hk)

theorem settleStores_kept {ρ : State} {x0 : ℕ} {x1 : State} {x2 : ℕ} {x3 : ℕ} (hk : Kept ρ x1) :
    Kept ρ (settleStores x0 x1 x2 x3) := by
  induction x0 generalizing x1 x2 x3 with
  | zero =>
    unfold settleStores
    try dsimp only
    repeat' (with_reducible assumption)
  | succ m ih =>
    unfold settleStores
    try dsimp only
    repeat' (first
      | with_reducible assumption
      | with_reducible apply storeLands_kept
      | with_reducible apply storeOut_kept
      | with_reducible apply Kept.done
      | with_reducible apply Kept.stall
      | with_reducible apply Kept.trap
      | with_reducible apply hf
      | with_reducible refine Kept.issue (by assumption) ?_
      | with_reducible refine Kept.issueStall (by assumption) ?_
      | with_reducible refine Kept.issueTrap (by assumption) ?_
      | with_reducible refine Kept.read (by assumption) ?_
      | with_reducible refine Kept.readErr (by assumption) ?_
      | with_reducible refine Kept.readStop (by assumption) ?_
      | with_reducible apply Kept.val
      | with_reducible apply Kept.err
      | with_reducible apply Kept.stop
      | with_reducible refine Issue.andThen_kept ?_ ?_
      | with_reducible apply ih
      | with_reducible refine Kept.fst (by assumption) ?_
      | split
      )

theorem afterStores_kept {ρ : State} {s : State} {b : ℕ} {h : ℕ} (hk : Kept ρ s) :
    Kept ρ (afterStores s b h).state := by
  unfold afterStores
  try dsimp only
  repeat' (first
    | with_reducible assumption
    | with_reducible apply settleStores_kept
    | with_reducible apply Kept.done
    | with_reducible apply Kept.stall
    | with_reducible apply Kept.trap
    | with_reducible apply hf
    | with_reducible refine Kept.issue (by assumption) ?_
    | with_reducible refine Kept.issueStall (by assumption) ?_
    | with_reducible refine Kept.issueTrap (by assumption) ?_
    | with_reducible refine Kept.read (by assumption) ?_
    | with_reducible refine Kept.readErr (by assumption) ?_
    | with_reducible refine Kept.readStop (by assumption) ?_
    | with_reducible apply Kept.val
    | with_reducible apply Kept.err
    | with_reducible apply Kept.stop
    | with_reducible refine Issue.andThen_kept ?_ ?_
    | with_reducible refine Kept.fst (by assumption) ?_
    | split
    )

theorem busTrap_kept {ρ : State} {s : State} {b : ℕ} {h : ℕ} {pc : ℕ} {undo : Option (ℕ × HWord)} (hk : Kept ρ s) :
    Kept ρ (busTrap s b h pc undo) := by
  unfold busTrap
  try dsimp only
  repeat' (first
    | with_reducible assumption
    | with_reducible apply trapEnter_kept
    | with_reducible apply State.setHammer_kept
    | with_reducible apply Kept.done
    | with_reducible apply Kept.stall
    | with_reducible apply Kept.trap
    | with_reducible apply hf
    | with_reducible refine Kept.issue (by assumption) ?_
    | with_reducible refine Kept.issueStall (by assumption) ?_
    | with_reducible refine Kept.issueTrap (by assumption) ?_
    | with_reducible refine Kept.read (by assumption) ?_
    | with_reducible refine Kept.readErr (by assumption) ?_
    | with_reducible refine Kept.readStop (by assumption) ?_
    | with_reducible apply Kept.val
    | with_reducible apply Kept.err
    | with_reducible apply Kept.stop
    | with_reducible refine Issue.andThen_kept ?_ ?_
    | with_reducible refine Kept.fst (by assumption) ?_
    | split
    )

theorem accessTrap_kept {ρ : State} {s : State} {b : ℕ} {h : ℕ} {pc : ℕ} {undo : Option (ℕ × HWord)} (hk : Kept ρ s) :
    Kept ρ (accessTrap s b h pc undo).state := by
  unfold accessTrap
  try dsimp only
  repeat' (first
    | with_reducible assumption
    | with_reducible apply State.setHammer_kept
    | with_reducible apply busTrap_kept
    | with_reducible apply Kept.done
    | with_reducible apply Kept.stall
    | with_reducible apply Kept.trap
    | with_reducible apply hf
    | with_reducible refine Kept.issue (by assumption) ?_
    | with_reducible refine Kept.issueStall (by assumption) ?_
    | with_reducible refine Kept.issueTrap (by assumption) ?_
    | with_reducible refine Kept.read (by assumption) ?_
    | with_reducible refine Kept.readErr (by assumption) ?_
    | with_reducible refine Kept.readStop (by assumption) ?_
    | with_reducible apply Kept.val
    | with_reducible apply Kept.err
    | with_reducible apply Kept.stop
    | with_reducible refine Issue.andThen_kept ?_ ?_
    | with_reducible refine Kept.fst (by assumption) ?_
    | split
    )

theorem busErr_kept {ρ : State} {s : State} {b : ℕ} {h : ℕ} {pc : ℕ} {undo : optParam (Option (ℕ × HWord)) none} (hk : Kept ρ s) :
    Kept ρ (busErr s b h pc undo).state := by
  unfold busErr
  try dsimp only
  repeat' (first
    | with_reducible assumption
    | with_reducible apply accessTrap_kept
    | with_reducible apply setStat_kept
    )

theorem accessMiss_kept {ρ : State} {s : State} {b : ℕ} {h : ℕ} {pc : ℕ} {undo : optParam (Option (ℕ × HWord)) none} (hk : Kept ρ s) :
    Kept ρ (accessMiss s b h pc undo).state := by
  unfold accessMiss
  try dsimp only
  repeat' (first
    | with_reducible assumption
    | with_reducible apply accessTrap_kept
    | with_reducible apply raiseDlMiss_kept
    )

theorem failsNow_kept {ρ : State} {s : State} {b : ℕ} {h : ℕ} {t : Target} {write : Bool} (hk : Kept ρ s) :
    Kept ρ (failsNow s b h t write).1 := by
  unfold failsNow
  try dsimp only
  repeat' (first
    | with_reducible assumption
    | with_reducible apply State.setHammer_kept
    | with_reducible apply Kept.done
    | with_reducible apply Kept.stall
    | with_reducible apply Kept.trap
    | with_reducible apply hf
    | with_reducible refine Kept.issue (by assumption) ?_
    | with_reducible refine Kept.issueStall (by assumption) ?_
    | with_reducible refine Kept.issueTrap (by assumption) ?_
    | with_reducible refine Kept.read (by assumption) ?_
    | with_reducible refine Kept.readErr (by assumption) ?_
    | with_reducible refine Kept.readStop (by assumption) ?_
    | with_reducible apply Kept.val
    | with_reducible apply Kept.err
    | with_reducible apply Kept.stop
    | with_reducible refine Issue.andThen_kept ?_ ?_
    | with_reducible refine Kept.fst (by assumption) ?_
    | split
    )

theorem accessFails_kept {ρ : State} {s : State} {b : ℕ} {h : ℕ} {pc : ℕ} {undo : Option (ℕ × HWord)} {t : Target} {write : Bool} {miss : Bool} (hk : Kept ρ s) :
    Kept ρ (accessFails s b h pc undo t write miss).state := by
  unfold accessFails
  try dsimp only
  repeat' (first
    | with_reducible assumption
    | with_reducible apply accessMiss_kept
    | with_reducible apply busErr_kept
    | with_reducible apply State.hspoil_kept
    | with_reducible apply Kept.done
    | with_reducible apply Kept.stall
    | with_reducible apply Kept.trap
    | with_reducible apply hf
    | with_reducible refine Kept.issue (by assumption) ?_
    | with_reducible refine Kept.issueStall (by assumption) ?_
    | with_reducible refine Kept.issueTrap (by assumption) ?_
    | with_reducible refine Kept.read (by assumption) ?_
    | with_reducible refine Kept.readErr (by assumption) ?_
    | with_reducible refine Kept.readStop (by assumption) ?_
    | with_reducible apply Kept.val
    | with_reducible apply Kept.err
    | with_reducible apply Kept.stop
    | with_reducible refine Issue.andThen_kept ?_ ?_
    | with_reducible refine Kept.fst (by assumption) ?_
    | split
    )

theorem postStore_kept {ρ : State} {s : State} {b : ℕ} {h : ℕ} {t : PendStore} (hk : Kept ρ s) :
    Kept ρ (postStore s b h t).state := by
  unfold postStore
  try dsimp only
  repeat' (first
    | with_reducible assumption
    | with_reducible apply fluxTake_kept
    | with_reducible apply settleStores_kept
    | with_reducible apply State.setHammer_kept
    | with_reducible apply Kept.done
    | with_reducible apply Kept.stall
    | with_reducible apply Kept.trap
    | with_reducible apply hf
    | with_reducible refine Kept.issue (by assumption) ?_
    | with_reducible refine Kept.issueStall (by assumption) ?_
    | with_reducible refine Kept.issueTrap (by assumption) ?_
    | with_reducible refine Kept.read (by assumption) ?_
    | with_reducible refine Kept.readErr (by assumption) ?_
    | with_reducible refine Kept.readStop (by assumption) ?_
    | with_reducible apply Kept.val
    | with_reducible apply Kept.err
    | with_reducible apply Kept.stop
    | with_reducible refine Issue.andThen_kept ?_ ?_
    | with_reducible refine Kept.fst (by assumption) ?_
    | split
    | intro _
    )

theorem dropEven_kept {ρ : State} {s : State} {b : ℕ} {h : ℕ} (hk : Kept ρ s) :
    Kept ρ (dropEven s b h) := by
  unfold dropEven
  try dsimp only
  repeat' (first
    | with_reducible assumption
    | with_reducible apply State.setHammer_kept
    )

theorem setWriteHigh_kept {ρ : State} {s : State} {b : ℕ} {h : ℕ} {v : HWord} (hk : Kept ρ s) :
    Kept ρ (setWriteHigh s b h v) := by
  unfold setWriteHigh
  try dsimp only
  repeat' (first
    | with_reducible assumption
    | with_reducible apply State.setHammer_kept
    )

theorem coreStore_kept {ρ : State} {s : State} {b : ℕ} {h : ℕ} {o : ℕ} {w : Word} (hk : Kept ρ s) :
    Kept ρ (coreStore s b h o w).state := by
  unfold coreStore
  try dsimp only
  repeat' (first
    | with_reducible assumption
    | with_reducible apply Issue.andThen_kept
    | with_reducible apply afterStores_kept
    | with_reducible apply busWrite_kept
    | with_reducible apply Kept.done
    | with_reducible apply Kept.stall
    | with_reducible apply Kept.trap
    | with_reducible apply hf
    | with_reducible refine Kept.issue (by assumption) ?_
    | with_reducible refine Kept.issueStall (by assumption) ?_
    | with_reducible refine Kept.issueTrap (by assumption) ?_
    | with_reducible refine Kept.read (by assumption) ?_
    | with_reducible refine Kept.readErr (by assumption) ?_
    | with_reducible refine Kept.readStop (by assumption) ?_
    | with_reducible apply Kept.val
    | with_reducible apply Kept.err
    | with_reducible apply Kept.stop
    | with_reducible refine Issue.andThen_kept ?_ ?_
    | with_reducible refine Kept.fst (by assumption) ?_
    | split
    | intro _
    )

theorem storeWord_kept {ρ : State} {s : State} {b : ℕ} {h : ℕ} {pc : ℕ} {a : HWord} {v : HWord} {undo : optParam (Option (ℕ × HWord)) none} (hk : Kept ρ s) :
    Kept ρ (storeWord s b h pc a v undo).state := by
  unfold storeWord
  try dsimp only
  repeat' (first
    | with_reducible assumption
    | with_reducible apply setBankWord_kept
    | with_reducible apply postStore_kept
    | with_reducible apply busErr_kept
    | with_reducible apply dropEven_kept
    | with_reducible apply setWriteHigh_kept
    | with_reducible apply Issue.andThen_kept
    | with_reducible apply coreStore_kept
    | with_reducible apply Kept.done
    | with_reducible apply Kept.stall
    | with_reducible apply Kept.trap
    | with_reducible apply hf
    | with_reducible refine Kept.issue (by assumption) ?_
    | with_reducible refine Kept.issueStall (by assumption) ?_
    | with_reducible refine Kept.issueTrap (by assumption) ?_
    | with_reducible refine Kept.read (by assumption) ?_
    | with_reducible refine Kept.readErr (by assumption) ?_
    | with_reducible refine Kept.readStop (by assumption) ?_
    | with_reducible apply Kept.val
    | with_reducible apply Kept.err
    | with_reducible apply Kept.stop
    | with_reducible refine Issue.andThen_kept ?_ ?_
    | with_reducible refine Kept.fst (by assumption) ?_
    | split
    | intro _
    )

theorem deliver_kept {ρ : State} {s : State} {b : ℕ} {h : ℕ} {d : LoadDst} {v : HWord} {bitOf : ℕ → Bool} (hk : Kept ρ s) :
    Kept ρ (deliver s b h d v bitOf) := by
  unfold deliver
  try dsimp only
  repeat' (first
    | with_reducible assumption
    | with_reducible apply setG_kept
    | with_reducible apply Kept.done
    | with_reducible apply Kept.stall
    | with_reducible apply Kept.trap
    | with_reducible apply hf
    | with_reducible refine Kept.issue (by assumption) ?_
    | with_reducible refine Kept.issueStall (by assumption) ?_
    | with_reducible refine Kept.issueTrap (by assumption) ?_
    | with_reducible refine Kept.read (by assumption) ?_
    | with_reducible refine Kept.readErr (by assumption) ?_
    | with_reducible refine Kept.readStop (by assumption) ?_
    | with_reducible apply Kept.val
    | with_reducible apply Kept.err
    | with_reducible apply Kept.stop
    | with_reducible refine Issue.andThen_kept ?_ ?_
    | with_reducible refine Kept.fst (by assumption) ?_
    | split
    )

theorem oddRead_kept {ρ : State} {s : State} {who : Who} {a : ℕ} (hk : Kept ρ s) :
    Kept ρ (oddRead s who a).1 := by
  unfold oddRead
  try dsimp only
  repeat' (first
    | with_reducible assumption
    | with_reducible apply busRead_kept
    | with_reducible apply Kept.done
    | with_reducible apply Kept.stall
    | with_reducible apply Kept.trap
    | with_reducible apply hf
    | with_reducible refine Kept.issue (by assumption) ?_
    | with_reducible refine Kept.issueStall (by assumption) ?_
    | with_reducible refine Kept.issueTrap (by assumption) ?_
    | with_reducible refine Kept.read (by assumption) ?_
    | with_reducible refine Kept.readErr (by assumption) ?_
    | with_reducible refine Kept.readStop (by assumption) ?_
    | with_reducible apply Kept.val
    | with_reducible apply Kept.err
    | with_reducible apply Kept.stop
    | with_reducible refine Issue.andThen_kept ?_ ?_
    | with_reducible refine Kept.fst (by assumption) ?_
    | split
    )

theorem performLoad_kept {ρ : State} {s : State} {b : ℕ} {h : ℕ} {x : PendLoad} (hk : Kept ρ s) :
    Kept ρ (performLoad s b h x).1 := by
  unfold performLoad
  try dsimp only
  repeat' (first
    | with_reducible assumption
    | with_reducible apply oddRead_kept
    | with_reducible apply busRead_kept
    | with_reducible apply State.setHammer_kept
    | with_reducible apply Kept.done
    | with_reducible apply Kept.stall
    | with_reducible apply Kept.trap
    | with_reducible apply hf
    | with_reducible refine Kept.issue (by assumption) ?_
    | with_reducible refine Kept.issueStall (by assumption) ?_
    | with_reducible refine Kept.issueTrap (by assumption) ?_
    | with_reducible refine Kept.read (by assumption) ?_
    | with_reducible refine Kept.readErr (by assumption) ?_
    | with_reducible refine Kept.readStop (by assumption) ?_
    | with_reducible apply Kept.val
    | with_reducible apply Kept.err
    | with_reducible apply Kept.stop
    | with_reducible refine Issue.andThen_kept ?_ ?_
    | with_reducible refine Kept.fst (by assumption) ?_
    | split
    )

theorem loadDone_kept {ρ : State} {s : State} {b : ℕ} {h : ℕ} {x : PendLoad} {w : Word} (hk : Kept ρ s) :
    Kept ρ (loadDone s b h x w) := by
  unfold loadDone
  try dsimp only
  repeat' (first
    | with_reducible assumption
    | with_reducible apply State.setHammer_kept
    | with_reducible apply deliver_kept
    )

theorem settleLoad_kept {ρ : State} {s : State} {b : ℕ} {h : ℕ} (hk : Kept ρ s) :
    Kept ρ (settleLoad s b h).state := by
  unfold settleLoad
  try dsimp only
  repeat' (first
    | with_reducible assumption
    | with_reducible apply fluxFree_kept
    | with_reducible apply busErr_kept
    | with_reducible apply loadDone_kept
    | with_reducible apply performLoad_kept
    | with_reducible apply Kept.done
    | with_reducible apply Kept.stall
    | with_reducible apply Kept.trap
    | with_reducible apply hf
    | with_reducible refine Kept.issue (by assumption) ?_
    | with_reducible refine Kept.issueStall (by assumption) ?_
    | with_reducible refine Kept.issueTrap (by assumption) ?_
    | with_reducible refine Kept.read (by assumption) ?_
    | with_reducible refine Kept.readErr (by assumption) ?_
    | with_reducible refine Kept.readStop (by assumption) ?_
    | with_reducible apply Kept.val
    | with_reducible apply Kept.err
    | with_reducible apply Kept.stop
    | with_reducible refine Issue.andThen_kept ?_ ?_
    | with_reducible refine Kept.fst (by assumption) ?_
    | split
    )

theorem settleFor_kept {ρ : State} {s : State} {b : ℕ} {h : ℕ} {regs : List ℕ} (hk : Kept ρ s) :
    Kept ρ (settleFor s b h regs).state := by
  unfold settleFor
  try dsimp only
  repeat' (first
    | with_reducible assumption
    | with_reducible apply settleLoad_kept
    | with_reducible apply Kept.done
    | with_reducible apply Kept.stall
    | with_reducible apply Kept.trap
    | with_reducible apply hf
    | with_reducible refine Kept.issue (by assumption) ?_
    | with_reducible refine Kept.issueStall (by assumption) ?_
    | with_reducible refine Kept.issueTrap (by assumption) ?_
    | with_reducible refine Kept.read (by assumption) ?_
    | with_reducible refine Kept.readErr (by assumption) ?_
    | with_reducible refine Kept.readStop (by assumption) ?_
    | with_reducible apply Kept.val
    | with_reducible apply Kept.err
    | with_reducible apply Kept.stop
    | with_reducible refine Issue.andThen_kept ?_ ?_
    | with_reducible refine Kept.fst (by assumption) ?_
    | split
    )

theorem coreWord_kept {ρ : State} {s : State} {b : ℕ} {h : ℕ} {o : ℕ} (hk : Kept ρ s) :
    Kept ρ (coreWord s b h o).1 := by
  unfold coreWord
  try dsimp only
  repeat' (first
    | with_reducible assumption
    | with_reducible apply claimSource_kept
    | with_reducible apply busRead_kept
    | with_reducible apply Kept.done
    | with_reducible apply Kept.stall
    | with_reducible apply Kept.trap
    | with_reducible apply hf
    | with_reducible refine Kept.issue (by assumption) ?_
    | with_reducible refine Kept.issueStall (by assumption) ?_
    | with_reducible refine Kept.issueTrap (by assumption) ?_
    | with_reducible refine Kept.read (by assumption) ?_
    | with_reducible refine Kept.readErr (by assumption) ?_
    | with_reducible refine Kept.readStop (by assumption) ?_
    | with_reducible apply Kept.val
    | with_reducible apply Kept.err
    | with_reducible apply Kept.stop
    | with_reducible refine Issue.andThen_kept ?_ ?_
    | with_reducible refine Kept.fst (by assumption) ?_
    | split
    )

theorem keepHigh_kept {ρ : State} {s : State} {b : ℕ} {h : ℕ} {addr : ℕ} {w : Word} (hk : Kept ρ s) :
    Kept ρ (keepHigh s b h addr w) := by
  unfold keepHigh
  try dsimp only
  repeat' (first
    | with_reducible assumption
    | with_reducible apply State.setHammer_kept
    )

theorem readGate_kept {ρ : State} {s : State} {b : ℕ} {h : ℕ} {a : HWord} (hk : Kept ρ s) :
    Kept ρ (readGate s b h a).state := by
  unfold readGate
  try dsimp only
  repeat' (first
    | with_reducible assumption
    | with_reducible apply afterStores_kept
    | with_reducible apply Kept.done
    | with_reducible apply Kept.stall
    | with_reducible apply Kept.trap
    | with_reducible apply hf
    | with_reducible refine Kept.issue (by assumption) ?_
    | with_reducible refine Kept.issueStall (by assumption) ?_
    | with_reducible refine Kept.issueTrap (by assumption) ?_
    | with_reducible refine Kept.read (by assumption) ?_
    | with_reducible refine Kept.readErr (by assumption) ?_
    | with_reducible refine Kept.readStop (by assumption) ?_
    | with_reducible apply Kept.val
    | with_reducible apply Kept.err
    | with_reducible apply Kept.stop
    | with_reducible refine Issue.andThen_kept ?_ ?_
    | with_reducible refine Kept.fst (by assumption) ?_
    | split
    )

theorem issueLoad_kept {ρ : State} {s : State} {b : ℕ} {h : ℕ} {x : PendLoad} {even : Option ℕ} (hk : Kept ρ s) :
    Kept ρ (issueLoad s b h x even).state := by
  unfold issueLoad
  try dsimp only
  repeat' (first
    | with_reducible assumption
    | with_reducible apply fluxFails_kept
    | with_reducible apply fluxTake_kept
    | with_reducible apply Issue.andThen_kept
    | with_reducible apply afterStores_kept
    | with_reducible apply State.setHammer_kept
    | with_reducible apply failsNow_kept
    | with_reducible apply accessFails_kept
    | with_reducible apply loadDone_kept
    | with_reducible apply Kept.done
    | with_reducible apply Kept.stall
    | with_reducible apply Kept.trap
    | with_reducible apply hf
    | with_reducible refine Kept.issue (by assumption) ?_
    | with_reducible refine Kept.issueStall (by assumption) ?_
    | with_reducible refine Kept.issueTrap (by assumption) ?_
    | with_reducible refine Kept.read (by assumption) ?_
    | with_reducible refine Kept.readErr (by assumption) ?_
    | with_reducible refine Kept.readStop (by assumption) ?_
    | with_reducible apply Kept.val
    | with_reducible apply Kept.err
    | with_reducible apply Kept.stop
    | with_reducible refine Issue.andThen_kept ?_ ?_
    | with_reducible refine Kept.fst (by assumption) ?_
    | split
    | intro _
    )

theorem quickRead_kept
    {ρ s : State} {b h : Nat} {a : HWord} {p : State × HWord} (hk : Kept ρ s) (e : quickRead s b h a = some p) :
    Kept ρ p.1 := by
  have hd : ∀ s, Kept ρ s → Kept ρ (dropEven s b h) := fun s h => dropEven_kept h
  unfold quickRead at e
  split at e
  · cases e
    exact hk
  · dsimp only at e
    split at e
    · cases e
      exact hd _ hk
    · split at e
      · cases e
        exact hd _ (coreWord_kept hk)
      · cases e
        exact keepHigh_kept (coreWord_kept hk)
  · split at e
    · cases e
      exact hd _ hk
    · cases e
  · cases e

theorem loadWord_kept {ρ : State} {s0 : State} {b : ℕ} {h : ℕ} {pc : ℕ} {g : ℕ} {a : HWord} {undo : optParam (Option (ℕ × HWord)) none} (hk : Kept ρ s0) :
    Kept ρ (loadWord s0 b h pc g a undo).state := by
  unfold loadWord
  try dsimp only
  repeat' (first
    | with_reducible assumption
    | with_reducible apply Issue.andThen_kept
    | with_reducible apply settleLoad_kept
    | with_reducible apply readGate_kept
    | with_reducible apply setG_kept
    | with_reducible apply issueLoad_kept
    | with_reducible apply busErr_kept
    | with_reducible apply dropEven_kept
    | with_reducible refine quickRead_kept ?_ (by assumption)
    | with_reducible apply Kept.done
    | with_reducible apply Kept.stall
    | with_reducible apply Kept.trap
    | with_reducible apply hf
    | with_reducible refine Kept.issue (by assumption) ?_
    | with_reducible refine Kept.issueStall (by assumption) ?_
    | with_reducible refine Kept.issueTrap (by assumption) ?_
    | with_reducible refine Kept.read (by assumption) ?_
    | with_reducible refine Kept.readErr (by assumption) ?_
    | with_reducible refine Kept.readStop (by assumption) ?_
    | with_reducible apply Kept.val
    | with_reducible apply Kept.err
    | with_reducible apply Kept.stop
    | with_reducible refine Issue.andThen_kept ?_ ?_
    | with_reducible refine Kept.fst (by assumption) ?_
    | split
    | intro _
    )

theorem windowRead_kept {ρ : State} {s0 : State} {b : ℕ} {h : ℕ} {pc : ℕ} {t : Target} {odd : Bool} {even : Option ℕ} (hk : Kept ρ s0) :
    Kept ρ (windowRead s0 b h pc t odd even).state := by
  unfold windowRead
  try dsimp only
  repeat' (first
    | with_reducible assumption
    | with_reducible apply fluxFails_kept
    | with_reducible apply fluxFree_kept
    | with_reducible apply fluxTake_kept
    | with_reducible apply afterStores_kept
    | with_reducible apply State.setHammer_kept
    | with_reducible apply failsNow_kept
    | with_reducible apply State.hspoil_kept
    | with_reducible apply performLoad_kept
    | with_reducible apply Kept.done
    | with_reducible apply Kept.stall
    | with_reducible apply Kept.trap
    | with_reducible apply hf
    | with_reducible refine Kept.issue (by assumption) ?_
    | with_reducible refine Kept.issueStall (by assumption) ?_
    | with_reducible refine Kept.issueTrap (by assumption) ?_
    | with_reducible refine Kept.read (by assumption) ?_
    | with_reducible refine Kept.readErr (by assumption) ?_
    | with_reducible refine Kept.readStop (by assumption) ?_
    | with_reducible apply Kept.val
    | with_reducible apply Kept.err
    | with_reducible apply Kept.stop
    | with_reducible refine Issue.andThen_kept ?_ ?_
    | with_reducible refine Kept.fst (by assumption) ?_
    | split
    | intro _
    )

theorem readNow_kept {ρ : State} {s0 : State} {b : ℕ} {h : ℕ} {pc : ℕ} {a : HWord} (hk : Kept ρ s0) :
    Kept ρ (readNow s0 b h pc a).state := by
  unfold readNow
  try dsimp only
  repeat' (first
    | with_reducible assumption
    | with_reducible apply Issue.andThen_kept
    | with_reducible apply settleLoad_kept
    | with_reducible apply readGate_kept
    | with_reducible apply windowRead_kept
    | with_reducible apply dropEven_kept
    | with_reducible refine quickRead_kept ?_ (by assumption)
    | with_reducible apply Kept.done
    | with_reducible apply Kept.stall
    | with_reducible apply Kept.trap
    | with_reducible apply hf
    | with_reducible refine Kept.issue (by assumption) ?_
    | with_reducible refine Kept.issueStall (by assumption) ?_
    | with_reducible refine Kept.issueTrap (by assumption) ?_
    | with_reducible refine Kept.read (by assumption) ?_
    | with_reducible refine Kept.readErr (by assumption) ?_
    | with_reducible refine Kept.readStop (by assumption) ?_
    | with_reducible apply Kept.val
    | with_reducible apply Kept.err
    | with_reducible apply Kept.stop
    | with_reducible refine Issue.andThen_kept ?_ ?_
    | with_reducible refine Kept.fst (by assumption) ?_
    | split
    | intro _
    )

theorem pinBitWrite_kept {ρ : State} {s : State} {b : ℕ} {h : ℕ} {n : ℕ} {oe : Bool} {op : BitOp} (hk : Kept ρ s) :
    Kept ρ (pinBitWrite s b h n oe op) := by
  unfold pinBitWrite
  try dsimp only
  repeat' (first
    | with_reducible assumption
    | with_reducible apply State.setPin_kept
    | with_reducible apply State.addReg_kept
    | with_reducible apply setStat_kept
    | with_reducible apply Kept.done
    | with_reducible apply Kept.stall
    | with_reducible apply Kept.trap
    | with_reducible apply hf
    | with_reducible refine Kept.issue (by assumption) ?_
    | with_reducible refine Kept.issueStall (by assumption) ?_
    | with_reducible refine Kept.issueTrap (by assumption) ?_
    | with_reducible refine Kept.read (by assumption) ?_
    | with_reducible refine Kept.readErr (by assumption) ?_
    | with_reducible refine Kept.readStop (by assumption) ?_
    | with_reducible apply Kept.val
    | with_reducible apply Kept.err
    | with_reducible apply Kept.stop
    | with_reducible refine Issue.andThen_kept ?_ ?_
    | with_reducible refine Kept.fst (by assumption) ?_
    | split
    )

theorem nearWrite_kept {ρ : State} {s : State} {b : ℕ} {h : ℕ} {n0 : ℕ} {op : BitOp} (hk : Kept ρ s) :
    Kept ρ (nearWrite s b h n0 op) := by
  unfold nearWrite
  try dsimp only
  repeat' (first
    | with_reducible assumption
    | with_reducible apply pinBitWrite_kept
    | with_reducible apply State.setSticky_kept
    | with_reducible apply holdOn_kept
    | with_reducible apply holdOff_kept
    | with_reducible apply State.setReg_kept
    | with_reducible apply State.clrReg_kept
    | with_reducible apply Kept.done
    | with_reducible apply Kept.stall
    | with_reducible apply Kept.trap
    | with_reducible apply hf
    | with_reducible refine Kept.issue (by assumption) ?_
    | with_reducible refine Kept.issueStall (by assumption) ?_
    | with_reducible refine Kept.issueTrap (by assumption) ?_
    | with_reducible refine Kept.read (by assumption) ?_
    | with_reducible refine Kept.readErr (by assumption) ?_
    | with_reducible refine Kept.readStop (by assumption) ?_
    | with_reducible apply Kept.val
    | with_reducible apply Kept.err
    | with_reducible apply Kept.stop
    | with_reducible refine Issue.andThen_kept ?_ ?_
    | with_reducible refine Kept.fst (by assumption) ?_
    | (unfold Kept Inv; dsimp only; refine (show Kept _ _ from ?_); with_reducible assumption)
    | split
    )

theorem bitWrite_kept {ρ : State} {s : State} {b : ℕ} {h : ℕ} {pc : ℕ} {n : ℕ} {op : BitOp} (hk : Kept ρ s) :
    Kept ρ (bitWrite s b h pc n op).state := by
  unfold bitWrite
  try dsimp only
  repeat' (first
    | with_reducible assumption
    | with_reducible apply nearWrite_kept
    | with_reducible apply postStore_kept
    | with_reducible apply dropEven_kept
    | with_reducible apply Kept.done
    | with_reducible apply Kept.stall
    | with_reducible apply Kept.trap
    | with_reducible apply hf
    | with_reducible refine Kept.issue (by assumption) ?_
    | with_reducible refine Kept.issueStall (by assumption) ?_
    | with_reducible refine Kept.issueTrap (by assumption) ?_
    | with_reducible refine Kept.read (by assumption) ?_
    | with_reducible refine Kept.readErr (by assumption) ?_
    | with_reducible refine Kept.readStop (by assumption) ?_
    | with_reducible apply Kept.val
    | with_reducible apply Kept.err
    | with_reducible apply Kept.stop
    | with_reducible refine Issue.andThen_kept ?_ ?_
    | with_reducible refine Kept.fst (by assumption) ?_
    | split
    | intro _
    )

theorem bitLoad_kept {ρ : State} {s0 : State} {b : ℕ} {h : ℕ} {pc : ℕ} {n : ℕ} {dst : ℕ → LoadDst} (hk : Kept ρ s0) :
    Kept ρ (bitLoad s0 b h pc n dst).state := by
  unfold bitLoad
  try dsimp only
  repeat' (first
    | with_reducible assumption
    | with_reducible apply deliver_kept
    | with_reducible apply Issue.andThen_kept
    | with_reducible apply settleLoad_kept
    | with_reducible apply issueLoad_kept
    | with_reducible apply Kept.done
    | with_reducible apply Kept.stall
    | with_reducible apply Kept.trap
    | with_reducible apply hf
    | with_reducible refine Kept.issue (by assumption) ?_
    | with_reducible refine Kept.issueStall (by assumption) ?_
    | with_reducible refine Kept.issueTrap (by assumption) ?_
    | with_reducible refine Kept.read (by assumption) ?_
    | with_reducible refine Kept.readErr (by assumption) ?_
    | with_reducible refine Kept.readStop (by assumption) ?_
    | with_reducible apply Kept.val
    | with_reducible apply Kept.err
    | with_reducible apply Kept.stop
    | with_reducible refine Issue.andThen_kept ?_ ?_
    | with_reducible refine Kept.fst (by assumption) ?_
    | split
    | intro _
    )

theorem bitPoll_kept {ρ : State} {s0 : State} {b : ℕ} {h : ℕ} {pc : ℕ} {n : ℕ} {f : State → Bool → Issue} (hf : ∀ s v0, Kept ρ s → Kept ρ (f s v0).state) (hk : Kept ρ s0) :
    Kept ρ (bitPoll s0 b h pc n f).state := by
  unfold bitPoll
  try dsimp only
  repeat' (first
    | with_reducible assumption
    | with_reducible apply fluxFails_kept
    | with_reducible apply fluxFree_kept
    | with_reducible apply fluxTake_kept
    | with_reducible apply Issue.andThen_kept
    | with_reducible apply settleLoad_kept
    | with_reducible apply afterStores_kept
    | with_reducible apply failsNow_kept
    | with_reducible apply dropEven_kept
    | with_reducible apply accessFails_kept
    | with_reducible apply busRead_kept
    | with_reducible apply Kept.done
    | with_reducible apply Kept.stall
    | with_reducible apply Kept.trap
    | with_reducible apply hf
    | with_reducible refine Kept.issue (by assumption) ?_
    | with_reducible refine Kept.issueStall (by assumption) ?_
    | with_reducible refine Kept.issueTrap (by assumption) ?_
    | with_reducible refine Kept.read (by assumption) ?_
    | with_reducible refine Kept.readErr (by assumption) ?_
    | with_reducible refine Kept.readStop (by assumption) ?_
    | with_reducible apply Kept.val
    | with_reducible apply Kept.err
    | with_reducible apply Kept.stop
    | with_reducible refine Issue.andThen_kept ?_ ?_
    | with_reducible refine Kept.fst (by assumption) ?_
    | split
    | intro _
    )

end Sys2Proof.Machine
end

