-- ==== Sys2Proof/Laws/KeptHammerOps.lean ====
section
/-! SUPPORT. What the operations of Machine/HammerOps.lean keep. -/

namespace Sys2Proof.Machine

theorem onHammer_kept {ρ : State} {s : State} {b : ℕ} {h : ℕ} {f : Hammer → Hammer} (hk : Kept ρ s) :
    Kept ρ (onHammer s b h f).state := by
  unfold onHammer
  try dsimp only
  repeat' (first
    | with_reducible assumption
    | with_reducible apply State.setHammer_kept
    | with_reducible apply Kept.done
    )

theorem opAlu_kept {ρ : State} {s : State} {b : ℕ} {h : ℕ} {f : AluOp} {gd : ℕ} {x : Opd} (hk : Kept ρ s) :
    Kept ρ (opAlu s b h f gd x).state := by
  unfold opAlu
  try dsimp only
  repeat' (first
    | with_reducible assumption
    | with_reducible apply onHammer_kept
    )

theorem opNeg_kept {ρ : State} {s : State} {b : ℕ} {h : ℕ} {g : ℕ} (hk : Kept ρ s) :
    Kept ρ (opNeg s b h g).state := by
  unfold opNeg
  try dsimp only
  repeat' (first
    | with_reducible assumption
    | with_reducible apply onHammer_kept
    )

theorem opSwapb_kept {ρ : State} {s : State} {b : ℕ} {h : ℕ} {g : ℕ} (hk : Kept ρ s) :
    Kept ρ (opSwapb s b h g).state := by
  unfold opSwapb
  try dsimp only
  repeat' (first
    | with_reducible assumption
    | with_reducible apply onHammer_kept
    )

theorem opLd_kept {ρ : State} {s : State} {b : ℕ} {h : ℕ} {pc : ℕ} {g : ℕ} {a : Opd} (hk : Kept ρ s) :
    Kept ρ (opLd s b h pc g a).state := by
  unfold opLd
  try dsimp only
  repeat' (first
    | with_reducible assumption
    | with_reducible apply loadWord_kept
    )

theorem opLdInc_kept {ρ : State} {s : State} {b : ℕ} {h : ℕ} {pc : ℕ} {g : ℕ} {ga : ℕ} (hk : Kept ρ s) :
    Kept ρ (opLdInc s b h pc g ga).state := by
  unfold opLdInc
  try dsimp only
  repeat' (first
    | with_reducible assumption
    | with_reducible apply Issue.andThen_kept
    | with_reducible apply loadWord_kept
    | with_reducible apply setG_kept
    | with_reducible apply Kept.done
    | with_reducible apply Kept.stall
    | with_reducible apply Kept.trap
    | with_reducible apply hf
    | with_reducible refine Kept.issue (by assumption) ?_
    | with_reducible refine Kept.issueStall (by assumption) ?_
    | with_reducible refine Kept.issueTrap (by assumption) ?_
    | with_reducible refine Kept.read (by assumption) ?_
    | with_reducible refine Kept.readErr (by assumption) ?_
    | with_reducible refine Kept.readStop (by assumption) ?_
    | with_reducible apply Kept.val
    | with_reducible apply Kept.err
    | with_reducible apply Kept.stop
    | with_reducible refine Issue.andThen_kept ?_ ?_
    | with_reducible refine Kept.fst (by assumption) ?_
    | split
    | intro _
    )

theorem opSt_kept {ρ : State} {s : State} {b : ℕ} {h : ℕ} {pc : ℕ} {a : Opd} {g : ℕ} (hk : Kept ρ s) :
    Kept ρ (opSt s b h pc a g).state := by
  unfold opSt
  try dsimp only
  repeat' (first
    | with_reducible assumption
    | with_reducible apply storeWord_kept
    )

theorem opStInc_kept {ρ : State} {s : State} {b : ℕ} {h : ℕ} {pc : ℕ} {ga : ℕ} {g : ℕ} (hk : Kept ρ s) :
    Kept ρ (opStInc s b h pc ga g).state := by
  unfold opStInc
  try dsimp only
  repeat' (first
    | with_reducible assumption
    | with_reducible apply Issue.andThen_kept
    | with_reducible apply storeWord_kept
    | with_reducible apply setG_kept
    | with_reducible apply Kept.done
    | with_reducible apply Kept.stall
    | with_reducible apply Kept.trap
    | with_reducible apply hf
    | with_reducible refine Kept.issue (by assumption) ?_
    | with_reducible refine Kept.issueStall (by assumption) ?_
    | with_reducible refine Kept.issueTrap (by assumption) ?_
    | with_reducible refine Kept.read (by assumption) ?_
    | with_reducible refine Kept.readErr (by assumption) ?_
    | with_reducible refine Kept.readStop (by assumption) ?_
    | with_reducible apply Kept.val
    | with_reducible apply Kept.err
    | with_reducible apply Kept.stop
    | with_reducible refine Issue.andThen_kept ?_ ?_
    | with_reducible refine Kept.fst (by assumption) ?_
    | split
    | intro _
    )

theorem opMul_kept {ρ : State} {s : State} {b : ℕ} {h : ℕ} {gx : ℕ} {gy : ℕ} (hk : Kept ρ s) :
    Kept ρ (opMul s b h gx gy).state := by
  unfold opMul
  try dsimp only
  repeat' (first
    | with_reducible assumption
    | with_reducible apply onHammer_kept
    )

theorem opMac_kept {ρ : State} {s : State} {b : ℕ} {h : ℕ} {acc : Bool} {gx : ℕ} {gy : ℕ} (hk : Kept ρ s) :
    Kept ρ (opMac s b h acc gx gy).state := by
  unfold opMac
  try dsimp only
  repeat' (first
    | with_reducible assumption
    | with_reducible apply onHammer_kept
    )

theorem opMacd_kept {ρ : State} {s : State} {b : ℕ} {h : ℕ} {pc : ℕ} {acc : Bool} {gx : ℕ} {gy : ℕ} (hk : Kept ρ s) :
    Kept ρ (opMacd s b h pc acc gx gy).state := by
  unfold opMacd
  try dsimp only
  repeat' (first
    | with_reducible assumption
    | with_reducible apply trapEnter_kept
    | with_reducible apply onHammer_kept
    | with_reducible apply Kept.done
    | with_reducible apply Kept.stall
    | with_reducible apply Kept.trap
    | with_reducible apply hf
    | with_reducible refine Kept.issue (by assumption) ?_
    | with_reducible refine Kept.issueStall (by assumption) ?_
    | with_reducible refine Kept.issueTrap (by assumption) ?_
    | with_reducible refine Kept.read (by assumption) ?_
    | with_reducible refine Kept.readErr (by assumption) ?_
    | with_reducible refine Kept.readStop (by assumption) ?_
    | with_reducible apply Kept.val
    | with_reducible apply Kept.err
    | with_reducible apply Kept.stop
    | with_reducible refine Issue.andThen_kept ?_ ?_
    | with_reducible refine Kept.fst (by assumption) ?_
    | split
    )

theorem opMovl_kept {ρ : State} {s : State} {b : ℕ} {h : ℕ} {g : ℕ} {acc : Bool} (hk : Kept ρ s) :
    Kept ρ (opMovl s b h g acc).state := by
  unfold opMovl
  try dsimp only
  repeat' (first
    | with_reducible assumption
    | with_reducible apply onHammer_kept
    )

theorem opMovh_kept {ρ : State} {s : State} {b : ℕ} {h : ℕ} {g : ℕ} {acc : Bool} (hk : Kept ρ s) :
    Kept ρ (opMovh s b h g acc).state := by
  unfold opMovh
  try dsimp only
  repeat' (first
    | with_reducible assumption
    | with_reducible apply onHammer_kept
    )

theorem opSath_kept {ρ : State} {s : State} {b : ℕ} {h : ℕ} {g : ℕ} {acc : Bool} (hk : Kept ρ s) :
    Kept ρ (opSath s b h g acc).state := by
  unfold opSath
  try dsimp only
  repeat' (first
    | with_reducible assumption
    | with_reducible apply onHammer_kept
    )

theorem opMova_kept {ρ : State} {s : State} {b : ℕ} {h : ℕ} {acc : Bool} {g : ℕ} (hk : Kept ρ s) :
    Kept ρ (opMova s b h acc g).state := by
  unfold opMova
  try dsimp only
  repeat' (first
    | with_reducible assumption
    | with_reducible apply onHammer_kept
    )

theorem opClrAcc_kept {ρ : State} {s : State} {b : ℕ} {h : ℕ} {acc : Bool} (hk : Kept ρ s) :
    Kept ρ (opClrAcc s b h acc).state := by
  unfold opClrAcc
  try dsimp only
  repeat' (first
    | with_reducible assumption
    | with_reducible apply onHammer_kept
    )

theorem opAdda_kept {ρ : State} {s : State} {b : ℕ} {h : ℕ} (hk : Kept ρ s) :
    Kept ρ (opAdda s b h).state := by
  unfold opAdda
  try dsimp only
  repeat' (first
    | with_reducible assumption
    | with_reducible apply onHammer_kept
    )

theorem failEnd_kept {ρ : State} {s : State} {b : ℕ} {h : ℕ} {pc : ℕ} {miss : Bool} (hk : Kept ρ s) :
    Kept ρ (failEnd s b h pc miss).state := by
  unfold failEnd
  try dsimp only
  repeat' (first
    | with_reducible assumption
    | with_reducible apply accessMiss_kept
    | with_reducible apply busErr_kept
    | with_reducible apply Kept.done
    | with_reducible apply Kept.stall
    | with_reducible apply Kept.trap
    | with_reducible apply hf
    | with_reducible refine Kept.issue (by assumption) ?_
    | with_reducible refine Kept.issueStall (by assumption) ?_
    | with_reducible refine Kept.issueTrap (by assumption) ?_
    | with_reducible refine Kept.read (by assumption) ?_
    | with_reducible refine Kept.readErr (by assumption) ?_
    | with_reducible refine Kept.readStop (by assumption) ?_
    | with_reducible apply Kept.val
    | with_reducible apply Kept.err
    | with_reducible apply Kept.stop
    | with_reducible refine Issue.andThen_kept ?_ ?_
    | with_reducible refine Kept.fst (by assumption) ?_
    | split
    )

theorem tliRead_kept {ρ : State} {s : State} {b : ℕ} {h : ℕ} {pc : ℕ} {a : HWord} {f : State → HWord → Issue} (hf : ∀ s v0, Kept ρ s → Kept ρ (f s v0).state) (hk : Kept ρ s) :
    Kept ρ (tliRead s b h pc a f).state := by
  unfold tliRead
  try dsimp only
  repeat' (first
    | with_reducible assumption
    | with_reducible apply readNow_kept
    | with_reducible apply Issue.andThen_kept
    | with_reducible apply failEnd_kept
    | with_reducible apply Kept.done
    | with_reducible apply Kept.stall
    | with_reducible apply Kept.trap
    | with_reducible apply hf
    | with_reducible refine Kept.issue (by assumption) ?_
    | with_reducible refine Kept.issueStall (by assumption) ?_
    | with_reducible refine Kept.issueTrap (by assumption) ?_
    | with_reducible refine Kept.read (by assumption) ?_
    | with_reducible refine Kept.readErr (by assumption) ?_
    | with_reducible refine Kept.readStop (by assumption) ?_
    | with_reducible apply Kept.val
    | with_reducible apply Kept.err
    | with_reducible apply Kept.stop
    | with_reducible refine Issue.andThen_kept ?_ ?_
    | with_reducible refine Kept.fst (by assumption) ?_
    | split
    | intro _
    )

theorem opTli_kept {ρ : State} {s : State} {b : ℕ} {h : ℕ} {pc : ℕ} {gd : ℕ} {gs : ℕ} (hk : Kept ρ s) :
    Kept ρ (opTli s b h pc gd gs).state := by
  unfold opTli
  try dsimp only
  repeat' (first
    | with_reducible assumption
    | with_reducible apply tliRead_kept
    | with_reducible apply setG_kept
    | with_reducible apply Kept.done
    | with_reducible apply Kept.stall
    | with_reducible apply Kept.trap
    | with_reducible apply hf
    | with_reducible refine Kept.issue (by assumption) ?_
    | with_reducible refine Kept.issueStall (by assumption) ?_
    | with_reducible refine Kept.issueTrap (by assumption) ?_
    | with_reducible refine Kept.read (by assumption) ?_
    | with_reducible refine Kept.readErr (by assumption) ?_
    | with_reducible refine Kept.readStop (by assumption) ?_
    | with_reducible apply Kept.val
    | with_reducible apply Kept.err
    | with_reducible apply Kept.stop
    | with_reducible refine Issue.andThen_kept ?_ ?_
    | with_reducible refine Kept.fst (by assumption) ?_
    | split
    | intro _
    )

theorem opBitw_kept {ρ : State} {s : State} {b : ℕ} {h : ℕ} {pc : ℕ} {n : ℕ} {op : BitOp} (hk : Kept ρ s) :
    Kept ρ (opBitw s b h pc n op).state := by
  unfold opBitw
  try dsimp only
  repeat' (first
    | with_reducible assumption
    | with_reducible apply bitWrite_kept
    )

theorem opStb_kept {ρ : State} {s : State} {b : ℕ} {h : ℕ} {pc : ℕ} {n : ℕ} {g : ℕ} (hk : Kept ρ s) :
    Kept ρ (opStb s b h pc n g).state := by
  unfold opStb
  try dsimp only
  repeat' (first
    | with_reducible assumption
    | with_reducible apply bitWrite_kept
    )

theorem opBitr_kept {ρ : State} {s : State} {b : ℕ} {h : ℕ} {pc : ℕ} {f : BitRd} {g : ℕ} {n : ℕ} (hk : Kept ρ s) :
    Kept ρ (opBitr s b h pc f g n).state := by
  unfold opBitr
  try dsimp only
  repeat' (first
    | with_reducible assumption
    | with_reducible apply bitLoad_kept
    )

theorem waitOver_kept {ρ : State} {s : State} {b : ℕ} {h : ℕ} (hk : Kept ρ s) :
    Kept ρ (waitOver s b h).state := by
  unfold waitOver
  try dsimp only
  repeat' (first
    | with_reducible assumption
    | with_reducible apply onHammer_kept
    )

theorem waitBegin_kept {ρ : State} {s : State} {b : ℕ} {h : ℕ} {pc : ℕ} {words : ℕ} {what : WaitFor} (hk : Kept ρ s) :
    Kept ρ (waitBegin s b h pc words what).state := by
  unfold waitBegin
  try dsimp only
  repeat' (first
    | with_reducible assumption
    | with_reducible apply Issue.andThen_kept
    | with_reducible apply afterStores_kept
    | with_reducible apply State.setHammer_kept
    | with_reducible apply Kept.done
    | with_reducible apply Kept.stall
    | with_reducible apply Kept.trap
    | with_reducible apply hf
    | with_reducible refine Kept.issue (by assumption) ?_
    | with_reducible refine Kept.issueStall (by assumption) ?_
    | with_reducible refine Kept.issueTrap (by assumption) ?_
    | with_reducible refine Kept.read (by assumption) ?_
    | with_reducible refine Kept.readErr (by assumption) ?_
    | with_reducible refine Kept.readStop (by assumption) ?_
    | with_reducible apply Kept.val
    | with_reducible apply Kept.err
    | with_reducible apply Kept.stop
    | with_reducible refine Issue.andThen_kept ?_ ?_
    | with_reducible refine Kept.fst (by assumption) ?_
    | split
    | intro _
    )

theorem opWaitb_kept {ρ : State} {s : State} {b : ℕ} {h : ℕ} {pc : ℕ} {words : ℕ} {n : ℕ} {v : Bool} (hk : Kept ρ s) :
    Kept ρ (opWaitb s b h pc words n v).state := by
  unfold opWaitb
  try dsimp only
  repeat' (first
    | with_reducible assumption
    | with_reducible apply bitPoll_kept
    | with_reducible apply waitOver_kept
    | with_reducible apply waitBegin_kept
    | with_reducible apply Kept.done
    | with_reducible apply Kept.stall
    | with_reducible apply Kept.trap
    | with_reducible apply hf
    | with_reducible refine Kept.issue (by assumption) ?_
    | with_reducible refine Kept.issueStall (by assumption) ?_
    | with_reducible refine Kept.issueTrap (by assumption) ?_
    | with_reducible refine Kept.read (by assumption) ?_
    | with_reducible refine Kept.readErr (by assumption) ?_
    | with_reducible refine Kept.readStop (by assumption) ?_
    | with_reducible apply Kept.val
    | with_reducible apply Kept.err
    | with_reducible apply Kept.stop
    | with_reducible refine Issue.andThen_kept ?_ ?_
    | with_reducible refine Kept.fst (by assumption) ?_
    | split
    | intro _
    )

theorem opWaitl_kept {ρ : State} {s : State} {b : ℕ} {h : ℕ} {pc : ℕ} {words : ℕ} {g : ℕ} (hk : Kept ρ s) :
    Kept ρ (opWaitl s b h pc words g).state := by
  unfold opWaitl
  try dsimp only
  repeat' (first
    | with_reducible assumption
    | with_reducible apply raiseDlMiss_kept
    | with_reducible apply State.setHammer_kept
    | with_reducible apply waitOver_kept
    | with_reducible apply waitBegin_kept
    | with_reducible apply Kept.done
    | with_reducible apply Kept.stall
    | with_reducible apply Kept.trap
    | with_reducible apply hf
    | with_reducible refine Kept.issue (by assumption) ?_
    | with_reducible refine Kept.issueStall (by assumption) ?_
    | with_reducible refine Kept.issueTrap (by assumption) ?_
    | with_reducible refine Kept.read (by assumption) ?_
    | with_reducible refine Kept.readErr (by assumption) ?_
    | with_reducible refine Kept.readStop (by assumption) ?_
    | with_reducible apply Kept.val
    | with_reducible apply Kept.err
    | with_reducible apply Kept.stop
    | with_reducible refine Issue.andThen_kept ?_ ?_
    | with_reducible refine Kept.fst (by assumption) ?_
    | split
    )

theorem opBranch_kept {ρ : State} {s : State} {b : ℕ} {h : ℕ} {pc : ℕ} {f : BrOp} {g : ℕ} {t : Tgt} (hk : Kept ρ s) :
    Kept ρ (opBranch s b h pc f g t).state := by
  unfold opBranch
  try dsimp only
  repeat' (first
    | with_reducible assumption
    | with_reducible apply setPc_kept
    | with_reducible apply setG_kept
    | with_reducible apply Kept.done
    | with_reducible apply Kept.stall
    | with_reducible apply Kept.trap
    | with_reducible apply hf
    | with_reducible refine Kept.issue (by assumption) ?_
    | with_reducible refine Kept.issueStall (by assumption) ?_
    | with_reducible refine Kept.issueTrap (by assumption) ?_
    | with_reducible refine Kept.read (by assumption) ?_
    | with_reducible refine Kept.readErr (by assumption) ?_
    | with_reducible refine Kept.readStop (by assumption) ?_
    | with_reducible apply Kept.val
    | with_reducible apply Kept.err
    | with_reducible apply Kept.stop
    | with_reducible refine Issue.andThen_kept ?_ ?_
    | with_reducible refine Kept.fst (by assumption) ?_
    | split
    )

theorem opJmp_kept {ρ : State} {s : State} {b : ℕ} {h : ℕ} {pc : ℕ} {t : Tgt} (hk : Kept ρ s) :
    Kept ρ (opJmp s b h pc t).state := by
  unfold opJmp
  try dsimp only
  repeat' (first
    | with_reducible assumption
    | with_reducible apply setPc_kept
    | with_reducible apply Kept.done
    )

theorem opCall_kept {ρ : State} {s : State} {b : ℕ} {h : ℕ} {pc : ℕ} {t : Tgt} (hk : Kept ρ s) :
    Kept ρ (opCall s b h pc t).state := by
  unfold opCall
  try dsimp only
  repeat' (first
    | with_reducible assumption
    | with_reducible apply trapEnter_kept
    | with_reducible apply setPc_kept
    | with_reducible apply State.setHammer_kept
    | with_reducible apply Kept.done
    | with_reducible apply Kept.stall
    | with_reducible apply Kept.trap
    | with_reducible apply hf
    | with_reducible refine Kept.issue (by assumption) ?_
    | with_reducible refine Kept.issueStall (by assumption) ?_
    | with_reducible refine Kept.issueTrap (by assumption) ?_
    | with_reducible refine Kept.read (by assumption) ?_
    | with_reducible refine Kept.readErr (by assumption) ?_
    | with_reducible refine Kept.readStop (by assumption) ?_
    | with_reducible apply Kept.val
    | with_reducible apply Kept.err
    | with_reducible apply Kept.stop
    | with_reducible refine Issue.andThen_kept ?_ ?_
    | with_reducible refine Kept.fst (by assumption) ?_
    | split
    )

theorem opRet_kept {ρ : State} {s : State} {b : ℕ} {h : ℕ} {pc : ℕ} (hk : Kept ρ s) :
    Kept ρ (opRet s b h pc).state := by
  unfold opRet
  try dsimp only
  repeat' (first
    | with_reducible assumption
    | with_reducible apply trapEnter_kept
    | with_reducible apply State.setHammer_kept
    | with_reducible apply Kept.done
    | with_reducible apply Kept.stall
    | with_reducible apply Kept.trap
    | with_reducible apply hf
    | with_reducible refine Kept.issue (by assumption) ?_
    | with_reducible refine Kept.issueStall (by assumption) ?_
    | with_reducible refine Kept.issueTrap (by assumption) ?_
    | with_reducible refine Kept.read (by assumption) ?_
    | with_reducible refine Kept.readErr (by assumption) ?_
    | with_reducible refine Kept.readStop (by assumption) ?_
    | with_reducible apply Kept.val
    | with_reducible apply Kept.err
    | with_reducible apply Kept.stop
    | with_reducible refine Issue.andThen_kept ?_ ?_
    | with_reducible refine Kept.fst (by assumption) ?_
    | split
    )

theorem opReti_kept {ρ : State} {s : State} {b : ℕ} {h : ℕ} {pc : ℕ} (hk : Kept ρ s) :
    Kept ρ (opReti s b h pc).state := by
  unfold opReti
  try dsimp only
  repeat' (first
    | with_reducible assumption
    | with_reducible apply State.setHammer_kept
    | with_reducible apply trapEnter_kept
    | with_reducible apply Kept.done
    | with_reducible apply Kept.stall
    | with_reducible apply Kept.trap
    | with_reducible apply hf
    | with_reducible refine Kept.issue (by assumption) ?_
    | with_reducible refine Kept.issueStall (by assumption) ?_
    | with_reducible refine Kept.issueTrap (by assumption) ?_
    | with_reducible refine Kept.read (by assumption) ?_
    | with_reducible refine Kept.readErr (by assumption) ?_
    | with_reducible refine Kept.readStop (by assumption) ?_
    | with_reducible apply Kept.val
    | with_reducible apply Kept.err
    | with_reducible apply Kept.stop
    | with_reducible refine Issue.andThen_kept ?_ ?_
    | with_reducible refine Kept.fst (by assumption) ?_
    | split
    )

theorem opHalt_kept {ρ : State} {s : State} {b : ℕ} {h : ℕ} (hk : Kept ρ s) :
    Kept ρ (opHalt s b h).state := by
  unfold opHalt
  try dsimp only
  repeat' (first
    | with_reducible assumption
    | with_reducible apply Issue.andThen_kept
    | with_reducible apply afterStores_kept
    | with_reducible apply State.setHammer_kept
    | with_reducible apply Kept.done
    | with_reducible apply Kept.stall
    | with_reducible apply Kept.trap
    | with_reducible apply hf
    | with_reducible refine Kept.issue (by assumption) ?_
    | with_reducible refine Kept.issueStall (by assumption) ?_
    | with_reducible refine Kept.issueTrap (by assumption) ?_
    | with_reducible refine Kept.read (by assumption) ?_
    | with_reducible refine Kept.readErr (by assumption) ?_
    | with_reducible refine Kept.readStop (by assumption) ?_
    | with_reducible apply Kept.val
    | with_reducible apply Kept.err
    | with_reducible apply Kept.stop
    | with_reducible refine Issue.andThen_kept ?_ ?_
    | with_reducible refine Kept.fst (by assumption) ?_
    | split
    | intro _
    )

theorem opEi_kept {ρ : State} {s : State} {b : ℕ} {h : ℕ} (hk : Kept ρ s) :
    Kept ρ (opEi s b h).state := by
  unfold opEi
  try dsimp only
  repeat' (first
    | with_reducible assumption
    | with_reducible apply onHammer_kept
    )

theorem opDi_kept {ρ : State} {s : State} {b : ℕ} {h : ℕ} (hk : Kept ρ s) :
    Kept ρ (opDi s b h).state := by
  unfold opDi
  try dsimp only
  repeat' (first
    | with_reducible assumption
    | with_reducible apply onHammer_kept
    )

theorem opSystem_kept {ρ : State} {s : State} {b : ℕ} {h : ℕ} {cause : ℕ} (hk : Kept ρ s) :
    Kept ρ (opSystem s b h cause).state := by
  unfold opSystem
  try dsimp only
  repeat' (first
    | with_reducible assumption
    | with_reducible apply trapEnter_kept
    | with_reducible apply Kept.done
    | with_reducible apply Kept.stall
    | with_reducible apply Kept.trap
    )

theorem opIllegal_kept {ρ : State} {s : State} {b : ℕ} {h : ℕ} {pc : ℕ} (hk : Kept ρ s) :
    Kept ρ (opIllegal s b h pc).state := by
  unfold opIllegal
  try dsimp only
  repeat' (first
    | with_reducible assumption
    | with_reducible apply trapEnter_kept
    | with_reducible apply Kept.done
    | with_reducible apply Kept.stall
    | with_reducible apply Kept.trap
    )

theorem strNext_kept {ρ : State} {s : State} {b : ℕ} {h : ℕ} {pc : ℕ} {src : Bool} {dst : Bool} (hk : Kept ρ s) :
    Kept ρ (strNext s b h pc src dst).state := by
  unfold strNext
  try dsimp only
  repeat' (first
    | with_reducible assumption
    | with_reducible apply State.setHammer_kept
    | with_reducible apply setPc_kept
    | with_reducible apply Kept.done
    | with_reducible apply Kept.stall
    | with_reducible apply Kept.trap
    | with_reducible apply hf
    | with_reducible refine Kept.issue (by assumption) ?_
    | with_reducible refine Kept.issueStall (by assumption) ?_
    | with_reducible refine Kept.issueTrap (by assumption) ?_
    | with_reducible refine Kept.read (by assumption) ?_
    | with_reducible refine Kept.readErr (by assumption) ?_
    | with_reducible refine Kept.readStop (by assumption) ?_
    | with_reducible apply Kept.val
    | with_reducible apply Kept.err
    | with_reducible apply Kept.stop
    | with_reducible refine Issue.andThen_kept ?_ ?_
    | with_reducible refine Kept.fst (by assumption) ?_
    | split
    )

theorem strRead_kept {ρ : State} {s : State} {b : ℕ} {h : ℕ} {pc : ℕ} {a : HWord} {f : State → HWord → Issue} (hf : ∀ s v0, Kept ρ s → Kept ρ (f s v0).state) (hk : Kept ρ s) :
    Kept ρ (strRead s b h pc a f).state := by
  unfold strRead
  try dsimp only
  repeat' (first
    | with_reducible assumption
    | with_reducible apply readNow_kept
    | with_reducible apply failEnd_kept
    | with_reducible apply Kept.done
    | with_reducible apply Kept.stall
    | with_reducible apply Kept.trap
    | with_reducible apply hf
    | with_reducible refine Kept.issue (by assumption) ?_
    | with_reducible refine Kept.issueStall (by assumption) ?_
    | with_reducible refine Kept.issueTrap (by assumption) ?_
    | with_reducible refine Kept.read (by assumption) ?_
    | with_reducible refine Kept.readErr (by assumption) ?_
    | with_reducible refine Kept.readStop (by assumption) ?_
    | with_reducible apply Kept.val
    | with_reducible apply Kept.err
    | with_reducible apply Kept.stop
    | with_reducible refine Issue.andThen_kept ?_ ?_
    | with_reducible refine Kept.fst (by assumption) ?_
    | split
    )

theorem strWrite_kept {ρ : State} {s : State} {b : ℕ} {h : ℕ} {pc : ℕ} {a : HWord} {v : HWord} {f : State → Issue} (hf : ∀ s, Kept ρ s → Kept ρ (f s).state) (hk : Kept ρ s) :
    Kept ρ (strWrite s b h pc a v f).state := by
  unfold strWrite
  try dsimp only
  repeat' (first
    | with_reducible assumption
    | with_reducible apply storeLands_kept
    | with_reducible apply busErr_kept
    | with_reducible apply dropEven_kept
    | with_reducible apply Issue.andThen_kept
    | with_reducible apply storeWord_kept
    | with_reducible apply afterStores_kept
    | with_reducible apply failsNow_kept
    | with_reducible apply failEnd_kept
    | with_reducible apply storeOut_kept
    | with_reducible apply Kept.done
    | with_reducible apply Kept.stall
    | with_reducible apply Kept.trap
    | with_reducible apply hf
    | with_reducible refine Kept.issue (by assumption) ?_
    | with_reducible refine Kept.issueStall (by assumption) ?_
    | with_reducible refine Kept.issueTrap (by assumption) ?_
    | with_reducible refine Kept.read (by assumption) ?_
    | with_reducible refine Kept.readErr (by assumption) ?_
    | with_reducible refine Kept.readStop (by assumption) ?_
    | with_reducible apply Kept.val
    | with_reducible apply Kept.err
    | with_reducible apply Kept.stop
    | with_reducible refine Issue.andThen_kept ?_ ?_
    | with_reducible refine Kept.fst (by assumption) ?_
    | split
    | intro _
    )

theorem opStr_kept {ρ : State} {s : State} {b : ℕ} {h : ℕ} {pc : ℕ} {f : StrOp} (hk : Kept ρ s) :
    Kept ρ (opStr s b h pc f).state := by
  unfold opStr
  try dsimp only
  repeat' (first
    | with_reducible assumption
    | with_reducible apply strRead_kept
    | with_reducible apply strWrite_kept
    | with_reducible apply strNext_kept
    | with_reducible apply Kept.done
    | with_reducible apply Kept.stall
    | with_reducible apply Kept.trap
    | with_reducible apply hf
    | with_reducible refine Kept.issue (by assumption) ?_
    | with_reducible refine Kept.issueStall (by assumption) ?_
    | with_reducible refine Kept.issueTrap (by assumption) ?_
    | with_reducible refine Kept.read (by assumption) ?_
    | with_reducible refine Kept.readErr (by assumption) ?_
    | with_reducible refine Kept.readStop (by assumption) ?_
    | with_reducible apply Kept.val
    | with_reducible apply Kept.err
    | with_reducible apply Kept.stop
    | with_reducible refine Issue.andThen_kept ?_ ?_
    | with_reducible refine Kept.fst (by assumption) ?_
    | split
    | intro _
    )

theorem opBody_kept {ρ : State} {s : State} {b : ℕ} {h : ℕ} {pc : ℕ} {words : ℕ} {x5 : HOp} (hk : Kept ρ s) :
    Kept ρ (opBody s b h pc words x5).state := by
  unfold opBody
  try dsimp only
  repeat' (first
    | with_reducible assumption
    | with_reducible apply opAlu_kept
    | with_reducible apply opNeg_kept
    | with_reducible apply opSwapb_kept
    | with_reducible apply opLd_kept
    | with_reducible apply opLdInc_kept
    | with_reducible apply opSt_kept
    | with_reducible apply opStInc_kept
    | with_reducible apply opMul_kept
    | with_reducible apply opMac_kept
    | with_reducible apply opMacd_kept
    | with_reducible apply opMovl_kept
    | with_reducible apply opMovh_kept
    | with_reducible apply opSath_kept
    | with_reducible apply opMova_kept
    | with_reducible apply opClrAcc_kept
    | with_reducible apply opAdda_kept
    | with_reducible apply opTli_kept
    | with_reducible apply opBitw_kept
    | with_reducible apply opBitr_kept
    | with_reducible apply opStb_kept
    | with_reducible apply opWaitb_kept
    | with_reducible apply opWaitl_kept
    | with_reducible apply opBranch_kept
    | with_reducible apply opJmp_kept
    | with_reducible apply opCall_kept
    | with_reducible apply opRet_kept
    | with_reducible apply opReti_kept
    | with_reducible apply opStr_kept
    | with_reducible apply opEi_kept
    | with_reducible apply opDi_kept
    | with_reducible apply opHalt_kept
    | with_reducible apply opSystem_kept
    | with_reducible apply opIllegal_kept
    | with_reducible apply Kept.done
    | with_reducible apply Kept.stall
    | with_reducible apply Kept.trap
    | with_reducible apply hf
    | with_reducible refine Kept.issue (by assumption) ?_
    | with_reducible refine Kept.issueStall (by assumption) ?_
    | with_reducible refine Kept.issueTrap (by assumption) ?_
    | with_reducible refine Kept.read (by assumption) ?_
    | with_reducible refine Kept.readErr (by assumption) ?_
    | with_reducible refine Kept.readStop (by assumption) ?_
    | with_reducible apply Kept.val
    | with_reducible apply Kept.err
    | with_reducible apply Kept.stop
    | with_reducible refine Issue.andThen_kept ?_ ?_
    | with_reducible refine Kept.fst (by assumption) ?_
    | split
    )

theorem issueAt_kept {ρ : State} {s : State} {b : ℕ} {h : ℕ} {pc : ℕ} {words : ℕ} {regs : List ℕ} {f : State → Issue} (hf : ∀ s, Kept ρ s → Kept ρ (f s).state) (hk : Kept ρ s) :
    Kept ρ (issueAt s b h pc words regs f).state := by
  unfold issueAt
  try dsimp only
  repeat' (first
    | with_reducible assumption
    | with_reducible apply Issue.andThen_kept
    | with_reducible apply settleFor_kept
    | with_reducible apply setPc_kept
    | with_reducible apply Kept.done
    | with_reducible apply Kept.stall
    | with_reducible apply Kept.trap
    | with_reducible apply hf
    | with_reducible refine Kept.issue (by assumption) ?_
    | with_reducible refine Kept.issueStall (by assumption) ?_
    | with_reducible refine Kept.issueTrap (by assumption) ?_
    | with_reducible refine Kept.read (by assumption) ?_
    | with_reducible refine Kept.readErr (by assumption) ?_
    | with_reducible refine Kept.readStop (by assumption) ?_
    | with_reducible apply Kept.val
    | with_reducible apply Kept.err
    | with_reducible apply Kept.stop
    | with_reducible refine Issue.andThen_kept ?_ ?_
    | with_reducible refine Kept.fst (by assumption) ?_
    | split
    | intro _
    )

theorem setRpt_kept {ρ : State} {s : State} {b : ℕ} {h : ℕ} {n : ℕ} {p : ℕ} (hk : Kept ρ s) :
    Kept ρ (setRpt s b h n p) := by
  unfold setRpt
  try dsimp only
  repeat' (first
    | with_reducible assumption
    | with_reducible apply State.setHammer_kept
    )

theorem endRpt_kept {ρ : State} {r : Issue} {b h : ℕ} (hk : Kept ρ r.state) : Kept ρ (endRpt r b h).state :=
  Issue.andThen_kept (fun _ h => Kept.done (setRpt_kept h)) hk

theorem repeatAt_kept {ρ : State} {b : ℕ} {h : ℕ} {p : ℕ} {words : ℕ} {op : HOp} {x5 : ℕ} {x6 : State} (hk : Kept ρ x6) :
    Kept ρ (repeatAt b h p words op x5 x6).state := by
  induction x5 generalizing b h p words op x6 with
  | zero =>
    unfold repeatAt
    try dsimp only
    repeat' (first
      | with_reducible assumption
      | with_reducible apply issueAt_kept
      | with_reducible apply opBody_kept
      | with_reducible apply setRpt_kept
      | with_reducible apply Kept.done
      )
  | succ m ih =>
    unfold repeatAt
    try dsimp only
    repeat' (first
      | with_reducible assumption
      | with_reducible apply issueAt_kept
      | with_reducible apply opBody_kept
      | with_reducible apply setRpt_kept
      | with_reducible apply Kept.done
      | with_reducible apply Kept.stall
      | with_reducible apply Kept.trap
      | with_reducible apply hf
      | with_reducible refine Kept.issue (by assumption) ?_
      | with_reducible refine Kept.issueStall (by assumption) ?_
      | with_reducible refine Kept.issueTrap (by assumption) ?_
      | with_reducible refine Kept.read (by assumption) ?_
      | with_reducible refine Kept.readErr (by assumption) ?_
      | with_reducible refine Kept.readStop (by assumption) ?_
      | with_reducible apply Kept.val
      | with_reducible apply Kept.err
      | with_reducible apply Kept.stop
      | with_reducible refine Issue.andThen_kept ?_ ?_
      | with_reducible apply ih
      | with_reducible refine Kept.fst (by assumption) ?_
      | split
      | intro _
      )

theorem opRpt_kept {ρ : State} {s : State} {b : ℕ} {h : ℕ} {pc : ℕ} {n : ℕ} (hk : Kept ρ s) :
    Kept ρ (opRpt s b h pc n).state := by
  unfold opRpt
  try dsimp only
  repeat' (first
    | with_reducible assumption
    | with_reducible apply trapEnter_kept
    | with_reducible apply endRpt_kept
    | with_reducible apply repeatAt_kept
    | with_reducible apply Kept.done
    | with_reducible apply Kept.stall
    | with_reducible apply Kept.trap
    | with_reducible apply hf
    | with_reducible refine Kept.issue (by assumption) ?_
    | with_reducible refine Kept.issueStall (by assumption) ?_
    | with_reducible refine Kept.issueTrap (by assumption) ?_
    | with_reducible refine Kept.read (by assumption) ?_
    | with_reducible refine Kept.readErr (by assumption) ?_
    | with_reducible refine Kept.readStop (by assumption) ?_
    | with_reducible apply Kept.val
    | with_reducible apply Kept.err
    | with_reducible apply Kept.stop
    | with_reducible refine Issue.andThen_kept ?_ ?_
    | with_reducible refine Kept.fst (by assumption) ?_
    | split
    )

theorem opRpti_kept {ρ : State} {s : State} {b : ℕ} {h : ℕ} {pc : ℕ} {g : ℕ} (hk : Kept ρ s) :
    Kept ρ (opRpti s b h pc g).state := by
  unfold opRpti
  try dsimp only
  repeat' (first
    | with_reducible assumption
    | with_reducible apply trapEnter_kept
    | with_reducible apply setPc_kept
    | with_reducible apply issueAt_kept
    | with_reducible apply opBody_kept
    | with_reducible apply setG_kept
    | with_reducible apply Kept.done
    | with_reducible apply Kept.stall
    | with_reducible apply Kept.trap
    | with_reducible apply hf
    | with_reducible refine Kept.issue (by assumption) ?_
    | with_reducible refine Kept.issueStall (by assumption) ?_
    | with_reducible refine Kept.issueTrap (by assumption) ?_
    | with_reducible refine Kept.read (by assumption) ?_
    | with_reducible refine Kept.readErr (by assumption) ?_
    | with_reducible refine Kept.readStop (by assumption) ?_
    | with_reducible apply Kept.val
    | with_reducible apply Kept.err
    | with_reducible apply Kept.stop
    | with_reducible refine Issue.andThen_kept ?_ ?_
    | with_reducible refine Kept.fst (by assumption) ?_
    | split
    | intro _
    )

theorem opRun_kept {ρ : State} {s : State} {b : ℕ} {h : ℕ} {pc : ℕ} {words : ℕ} {x5 : HOp} (hk : Kept ρ s) :
    Kept ρ (opRun s b h pc words x5).state := by
  unfold opRun
  try dsimp only
  repeat' (first
    | with_reducible assumption
    | with_reducible apply opRpt_kept
    | with_reducible apply opRpti_kept
    | with_reducible apply opBody_kept
    | with_reducible apply Kept.done
    | with_reducible apply Kept.stall
    | with_reducible apply Kept.trap
    | with_reducible apply hf
    | with_reducible refine Kept.issue (by assumption) ?_
    | with_reducible refine Kept.issueStall (by assumption) ?_
    | with_reducible refine Kept.issueTrap (by assumption) ?_
    | with_reducible refine Kept.read (by assumption) ?_
    | with_reducible refine Kept.readErr (by assumption) ?_
    | with_reducible refine Kept.readStop (by assumption) ?_
    | with_reducible apply Kept.val
    | with_reducible apply Kept.err
    | with_reducible apply Kept.stop
    | with_reducible refine Issue.andThen_kept ?_ ?_
    | with_reducible refine Kept.fst (by assumption) ?_
    | split
    )

theorem atBoundary_kept {ρ : State} {s : State} {b : ℕ} {h : ℕ} (hk : Kept ρ s) :
    Kept ρ (atBoundary s b h) := by
  unfold atBoundary
  try dsimp only
  repeat' (first
    | with_reducible assumption
    | with_reducible apply busTrap_kept
    | with_reducible apply State.setHammer_kept
    | with_reducible apply Kept.done
    | with_reducible apply Kept.stall
    | with_reducible apply Kept.trap
    | with_reducible apply hf
    | with_reducible refine Kept.issue (by assumption) ?_
    | with_reducible refine Kept.issueStall (by assumption) ?_
    | with_reducible refine Kept.issueTrap (by assumption) ?_
    | with_reducible refine Kept.read (by assumption) ?_
    | with_reducible refine Kept.readErr (by assumption) ?_
    | with_reducible refine Kept.readStop (by assumption) ?_
    | with_reducible apply Kept.val
    | with_reducible apply Kept.err
    | with_reducible apply Kept.stop
    | with_reducible refine Issue.andThen_kept ?_ ?_
    | with_reducible refine Kept.fst (by assumption) ?_
    | split
    )

theorem Issue.ended_kept {ρ : State} {r : Issue} {b h : ℕ} (hk : Kept ρ r.state) : Kept ρ (r.ended b h) := by
  unfold Issue.ended
  split
  · exact hk
  · exact atBoundary_kept hk

theorem issueHere_kept {ρ : State} {s : State} {b : ℕ} {h : ℕ} {words : ℕ} {op : HOp} (hk : Kept ρ s) :
    Kept ρ (issueHere s b h words op) := by
  unfold issueHere
  try dsimp only
  repeat' (first
    | with_reducible assumption
    | with_reducible apply Issue.ended_kept
    | with_reducible apply issueAt_kept
    | with_reducible apply opRun_kept
    | with_reducible apply Kept.done
    | with_reducible apply Kept.stall
    | with_reducible apply Kept.trap
    | with_reducible apply hf
    | with_reducible refine Kept.issue (by assumption) ?_
    | with_reducible refine Kept.issueStall (by assumption) ?_
    | with_reducible refine Kept.issueTrap (by assumption) ?_
    | with_reducible refine Kept.read (by assumption) ?_
    | with_reducible refine Kept.readErr (by assumption) ?_
    | with_reducible refine Kept.readStop (by assumption) ?_
    | with_reducible apply Kept.val
    | with_reducible apply Kept.err
    | with_reducible apply Kept.stop
    | with_reducible refine Issue.andThen_kept ?_ ?_
    | with_reducible refine Kept.fst (by assumption) ?_
    | split
    | intro _
    )

theorem stepHammer_kept {ρ : State} {s : State} {b : ℕ} {h : ℕ} (hk : Kept ρ s) :
    Kept ρ (stepHammer s b h) := by
  unfold stepHammer
  try dsimp only
  repeat' (first
    | with_reducible assumption
    | with_reducible apply State.setHammer_kept
    | with_reducible apply issueHere_kept
    | with_reducible apply Kept.done
    | with_reducible apply Kept.stall
    | with_reducible apply Kept.trap
    | with_reducible apply hf
    | with_reducible refine Kept.issue (by assumption) ?_
    | with_reducible refine Kept.issueStall (by assumption) ?_
    | with_reducible refine Kept.issueTrap (by assumption) ?_
    | with_reducible refine Kept.read (by assumption) ?_
    | with_reducible refine Kept.readErr (by assumption) ?_
    | with_reducible refine Kept.readStop (by assumption) ?_
    | with_reducible apply Kept.val
    | with_reducible apply Kept.err
    | with_reducible apply Kept.stop
    | with_reducible refine Issue.andThen_kept ?_ ?_
    | with_reducible refine Kept.fst (by assumption) ?_
    | split
    )

theorem runSteps_kept {ρ : State} {x0 : ℕ} {x1 : State} (hk : Kept ρ x1) :
    Kept ρ (runSteps x0 x1) := by
  induction x0 generalizing x1 with
  | zero =>
    unfold runSteps
    try dsimp only
    repeat' (with_reducible assumption)
  | succ m ih =>
    unfold runSteps
    try dsimp only
    repeat' (first
      | with_reducible assumption
      | with_reducible apply State.setHammer_kept
      | with_reducible apply stepHammer_kept
      | with_reducible apply Kept.done
      | with_reducible apply Kept.stall
      | with_reducible apply Kept.trap
      | with_reducible apply hf
      | with_reducible refine Kept.issue (by assumption) ?_
      | with_reducible refine Kept.issueStall (by assumption) ?_
      | with_reducible refine Kept.issueTrap (by assumption) ?_
      | with_reducible refine Kept.read (by assumption) ?_
      | with_reducible refine Kept.readErr (by assumption) ?_
      | with_reducible refine Kept.readStop (by assumption) ?_
      | with_reducible apply Kept.val
      | with_reducible apply Kept.err
      | with_reducible apply Kept.stop
      | with_reducible refine Issue.andThen_kept ?_ ?_
      | with_reducible apply ih
      | with_reducible refine Kept.fst (by assumption) ?_
      | split
      )

theorem settleSteps_kept {ρ : State} {s : State} (hk : Kept ρ s) :
    Kept ρ (settleSteps s) := by
  unfold settleSteps
  try dsimp only
  repeat' (first
    | with_reducible assumption
    | with_reducible apply runSteps_kept
    )

end Sys2Proof.Machine
end

