-- ==== Sys2Proof/Laws/KeptHammerInstr.lean ====
section
/-! SUPPORT. What the operations of Machine/HammerInstr.lean keep. -/

namespace Sys2Proof.Machine

theorem hIssue_kept {ρ : State} {u : HAt} {op : HOp} {s : State} (hk : Kept ρ s) :
    Kept ρ (hIssue u op s) := by
  unfold hIssue
  try dsimp only
  repeat' (first
    | with_reducible assumption
    | with_reducible apply settleSteps_kept
    | with_reducible apply issueHere_kept
    | with_reducible apply Kept.done
    | with_reducible apply Kept.stall
    | with_reducible apply Kept.trap
    | with_reducible apply hf
    | with_reducible refine Kept.issue (by assumption) ?_
    | with_reducible refine Kept.issueStall (by assumption) ?_
    | with_reducible refine Kept.issueTrap (by assumption) ?_
    | with_reducible refine Kept.read (by assumption) ?_
    | with_reducible refine Kept.readErr (by assumption) ?_
    | with_reducible refine Kept.readStop (by assumption) ?_
    | with_reducible apply Kept.val
    | with_reducible apply Kept.err
    | with_reducible apply Kept.stop
    | with_reducible refine Issue.andThen_kept ?_ ?_
    | with_reducible refine Kept.fst (by assumption) ?_
    | split
    )

theorem execHNop_kept {ρ : State} {u : HAt} {s : State} (hk : Kept ρ s) :
    ∃ s', execHNop u s = .next s' ∧ Kept ρ s' := by
  refine ⟨_, rfl, ?_⟩
  try dsimp only
  repeat' (first
    | with_reducible assumption
    | with_reducible apply hIssue_kept
    )

theorem execHMov_kept {ρ : State} {u : HAt} {gd : ℕ} {x : Opd} {s : State} (hk : Kept ρ s) :
    ∃ s', execHMov u gd x s = .next s' ∧ Kept ρ s' := by
  refine ⟨_, rfl, ?_⟩
  try dsimp only
  repeat' (first
    | with_reducible assumption
    | with_reducible apply hIssue_kept
    )

theorem execHMovi_kept {ρ : State} {u : HAt} {g : ℕ} {imm5 : ℕ} {s : State} (hk : Kept ρ s) :
    ∃ s', execHMovi u g imm5 s = .next s' ∧ Kept ρ s' := by
  refine ⟨_, rfl, ?_⟩
  try dsimp only
  repeat' (first
    | with_reducible assumption
    | with_reducible apply hIssue_kept
    )

theorem execHAddi_kept {ρ : State} {u : HAt} {g : ℕ} {imm5 : ℕ} {s : State} (hk : Kept ρ s) :
    ∃ s', execHAddi u g imm5 s = .next s' ∧ Kept ρ s' := by
  refine ⟨_, rfl, ?_⟩
  try dsimp only
  repeat' (first
    | with_reducible assumption
    | with_reducible apply hIssue_kept
    )

theorem execHAdd_kept {ρ : State} {u : HAt} {gd : ℕ} {x : Opd} {s : State} (hk : Kept ρ s) :
    ∃ s', execHAdd u gd x s = .next s' ∧ Kept ρ s' := by
  refine ⟨_, rfl, ?_⟩
  try dsimp only
  repeat' (first
    | with_reducible assumption
    | with_reducible apply hIssue_kept
    )

theorem execHSub_kept {ρ : State} {u : HAt} {gd : ℕ} {x : Opd} {s : State} (hk : Kept ρ s) :
    ∃ s', execHSub u gd x s = .next s' ∧ Kept ρ s' := by
  refine ⟨_, rfl, ?_⟩
  try dsimp only
  repeat' (first
    | with_reducible assumption
    | with_reducible apply hIssue_kept
    )

theorem execHAnd_kept {ρ : State} {u : HAt} {gd : ℕ} {x : Opd} {s : State} (hk : Kept ρ s) :
    ∃ s', execHAnd u gd x s = .next s' ∧ Kept ρ s' := by
  refine ⟨_, rfl, ?_⟩
  try dsimp only
  repeat' (first
    | with_reducible assumption
    | with_reducible apply hIssue_kept
    )

theorem execHOr_kept {ρ : State} {u : HAt} {gd : ℕ} {x : Opd} {s : State} (hk : Kept ρ s) :
    ∃ s', execHOr u gd x s = .next s' ∧ Kept ρ s' := by
  refine ⟨_, rfl, ?_⟩
  try dsimp only
  repeat' (first
    | with_reducible assumption
    | with_reducible apply hIssue_kept
    )

theorem execHXor_kept {ρ : State} {u : HAt} {gd : ℕ} {x : Opd} {s : State} (hk : Kept ρ s) :
    ∃ s', execHXor u gd x s = .next s' ∧ Kept ρ s' := by
  refine ⟨_, rfl, ?_⟩
  try dsimp only
  repeat' (first
    | with_reducible assumption
    | with_reducible apply hIssue_kept
    )

theorem execHShl_kept {ρ : State} {u : HAt} {gd : ℕ} {x : Opd} {s : State} (hk : Kept ρ s) :
    ∃ s', execHShl u gd x s = .next s' ∧ Kept ρ s' := by
  refine ⟨_, rfl, ?_⟩
  try dsimp only
  repeat' (first
    | with_reducible assumption
    | with_reducible apply hIssue_kept
    )

theorem execHShr_kept {ρ : State} {u : HAt} {gd : ℕ} {x : Opd} {s : State} (hk : Kept ρ s) :
    ∃ s', execHShr u gd x s = .next s' ∧ Kept ρ s' := by
  refine ⟨_, rfl, ?_⟩
  try dsimp only
  repeat' (first
    | with_reducible assumption
    | with_reducible apply hIssue_kept
    )

theorem execHAsr_kept {ρ : State} {u : HAt} {gd : ℕ} {x : Opd} {s : State} (hk : Kept ρ s) :
    ∃ s', execHAsr u gd x s = .next s' ∧ Kept ρ s' := by
  refine ⟨_, rfl, ?_⟩
  try dsimp only
  repeat' (first
    | with_reducible assumption
    | with_reducible apply hIssue_kept
    )

theorem execHNot_kept {ρ : State} {u : HAt} {gd : ℕ} {gs : ℕ} {s : State} (hk : Kept ρ s) :
    ∃ s', execHNot u gd gs s = .next s' ∧ Kept ρ s' := by
  refine ⟨_, rfl, ?_⟩
  try dsimp only
  repeat' (first
    | with_reducible assumption
    | with_reducible apply hIssue_kept
    )

theorem execHNeg_kept {ρ : State} {u : HAt} {g : ℕ} {s : State} (hk : Kept ρ s) :
    ∃ s', execHNeg u g s = .next s' ∧ Kept ρ s' := by
  refine ⟨_, rfl, ?_⟩
  try dsimp only
  repeat' (first
    | with_reducible assumption
    | with_reducible apply hIssue_kept
    )

theorem execHSwapb_kept {ρ : State} {u : HAt} {g : ℕ} {s : State} (hk : Kept ρ s) :
    ∃ s', execHSwapb u g s = .next s' ∧ Kept ρ s' := by
  refine ⟨_, rfl, ?_⟩
  try dsimp only
  repeat' (first
    | with_reducible assumption
    | with_reducible apply hIssue_kept
    )

theorem execHCeq_kept {ρ : State} {u : HAt} {gd : ℕ} {x : Opd} {s : State} (hk : Kept ρ s) :
    ∃ s', execHCeq u gd x s = .next s' ∧ Kept ρ s' := by
  refine ⟨_, rfl, ?_⟩
  try dsimp only
  repeat' (first
    | with_reducible assumption
    | with_reducible apply hIssue_kept
    )

theorem execHCne_kept {ρ : State} {u : HAt} {gd : ℕ} {x : Opd} {s : State} (hk : Kept ρ s) :
    ∃ s', execHCne u gd x s = .next s' ∧ Kept ρ s' := by
  refine ⟨_, rfl, ?_⟩
  try dsimp only
  repeat' (first
    | with_reducible assumption
    | with_reducible apply hIssue_kept
    )

theorem execHClt_kept {ρ : State} {u : HAt} {gd : ℕ} {x : Opd} {s : State} (hk : Kept ρ s) :
    ∃ s', execHClt u gd x s = .next s' ∧ Kept ρ s' := by
  refine ⟨_, rfl, ?_⟩
  try dsimp only
  repeat' (first
    | with_reducible assumption
    | with_reducible apply hIssue_kept
    )

theorem execHCltu_kept {ρ : State} {u : HAt} {gd : ℕ} {x : Opd} {s : State} (hk : Kept ρ s) :
    ∃ s', execHCltu u gd x s = .next s' ∧ Kept ρ s' := by
  refine ⟨_, rfl, ?_⟩
  try dsimp only
  repeat' (first
    | with_reducible assumption
    | with_reducible apply hIssue_kept
    )

theorem execHCle_kept {ρ : State} {u : HAt} {gd : ℕ} {x : Opd} {s : State} (hk : Kept ρ s) :
    ∃ s', execHCle u gd x s = .next s' ∧ Kept ρ s' := by
  refine ⟨_, rfl, ?_⟩
  try dsimp only
  repeat' (first
    | with_reducible assumption
    | with_reducible apply hIssue_kept
    )

theorem execHCleu_kept {ρ : State} {u : HAt} {gd : ℕ} {x : Opd} {s : State} (hk : Kept ρ s) :
    ∃ s', execHCleu u gd x s = .next s' ∧ Kept ρ s' := by
  refine ⟨_, rfl, ?_⟩
  try dsimp only
  repeat' (first
    | with_reducible assumption
    | with_reducible apply hIssue_kept
    )

theorem execHCarry_kept {ρ : State} {u : HAt} {gd : ℕ} {gs : ℕ} {s : State} (hk : Kept ρ s) :
    ∃ s', execHCarry u gd gs s = .next s' ∧ Kept ρ s' := by
  refine ⟨_, rfl, ?_⟩
  try dsimp only
  repeat' (first
    | with_reducible assumption
    | with_reducible apply hIssue_kept
    )

theorem execHLd_kept {ρ : State} {u : HAt} {g : ℕ} {a : Opd} {s : State} (hk : Kept ρ s) :
    ∃ s', execHLd u g a s = .next s' ∧ Kept ρ s' := by
  refine ⟨_, rfl, ?_⟩
  try dsimp only
  repeat' (first
    | with_reducible assumption
    | with_reducible apply hIssue_kept
    )

theorem execHLdPostinc_kept {ρ : State} {u : HAt} {g : ℕ} {ga : ℕ} {s : State} (hk : Kept ρ s) :
    ∃ s', execHLdPostinc u g ga s = .next s' ∧ Kept ρ s' := by
  refine ⟨_, rfl, ?_⟩
  try dsimp only
  repeat' (first
    | with_reducible assumption
    | with_reducible apply hIssue_kept
    )

theorem execHSt_kept {ρ : State} {u : HAt} {a : Opd} {g : ℕ} {s : State} (hk : Kept ρ s) :
    ∃ s', execHSt u a g s = .next s' ∧ Kept ρ s' := by
  refine ⟨_, rfl, ?_⟩
  try dsimp only
  repeat' (first
    | with_reducible assumption
    | with_reducible apply hIssue_kept
    )

theorem execHStPostinc_kept {ρ : State} {u : HAt} {ga : ℕ} {g : ℕ} {s : State} (hk : Kept ρ s) :
    ∃ s', execHStPostinc u ga g s = .next s' ∧ Kept ρ s' := by
  refine ⟨_, rfl, ?_⟩
  try dsimp only
  repeat' (first
    | with_reducible assumption
    | with_reducible apply hIssue_kept
    )

theorem execHMul_kept {ρ : State} {u : HAt} {gx : ℕ} {gy : ℕ} {s : State} (hk : Kept ρ s) :
    ∃ s', execHMul u gx gy s = .next s' ∧ Kept ρ s' := by
  refine ⟨_, rfl, ?_⟩
  try dsimp only
  repeat' (first
    | with_reducible assumption
    | with_reducible apply hIssue_kept
    )

theorem execHMac_kept {ρ : State} {u : HAt} {acc : Bool} {gx : ℕ} {gy : ℕ} {s : State} (hk : Kept ρ s) :
    ∃ s', execHMac u acc gx gy s = .next s' ∧ Kept ρ s' := by
  refine ⟨_, rfl, ?_⟩
  try dsimp only
  repeat' (first
    | with_reducible assumption
    | with_reducible apply hIssue_kept
    )

theorem execHMacd_kept {ρ : State} {u : HAt} {acc : Bool} {gx : ℕ} {gy : ℕ} {s : State} (hk : Kept ρ s) :
    ∃ s', execHMacd u acc gx gy s = .next s' ∧ Kept ρ s' := by
  refine ⟨_, rfl, ?_⟩
  try dsimp only
  repeat' (first
    | with_reducible assumption
    | with_reducible apply hIssue_kept
    )

theorem execHMovl_kept {ρ : State} {u : HAt} {g : ℕ} {acc : Bool} {s : State} (hk : Kept ρ s) :
    ∃ s', execHMovl u g acc s = .next s' ∧ Kept ρ s' := by
  refine ⟨_, rfl, ?_⟩
  try dsimp only
  repeat' (first
    | with_reducible assumption
    | with_reducible apply hIssue_kept
    )

theorem execHMovh_kept {ρ : State} {u : HAt} {g : ℕ} {acc : Bool} {s : State} (hk : Kept ρ s) :
    ∃ s', execHMovh u g acc s = .next s' ∧ Kept ρ s' := by
  refine ⟨_, rfl, ?_⟩
  try dsimp only
  repeat' (first
    | with_reducible assumption
    | with_reducible apply hIssue_kept
    )

theorem execHSath_kept {ρ : State} {u : HAt} {g : ℕ} {acc : Bool} {s : State} (hk : Kept ρ s) :
    ∃ s', execHSath u g acc s = .next s' ∧ Kept ρ s' := by
  refine ⟨_, rfl, ?_⟩
  try dsimp only
  repeat' (first
    | with_reducible assumption
    | with_reducible apply hIssue_kept
    )

theorem execHMova_kept {ρ : State} {u : HAt} {acc : Bool} {g : ℕ} {s : State} (hk : Kept ρ s) :
    ∃ s', execHMova u acc g s = .next s' ∧ Kept ρ s' := by
  refine ⟨_, rfl, ?_⟩
  try dsimp only
  repeat' (first
    | with_reducible assumption
    | with_reducible apply hIssue_kept
    )

theorem execHClrAcc_kept {ρ : State} {u : HAt} {acc : Bool} {s : State} (hk : Kept ρ s) :
    ∃ s', execHClrAcc u acc s = .next s' ∧ Kept ρ s' := by
  refine ⟨_, rfl, ?_⟩
  try dsimp only
  repeat' (first
    | with_reducible assumption
    | with_reducible apply hIssue_kept
    )

theorem execHAdda_kept {ρ : State} {u : HAt} {s : State} (hk : Kept ρ s) :
    ∃ s', execHAdda u s = .next s' ∧ Kept ρ s' := by
  refine ⟨_, rfl, ?_⟩
  try dsimp only
  repeat' (first
    | with_reducible assumption
    | with_reducible apply hIssue_kept
    )

theorem execHTli_kept {ρ : State} {u : HAt} {gd : ℕ} {gs : ℕ} {s : State} (hk : Kept ρ s) :
    ∃ s', execHTli u gd gs s = .next s' ∧ Kept ρ s' := by
  refine ⟨_, rfl, ?_⟩
  try dsimp only
  repeat' (first
    | with_reducible assumption
    | with_reducible apply hIssue_kept
    )

theorem execHSetb_kept {ρ : State} {u : HAt} {n : ℕ} {s : State} (hk : Kept ρ s) :
    ∃ s', execHSetb u n s = .next s' ∧ Kept ρ s' := by
  refine ⟨_, rfl, ?_⟩
  try dsimp only
  repeat' (first
    | with_reducible assumption
    | with_reducible apply hIssue_kept
    )

theorem execHClrb_kept {ρ : State} {u : HAt} {n : ℕ} {s : State} (hk : Kept ρ s) :
    ∃ s', execHClrb u n s = .next s' ∧ Kept ρ s' := by
  refine ⟨_, rfl, ?_⟩
  try dsimp only
  repeat' (first
    | with_reducible assumption
    | with_reducible apply hIssue_kept
    )

theorem execHTglb_kept {ρ : State} {u : HAt} {n : ℕ} {s : State} (hk : Kept ρ s) :
    ∃ s', execHTglb u n s = .next s' ∧ Kept ρ s' := by
  refine ⟨_, rfl, ?_⟩
  try dsimp only
  repeat' (first
    | with_reducible assumption
    | with_reducible apply hIssue_kept
    )

theorem execHMovb_kept {ρ : State} {u : HAt} {g : ℕ} {n : ℕ} {s : State} (hk : Kept ρ s) :
    ∃ s', execHMovb u g n s = .next s' ∧ Kept ρ s' := by
  refine ⟨_, rfl, ?_⟩
  try dsimp only
  repeat' (first
    | with_reducible assumption
    | with_reducible apply hIssue_kept
    )

theorem execHStb_kept {ρ : State} {u : HAt} {n : ℕ} {g : ℕ} {s : State} (hk : Kept ρ s) :
    ∃ s', execHStb u n g s = .next s' ∧ Kept ρ s' := by
  refine ⟨_, rfl, ?_⟩
  try dsimp only
  repeat' (first
    | with_reducible assumption
    | with_reducible apply hIssue_kept
    )

theorem execHAndb_kept {ρ : State} {u : HAt} {g : ℕ} {n : ℕ} {s : State} (hk : Kept ρ s) :
    ∃ s', execHAndb u g n s = .next s' ∧ Kept ρ s' := by
  refine ⟨_, rfl, ?_⟩
  try dsimp only
  repeat' (first
    | with_reducible assumption
    | with_reducible apply hIssue_kept
    )

theorem execHOrb_kept {ρ : State} {u : HAt} {g : ℕ} {n : ℕ} {s : State} (hk : Kept ρ s) :
    ∃ s', execHOrb u g n s = .next s' ∧ Kept ρ s' := by
  refine ⟨_, rfl, ?_⟩
  try dsimp only
  repeat' (first
    | with_reducible assumption
    | with_reducible apply hIssue_kept
    )

theorem execHXorb_kept {ρ : State} {u : HAt} {g : ℕ} {n : ℕ} {s : State} (hk : Kept ρ s) :
    ∃ s', execHXorb u g n s = .next s' ∧ Kept ρ s' := by
  refine ⟨_, rfl, ?_⟩
  try dsimp only
  repeat' (first
    | with_reducible assumption
    | with_reducible apply hIssue_kept
    )

theorem execHWaitb_kept {ρ : State} {u : HAt} {n : ℕ} {v : Bool} {s : State} (hk : Kept ρ s) :
    ∃ s', execHWaitb u n v s = .next s' ∧ Kept ρ s' := by
  refine ⟨_, rfl, ?_⟩
  try dsimp only
  repeat' (first
    | with_reducible assumption
    | with_reducible apply hIssue_kept
    )

theorem execHWaitl_kept {ρ : State} {u : HAt} {g : ℕ} {s : State} (hk : Kept ρ s) :
    ∃ s', execHWaitl u g s = .next s' ∧ Kept ρ s' := by
  refine ⟨_, rfl, ?_⟩
  try dsimp only
  repeat' (first
    | with_reducible assumption
    | with_reducible apply hIssue_kept
    )

theorem execHBz_kept {ρ : State} {u : HAt} {g : ℕ} {t : Tgt} {s : State} (hk : Kept ρ s) :
    ∃ s', execHBz u g t s = .next s' ∧ Kept ρ s' := by
  refine ⟨_, rfl, ?_⟩
  try dsimp only
  repeat' (first
    | with_reducible assumption
    | with_reducible apply hIssue_kept
    )

theorem execHBnz_kept {ρ : State} {u : HAt} {g : ℕ} {t : Tgt} {s : State} (hk : Kept ρ s) :
    ∃ s', execHBnz u g t s = .next s' ∧ Kept ρ s' := by
  refine ⟨_, rfl, ?_⟩
  try dsimp only
  repeat' (first
    | with_reducible assumption
    | with_reducible apply hIssue_kept
    )

theorem execHDjnz_kept {ρ : State} {u : HAt} {g : ℕ} {t : Tgt} {s : State} (hk : Kept ρ s) :
    ∃ s', execHDjnz u g t s = .next s' ∧ Kept ρ s' := by
  refine ⟨_, rfl, ?_⟩
  try dsimp only
  repeat' (first
    | with_reducible assumption
    | with_reducible apply hIssue_kept
    )

theorem execHBr_kept {ρ : State} {u : HAt} {t : Tgt} {s : State} (hk : Kept ρ s) :
    ∃ s', execHBr u t s = .next s' ∧ Kept ρ s' := by
  refine ⟨_, rfl, ?_⟩
  try dsimp only
  repeat' (first
    | with_reducible assumption
    | with_reducible apply hIssue_kept
    )

theorem execHJmp_kept {ρ : State} {u : HAt} {t : Tgt} {s : State} (hk : Kept ρ s) :
    ∃ s', execHJmp u t s = .next s' ∧ Kept ρ s' := by
  refine ⟨_, rfl, ?_⟩
  try dsimp only
  repeat' (first
    | with_reducible assumption
    | with_reducible apply hIssue_kept
    )

theorem execHCall_kept {ρ : State} {u : HAt} {t : Tgt} {s : State} (hk : Kept ρ s) :
    ∃ s', execHCall u t s = .next s' ∧ Kept ρ s' := by
  refine ⟨_, rfl, ?_⟩
  try dsimp only
  repeat' (first
    | with_reducible assumption
    | with_reducible apply hIssue_kept
    )

theorem execHRet_kept {ρ : State} {u : HAt} {s : State} (hk : Kept ρ s) :
    ∃ s', execHRet u s = .next s' ∧ Kept ρ s' := by
  refine ⟨_, rfl, ?_⟩
  try dsimp only
  repeat' (first
    | with_reducible assumption
    | with_reducible apply hIssue_kept
    )

theorem execHReti_kept {ρ : State} {u : HAt} {s : State} (hk : Kept ρ s) :
    ∃ s', execHReti u s = .next s' ∧ Kept ρ s' := by
  refine ⟨_, rfl, ?_⟩
  try dsimp only
  repeat' (first
    | with_reducible assumption
    | with_reducible apply hIssue_kept
    )

theorem execHRpt_kept {ρ : State} {u : HAt} {n : ℕ} {s : State} (hk : Kept ρ s) :
    ∃ s', execHRpt u n s = .next s' ∧ Kept ρ s' := by
  refine ⟨_, rfl, ?_⟩
  try dsimp only
  repeat' (first
    | with_reducible assumption
    | with_reducible apply hIssue_kept
    )

theorem execHRpti_kept {ρ : State} {u : HAt} {g : ℕ} {s : State} (hk : Kept ρ s) :
    ∃ s', execHRpti u g s = .next s' ∧ Kept ρ s' := by
  refine ⟨_, rfl, ?_⟩
  try dsimp only
  repeat' (first
    | with_reducible assumption
    | with_reducible apply hIssue_kept
    )

theorem execHMovs_kept {ρ : State} {u : HAt} {s : State} (hk : Kept ρ s) :
    ∃ s', execHMovs u s = .next s' ∧ Kept ρ s' := by
  refine ⟨_, rfl, ?_⟩
  try dsimp only
  repeat' (first
    | with_reducible assumption
    | with_reducible apply hIssue_kept
    )

theorem execHFills_kept {ρ : State} {u : HAt} {s : State} (hk : Kept ρ s) :
    ∃ s', execHFills u s = .next s' ∧ Kept ρ s' := by
  refine ⟨_, rfl, ?_⟩
  try dsimp only
  repeat' (first
    | with_reducible assumption
    | with_reducible apply hIssue_kept
    )

theorem execHCmps_kept {ρ : State} {u : HAt} {s : State} (hk : Kept ρ s) :
    ∃ s', execHCmps u s = .next s' ∧ Kept ρ s' := by
  refine ⟨_, rfl, ?_⟩
  try dsimp only
  repeat' (first
    | with_reducible assumption
    | with_reducible apply hIssue_kept
    )

theorem execHScans_kept {ρ : State} {u : HAt} {s : State} (hk : Kept ρ s) :
    ∃ s', execHScans u s = .next s' ∧ Kept ρ s' := by
  refine ⟨_, rfl, ?_⟩
  try dsimp only
  repeat' (first
    | with_reducible assumption
    | with_reducible apply hIssue_kept
    )

theorem execHEi_kept {ρ : State} {u : HAt} {s : State} (hk : Kept ρ s) :
    ∃ s', execHEi u s = .next s' ∧ Kept ρ s' := by
  refine ⟨_, rfl, ?_⟩
  try dsimp only
  repeat' (first
    | with_reducible assumption
    | with_reducible apply hIssue_kept
    )

theorem execHDi_kept {ρ : State} {u : HAt} {s : State} (hk : Kept ρ s) :
    ∃ s', execHDi u s = .next s' ∧ Kept ρ s' := by
  refine ⟨_, rfl, ?_⟩
  try dsimp only
  repeat' (first
    | with_reducible assumption
    | with_reducible apply hIssue_kept
    )

theorem execHHalt_kept {ρ : State} {u : HAt} {s : State} (hk : Kept ρ s) :
    ∃ s', execHHalt u s = .next s' ∧ Kept ρ s' := by
  refine ⟨_, rfl, ?_⟩
  try dsimp only
  repeat' (first
    | with_reducible assumption
    | with_reducible apply hIssue_kept
    )

theorem execHSvc_kept {ρ : State} {u : HAt} {s : State} (hk : Kept ρ s) :
    ∃ s', execHSvc u s = .next s' ∧ Kept ρ s' := by
  refine ⟨_, rfl, ?_⟩
  try dsimp only
  repeat' (first
    | with_reducible assumption
    | with_reducible apply hIssue_kept
    )

theorem execHTrap_kept {ρ : State} {u : HAt} {s : State} (hk : Kept ρ s) :
    ∃ s', execHTrap u s = .next s' ∧ Kept ρ s' := by
  refine ⟨_, rfl, ?_⟩
  try dsimp only
  repeat' (first
    | with_reducible assumption
    | with_reducible apply hIssue_kept
    )

theorem execIllegalEncoding_kept {ρ : State} {u : HAt} {s : State} (hk : Kept ρ s) :
    ∃ s', execIllegalEncoding u s = .next s' ∧ Kept ρ s' := by
  refine ⟨_, rfl, ?_⟩
  try dsimp only
  repeat' (first
    | with_reducible assumption
    | with_reducible apply hIssue_kept
    )

theorem runFailing_kept {ρ : State} {s : State} {b : ℕ} {h : ℕ} {f : ℕ × Bool × Bool} (hk : Kept ρ s) :
    Kept ρ (runFailing s b h f) := by
  unfold runFailing
  try dsimp only
  repeat' (first
    | with_reducible assumption
    | with_reducible apply State.setHammer_kept
    | with_reducible apply Issue.ended_kept
    | with_reducible apply bitPoll_kept
    | with_reducible apply endWait_kept
    | with_reducible apply issueHere_kept
    | with_reducible apply Kept.done
    | with_reducible apply Kept.stall
    | with_reducible apply Kept.trap
    | with_reducible apply hf
    | with_reducible refine Kept.issue (by assumption) ?_
    | with_reducible refine Kept.issueStall (by assumption) ?_
    | with_reducible refine Kept.issueTrap (by assumption) ?_
    | with_reducible refine Kept.read (by assumption) ?_
    | with_reducible refine Kept.readErr (by assumption) ?_
    | with_reducible refine Kept.readStop (by assumption) ?_
    | with_reducible apply Kept.val
    | with_reducible apply Kept.err
    | with_reducible apply Kept.stop
    | with_reducible refine Issue.andThen_kept ?_ ?_
    | with_reducible refine Kept.fst (by assumption) ?_
    | split
    | intro _
    )

theorem failWithin_kept {ρ : State} {s : State} {b : ℕ} {h : ℕ} {miss : Bool} {write : Bool} (hk : Kept ρ s) :
    Kept ρ (failWithin s b h miss write) := by
  unfold failWithin
  try dsimp only
  repeat' (first
    | with_reducible assumption
    | with_reducible apply runFailing_kept
    | with_reducible apply State.nextFree_kept
    | with_reducible apply State.setHammer_kept
    | with_reducible apply Kept.done
    | with_reducible apply Kept.stall
    | with_reducible apply Kept.trap
    | with_reducible apply hf
    | with_reducible refine Kept.issue (by assumption) ?_
    | with_reducible refine Kept.issueStall (by assumption) ?_
    | with_reducible refine Kept.issueTrap (by assumption) ?_
    | with_reducible refine Kept.read (by assumption) ?_
    | with_reducible refine Kept.readErr (by assumption) ?_
    | with_reducible refine Kept.readStop (by assumption) ?_
    | with_reducible apply Kept.val
    | with_reducible apply Kept.err
    | with_reducible apply Kept.stop
    | with_reducible refine Issue.andThen_kept ?_ ?_
    | with_reducible refine Kept.fst (by assumption) ?_
    | split
    )

theorem loadReturn_kept {ρ : State} {s : State} {b : ℕ} {h : ℕ} {bad : Bool} (hk : Kept ρ s) :
    Kept ρ (loadReturn s b h bad) := by
  unfold loadReturn
  try dsimp only
  repeat' (first
    | with_reducible assumption
    | with_reducible apply fluxFree_kept
    | with_reducible apply failWithin_kept
    | with_reducible apply Issue.state_kept
    | with_reducible apply accessFails_kept
    | with_reducible apply loadDone_kept
    | with_reducible apply settleLoad_kept
    | with_reducible apply Kept.done
    | with_reducible apply Kept.stall
    | with_reducible apply Kept.trap
    | with_reducible apply hf
    | with_reducible refine Kept.issue (by assumption) ?_
    | with_reducible refine Kept.issueStall (by assumption) ?_
    | with_reducible refine Kept.issueTrap (by assumption) ?_
    | with_reducible refine Kept.read (by assumption) ?_
    | with_reducible refine Kept.readErr (by assumption) ?_
    | with_reducible refine Kept.readStop (by assumption) ?_
    | with_reducible apply Kept.val
    | with_reducible apply Kept.err
    | with_reducible apply Kept.stop
    | with_reducible refine Issue.andThen_kept ?_ ?_
    | with_reducible refine Kept.fst (by assumption) ?_
    | split
    )

theorem execLoadReturn_kept {ρ : State} {b : ℕ} {h : ℕ} {bad : Bool} {s : State} (hk : Kept ρ s) :
    ∃ s', execLoadReturn b h bad s = .next s' ∧ Kept ρ s' := by
  refine ⟨_, rfl, ?_⟩
  try dsimp only
  repeat' (first
    | with_reducible assumption
    | with_reducible apply settleSteps_kept
    | with_reducible apply loadReturn_kept
    | with_reducible apply Kept.done
    | with_reducible apply Kept.stall
    | with_reducible apply Kept.trap
    | with_reducible apply hf
    | with_reducible refine Kept.issue (by assumption) ?_
    | with_reducible refine Kept.issueStall (by assumption) ?_
    | with_reducible refine Kept.issueTrap (by assumption) ?_
    | with_reducible refine Kept.read (by assumption) ?_
    | with_reducible refine Kept.readErr (by assumption) ?_
    | with_reducible refine Kept.readStop (by assumption) ?_
    | with_reducible apply Kept.val
    | with_reducible apply Kept.err
    | with_reducible apply Kept.stop
    | with_reducible refine Issue.andThen_kept ?_ ?_
    | with_reducible refine Kept.fst (by assumption) ?_
    | split
    )

theorem storeComplete_kept {ρ : State} {s : State} {b : ℕ} {h : ℕ} {bad : Bool} (hk : Kept ρ s) :
    Kept ρ (storeComplete s b h bad) := by
  unfold storeComplete
  try dsimp only
  repeat' (first
    | with_reducible assumption
    | with_reducible apply storeLands_kept
    | with_reducible apply fluxFree_kept
    | with_reducible apply failWithin_kept
    | with_reducible apply Issue.state_kept
    | with_reducible apply busErr_kept
    | with_reducible apply storeOut_kept
    | with_reducible apply Kept.done
    | with_reducible apply Kept.stall
    | with_reducible apply Kept.trap
    | with_reducible apply hf
    | with_reducible refine Kept.issue (by assumption) ?_
    | with_reducible refine Kept.issueStall (by assumption) ?_
    | with_reducible refine Kept.issueTrap (by assumption) ?_
    | with_reducible refine Kept.read (by assumption) ?_
    | with_reducible refine Kept.readErr (by assumption) ?_
    | with_reducible refine Kept.readStop (by assumption) ?_
    | with_reducible apply Kept.val
    | with_reducible apply Kept.err
    | with_reducible apply Kept.stop
    | with_reducible refine Issue.andThen_kept ?_ ?_
    | with_reducible refine Kept.fst (by assumption) ?_
    | split
    )

theorem execStoreComplete_kept {ρ : State} {b : ℕ} {h : ℕ} {bad : Bool} {s : State} (hk : Kept ρ s) :
    ∃ s', execStoreComplete b h bad s = .next s' ∧ Kept ρ s' := by
  refine ⟨_, rfl, ?_⟩
  try dsimp only
  repeat' (first
    | with_reducible assumption
    | with_reducible apply settleSteps_kept
    | with_reducible apply storeComplete_kept
    | with_reducible apply Kept.done
    | with_reducible apply Kept.stall
    | with_reducible apply Kept.trap
    | with_reducible apply hf
    | with_reducible refine Kept.issue (by assumption) ?_
    | with_reducible refine Kept.issueStall (by assumption) ?_
    | with_reducible refine Kept.issueTrap (by assumption) ?_
    | with_reducible refine Kept.read (by assumption) ?_
    | with_reducible refine Kept.readErr (by assumption) ?_
    | with_reducible refine Kept.readStop (by assumption) ?_
    | with_reducible apply Kept.val
    | with_reducible apply Kept.err
    | with_reducible apply Kept.stop
    | with_reducible refine Issue.andThen_kept ?_ ?_
    | with_reducible refine Kept.fst (by assumption) ?_
    | split
    )

theorem loadMiss_kept {ρ : State} {s : State} {b : ℕ} {h : ℕ} {l : PendLoad} (hk : Kept ρ s) :
    Kept ρ (loadMiss s b h l) := by
  unfold loadMiss
  try dsimp only
  repeat' (first
    | with_reducible assumption
    | with_reducible apply Issue.state_kept
    | with_reducible apply accessMiss_kept
    | with_reducible apply loadDone_kept
    )

theorem storeMiss_kept {ρ : State} {s : State} {b : ℕ} {h : ℕ} {t : PendStore} (hk : Kept ρ s) :
    Kept ρ (storeMiss s b h t) := by
  unfold storeMiss
  try dsimp only
  repeat' (first
    | with_reducible assumption
    | with_reducible apply Issue.state_kept
    | with_reducible apply accessMiss_kept
    | with_reducible apply storeOut_kept
    )

theorem accessDeadline_kept {ρ : State} {s : State} {b : ℕ} {h : ℕ} {load : Bool} (hk : Kept ρ s) :
    Kept ρ (accessDeadline s b h load) := by
  unfold accessDeadline
  try dsimp only
  repeat' (first
    | with_reducible assumption
    | with_reducible apply loadMiss_kept
    | with_reducible apply failWithin_kept
    | with_reducible apply storeMiss_kept
    | with_reducible apply Kept.done
    | with_reducible apply Kept.stall
    | with_reducible apply Kept.trap
    | with_reducible apply hf
    | with_reducible refine Kept.issue (by assumption) ?_
    | with_reducible refine Kept.issueStall (by assumption) ?_
    | with_reducible refine Kept.issueTrap (by assumption) ?_
    | with_reducible refine Kept.read (by assumption) ?_
    | with_reducible refine Kept.readErr (by assumption) ?_
    | with_reducible refine Kept.readStop (by assumption) ?_
    | with_reducible apply Kept.val
    | with_reducible apply Kept.err
    | with_reducible apply Kept.stop
    | with_reducible refine Issue.andThen_kept ?_ ?_
    | with_reducible refine Kept.fst (by assumption) ?_
    | split
    )

theorem execAccessDeadlineMiss_kept {ρ : State} {b : ℕ} {h : ℕ} {load : Bool} {s : State} (hk : Kept ρ s) :
    ∃ s', execAccessDeadlineMiss b h load s = .next s' ∧ Kept ρ s' := by
  refine ⟨_, rfl, ?_⟩
  try dsimp only
  repeat' (first
    | with_reducible assumption
    | with_reducible apply settleSteps_kept
    | with_reducible apply accessDeadline_kept
    | with_reducible apply Kept.done
    | with_reducible apply Kept.stall
    | with_reducible apply Kept.trap
    | with_reducible apply hf
    | with_reducible refine Kept.issue (by assumption) ?_
    | with_reducible refine Kept.issueStall (by assumption) ?_
    | with_reducible refine Kept.issueTrap (by assumption) ?_
    | with_reducible refine Kept.read (by assumption) ?_
    | with_reducible refine Kept.readErr (by assumption) ?_
    | with_reducible refine Kept.readStop (by assumption) ?_
    | with_reducible apply Kept.val
    | with_reducible apply Kept.err
    | with_reducible apply Kept.stop
    | with_reducible refine Issue.andThen_kept ?_ ?_
    | with_reducible refine Kept.fst (by assumption) ?_
    | split
    )

theorem waitCheck_kept {ρ : State} {s : State} {b : ℕ} {h : ℕ} (hk : Kept ρ s) :
    Kept ρ (waitCheck s b h) := by
  unfold waitCheck
  try dsimp only
  repeat' (first
    | with_reducible assumption
    | with_reducible apply endWait_kept
    | with_reducible apply Issue.state_kept
    | with_reducible apply bitPoll_kept
    | with_reducible apply Kept.done
    | with_reducible apply Kept.stall
    | with_reducible apply Kept.trap
    | with_reducible apply hf
    | with_reducible refine Kept.issue (by assumption) ?_
    | with_reducible refine Kept.issueStall (by assumption) ?_
    | with_reducible refine Kept.issueTrap (by assumption) ?_
    | with_reducible refine Kept.read (by assumption) ?_
    | with_reducible refine Kept.readErr (by assumption) ?_
    | with_reducible refine Kept.readStop (by assumption) ?_
    | with_reducible apply Kept.val
    | with_reducible apply Kept.err
    | with_reducible apply Kept.stop
    | with_reducible refine Issue.andThen_kept ?_ ?_
    | with_reducible refine Kept.fst (by assumption) ?_
    | split
    | intro _
    )

theorem execWaitConditionMet_kept {ρ : State} {b : ℕ} {h : ℕ} {s : State} (hk : Kept ρ s) :
    ∃ s', execWaitConditionMet b h s = .next s' ∧ Kept ρ s' := by
  refine ⟨_, rfl, ?_⟩
  try dsimp only
  repeat' (first
    | with_reducible assumption
    | with_reducible apply settleSteps_kept
    | with_reducible apply waitCheck_kept
    | with_reducible apply Kept.done
    | with_reducible apply Kept.stall
    | with_reducible apply Kept.trap
    | with_reducible apply hf
    | with_reducible refine Kept.issue (by assumption) ?_
    | with_reducible refine Kept.issueStall (by assumption) ?_
    | with_reducible refine Kept.issueTrap (by assumption) ?_
    | with_reducible refine Kept.read (by assumption) ?_
    | with_reducible refine Kept.readErr (by assumption) ?_
    | with_reducible refine Kept.readStop (by assumption) ?_
    | with_reducible apply Kept.val
    | with_reducible apply Kept.err
    | with_reducible apply Kept.stop
    | with_reducible refine Issue.andThen_kept ?_ ?_
    | with_reducible refine Kept.fst (by assumption) ?_
    | split
    )

theorem storesOverdue_kept {ρ : State} {x0 : ℕ} {x1 : State} {x2 : ℕ} {x3 : ℕ} (hk : Kept ρ x1) :
    Kept ρ (storesOverdue x0 x1 x2 x3) := by
  induction x0 generalizing x1 x2 x3 with
  | zero =>
    unfold storesOverdue
    try dsimp only
    repeat' (with_reducible assumption)
  | succ m ih =>
    unfold storesOverdue
    try dsimp only
    repeat' (first
      | with_reducible assumption
      | with_reducible apply storeMiss_kept
      | with_reducible apply Kept.done
      | with_reducible apply Kept.stall
      | with_reducible apply Kept.trap
      | with_reducible apply hf
      | with_reducible refine Kept.issue (by assumption) ?_
      | with_reducible refine Kept.issueStall (by assumption) ?_
      | with_reducible refine Kept.issueTrap (by assumption) ?_
      | with_reducible refine Kept.read (by assumption) ?_
      | with_reducible refine Kept.readErr (by assumption) ?_
      | with_reducible refine Kept.readStop (by assumption) ?_
      | with_reducible apply Kept.val
      | with_reducible apply Kept.err
      | with_reducible apply Kept.stop
      | with_reducible refine Issue.andThen_kept ?_ ?_
      | with_reducible apply ih
      | with_reducible refine Kept.fst (by assumption) ?_
      | split
      )

theorem hammerOverdue_kept {ρ : State} {s : State} {b : ℕ} {h : ℕ} (hk : Kept ρ s) :
    Kept ρ (hammerOverdue s b h) := by
  unfold hammerOverdue
  try dsimp only
  repeat' (first
    | with_reducible assumption
    | with_reducible apply waitMiss_kept
    | with_reducible apply loadMiss_kept
    | with_reducible apply storesOverdue_kept
    | with_reducible apply Kept.done
    | with_reducible apply Kept.stall
    | with_reducible apply Kept.trap
    | with_reducible apply hf
    | with_reducible refine Kept.issue (by assumption) ?_
    | with_reducible refine Kept.issueStall (by assumption) ?_
    | with_reducible refine Kept.issueTrap (by assumption) ?_
    | with_reducible refine Kept.read (by assumption) ?_
    | with_reducible refine Kept.readErr (by assumption) ?_
    | with_reducible refine Kept.readStop (by assumption) ?_
    | with_reducible apply Kept.val
    | with_reducible apply Kept.err
    | with_reducible apply Kept.stop
    | with_reducible refine Issue.andThen_kept ?_ ?_
    | with_reducible refine Kept.fst (by assumption) ?_
    | split
    )

theorem hammersOverdue_kept {ρ : State} {s : State} (hk : Kept ρ s) :
    Kept ρ (hammersOverdue s) := by
  unfold hammersOverdue
  try dsimp only
  repeat' (first
    | with_reducible assumption
    | with_reducible apply hammerOverdue_kept
    | with_reducible apply Kept.done
    | with_reducible apply Kept.stall
    | with_reducible apply Kept.trap
    | with_reducible apply hf
    | with_reducible refine Kept.issue (by assumption) ?_
    | with_reducible refine Kept.issueStall (by assumption) ?_
    | with_reducible refine Kept.issueTrap (by assumption) ?_
    | with_reducible refine Kept.read (by assumption) ?_
    | with_reducible refine Kept.readErr (by assumption) ?_
    | with_reducible refine Kept.readStop (by assumption) ?_
    | with_reducible apply Kept.val
    | with_reducible apply Kept.err
    | with_reducible apply Kept.stop
    | with_reducible refine Issue.andThen_kept ?_ ?_
    | with_reducible apply Kept.foldl
    | with_reducible apply Kept.foldlFst
    | with_reducible refine Kept.fst (by assumption) ?_
    | split
    | intro _
    )

theorem hammersFrame_kept {ρ : State} {s : State} (hk : Kept ρ s) :
    Kept ρ (hammersFrame s) := by
  unfold hammersFrame
  try dsimp only
  repeat' (first
    | with_reducible assumption
    | with_reducible apply Kept.done
    | with_reducible apply Kept.stall
    | with_reducible apply Kept.trap
    | with_reducible apply hf
    | with_reducible refine Kept.issue (by assumption) ?_
    | with_reducible refine Kept.issueStall (by assumption) ?_
    | with_reducible refine Kept.issueTrap (by assumption) ?_
    | with_reducible refine Kept.read (by assumption) ?_
    | with_reducible refine Kept.readErr (by assumption) ?_
    | with_reducible refine Kept.readStop (by assumption) ?_
    | with_reducible apply Kept.val
    | with_reducible apply Kept.err
    | with_reducible apply Kept.stop
    | with_reducible refine Issue.andThen_kept ?_ ?_
    | with_reducible refine Kept.fst (by assumption) ?_
    | (unfold Kept Inv; dsimp only; refine (show Kept _ _ from ?_); with_reducible assumption)
    )

theorem execHammerStep_kept {ρ : State} {who : Who} {b : ℕ} {h : ℕ} {s : State} (hk : Kept ρ s) :
    ∃ s', execHammerStep who b h s = .next s' ∧ Kept ρ s' := by
  refine ⟨_, rfl, ?_⟩
  try dsimp only
  repeat' (first
    | with_reducible assumption
    | with_reducible apply settleSteps_kept
    | with_reducible apply guarded_kept
    | with_reducible apply stepHammer_kept
    | with_reducible apply Kept.done
    | with_reducible apply Kept.stall
    | with_reducible apply Kept.trap
    | with_reducible apply hf
    | with_reducible refine Kept.issue (by assumption) ?_
    | with_reducible refine Kept.issueStall (by assumption) ?_
    | with_reducible refine Kept.issueTrap (by assumption) ?_
    | with_reducible refine Kept.read (by assumption) ?_
    | with_reducible refine Kept.readErr (by assumption) ?_
    | with_reducible refine Kept.readStop (by assumption) ?_
    | with_reducible apply Kept.val
    | with_reducible apply Kept.err
    | with_reducible apply Kept.stop
    | with_reducible refine Issue.andThen_kept ?_ ?_
    | with_reducible refine Kept.fst (by assumption) ?_
    | split
    | intro _
    )

end Sys2Proof.Machine
end

