-- ==== Sys2Proof/Laws/KeptFlux.lean ====
section
/-! SUPPORT. What the operations of Machine/Flux.lean keep. -/

namespace Sys2Proof.Machine

theorem burstRead_kept {ρ : State} {s : State} {b : ℕ} {c : ℕ} {x : Tongs} {n : ℕ} (hk : Kept ρ s) :
    Kept ρ (burstRead s b c x n).1 := by
  unfold burstRead
  try dsimp only
  repeat' (first
    | with_reducible assumption
    | with_reducible apply takeRead_kept
    | with_reducible apply busRead_kept
    | with_reducible apply Kept.done
    | with_reducible apply Kept.stall
    | with_reducible apply Kept.trap
    | with_reducible apply hf
    | with_reducible refine Kept.issue (by assumption) ?_
    | with_reducible refine Kept.issueStall (by assumption) ?_
    | with_reducible refine Kept.issueTrap (by assumption) ?_
    | with_reducible refine Kept.read (by assumption) ?_
    | with_reducible refine Kept.readErr (by assumption) ?_
    | with_reducible refine Kept.readStop (by assumption) ?_
    | with_reducible apply Kept.val
    | with_reducible apply Kept.err
    | with_reducible apply Kept.stop
    | with_reducible refine Issue.andThen_kept ?_ ?_
    | with_reducible refine Kept.fst (by assumption) ?_
    | split
    )

theorem burstWrite_kept
    {ρ s t : State} {b : Nat} {x : Tongs} {l : List Word} (hk : Kept ρ s) (e : burstWrite s b x l = some t) : Kept ρ t := by
  unfold burstWrite at e
  dsimp only at e
  split at e
  · split at e
    · cases e
      exact memStore_kept hk
    · cases e
  · split at e
    · cases e
      exact State.hwrite_kept hk
    · cases e
  · cases e
    exact Kept.foldl (fun _ _ h => busWrite_kept h) hk

theorem moveBurst_kept {ρ s : State} {b c n : Nat} (hk : Kept ρ s) : Kept ρ (moveBurst b c n s) := by
  unfold moveBurst
  dsimp only
  split
  · exact tngError_kept (burstRead_kept hk)
  · split
    · exact tngError_kept (burstRead_kept hk)
    · rename_i h
      have h1 := burstWrite_kept (burstRead_kept hk) h
      exact ite_kept (State.setTong_kept h1) h1

theorem unitDone_kept {ρ : State} {s : State} {b : ℕ} {c : ℕ} (hk : Kept ρ s) :
    Kept ρ (unitDone s b c) := by
  unfold unitDone
  try dsimp only
  repeat' (first
    | with_reducible assumption
    | with_reducible apply tngUnitEnd_kept
    | with_reducible apply State.addReg_kept
    )

theorem descriptorEnd_kept {ρ : State} {s : State} {b : ℕ} {c : ℕ} (hk : Kept ρ s) :
    Kept ρ (descriptorEnd s b c) := by
  unfold descriptorEnd
  try dsimp only
  repeat' (first
    | with_reducible assumption
    | with_reducible apply State.hwrite_kept
    | with_reducible apply tngStat_kept
    | with_reducible apply tngLoad_kept
    | with_reducible apply State.setTong_kept
    | with_reducible apply unitDone_kept
    | with_reducible apply tngChainEnd_kept
    | with_reducible apply Kept.done
    | with_reducible apply Kept.stall
    | with_reducible apply Kept.trap
    | with_reducible apply hf
    | with_reducible refine Kept.issue (by assumption) ?_
    | with_reducible refine Kept.issueStall (by assumption) ?_
    | with_reducible refine Kept.issueTrap (by assumption) ?_
    | with_reducible refine Kept.read (by assumption) ?_
    | with_reducible refine Kept.readErr (by assumption) ?_
    | with_reducible refine Kept.readStop (by assumption) ?_
    | with_reducible apply Kept.val
    | with_reducible apply Kept.err
    | with_reducible apply Kept.stop
    | with_reducible refine Issue.andThen_kept ?_ ?_
    | with_reducible refine Kept.fst (by assumption) ?_
    | split
    )

theorem afterBurst_kept {ρ : State} {s : State} {b : ℕ} {c : ℕ} (hk : Kept ρ s) :
    Kept ρ (afterBurst s b c) := by
  unfold afterBurst
  try dsimp only
  repeat' (first
    | with_reducible assumption
    | with_reducible apply tngShow_kept
    | with_reducible apply State.setTong_kept
    | with_reducible apply unitDone_kept
    | with_reducible apply descriptorEnd_kept
    | with_reducible apply Kept.done
    | with_reducible apply Kept.stall
    | with_reducible apply Kept.trap
    | with_reducible apply hf
    | with_reducible refine Kept.issue (by assumption) ?_
    | with_reducible refine Kept.issueStall (by assumption) ?_
    | with_reducible refine Kept.issueTrap (by assumption) ?_
    | with_reducible refine Kept.read (by assumption) ?_
    | with_reducible refine Kept.readErr (by assumption) ?_
    | with_reducible refine Kept.readStop (by assumption) ?_
    | with_reducible apply Kept.val
    | with_reducible apply Kept.err
    | with_reducible apply Kept.stop
    | with_reducible refine Issue.andThen_kept ?_ ?_
    | with_reducible refine Kept.fst (by assumption) ?_
    | split
    )

theorem tngIssue_kept {ρ : State} {s : State} {b : ℕ} {c : ℕ} (hk : Kept ρ s) :
    Kept ρ (tngIssue s b c) := by
  unfold tngIssue
  try dsimp only
  repeat' (first
    | with_reducible assumption
    | with_reducible apply issueReads_kept
    | with_reducible apply Kept.done
    | with_reducible apply Kept.stall
    | with_reducible apply Kept.trap
    | with_reducible apply hf
    | with_reducible refine Kept.issue (by assumption) ?_
    | with_reducible refine Kept.issueStall (by assumption) ?_
    | with_reducible refine Kept.issueTrap (by assumption) ?_
    | with_reducible refine Kept.read (by assumption) ?_
    | with_reducible refine Kept.readErr (by assumption) ?_
    | with_reducible refine Kept.readStop (by assumption) ?_
    | with_reducible apply Kept.val
    | with_reducible apply Kept.err
    | with_reducible apply Kept.stop
    | with_reducible refine Issue.andThen_kept ?_ ?_
    | with_reducible refine Kept.fst (by assumption) ?_
    | split
    )

theorem tngBurst_kept {ρ : State} {s : State} {b : ℕ} {c : ℕ} (hk : Kept ρ s) :
    Kept ρ (tngBurst s b c) := by
  unfold tngBurst
  try dsimp only
  repeat' (first
    | with_reducible assumption
    | with_reducible apply fluxCount_kept
    | with_reducible apply fluxSet_kept
    | with_reducible apply tngIssue_kept
    | with_reducible apply afterBurst_kept
    | with_reducible apply moveBurst_kept
    | with_reducible apply Kept.done
    | with_reducible apply Kept.stall
    | with_reducible apply Kept.trap
    | with_reducible apply hf
    | with_reducible refine Kept.issue (by assumption) ?_
    | with_reducible refine Kept.issueStall (by assumption) ?_
    | with_reducible refine Kept.issueTrap (by assumption) ?_
    | with_reducible refine Kept.read (by assumption) ?_
    | with_reducible refine Kept.readErr (by assumption) ?_
    | with_reducible refine Kept.readStop (by assumption) ?_
    | with_reducible apply Kept.val
    | with_reducible apply Kept.err
    | with_reducible apply Kept.stop
    | with_reducible refine Issue.andThen_kept ?_ ?_
    | with_reducible refine Kept.fst (by assumption) ?_
    | split
    )

theorem execTongsBurstComplete_kept {ρ : State} {b : ℕ} {ch : ℕ} {s : State} (hk : Kept ρ s) :
    ∃ s', execTongsBurstComplete b ch s = .next s' ∧ Kept ρ s' := by
  refine ⟨_, rfl, ?_⟩
  try dsimp only
  repeat' (first
    | with_reducible assumption
    | with_reducible apply settleSteps_kept
    | with_reducible apply tngBurst_kept
    | with_reducible apply Kept.done
    | with_reducible apply Kept.stall
    | with_reducible apply Kept.trap
    | with_reducible apply hf
    | with_reducible refine Kept.issue (by assumption) ?_
    | with_reducible refine Kept.issueStall (by assumption) ?_
    | with_reducible refine Kept.issueTrap (by assumption) ?_
    | with_reducible refine Kept.read (by assumption) ?_
    | with_reducible refine Kept.readErr (by assumption) ?_
    | with_reducible refine Kept.readStop (by assumption) ?_
    | with_reducible apply Kept.val
    | with_reducible apply Kept.err
    | with_reducible apply Kept.stop
    | with_reducible refine Issue.andThen_kept ?_ ?_
    | with_reducible refine Kept.fst (by assumption) ?_
    | split
    )

theorem fluxPerform_kept {ρ : State} {s : State} {b : ℕ} {dst : ℕ} {rw : Option Word} {addr : ℕ} (hk : Kept ρ s) :
    Kept ρ (fluxPerform s b dst rw addr) := by
  unfold fluxPerform
  try dsimp only
  repeat' (first
    | with_reducible assumption
    | with_reducible apply busWrite_kept
    | with_reducible apply busRead_kept
    | with_reducible apply memStore_kept
    | with_reducible apply memRead_kept
    | with_reducible apply State.hwrite_kept
    | with_reducible apply Kept.done
    | with_reducible apply Kept.stall
    | with_reducible apply Kept.trap
    | with_reducible apply hf
    | with_reducible refine Kept.issue (by assumption) ?_
    | with_reducible refine Kept.issueStall (by assumption) ?_
    | with_reducible refine Kept.issueTrap (by assumption) ?_
    | with_reducible refine Kept.read (by assumption) ?_
    | with_reducible refine Kept.readErr (by assumption) ?_
    | with_reducible refine Kept.readStop (by assumption) ?_
    | with_reducible apply Kept.val
    | with_reducible apply Kept.err
    | with_reducible apply Kept.stop
    | with_reducible refine Issue.andThen_kept ?_ ?_
    | with_reducible refine Kept.fst (by assumption) ?_
    | split
    )

theorem fluxRequest_kept {ρ : State} {s : State} {b : ℕ} {dst : ℕ} {rw : Option Word} {addr : ℕ} {margin : ℕ} {poisoned : Bool} (hk : Kept ρ s) :
    Kept ρ (fluxRequest s b dst rw addr margin poisoned) := by
  unfold fluxRequest
  try dsimp only
  repeat' (first
    | with_reducible assumption
    | with_reducible apply fluxCount_kept
    | with_reducible apply fluxSet_kept
    | with_reducible apply fluxPerform_kept
    | with_reducible apply Kept.done
    | with_reducible apply Kept.stall
    | with_reducible apply Kept.trap
    | with_reducible apply hf
    | with_reducible refine Kept.issue (by assumption) ?_
    | with_reducible refine Kept.issueStall (by assumption) ?_
    | with_reducible refine Kept.issueTrap (by assumption) ?_
    | with_reducible refine Kept.read (by assumption) ?_
    | with_reducible refine Kept.readErr (by assumption) ?_
    | with_reducible refine Kept.readStop (by assumption) ?_
    | with_reducible apply Kept.val
    | with_reducible apply Kept.err
    | with_reducible apply Kept.stop
    | with_reducible refine Issue.andThen_kept ?_ ?_
    | with_reducible refine Kept.fst (by assumption) ?_
    | split
    )

theorem execFluxRequest_kept {ρ : State} {b : ℕ} {dst : ℕ} {rw : Option Word} {addr : ℕ} {margin : ℕ} {poisoned : Bool} {s : State} (hk : Kept ρ s) :
    ∃ s', execFluxRequest b dst rw addr margin poisoned s = .next s' ∧ Kept ρ s' := by
  refine ⟨_, rfl, ?_⟩
  try dsimp only
  repeat' (first
    | with_reducible assumption
    | with_reducible apply settleSteps_kept
    | with_reducible apply fluxRequest_kept
    | with_reducible apply Kept.done
    | with_reducible apply Kept.stall
    | with_reducible apply Kept.trap
    | with_reducible apply hf
    | with_reducible refine Kept.issue (by assumption) ?_
    | with_reducible refine Kept.issueStall (by assumption) ?_
    | with_reducible refine Kept.issueTrap (by assumption) ?_
    | with_reducible refine Kept.read (by assumption) ?_
    | with_reducible refine Kept.readErr (by assumption) ?_
    | with_reducible refine Kept.readStop (by assumption) ?_
    | with_reducible apply Kept.val
    | with_reducible apply Kept.err
    | with_reducible apply Kept.stop
    | with_reducible refine Issue.andThen_kept ?_ ?_
    | with_reducible refine Kept.fst (by assumption) ?_
    | split
    )

theorem fluxResponse_kept {ρ : State} {s : State} {b : ℕ} {late : Bool} {poisoned : Bool} (hk : Kept ρ s) :
    Kept ρ (fluxResponse s b late poisoned) := by
  unfold fluxResponse
  try dsimp only
  repeat' (first
    | with_reducible assumption
    | with_reducible apply fluxSet_kept
    | with_reducible apply fluxCount_kept
    | with_reducible apply Kept.done
    | with_reducible apply Kept.stall
    | with_reducible apply Kept.trap
    | with_reducible apply hf
    | with_reducible refine Kept.issue (by assumption) ?_
    | with_reducible refine Kept.issueStall (by assumption) ?_
    | with_reducible refine Kept.issueTrap (by assumption) ?_
    | with_reducible refine Kept.read (by assumption) ?_
    | with_reducible refine Kept.readErr (by assumption) ?_
    | with_reducible refine Kept.readStop (by assumption) ?_
    | with_reducible apply Kept.val
    | with_reducible apply Kept.err
    | with_reducible apply Kept.stop
    | with_reducible refine Issue.andThen_kept ?_ ?_
    | with_reducible refine Kept.fst (by assumption) ?_
    | split
    )

theorem execFluxResponse_kept {ρ : State} {b : ℕ} {late : Bool} {poisoned : Bool} {s : State} (hk : Kept ρ s) :
    ∃ s', execFluxResponse b late poisoned s = .next s' ∧ Kept ρ s' := by
  refine ⟨_, rfl, ?_⟩
  try dsimp only
  repeat' (first
    | with_reducible assumption
    | with_reducible apply fluxResponse_kept
    | with_reducible apply Kept.done
    | with_reducible apply Kept.stall
    | with_reducible apply Kept.trap
    | with_reducible apply hf
    | with_reducible refine Kept.issue (by assumption) ?_
    | with_reducible refine Kept.issueStall (by assumption) ?_
    | with_reducible refine Kept.issueTrap (by assumption) ?_
    | with_reducible refine Kept.read (by assumption) ?_
    | with_reducible refine Kept.readErr (by assumption) ?_
    | with_reducible refine Kept.readStop (by assumption) ?_
    | with_reducible apply Kept.val
    | with_reducible apply Kept.err
    | with_reducible apply Kept.stop
    | with_reducible refine Issue.andThen_kept ?_ ?_
    | with_reducible refine Kept.fst (by assumption) ?_
    | split
    )

end Sys2Proof.Machine
end

