-- ==== Sys2Proof/Laws/KeptBoot.lean ====
section
/-! SUPPORT. What the operations of Machine/Boot.lean keep. -/

namespace Sys2Proof.Machine

theorem setBoot_kept {ρ : State} {s : State} {x : Boot} (hk : Kept ρ s) :
    Kept ρ (setBoot s x) := by
  unfold setBoot
  try dsimp only
  repeat' (first
    | with_reducible assumption
    | with_reducible refine Kept.fst (by assumption) ?_
    | (unfold Kept Inv; dsimp only; refine (show Kept _ _ from ?_); with_reducible assumption)
    )

theorem bootTrain_kept {ρ : State} {s : State} {cfg : ℕ} (hk : Kept ρ s) :
    Kept ρ (bootTrain s cfg) := by
  unfold bootTrain
  try dsimp only
  repeat' (first
    | with_reducible assumption
    | with_reducible apply setBoot_kept
    | with_reducible apply State.eachBillet_kept
    | with_reducible apply memTrain_kept
    | with_reducible apply State.setReg_kept
    | with_reducible refine Kept.fst (by assumption) ?_
    | split
    | intro _
    )

theorem bootFail_kept {ρ : State} {s : State} {err : ℕ} (hk : Kept ρ s) :
    Kept ρ (bootFail s err) := by
  unfold bootFail
  try dsimp only
  repeat' (first
    | with_reducible assumption
    | with_reducible apply State.setRf_kept
    | with_reducible apply setBoot_kept
    | with_reducible apply bootTrain_kept
    | with_reducible apply State.orReg_kept
    | with_reducible refine Kept.fst (by assumption) ?_
    | split
    )

theorem bootHostStep_kept {ρ : State} {s : State} {ok : Bool} (hk : Kept ρ s) :
    Kept ρ (bootHostStep s ok) := by
  unfold bootHostStep
  try dsimp only
  repeat' (first
    | with_reducible assumption
    | with_reducible apply bootFail_kept
    | with_reducible apply setBoot_kept
    | with_reducible apply State.orReg_kept
    | with_reducible apply bootTrain_kept
    | with_reducible refine Kept.fst (by assumption) ?_
    | split
    )

theorem bootFlashStep_kept {ρ : State} {s : State} {ok : Bool} (hk : Kept ρ s) :
    Kept ρ (bootFlashStep s ok) := by
  unfold bootFlashStep
  try dsimp only
  repeat' (first
    | with_reducible assumption
    | with_reducible apply bootFail_kept
    | with_reducible apply bootTrain_kept
    | with_reducible apply setBoot_kept
    | with_reducible refine Kept.fst (by assumption) ?_
    | split
    )

theorem bootTrainStep_kept {ρ : State} {s : State} (hk : Kept ρ s) :
    Kept ρ (bootTrainStep s) := by
  unfold bootTrainStep
  try dsimp only
  repeat' (first
    | with_reducible assumption
    | with_reducible apply bootFail_kept
    | with_reducible apply setBoot_kept
    | with_reducible refine Kept.fst (by assumption) ?_
    | split
    )

theorem bootCopyStep_kept {ρ : State} {s : State} {ok : Bool} (hk : Kept ρ s) :
    Kept ρ (bootCopyStep s ok) := by
  unfold bootCopyStep
  try dsimp only
  repeat' (first
    | with_reducible assumption
    | with_reducible apply bootFail_kept
    | with_reducible apply State.gwrite_kept
    | with_reducible apply setBoot_kept
    | with_reducible refine Kept.fst (by assumption) ?_
    | split
    )

theorem bootAuthStep_kept {ρ : State} {s : State} (hk : Kept ρ s) :
    Kept ρ (bootAuthStep s) := by
  unfold bootAuthStep
  try dsimp only
  repeat' (first
    | with_reducible assumption
    | with_reducible apply bootFail_kept
    | with_reducible apply setBoot_kept
    | with_reducible apply State.orReg_kept
    | with_reducible refine Kept.fst (by assumption) ?_
    | split
    )

theorem eachHalf_kept {ρ : State} {f : State → ℕ → ℕ → State} (hf : ∀ s v0 v1, Kept ρ s → Kept ρ (f s v0 v1)) {x1 : ℕ} {x2 : ℕ} {x3 : List Byte} {x4 : State} (hk : Kept ρ x4) :
    Kept ρ (eachHalf f x1 x2 x3 x4) := by
  induction x1 generalizing f x2 x3 x4 with
  | zero =>
    unfold eachHalf
    try dsimp only
    repeat' (with_reducible assumption)
  | succ m ih =>
    unfold eachHalf
    try dsimp only
    repeat' (first
      | with_reducible assumption
      | with_reducible apply hf
      | with_reducible apply ih
      | with_reducible refine Kept.fst (by assumption) ?_
      | split
      )

theorem eachWrite_kept {ρ : State} {x0 : ℕ} {x1 : List Byte} {x2 : State} (hk : Kept ρ x2) :
    Kept ρ (eachWrite x0 x1 x2) := by
  induction x0 generalizing x1 x2 with
  | zero =>
    unfold eachWrite
    try dsimp only
    repeat' (with_reducible assumption)
  | succ m ih =>
    unfold eachWrite
    try dsimp only
    repeat' (first
      | with_reducible assumption
      | with_reducible apply busWrite_kept
      | with_reducible apply ih
      | with_reducible refine Kept.fst (by assumption) ?_
      | split
      )

theorem writeSection_kept {ρ : State} {s : State} {i : ℕ} (hk : Kept ρ s) :
    Kept ρ (writeSection s i) := by
  unfold writeSection
  try dsimp only
  repeat' (first
    | with_reducible assumption
    | with_reducible apply State.gwrite_kept
    | with_reducible apply State.hwrite_kept
    | with_reducible apply eachHalf_kept
    | with_reducible apply setProgWord_kept
    | with_reducible apply setBankWord_kept
    | with_reducible apply eachWrite_kept
    | with_reducible refine Kept.fst (by assumption) ?_
    | split
    | intro _
    )

theorem bootSectionStep_kept {ρ : State} {s : State} {ok : Bool} (hk : Kept ρ s) :
    Kept ρ (bootSectionStep s ok) := by
  unfold bootSectionStep
  try dsimp only
  repeat' (first
    | with_reducible assumption
    | with_reducible apply bootFail_kept
    | with_reducible apply writeSection_kept
    | with_reducible apply setBoot_kept
    | with_reducible apply Kept.foldl
    | with_reducible apply Kept.foldlFst
    | with_reducible refine Kept.fst (by assumption) ?_
    | split
    )

theorem bootStartStep_kept {ρ : State} {s : State} (hk : Kept ρ s) :
    Kept ρ (bootStartStep s) := by
  unfold bootStartStep
  try dsimp only
  repeat' (first
    | with_reducible assumption
    | with_reducible apply State.eachBillet_kept
    | with_reducible apply hammerRun_kept
    | with_reducible apply State.orReg_kept
    | with_reducible apply setBoot_kept
    | with_reducible refine Kept.fst (by assumption) ?_
    | split
    | intro _
    )

theorem bootStep_kept {ρ : State} {s : State} {ok : Bool} (hk : Kept ρ s) :
    Kept ρ (bootStep s ok) := by
  unfold bootStep
  try dsimp only
  repeat' (first
    | with_reducible assumption
    | with_reducible apply bootHostStep_kept
    | with_reducible apply bootFlashStep_kept
    | with_reducible apply bootTrainStep_kept
    | with_reducible apply bootCopyStep_kept
    | with_reducible apply bootAuthStep_kept
    | with_reducible apply bootSectionStep_kept
    | with_reducible apply bootStartStep_kept
    | with_reducible refine Kept.fst (by assumption) ?_
    | split
    )

theorem execBootStepComplete_kept {ρ : State} {ok : Bool} {s : State} (hk : Kept ρ s) :
    ∃ s', execBootStepComplete ok s = .next s' ∧ Kept ρ s' := by
  refine ⟨_, rfl, ?_⟩
  try dsimp only
  repeat' (first
    | with_reducible assumption
    | with_reducible apply settleSteps_kept
    | with_reducible apply bootStep_kept
    )

theorem execBootGo_kept {ρ : State} {s : State} (hk : Kept ρ s) :
    ∃ s', execBootGo s = .next s' ∧ Kept ρ s' := by
  refine ⟨_, rfl, ?_⟩
  try dsimp only
  repeat' (first
    | with_reducible assumption
    | with_reducible apply bootGoes_kept
    | with_reducible refine Kept.fst (by assumption) ?_
    | split
    )

theorem selectTap_kept {ρ : State} {s : State} {ir : ℕ} (hk : Kept ρ s) :
    Kept ρ (selectTap s ir) := by
  unfold selectTap
  try dsimp only
  repeat' (first
    | with_reducible assumption
    | with_reducible apply packageReset_kept
    | with_reducible apply setHost_kept
    | with_reducible apply resetRelease_kept
    | with_reducible apply State.nextFree_kept
    | with_reducible refine Kept.fst (by assumption) ?_
    | split
    )

theorem execExtest_kept {ρ : State} {s : State} (hk : Kept ρ s) :
    ∃ s', execExtest s = .next s' ∧ Kept ρ s' := by
  refine ⟨_, rfl, ?_⟩
  try dsimp only
  repeat' (first
    | with_reducible assumption
    | with_reducible apply selectTap_kept
    )

theorem execIdcode_kept {ρ : State} {s : State} (hk : Kept ρ s) :
    ∃ s', execIdcode s = .next s' ∧ Kept ρ s' := by
  refine ⟨_, rfl, ?_⟩
  try dsimp only
  repeat' (first
    | with_reducible assumption
    | with_reducible apply selectTap_kept
    )

theorem execSamplePreload_kept {ρ : State} {s : State} (hk : Kept ρ s) :
    ∃ s', execSamplePreload s = .next s' ∧ Kept ρ s' := by
  refine ⟨_, rfl, ?_⟩
  try dsimp only
  repeat' (first
    | with_reducible assumption
    | with_reducible apply selectTap_kept
    )

theorem execHighz_kept {ρ : State} {s : State} (hk : Kept ρ s) :
    ∃ s', execHighz s = .next s' ∧ Kept ρ s' := by
  refine ⟨_, rfl, ?_⟩
  try dsimp only
  repeat' (first
    | with_reducible assumption
    | with_reducible apply selectTap_kept
    )

theorem execClamp_kept {ρ : State} {s : State} (hk : Kept ρ s) :
    ∃ s', execClamp s = .next s' ∧ Kept ρ s' := by
  refine ⟨_, rfl, ?_⟩
  try dsimp only
  repeat' (first
    | with_reducible assumption
    | with_reducible apply selectTap_kept
    )

theorem execExtestPulse_kept {ρ : State} {s : State} (hk : Kept ρ s) :
    ∃ s', execExtestPulse s = .next s' ∧ Kept ρ s' := by
  refine ⟨_, rfl, ?_⟩
  try dsimp only
  repeat' (first
    | with_reducible assumption
    | with_reducible apply selectTap_kept
    )

theorem execExtestTrain_kept {ρ : State} {s : State} (hk : Kept ρ s) :
    ∃ s', execExtestTrain s = .next s' ∧ Kept ρ s' := by
  refine ⟨_, rfl, ?_⟩
  try dsimp only
  repeat' (first
    | with_reducible assumption
    | with_reducible apply selectTap_kept
    )

theorem execBypass_kept {ρ : State} {s : State} (hk : Kept ρ s) :
    ∃ s', execBypass s = .next s' ∧ Kept ρ s' := by
  refine ⟨_, rfl, ?_⟩
  try dsimp only
  repeat' (first
    | with_reducible assumption
    | with_reducible apply selectTap_kept
    )

theorem execTestResetExit_kept {ρ : State} {s : State} (hk : Kept ρ s) :
    ∃ s', execTestResetExit s = .next s' ∧ Kept ρ s' := by
  refine ⟨_, rfl, ?_⟩
  try dsimp only
  repeat' (first
    | with_reducible assumption
    | with_reducible apply selectTap_kept
    | with_reducible refine Kept.fst (by assumption) ?_
    | split
    )

theorem execTapReset_kept {ρ : State} {s : State} (hk : Kept ρ s) :
    ∃ s', execTapReset s = .next s' ∧ Kept ρ s' := by
  refine ⟨_, rfl, ?_⟩
  try dsimp only
  repeat' (first
    | with_reducible assumption
    | with_reducible apply selectTap_kept
    )

theorem execFuse_kept {ρ s : State} {op : FuseOp} (hk : Kept ρ s) :
    ∃ s', execFuse op s = .next s' ∧ Kept { ρ with otp := s'.otp } s' := by
  have h : Kept ρ (selectTap s 0x80) := selectTap_kept hk
  exact ⟨_, rfl, h.1, h.2.1, rfl, h.2.2.2.1, h.2.2.2.2⟩

end Sys2Proof.Machine
end

