-- ==== Sys2Proof/Laws/KeptHostCmds.lean ====
section
/-! SUPPORT. What the operations of Machine/HostCmds.lean keep. -/

namespace Sys2Proof.Machine

theorem execRegisterWrite_kept {ρ : State} {who : Who} {addr : ℕ} {v : Word} {s : State} (hk : Kept ρ s) :
    ∃ s', execRegisterWrite who addr v s = .next s' ∧ Kept ρ s' := by
  refine ⟨_, rfl, ?_⟩
  try dsimp only
  repeat' (first
    | with_reducible assumption
    | with_reducible apply settleSteps_kept
    | with_reducible apply anyWrite_kept
    )

theorem execPcieMemoryWrite_kept {ρ : State} {addr : ℕ} {data : List Byte} {s : State} (hk : Kept ρ s) :
    ∃ s', execPcieMemoryWrite addr data s = .next s' ∧ Kept ρ s' := by
  refine ⟨_, rfl, ?_⟩
  try dsimp only
  repeat' (first
    | with_reducible assumption
    | with_reducible apply settleSteps_kept
    | with_reducible apply pcieWrite_kept
    )

theorem execPcieMemoryRead_kept {ρ : State} {addr : ℕ} {n : ℕ} {s : State} (hk : Kept ρ s) :
    ∃ s', execPcieMemoryRead addr n s = .next s' ∧ Kept ρ s' := by
  refine ⟨_, rfl, ?_⟩
  try dsimp only
  repeat' (first
    | with_reducible assumption
    | with_reducible apply settleSteps_kept
    | with_reducible apply pcieRead_kept
    )

theorem execHostAccessDeadline_kept {ρ : State} {s : State} (hk : Kept ρ s) :
    ∃ s', execHostAccessDeadline s = .next s' ∧ Kept ρ s' := by
  refine ⟨_, rfl, ?_⟩
  try dsimp only
  repeat' (first
    | with_reducible assumption
    | with_reducible apply settleSteps_kept
    | with_reducible apply hostMiss_kept
    | with_reducible refine Kept.fst (by assumption) ?_
    | split
    )

theorem execSpiWrite_kept {ρ : State} {addr : ℕ} {bytes : List Byte} {s : State} (hk : Kept ρ s) :
    ∃ s', execSpiWrite addr bytes s = .next s' ∧ Kept ρ s' := by
  refine ⟨_, rfl, ?_⟩
  try dsimp only
  repeat' (first
    | with_reducible assumption
    | with_reducible apply settleSteps_kept
    | with_reducible apply spiWrites_kept
    | with_reducible refine Kept.fst (by assumption) ?_
    | split
    )

theorem execSpiRead_kept {ρ : State} {addr : ℕ} {n : ℕ} {s : State} (hk : Kept ρ s) :
    ∃ s', execSpiRead addr n s = .next s' ∧ Kept ρ s' := by
  refine ⟨_, rfl, ?_⟩
  try dsimp only
  repeat' (first
    | with_reducible assumption
    | with_reducible apply settleSteps_kept
    | with_reducible apply readStart_kept
    | with_reducible refine Kept.fst (by assumption) ?_
    | split
    )

theorem execSpiStatus_kept {ρ : State} {s : State} (hk : Kept ρ s) :
    ∃ s', execSpiStatus s = .next s' ∧ Kept ρ s' := by
  refine ⟨_, rfl, ?_⟩
  try dsimp only
  repeat' (first
    | with_reducible assumption
    | with_reducible apply hostComplete_kept
    | with_reducible refine Kept.fst (by assumption) ?_
    | split
    )

theorem execSpiBadCommand_kept {ρ : State} {cmd : ℕ} {s : State} (hk : Kept ρ s) :
    ∃ s', execSpiBadCommand cmd s = .next s' ∧ Kept ρ s' := by
  refine ⟨_, rfl, ?_⟩
  try dsimp only
  repeat' (first
    | with_reducible assumption
    | with_reducible apply spiErr_kept
    | with_reducible refine Kept.fst (by assumption) ?_
    | split
    )

theorem execDataPortAccess_kept {ρ : State} {k : ℕ} {w : Option Word} {s : State} (hk : Kept ρ s) :
    ∃ s', execDataPortAccess k w s = .next s' ∧ Kept ρ s' := by
  refine ⟨_, rfl, ?_⟩
  try dsimp only
  repeat' (first
    | with_reducible assumption
    | with_reducible apply settleSteps_kept
    | with_reducible apply hostWrite_kept
    | with_reducible apply pcieRead_kept
    | with_reducible refine Kept.fst (by assumption) ?_
    | split
    )

theorem execDataPortAddrWrite_kept {ρ : State} {k : ℕ} {v : Word} {s : State} (hk : Kept ρ s) :
    ∃ s', execDataPortAddrWrite k v s = .next s' ∧ Kept ρ s' := by
  refine ⟨_, rfl, ?_⟩
  try dsimp only
  repeat' (first
    | with_reducible assumption
    | with_reducible apply dpAddr_kept
    | with_reducible refine Kept.fst (by assumption) ?_
    | split
    )

theorem execDataPortPrefetch_kept {ρ : State} {k : ℕ} {s : State} (hk : Kept ρ s) :
    ∃ s', execDataPortPrefetch k s = .next s' ∧ Kept ρ s' := by
  refine ⟨_, rfl, ?_⟩
  try dsimp only
  repeat' (first
    | with_reducible assumption
    | with_reducible apply dpPrefetch_kept
    | with_reducible refine Kept.fst (by assumption) ?_
    | split
    )

theorem execDataPortWordAccept_kept {ρ : State} {k : ℕ} {s : State} (hk : Kept ρ s) :
    ∃ s', execDataPortWordAccept k s = .next s' ∧ Kept ρ s' := by
  refine ⟨_, rfl, ?_⟩
  try dsimp only
  repeat' (first
    | with_reducible assumption
    | with_reducible apply settleSteps_kept
    | with_reducible apply readsGo_kept
    | with_reducible apply dpMakeRoom_kept
    | with_reducible refine Kept.fst (by assumption) ?_
    | split
    )

theorem execDoorbell_kept {ρ : State} {v : Word} {s : State} (hk : Kept ρ s) :
    ∃ s', execDoorbell v s = .next s' ∧ Kept ρ s' := by
  refine ⟨_, rfl, ?_⟩
  try dsimp only
  repeat' (first
    | with_reducible assumption
    | with_reducible apply ringDoorbell_kept
    | with_reducible refine Kept.fst (by assumption) ?_
    | split
    )

theorem execHostIrqSet_kept {ρ : State} {v : Word} {s : State} (hk : Kept ρ s) :
    ∃ s', execHostIrqSet v s = .next s' ∧ Kept ρ s' := by
  refine ⟨_, rfl, ?_⟩
  try dsimp only
  repeat' (first
    | with_reducible assumption
    | with_reducible apply hirqSet_kept
    | with_reducible refine Kept.fst (by assumption) ?_
    | split
    )

theorem execHostReset_kept {ρ : State} {s : State} (hk : Kept ρ s) :
    ∃ s', execHostReset s = .next s' ∧ Kept ρ s' := by
  refine ⟨_, rfl, ?_⟩
  try dsimp only
  repeat' (first
    | with_reducible assumption
    | with_reducible apply hostReset_kept
    | with_reducible refine Kept.fst (by assumption) ?_
    | split
    )

theorem execPcieLinkChange_kept {ρ : State} {up : Bool} {width : ℕ} {speed : ℕ} {s : State} (hk : Kept ρ s) :
    ∃ s', execPcieLinkChange up width speed s = .next s' ∧ Kept ρ s' := by
  refine ⟨_, rfl, ?_⟩
  try dsimp only
  repeat' (first
    | with_reducible assumption
    | with_reducible apply linkChange_kept
    | with_reducible refine Kept.fst (by assumption) ?_
    | split
    )

theorem execPcieConfigAccess_kept {ρ : State} {reg : ℕ} {w : Option Word} {s : State} (hk : Kept ρ s) :
    ∃ s', execPcieConfigAccess reg w s = .next s' ∧ Kept ρ s' := by
  refine ⟨_, rfl, ?_⟩
  try dsimp only
  repeat' (first
    | with_reducible assumption
    | with_reducible apply cfgAccess_kept
    | with_reducible refine Kept.fst (by assumption) ?_
    | split
    )

end Sys2Proof.Machine
end

