-- ==== Sys2Proof/Laws/KeptLineStart.lean ====
section
/-! SUPPORT. What the operations of Machine/LineStart.lean keep. -/

namespace Sys2Proof.Machine

theorem applyWrite_kept {ρ : State} {s : State} {ctx : ℕ} {id : ℕ} {b : ℕ} {w : CWrite} (hk : Kept ρ s) :
    Kept ρ (applyWrite s ctx id b w) := by
  unfold applyWrite
  try dsimp only
  repeat' (first
    | with_reducible assumption
    | with_reducible apply hardHandOff_kept
    | with_reducible apply softHandOff_kept
    | with_reducible apply State.setBreg_kept
    | with_reducible apply lutWrite_kept
    | with_reducible refine Kept.fst (by assumption) ?_
    | split
    )

theorem applyCommit_kept {ρ : State} {s : State} {c : Commit} (hk : Kept ρ s) :
    Kept ρ (applyCommit s c) := by
  unfold applyCommit
  try dsimp only
  repeat' (first
    | with_reducible assumption
    | with_reducible apply applyWrite_kept
    | with_reducible apply Kept.foldl
    | with_reducible apply Kept.foldlFst
    | with_reducible refine Kept.fst (by assumption) ?_
    | split
    | intro _
    )

theorem lateCommits_kept {ρ : State} {s : State} {past : Commit → Bool} (hk : Kept ρ s) :
    Kept ρ (lateCommits s past) := by
  unfold lateCommits
  try dsimp only
  repeat' (first
    | with_reducible assumption
    | with_reducible apply countLate_kept
    | with_reducible apply State.setLive_kept
    | with_reducible apply Kept.foldl
    )

theorem applySealed_kept {ρ : State} {s : State} {short : Bool} (hk : Kept ρ s) :
    Kept ρ (applySealed s short) := by
  unfold applySealed
  try dsimp only
  repeat' (first
    | with_reducible assumption
    | with_reducible apply lateCommits_kept
    | with_reducible apply State.setLive_kept
    | with_reducible apply countDefer_kept
    | with_reducible apply applyCommit_kept
    | with_reducible apply Kept.foldl
    | with_reducible apply Kept.foldlFst
    | with_reducible refine Kept.fst (by assumption) ?_
    | (unfold Kept Inv; dsimp only; refine (show Kept _ _ from ?_); with_reducible assumption)
    | (unfold Kept Inv; dsimp only; refine (show Kept _ _ from ?_); with_reducible apply State.setLive_kept)
    | split
    | intro _
    )

theorem bandsTake_kept {ρ : State} {s : State} (hk : Kept ρ s) :
    Kept ρ (bandsTake s) := by
  unfold bandsTake
  try dsimp only
  repeat' (first
    | with_reducible assumption
    | with_reducible apply State.eachBillet_kept
    | with_reducible apply State.takeEffect_kept
    | with_reducible apply Kept.foldl
    | with_reducible apply Kept.foldlFst
    | with_reducible refine Kept.fst (by assumption) ?_
    | split
    | intro _
    )

theorem packageFrameStart_kept {ρ : State} {s : State} (hk : Kept ρ s) :
    Kept ρ (packageFrameStart s) := by
  unfold packageFrameStart
  try dsimp only
  repeat' (first
    | with_reducible assumption
    | with_reducible apply ctFrameStart_kept
    | with_reducible apply arbFrameStart_kept
    | with_reducible apply powerFrame_kept
    | with_reducible apply quenchFrame_kept
    )

theorem handoffsIssue_kept {ρ : State} {s : State} (hk : Kept ρ s) :
    Kept ρ (handoffsIssue s) := by
  unfold handoffsIssue
  try dsimp only
  repeat' (first
    | with_reducible assumption
    | with_reducible apply handIssue_kept
    | with_reducible apply Kept.foldl
    | with_reducible apply Kept.foldlFst
    | with_reducible refine Kept.fst (by assumption) ?_
    | (unfold Kept Inv; dsimp only; refine (show Kept _ _ from ?_); with_reducible assumption)
    | split
    | intro _
    )

theorem deadlinesCome_kept {ρ : State} {s : State} (hk : Kept ρ s) :
    Kept ρ (deadlinesCome s) := by
  unfold deadlinesCome
  try dsimp only
  repeat' (first
    | with_reducible assumption
    | with_reducible apply hostOverdue_kept
    | with_reducible apply hammersOverdue_kept
    | with_reducible apply tngOverdue_kept
    | with_reducible apply swageOverdue_kept
    )

theorem deadlinesFrame_kept {ρ : State} {s : State} (hk : Kept ρ s) :
    Kept ρ (deadlinesFrame s) := by
  unfold deadlinesFrame
  try dsimp only
  repeat' (first
    | with_reducible assumption
    | with_reducible apply hostFrame_kept
    | with_reducible apply hammersFrame_kept
    | with_reducible apply tngFrame_kept
    | with_reducible apply swageFrame_kept
    )

theorem packageLineStart_kept {ρ : State} {s0 : State} (hk : Kept ρ s0) :
    Kept ρ (packageLineStart s0) := by
  unfold packageLineStart
  try dsimp only
  repeat' (first
    | with_reducible assumption
    | with_reducible apply deadlinesCome_kept
    | with_reducible apply portsMissed_kept
    | with_reducible apply judgeSeal_kept
    | with_reducible apply beamLineStart_kept
    | with_reducible apply deadlinesFrame_kept
    | with_reducible apply renumberStrikes_kept
    | with_reducible apply portsTakeTiming_kept
    | with_reducible apply bandsTake_kept
    | with_reducible apply State.setLive_kept
    | with_reducible apply applySealed_kept
    | with_reducible apply strikesLine_kept
    | with_reducible apply collLine_kept
    | with_reducible apply quenchLine_kept
    | with_reducible apply cacheLineStart_kept
    | with_reducible apply tngTakeAll_kept
    | with_reducible apply swageLine_kept
    | with_reducible apply handoffsIssue_kept
    | with_reducible apply packageFrameStart_kept
    | with_reducible refine Kept.fst (by assumption) ?_
    | split
    )

theorem execPackageLineStart_kept {ρ : State} {s : State} (hk : Kept ρ s) :
    ∃ s', execPackageLineStart s = .next s' ∧ Kept ρ s' := by
  refine ⟨_, rfl, ?_⟩
  try dsimp only
  repeat' (first
    | with_reducible assumption
    | with_reducible apply packageLineStart_kept
    | with_reducible apply bring_kept
    | with_reducible refine Kept.fst (by assumption) ?_
    | split
    )

theorem execPkgRegApply_kept {ρ : State} {s : State} (hk : Kept ρ s) :
    ∃ s', execPkgRegApply s = .next s' ∧ Kept ρ s' := by
  refine ⟨_, rfl, ?_⟩
  try dsimp only
  repeat' (first
    | with_reducible assumption
    | with_reducible apply pkgApplyNext_kept
    )

theorem portLine_kept {ρ : State} {s : State} {b : ℕ} {p : ℕ} (hk : Kept ρ s) :
    Kept ρ (portLine s b p) := by
  unfold portLine
  try dsimp only
  repeat' (first
    | with_reducible assumption
    | with_reducible apply portLineStart_kept
    | with_reducible apply pixelsLeave_kept
    | with_reducible apply synthOff_kept
    | with_reducible apply portGone_kept
    | with_reducible apply rasterLineStart_kept
    | with_reducible apply outLineStart_kept
    | with_reducible apply quenchPort_kept
    | with_reducible apply lppFrameStart_kept
    | with_reducible refine Kept.fst (by assumption) ?_
    | split
    )

theorem execPortLineStart_kept {ρ : State} {b : ℕ} {p : ℕ} {s : State} (hk : Kept ρ s) :
    ∃ s', execPortLineStart b p s = .next s' ∧ Kept ρ s' := by
  refine ⟨_, rfl, ?_⟩
  try dsimp only
  repeat' (first
    | with_reducible assumption
    | with_reducible apply discardStopped_kept
    | with_reducible apply atInstant_kept
    | with_reducible apply portLine_kept
    | with_reducible refine Kept.fst (by assumption) ?_
    | split
    | intro _
    )

theorem portFirstLine_kept {ρ : State} {s : State} {b : ℕ} {p : ℕ} (hk : Kept ρ s) :
    Kept ρ (portFirstLine s b p) := by
  unfold portFirstLine
  try dsimp only
  repeat' (first
    | with_reducible assumption
    | with_reducible apply portChannelStart_kept
    | with_reducible apply quenchPort_kept
    | with_reducible apply lppFrameStart_kept
    | with_reducible apply rasterLineStart_kept
    | with_reducible apply outLineStart_kept
    | with_reducible refine Kept.fst (by assumption) ?_
    | split
    )

theorem execPortChannelStart_kept {ρ : State} {b : ℕ} {p : ℕ} {s : State} (hk : Kept ρ s) :
    ∃ s', execPortChannelStart b p s = .next s' ∧ Kept ρ s' := by
  refine ⟨_, rfl, ?_⟩
  try dsimp only
  repeat' (first
    | with_reducible assumption
    | with_reducible apply atInstant_kept
    | with_reducible apply portFirstLine_kept
    | with_reducible refine Kept.fst (by assumption) ?_
    | split
    | intro _
    )

theorem nextState_kept {ρ : State} {s : State} (hk : Kept ρ s) :
    Kept ρ (nextState s) := by
  unfold nextState
  try dsimp only
  repeat' (first
    | with_reducible assumption
    | with_reducible apply bandsTake_kept
    | with_reducible apply applyCommit_kept
    | with_reducible apply Kept.foldl
    | with_reducible apply Kept.foldlFst
    | with_reducible refine Kept.fst (by assumption) ?_
    | split
    )

theorem flipHandOffs_kept {ρ s v : State} (hk : Kept ρ s) : Kept ρ (flipHandOffs s v) :=
  State.eachBillet_kept (fun _ _ h => Kept.foldl (fun _ _ h => Kept.foldl (fun _ _ h => State.setReg_kept h)
    (State.setVideo_kept h)) h) hk

theorem evaluateLine_kept {ρ s : State} {nb : Beam} {l : LineView} (hk : Kept ρ s) : Kept ρ (evaluateLine s nb l) := by
  have hd : ∀ (d : Beam) (v : List LineView), d.phase = s.beam.phase → Kept ρ { s with beam := d, lineViews := v } :=
    fun d _ e => (hk.beam (b := d) (e ▸ hk.phase)).same rfl rfl rfl rfl rfl rfl rfl
  have h : ∀ (t : State) (f : State → Nat → State) (p : State → List Nat), Kept ρ t →
      (∀ s b, Kept ρ s → Kept ρ (f s b)) → Kept ρ (temperDecide (t.eachBillet f) (p (t.eachBillet f))) :=
    fun t f p ht hf => temperDecide_kept (State.eachBillet_kept hf ht)
  have hb : ∀ t, Kept ρ t → Kept ρ { t with beam := s.beam } := fun t h =>
    ⟨h.1, h.2.1, h.2.2.1, h.2.2.2.1, h.2.2.2.2.1, h.2.2.2.2.2.1, hk.phase⟩
  unfold evaluateLine
  refine hb _ (h _ _ (fun s1 => _) ?_ fun s b h => evalBillet_kept h)
  exact hd _ _ rfl

theorem lineEvaluation_kept {ρ s : State} (hk : Kept ρ s) : Kept ρ (lineEvaluation s) := by
  unfold lineEvaluation
  exact evaluateLine_kept (ite_kept (flipHandOffs_kept hk) hk)

theorem execLineEvaluation_kept {ρ : State} {s : State} (hk : Kept ρ s) :
    ∃ s', execLineEvaluation s = .next s' ∧ Kept ρ s' := by
  refine ⟨_, rfl, ?_⟩
  try dsimp only
  repeat' (first
    | with_reducible assumption
    | with_reducible apply atInstant_kept
    | with_reducible apply lineEvaluation_kept
    | with_reducible refine Kept.fst (by assumption) ?_
    | split
    )

theorem execPixelGroupLeave_kept {ρ : State} {b : ℕ} {p : ℕ} {g : ℕ} {s : State} (hk : Kept ρ s) :
    ∃ s', execPixelGroupLeave b p g s = .next s' ∧ Kept ρ s' := by
  refine ⟨_, rfl, ?_⟩
  try dsimp only
  repeat' (first
    | with_reducible assumption
    | with_reducible apply pixelGroupLeave_kept
    | with_reducible refine Kept.fst (by assumption) ?_
    | split
    )

end Sys2Proof.Machine
end

