-- ==== Sys2Proof/Laws/KeptClock.lean ====
section
/-! SUPPORT. What the operations of Machine/Clock.lean keep. -/

namespace Sys2Proof.Machine

theorem forgeCycle_kept {ρ : State} {s : State} (hk : Kept ρ s) :
    Kept ρ (forgeCycle s) := by
  unfold forgeCycle
  try dsimp only
  repeat' (first
    | with_reducible assumption
    | with_reducible apply passCycles_kept
    | with_reducible apply pkgDue_kept
    | with_reducible apply readsGo_kept
    | with_reducible apply hostDrain_kept
    | with_reducible refine Kept.fst (by assumption) ?_
    | split
    )

end Sys2Proof.Machine
end

