-- ==== Sys2Proof/Laws/Side.lean ====
section
/-! SUPPORT. `Side` for the shapes that meanings are built from, and of every operation that events are made of that
it changes nothing else. -/

namespace Sys2Proof.Machine

theorem Side.refl (s : State) : Side s s := ⟨rfl, rfl⟩

theorem Side.trans {r s t : State} (h1 : Side r s) (h2 : Side s t) : Side r t := by
  refine ⟨h2.1.trans h1.1, ?_⟩
  have e1 := h1.2
  have e2 := h2.2
  rw [e1] at e2
  exact e2

/-- Updates of the fields that events reach, but for the channels. -/
theorem Side.upd {r s : State} {a1 : Tbl Word} {a2 : Tbl Nat} {a3 : Tbl Nat} {a4 : Tbl IrqSrc} {a5 : Tbl Slot}
    {a6 : Tbl Tally} {a7 : Tbl Matcher} {a8 : Tbl Capture} {a9 : Commits} {a10 : Tbl (Option Nat)}
    {a11 : Tbl (List LiveWrite)} {a12 : Quench} {a13 : Nat} {a14 : Tbl Nat} (h : Side r s) :
    Side r { s with regs := a1, sticky := a2, ppend := a3, irq := a4, slots := a5, tallies := a6, matchers := a7,
                    captures := a8, commits := a9, reflexWait := a10, liveQ := a11, quench := a12, freeCount := a13,
                    evtAt := a14 } := by
  refine ⟨h.1, ?_⟩
  have e := h.2
  rw [e]

/-- A trigger reaches channels (R298). -/
theorem tngSignal_side {ρ s : State} {b ty sel : Nat} (hk : Side ρ s) : Side ρ (tngSignal s b ty sel) := by
  refine ⟨Eq.trans ?_ hk.1, ?_⟩
  · unfold tngSignal untriggered
    rw [List.map_map]
    refine List.map_congr_left fun kv _ => ?_
    simp only [Function.comp]
    split <;> rfl
  · have e := hk.2
    unfold tngSignal
    rw [e]

theorem Side.fst {α : Type} {r s : State} {p : State × α} {a : α} (e : p = (s, a)) (h : Side r p.1) : Side r s := by
  rw [e] at h
  exact h

theorem Side.ite {r s t : State} {c : Prop} [Decidable c] (h1 : Side r s) (h2 : Side r t) :
    Side r (if c then s else t) := by
  split
  · exact h1
  · exact h2

theorem Side.foldl {α : Type} {r : State} {g : State → α → State} {l : List α} {s : State}
    (hg : ∀ s e, Side r s → Side r (g s e)) (h : Side r s) : Side r (l.foldl g s) := by
  induction l generalizing s with
  | nil => exact h
  | cons e l ih => exact ih (hg s e h)

theorem Side.foldlFst {α β : Type} {r : State} {g : State × β → α → State × β} {l : List α} {p : State × β}
    (hg : ∀ p e, Side r p.1 → Side r (g p e).1) (h : Side r p.1) : Side r (l.foldl g p).1 := by
  induction l generalizing p with
  | nil => exact h
  | cons e l ih => exact ih (hg p e h)

/-! ### What `Side` leaves alone, field by field -/

section
variable {s t : State} (h : Side s t)
include h

theorem Side.variant_eq : t.variant = s.variant := by
  rw [h.2]
theorem Side.now_eq : t.now = s.now := by
  rw [h.2]
theorem Side.eff_eq : t.eff = s.eff := by
  rw [h.2]
theorem Side.latches_eq : t.latches = s.latches := by
  rw [h.2]
theorem Side.beam_eq : t.beam = s.beam := by
  rw [h.2]
theorem Side.pkgQueue_eq : t.pkgQueue = s.pkgQueue := by
  rw [h.2]
theorem Side.genlock_eq : t.genlock = s.genlock := by
  rw [h.2]
theorem Side.ports_eq : t.ports = s.ports := by
  rw [h.2]
theorem Side.strikeRam_eq : t.strikeRam = s.strikeRam := by
  rw [h.2]
theorem Side.cursors_eq : t.cursors = s.cursors := by
  rw [h.2]
theorem Side.liveOut_eq : t.liveOut = s.liveOut := by
  rw [h.2]
theorem Side.hammers_eq : t.hammers = s.hammers := by
  rw [h.2]
theorem Side.progMem_eq : t.progMem = s.progMem := by
  rw [h.2]
theorem Side.banks_eq : t.banks = s.banks := by
  rw [h.2]
theorem Side.privBits_eq : t.privBits = s.privBits := by
  rw [h.2]
theorem Side.hearth_eq : t.hearth = s.hearth := by
  rw [h.2]
theorem Side.gddr_eq : t.gddr = s.gddr := by
  rw [h.2]
theorem Side.gddrEra_eq : t.gddrEra = s.gddrEra := by
  rw [h.2]
theorem Side.hearthEra_eq : t.hearthEra = s.hearthEra := by
  rw [h.2]
theorem Side.hearthBad_eq : t.hearthBad = s.hearthBad := by
  rw [h.2]
theorem Side.tick_eq : t.tick = s.tick := by
  rw [h.2]
theorem Side.tickFrac_eq : t.tickFrac = s.tickFrac := by
  rw [h.2]
theorem Side.pins_eq : t.pins = s.pins := by
  rw [h.2]
theorem Side.legacy_eq : t.legacy = s.legacy := by
  rw [h.2]
theorem Side.pioBanks_eq : t.pioBanks = s.pioBanks := by
  rw [h.2]
theorem Side.tickCtl_eq : t.tickCtl = s.tickCtl := by
  rw [h.2]
theorem Side.compares_eq : t.compares = s.compares := by
  rw [h.2]
theorem Side.fetches_eq : t.fetches = s.fetches := by
  rw [h.2]
theorem Side.lineViews_eq : t.lineViews = s.lineViews := by
  rw [h.2]
theorem Side.colStores_eq : t.colStores = s.colStores := by
  rw [h.2]
theorem Side.pcache_eq : t.pcache = s.pcache := by
  rw [h.2]
theorem Side.sprLines_eq : t.sprLines = s.sprLines := by
  rw [h.2]
theorem Side.coll_eq : t.coll = s.coll := by
  rw [h.2]
theorem Side.videos_eq : t.videos = s.videos := by
  rw [h.2]
theorem Side.luts_eq : t.luts = s.luts := by
  rw [h.2]
theorem Side.outs_eq : t.outs = s.outs := by
  rw [h.2]
theorem Side.handQ_eq : t.handQ = s.handQ := by
  rw [h.2]
theorem Side.memCtl_eq : t.memCtl = s.memCtl := by
  rw [h.2]
theorem Side.lanes_eq : t.lanes = s.lanes := by
  rw [h.2]
theorem Side.rasterTx_eq : t.rasterTx = s.rasterTx := by
  rw [h.2]
theorem Side.audioTx_eq : t.audioTx = s.audioTx := by
  rw [h.2]
theorem Side.flows_eq : t.flows = s.flows := by
  rw [h.2]
theorem Side.ptp_eq : t.ptp = s.ptp := by
  rw [h.2]
theorem Side.tuy_eq : t.tuy = s.tuy := by
  rw [h.2]
theorem Side.swages_eq : t.swages = s.swages := by
  rw [h.2]
theorem Side.temper_eq : t.temper = s.temper := by
  rw [h.2]
theorem Side.boot_eq : t.boot = s.boot := by
  rw [h.2]
theorem Side.otp_eq : t.otp = s.otp := by
  rw [h.2]
theorem Side.flash_eq : t.flash = s.flash := by
  rw [h.2]
theorem Side.ember_eq : t.ember = s.ember := by
  rw [h.2]
theorem Side.dports_eq : t.dports = s.dports := by
  rw [h.2]
theorem Side.hostPort_eq : t.hostPort = s.hostPort := by
  rw [h.2]
theorem Side.heldDoms_eq : t.heldDoms = s.heldDoms := by
  rw [h.2]
theorem Side.pending_eq : t.pending = s.pending := by
  rw [h.2]

end

theorem State.eachBillet_side {r s : State} {f : State → Nat → State} (hf : ∀ s b, Side r s → Side r (f s b))
    (h : Side r s) : Side r (s.eachBillet f) := Side.foldl hf h

end Sys2Proof.Machine
end

