-- ==== Sys2Proof/Laws/SideOps.lean ====
section
/-! SUPPORT. The operations that change nothing but what `Side` names. -/

namespace Sys2Proof.Machine

theorem State.setReg_side {ρ : State} {s : State} {a : ℕ} {v : Word} (hk : Side ρ s) :
    Side ρ (State.setReg s a v) := by
  unfold State.setReg
  try dsimp only
  repeat' (first
    | with_reducible assumption
    | with_reducible refine Side.fst (by assumption) ?_
    | (with_reducible refine Side.upd ?_; with_reducible assumption)
    )

theorem State.setBreg_side {ρ : State} {s : State} {b : ℕ} {off : ℕ} {v : Word} (hk : Side ρ s) :
    Side ρ (State.setBreg s b off v) := by
  unfold State.setBreg
  try dsimp only
  repeat' (first
    | with_reducible assumption
    | with_reducible apply State.setReg_side
    )

theorem State.orReg_side {ρ : State} {s : State} {a : ℕ} {m : ℕ} (hk : Side ρ s) :
    Side ρ (State.orReg s a m) := by
  unfold State.orReg
  try dsimp only
  repeat' (first
    | with_reducible assumption
    | with_reducible apply State.setReg_side
    )

theorem State.clrReg_side {ρ : State} {s : State} {a : ℕ} {m : ℕ} (hk : Side ρ s) :
    Side ρ (State.clrReg s a m) := by
  unfold State.clrReg
  try dsimp only
  repeat' (first
    | with_reducible assumption
    | with_reducible apply State.setReg_side
    )

theorem State.addReg_side {ρ : State} {s : State} {a : ℕ} {n : ℕ} (hk : Side ρ s) :
    Side ρ (State.addReg s a n) := by
  unfold State.addReg
  try dsimp only
  repeat' (first
    | with_reducible assumption
    | with_reducible apply State.setReg_side
    )

theorem State.setRf_side {ρ : State} {s : State} {a : ℕ} {hi : ℕ} {lo : ℕ} {n : ℕ} (hk : Side ρ s) :
    Side ρ (State.setRf s a hi lo n) := by
  unfold State.setRf
  try dsimp only
  repeat' (first
    | with_reducible assumption
    | with_reducible apply State.setReg_side
    )

theorem State.addRf_side {ρ : State} {s : State} {a : ℕ} {hi : ℕ} {lo : ℕ} {n : ℕ} (hk : Side ρ s) :
    Side ρ (State.addRf s a hi lo n) := by
  unfold State.addRf
  try dsimp only
  repeat' (first
    | with_reducible assumption
    | with_reducible apply State.setRf_side
    )

theorem State.nextFree_side {ρ : State} {s : State} (hk : Side ρ s) :
    Side ρ (State.nextFree s) := by
  unfold State.nextFree
  try dsimp only
  repeat' (first
    | with_reducible assumption
    | with_reducible refine Side.fst (by assumption) ?_
    | (with_reducible refine Side.upd ?_; with_reducible assumption)
    )

theorem State.setSrc_side {ρ : State} {s : State} {b : ℕ} {id : ℕ} {x : IrqSrc} (hk : Side ρ s) :
    Side ρ (State.setSrc s b id x) := by
  unfold State.setSrc
  try dsimp only
  repeat' (first
    | with_reducible assumption
    | with_reducible refine Side.fst (by assumption) ?_
    | (with_reducible refine Side.upd ?_; with_reducible assumption)
    )

theorem State.setSlot_side {ρ : State} {s : State} {b : ℕ} {h : ℕ} {l : ℕ} {x : Slot} (hk : Side ρ s) :
    Side ρ (State.setSlot s b h l x) := by
  unfold State.setSlot
  try dsimp only
  repeat' (first
    | with_reducible assumption
    | with_reducible refine Side.fst (by assumption) ?_
    | (with_reducible refine Side.upd ?_; with_reducible assumption)
    )

theorem vidBufstat_side {ρ : State} {s : State} {b : ℕ} {n : ℕ} (hk : Side ρ s) :
    Side ρ (vidBufstat s b n) := by
  unfold vidBufstat
  try dsimp only
  repeat' (first
    | with_reducible assumption
    | with_reducible apply State.setReg_side
    )

theorem State.setPpend_side {ρ : State} {s : State} {b : ℕ} {h : ℕ} {x : ℕ} (hk : Side ρ s) :
    Side ρ (State.setPpend s b h x) := by
  unfold State.setPpend
  try dsimp only
  repeat' (first
    | with_reducible assumption
    | with_reducible refine Side.fst (by assumption) ?_
    | (with_reducible refine Side.upd ?_; with_reducible assumption)
    )

theorem raisePrivate_side {ρ : State} {s : State} {b : ℕ} {h : ℕ} {id : ℕ} (hk : Side ρ s) :
    Side ρ (raisePrivate s b h id) := by
  unfold raisePrivate
  try dsimp only
  repeat' (first
    | with_reducible assumption
    | with_reducible apply State.addRf_side
    | with_reducible apply State.setPpend_side
    | with_reducible refine Side.fst (by assumption) ?_
    | (with_reducible refine Side.upd ?_; split)
    )

theorem irqEvent_side {ρ : State} {s : State} {b : ℕ} {id : ℕ} (hk : Side ρ s) :
    Side ρ (irqEvent s b id) := by
  unfold irqEvent
  try dsimp only
  repeat' (first
    | with_reducible assumption
    | with_reducible apply State.setReg_side
    | with_reducible apply State.addReg_side
    | with_reducible apply State.setSrc_side
    | with_reducible refine Side.fst (by assumption) ?_
    | (with_reducible refine Side.upd ?_; split)
    )

theorem pulseIrq_side {ρ : State} {s : State} {b : ℕ} {id : ℕ} (hk : Side ρ s) :
    Side ρ (pulseIrq s b id) := by
  unfold pulseIrq
  try dsimp only
  repeat' (first
    | with_reducible assumption
    | with_reducible apply irqEvent_side
    | with_reducible refine Side.fst (by assumption) ?_
    | (with_reducible refine Side.upd ?_; split)
    )

theorem markWithdrawn_side {ρ : State} {s : State} {b : ℕ} {id : ℕ} {tb : ℕ} (hk : Side ρ s) :
    Side ρ (markWithdrawn s b id tb) := by
  unfold markWithdrawn
  try dsimp only
  repeat' (first
    | with_reducible assumption
    | with_reducible apply State.setSlot_side
    | with_reducible apply Side.foldl
    | with_reducible apply Side.foldlFst
    | with_reducible refine Side.fst (by assumption) ?_
    | split
    | intro _
    )

theorem irqSense_side {ρ : State} {s : State} {b : ℕ} {id : ℕ} (hk : Side ρ s) :
    Side ρ (irqSense s b id) := by
  unfold irqSense
  try dsimp only
  repeat' (first
    | with_reducible assumption
    | with_reducible apply State.setSrc_side
    | with_reducible apply irqEvent_side
    | with_reducible apply markWithdrawn_side
    | with_reducible refine Side.fst (by assumption) ?_
    | (with_reducible refine Side.upd ?_; split)
    )

theorem irqExchange_side {ρ : State} {s : State} {b : ℕ} {id : ℕ} (hk : Side ρ s) :
    Side ρ (irqExchange s b id) := by
  unfold irqExchange
  try dsimp only
  repeat' (first
    | with_reducible assumption
    | with_reducible apply State.setSrc_side
    | with_reducible apply markWithdrawn_side
    | with_reducible apply Side.foldl
    | with_reducible apply Side.foldlFst
    | with_reducible refine Side.fst (by assumption) ?_
    | (with_reducible refine Side.upd ?_; split)
    | split
    | intro _
    )

theorem State.setTally_side {ρ : State} {s : State} {b : ℕ} {k : ℕ} {x : Tally} (hk : Side ρ s) :
    Side ρ (State.setTally s b k x) := by
  unfold State.setTally
  try dsimp only
  repeat' (first
    | with_reducible assumption
    | with_reducible refine Side.fst (by assumption) ?_
    | (with_reducible refine Side.upd ?_; with_reducible assumption)
    )

theorem tallyCount_side {ρ : State} {s : State} {b : ℕ} {k : ℕ} (hk : Side ρ s) :
    Side ρ (tallyCount s b k) := by
  unfold tallyCount
  try dsimp only
  repeat' (first
    | with_reducible assumption
    | with_reducible apply State.setTally_side
    | with_reducible apply pulseIrq_side
    | with_reducible apply State.orReg_side
    | with_reducible refine Side.fst (by assumption) ?_
    | (with_reducible refine Side.upd ?_; split)
    )

theorem tallySource_side {ρ : State} {s : State} {b : ℕ} {src : ℕ} (hk : Side ρ s) :
    Side ρ (tallySource s b src) := by
  unfold tallySource
  try dsimp only
  repeat' (first
    | with_reducible assumption
    | with_reducible apply tallyCount_side
    | with_reducible apply Side.foldl
    | with_reducible apply Side.foldlFst
    | with_reducible refine Side.fst (by assumption) ?_
    | split
    | intro _
    )

theorem tallySnap_side {ρ : State} {s : State} {b : ℕ} {e : ℕ} (hk : Side ρ s) :
    Side ρ (tallySnap s b e) := by
  unfold tallySnap
  try dsimp only
  repeat' (first
    | with_reducible assumption
    | with_reducible apply State.setTally_side
    | with_reducible apply Side.foldl
    | with_reducible apply Side.foldlFst
    | with_reducible refine Side.fst (by assumption) ?_
    | split
    | intro _
    )

theorem tallyClear_side {ρ : State} {s : State} {b : ℕ} {k : ℕ} (hk : Side ρ s) :
    Side ρ (tallyClear s b k) := by
  unfold tallyClear
  try dsimp only
  repeat' (first
    | with_reducible assumption
    | with_reducible apply State.setTally_side
    )

theorem noteDone_side {ρ : State} {s : State} {b : ℕ} {c : ℕ} (hk : Side ρ s) :
    Side ρ (noteDone s b c) := by
  unfold noteDone
  try dsimp only
  repeat' (first
    | with_reducible assumption
    | with_reducible refine Side.fst (by assumption) ?_
    | (with_reducible refine Side.upd ?_; with_reducible assumption)
    )

theorem State.setSticky_side {ρ : State} {s : State} {b : ℕ} {h : ℕ} {x : ℕ} (hk : Side ρ s) :
    Side ρ (State.setSticky s b h x) := by
  unfold State.setSticky
  try dsimp only
  repeat' (first
    | with_reducible assumption
    | with_reducible refine Side.fst (by assumption) ?_
    | (with_reducible refine Side.upd ?_; with_reducible assumption)
    )

theorem stickyAll_side {ρ : State} {s : State} {b : ℕ} {n : ℕ} (hk : Side ρ s) :
    Side ρ (stickyAll s b n) := by
  unfold stickyAll
  try dsimp only
  repeat' (first
    | with_reducible assumption
    | with_reducible apply State.setSticky_side
    | with_reducible apply Side.foldl
    | with_reducible apply Side.foldlFst
    | with_reducible refine Side.fst (by assumption) ?_
    | split
    | intro _
    )

theorem noteEvent_side {ρ : State} {s : State} {b : ℕ} {e : ℕ} (hk : Side ρ s) :
    Side ρ (noteEvent s b e) := by
  unfold noteEvent
  try dsimp only
  repeat' (first
    | with_reducible assumption
    | with_reducible refine Side.fst (by assumption) ?_
    | (with_reducible refine Side.upd ?_; with_reducible assumption)
    )

theorem beamEvent_side {ρ : State} {s : State} {b : ℕ} {e : ℕ} (hk : Side ρ s) :
    Side ρ (beamEvent s b e) := by
  unfold beamEvent
  try dsimp only
  repeat' (first
    | with_reducible assumption
    | with_reducible apply noteEvent_side
    | with_reducible apply State.orReg_side
    | with_reducible apply stickyAll_side
    | with_reducible apply raisePrivate_side
    | with_reducible apply tallySnap_side
    | with_reducible apply tallySource_side
    | with_reducible apply tngSignal_side
    | with_reducible apply Side.foldl
    | with_reducible apply Side.foldlFst
    | with_reducible refine Side.fst (by assumption) ?_
    | (with_reducible refine Side.upd ?_; split)
    | split
    | intro _
    )

theorem pkgEvent_side {ρ : State} {s : State} {e : ℕ} (hk : Side ρ s) :
    Side ρ (pkgEvent s e) := by
  unfold pkgEvent
  try dsimp only
  repeat' (first
    | with_reducible assumption
    | with_reducible apply State.eachBillet_side
    | with_reducible apply beamEvent_side
    | with_reducible refine Side.fst (by assumption) ?_
    | split
    | intro _
    )

theorem tallyAdd_side {ρ : State} {s : State} {b : ℕ} {k : ℕ} {n : ℕ} {at' : ℕ} (hk : Side ρ s) :
    Side ρ (tallyAdd s b k n at') := by
  unfold tallyAdd
  try dsimp only
  repeat' (first
    | with_reducible assumption
    | with_reducible apply State.setTally_side
    | with_reducible apply pulseIrq_side
    | with_reducible apply State.orReg_side
    | with_reducible refine Side.fst (by assumption) ?_
    | (with_reducible refine Side.upd ?_; split)
    )

theorem tallyPast_side {ρ : State} {s : State} {b : ℕ} {src : ℕ} {n : ℕ} {at' : ℕ} (hk : Side ρ s) :
    Side ρ (tallyPast s b src n at') := by
  unfold tallyPast
  try dsimp only
  repeat' (first
    | with_reducible assumption
    | with_reducible apply tallyAdd_side
    | with_reducible apply Side.foldl
    | with_reducible apply Side.foldlFst
    | with_reducible refine Side.fst (by assumption) ?_
    | (with_reducible refine Side.upd ?_; split)
    | split
    | intro _
    )

theorem tickCross_side {ρ : State} {s : State} {old : ℕ} (hk : Side ρ s) :
    Side ρ (tickCross s old) := by
  unfold tickCross
  try dsimp only
  repeat' (first
    | with_reducible assumption
    | with_reducible apply State.eachBillet_side
    | with_reducible apply tallySource_side
    | with_reducible refine Side.fst (by assumption) ?_
    | split
    | intro _
    )

theorem countDefer_side {ρ : State} {s : State} {c : Commit} {off : ℕ} {evt : ℕ} (hk : Side ρ s) :
    Side ρ (countDefer s c off evt) := by
  unfold countDefer
  try dsimp only
  repeat' (first
    | with_reducible assumption
    | with_reducible apply State.setRf_side
    | with_reducible apply State.orReg_side
    | with_reducible apply State.addReg_side
    | with_reducible apply Side.foldl
    | with_reducible apply Side.foldlFst
    | with_reducible refine Side.fst (by assumption) ?_
    | split
    | intro _
    )

theorem countLate_side {ρ : State} {s : State} {c : Commit} (hk : Side ρ s) :
    Side ρ (countLate s c) := by
  unfold countLate
  try dsimp only
  repeat' (first
    | with_reducible assumption
    | with_reducible apply countDefer_side
    )

theorem State.setLive_side {ρ : State} {s : State} {l : List Commit} (hk : Side ρ s) :
    Side ρ (State.setLive s l) := by
  unfold State.setLive
  try dsimp only
  repeat' (first
    | with_reducible assumption
    | with_reducible refine Side.fst (by assumption) ?_
    | (with_reducible refine Side.upd ?_; with_reducible assumption)
    )

theorem acceptCommit_side {ρ : State} {s : State} {id : ℕ} (hk : Side ρ s) :
    Side ρ (acceptCommit s id) := by
  unfold acceptCommit
  try dsimp only
  repeat' (first
    | with_reducible assumption
    | with_reducible apply State.setLive_side
    | with_reducible refine Side.fst (by assumption) ?_
    | (with_reducible refine Side.upd ?_; with_reducible apply State.setLive_side)
    | (with_reducible refine Side.upd ?_; split)
    )

theorem issueCommit_side {ρ : State} {s : State} {billet : ℕ} {ctx : ℕ} {writes : List CWrite} {target : ℕ × ℕ} {orig : ℕ} {late : Bool} (hk : Side ρ s) :
    Side ρ (issueCommit s billet ctx writes target orig late) := by
  unfold issueCommit
  try dsimp only
  repeat' (first
    | with_reducible assumption
    | with_reducible apply acceptCommit_side
    | with_reducible apply countLate_side
    | with_reducible refine Side.fst (by assumption) ?_
    | (with_reducible refine Side.upd ?_; with_reducible assumption)
    | (with_reducible refine Side.upd ?_; split)
    )

theorem issueFrom_side {ρ : State} {s : State} {billet : ℕ} {ctx : ℕ} {writes : List CWrite} (hk : Side ρ s) :
    Side ρ (issueFrom s billet ctx writes) := by
  unfold issueFrom
  try dsimp only
  repeat' (first
    | with_reducible assumption
    | with_reducible apply issueCommit_side
    | with_reducible refine Side.fst (by assumption) ?_
    | (with_reducible refine Side.upd ?_; split)
    )

theorem setHeld_side {ρ : State} {s : State} {key : ℕ} {l : List CWrite} (hk : Side ρ s) :
    Side ρ (setHeld s key l) := by
  unfold setHeld
  try dsimp only
  repeat' (first
    | with_reducible assumption
    | with_reducible refine Side.fst (by assumption) ?_
    | (with_reducible refine Side.upd ?_; with_reducible assumption)
    )

theorem setSingle_side {ρ : State} {s : State} {key : ℕ} {v : Bool} (hk : Side ρ s) :
    Side ρ (setSingle s key v) := by
  unfold setSingle
  try dsimp only
  repeat' (first
    | with_reducible assumption
    | with_reducible refine Side.fst (by assumption) ?_
    | (with_reducible refine Side.upd ?_; with_reducible assumption)
    )

theorem commitWrite_side {ρ : State} {s : State} {billet : ℕ} {ctx : ℕ} {w : CWrite} (hk : Side ρ s) :
    Side ρ (commitWrite s billet ctx w) := by
  unfold commitWrite
  try dsimp only
  repeat' (first
    | with_reducible assumption
    | with_reducible apply setHeld_side
    | with_reducible apply issueFrom_side
    | with_reducible apply setSingle_side
    | with_reducible apply State.orReg_side
    | with_reducible refine Side.fst (by assumption) ?_
    | (with_reducible refine Side.upd ?_; split)
    )

theorem holdOn_side {ρ : State} {s : State} {b : ℕ} {k : ℕ} (hk : Side ρ s) :
    Side ρ (holdOn s b k) := by
  unfold holdOn
  try dsimp only
  repeat' (first
    | with_reducible assumption
    | with_reducible apply setSingle_side
    | with_reducible apply State.orReg_side
    )

theorem holdOff_side {ρ : State} {s : State} {b : ℕ} {k : ℕ} (hk : Side ρ s) :
    Side ρ (holdOff s b k) := by
  unfold holdOff
  try dsimp only
  repeat' (first
    | with_reducible assumption
    | with_reducible apply setSingle_side
    | with_reducible apply setHeld_side
    | with_reducible apply State.clrReg_side
    | with_reducible apply issueFrom_side
    | with_reducible refine Side.fst (by assumption) ?_
    | (with_reducible refine Side.upd ?_; split)
    )

theorem lineCommit_side {ρ : State} {s : State} {who : Who} {addr : ℕ} {v : Word} (hk : Side ρ s) :
    Side ρ (lineCommit s who addr v) := by
  unfold lineCommit
  try dsimp only
  repeat' (first
    | with_reducible assumption
    | with_reducible apply commitWrite_side
    | with_reducible refine Side.fst (by assumption) ?_
    | (with_reducible refine Side.upd ?_; split)
    )

theorem hostErr_side {ρ : State} {s : State} {i : ℕ} {addr : ℕ} (hk : Side ρ s) :
    Side ρ (hostErr s i addr) := by
  unfold hostErr
  try dsimp only
  repeat' (first
    | with_reducible assumption
    | with_reducible apply State.setReg_side
    | with_reducible apply State.orReg_side
    )

theorem immediateBits_side {ρ : State} {s : State} {addr : ℕ} {v : Word} (hk : Side ρ s) :
    Side ρ (immediateBits s addr v) := by
  unfold immediateBits
  try dsimp only
  repeat' (first
    | with_reducible assumption
    | with_reducible apply State.setReg_side
    | with_reducible refine Side.fst (by assumption) ?_
    | (with_reducible refine Side.upd ?_; split)
    )

theorem aliasWrite_side {ρ : State} {s : State} {who : Who} {off : ℕ} {v : Word} (hk : Side ρ s) :
    Side ρ (aliasWrite s who off v) := by
  unfold aliasWrite
  try dsimp only
  repeat' (first
    | with_reducible assumption
    | with_reducible apply hostErr_side
    | with_reducible apply State.eachBillet_side
    | with_reducible apply immediateBits_side
    | with_reducible apply commitWrite_side
    | with_reducible refine Side.fst (by assumption) ?_
    | (with_reducible refine Side.upd ?_; split)
    | split
    | intro _
    )

theorem receiveCommit_side {ρ : State} {s : State} {id : ℕ} {b : ℕ} {poisoned : Bool} (hk : Side ρ s) :
    Side ρ (receiveCommit s id b poisoned) := by
  unfold receiveCommit
  try dsimp only
  repeat' (first
    | with_reducible assumption
    | with_reducible apply State.setLive_side
    | with_reducible apply State.orReg_side
    | with_reducible apply State.addReg_side
    | with_reducible refine Side.fst (by assumption) ?_
    | (with_reducible refine Side.upd ?_; split)
    )

theorem judgeSeal_side {ρ : State} {s : State} (hk : Side ρ s) :
    Side ρ (judgeSeal s) := by
  unfold judgeSeal
  try dsimp only
  repeat' (first
    | with_reducible assumption
    | with_reducible apply countLate_side
    | with_reducible apply Side.foldl
    | with_reducible apply Side.foldlFst
    | with_reducible refine Side.fst (by assumption) ?_
    | (with_reducible refine Side.upd ?_; with_reducible assumption)
    | (with_reducible refine Side.upd ?_; split)
    )

theorem sealLine_side {ρ : State} {s : State} (hk : Side ρ s) :
    Side ρ (sealLine s) := by
  unfold sealLine
  try dsimp only
  repeat' (first
    | with_reducible assumption
    | with_reducible refine Side.fst (by assumption) ?_
    | (with_reducible refine Side.upd ?_; with_reducible assumption)
    )

theorem sealSet_side {ρ : State} {s : State} {dst : ℕ} {src : ℕ} (hk : Side ρ s) :
    Side ρ (sealSet s dst src) := by
  unfold sealSet
  try dsimp only
  repeat' (first
    | with_reducible assumption
    | with_reducible apply judgeSeal_side
    | with_reducible refine Side.fst (by assumption) ?_
    | (with_reducible refine Side.upd ?_; with_reducible assumption)
    | (with_reducible refine Side.upd ?_; split)
    )

theorem setQch_side {ρ : State} {s : State} {x : Quench} (hk : Side ρ s) :
    Side ρ (setQch s x) := by
  unfold setQch
  try dsimp only
  repeat' (first
    | with_reducible assumption
    | with_reducible refine Side.fst (by assumption) ?_
    | (with_reducible refine Side.upd ?_; with_reducible assumption)
    )

theorem qchEvt_side {ρ : State} {s : State} {m : ℕ} (hk : Side ρ s) :
    Side ρ (qchEvt s m) := by
  unfold qchEvt
  try dsimp only
  repeat' (first
    | with_reducible assumption
    | with_reducible apply State.orReg_side
    )

theorem takeTrigger_side {ρ : State} {s : State} {cause : ℕ} (hk : Side ρ s) :
    Side ρ (takeTrigger s cause) := by
  unfold takeTrigger
  try dsimp only
  repeat' (first
    | with_reducible assumption
    | with_reducible apply setQch_side
    | with_reducible refine Side.fst (by assumption) ?_
    | (with_reducible refine Side.upd ?_; split)
    )

theorem localFault_side {ρ : State} {s : State} {i : ℕ} (hk : Side ρ s) :
    Side ρ (localFault s i) := by
  unfold localFault
  try dsimp only
  repeat' (first
    | with_reducible assumption
    | with_reducible apply qchEvt_side
    | with_reducible apply takeTrigger_side
    | with_reducible refine Side.fst (by assumption) ?_
    | (with_reducible refine Side.upd ?_; split)
    )

theorem tagNote_side {ρ : State} {s : State} {b : ℕ} {n : ℕ} (hk : Side ρ s) :
    Side ρ (tagNote s b n) := by
  unfold tagNote
  try dsimp only
  repeat' (first
    | with_reducible assumption
    | with_reducible apply State.setReg_side
    )

theorem tagStall_side {ρ : State} {s : State} {b : ℕ} (hk : Side ρ s) :
    Side ρ (tagStall s b) := by
  unfold tagStall
  try dsimp only
  repeat' (first
    | with_reducible assumption
    | with_reducible apply State.orReg_side
    | with_reducible apply State.addReg_side
    )

theorem setHint_side {ρ : State} {s : State} {b : ℕ} {r : ℕ} {h : ℕ} (hk : Side ρ s) :
    Side ρ (setHint s b r h) := by
  unfold setHint
  try dsimp only
  repeat' (first
    | with_reducible assumption
    | with_reducible apply State.setRf_side
    )

theorem freezeDrained_side {ρ : State} {s : State} {b : ℕ} (hk : Side ρ s) :
    Side ρ (freezeDrained s b) := by
  unfold freezeDrained
  try dsimp only
  repeat' (first
    | with_reducible assumption
    | with_reducible apply State.orReg_side
    | with_reducible refine Side.fst (by assumption) ?_
    | (with_reducible refine Side.upd ?_; split)
    )

theorem setFreq_side {ρ : State} {s : State} {b : ℕ} {p : ℕ} (hk : Side ρ s) :
    Side ρ (setFreq s b p) := by
  unfold setFreq
  try dsimp only
  repeat' (first
    | with_reducible assumption
    | with_reducible apply State.setReg_side
    )

theorem frameMatch_side {ρ : State} {s : State} (hk : Side ρ s) :
    Side ρ (frameMatch s) := by
  unfold frameMatch
  try dsimp only
  repeat' (first
    | with_reducible assumption
    | with_reducible apply pkgEvent_side
    | with_reducible refine Side.fst (by assumption) ?_
    | (with_reducible refine Side.upd ?_; split)
    )

theorem lineEvents_side {ρ : State} {s : State} (hk : Side ρ s) :
    Side ρ (lineEvents s) := by
  unfold lineEvents
  try dsimp only
  repeat' (first
    | with_reducible assumption
    | with_reducible apply pkgEvent_side
    | with_reducible apply frameMatch_side
    | with_reducible refine Side.fst (by assumption) ?_
    | (with_reducible refine Side.upd ?_; split)
    )

theorem slaveCheck_side {ρ : State} {s : State} {b : ℕ} {p : ℕ} (hk : Side ρ s) :
    Side ρ (slaveCheck s b p) := by
  unfold slaveCheck
  try dsimp only
  repeat' (first
    | with_reducible assumption
    | with_reducible apply State.orReg_side
    | with_reducible refine Side.fst (by assumption) ?_
    | (with_reducible refine Side.upd ?_; split)
    )

theorem setRange_side {ρ : State} {s : State} {b : ℕ} {p : ℕ} (hk : Side ρ s) :
    Side ρ (setRange s b p) := by
  unfold setRange
  try dsimp only
  repeat' (first
    | with_reducible assumption
    | with_reducible apply State.orReg_side
    | with_reducible apply localFault_side
    | with_reducible refine Side.fst (by assumption) ?_
    | (with_reducible refine Side.upd ?_; split)
    )

theorem leadCheck_side {ρ : State} {s : State} {b : ℕ} {p : ℕ} (hk : Side ρ s) :
    Side ρ (leadCheck s b p) := by
  unfold leadCheck
  try dsimp only
  repeat' (first
    | with_reducible assumption
    | with_reducible apply State.orReg_side
    | with_reducible refine Side.fst (by assumption) ?_
    | (with_reducible refine Side.upd ?_; split)
    )

theorem strikeNote_side {ρ : State} {s : State} {b : ℕ} {p : ℕ} {i : ℕ} {k : Strike} (hk : Side ρ s) :
    Side ρ (strikeNote s b p i k) := by
  unfold strikeNote
  try dsimp only
  repeat' (first
    | with_reducible assumption
    | with_reducible apply State.setReg_side
    | with_reducible apply State.orReg_side
    )

theorem strikeSkip_side {ρ : State} {s : State} {b : ℕ} {p : ℕ} {i : ℕ} {k : Strike} (hk : Side ρ s) :
    Side ρ (strikeSkip s b p i k) := by
  unfold strikeSkip
  try dsimp only
  repeat' (first
    | with_reducible assumption
    | with_reducible apply State.addReg_side
    | with_reducible apply strikeNote_side
    )

theorem unreached_side {ρ : State} {s : State} {b : ℕ} {p : ℕ} (hk : Side ρ s) :
    Side ρ (unreached s b p) := by
  unfold unreached
  try dsimp only
  repeat' (first
    | with_reducible assumption
    | with_reducible apply State.addReg_side
    | with_reducible apply strikeNote_side
    | with_reducible refine Side.fst (by assumption) ?_
    | (with_reducible refine Side.upd ?_; split)
    )

theorem State.setLiveQueue_side {ρ : State} {s : State} {b : ℕ} {l : List LiveWrite} (hk : Side ρ s) :
    Side ρ (State.setLiveQueue s b l) := by
  unfold State.setLiveQueue
  try dsimp only
  repeat' (first
    | with_reducible assumption
    | with_reducible refine Side.fst (by assumption) ?_
    | (with_reducible refine Side.upd ?_; with_reducible assumption)
    )

theorem pushLive_side {ρ : State} {s : State} {b : ℕ} {key : ℕ} {off : ℕ} {v : Word} {op : optParam (Option (ℕ × BitOp)) none} (hk : Side ρ s) :
    Side ρ (pushLive s b key off v op) := by
  unfold pushLive
  try dsimp only
  repeat' (first
    | with_reducible assumption
    | with_reducible apply State.setLiveQueue_side
    )

theorem liveShow_side {ρ : State} {s : State} {b : ℕ} {off : ℕ} (hk : Side ρ s) :
    Side ρ (liveShow s b off) := by
  unfold liveShow
  try dsimp only
  repeat' (first
    | with_reducible assumption
    | with_reducible apply State.setBreg_side
    )

theorem liveEdge_side {ρ : State} {s : State} {b : ℕ} {i : ℕ} (hk : Side ρ s) :
    Side ρ (liveEdge s b i) := by
  unfold liveEdge
  try dsimp only
  repeat' (first
    | with_reducible assumption
    | with_reducible apply liveShow_side
    | with_reducible apply State.setLiveQueue_side
    | with_reducible refine Side.fst (by assumption) ?_
    | (with_reducible refine Side.upd ?_; split)
    )

theorem reflexIssue_side {ρ s1 : State} {b k off : ℕ} {all : Bool} {v : Word} (hk : Side ρ s1) :
    Side ρ (reflexIssue s1 b k off all v) := by
  have h0 := Side.ite (c := all = true) (State.eachBillet_side (fun _ b h => immediateBits_side (addr := baddr b off) (v := v) h) hk)
    (immediateBits_side (addr := baddr b off) (v := v) hk)
  unfold reflexIssue
  refine Side.ite (Side.upd ?_) ?_
  all_goals exact Side.ite h0 (issueFrom_side h0)

theorem reflexFire_side {ρ : State} {s : State} {b : ℕ} {k : ℕ} (hk : Side ρ s) :
    Side ρ (reflexFire s b k) := by
  unfold reflexFire
  try dsimp only
  repeat' (first
    | with_reducible assumption
    | with_reducible apply State.addReg_side
    | with_reducible apply State.setReg_side
    | with_reducible apply State.orReg_side
    | with_reducible apply pushLive_side
    | with_reducible apply reflexIssue_side
    | with_reducible refine Side.fst (by assumption) ?_
    | (with_reducible refine Side.upd ?_; split)
    )

theorem setStat_side {ρ : State} {s : State} {b : ℕ} {h : ℕ} {i : ℕ} (hk : Side ρ s) :
    Side ρ (setStat s b h i) := by
  unfold setStat
  try dsimp only
  repeat' (first
    | with_reducible assumption
    | with_reducible apply State.orReg_side
    )

theorem raiseDlMiss_side {ρ : State} {s : State} {b : ℕ} {h : ℕ} (hk : Side ρ s) :
    Side ρ (raiseDlMiss s b h) := by
  unfold raiseDlMiss
  try dsimp only
  repeat' (first
    | with_reducible assumption
    | with_reducible apply raisePrivate_side
    | with_reducible apply setStat_side
    )

theorem freeSlot_side {ρ : State} {s : State} {b : ℕ} {h : ℕ} {l : ℕ} (hk : Side ρ s) :
    Side ρ (freeSlot s b h l) := by
  unfold freeSlot
  try dsimp only
  repeat' (first
    | with_reducible assumption
    | with_reducible apply State.setSlot_side
    | with_reducible apply State.setSrc_side
    | with_reducible refine Side.fst (by assumption) ?_
    | (with_reducible refine Side.upd ?_; split)
    )

theorem privErr_side {ρ : State} {s : State} {who : Who} (hk : Side ρ s) :
    Side ρ (privErr s who) := by
  unfold privErr
  try dsimp only
  repeat' (first
    | with_reducible assumption
    | with_reducible apply setStat_side
    | with_reducible refine Side.fst (by assumption) ?_
    | (with_reducible refine Side.upd ?_; split)
    )

theorem claimSource_side {ρ : State} {s : State} {b : ℕ} {h : ℕ} (hk : Side ρ s) :
    Side ρ (claimSource s b h).1 := by
  unfold claimSource
  try dsimp only
  repeat' (first
    | with_reducible assumption
    | with_reducible apply State.addRf_side
    | with_reducible apply State.setSlot_side
    | with_reducible apply State.setPpend_side
    | with_reducible apply State.setSrc_side
    | with_reducible refine Side.fst (by assumption) ?_
    | (with_reducible refine Side.upd ?_; split)
    )

theorem completeId_side {ρ : State} {s : State} {b : ℕ} {h : ℕ} {id : ℕ} (hk : Side ρ s) :
    Side ρ (completeId s b h id) := by
  unfold completeId
  try dsimp only
  repeat' (first
    | with_reducible assumption
    | with_reducible apply State.orReg_side
    | with_reducible apply freeSlot_side
    | with_reducible refine Side.fst (by assumption) ?_
    | (with_reducible refine Side.upd ?_; split)
    )

theorem icSrcWrite_side {ρ : State} {s : State} {b : ℕ} {i : ℕ} {v : Word} (hk : Side ρ s) :
    Side ρ (icSrcWrite s b i v) := by
  unfold icSrcWrite
  try dsimp only
  repeat' (first
    | with_reducible assumption
    | with_reducible apply State.setReg_side
    | with_reducible apply State.setSrc_side
    )

theorem privSet_side {ρ : State} {s : State} {b : ℕ} {h : ℕ} {v : Word} (hk : Side ρ s) :
    Side ρ (privSet s b h v) := by
  unfold privSet
  try dsimp only
  repeat' (first
    | with_reducible assumption
    | with_reducible apply raisePrivate_side
    | with_reducible apply Side.foldl
    | with_reducible apply Side.foldlFst
    | with_reducible refine Side.fst (by assumption) ?_
    | split
    | intro _
    )

theorem State.setMatcher_side {ρ : State} {s : State} {b : ℕ} {k : ℕ} {x : Matcher} (hk : Side ρ s) :
    Side ρ (State.setMatcher s b k x) := by
  unfold State.setMatcher
  try dsimp only
  repeat' (first
    | with_reducible assumption
    | with_reducible refine Side.fst (by assumption) ?_
    | (with_reducible refine Side.upd ?_; with_reducible assumption)
    )

theorem pmFire_side {ρ : State} {s : State} {b : ℕ} {k : ℕ} (hk : Side ρ s) :
    Side ρ (pmFire s b k) := by
  unfold pmFire
  try dsimp only
  repeat' (first
    | with_reducible assumption
    | with_reducible apply State.addReg_side
    | with_reducible apply State.orReg_side
    | with_reducible apply stickyAll_side
    | with_reducible apply tallySource_side
    | with_reducible apply reflexFire_side
    | with_reducible apply pulseIrq_side
    )

theorem pmEval_side {ρ : State} {s : State} {b : ℕ} {k : ℕ} (hk : Side ρ s) :
    Side ρ (pmEval s b k) := by
  unfold pmEval
  try dsimp only
  repeat' (first
    | with_reducible assumption
    | with_reducible apply State.setMatcher_side
    | with_reducible apply pmFire_side
    | with_reducible refine Side.fst (by assumption) ?_
    | (with_reducible refine Side.upd ?_; split)
    )

theorem pmAll_side {ρ : State} {s : State} {b : ℕ} (hk : Side ρ s) :
    Side ρ (pmAll s b) := by
  unfold pmAll
  try dsimp only
  repeat' (first
    | with_reducible assumption
    | with_reducible apply pmEval_side
    | with_reducible apply Side.foldl
    | with_reducible apply Side.foldlFst
    | with_reducible refine Side.fst (by assumption) ?_
    | split
    | intro _
    )

theorem pmLoad_side {ρ : State} {s : State} {b : ℕ} {k : ℕ} (hk : Side ρ s) :
    Side ρ (pmLoad s b k) := by
  unfold pmLoad
  try dsimp only
  repeat' (first
    | with_reducible assumption
    | with_reducible apply State.setMatcher_side
    )

theorem pmQuiet_side {ρ : State} {s : State} {b : ℕ} (hk : Side ρ s) :
    Side ρ (pmQuiet s b) := by
  unfold pmQuiet
  try dsimp only
  repeat' (first
    | with_reducible assumption
    | with_reducible apply State.setMatcher_side
    | with_reducible apply Side.foldl
    | with_reducible apply Side.foldlFst
    | with_reducible refine Side.fst (by assumption) ?_
    | split
    | intro _
    )

theorem capQuiet_side {ρ : State} {s : State} {b : ℕ} {n : ℕ} (hk : Side ρ s) :
    Side ρ (capQuiet s b n) := by
  unfold capQuiet
  try dsimp only
  repeat' (first
    | with_reducible assumption
    | with_reducible apply Side.foldl
    | with_reducible apply Side.foldlFst
    | with_reducible refine Side.fst (by assumption) ?_
    | (with_reducible refine Side.upd ?_; with_reducible assumption)
    | split
    | intro _
    )

theorem irqQuiet_side {ρ : State} {s : State} {b : ℕ} {n : ℕ} (hk : Side ρ s) :
    Side ρ (irqQuiet s b n) := by
  unfold irqQuiet
  try dsimp only
  repeat' (first
    | with_reducible assumption
    | with_reducible apply State.setSrc_side
    | with_reducible apply irqSense_side
    | with_reducible refine Side.fst (by assumption) ?_
    | (with_reducible refine Side.upd ?_; split)
    )

theorem pinEdge_side {ρ : State} {s : State} {b : ℕ} {n : ℕ} (hk : Side ρ s) :
    Side ρ (pinEdge s b n) := by
  unfold pinEdge
  try dsimp only
  repeat' (first
    | with_reducible assumption
    | with_reducible apply State.orReg_side
    | with_reducible apply stickyAll_side
    | with_reducible apply tallySource_side
    )

theorem wbCount_side {ρ : State} {s : State} {b : ℕ} {p : ℕ} (hk : Side ρ s) :
    Side ρ (wbCount s b p) := by
  unfold wbCount
  try dsimp only
  repeat' (first
    | with_reducible assumption
    | with_reducible apply State.addRf_side
    | with_reducible apply State.orReg_side
    )

theorem cmpFired_side {ρ : State} {s : State} {b : ℕ} {k : ℕ} {bits' : ℕ} (hk : Side ρ s) :
    Side ρ (cmpFired s b k bits') := by
  unfold cmpFired
  try dsimp only
  repeat' (first
    | with_reducible assumption
    | with_reducible apply tngSignal_side
    | with_reducible apply tallySource_side
    | with_reducible apply pulseIrq_side
    | with_reducible apply State.orReg_side
    )

theorem State.setCapture_side {ρ : State} {s : State} {b : ℕ} {c : ℕ} {x : Capture} (hk : Side ρ s) :
    Side ρ (State.setCapture s b c x) := by
  unfold State.setCapture
  try dsimp only
  repeat' (first
    | with_reducible assumption
    | with_reducible refine Side.fst (by assumption) ?_
    | (with_reducible refine Side.upd ?_; with_reducible assumption)
    )

theorem capRecord_side {ρ : State} {s : State} {b : ℕ} {c : ℕ} {lag : ℕ} (hk : Side ρ s) :
    Side ρ (capRecord s b c lag) := by
  unfold capRecord
  try dsimp only
  repeat' (first
    | with_reducible assumption
    | with_reducible apply State.setCapture_side
    | with_reducible apply State.setReg_side
    | with_reducible apply tallySource_side
    | with_reducible apply pulseIrq_side
    | with_reducible refine Side.fst (by assumption) ?_
    | (with_reducible refine Side.upd ?_; split)
    )

theorem capTake_side {ρ : State} {s : State} {b : ℕ} {c : ℕ} {lag : ℕ} (hk : Side ρ s) :
    Side ρ (capTake s b c lag) := by
  unfold capTake
  try dsimp only
  repeat' (first
    | with_reducible assumption
    | with_reducible apply State.orReg_side
    | with_reducible apply capRecord_side
    | with_reducible refine Side.fst (by assumption) ?_
    | (with_reducible refine Side.upd ?_; split)
    )

theorem capAccept_side {ρ : State} {s : State} {b : ℕ} {c : ℕ} {lag : ℕ} (hk : Side ρ s) :
    Side ρ (capAccept s b c lag) := by
  unfold capAccept
  try dsimp only
  repeat' (first
    | with_reducible assumption
    | with_reducible apply State.setCapture_side
    | with_reducible apply capTake_side
    | with_reducible refine Side.fst (by assumption) ?_
    | (with_reducible refine Side.upd ?_; split)
    )

theorem capEvent_side {ρ : State} {s : State} {b : ℕ} {c : ℕ} (hk : Side ρ s) :
    Side ρ (capEvent s b c) := by
  unfold capEvent
  try dsimp only
  repeat' (first
    | with_reducible assumption
    | with_reducible apply capAccept_side
    | with_reducible apply State.nextFree_side
    | with_reducible refine Side.fst (by assumption) ?_
    | (with_reducible refine Side.upd ?_; split)
    )

theorem capWrite_side {ρ : State} {s : State} {b : ℕ} {c : ℕ} {r : ℕ} {v : Word} (hk : Side ρ s) :
    Side ρ (capWrite s b c r v) := by
  unfold capWrite
  try dsimp only
  repeat' (first
    | with_reducible assumption
    | with_reducible apply State.setReg_side
    | with_reducible apply State.setCapture_side
    | with_reducible refine Side.fst (by assumption) ?_
    | (with_reducible refine Side.upd ?_; split)
    )

theorem laneLink_side {ρ : State} {s : State} {b : ℕ} {l : ℕ} {up : Bool} (hk : Side ρ s) :
    Side ρ (laneLink s b l up) := by
  unfold laneLink
  try dsimp only
  repeat' (first
    | with_reducible assumption
    | with_reducible apply State.orReg_side
    | with_reducible apply State.clrReg_side
    | with_reducible refine Side.fst (by assumption) ?_
    | (with_reducible refine Side.upd ?_; split)
    )

theorem laneDrop_side {ρ : State} {s : State} {b : ℕ} {l : ℕ} (hk : Side ρ s) :
    Side ρ (laneDrop s b l) := by
  unfold laneDrop
  try dsimp only
  repeat' (first
    | with_reducible assumption
    | with_reducible apply State.addReg_side
    | with_reducible apply State.orReg_side
    )

theorem senderDrop_side {ρ : State} {s : State} {stat : ℕ} (hk : Side ρ s) :
    Side ρ (senderDrop s stat) := by
  unfold senderDrop
  try dsimp only
  repeat' (first
    | with_reducible assumption
    | with_reducible apply State.orReg_side
    | with_reducible refine Side.fst (by assumption) ?_
    | (with_reducible refine Side.upd ?_; split)
    )

theorem fwAdvance_side {ρ : State} {s : State} {b : ℕ} (hk : Side ρ s) :
    Side ρ (fwAdvance s b) := by
  unfold fwAdvance
  try dsimp only
  repeat' (first
    | with_reducible assumption
    | with_reducible apply State.setRf_side
    )

theorem tuyEvt_side {ρ : State} {s : State} {m : ℕ} (hk : Side ρ s) :
    Side ρ (tuyEvt s m) := by
  unfold tuyEvt
  try dsimp only
  repeat' (first
    | with_reducible assumption
    | with_reducible apply State.orReg_side
    )

theorem tuySat_side {ρ : State} {s : State} (hk : Side ρ s) :
    Side ρ (tuySat s) := by
  unfold tuySat
  try dsimp only
  repeat' (first
    | with_reducible assumption
    | with_reducible apply tuyEvt_side
    | with_reducible apply State.addReg_side
    )

theorem convOut_side {ρ : State} {s : State} {live : Bool} {x : Conv} (hk : Side ρ s) :
    Side ρ (convOut s live x).1 := by
  unfold convOut
  try dsimp only
  repeat' (first
    | with_reducible assumption
    | with_reducible apply State.nextFree_side
    | with_reducible refine Side.fst (by assumption) ?_
    | (with_reducible refine Side.upd ?_; split)
    )

theorem silEvent_side {ρ : State} {s : State} {b : ℕ} {nsil : Bool} (hk : Side ρ s) :
    Side ρ (silEvent s b nsil) := by
  unfold silEvent
  try dsimp only
  repeat' (first
    | with_reducible assumption
    | with_reducible apply State.orReg_side
    )

theorem silence_side {ρ : State} {s : State} {b : ℕ} {x : Bus} {a : ℕ} (hk : Side ρ s) :
    Side ρ (silence s b x a).1 := by
  unfold silence
  try dsimp only
  repeat' (first
    | with_reducible assumption
    | with_reducible apply silEvent_side
    | with_reducible refine Side.fst (by assumption) ?_
    | (with_reducible refine Side.upd ?_; split)
    )

theorem tuySkip_side {ρ : State} {s : State} {now : ℕ} (hk : Side ρ s) :
    Side ρ (tuySkip s now) := by
  unfold tuySkip
  try dsimp only
  repeat' (first
    | with_reducible assumption
    | with_reducible apply tuyEvt_side
    | with_reducible apply State.addReg_side
    | with_reducible refine Side.fst (by assumption) ?_
    | (with_reducible refine Side.upd ?_; split)
    )

theorem flowStat_side {ρ : State} {s : State} {b : ℕ} {f : ℕ} {m : ℕ} (hk : Side ρ s) :
    Side ρ (flowStat s b f m) := by
  unfold flowStat
  try dsimp only
  repeat' (first
    | with_reducible assumption
    | with_reducible apply State.orReg_side
    )

theorem noteLost_side {ρ : State} {s : State} {b : ℕ} {f : ℕ} {k : ℕ} (hk : Side ρ s) :
    Side ρ (noteLost s b f k) := by
  unfold noteLost
  try dsimp only
  repeat' (first
    | with_reducible assumption
    | with_reducible apply flowStat_side
    | with_reducible apply State.addReg_side
    | with_reducible refine Side.fst (by assumption) ?_
    | (with_reducible refine Side.upd ?_; split)
    )

theorem freeSamples_side {ρ : State} {s : State} {x : Conv} {live : ℕ → Bool} {n : ℕ} (hk : Side ρ s) :
    Side ρ (freeSamples s x live n).1 := by
  unfold freeSamples
  try dsimp only
  repeat' (first
    | with_reducible assumption
    | with_reducible apply convOut_side
    | with_reducible apply Side.foldl
    | with_reducible apply Side.foldlFst
    | with_reducible refine Side.fst (by assumption) ?_
    | split
    | intro _
    )

theorem ptpEnter_side {ρ : State} {s : State} {n : ℕ} (hk : Side ρ s) :
    Side ρ (ptpEnter s n) := by
  unfold ptpEnter
  try dsimp only
  repeat' (first
    | with_reducible assumption
    | with_reducible apply State.setRf_side
    | with_reducible apply State.orReg_side
    )

theorem ptpDisable_side {ρ : State} {s : State} (hk : Side ρ s) :
    Side ρ (ptpDisable s) := by
  unfold ptpDisable
  try dsimp only
  repeat' (first
    | with_reducible assumption
    | with_reducible apply ptpEnter_side
    | with_reducible apply State.setRf_side
    )

theorem stopCompare_side {ρ : State} {s : State} (hk : Side ρ s) :
    Side ρ (stopCompare s) := by
  unfold stopCompare
  try dsimp only
  repeat' (first
    | with_reducible assumption
    | with_reducible apply setQch_side
    )

theorem setSt_side {ρ : State} {s : State} {n : ℕ} (hk : Side ρ s) :
    Side ρ (setSt s n) := by
  unfold setSt
  try dsimp only
  repeat' (first
    | with_reducible assumption
    | with_reducible apply setQch_side
    | with_reducible apply qchEvt_side
    | with_reducible apply stopCompare_side
    | with_reducible refine Side.fst (by assumption) ?_
    | (with_reducible refine Side.upd ?_; split)
    )

theorem resyncFail_side {ρ : State} {s : State} (hk : Side ρ s) :
    Side ρ (resyncFail s) := by
  unfold resyncFail
  try dsimp only
  repeat' (first
    | with_reducible assumption
    | with_reducible apply State.clrReg_side
    | with_reducible apply qchEvt_side
    )

theorem linkDown_side {ρ : State} {s : State} (hk : Side ρ s) :
    Side ρ (linkDown s) := by
  unfold linkDown
  try dsimp only
  repeat' (first
    | with_reducible assumption
    | with_reducible apply resyncFail_side
    | with_reducible apply setQch_side
    | with_reducible apply setSt_side
    | with_reducible refine Side.fst (by assumption) ?_
    | (with_reducible refine Side.upd ?_; split)
    )

theorem pairCheck_side {ρ : State} {s : State} (hk : Side ρ s) :
    Side ρ (pairCheck s) := by
  unfold pairCheck
  try dsimp only
  repeat' (first
    | with_reducible assumption
    | with_reducible apply setSt_side
    | with_reducible apply setQch_side
    | with_reducible apply qchEvt_side
    | with_reducible apply resyncFail_side
    | with_reducible refine Side.fst (by assumption) ?_
    | (with_reducible refine Side.upd ?_; split)
    )

theorem linkJudge_side {ρ : State} {s : State} (hk : Side ρ s) :
    Side ρ (linkJudge s) := by
  unfold linkJudge
  try dsimp only
  repeat' (first
    | with_reducible assumption
    | with_reducible apply pairCheck_side
    | with_reducible apply qchEvt_side
    | with_reducible apply setQch_side
    | with_reducible apply linkDown_side
    | with_reducible refine Side.fst (by assumption) ?_
    | (with_reducible refine Side.upd ?_; split)
    )

theorem decideRole_side {ρ : State} {s : State} (hk : Side ρ s) :
    Side ρ (decideRole s) := by
  unfold decideRole
  try dsimp only
  repeat' (first
    | with_reducible assumption
    | with_reducible apply setQch_side
    | with_reducible apply qchEvt_side
    | with_reducible refine Side.fst (by assumption) ?_
    | (with_reducible refine Side.upd ?_; split)
    )

theorem quenchOn_side {ρ : State} {s : State} (hk : Side ρ s) :
    Side ρ (quenchOn s) := by
  unfold quenchOn
  try dsimp only
  repeat' (first
    | with_reducible assumption
    | with_reducible apply State.orReg_side
    | with_reducible apply setQch_side
    | with_reducible apply decideRole_side
    | with_reducible apply pairCheck_side
    | with_reducible apply linkJudge_side
    | with_reducible refine Side.fst (by assumption) ?_
    | (with_reducible refine Side.upd ?_; split)
    )

theorem quenchOff_side {ρ : State} {s : State} (hk : Side ρ s) :
    Side ρ (quenchOff s) := by
  unfold quenchOff
  try dsimp only
  repeat' (first
    | with_reducible assumption
    | with_reducible apply resyncFail_side
    | with_reducible apply setSt_side
    | with_reducible apply State.clrReg_side
    | with_reducible apply setQch_side
    | with_reducible refine Side.fst (by assumption) ?_
    | (with_reducible refine Side.upd ?_; split)
    )

theorem quenchCtrl_side {ρ : State} {s : State} {v : Word} (hk : Side ρ s) :
    Side ρ (quenchCtrl s v) := by
  unfold quenchCtrl
  try dsimp only
  repeat' (first
    | with_reducible assumption
    | with_reducible apply State.setReg_side
    | with_reducible apply quenchOn_side
    | with_reducible apply quenchOff_side
    | with_reducible refine Side.fst (by assumption) ?_
    | (with_reducible refine Side.upd ?_; split)
    )

theorem quenchPorten_side {ρ : State} {s : State} {v : Word} (hk : Side ρ s) :
    Side ρ (quenchPorten s v) := by
  unfold quenchPorten
  try dsimp only
  repeat' (first
    | with_reducible assumption
    | with_reducible apply pairCheck_side
    | with_reducible apply State.setReg_side
    )

theorem peerChange_side {ρ : State} {s : State} {level : Bool} (hk : Side ρ s) :
    Side ρ (peerChange s level) := by
  unfold peerChange
  try dsimp only
  repeat' (first
    | with_reducible assumption
    | with_reducible apply setQch_side
    | with_reducible apply takeTrigger_side
    | with_reducible refine Side.fst (by assumption) ?_
    | (with_reducible refine Side.upd ?_; split)
    )

theorem twinLost_side {ρ : State} {s : State} (hk : Side ρ s) :
    Side ρ (twinLost s) := by
  unfold twinLost
  try dsimp only
  repeat' (first
    | with_reducible assumption
    | with_reducible apply qchEvt_side
    | with_reducible apply linkDown_side
    | with_reducible apply setQch_side
    | with_reducible apply takeTrigger_side
    | with_reducible refine Side.fst (by assumption) ?_
    | (with_reducible refine Side.upd ?_; split)
    )

theorem judgeAlign_side {ρ : State} {s : State} (hk : Side ρ s) :
    Side ρ (judgeAlign s) := by
  unfold judgeAlign
  try dsimp only
  repeat' (first
    | with_reducible assumption
    | with_reducible apply setQch_side
    | with_reducible apply stopCompare_side
    | with_reducible apply setSt_side
    | with_reducible refine Side.fst (by assumption) ?_
    | (with_reducible refine Side.upd ?_; split)
    )

theorem alignSeqs_side {ρ : State} {s : State} (hk : Side ρ s) :
    Side ρ (alignSeqs s) := by
  unfold alignSeqs
  try dsimp only
  repeat' (first
    | with_reducible assumption
    | with_reducible apply setQch_side
    | with_reducible apply qchEvt_side
    | with_reducible refine Side.fst (by assumption) ?_
    | (with_reducible refine Side.upd ?_; split)
    )

theorem recMismatch_side {ρ : State} {s : State} {own : LineRec} {theirs : LineRec} (hk : Side ρ s) :
    Side ρ (recMismatch s own theirs) := by
  unfold recMismatch
  try dsimp only
  repeat' (first
    | with_reducible assumption
    | with_reducible apply State.setReg_side
    | with_reducible apply qchEvt_side
    | with_reducible apply setQch_side
    | with_reducible apply State.addRf_side
    | with_reducible apply takeTrigger_side
    | with_reducible apply setSt_side
    | with_reducible refine Side.fst (by assumption) ?_
    | (with_reducible refine Side.upd ?_; split)
    )

theorem recJudge_side {ρ : State} {s : State} {own : LineRec} {theirs : LineRec} (hk : Side ρ s) :
    Side ρ (recJudge s own theirs) := by
  unfold recJudge
  try dsimp only
  repeat' (first
    | with_reducible assumption
    | with_reducible apply State.addReg_side
    | with_reducible apply recMismatch_side
    | with_reducible refine Side.fst (by assumption) ?_
    | (with_reducible refine Side.upd ?_; split)
    )

theorem recIn_side {ρ : State} {s : State} {m : LineRec} (hk : Side ρ s) :
    Side ρ (recIn s m) := by
  unfold recIn
  try dsimp only
  repeat' (first
    | with_reducible assumption
    | with_reducible apply recJudge_side
    | with_reducible apply setQch_side
    | with_reducible refine Side.fst (by assumption) ?_
    | (with_reducible refine Side.upd ?_; split)
    )

theorem recOut_side {ρ : State} {s : State} {b : ℕ} {p : ℕ} (hk : Side ρ s) :
    Side ρ (recOut s b p) := by
  unfold recOut
  try dsimp only
  repeat' (first
    | with_reducible assumption
    | with_reducible apply recJudge_side
    | with_reducible apply setQch_side
    | with_reducible refine Side.fst (by assumption) ?_
    | (with_reducible refine Side.upd ?_; split)
    )

theorem recMiss_side {ρ : State} {s : State} (hk : Side ρ s) :
    Side ρ (recMiss s) := by
  unfold recMiss
  try dsimp only
  repeat' (first
    | with_reducible assumption
    | with_reducible apply qchEvt_side
    | with_reducible apply State.addReg_side
    | with_reducible apply setQch_side
    | with_reducible refine Side.fst (by assumption) ?_
    | (with_reducible refine Side.upd ?_; split)
    )

theorem takeIn_side {ρ s : State} {m : TakeMsg} (hk : Side ρ s) : Side ρ (takeIn s m) := by
  unfold takeIn
  refine Side.ite hk ?_
  split
  · exact setQch_side hk
  · exact Side.ite (setQch_side hk) hk

theorem takeApply_side {ρ s : State} (hk : Side ρ s) : Side ρ (takeApply s) := by
  unfold takeApply
  split
  · exact hk
  · have h1 : ∀ q, Side ρ (setQch s q) := fun _ => setQch_side hk
    exact Side.ite hk (Side.ite (h1 _)
      (qchEvt_side (State.setReg_side (State.setReg_side (State.setRf_side (h1 _))))))

theorem detachAsk_side {ρ : State} {s : State} (hk : Side ρ s) :
    Side ρ (detachAsk s) := by
  unfold detachAsk
  try dsimp only
  repeat' (first
    | with_reducible assumption
    | with_reducible apply setQch_side
    | with_reducible refine Side.fst (by assumption) ?_
    | (with_reducible refine Side.upd ?_; split)
    )

theorem attachAsk_side {ρ : State} {s : State} (hk : Side ρ s) :
    Side ρ (attachAsk s) := by
  unfold attachAsk
  try dsimp only
  repeat' (first
    | with_reducible assumption
    | with_reducible apply setQch_side
    | with_reducible refine Side.fst (by assumption) ?_
    | (with_reducible refine Side.upd ?_; split)
    )

theorem pixelWord_side {ρ : State} {s : State} {b : ℕ} {e : ℕ × Word} (hk : Side ρ s) :
    Side ρ (pixelWord s b e) := by
  unfold pixelWord
  try dsimp only
  repeat' (first
    | with_reducible assumption
    | with_reducible apply pushLive_side
    | with_reducible apply State.setReg_side
    | with_reducible apply commitWrite_side
    | with_reducible refine Side.fst (by assumption) ?_
    | (with_reducible refine Side.upd ?_; split)
    )

theorem mailIn_side {ρ : State} {s : State} {ws : List Word} (hk : Side ρ s) :
    Side ρ (mailIn s ws) := by
  unfold mailIn
  try dsimp only
  repeat' (first
    | with_reducible assumption
    | with_reducible apply qchEvt_side
    | with_reducible apply State.setReg_side
    | with_reducible apply Side.foldl
    | with_reducible apply Side.foldlFst
    | with_reducible refine Side.fst (by assumption) ?_
    | (with_reducible refine Side.upd ?_; split)
    | split
    | intro _
    )

theorem quenchLine_side {ρ : State} {s : State} (hk : Side ρ s) :
    Side ρ (quenchLine s) := by
  unfold quenchLine
  try dsimp only
  repeat' (first
    | with_reducible assumption
    | with_reducible apply takeApply_side
    | with_reducible apply setQch_side
    | with_reducible apply setSt_side
    | with_reducible apply resyncFail_side
    | with_reducible refine Side.fst (by assumption) ?_
    | (with_reducible refine Side.upd ?_; split)
    )

theorem quenchFrame_side {ρ : State} {s : State} (hk : Side ρ s) :
    Side ρ (quenchFrame s) := by
  unfold quenchFrame
  try dsimp only
  repeat' (first
    | with_reducible assumption
    | with_reducible apply setSt_side
    | with_reducible apply State.addReg_side
    | with_reducible apply setQch_side
    | with_reducible apply alignSeqs_side
    | with_reducible apply judgeAlign_side
    | with_reducible apply Side.foldl
    | with_reducible apply Side.foldlFst
    | with_reducible refine Side.fst (by assumption) ?_
    | (with_reducible refine Side.upd ?_; split)
    | split
    | intro _
    )

theorem quenchPort_side {ρ : State} {s : State} {b : ℕ} {p : ℕ} (hk : Side ρ s) :
    Side ρ (quenchPort s b p) := by
  unfold quenchPort
  try dsimp only
  repeat' (first
    | with_reducible assumption
    | with_reducible apply setQch_side
    | with_reducible refine Side.fst (by assumption) ?_
    | (with_reducible refine Side.upd ?_; split)
    )

theorem tmpEvt_side {ρ : State} {s : State} {m : ℕ} (hk : Side ρ s) :
    Side ρ (tmpEvt s m) := by
  unfold tmpEvt
  try dsimp only
  repeat' (first
    | with_reducible assumption
    | with_reducible apply State.orReg_side
    )

theorem showLevels_side {ρ : State} {s : State} (hk : Side ρ s) :
    Side ρ (showLevels s) := by
  unfold showLevels
  try dsimp only
  repeat' (first
    | with_reducible assumption
    | with_reducible apply State.setReg_side
    )

theorem clkEvt_side {ρ : State} {s : State} {b : ℕ} {m : ℕ} (hk : Side ρ s) :
    Side ρ (clkEvt s b m) := by
  unfold clkEvt
  try dsimp only
  repeat' (first
    | with_reducible assumption
    | with_reducible apply State.orReg_side
    )

theorem heldAccess_side {ρ : State} {s : State} {b : ℕ} {off : ℕ} (hk : Side ρ s) :
    Side ρ (heldAccess s b off) := by
  unfold heldAccess
  try dsimp only
  repeat' (first
    | with_reducible assumption
    | with_reducible apply State.setReg_side
    | with_reducible apply clkEvt_side
    )

theorem wakeSources_side {ρ : State} {s : State} (hk : Side ρ s) :
    Side ρ (wakeSources s) := by
  unfold wakeSources
  try dsimp only
  repeat' (first
    | with_reducible assumption
    | with_reducible apply State.eachBillet_side
    | with_reducible apply State.setSrc_side
    | with_reducible apply Side.foldl
    | with_reducible apply Side.foldlFst
    | with_reducible refine Side.fst (by assumption) ?_
    | split
    | intro _
    )

theorem tngStat_side {ρ : State} {s : State} {b : ℕ} {c : ℕ} {m : ℕ} (hk : Side ρ s) :
    Side ρ (tngStat s b c m) := by
  unfold tngStat
  try dsimp only
  repeat' (first
    | with_reducible assumption
    | with_reducible apply State.orReg_side
    )

theorem tngShow_side {ρ : State} {s : State} {b : ℕ} {c : ℕ} (hk : Side ρ s) :
    Side ρ (tngShow s b c) := by
  unfold tngShow
  try dsimp only
  repeat' (first
    | with_reducible assumption
    | with_reducible apply State.setReg_side
    )

theorem plainAt_side {ρ : State} {s : State} {addr : ℕ} {v : Word} (hk : Side ρ s) :
    Side ρ (plainAt s addr v) := by
  unfold plainAt
  try dsimp only
  repeat' (first
    | with_reducible assumption
    | with_reducible apply State.setReg_side
    | with_reducible refine Side.fst (by assumption) ?_
    | (with_reducible refine Side.upd ?_; split)
    )

theorem fieldsAt_side {ρ : State} {s : State} {addr : ℕ} {v : Word} (hk : Side ρ s) :
    Side ρ (fieldsAt s addr v) := by
  unfold fieldsAt
  try dsimp only
  repeat' (first
    | with_reducible assumption
    | with_reducible apply State.setReg_side
    | with_reducible refine Side.fst (by assumption) ?_
    | (with_reducible refine Side.upd ?_; split)
    )

theorem icWrite_side {ρ : State} {s : State} {b : ℕ} {off : ℕ} {v : Word} (hk : Side ρ s) :
    Side ρ (icWrite s b off v) := by
  unfold icWrite
  try dsimp only
  repeat' (first
    | with_reducible assumption
    | with_reducible apply icSrcWrite_side
    | with_reducible apply privSet_side
    | with_reducible apply State.setBreg_side
    | with_reducible refine Side.fst (by assumption) ?_
    | (with_reducible refine Side.upd ?_; split)
    )

theorem ctxWrite_side {ρ : State} {s : State} {b : ℕ} {k : ℕ} {v : Word} (hk : Side ρ s) :
    Side ρ (ctxWrite s b k v) := by
  unfold ctxWrite
  try dsimp only
  repeat' (first
    | with_reducible assumption
    | with_reducible apply State.setReg_side
    | with_reducible apply holdOn_side
    | with_reducible apply holdOff_side
    | with_reducible refine Side.fst (by assumption) ?_
    | (with_reducible refine Side.upd ?_; split)
    )

theorem flxWrite_side {ρ : State} {s : State} {b : ℕ} {off : ℕ} {v : Word} (hk : Side ρ s) :
    Side ρ (flxWrite s b off v) := by
  unfold flxWrite
  try dsimp only
  repeat' (first
    | with_reducible assumption
    | with_reducible apply ctxWrite_side
    | with_reducible apply plainAt_side
    | with_reducible refine Side.fst (by assumption) ?_
    | (with_reducible refine Side.upd ?_; split)
    )

theorem talWrite_side {ρ : State} {s : State} {b : ℕ} {off : ℕ} {v : Word} (hk : Side ρ s) :
    Side ρ (talWrite s b off v) := by
  unfold talWrite
  try dsimp only
  repeat' (first
    | with_reducible assumption
    | with_reducible apply fieldsAt_side
    | with_reducible apply tallyClear_side
    | with_reducible apply plainAt_side
    | with_reducible refine Side.fst (by assumption) ?_
    | (with_reducible refine Side.upd ?_; split)
    )

theorem ringDoorbell_side {ρ : State} {s : State} {v : Word} (hk : Side ρ s) :
    Side ρ (ringDoorbell s v) := by
  unfold ringDoorbell
  try dsimp only
  repeat' (first
    | with_reducible assumption
    | with_reducible apply raisePrivate_side
    | with_reducible apply State.setSticky_side
    | with_reducible apply tngSignal_side
    | with_reducible apply Side.foldl
    | with_reducible apply Side.foldlFst
    | with_reducible refine Side.fst (by assumption) ?_
    | (with_reducible refine Side.upd ?_; split)
    | split
    | intro _
    )

theorem hirqClear_side {ρ : State} {s : State} {v : Word} (hk : Side ρ s) :
    Side ρ (hirqClear s v) := by
  unfold hirqClear
  try dsimp only
  repeat' (first
    | with_reducible assumption
    | with_reducible apply plainAt_side
    )

theorem dpErr_side {ρ : State} {s : State} {k : ℕ} {i : ℕ} (hk : Side ρ s) :
    Side ρ (dpErr s k i) := by
  unfold dpErr
  try dsimp only
  repeat' (first
    | with_reducible assumption
    | with_reducible apply State.orReg_side
    )

theorem spiErr_side {ρ : State} {s : State} (hk : Side ρ s) :
    Side ρ (spiErr s) := by
  unfold spiErr
  try dsimp only
  repeat' (first
    | with_reducible assumption
    | with_reducible apply State.orReg_side
    )

theorem linkChange_side {ρ : State} {s : State} {up : Bool} {width : ℕ} {speed : ℕ} (hk : Side ρ s) :
    Side ρ (linkChange s up width speed) := by
  unfold linkChange
  try dsimp only
  repeat' (first
    | with_reducible assumption
    | with_reducible apply State.setReg_side
    )

theorem cfgRead_side {ρ : State} {s : State} {reg : ℕ} (hk : Side ρ s) :
    Side ρ (cfgRead s reg).1 := by
  unfold cfgRead
  try dsimp only
  repeat' (first
    | with_reducible assumption
    | with_reducible apply State.nextFree_side
    | with_reducible refine Side.fst (by assumption) ?_
    | (with_reducible refine Side.upd ?_; split)
    )

theorem fluxSet_side {ρ : State} {s : State} {b : ℕ} {n : ℕ} (hk : Side ρ s) :
    Side ρ (fluxSet s b n) := by
  unfold fluxSet
  try dsimp only
  repeat' (first
    | with_reducible assumption
    | with_reducible apply State.setBreg_side
    )

theorem fluxCount_side {ρ : State} {s : State} {b : ℕ} {off : ℕ} {evt : ℕ} (hk : Side ρ s) :
    Side ρ (fluxCount s b off evt) := by
  unfold fluxCount
  try dsimp only
  repeat' (first
    | with_reducible assumption
    | with_reducible apply State.orReg_side
    | with_reducible apply State.addReg_side
    )

theorem fluxResponse_side {ρ : State} {s : State} {b : ℕ} {late : Bool} {poisoned : Bool} (hk : Side ρ s) :
    Side ρ (fluxResponse s b late poisoned) := by
  unfold fluxResponse
  try dsimp only
  repeat' (first
    | with_reducible assumption
    | with_reducible apply fluxSet_side
    | with_reducible apply fluxCount_side
    | with_reducible apply Side.done
    | with_reducible apply Side.stall
    | with_reducible apply Side.trap
    | with_reducible apply hf
    | with_reducible apply Side.val
    | with_reducible apply Side.err
    | with_reducible apply Side.stop
    | with_reducible refine Issue.andThen_side ?_ ?_
    | with_reducible refine Side.fst (by assumption) ?_
    | (with_reducible refine Side.upd ?_; split)
    )

theorem lateCommits_side {ρ : State} {s : State} {past : Commit → Bool} (hk : Side ρ s) :
    Side ρ (lateCommits s past) := by
  unfold lateCommits
  try dsimp only
  repeat' (first
    | with_reducible assumption
    | with_reducible apply countLate_side
    | with_reducible apply State.setLive_side
    | with_reducible apply Side.foldl
    )

end Sys2Proof.Machine
end

