-- ==== Sys2Proof/Laws/Stages.lean ====
section
/-! SUPPORT. What a Tuyere frame does after its source load changes only Tuyere and registers (R339). -/

namespace Sys2Proof.Machine

/-- `t` is `s` but for Tuyere and registers. -/
def OnlyTuyere (s t : State) : Prop := t = { s with tuy := t.tuy, regs := t.regs }

theorem OnlyTuyere.refl (s : State) : OnlyTuyere s s := rfl

theorem OnlyTuyere.tuy {r s : State} {y : Tuyere} (h : OnlyTuyere r s) : OnlyTuyere r { s with tuy := y } := by
  unfold OnlyTuyere at *
  rw [h]

theorem OnlyTuyere.regs {r s : State} {m : Tbl Word} (h : OnlyTuyere r s) : OnlyTuyere r { s with regs := m } := by
  unfold OnlyTuyere at *
  rw [h]

theorem OnlyTuyere.foldl {α : Type} {r : State} {g : State → α → State} {l : List α} {s : State}
    (hg : ∀ s e, OnlyTuyere r s → OnlyTuyere r (g s e)) (h : OnlyTuyere r s) : OnlyTuyere r (l.foldl g s) := by
  induction l generalizing s with
  | nil => exact h
  | cons e l ih => exact ih (hg s e h)

theorem setReg_only {r s : State} {a : Nat} {v : Word} (h : OnlyTuyere r s) : OnlyTuyere r (s.setReg a v) := h.regs

theorem tuyEvt_only {r s : State} {m : Nat} (h : OnlyTuyere r s) : OnlyTuyere r (tuyEvt s m) := h.regs

theorem tuySat_only {r s : State} (h : OnlyTuyere r s) : OnlyTuyere r (tuySat s) := tuyEvt_only h.regs

theorem setNodeRaw_only {r s : State} {i : Nat} {v : Int} (h : OnlyTuyere r s) : OnlyTuyere r (setNodeRaw s i v) := h.tuy

theorem setNode_only {r s : State} {i : Nat} {v : Int} (h : OnlyTuyere r s) : OnlyTuyere r (setNode s i v) := by
  unfold setNode
  dsimp only
  split
  · exact tuySat_only (setNodeRaw_only h)
  · exact setNodeRaw_only h

theorem satIf_only {r s : State} {c : Bool} (h : OnlyTuyere r s) : OnlyTuyere r (if c then tuySat s else s) := by
  split
  · exact tuySat_only h
  · exact h

theorem runSlot_only {r s : State} {i : Nat} (h : OnlyTuyere r s) : OnlyTuyere r (runSlot s i) := by
  unfold runSlot
  dsimp only
  split
  · exact setNodeRaw_only (satIf_only h)
  · exact setNode_only (satIf_only h)
  · exact setNode_only h
  · exact setNode_only h
  · exact setNodeRaw_only h
  · exact setNodeRaw_only (satIf_only h.tuy)
  · exact setNodeRaw_only (satIf_only h.tuy)
  · unfold delaySlot
    dsimp only
    refine setNodeRaw_only ?_
    split
    · exact h.tuy
    · exact h
  · exact h

theorem silence_only {r s : State} {b a : Nat} {x : Bus} (h : OnlyTuyere r s) : OnlyTuyere r (silence s b x a).1 := by
  unfold silence
  dsimp only
  repeat' (first
    | exact h
    | exact h.regs
    | exact h.regs.regs
    | split)

theorem busFrame_only {r s : State} {b : Nat} (h : OnlyTuyere r s) : OnlyTuyere r (busFrame s b) := by
  unfold busFrame
  dsimp only
  split
  · split
    · exact h.tuy
    · exact h
  · exact (silence_only h).tuy

theorem busStage_only {r s : State} (h : OnlyTuyere r s) : OnlyTuyere r (busStage s) := by
  unfold busStage busOutputs
  exact (OnlyTuyere.foldl (fun _ _ => busFrame_only) h).regs.regs.tuy.tuy

theorem tuySlots_only {r s : State} (h : OnlyTuyere r s) : OnlyTuyere r (tuySlots s) := by
  unfold tuySlots
  exact (OnlyTuyere.foldl (fun _ _ => runSlot_only) h).tuy

/-- The stages of a frame change only Tuyere and registers (R339). -/
theorem tuyStages_only (s : State) : tuyStages s = { s with tuy := (tuyStages s).tuy, regs := (tuyStages s).regs } := by
  change OnlyTuyere s (tuyStages s)
  unfold tuyStages
  dsimp only
  split
  · exact .refl s
  · split
    · exact busStage_only (tuySlots_only (.refl s))
    · exact tuySlots_only (.refl s)

/-- While Tuyere is stopped, and once the bus stage has run, there is nothing left to do (R339, R343). -/
theorem tuyStages_idle {s : State} (h : s.tuy.running = false ∨ s.tuy.staged = true) : tuyStages s = s := by
  unfold tuyStages
  rcases h with h | h <;> simp [h]

end Sys2Proof.Machine
end

