-- ==== Sys2Proof/Tests/Slice0.lean ====
section
/-! SUPPORT. The model's own tests: a witness for the hypotheses of every clause of the statements of
Certificates/Slice0/Obligations.lean, an ill-formed command for each check of WellFormed, and single commands on small
states whose results the spec's rules give. -/

set_option linter.unusedVariables false
set_option Elab.async false

namespace Sys2Proof.Tests
open Sys2Proof.Machine

/-- The state with one hammer changed. -/
def hm (s : State) (b h : Nat) (f : Hammer → Hammer) : State := s.setHammer b h (f (s.hammer b h))

/-- Reset with hammer `b.Hh` RUNNING at PC 0x1FFF. -/
def runs (b h : Nat) : State := hm State.reset b h (fun x => { x with run := .running, pc := 0x1FFF })

/-- The same with registers `g` holding the values given. -/
def regs (s : State) (b h : Nat) (l : List (Nat × HWord)) : State :=
  hm s b h (fun x => l.foldl (fun y e => y.setReg e.1 e.2) x)

/-- The state with registers written. -/
def put (s : State) (l : List (Nat × Word)) : State := l.foldl (fun t e => t.setReg e.1 e.2) s

/-- Every clause's hypotheses are met by one of the witnesses, each the list of the clauses it meets. -/
def covered (l : List (List Bool)) : Bool :=
  (List.range (l.headD []).length).all (fun k => l.any (fun e => e.getD k false))

/-- `Issues`, decided. -/
def issues (s : State) (u : HAt) (gs : List Nat) : Bool :=
  decide (s.hasHammer u.b u.h = true ∧ (s.hammer u.b u.h).run = .running ∧ stepsAsked s = [] ∧
      (s.hammer u.b u.h).haltAsk = false ∧ (s.hammer u.b u.h).trapDue = none ∧ (s.hammer u.b u.h).failing = none) &&
    match (s.hammer u.b u.h).load with
    | none => true
    | some l => decide (l.dst.target % 16 ∉ gs)

theorem issues_iff (s : State) (u : HAt) (gs : List Nat) : issues s u gs = true ↔ Issues s u gs := by
  unfold issues Issues Hammer.calm
  cases h : (s.hammer u.b u.h).load <;> simp [and_assoc]

/-- `Controls`, decided. -/
def controls (s : State) (who : Who) (b h : Nat) : Bool :=
  match who with
  | .hammer b' h' => decide ((b' = b ∧ h' = h) ∨ (b' = b ∧ h' = 0 ∧ (s.hammer b 0).sm = true))
  | _ => true

theorem controls_iff (s : State) (who : Who) (b h : Nat) : controls s who b h = true ↔ Controls s who b h := by
  unfold controls Controls; cases who <;> simp

/-- No candidate is eligible, decided. -/
def noneEligible (s : State) (b h : Nat) : Bool := (candidates s b h).all (fun c => decide (c.1 < runPri s b h))

theorem noneEligible_iff (s : State) (b h : Nat) : noneEligible s b h = true ↔ ∀ d, ¬ Eligible s b h d := by
  simp [noneEligible, Eligible]

/-- The hammer that writes, where a hammer does, is `b.Hh` itself. -/
def ownOrOutside (who : Who) (b h : Nat) : Bool :=
  match who with
  | .hammer b' h' => decide (b' = b ∧ h' = h)
  | _ => true

theorem ownOrOutside_iff (who : Who) (b h : Nat) :
    ownOrOutside who b h = true ↔ ∀ b' h', who = .hammer b' h' → b' = b ∧ h' = h := by
  unfold ownOrOutside; cases who <;> simp

/-- `Wins`, decided. -/
def wins (s : State) (b h : Nat) (c : Cand) : Bool :=
  decide (c ∈ candidates s b h ∧ runPri s b h ≤ c.1) &&
    (candidates s b h).all (fun d => !decide (runPri s b h ≤ d.1) || decide (d.1 < c.1) ||
      decide (d.1 = c.1 ∧ (c.2.1 < d.2.1 ∨ (c.2.1 = d.2.1 ∧ c.2.2 ≤ d.2.2))))

theorem wins_iff (s : State) (b h : Nat) (c : Cand) : wins s b h c = true ↔ Wins s b h c := by
  unfold wins Wins Eligible
  simp only [Bool.and_eq_true, decide_eq_true_eq, List.all_eq_true, Bool.or_eq_true, Bool.not_eq_true']
  refine and_congr_right fun _ => ⟨fun k d hd => ?_, fun k d hd => ?_⟩
  · have := k d hd.1
    simp [hd.2] at this
    tauto
  · by_cases e : runPri s b h ≤ d.1
    · have := k d ⟨hd, e⟩
      simp [e]
      tauto
    · simp at e
      simp [e]

/-- Hammer 1.H3 RUNNING at PC 0x1FFF, with registers. -/
def run13 (l : List (Nat × HWord)) : State := regs (runs 1 3) 1 3 l
def u13 : HAt := ⟨1, 3, 1⟩
/-- The keeper of billet 0, RUNNING. -/
def run00 (l : List (Nat × HWord)) : State := regs (runs 0 0) 0 0 l
def u00 : HAt := ⟨0, 0, 2⟩
/-- With both accumulators. -/
def acc13 (a : BitVec 40) : State := hm (run13 []) 1 3 (fun x => { x with a0 := a, a1 := a })
def macd13 (sm : Bool) : State := hm (run13 []) 1 3 (fun x => { x with sm := sm })
/-- With a load of a hearth word outstanding. -/
def load13 : State := hm (run13 []) 1 3 (fun x => { x with load := some ⟨.reg 15, .hearth 0x1FFFFE, false, 0x3FFF, ⟨1, 2, 3⟩, none⟩ })
/-- With `n` stores posted and `a` in G15. -/
def stores13 (n a : Nat) : State :=
  hm (run13 [(15, BitVec.ofNat 16 a)]) 1 3 (fun x => { x with stores := List.replicate n ⟨.half 3#16, .hearth 4, 0, ⟨1, 2, 3⟩, none⟩ })
/-- With one store posted. -/
def posted13 (k : StoreKind) (t : Target) : State := hm (run13 []) 1 3 (fun x => { x with stores := [⟨k, t, 7, ⟨1, 2, 3⟩, none⟩] })
/-- With a load and a store of a register outstanding, with their deadline. -/
def remote13 (a : Nat) (d : Deadline) : State :=
  hm (run13 []) 1 3 (fun x => { x with load := some ⟨.reg 15, .reg a, false, 7, d, some (3, 9#16)⟩,
                                       stores := [⟨.word 9#32, .reg a, 7, d, some (3, 9#16)⟩] })
/-- With port 1.P0 at a line, and WAITING where a wait is given. -/
def wait13 (running : Bool) (line : Nat) (w : Option (WaitFor × Nat)) : State :=
  let s := (run13 [(15, 5#16)]).setPort 1 0 { Port.init with running := running, line := line }
  match w with
  | none => s
  | some z => hm s 1 3 (fun x => { x with run := .waiting, wait := some ⟨z.1, 2, ⟨0, z.2, 0⟩⟩ })
/-- With the call stack at a depth and a pointer, a trap active or not and IE, and STKTRAP. -/
def stack13 (depth sp : Nat) (trap stk : Bool) : State :=
  put (hm (run13 []) 1 3 (fun x => { x with depth := depth, sp := sp, stack := [(4, 0x4FFF#16)], trapAct := trap, ie := !trap }))
    [(haddr 1 3 0x14, if stk = true then 0x10#32 else 0#32), (haddr 1 3 0x2C, 0x53C111#32)]
/-- With the instruction `w` after the one at the PC. -/
def next13 (l : List (Nat × HWord)) (w : BitVec 14) : State :=
  { run13 l with progMem := [(hidx 1 3 * 16384 + 0x2000, w)] }
/-- ADD G2,31 as a word of the program memory (R234). -/
def addWord : BitVec 14 := BitVec.ofNat 14 (3 * 512 + 256 + 2 * 32 + 31)
/-- With the string registers, and the word of bank address 0x1FFF. -/
def string13 (n : HWord) : State :=
  { run13 [(12, 7#16), (13, 0x1FFF#16), (14, 0x1FFF#16), (15, n)] with banks := [(hidx 1 3 * 8192 + 0x1FFF, 7#16)] }

/-- Billet 1's keeper in service mode and hammer 1.H3 in a run state, at the last program word, an ADDI there. -/
def ctl13 (h : Nat) (r : RunState) (sm : Bool) (sel : Word) : State :=
  let s := hm (hm State.reset 1 0 (fun x => { x with sm := sm })) 1 h (fun x => { x with run := r, pc := 0x3FFF })
  { put s [(haddr 1 h 0x40, sel)] with progMem := [(hidx 1 h * 16384 + 0x3FFF, BitVec.ofNat 14 (3 * 512 + 7 * 32 + 31))] }
/-- Hammer 1.H3 with an interrupt pending in its own slot and one of source 200, and what masks or blocks them. -/
def irq13 (ie : Bool) (prio mask : Word) (depth : Nat) (stk : Bool) : State :=
  let s := hm (runs 1 3) 1 3 (fun x => { x with ie := ie, stack := [(0, 5#16)], sp := 8, depth := depth })
  let s := put s [(haddr 1 3 0x14, if stk = true then 0x10#32 else 0#32), (haddr 1 3 0x70, mask), (haddr 1 3 0x60, 0x40#32),
    (haddr 1 3 8, prio)]
  { s with ppend := [(hidx 1 3, 0x110028)] }
/-- With the interrupts `ids` in the slots of hammer 1.H3. -/
def slots13 (ids : List Nat) : State :=
  { runs 1 3 with slots := (ids.zipIdx).map (fun e => (4 * hidx 1 3 + e.2, ⟨true, false, 1, e.1⟩)) }
/-- Source 500 of billet 1 with a sense, an input line at 0, and its state as seen; the hammer it goes to. -/
def src1 (sense : Nat) (to' : Nat) (seen pend claim : Bool) : State :=
  { put State.reset [(0x150000 + 4 * 500, BitVec.ofNat 32 (sense * 2 ^ 28 + to' * 256 + 3))] with
    irq := [(1024 + 500, ⟨seen, pend, claim, false, false, claim, false⟩)] }

/-- The package beam at a line of a frame of `v` lines, in the last frame number. -/
def beamAt (s : State) (l v : Nat) : State :=
  { s with beam := { s.beam with line := l, frame := 2 ^ 48 - 1, vtotal := v, dot := 40 }, tick := 77, now := 1000 }
/-- With a context's HOLD register and the words it holds. -/
def hold (w : Who) (l v : Nat) (r : Word) (held : Nat) : State :=
  let s := put (beamAt State.reset l v) [((ctxOf w).1 * 0x100000 + 0x80F40 + 4 * (ctxOf w).2, r)]
  let h := if held = 0 then [] else [(32 * (ctxOf w).1 + (ctxOf w).2, List.replicate held ⟨false, 0x10008, 5#32, none⟩)]
  { s with commits := { s.commits with held := h } }
/-- A commit of 1.H3 for line 2 of frame 0 that writes `n` words. -/
def commit13 (n : Nat) (accepted : Bool) (recv : List Nat) : Commit :=
  ⟨5, 3, 1, 3, List.replicate n ⟨false, 0x110000, 5#32, none⟩, 2, 0, 2, accepted, recv, recv, false⟩
def older13 (n : Nat) : Commit := { commit13 n true [1] with id := 4 }
def live (l : List Commit) : State := { State.reset with commits := { State.reset.commits with live := l, next := 11 } }
/-- The seal of line 2, with all sets but the one of billet 0 at billet 1 delivered. -/
def sealing (sealOf : Option (Nat × Nat)) (all : Bool) : State :=
  let sets := (List.range 8).flatMap (fun x => (List.range 8).filterMap (fun y =>
    if x = y ∨ (x = 0 ∧ y = 1) then none else some (x, y)))
  { State.reset with commits := { State.reset.commits with sealOf := sealOf, judged := false, got := if all then sets else [] } }

/-- A queued write of a package register with its application point, with REF and IMM. -/
def queued (r : Word) (w : PkgWrite) : State :=
  let s := put (beamAt State.reset 1 5) [(0, r)]
  { s with pkgQueue := [w], genlock := { s.genlock with conflict := r = 2#32 } }
/-- The genlock in a state that has seen reference events, at a tick. -/
def locking (r : Word) (st : GlState) (lastEv : Option Nat) (seen first period tick : Nat) : State :=
  let s := put (beamAt State.reset 1 5) [(0, r), (0x9381C, 3#32)]
  { s with genlock := { s.genlock with st := st, lastEv := lastEv, seen := seen, first := first, period := period, sum := 3 },
           tick := tick }
/-- Port 7.P3 changed, at a line and a forge cycle of the package line. -/
def port73 (f : Port → Port) (line now : Nat) : State :=
  let c : PortCfg := { PortCfg.zero with hTotal := 8, hAct := 4, hsStart := 5, hsEnd := 6, vsStart := 3, vsEnd := 4 }
  { (beamAt State.reset line 8).setPort 7 3 (f { Port.init with cfg := c, line := line, lineDots := 3125 }) with now := now }

/-- Package line 4 of frame 0, with a frame of 8 lines. -/
def line4 (htotal : Nat) : State :=
  let b := { State.reset.beam with line := 4, frame := 0, vtotal := 8, vactStart := 3, vact := 4, dot := 40, htotal := htotal }
  { State.reset with beam := b, tick := 77, now := 1000 }
def bandWords : Tbl Word := [(0x30000, 0#32), (0x30004, 1#32), (0x30010, 0x10000#32), (0x30014, 0x10000#32)]
/-- A fetch unit of plane 0, tile column 5, waiting or arrived. -/
def unit0 (d : Option (List Byte)) : FetchUnit := ⟨0, 5002, 0, 0, 4, d, none, d ≠ none, d = none, none⟩
/-- Port 0.P0 about to compose group `g` of a line with one layer, whose data has arrived or not; the group before it,
and a second port where asked, of narrower pixels; before group 2 the span is empty. -/
def composing (layer : Word) (running : Bool) (g : Nat) (data second : Bool) (h : Nat) : State :=
  let r : Tbl Word := [(0x10000, layer), (0x10010, 0x3F003F#32), (0x10014, 1#32), (0x30100, 0xFF00#32)]
  let x : Port := { Port.init with running := running, enabled := true, line := 4, lineDots := 3125 }
  let x : Port := { x with cfg := { PortCfg.zero with hActStart := 4, hAct := 10, hTotal := 20 }, view := r }
  let x : Port := { x with viewEff := if g = 2 then (0x30010, 0#32) :: bandWords else bandWords }
  let s := { line4 h with regs := r, eff := bandWords }.setPort 0 0 x
  let s := if second then s.setPort 0 1 { x with viewEff := (0x30010, 0x30000#32) :: bandWords } else s
  let o : PortOut := { PortOut.init with nextG := g, sentG := g - 1 }
  let s := { s.setOut 0 0 { o with groups := if g = 0 then [] else [⟨g - 1, [⟨1, 2, 3, false, false⟩]⟩] } with now := 11000 }
  if data then { s with fetches := [(0, [unit0 (some (List.replicate 64 7))])] } else s
/-- Write-back of 7.P3 at the end of a frame, with rows of the frame before on their way. -/
def writeback (ctrl : Word) (rows : Nat) (old : Option WbOld) : State :=
  let s := line4 20
  s.setOut 7 3 { s.out 7 3 with wbOn := true, wbDone := false, wbCtrl := ctrl, wbRows := rows, wbOld := old }
/-- Live writes that wait in billet 7, and whose reflex a register block is. -/
def liveWrites (q : List LiveWrite) (user : Option Who) : State :=
  { State.reset with liveQ := [(7, q)] }.setCursor 7 3 { Cursor.init with user := user }

/-- Billet 7's GDDR6 controller, with MEM_STAT's word, what it does, and `n` writes of requester 5 buffered. -/
def memory7 (stat frz : Word) (training filling retrain : Bool) (n : Nat) : State :=
  let m : MemCtl := { MemCtl.init with training := training, filling := filling, retrain := retrain }
  { put State.reset [(0x770004, stat), (0x770804, frz)] with memCtl := [(7, { m with wbuf := List.replicate n ⟨5, 0, false⟩ })] }
/-- A granted read of requester 5, and billet 7's controller holding it. -/
def read700 : MemRead := ⟨5, 0, 0x1C, 2, [0xA5#8], false⟩
def reading (s : State) : State := { s with memCtl := [(7, { s.mem 7 with reads := [read700] })] }
/-- With a channel at a slot of its table. -/
def slotted (s : State) (k : Nat) : State :=
  let m := s.mem 7
  { s with memCtl := [(7, { m with chans := m.chans.map (fun c => { c with slots := k }) })] }
/-- Billet 1's Swage 1 with its registers asked for, busy or waiting, with rows done and units to do. -/
def swage11 (regs : List (Nat × Word)) (busy waiting wmk held : Bool) (todo : List (Nat × Nat × Nat)) (rows dead : Nat) : State :=
  let s := put State.reset (regs.map (fun e => (0x160100 + e.1, e.2)) ++ [(0x170004, 0xF#32)])
  let y : Swage := { Swage.init with busy := busy, waiting := waiting, wmk := wmk, todo := todo, rows := rows }
  let x : Swage := { y with held := held, deadLine := dead }
  let op : Tbl Word := [(0x30, 0x83000000#32), (0x34, 4#32)]
  { s with beam := { s.beam with line := 5 }, swages := [(3, { x with op := op })] }
/-- A rectangle of two by one pixels of 16 bits, at GDDR6 address 0x100. -/
def rectWords : List (Nat × Word) :=
  [(0, 0x668020#32), (4, 0x100#32), (8, 0x100#32), (0x10, 0x20003#32), (0x14, 0x20003#32), (0x40, 0#32), (0x44, 0#32)]
/-- Tongs channel 1.31 with a state, a trigger TYPE, a descriptor loaded or not, and a deadline or none. -/
def tongs (en trig : Word) (st : Nat) (loaded : Bool) (deadline : Option (Nat × Nat)) (n : Nat) (desc : List Word) : State :=
  let s := put State.reset [(0x1683E0, en), (0x1683E4, trig), (0x170004, 0xF#32), (0x270004, 0xF#32)]
  let x : Tongs := { Tongs.init with st := st, loaded := loaded, deadline := deadline, trig := n, desc := desc }
  { s with tongs := [(63, x)] }
def copyDesc (src dst : Word) : List Word := [src, 1#32, dst, 1#32, 0x2001F#32, 0x10001#32, 0#32, 0#32]

/-- Tuyere running or not, with `n` commands and `ramps` ramps waiting and half a program word written. -/
def tuyere (running : Bool) (n ramps : Nat) (latch : Option (Nat × Word)) : State :=
  let t : Tuyere := { State.reset.tuy with running := running, cmds := List.replicate n (0, 5) }
  let l : List Ramp := (List.range ramps).map (fun i => ⟨100 + i, 5, 6, 3, 1⟩)
  { State.reset with tuy := { t with progLatch := latch, ramps := l } }
/-- At `tick` in frame 0, with the delay memory being cleared or not and the bus stage done or not. -/
def tuyereAt (running clearing staged : Bool) (tick now : Nat) : State :=
  let s := tuyere running 0 0 none
  { s with tick := tick, now := now, tuy := { s.tuy with clearing := clearing, staged := staged, kTick := some 0 } }
/-- With input converter 7 at an age, settled or not, TDM input 7 enabled or not in the words in force, and MEM's freeze
word. -/
def converter (running settled : Bool) (age : Option Nat) (ctrl : Word) (tick : Nat) (frz : Word) : State :=
  let t : Tuyere := { State.reset.tuy with running := running, eff := [(0x8082E0, ctrl)] }
  let x : Conv := { Conv.init with age := age, settled := settled }
  put { State.reset with tick := tick, tuy := { t with convs := [(7, x)] } } [(0x8082E0, ctrl), (0x070804, frz)]

/-- Lane 1.L3 in a mode and a link state, with its MAC address, frames to send, and firmware reception. -/
def lane13 (ctrl stat : Word) (q : List TxFrame) (fw : Word) : State :=
  let s := put State.reset [(0x1900C0, ctrl), (0x1900C4, stat), (0x1900CC, 0x12345678#32), (0x1900D0, 0xAB#32),
    (0x193000, 3#32), (0x193010, fw)]
  s.setLane 1 3 { s.lane 1 3 with queue := q }
/-- A frame to a destination, of a type, with `n` bytes after it. -/
def frame (dst type n : Nat) : List Byte :=
  sealFrame (beBytes 6 dst ++ beBytes 6 0x001122334455 ++ beBytes 2 type ++ List.replicate n 0x11#8)
/-- A receive flow with finished frames, a raster sender with a packet held, and the firmware transmit ring. -/
def senders (doneFrames : List RxFrame) (held : List HeldPacket) (qch head aud : Word) : State :=
  let s := put (lane13 3#32 0xF#32 [] 0#32) [(0x802000, qch), (0x193008, 0x3#32), (0x19300C, head), (0x925C0, aud)]
  { s with flows := [(31, { RxFlow.init with done := doneFrames })], rasterTx := [(7, { RasterTx.init with held := held })] }
/-- The PTP port with its control word, its state, the exchange before, at a tick. -/
def ptpAt (ctrl stat : Word) (last : Option (Int × Int × Int)) (tick : Nat) : State :=
  let s := put State.reset [(0x93800, ctrl), (0x9381C, stat)]
  { s with tick := tick, ptp := { s.ptp with last := last } }
def heldPkt : HeldPacket := ⟨5, 4, [(3, List.replicate 64 5#8)]⟩
/-- A state at a forge cycle and tick. -/
def laneTime (n : Nat) (s : State) : State := { s with now := n, tick := n }

/-- Quench with QCH_CTRL's word and its state. -/
def pair (ctrl : Word) (st : Nat) (active link peer deciding : Bool) (pend : Option (Nat × Nat × Nat × Bool)) : State :=
  let q : Quench := { State.reset.quench with active := active, link := link, peer := peer, deciding := deciding, st := st }
  { put State.reset [(0x802000, ctrl)] with quench := { q with pend := pend, twin := if link then some (1, 2, 3, 4) else none } }
def rec1 (crc ends : Nat) : RecWait := ⟨1, 5, 7, crc, false, ends⟩
/-- With a record of port 1 waiting, compared while the frames align. -/
def records (ctrl : Word) (align : Bool) (own : List RecWait) : State :=
  let s := put (pair ctrl 2 true true false false none) [(0x802014, 2#32)]
  { s with quench := { s.quench with falign := align, ready := 2, own := own }, beam := { s.beam with ends := 10 } }
/-- In a state, with a resync's first region. -/
def resyncing (ctrl : Word) (st : Nat) (active : Bool) (regions spec : Word) : State :=
  put (pair ctrl st active true false false none) [(0x802080, regions), (0x802104, spec), (0x802108, 0#32)]
/-- With notices waiting, HWAIT = 2 and a slot of layer 7.2 filling. -/
def noticed (ctrl : Word) (l : List NoticeWait) : State :=
  let s := put (pair ctrl 2 true true false false none) [(0x802040, 2#32)]
  let s := { s with quench := { s.quench with notices := l }, beam := { s.beam with frame := 5, line := 3, vtotal := 10 } }
  s.setVideo 7 2 { s.video 7 2 with slots := (s.video 7 2).slots.map (fun _ => 1) }
/-- Quench deciding its role, until `n`. -/
def decidingTo (s : State) (n : Nat) : State := { s with quench := { s.quench with decideAt := n } }

/-- Pin 1.47 with its CFG word, the pad at 0, a filtered level, the supply good or not, and a switch in progress or not. -/
def pin147 (cfg : Word) (ok filt switching : Bool) (heldCfg : Option Word) : State :=
  let s := (put State.reset [(0x1A00BC, cfg)]).setBank 1 2 ⟨.v33, ok⟩
  s.setPin 1 47 { s.pin 1 47 with pad := false, filt := filt, sync := filt, switching := switching, held := heldCfg }
/-- Matcher 1.15 with its CTRL word, in a state. -/
def matcher115 (ctrl : Word) (st : Nat) : State := (put State.reset [(0x1A03E0, ctrl)]).setMatcher 1 15 ⟨7#32, st, 55⟩
/-- Compare channel 1.63, with steps of the tick waiting. -/
def compare163 (ctrl : Word) (armed running period : Bool) (t count : Nat) (steps : List (Nat × Nat)) : State :=
  let s := put State.reset [(0x1A17E0, ctrl)]
  let s := s.setCompare 1 63 { s.compare 1 63 with t := t, armed := armed, running := running, period := period, count := count, per := 5 }
  { s with tick := 44, tickCtl := { s.tickCtl with steps := steps } }
/-- Capture channel 1.15 on pin 1.3 and Tally counter 1.15. -/
def capture115 (ctrl stat : Word) (level : Bool) (cnt : Nat) : State :=
  let s := put State.reset [(0x1A19E0, ctrl), (0x1A19FC, stat)]
  let s := s.setPin 1 3 { s.pin 1 3 with sync := true }
  let s := s.setCapture 1 15 { s.capture 1 15 with level := level }
  s.setTally 1 15 { s.tally 1 15 with cnt := cnt }
/-- With a switch of pin 1.47 that ends after forge cycle `n`. -/
def switchTo (n : Nat) (s : State) : State := s.setPin 1 47 { s.pin 1 47 with swEnd := n }
/-- With forge cycle, tick and the edge of pin 1.3 at `n`. -/
def clockAt (n k : Nat) (s : State) : State := { s with now := n, tick := k }
/-- In EMBER or not. -/
def asleep (on : Bool) (s : State) : State := { s with ember := { s.ember with on := on } }

/-- The package held or not, with the TAP's instruction and the watchdog. -/
def package (held : Bool) (ir : Nat) (wdog : Word) : State :=
  let s := put State.reset [(0x812108, wdog)]
  { s with boot := { s.boot with held := held }, hostPort := { s.hostPort with ir := ir } }
/-- An image header of no sections with a key, a signature over no bytes (of three times the base point and the key) and a
version; the key's hash. -/
def imageHeader (svn : Nat) (good : Bool) : List Byte :=
  leBytes 4 0x42385855 ++ leBytes 4 1 ++ leBytes 4 0 ++ leBytes 4 svn ++ leBytes 4 0 ++ leBytes 12 0 ++
    beBytes 32 0xdb022f8936845cc41169c27b67e1a084636b44c472eb8e7630b826a1e83a672c ++
    beBytes 32 0x4c6ca66d0fdc6c230b937f2a67d066acc74204eac81f0eafdf059827378b9568 ++
    beBytes 32 0xf690416adda95eb233a9519833253db68b2967bfe6439ac784030f8b25b300fd ++
    beBytes 32 (if good then 0xf690416adda95eb233a9519833253db68b2967bfe6439ac784030f8b25b300fd else 0)
def keyHash : Nat := 0x19fd927d6e488931fb493a9f05039aaea5c62fa1c1beb85ff664217ca5bc0d1e
/-- The boot logic at a step, with an image's header, the OTP's key hash, SECURE and version, and trained lanes. -/
def booting (step : Nat) (host : Bool) (header : List Byte) (key : Option Nat) (secure : Bool) (lanes : Word) : State :=
  let s := put State.reset ((List.range 8).map (fun b => (b * 0x100000 + 0x70004, lanes)))
  let x : Boot := { Boot.init with step := step, host := host, header := header }
  { s with boot := x, otp := { s.otp with slot0 := key, secure := secure, svn := 5 } }
/-- Temper in a power state, a domain held, a request or none. -/
def temper (state : Nat) (req : Option Nat) (doms : List (Nat × ClkDomain)) : State :=
  { State.reset with temper := { State.reset.temper with state := state, req := req }, heldDoms := doms }
/-- Ember asleep or awake, with one wake slot. -/
def emberSlot (on : Bool) (slot : Word) (levels : List Nat) : State :=
  let s := put State.reset [(0x8031BC, slot), (0x803008, 8#32)]
  { s with ember := { s.ember with on := on, levels := levels } }
/-- With the watchdog's start at `n`, the forge cycle at `now`, and a reset that the host's pin holds or not. -/
def hotAt (n now : Nat) (hot : Bool) (s : State) : State := { s with now := now, boot := { s.boot with wdogAt := n, hot := hot } }
/-- With Temper's last check and sensor read long ago or not. -/
def temperAt (now : Nat) (held : Bool) (s : State) : State := { s with now := now, boot := { s.boot with held := held } }

/-- A posted write of a port's data (4: of a register) of hearth RAM. -/
def post (p : Nat) (line : Nat) : Posted := ⟨p, 0x81001700#32, 0x1FFFFC, 0xCAFE1234#32, (0, line)⟩
/-- The host port with writes posted, the part held or not. -/
def hostPosted (held : Bool) (l : List Posted) : State :=
  { State.reset with hostPort := { State.reset.hostPort with posted := l }, boot := { State.reset.boot with held := held } }
/-- Data port 3 with its CTRL word and words prefetched. -/
def dataPort3 (ctl : Word) (pref : List (Nat × Word)) (l : List Posted) : State :=
  put { hostPosted false l with dports := [(3, ⟨0x1000, 0, pref⟩)] } [(0x8200C0, ctl), (0x8200C4, 0x1FFFFC#32)]
/-- With host reads waiting, until a line. -/
def hostWaits (w : List Nat) (line : Nat) (s : State) : State :=
  { s with hostPort := { s.hostPort with wait := w, waitDead := (0, line) } }

/-- The hypotheses of the clauses of StepRunsTheFrontCommand. -/
def meetsStepRunsTheFrontCommand (c : Instr) (rest : List Instr) (s : State) : List Bool :=
  [decide (s.pending = c :: rest)]

theorem test_meets_StepRunsTheFrontCommand : covered
    [meetsStepRunsTheFrontCommand (.hNop u13) [.hNop u00] { State.reset with pending := [.hNop u13, .hNop u00] }] = true := by
  decide +kernel

/-- The hypotheses of the clauses of IdleStepCountsAForgeCycle. -/
def meetsIdleStepCountsAForgeCycle (s : State) : List Bool :=
  let given := decide (s.pending = [])
  [given && decide (s.beam.running = false),
   given && decide (lineEnd s ≤ s.now),
   given && decide (s.beam.running = true ∧ s.now < lineEnd s ∧ s.pkgQueue = [] ∧ s.hostPort.posted = [] ∧
      s.hostPort.wait = [])]

theorem test_meets_IdleStepCountsAForgeCycle : covered
    [meetsIdleStepCountsAForgeCycle { State.reset with beam := { State.reset.beam with running := false, lineLen := 0 } },
     meetsIdleStepCountsAForgeCycle { State.reset with beam := { State.reset.beam with running := true, lineLen := 898 } }] = true := by
  decide +kernel

/-- The hypotheses of the clauses of HammerRegisterResults (HammerArithmeticResults). -/
def meetsHammerArithmeticResults (s : State) (u : HAt) (gd gs : Nat) (x : Opd) (imm5 : Nat) : List Bool :=
  let given := decide (issues s u (gd :: Opd.regs x) = true)
  [given,
   given && decide (x = .reg gs),
   given && decide (x = .imm 0#16 ∧ imm5 < 32)]

theorem test_meets_HammerRegisterResults_HammerArithmeticResults : covered
    [meetsHammerArithmeticResults (run13 [(15, 0x8000#16)]) u13 0 0 (Opd.imm 0#16) 0,
     meetsHammerArithmeticResults (run13 [(15, 0x8000#16)]) u13 0 15 (Opd.reg 15) 0] = true := by
  decide +kernel

/-- The hypotheses of the clauses of HammerRegisterResults (HammerShiftResults). -/
def meetsHammerShiftResults (s : State) (u : HAt) (gd : Nat) (x : Opd) : List Bool :=
  [decide (issues s u (gd :: Opd.regs x) = true)]

theorem test_meets_HammerRegisterResults_HammerShiftResults : covered
    [meetsHammerShiftResults (run13 [(15, 16#16)]) u13 0 (Opd.reg 15)] = true := by
  decide +kernel

/-- The hypotheses of the clauses of HammerRegisterResults (HammerCompareResults). -/
def meetsHammerCompareResults (s : State) (u : HAt) (gd gs : Nat) (x : Opd) : List Bool :=
  let given := decide (issues s u (gd :: Opd.regs x) = true)
  [given,
   given && decide (x = .reg gs)]

theorem test_meets_HammerRegisterResults_HammerCompareResults : covered
    [meetsHammerCompareResults (run13 [(15, 0xFFFF#16)]) u13 0 15 (Opd.reg 15)] = true := by
  decide +kernel

/-- The hypotheses of the clauses of HammerAccumulators (HammerAccumulatorResults). -/
def meetsHammerAccumulatorResults (s : State) (u : HAt) (acc : Bool) (gx gy : Nat) : List Bool :=
  let y := past s u
  let given := decide (issues s u [gx, gy] = true)
  [given,
   given && decide (gx = gy),
   given && decide (gx = gy) && (let a := if acc then y.a1 else y.a0; decide (a.extractLsb' 31 9 = 0#9)),
   given && decide (gx = gy) && (let a := if acc then y.a1 else y.a0; decide (a.extractLsb' 31 9 = 0x1FF#9)),
   given && decide (gx = gy) && (let a := if acc then y.a1 else y.a0; decide (a.extractLsb' 31 9 ≠ 0#9 ∧
      a.extractLsb' 31 9 ≠ 0x1FF#9))]

theorem test_meets_HammerAccumulators_HammerAccumulatorResults : covered
    [meetsHammerAccumulatorResults (acc13 0x7FFFFFFF#40) u13 true 15 15,
     meetsHammerAccumulatorResults (acc13 0xFF80000000#40) u13 true 15 15,
     meetsHammerAccumulatorResults (acc13 0x80000000#40) u13 true 15 15] = true := by
  decide +kernel

/-- The hypotheses of the clauses of HammerAccumulators (HammerMacd). -/
def meetsHammerMacd (s : State) (u : HAt) (acc : Bool) (gx gy : Nat) : List Bool :=
  let y := past s u
  let given := decide (issues s u [gx, gy] = true ∧ gx < 16 ∧ gy < 16)
  [given && decide (y.sm = true),
   given && decide (y.sm = false ∧ y.trapAct = false)]

theorem test_meets_HammerAccumulators_HammerMacd : covered
    [meetsHammerMacd (macd13 true) u13 false 15 3,
     meetsHammerMacd (macd13 false) u13 false 15 3] = true := by
  decide +kernel

/-- The hypotheses of the clauses of HammerLoads. -/
def meetsHammerLoads (s : State) (u : HAt) (g ga : Nat) (x : Opd) (a : Nat) : List Bool :=
  let y := past s u
  let pc := (s.hammer u.b u.h).pc
  let given := decide (issues s u [] = true ∧ (s.hammer u.b u.h).load = none ∧ (s.hammer u.b u.h).stores = [] ∧
      commitStalled s u.b u.h = false ∧ g < 16 ∧ ga < 16)
  [given && decide (x.val y = BitVec.ofNat 16 a ∧ a < 0x2000),
   given && decide (y.reg ga = BitVec.ofNat 16 a ∧ a < 0x2000 ∧ g ≠ ga),
   given && decide (y.reg ga = BitVec.ofNat 16 a ∧ a < 0x2000 ∧ g = ga),
   given && decide (x.val y = BitVec.ofNat 16 a ∧ 0x2000 ≤ a ∧ a < 0x8000),
   given && decide (y.reg ga = BitVec.ofNat 16 a ∧ 0x2000 ≤ a ∧ a < 0x8000 ∧ g = ga),
   given && decide (y.reg ga = BitVec.ofNat 16 a ∧ 0x2000 ≤ a ∧ a < 0x8000 ∧ g ≠ ga)]

theorem test_meets_HammerLoads : covered
    [meetsHammerLoads (run13 [(15, BitVec.ofNat 16 0x1FFF)]) u13 0 15 (.reg 15) 0x1FFF,
     meetsHammerLoads (run13 [(15, BitVec.ofNat 16 0x2000)]) u13 0 15 (.reg 15) 0x2000,
     meetsHammerLoads (run13 [(15, BitVec.ofNat 16 0x1FFF)]) u13 15 15 (.reg 15) 0x1FFF,
     meetsHammerLoads (run13 [(15, BitVec.ofNat 16 0x2000)]) u13 15 15 (.reg 15) 0x2000] = true := by
  decide +kernel

/-- The hypotheses of the clauses of HammerLoads (HammerLoadReturns). -/
def meetsHammerLoadReturns (s : State) (b h g off pc : Nat) (d : Deadline) (undo : Option (Nat × HWord)) : List Bool :=
  let given := decide (s.hasHammer b h = true ∧ stepsAsked s = [] ∧ g < 16 ∧
      (s.hammer b h).load = some ⟨.reg g, .hearth off, false, pc, d, undo⟩)
  [given && decide (s.hbad b off 2 = false),
   given && decide (beTrap s b h = false)]

theorem test_meets_HammerLoads_HammerLoadReturns : covered
    [meetsHammerLoadReturns load13 1 3 15 0x1FFFFE 0x3FFF ⟨1, 2, 3⟩ none] = true := by
  decide +kernel

/-- The hypotheses of the clauses of HammerStores. -/
def meetsHammerStores (s : State) (u : HAt) (g ga : Nat) (x : Opd) (a : Nat) : List Bool :=
  let y := past s u
  let given := decide (issues s u (g :: ga :: Opd.regs x) = true ∧ g < 16 ∧ ga < 16)
  [given && decide (x.val y = BitVec.ofNat 16 a ∧ a < 0x2000),
   given && decide (y.reg ga = BitVec.ofNat 16 a ∧ a < 0x2000),
   given && decide (x.val y = BitVec.ofNat 16 a ∧ 0x2000 ≤ a ∧ a < 0x8000 ∧ y.stores.length < 4),
   given && decide (y.reg ga = BitVec.ofNat 16 a ∧ 0x2000 ≤ a ∧ a < 0x8000 ∧ y.stores.length < 4)]

theorem test_meets_HammerStores : covered
    [meetsHammerStores (stores13 0 0x1FFF) u13 3 15 (.reg 15) 0x1FFF,
     meetsHammerStores (stores13 0 0x2000) u13 3 15 (.reg 15) 0x2000] = true := by
  decide +kernel

/-- The hypotheses of the clauses of HammerStores (HammerStoreCompletes). -/
def meetsHammerStoreCompletes (s : State) (b h off pc : Nat) (v : HWord) (d : Deadline) (undo : Option (Nat × HWord)) (rest : List PendStore) : List Bool :=
  let given := decide (s.hasHammer b h = true ∧ stepsAsked s = [] ∧
      (s.hammer b h).stores = ⟨.half v, .hearth off, pc, d, undo⟩ :: rest ∧ commitStalled s b h = false ∧
      off < 2097152 ∧ off % 2 = 0)
  [given,
   given && decide (beTrap s b h = false)]

theorem test_meets_HammerStores_HammerStoreCompletes : covered
    [meetsHammerStoreCompletes (posted13 (.half 0xABCD#16) (.hearth 0x1FFFFE)) 1 3 0x1FFFFE 7 0xABCD#16 ⟨1, 2, 3⟩ none []] = true := by
  decide +kernel

/-- The hypotheses of the clauses of HammerDeadlinesAndTli (HammerAccessDeadline). -/
def meetsHammerAccessDeadline (s : State) (b h a pc g : Nat) (odd : Bool) (k : StoreKind) (d : Deadline) (undo : Option (Nat × HWord))
    (rest : List PendStore) : List Bool :=
  let x := s.hammer b h
  let given := decide (s.hasHammer b h = true ∧ stepsAsked s = [] ∧ beTrap s b h = false ∧
      (s.ppendOf b h).testBit 26 = false ∧ ((0x800000 ≤ a ∧ a < 0x900000) ∨ (a < s.n * 0x100000 ∧ a / 0x100000 ≠ b)))
  [given && decide (x.load = some ⟨.reg g, .reg a, odd, pc, d, undo⟩ ∧ deadPassed s d = true),
   given && decide (x.load = some ⟨.reg g, .reg a, odd, pc, d, undo⟩ ∧ deadPassed s d = false),
   given && decide (x.stores = ⟨k, .reg a, pc, d, undo⟩ :: rest ∧ deadPassed s d = true),
   given && decide (x.stores = ⟨k, .reg a, pc, d, undo⟩ :: rest ∧ deadPassed s d = false)]

theorem test_meets_HammerDeadlinesAndTli_HammerAccessDeadline : covered
    [meetsHammerAccessDeadline (remote13 0x800000 (Deadline.mk 0 0 0)) 1 3 0x800000 7 15 false (.word 9#32) (Deadline.mk 0 0 0) (some (3, 9#16)) [],
     meetsHammerAccessDeadline (remote13 0x800000 (Deadline.mk 0 1 0)) 1 3 0x800000 7 15 false (.word 9#32) (Deadline.mk 0 1 0) (some (3, 9#16)) []] = true := by
  decide +kernel

/-- The hypotheses of the clauses of HammerDeadlinesAndTli (HammerTli). -/
def meetsHammerTli (s : State) (u : HAt) (gd gs : Nat) : List Bool :=
  let y := past s u
  let i := (y.reg gs).toNat / 256
  let tbase := fld (s.reg (haddr u.b u.h 0x1C)) 15 0
  let given := decide (issues s u [gd, gs] = true ∧ (s.hammer u.b u.h).load = none)
  [given && decide (tbase + i + 1 < 0x2000)]

theorem test_meets_HammerDeadlinesAndTli_HammerTli : covered
    [meetsHammerTli (put (run13 [(3, 0xFFFF#16)]) [(haddr 1 3 0x1C, 0x1EFF#32)]) u13 15 3] = true := by
  decide +kernel

/-- The hypotheses of the clauses of HammerBits (HammerPrivateBits). -/
def meetsHammerPrivateBits (s : State) (u : HAt) (g n : Nat) : List Bool :=
  let given := decide (issues s u [g] = true ∧ n < 256)
  [given && decide (u.h < 16)]

theorem test_meets_HammerBits_HammerPrivateBits : covered
    [meetsHammerPrivateBits (run13 []) u13 15 0] = true := by
  decide +kernel

/-- The hypotheses of the clauses of HammerBits (HammerFarBitWrites). -/
def meetsHammerFarBitWrites (s : State) (u : HAt) (g n k : Nat) : List Bool :=
  let given := decide (issues s u [g] = true ∧ k < 3 ∧ 1024 + 1024 * k ≤ n ∧ n < 2048 + 1024 * k)
  [given && decide ((s.hammer u.b u.h).stores.length < 4)]

theorem test_meets_HammerBits_HammerFarBitWrites : covered
    [meetsHammerFarBitWrites (stores13 3 0) u13 3 1024 0] = true := by
  decide +kernel

/-- The hypotheses of the clauses of HammerWaits. -/
def meetsHammerWaits (s : State) (u : HAt) (g n : Nat) (v : Bool) : List Bool :=
  let x := s.hammer u.b u.h
  let p := s.port u.b (portSel s u.b u.h)
  let given := decide (issues s u [g] = true ∧ n < 256 ∧ (s.hammer u.b u.h).stores = [] ∧
      commitStalled s u.b u.h = false)
  [given && decide (nearRead s u.b u.h n = v),
   given && decide (nearRead s u.b u.h n ≠ v),
   given && decide (p.running = true ∧ (x.reg g).toNat ≤ p.line),
   given && decide (p.running = true ∧ p.line < (x.reg g).toNat),
   given && decide (p.running = false ∧ (s.ppendOf u.b u.h).testBit 26 = false)]

theorem test_meets_HammerWaits : covered
    [meetsHammerWaits (wait13 true 5 none) u13 15 0 true,
     meetsHammerWaits (wait13 false 5 none) u13 15 0 false,
     meetsHammerWaits (wait13 true 4 none) u13 15 0 true] = true := by
  decide +kernel

/-- The hypotheses of the clauses of HammerWaits (HammerWaitEnds). -/
def meetsHammerWaitEnds (s : State) (b h words : Nat) (d : Deadline) (w : WaitFor) (v : Nat) (n : Nat) (bv : Bool) : List Bool :=
  let p := s.port b (portSel s b h)
  let given := decide (s.hasHammer b h = true ∧ stepsAsked s = [] ∧ (s.hammer b h).run = .waiting ∧
      (s.hammer b h).wait = some ⟨w, words, d⟩)
  [given && decide (w = .line v ∧ p.running = true ∧ v ≤ p.line),
   given && decide (w = .bit n bv ∧ n < 1024 ∧ nearRead s b h n = bv),
   given && decide (w = .line v ∧ p.running = false),
   given && decide (w = .line v ∧ p.line < v),
   given && decide (deadPassed s d = false),
   given && decide (deadPassed s d = true ∧ (s.ppendOf b h).testBit 26 = false)]

theorem test_meets_HammerWaits_HammerWaitEnds : covered
    [meetsHammerWaitEnds (wait13 false 4 (some ((WaitFor.line 5), 0))) 1 3 2 ⟨0, 0, 0⟩ (WaitFor.line 5) 5 1023 false,
     meetsHammerWaitEnds (wait13 true 5 (some ((WaitFor.line 5), 1))) 1 3 2 ⟨0, 1, 0⟩ (WaitFor.line 5) 5 1023 false,
     meetsHammerWaitEnds (wait13 true 5 (some ((WaitFor.bit 1023 false), 0))) 1 3 2 ⟨0, 0, 0⟩ (WaitFor.bit 1023 false) 5 1023 false] = true := by
  decide +kernel

/-- The hypotheses of the clauses of HammerBranchesAndCalls (HammerBranches). -/
def meetsHammerBranches (s : State) (u : HAt) (g gt k : Nat) (t : Tgt) (a : Nat) : List Bool :=
  let y := past s u
  let pc := (s.hammer u.b u.h).pc
  let given := decide (issues s u [g, gt] = true ∧ g < 16 ∧ pc < 2 ^ 14 ∧ k < 2 ^ 14)
  [given && decide ((t = .abs k ∧ a = k)),
   given && decide ((t = .reg gt ∧ a = (y.reg gt).toNat % 2 ^ 14)),
   given && decide ((t = .page k ∧ a = pc / 4096 * 4096 + k % 4096)),
   given && decide ((t = .pageReg gt ∧ a = pc / 4096 * 4096 + (y.reg gt).toNat % 4096)),
   given && decide ((t = .rel k ∧ k < 16 ∧ a = pc / 4096 * 4096 + (pc + 1 + k) % 4096)),
   given && decide ((t = .rel k ∧ 16 ≤ k ∧ k < 32 ∧ a = pc / 4096 * 4096 + (pc % 4096 + 1 + 4096 + k - 32) % 4096))]

theorem test_meets_HammerBranchesAndCalls_HammerBranches : covered
    [meetsHammerBranches (run13 [(15, 0xFFFF#16)]) u13 3 15 0 (Tgt.reg 15) 0x3FFF,
     meetsHammerBranches (run13 [(15, 0xFFFF#16)]) u13 3 15 0 (Tgt.pageReg 15) 0x1FFF,
     meetsHammerBranches (run13 [(15, 0xFFFF#16)]) u13 3 15 15 (Tgt.rel 15) 0x100F,
     meetsHammerBranches (run13 [(15, 0xFFFF#16)]) u13 3 15 16 (Tgt.rel 16) 0x1FF0,
     meetsHammerBranches (run13 [(15, 0xFFFF#16)]) u13 3 15 0x3FFF (Tgt.abs 0x3FFF) 0x3FFF,
     meetsHammerBranches (run13 [(15, 0xFFFF#16)]) u13 3 15 0x3FFF (Tgt.page 0x3FFF) 0x1FFF] = true := by
  decide +kernel

/-- The hypotheses of the clauses of HammerBranchesAndCalls (HammerCallAndReturn). -/
def meetsHammerCallAndReturn (s : State) (u : HAt) (k : Nat) : List Bool :=
  let y := past s u
  let tr := s.reg (haddr u.b u.h 0x2C)
  let given := decide (issues s u [] = true ∧ k < 2 ^ 14)
  [given && decide (stkTrap s u.b u.h = false),
   given && decide (y.depth < 8),
   given && decide (y.depth ≠ 0),
   given && decide (y.trapAct = false ∧ stkTrap s u.b u.h = false),
   given && decide (y.trapAct = false ∧ y.depth ≠ 0),
   given && decide (y.sp ≠ fld tr 23 20 ∧ stkTrap s u.b u.h = false),
   given && decide (y.sp ≠ fld tr 23 20 ∧ y.depth ≠ 0),
   given && decide (y.trapAct = true ∧ y.sp = fld tr 23 20),
   given && decide (stkTrap s u.b u.h = true ∧ y.trapAct = false ∧ y.depth = 8),
   given && decide (stkTrap s u.b u.h = true ∧ y.trapAct = false ∧ y.depth = 0)]

theorem test_meets_HammerBranchesAndCalls_HammerCallAndReturn : covered
    [meetsHammerCallAndReturn (stack13 7 4 false false) u13 0x3FFF,
     meetsHammerCallAndReturn (stack13 0 5 true true) u13 0x3FFF,
     meetsHammerCallAndReturn (stack13 0 5 false true) u13 0x3FFF,
     meetsHammerCallAndReturn (stack13 8 5 false true) u13 0x3FFF] = true := by
  decide +kernel

/-- The hypotheses of the clauses of HammerSystem. -/
def meetsHammerSystem (s : State) (u : HAt) (c : Instr) : List Bool :=
  let x := s.hammer u.b u.h
  let y := past s u
  let given := decide (issues s u [] = true ∧ (s.hammer u.b u.h).stores = [] ∧ commitStalled s u.b u.h = false)
  [given,
   given && decide (y.ie = true),
   given && decide (y.ie = false),
   given && decide (x.trapAct = false),
   given && decide (x.trapAct = true ∧ c = .hSvc u),
   given && decide (x.trapAct = true ∧ c = .hTrap u),
   given && decide (x.trapAct = true ∧ c = .illegalEncoding u)]

theorem test_meets_HammerSystem : covered
    [meetsHammerSystem (stack13 0 5 true true) u13 (Instr.hSvc u13),
     meetsHammerSystem (stack13 0 5 false true) u13 (Instr.hSvc u13),
     meetsHammerSystem (stack13 0 5 true true) u13 (Instr.hTrap u13),
     meetsHammerSystem (stack13 0 5 true true) u13 (Instr.illegalEncoding u13)] = true := by
  decide +kernel

/-- The hypotheses of the clauses of HammerRepeats (HammerRepeat). -/
def meetsHammerRepeat (s : State) (u : HAt) (n gd w : Nat) (v : HWord) : List Bool :=
  let pc := (s.hammer u.b u.h).pc
  let y := past s u
  let given := decide (issues s u [] = true ∧ (s.hammer u.b u.h).load = none ∧ (s.hammer u.b u.h).rptLeft = 0 ∧
      gd < 16 ∧ u.words = 1)
  [given && decide (decodeAt s u.b u.h (pc + 1) = (.alu .add gd (.imm v), w)),
   given && decide ((decodeAt s u.b u.h (pc + 1)).1.repeatable = false ∧ y.trapAct = false)]

theorem test_meets_HammerRepeats_HammerRepeat : covered
    [meetsHammerRepeat (next13 [] addWord) u13 256 2 1 0xFFFF#16,
     meetsHammerRepeat (next13 [] 5#14) u13 256 2 1 31#16] = true := by
  decide +kernel

/-- The hypotheses of the clauses of HammerRepeats (HammerRepeatInterruptible). -/
def meetsHammerRepeatInterruptible (s : State) (u : HAt) (g gd w : Nat) (v : HWord) : List Bool :=
  let pc := (s.hammer u.b u.h).pc
  let y := past s u
  let given := decide (issues s u [g] = true ∧ (s.hammer u.b u.h).load = none ∧ g < 16 ∧ gd < 16 ∧ g ≠ gd ∧
      u.words = 1 ∧ pc < 2 ^ 14 ∧ decodeAt s u.b u.h (pc + 1) = (.alu .add gd (.imm v), w) ∧ 0 < w ∧ w < 3)
  [given && decide (y.reg g = 0#16),
   given && decide (y.reg g ≠ 0#16)]

theorem test_meets_HammerRepeats_HammerRepeatInterruptible : covered
    [meetsHammerRepeatInterruptible (next13 [(15, 0#16)] addWord) u13 15 2 1 0xFFFF#16,
     meetsHammerRepeatInterruptible (next13 [(15, 1#16)] addWord) u13 15 2 1 0xFFFF#16] = true := by
  decide +kernel

/-- The hypotheses of the clauses of HammerStrings. -/
def meetsHammerStrings (s : State) (u : HAt) (c : Instr) (w : HWord) (z : Hammer) : List Bool :=
  let x := s.hammer u.b u.h
  let y := past s u
  let src := (y.reg 13).toNat
  let dst := (y.reg 14).toNat
  let n := y.reg 15
  let go := fun (z : Hammer) => { z.setReg 15 (n - 1) with pc := if n = 1#16 then y.pc else x.pc }
  let both := go ((y.setReg 13 (y.reg 13 + 1)).setReg 14 (y.reg 14 + 1))
  let v := bankWord s u.b u.h src
  let given := decide (issues s u [12, 13, 14, 15] = true ∧ (s.hammer u.b u.h).load = none ∧ x.pc < 2 ^ 14)
  [given && decide (n = 0#16),
   given && decide (n ≠ 0#16 ∧ src < 0x2000 ∧ dst < 0x2000 ∧ (c = .hMovs u ∧ w = v ∧ z = both)),
   given && decide (n ≠ 0#16 ∧ src < 0x2000 ∧ dst < 0x2000 ∧ (c = .hFills u ∧ w = y.reg 12 ∧
      z = go (y.setReg 14 (y.reg 14 + 1)))),
   given && decide (n ≠ 0#16 ∧ src < 0x2000 ∧ dst < 0x2000)]

theorem test_meets_HammerStrings : covered
    [meetsHammerStrings (string13 1#16) u13 (Instr.hMovs u13) 7#16 ((((past (string13 1) u13).setReg 13 0x2000#16).setReg 14 0x2000#16).setReg 15 0#16),
     meetsHammerStrings (string13 0#16) u13 (Instr.hMovs u13) 7#16 ((((past (string13 1) u13).setReg 13 0x2000#16).setReg 14 0x2000#16).setReg 15 0#16),
     meetsHammerStrings (string13 1#16) u13 (Instr.hFills u13) 7#16 (((past (string13 1) u13).setReg 14 0x2000#16).setReg 15 0#16)] = true := by
  decide +kernel

/-- The hypotheses of the clauses of HammerControl (HammerRunAndStop). -/
def meetsHammerRunAndStop (s : State) (who : Who) (b h : Nat) : List Bool :=
  let x := s.hammer b h
  let given := decide (s.hasHammer b h = true ∧ controls s who b h = true)
  [given && decide (x.run = .halted),
   given && decide (x.run ≠ .halted),
   given && decide (x.run ≠ .halted ∧ x.run ≠ .off)]

theorem test_meets_HammerControl_HammerRunAndStop : covered
    [meetsHammerRunAndStop (ctl13 3 RunState.running true 0#32) Who.host 1 3,
     meetsHammerRunAndStop (ctl13 3 RunState.halted true 0#32) Who.host 1 3] = true := by
  decide +kernel

/-- The hypotheses of the clauses of HammerControl (ServiceModeWrites). -/
def meetsServiceModeWrites (s : State) (who : Who) (b h : Nat) (on : Bool) : List Bool :=
  let x := s.hammer b h
  let given := decide (s.hasHammer b h = true ∧ controls s who b h = true)
  [given && decide (h ≠ 0),
   given && decide (h = 0 ∧ on = false),
   given && decide (h = 0 ∧ on = true ∧ x.run = .halted ∧ who = .host),
   given && decide (h = 0 ∧ on = true ∧ x.run ≠ .halted),
   given && decide (h = 0 ∧ on = true ∧ who ≠ .host)]

theorem test_meets_HammerControl_ServiceModeWrites : covered
    [meetsServiceModeWrites (ctl13 0 RunState.running true 0#32) (Who.hammer 1 0) 1 0 true,
     meetsServiceModeWrites (ctl13 0 RunState.halted true 0#32) Who.host 1 0 true,
     meetsServiceModeWrites (ctl13 0 RunState.halted true 0#32) Who.host 1 0 false,
     meetsServiceModeWrites (ctl13 15 RunState.halted true 0#32) Who.host 1 15 true] = true := by
  decide +kernel

/-- The hypotheses of the clauses of HammerResetAndStep (HammerReset). -/
def meetsHammerReset (s : State) (who : Who) (b h : Nat) : List Bool :=
  let given := decide (s.hasHammer b h = true ∧ controls s who b h = true)
  [given && decide ((∀ l : Nat, l < 4 → (s.slot b h l).id < 1024))]

theorem test_meets_HammerResetAndStep_HammerReset : covered
    [meetsHammerReset (ctl13 3 .running true 0#32) Who.host 1 3] = true := by
  decide +kernel

/-- The hypotheses of the clauses of HammerResetAndStep (HammerSteps). -/
def meetsHammerSteps (s : State) (who : Who) (b h g imm5 : Nat) : List Bool :=
  let x := s.hammer b h
  let given := decide (s.hasHammer b h = true ∧ controls s who b h = true ∧ stepsAsked s = [] ∧ g < 8 ∧ imm5 < 32)
  [given && decide ((x.run = .halted) ∧ (x.load = none) ∧ x.trapDue = none ∧
      progWord s b h x.pc = BitVec.ofNat 14 (0b011 * 512 + g * 32 + imm5)),
   given && decide (x.run ≠ .halted)]

theorem test_meets_HammerResetAndStep_HammerSteps : covered
    [meetsHammerSteps (ctl13 3 RunState.halted true 0#32) (.hammer 1 0) 1 3 7 31,
     meetsHammerSteps (ctl13 3 RunState.running true 0#32) (.hammer 1 0) 1 3 7 31] = true := by
  decide +kernel

/-- The hypotheses of the clauses of HammerDebugPorts. -/
def meetsHammerDebugPorts (s : State) (who : Who) (b h : Nat) (v : Word) : List Bool :=
  let x := s.hammer b h
  let sel := fld (s.reg (haddr b h 0x40)) 4 0
  let given := decide (s.hasHammer b h = true ∧ controls s who b h = true ∧ ownOrOutside who b h = true)
  [given,
   given && decide (x.run = .halted ∧ who ≠ .hammer b h),
   given && decide (x.run ≠ .halted),
   given && decide (who = .hammer b h),
   given && decide (x.run = .halted ∧ sel < 16),
   given && decide (x.run = .halted ∧ sel = 22)]

theorem test_meets_HammerDebugPorts : covered
    [meetsHammerDebugPorts (ctl13 3 RunState.halted true 15#32) (Who.hammer 1 3) 1 3 5#32,
     meetsHammerDebugPorts (ctl13 3 RunState.halted true 22#32) Who.host 1 3 5#32,
     meetsHammerDebugPorts (ctl13 3 RunState.running true 15#32) (Who.hammer 1 3) 1 3 5#32] = true := by
  decide +kernel

/-- The hypotheses of the clauses of ForbiddenWrites (ForbiddenHammerWrites). -/
def meetsForbiddenHammerWrites (s : State) (b h b' h' : Nat) (v : Word) (on : Bool) (c : Instr) : List Bool :=
  let given := decide (s.hasHammer b h = true ∧ stepsAsked s = [] ∧ controls s (.hammer b' h') b h = false ∧
      (s.hammer b h).run = .halted)
  [given && decide (c = .hammerRun (.hammer b' h') b h),
   given && decide (c = .hammerStop (.hammer b' h') b h),
   given && decide (c = .hammerReset (.hammer b' h') b h),
   given && decide (c = .hammerStep (.hammer b' h') b h),
   given && decide (c = .serviceModeWrite (.hammer b' h') b h on),
   given && decide (c = .pmdataAccess (.hammer b' h') b h (some v)),
   given && decide (c = .dmdataAccess (.hammer b' h') b h (some v)),
   given && decide (c = .dbgdataAccess (.hammer b' h') b h (some v))]

theorem test_meets_ForbiddenWrites_ForbiddenHammerWrites : covered
    [meetsForbiddenHammerWrites (ctl13 3 .halted true 0#32) 1 3 1 2 5#32 true (Instr.hammerRun (.hammer 1 2) 1 3),
     meetsForbiddenHammerWrites (ctl13 3 .halted true 0#32) 1 3 1 2 5#32 true (Instr.hammerStop (.hammer 1 2) 1 3),
     meetsForbiddenHammerWrites (ctl13 3 .halted true 0#32) 1 3 1 2 5#32 true (Instr.hammerReset (.hammer 1 2) 1 3),
     meetsForbiddenHammerWrites (ctl13 3 .halted true 0#32) 1 3 1 2 5#32 true (Instr.hammerStep (.hammer 1 2) 1 3),
     meetsForbiddenHammerWrites (ctl13 3 .halted true 0#32) 1 3 1 2 5#32 true (Instr.serviceModeWrite (.hammer 1 2) 1 3 true),
     meetsForbiddenHammerWrites (ctl13 3 .halted true 0#32) 1 3 1 2 5#32 true (Instr.pmdataAccess (.hammer 1 2) 1 3 (some 5#32)),
     meetsForbiddenHammerWrites (ctl13 3 .halted true 0#32) 1 3 1 2 5#32 true (Instr.dmdataAccess (.hammer 1 2) 1 3 (some 5#32)),
     meetsForbiddenHammerWrites (ctl13 3 .halted true 0#32) 1 3 1 2 5#32 true (Instr.dbgdataAccess (.hammer 1 2) 1 3 (some 5#32))] = true := by
  decide +kernel

/-- The hypotheses of the clauses of ForbiddenWrites (PinOwnership). -/
def meetsPinOwnership (s : State) (b j b' h' : Nat) (v : Word) : List Bool :=
  let given := decide (s.present b = true ∧ j < 12)
  [given,
   given && decide ((s.hammer b 0).sm = true),
   given && decide (¬ (b' = b ∧ h' = 0 ∧ (s.hammer b 0).sm = true))]

theorem test_meets_ForbiddenWrites_PinOwnership : covered
    [meetsPinOwnership (ctl13 3 .halted true 0#32) 1 11 1 3 5#32] = true := by
  decide +kernel

/-- The hypotheses of the clauses of InterruptEntry. -/
def meetsInterruptEntry (s : State) (b h : Nat) (c : Cand) : List Bool :=
  let x := s.hammer b h
  let open' := x.ie = true ∧ x.run ≠ .halted ∧ x.run ≠ .off ∧ x.rptLeft = 0 ∧ x.haltAsk = false
  let given := decide (s.hasHammer b h = true)
  [given && decide (open' ∧ wins s b h c = true ∧ stkTrap s b h = false),
   given && decide (open' ∧ wins s b h c = true ∧ x.depth ≠ 8),
   given && decide (open' ∧ wins s b h c = true ∧ stkTrap s b h = true ∧ x.depth = 8 ∧ x.trapAct = false ∧
      x.run = .running ∧ x.trapDue = none),
   given && decide (¬ open'),
   given && decide (noneEligible s b h = true)]

theorem test_meets_InterruptEntry : covered
    [meetsInterruptEntry (irq13 true 0#32 0xFFFFFFFF#32 0 false) 1 3 (1, (3, 1)),
     meetsInterruptEntry (irq13 false 0#32 0#32 0 true) 1 3 (0, (0, 0)),
     meetsInterruptEntry (irq13 true 0#32 0xFFFFFFFF#32 8 true) 1 3 (1, (3, 1))] = true := by
  decide +kernel

/-- The hypotheses of the clauses of InterruptClaimAndComplete (InterruptClaim). -/
def meetsInterruptClaim (s : State) (b h : Nat) (c : Cand) : List Bool :=
  let given := decide (s.hasHammer b h = true)
  [given && decide (noneEligible s b h = true),
   given && decide (wins s b h c = true)]

theorem test_meets_InterruptClaimAndComplete_InterruptClaim : covered
    [meetsInterruptClaim (irq13 true 0#32 0#32 0 false) 1 3 (0, (0, 0)),
     meetsInterruptClaim (irq13 true 0#32 0xFFFFFFFF#32 0 false) 1 3 (1, (3, 1))] = true := by
  decide +kernel

/-- The hypotheses of the clauses of InterruptClaimAndComplete (InterruptComplete). -/
def meetsInterruptComplete (s : State) (b h id l : Nat) : List Bool :=
  let given := decide (s.hasHammer b h = true ∧ id < 1024)
  [given,
   given && decide (id ≠ 0 ∧ (∀ k : Nat, k < 4 → (s.slot b h k).valid = true → (s.slot b h k).id ≠ id)),
   given && decide (id ≠ 0 ∧ l < 4 ∧ (s.slot b h l).valid = true ∧ (s.slot b h l).id = id ∧
      (∀ k : Nat, k < 4 → k ≠ l → (s.slot b h k).valid = true → (s.slot b h k).id ≠ id))]

theorem test_meets_InterruptClaimAndComplete_InterruptComplete : covered
    [meetsInterruptComplete (slots13 [5, 1023]) 1 3 1023 1,
     meetsInterruptComplete (slots13 []) 1 3 1023 1] = true := by
  decide +kernel

/-- The hypotheses of the clauses of InterruptSensing. -/
def meetsInterruptSensing (s : State) (b id : Nat) : List Bool :=
  let x := s.src b id
  let v := srcInput s b id
  let sense := fld (s.reg (b * 0x100000 + 0x50000 + 4 * id)) 30 28
  let ev := (sense = 2 ∧ x.level = false ∧ v = true) ∨ (sense = 3 ∧ x.level = true ∧ v = false) ∨
    (sense = 4 ∧ x.level ≠ v)
  let given := decide (s.present b = true ∧ 32 ≤ id ∧ id < 1024 ∧ isPulse id = false)
  [given && decide (ev ∧ x.pend = false),
   given && decide (ev ∧ x.pend = true),
   given && decide (¬ ev ∧ 2 ≤ sense ∧ sense ≤ 4),
   given && decide (sense ≤ 1 ∧ x.inSvc = false)]

theorem test_meets_InterruptSensing : covered
    [meetsInterruptSensing (src1 0 1 true true false) 1 500,
     meetsInterruptSensing (src1 2 1 true true false) 1 500,
     meetsInterruptSensing (src1 3 1 true true false) 1 500,
     meetsInterruptSensing (src1 3 1 true false false) 1 500] = true := by
  decide +kernel

/-- The hypotheses of the clauses of InterruptSensing (InterruptExchange). -/
def meetsInterruptExchange (s : State) (b id : Nat) : List Bool :=
  let given := decide (s.present b = true ∧ 32 ≤ id)
  [given && decide (id < 1024)]

theorem test_meets_InterruptSensing_InterruptExchange : covered
    [meetsInterruptExchange (src1 0 1 true true true) 1 500] = true := by
  decide +kernel

/-- The hypotheses of the clauses of InterruptRegisterWrites. -/
def meetsInterruptRegisterWrites (s : State) (b i j h : Nat) (v : Word) : List Bool :=
  let given := decide (s.present b = true ∧ 32 ≤ i ∧ i < 1024 ∧ j < 16 ∧ h < 16)
  [given,
   given && decide ((∀ k : Nat, k < 4 → (s.ppendOf b h).testBit (28 + k) = false))]

theorem test_meets_InterruptRegisterWrites : covered
    [meetsInterruptRegisterWrites State.reset 1 1023 15 15 0xFFFFFFFF#32] = true := by
  decide +kernel

/-- The hypotheses of the clauses of RegisterWriteByAccessType. -/
def meetsRegisterWriteByAccessType (s : State) (who : Who) (b off : Nat) (v : Word) : List Bool :=
  let given := decide (accessible s = true ∧ s.present b = true ∧ stepsAsked s = [] ∧ off % 4 = 0 ∧
      isHeld s b off = false)
  [given && decide ((0xC0000 ≤ off ∧ off < 0xD0000) ∧ (who = .host → s.hostPort.posted = [] ∧ hostStalled s = false)),
   given && decide ((0x60000 < off ∧ off < 0x68000 ∧ off ≠ 0x60100) ∧ (who = .host → s.hostPort.posted = [] ∧
      hostStalled s = false)),
   given && decide ((0x70004 ≤ off ∧ off < 0x80000 ∧ off ≠ 0x70800 ∧ off ≠ 0x70804) ∧
      (who = .host → s.hostPort.posted = [] ∧ hostStalled s = false))]

theorem test_meets_RegisterWriteByAccessType : covered
    [meetsRegisterWriteByAccessType State.reset Who.host 7 0xC0000 0xFFFFFFFF#32,
     meetsRegisterWriteByAccessType State.reset Who.host 7 0x67FFC 0xFFFFFFFF#32,
     meetsRegisterWriteByAccessType State.reset Who.host 7 0x7FFFC 0xFFFFFFFF#32] = true := by
  decide +kernel

/-- The hypotheses of the clauses of LatchingReads. -/
def meetsLatchingReads (s : State) (who : Who) (b p c k : Nat) (snap : Bool) : List Bool :=
  let given := decide (s.present b = true ∧ p ≤ 4 ∧ c < 16)
  [given && decide (k < 16)]

theorem test_meets_LatchingReads : covered
    [meetsLatchingReads State.reset .host 7 4 15 15 true] = true := by
  decide +kernel

/-- The hypotheses of the clauses of LineCommits (LineCommitIssue). -/
def meetsLineCommitIssue (s : State) (who : Who) (addr : Nat) (v : Word) : List Bool :=
  let b := (ctxOf who).1
  let k := (ctxOf who).2
  let key := 32 * b + k
  let r := s.reg (b * 0x100000 + 0x80F40 + 4 * k)
  let l1 := lineAfter s (s.beam.frame, s.beam.line)
  let tl := fld r 31 16
  let tf := if s.beam.line < tl then s.beam.frame else (s.beam.frame + 1) % 2 ^ 48
  let given := decide (addr < 0x800000 ∧ s.present (addr / 0x100000) = true ∧
      latchedMask s.variant (addr % 0x100000) ≠ 0)
  [given && decide (16 < k),
   given && decide (k ≤ 16 ∧ r.getLsbD 0 = false ∧ r.getLsbD 1 = false),
   given && decide (k ≤ 16 ∧ r.getLsbD 0 = false ∧ r.getLsbD 1 = true ∧ s.beam.vtotal ≤ tl),
   given && decide (k ≤ 16 ∧ r.getLsbD 0 = false ∧ r.getLsbD 1 = true ∧ tl < s.beam.vtotal ∧ (tf, tl) = l1),
   given && decide (k ≤ 16 ∧ r.getLsbD 0 = false ∧ r.getLsbD 1 = true ∧ tl < s.beam.vtotal ∧ (tf, tl) ≠ l1),
   given && decide (k ≤ 16 ∧ r.getLsbD 0 = true ∧ isSingle s key = false ∧ (heldOf s key).length < 64),
   given && decide (k ≤ 16 ∧ r.getLsbD 0 = true ∧ isSingle s key = false ∧ 64 ≤ (heldOf s key).length)]

theorem test_meets_LineCommits_LineCommitIssue : covered
    [meetsLineCommitIssue (hold (Who.unit 1) 0 5 0#32 0) (Who.unit 1) 0x110000 9#32,
     meetsLineCommitIssue (hold (Who.hammer 1 3) 0 5 0#32 0) (Who.hammer 1 3) 0x110000 9#32,
     meetsLineCommitIssue (hold (Who.hammer 1 3) 0 5 2#32 0) (Who.hammer 1 3) 0x110000 9#32,
     meetsLineCommitIssue (hold (Who.hammer 1 3) 0 5 0x50002#32 0) (Who.hammer 1 3) 0x110000 9#32,
     meetsLineCommitIssue (hold (Who.hammer 1 3) 0 5 1#32 0) (Who.hammer 1 3) 0x110000 9#32,
     meetsLineCommitIssue (hold (Who.hammer 1 3) 0 5 1#32 64) (Who.hammer 1 3) 0x110000 9#32,
     meetsLineCommitIssue (hold (Who.hammer 1 3) 3 5 0x40002#32 0) (Who.hammer 1 3) 0x110000 9#32] = true := by
  decide +kernel

/-- The hypotheses of the clauses of LineCommits (BroadcastAndGroups). -/
def meetsBroadcastAndGroups (s : State) (who : Who) (off b k : Nat) (v : Word) : List Bool :=
  let ob := (ctxOf who).1
  let ok := (ctxOf who).2
  let a := b * 0x100000 + 0x80F40 + 4 * k
  let key := 32 * b + k
  let given := decide (s.present b = true ∧ (k < 16 ∨ (k = 16 ∧ b = 0)))
  [given && decide (inLatchedBlocks off = false),
   given && decide (off % 4 ≠ 0),
   given && decide (isLive off = true ∧ off % 4 = 0),
   given && decide (latchedMask s.variant off ≠ 0 ∧ off % 4 = 0 ∧ 16 < ok),
   given && decide (latchedMask s.variant off ≠ 0 ∧ off % 4 = 0 ∧
      (s.reg (ob * 0x100000 + 0x80F40 + 4 * ok) &&& 3#32) = 0#32),
   given,
   given && decide (heldOf s key = []),
   given && decide (heldOf s key ≠ [] ∧ (s.reg a).getLsbD 1 = false)]

theorem test_meets_LineCommits_BroadcastAndGroups : covered
    [meetsBroadcastAndGroups (hold (.hammer 1 3) 3 5 0#32 0) (Who.unit 1) 0x10000 1 3 9#32,
     meetsBroadcastAndGroups (hold (.hammer 1 3) 3 5 0#32 64) (Who.unit 1) 0x30800 1 3 9#32,
     meetsBroadcastAndGroups (hold (.hammer 1 3) 3 5 0#32 0) (Who.unit 1) 0x3FFFD 1 3 9#32,
     meetsBroadcastAndGroups (hold (.hammer 1 3) 3 5 0#32 0) (Who.unit 1) 0x40000 1 3 9#32] = true := by
  decide +kernel

/-- The hypotheses of the clauses of CommitDeliveryAndSeal (CommitAcceptAndDelivery). -/
def meetsCommitAcceptAndDelivery (s : State) (c : Commit) (b : Nat) (pz : Bool) : List Bool :=
  let rest := s.setLive (s.commits.live.filter (fun d => d.id ≠ c.id))
  let fits := stalledBehind s c = false ∧ storeRoom rest c = true
  let given := decide (c ∈ s.commits.live ∧ (∀ d ∈ s.commits.live, d.id = c.id → d = c))
  [given && decide (c.accepted = false ∧ fits),
   given && decide (c.accepted = true),
   given && decide (¬ fits),
   given && decide (c.accepted = true ∧ s.present b = true ∧ (c.addressed s.n).contains b = true ∧ b ∉ c.recv)]

theorem test_meets_CommitDeliveryAndSeal_CommitAcceptAndDelivery : covered
    [meetsCommitAcceptAndDelivery (live (commit13 64 true [] :: [older13 2040])) (commit13 64 true []) 1 true,
     meetsCommitAcceptAndDelivery (live (commit13 64 false [] :: [])) (commit13 64 false []) 1 true] = true := by
  decide +kernel

/-- The hypotheses of the clauses of CommitDeliveryAndSeal (SealAndJudgement). -/
def meetsSealAndJudgement (s : State) (dst src : Nat) (fl : Nat × Nat) : List Bool :=
  let got := if s.commits.got.contains (dst, src) then s.commits.got else s.commits.got ++ [(dst, src)]
  let given := decide (s.present dst = true ∧ s.present src = true ∧ dst ≠ src)
  [given,
   given && decide (s.commits.sealOf = none),
   given && decide (got.length ≠ s.n * (s.n - 1)),
   given && decide (s.commits.sealOf = some fl ∧ s.commits.judged = false ∧ got.length = s.n * (s.n - 1))]

theorem test_meets_CommitDeliveryAndSeal_SealAndJudgement : covered
    [meetsSealAndJudgement (sealing none false) 0 1 (0, 2),
     meetsSealAndJudgement (sealing (some (0, 2)) true) 0 1 (0, 2)] = true := by
  decide +kernel

/-- The hypotheses of the clauses of PackageBeam (PackageLineStart). -/
def meetsPackageLineStart (s : State) : List Bool :=
  [decide (s.beam.running = false),
   decide (s.beam.running = true ∧ s.now < lineEnd s ∧ s.pkgQueue = []),
   decide (s.beam.running = true ∧ lineEnd s ≤ s.now)]

theorem test_meets_PackageBeam_PackageLineStart : covered
    [meetsPackageLineStart { State.reset with beam := { State.reset.beam with running := true }, now := 0 },
     meetsPackageLineStart { State.reset with beam := { State.reset.beam with running := true }, now := 12500 },
     meetsPackageLineStart { State.reset with beam := { State.reset.beam with running := false }, now := 0 }] = true := by
  decide +kernel

/-- The hypotheses of the clauses of PackageBeam (PackageRegisterApplies). -/
def meetsPackageRegisterApplies (s : State) (v : Word) (at' i : Nat) (op : BitOp) (q : List PkgWrite) (w : PkgWrite) : List Bool :=
  let n := (v &&& 0xFFFF#32).toNat
  let imm := (s.reg 0).getLsbD 7
  let ref := fld (s.reg 0) 1 0
  [decide (s.pkgQueue = []),
   decide (s.pkgQueue = w :: q ∧ lineEnd s < w.due),
   decide (s.pkgQueue = w :: q ∧ s.now < w.due ∧ w.due ≤ lineEnd s),
   decide (at' ≤ s.now ∧ at' ≤ lineEnd s ∧ s.pkgQueue = ⟨4, v, at', none⟩ :: q ∧ ref = 0 ∧ imm = false),
   decide (at' ≤ s.now ∧ at' ≤ lineEnd s ∧ s.pkgQueue = ⟨8, v, at', none⟩ :: q ∧ ref = 0 ∧ imm = false),
   decide (at' ≤ s.now ∧ at' ≤ lineEnd s ∧ s.pkgQueue = ⟨4, v, at', none⟩ :: q ∧ ref = 0 ∧ imm = true ∧
      s.beam.jam = false ∧ s.now < lineEnd s ∧ 301 ≤ n),
   decide (at' ≤ s.now ∧ at' ≤ lineEnd s ∧ s.pkgQueue = ⟨0x10, v, at', none⟩ :: q),
   decide (at' ≤ s.now ∧ at' ≤ lineEnd s ∧ s.pkgQueue = ⟨0x10, v, at', some (i, op)⟩ :: q),
   decide (at' ≤ s.now ∧ at' ≤ lineEnd s ∧ s.pkgQueue = ⟨0, v, at', none⟩ :: q ∧ ref ≠ fld v 1 0),
   decide (at' ≤ s.now ∧ at' ≤ lineEnd s ∧ s.pkgQueue = ⟨0, v, at', none⟩ :: q ∧ s.genlock.conflict = true)]

theorem test_meets_PackageBeam_PackageRegisterApplies : covered
    [meetsPackageRegisterApplies (queued 2#32 ⟨0, 3#32, 1000, none⟩) 3#32 1000 3 .set [] ⟨0, 3#32, 1000, none⟩,
     meetsPackageRegisterApplies (queued 0#32 ⟨0, 3#32, 1001, none⟩) 3#32 1001 3 .set [] ⟨0, 3#32, 1001, none⟩,
     meetsPackageRegisterApplies (queued 0#32 ⟨0, 3#32, 12501, none⟩) 3#32 12501 3 .set [] ⟨0, 3#32, 12501, none⟩,
     meetsPackageRegisterApplies (queued 0#32 ⟨4, 3#32, 1000, none⟩) 3#32 1000 3 .set [] ⟨4, 3#32, 1000, none⟩,
     meetsPackageRegisterApplies (queued 0#32 ⟨8, 3#32, 1000, none⟩) 3#32 1000 3 .set [] ⟨8, 3#32, 1000, none⟩,
     meetsPackageRegisterApplies (queued 0#32 ⟨0x10, 3#32, 1000, none⟩) 3#32 1000 3 .set [] ⟨0x10, 3#32, 1000, none⟩,
     meetsPackageRegisterApplies (queued 0#32 ⟨0x10, 3#32, 1000, (some (3, BitOp.set))⟩) 3#32 1000 3 .set [] ⟨0x10, 3#32, 1000, (some (3, BitOp.set))⟩,
     meetsPackageRegisterApplies (queued 0x80#32 ⟨4, 301#32, 1000, none⟩) 301#32 1000 3 .set [] ⟨4, 301#32, 1000, none⟩,
     meetsPackageRegisterApplies State.reset 0#32 0 0 .set [] ⟨0, 0#32, 0, none⟩] = true := by
  decide +kernel

/-- The hypotheses of the clauses of ReferenceEvents. -/
def meetsReferenceEvents (s : State) (rising : Bool) (k t0 at' : Nat) : List Bool :=
  let g := s.genlock
  let ref := fld (s.reg 0) 1 0
  let locked := fld (s.reg 0x9381C) 2 0 = 3
  let i := at' - t0
  let fits := 1000 * ((i : Int) - g.first).natAbs ≤ g.first
  let reached := ptpPoint s k ≤ s.tick
  [decide (ref ≠ 1),
   decide (reached ∧ ref ≠ 2),
   decide (reached ∧ ¬ locked),
   decide (reached ∧ ptpPoint s (k + 1) ≤ s.tick),
   decide (g.st = .freeRun),
   decide (g.st = .acquiring ∧ g.lastEv = none),
   decide (g.st = .acquiring ∧ g.lastEv = some t0 ∧ g.seen = 0),
   decide (g.st = .acquiring ∧ g.lastEv = some t0 ∧ ¬ fits),
   decide (g.st = .acquiring ∧ g.lastEv = some t0 ∧ g.seen ≠ 0 ∧ g.seen ≠ 15 ∧ fits),
   decide (g.st = .holdover),
   decide (g.lastEv = none),
   decide (g.lastEv = some t0 ∧ s.now < t0 + 4 * predicted s),
   decide (g.lastEv = some t0 ∧ t0 + 4 * predicted s ≤ s.now ∧ g.st ≠ .freeRun ∧ g.st ≠ .holdover)]

theorem test_meets_ReferenceEvents : covered
    [meetsReferenceEvents (locking 1#32 .acquiring (some 0) 0 1002 0 1000000000) true 0 0 1000,
     meetsReferenceEvents (put State.reset [(0x9381C, 2#32)]) true 0 0 0,
     meetsReferenceEvents (locking 1#32 .acquiring (some 0) 1 1000 100 77) true 0 0 1000,
     meetsReferenceEvents (locking 1#32 .acquiring none 0 1000 0 77) true 0 0 1000,
     meetsReferenceEvents (locking 1#32 .holdover none 0 1000 0 77) true 0 0 1000] = true := by
  decide +kernel

/-- The hypotheses of the clauses of PortStartAndLines (PortStartAndStop). -/
def meetsPortStartAndStop (s : State) (b p : Nat) (v : Word) : List Bool :=
  let x := s.port b p
  let waits := x.armed = true ∧ x.running = false
  let comes := waits ∧ s.beam.line = 0 ∧ portStartAt s x ≤ s.now
  let given := decide (s.present b = true ∧ p < 4)
  [given,
   given && decide (x.synOn = false),
   given && decide (x.synOn = true),
   given && decide (x.synLock = false),
   given && decide (x.synLock = true ∧ x.running = false ∧ x.enabled = false),
   given && decide (x.synLock = true),
   given && decide (¬ waits),
   given && decide (comes)]

theorem test_meets_PortStartAndLines_PortStartAndStop : covered
    [meetsPortStartAndStop (port73 (fun x => { x with running := false, enabled := false, synOn := true, synLock := true, armed := true }) 0 1000) 7 3 0xFFFFFFFF#32,
     meetsPortStartAndStop (port73 (fun x => { x with running := true, enabled := true, synOn := false, synLock := false, armed := true }) 0 1000) 7 3 0xFFFFFFFF#32] = true := by
  decide +kernel

/-- The hypotheses of the clauses of PortStartAndLines (PortLineStart). -/
def meetsPortLineStart (s : State) (b p : Nat) : List Bool :=
  let x := s.port b p
  let given := decide (s.present b = true ∧ p < 4)
  [given && decide (x.running = true ∧ x.missed = none ∧ x.begun = true),
   given && decide (x.missed ≠ none ∧ portStartAt s x ≤ s.now),
   given && decide (x.begun = false ∧ portStartAt s x ≤ s.now)]

theorem test_meets_PortStartAndLines_PortLineStart : covered
    [meetsPortLineStart (port73 (fun x => { x with running := true, begun := false, missed := (some (5, 6)) }) 7 1000) 7 3,
     meetsPortLineStart (port73 (fun x => { x with running := true, begun := true, missed := none }) 7 1000) 7 3] = true := by
  decide +kernel

/-- The hypotheses of the clauses of PortFlagsAndMatches. -/
def meetsPortFlagsAndMatches (s : State) (b p k : Nat) : List Bool :=
  let x := s.port b p
  let c := x.cfg
  let m := s.reg (b * 0x100000 + 0x130 + 0x100 * p)
  let mk := s.reg (b * 0x100000 + 0x120 + 0x100 * p + 4 * k)
  let here := fun (d : Nat) => d < c.hTotal ∧ portDot s x = d ∧ dotAt s x d ≤ s.now
  let named := m.getLsbD k = true ∧ (m.getLsbD (4 + k) = true ∨ fld mk 31 16 = x.line) ∧ fld mk 15 0 < c.hTotal
  let given := decide (s.present b = true ∧ p < 4 ∧ k < 4)
  [given && decide (x.running = false),
   given && decide (x.running = true ∧ c.hAct ≠ 0 ∧ here c.hActStart),
   given && decide (x.running = true ∧ here (c.hActStart + c.hAct)),
   given && decide (x.running = true ∧ c.hsStart < c.hsEnd ∧ here c.hsStart),
   given && decide (x.running = true ∧ here c.hsEnd),
   given && decide (x.running = true ∧ c.vsEnd ≠ c.vsStart ∧ x.line = c.vsStart ∧ here c.hsStart),
   given && decide (x.running = true ∧ x.line = c.vsEnd ∧ here c.hsStart),
   given && decide ((x.running = true ∧ named ∧ here (fld mk 15 0))),
   given && decide (¬ (x.running = true ∧ named)),
   given && decide (dotAt s x (fld mk 15 0) ≤ s.now ∧ portDot s x ≠ fld mk 15 0)]

theorem test_meets_PortFlagsAndMatches : covered
    [meetsPortFlagsAndMatches (put (port73 (fun x => { x with running := true }) 3 7813) [(0x700430, 8#32)]) 7 3 3,
     meetsPortFlagsAndMatches (put (port73 (fun x => { x with running := true }) 3 0) [(0x700430, 0x88#32)]) 7 3 3,
     meetsPortFlagsAndMatches (put (port73 (fun x => { x with running := true }) 3 6250) [(0x700430, 0x88#32)]) 7 3 3,
     meetsPortFlagsAndMatches (put (port73 (fun x => { x with running := true }) 3 9375) [(0x700430, 0x88#32)]) 7 3 3,
     meetsPortFlagsAndMatches (put (port73 (fun x => { x with running := true }) 4 7813) [(0x700430, 0x88#32)]) 7 3 3,
     meetsPortFlagsAndMatches (put (port73 (fun x => { x with running := false }) 3 0) [(0x700430, 0x88#32)]) 7 3 3] = true := by
  decide +kernel

/-- The hypotheses of the clauses of LinesFetchesAndWriteback (LineEvaluationAndFetches). -/
def meetsLineEvaluationAndFetches (s : State) (b i : Nat) (err : EccErr) (u : FetchUnit) : List Bool :=
  let out := (s.fetchList b).filter (fun u => u.data = none && (u.hold || isHearthUnit u.unit))
  let given := decide (s.present b = true)
  [given && decide (s.beam.running = false),
   given && decide (s.beam.lineAt + 124 ≤ s.now),
   given && decide (s.beam.running = true ∧ s.beam.lineAt + 120 ≤ s.now ∧ s.now < s.beam.lineAt + 124),
   given && decide (out.length ≤ i),
   given && decide (out[i]? = some u),
   given]

theorem test_meets_LinesFetchesAndWriteback_LineEvaluationAndFetches : covered
    [meetsLineEvaluationAndFetches { State.reset with beam := { State.reset.beam with running := false }, fetches := [(7, [])], now := 124 } 7 0 .none (unit0 none),
     meetsLineEvaluationAndFetches { State.reset with beam := { State.reset.beam with running := true }, fetches := [(7, [unit0 none])], now := 120 } 7 0 .none (unit0 none)] = true := by
  decide +kernel

/-- The hypotheses of the clauses of LinesFetchesAndWriteback (WritebackFrameDone). -/
def meetsWritebackFrameDone (s : State) (b p : Nat) (w : WbOld) : List Bool :=
  let o := s.out b p
  let done := o.wbOn = true ∧ o.wbDone = false ∧ s.beam.vact ≤ o.wbRows ∧ o.wbQ = []
  let given := decide (s.present b = true ∧ p < 4)
  [given && decide (o.wbOld = some w ∧ w.q ≠ []),
   given && decide (o.wbOld = some w ∧ w.q = [] ∧ w.ctrl.getLsbD 1 = false),
   given && decide (o.wbOld = some w ∧ w.q = [] ∧ w.ctrl.getLsbD 1 = true),
   given && decide (o.wbOld = none ∧ ¬ done),
   given && decide (o.wbOld = none ∧ done ∧ o.wbCtrl.getLsbD 1 = false),
   given && decide (o.wbOld = none ∧ done ∧ o.wbCtrl.getLsbD 1 = true)]

theorem test_meets_LinesFetchesAndWriteback_WritebackFrameDone : covered
    [meetsWritebackFrameDone (writeback 0#32 3 none) 7 3 ((none).getD ⟨0#32, 0, 0, false, []⟩),
     meetsWritebackFrameDone (writeback 0#32 3 (some (WbOld.mk 0#32 2 5 false []))) 7 3 (((some (WbOld.mk 0#32 2 5 false []))).getD ⟨0#32, 0, 0, false, []⟩),
     meetsWritebackFrameDone (writeback 0#32 3 (some (WbOld.mk 2#32 2 5 false []))) 7 3 (((some (WbOld.mk 2#32 2 5 false []))).getD ⟨0#32, 0, 0, false, []⟩),
     meetsWritebackFrameDone (writeback 0#32 3 (some (WbOld.mk 2#32 2 5 false [⟨1, 2, []⟩]))) 7 3 (((some (WbOld.mk 2#32 2 5 false [⟨1, 2, []⟩]))).getD ⟨0#32, 0, 0, false, []⟩),
     meetsWritebackFrameDone (writeback 0#32 4 none) 7 3 ((none).getD ⟨0#32, 0, 0, false, []⟩),
     meetsWritebackFrameDone (writeback 2#32 4 none) 7 3 ((none).getD ⟨0#32, 0, 0, false, []⟩)] = true := by
  decide +kernel

/-- The hypotheses of the clauses of CompositionOfGroups. -/
def meetsCompositionOfGroups (s : State) (b p g : Nat) (ins ins2 : List (Nat × Option PixelIn)) (q : Group) : List Bool :=
  let o := s.out b p
  let x := s.port b p
  let v := portView s b p
  let left := ∃ r : Nat, r < 4 ∧ r ≠ p ∧ (portView s b r).spanX r < v.spanX p ∧
      composable s b r (s.out b r).nextG = true
  let can := composable s b p g = true ∧ ¬ left
  let late := if leadBroken s b p g then groupUnits s b p ins else groupMissing ins
  let dead := beyondLine s v p g = false ∧ (leadBroken s b p g = true ∨ groupMissing ins ≠ [])
  let time := pixelAt s b p (4 * g) - 24 ≤ s.now
  let sends := x.running = true ∧ v.spanW p ≠ 0 ∧ 4 * g < x.cfg.hAct ∧ o.sentG = g
  let given := decide (s.present b = true ∧ p < 4)
  [given && decide (¬ can),
   given && decide (can ∧ groupIn s b p g = some ins),
   given && decide (time ∧ groupIn s b p g = none),
   given && decide (time ∧ o.nextG ≠ g),
   given && decide (time ∧ x.cfg.hAct ≤ 4 * g),
   given && decide (time ∧ groupIn s b p g = some ins ∧ o.nextG = g ∧ 4 * g < x.cfg.hAct ∧ dead ∧
      groupIn (markLate s b (x.frame, x.line) late.eraseDups) b p g = some ins2),
   given && decide (time ∧ groupIn s b p g = some ins ∧ o.nextG = g ∧ 4 * g < x.cfg.hAct ∧ ¬ dead),
   given && decide (x.running = false),
   given && decide (v.spanW p = 0),
   given && decide (x.cfg.hAct ≤ 4 * g),
   given && decide ((o.sentG ≠ g ∧ (o.sentG ≠ g + 1 ∨ o.due = []))),
   given && decide (sends ∧ pixelAt s b p (4 * g) ≤ s.now ∧ o.nextG ≠ g ∧ o.groups.find? (fun r => r.g = g) = some q)]

theorem test_meets_CompositionOfGroups : covered
    [meetsCompositionOfGroups (composing 0#32 false 2 true true 3125) 0 0 3 [] [] ⟨0, [⟨1, 2, 3, false, false⟩]⟩,
     meetsCompositionOfGroups (composing 0#32 true 0 true true 3125) 0 0 0 ((groupIn (composing 0#32 true 0 false false 20) 0 0 0).getD []) [] ⟨0, [⟨1, 2, 3, false, false⟩]⟩,
     meetsCompositionOfGroups (composing 0#32 true 1 true true 3125) 0 0 0 [] [] ⟨0, [⟨1, 2, 3, false, false⟩]⟩,
     meetsCompositionOfGroups (composing 3#32 true 0 true true 3125) 0 0 0 ((groupIn (composing 3#32 true 0 true false 20) 0 0 0).getD []) ((groupIn (markLate (composing 3#32 true 0 false false 20) 0 (0, 4) (groupMissing ((groupIn (composing 3#32 true 0 false false 20) 0 0 0).getD [])).eraseDups) 0 0 0).getD []) ⟨0, [⟨1, 2, 3, false, false⟩]⟩] = true := by
  decide +kernel

/-- The hypotheses of the clauses of LiveStrikesAndReflexes. -/
def meetsLiveStrikesAndReflexes (s : State) (who : Who) (b p i k : Nat) (w : LiveWrite) (v : Word) : List Bool :=
  let q := s.liveQueue b
  let waiting := q.filter (fun w => w.edge = none)
  let c := s.cursor b p
  let own := c.clash = false ∧ (c.user = none ∨ c.user = some who)
  let given := decide (s.present b = true ∧ p < 4 ∧ k < 16)
  [given && decide (waiting.length ≤ i),
   given && decide (waiting[i]? = some w),
   given,
   given && decide (own),
   given && decide (¬ own)]

theorem test_meets_LiveStrikesAndReflexes : covered
    [meetsLiveStrikesAndReflexes (liveWrites [] none) .host 7 3 0 15 ⟨3, 0x30800, 5#32, none, none⟩ 9#32,
     meetsLiveStrikesAndReflexes (liveWrites [(⟨3, 0x30800, 5#32, none, none⟩ : LiveWrite)] (some (Who.unit 0))) .host 7 3 0 15 ⟨3, 0x30800, 5#32, none, none⟩ 9#32] = true := by
  decide +kernel

/-- The hypotheses of the clauses of MemoryTrainingAndData (MemoryTraining). -/
def meetsMemoryTraining (s : State) (b trained : Nat) (cap : Option Bool) : List Bool :=
  let x := s.mem b
  let all := trained % 16 = 15 ∧ cap ≠ none
  let given := decide (s.present b = true)
  [given,
   given && decide (x.training = false),
   given && decide (x.training = true ∧ all),
   given && decide (x.training = true ∧ ¬ all),
   given && decide (x.filling = false),
   given && decide (x.filling = true),
   given && decide (x.retrain = false),
   given && decide (x.retrain = true)]

theorem test_meets_MemoryTrainingAndData_MemoryTraining : covered
    [meetsMemoryTraining (memory7 0xF#32 0#32 true true true 0) 7 15 (some true),
     meetsMemoryTraining (memory7 0xF#32 0#32 true false false 0) 7 7 (some true),
     meetsMemoryTraining (memory7 0xF#32 0#32 false true true 0) 7 15 (some true)] = true := by
  decide +kernel

/-- The hypotheses of the clauses of MemoryTrainingAndData (MemoryReadsWhatWasWritten). -/
def meetsMemoryReadsWhatWasWritten (s : State) (b req addr : Nat) (data : List Byte) (edc : Bool) : List Bool :=
  let room := writeRoom s b req addr = true ∧ data.length ≤ 64 - addr % 64
  let given := decide (s.present b = true ∧ (req = 0 ∨ 4 < req))
  [given && decide (room),
   given && decide (¬ room ∧ edc = false),
   given && decide (¬ room ∧ edc = true)]

theorem test_meets_MemoryTrainingAndData_MemoryReadsWhatWasWritten : covered
    [meetsMemoryReadsWhatWasWritten (memory7 0xF#32 0#32 false false false 63) 7 5 63 [0x55#8] true,
     meetsMemoryReadsWhatWasWritten (memory7 0xF#32 0#32 false false false 63) 7 0 63 [0x55#8] true,
     meetsMemoryReadsWhatWasWritten (memory7 0xF#32 0#32 false false false 63) 7 0 63 [0x55#8] false] = true := by
  decide +kernel

/-- The hypotheses of the clauses of MemoryArbitration. -/
def meetsMemoryArbitration (s : State) (b ch addr req : Nat) (v : Word) (r : MemRead) : List Bool :=
  let x := s.mem b
  let c := x.chans.getD ch .init
  let a := b * 0x100000 + 0x70800
  let m := b * 0x100000 + 0x70000
  let off := s.memEnd b = 0 ∨ x.retrain = true ∨ x.training = true
  let ecc := (s.reg (m + 4)).getLsbD 4
  let read := x.reads.find? (fun r =>
    r.req = req && r.unit = addr / 64 && (r.st = 2 || (r.st = 1 && !isFrozen s b req)))
  let given := decide (s.present b = true ∧ ch < 4 ∧ 0 < req ∧ req < 12)
  [given && decide (off),
   given && decide (¬ off ∧ x.chans.length = 4 ∧ (c.slots + 1) % 32 = 0),
   given && decide (¬ off ∧ x.chans.length = 4 ∧ (c.slots + 1) % 32 ≠ 0),
   given,
   given && decide (fld (s.reg (a + 4)) 11 1 ≠ 0 ∧ frozenIdle s b = true),
   given && decide (fld (s.reg (a + 4)) 11 1 = 0),
   given && decide (frozenIdle s b = false),
   given && decide (read = none ∧ isFrozen s b req = true),
   given && decide (read = none ∧ isFrozen s b req = false),
   given && decide (read = none ∧ isFrozen s b req = false ∧ ecc = false),
   given && decide (read = none ∧ isFrozen s b req = false ∧ ecc = true),
   given && decide (read = some r ∧ r.st = 2 ∧ isHearthUnit r.unit = false),
   given && decide (read = some r ∧ r.st = 2 ∧ isHearthUnit r.unit = false ∧ ecc = true)]

theorem test_meets_MemoryArbitration : covered
    [meetsMemoryArbitration (slotted (memory7 0xF#32 0#32 false false true 0) 31) 7 3 0x7FFFFFF0 11 0xFFFFFFFF#32 read700,
     meetsMemoryArbitration (slotted (memory7 0xF#32 0x800#32 false false false 0) 31) 7 3 0x7FFFFFF0 11 0xFFFFFFFF#32 read700,
     meetsMemoryArbitration (reading (memory7 0x1F#32 0#32 false false false 0)) 7 0 0x700 5 0#32 read700,
     meetsMemoryArbitration (slotted (memory7 0x1F#32 0#32 false false true 0) 31) 7 3 0x7FFFFFF0 11 0xFFFFFFFF#32 read700,
     meetsMemoryArbitration (memory7 0xF#32 0x20#32 false false false 1) 7 0 0 5 0#32 read700] = true := by
  decide +kernel

/-- The hypotheses of the clauses of FluxTransactions. -/
def meetsFluxTransactions (s : State) (b dst addr margin o : Nat) (v : Word) (rw : Option Word) (late pz : Bool) : List Bool :=
  let f := b * 0x100000 + 0x80000
  let n := fld (s.reg f) 8 0
  let given := decide (s.present b = true ∧ s.present dst = true ∧ b ≠ dst ∧ stepsAsked s = [])
  [given && decide (256 ≤ n),
   given && decide (n < 256 ∧ margin < 256),
   given && decide (n < 256 ∧ 256 ≤ margin ∧ o < hearthSize ∧ o % 4 = 0),
   given && decide (n < 256),
   given && decide (n = 0),
   given && decide (0 < n)]

theorem test_meets_FluxTransactions : covered
    [meetsFluxTransactions (put State.reset [(0x180000, 0#32)]) 1 7 0x100000 255 0x1FFFFC 0x12345678#32 none true true,
     meetsFluxTransactions (put State.reset [(0x180000, 255#32)]) 1 7 0x100000 256 0x1FFFFC 0x12345678#32 none true true,
     meetsFluxTransactions (put State.reset [(0x180000, 256#32)]) 1 7 0x100000 255 0x1FFFFC 0x12345678#32 none true true] = true := by
  decide +kernel

/-- The hypotheses of the clauses of SwageOperations. -/
def meetsSwageOperations (s : State) (b u k : Nat) (c : Instr) : List Bool :=
  let x := swageAsked s b u k
  let n := pixBytes x.fmt
  let d := x.dstAddr x.dx x.dy
  let a := x.srcAddr x.sx x.sy
  let illegal := k = 7 ∨ (k = 3 ∧ x.fmt = 0)
  let waits := (x.w 0x30).getLsbD 31 = true ∧ waitDone s b x = false
  let given := decide (s.present b = true ∧ u < 2 ∧ s.temper.state ≠ 2 ∧
      (c, k) ∈ [(.swageCopy b u, 0), (.swageFill b u, 1), (.swageKeycopy b u, 2), (.swageAlpha b u, 3), (.swageLine b u, 4), (.swageRect b u, 5), (.swagePatrop b u, 6), (.swageIllegalOp b u, 7)])
  [given && decide ((s.swage b u).busy = true),
   given && decide ((s.swage b u).busy = false ∧ illegal),
   given && decide ((s.swage b u).busy = false ∧ ¬ illegal ∧ waits),
   given && decide ((s.swage b u).busy = false ∧ ¬ illegal ∧ ¬ waits ∧ x.w 0x18 = 0#32 ∧
      (k = 4 → x.w 0x14 = x.w 0x10) ∧ isFrozen s b (10 + u) = false ∧ s.temper.steps < 4 ∧
      (x.w 0x64).getLsbD 31 = false ∧ x.hiddenOverlap = false ∧ (s.mem b).soft = [] ∧ (s.mem b).hard = [] ∧
      d + n ≤ s.memEnd b ∧ (x.readsSrc = true → a + n ≤ s.memEnd b))]

theorem test_meets_SwageOperations : covered
    [meetsSwageOperations (swage11 rectWords true false false false [] 0 0) 1 1 0 (.swageCopy 1 1),
     meetsSwageOperations (swage11 rectWords false false false false [] 0 0) 1 1 0 (.swageCopy 1 1),
     meetsSwageOperations (swage11 rectWords false false false false [] 0 0) 1 1 7 (.swageIllegalOp 1 1),
     meetsSwageOperations (swage11 ((0x30, 0x83000006#32) :: rectWords) false false false false [] 0 0) 1 1 0 (.swageCopy 1 1)] = true := by
  decide +kernel

/-- The hypotheses of the clauses of SwageOperations (SwageEnds). -/
def meetsSwageEnds (s : State) (b u : Nat) : List Bool :=
  let x := s.swage b u
  let wmk := fld (x.w 0x34) 16 0
  let passed := wmk ≠ 0 ∧ wmk ≤ x.rows
  let work := x.busy = true ∧ x.waiting = false
  let due := linePassed s (x.deadFrame, x.deadLine)
  let given := decide (s.present b = true ∧ u < 2)
  [given && decide (x.busy = true ∧ x.waiting = true),
   given && decide (x.busy = true ∧ x.held = true),
   given && decide (x.busy = true ∧ x.todo = []),
   given && decide (x.busy = true),
   given && decide (x.busy = false),
   given && decide (x.waiting = true ∧ due = true),
   given && decide (x.waiting = false),
   given && decide (due = false),
   given && decide (work ∧ x.todo = []),
   given && decide (¬ work),
   given && decide (work ∧ passed ∧ x.wmk = false),
   given && decide (wmk = 0),
   given && decide (x.wmk = true),
   given && decide (waitDone s b x = false),
   given && decide (x.waiting = true ∧ waitDone s b x = true)]

theorem test_meets_SwageOperations_SwageEnds : covered
    [meetsSwageEnds (swage11 rectWords true true true true [] 3 3) 1 1,
     meetsSwageEnds (swage11 rectWords true false false true [] 4 9) 1 1,
     meetsSwageEnds (swage11 ((0x7F6C, 1#32) :: rectWords) false true true true [] 3 3) 1 1,
     meetsSwageEnds (put State.reset []) 1 1] = true := by
  decide +kernel

/-- The hypotheses of the clauses of SwageFillsItsRectangle. -/
def meetsSwageFillsItsRectangle (s : State) (b u : Nat) : List Bool :=
  let x := swageAsked s b u 1
  let n := pixBytes x.fmt
  let given := decide (s.present b = true ∧ u < 2 ∧ s.temper.state ≠ 2 ∧ (s.swage b u).busy = false ∧
      (x.w 0x30).getLsbD 31 = false ∧ isFrozen s b (10 + u) = false ∧ s.temper.steps < 4 ∧
      (x.w 0x64).getLsbD 31 = false ∧ (s.mem b).soft = [] ∧ (s.mem b).hard = [])
  [given && decide ((∀ px : Nat, px < x.dx + x.wd → x.dx ≤ px → ∀ py : Nat, py < x.dy + x.ht → x.dy ≤ py → x.dstAddr px py + n ≤ s.memEnd b))]

theorem test_meets_SwageFillsItsRectangle : covered
    [meetsSwageFillsItsRectangle (swage11 rectWords false false false false [] 0 0) 1 1] = true := by
  decide +kernel

/-- The hypotheses of the clauses of TongsChannels (TongsControl). -/
def meetsTongsControl (s : State) (b c : Nat) : List Bool :=
  let x := s.tong b c
  let r := b * 0x100000 + 0x68000 + 0x20 * c
  let on := (s.reg r).getLsbD 0 = true ∧ s.temper.state ≠ 2
  let soft := tngType s b c = 0
  let given := decide (s.present b = true ∧ c < 32)
  [given && decide (¬ on),
   given && decide (on ∧ x.st = 3),
   given && decide (on ∧ x.st = 1 ∧ ¬ soft),
   given && decide (on ∧ x.st = 2 ∧ ¬ soft),
   given && decide (on ∧ x.st = 2 ∧ soft),
   given && decide (on ∧ x.st = 1 ∧ soft),
   given && decide (on ∧ x.st = 0 ∧ soft),
   given && decide (on ∧ 4 ≤ x.st ∧ soft),
   given && decide (on ∧ x.st = 0 ∧ ¬ soft),
   given && decide (on ∧ 4 ≤ x.st ∧ ¬ soft),
   given && decide (x.trig = 0),
   given && decide (0 < x.trig ∧ x.st = 1 ∧ x.loaded = true),
   given && decide (0 < x.trig ∧ x.st = 2),
   given && decide (0 < x.trig ∧ x.st = 3),
   given && decide (0 < x.trig ∧ x.st = 0),
   given && decide (0 < x.trig ∧ 4 ≤ x.st),
   given && decide (x.st = 2),
   given && decide (x.st ≠ 2),
   given,
   given && decide (x.st = 1 ∧ x.deadline.any (linePassed s) = true),
   given && decide (x.st = 2 ∧ x.deadline.any (linePassed s) = true),
   given && decide ((x.st ≠ 1 ∧ x.st ≠ 2)),
   given && decide (x.deadline.any (linePassed s) = false)]

theorem test_meets_TongsChannels_TongsControl : covered
    [meetsTongsControl (tongs 0#32 0#32 0 true none 0 []) 1 31,
     meetsTongsControl (tongs 1#32 0#32 2 true (some (0, 0)) 1 []) 1 31,
     meetsTongsControl (tongs 1#32 0#32 1 true (some (0, 0)) 1 []) 1 31,
     meetsTongsControl (tongs 1#32 0#32 0 true none 1 []) 1 31,
     meetsTongsControl (tongs 1#32 0#32 3 true none 1 []) 1 31,
     meetsTongsControl (tongs 1#32 0#32 4 true none 1 []) 1 31,
     meetsTongsControl (tongs 1#32 0x100#32 0 true none 0 []) 1 31,
     meetsTongsControl (tongs 1#32 0x100#32 1 true none 0 []) 1 31,
     meetsTongsControl (tongs 1#32 0x100#32 2 true none 0 []) 1 31,
     meetsTongsControl (tongs 1#32 0x100#32 4 true none 0 []) 1 31] = true := by
  decide +kernel

/-- The hypotheses of the clauses of TongsChannels (TongsBurstCopies). -/
def meetsTongsBurstCopies (s : State) (b c : Nat) : List Bool :=
  let x := s.tong b c
  let n := burstWords x
  let src := sideBillet (x.w 1) * 2 ^ 32 + x.srcAt x.row x.word
  let dst := sideBillet (x.w 3) * 2 ^ 32 + x.dstAt x.row x.word
  let k := sideBillet (x.w 1)
  let whole := fun (k : Nat) => (s.mem k).soft = [] ∧ (s.mem k).hard = []
  let given := decide (s.present b = true ∧ c < 32 ∧ stepsAsked s = [])
  [given && decide (x.st ≠ 2),
   given && decide (x.loaded = false),
   given && decide (sideFrozen s b (x.w 1) = true),
   given && decide (sideFrozen s b (x.w 3) = true),
   given && decide (x.st = 2 ∧ x.loaded = true ∧ sideSpace (x.w 1) = 0 ∧ sideSpace (x.w 3) = 0 ∧
      sideFix (x.w 1) = false ∧ sideFix (x.w 3) = false ∧ sideFrozen s b (x.w 1) = false ∧
      sideFrozen s b (x.w 3) = false ∧ x.srcAt x.row x.word + 4 * n ≤ s.memEnd (sideBillet (x.w 1)) ∧
      x.dstAt x.row x.word + 4 * n ≤ s.memEnd (sideBillet (x.w 3)) ∧ x.word + n < x.len ∧ src + 4 * n ≤ dst ∧
      (s.mem k).reads = [] ∧ tagFree (resvTags s k) (anvTags s k) 0 false = true ∧ whole k ∧
      whole (sideBillet (x.w 3)) ∧ fluxInUse s b + farSides b x ≤ 256),
   given && decide (x.st = 2 ∧ x.loaded = true ∧ sideSpace (x.w 1) = 0 ∧ sideSpace (x.w 3) = 0 ∧
      sideFix (x.w 1) = false ∧ sideFix (x.w 3) = false ∧ sideFrozen s b (x.w 1) = false ∧
      sideFrozen s b (x.w 3) = false ∧ x.srcAt x.row x.word + 4 * n ≤ s.memEnd (sideBillet (x.w 1)) ∧
      x.dstAt x.row x.word + 4 * n ≤ s.memEnd (sideBillet (x.w 3)) ∧ x.word + n < x.len ∧ dst + 4 * n ≤ src ∧
      (s.mem k).reads = [] ∧ tagFree (resvTags s k) (anvTags s k) 0 false = true ∧ whole k ∧
      whole (sideBillet (x.w 3)) ∧ fluxInUse s b + farSides b x ≤ 256)]

theorem test_meets_TongsChannels_TongsBurstCopies : covered
    [meetsTongsBurstCopies (put (tongs 1#32 0#32 1 false none 0 (copyDesc 0x1000#32 0x2000#32)) [(0x170804, 0x100#32)]) 1 31,
     meetsTongsBurstCopies (put (tongs 1#32 0#32 2 true none 0 (copyDesc 0x1000#32 0x2000#32)) [(0x170804, 0#32)]) 1 31,
     meetsTongsBurstCopies (put (tongs 1#32 0#32 2 true none 0 (copyDesc 0x2000#32 0x1000#32)) [(0x170804, 0#32)]) 1 31] = true := by
  decide +kernel

/-- The hypotheses of the clauses of TuyereFramesAndInputs (TuyereFrames). -/
def meetsTuyereFrames (s : State) : List Bool :=
  let y := s.tuy
  let now := (3 * s.tick + 2) / 31250
  let len := tuyLen s
  let due := tuyStart (tuyNext s) ≤ s.tick
  let passed := y.fresh = false ∧ tuyNext s < now
  let ended := y.frameAt + 160 + len ≤ s.now
  [decide (y.running = false),
   decide (y.running = true ∧ passed ∧ ¬ ended ∧ y.frameAt + 160 + len < lineEnd s ∧ s.pkgQueue = [] ∧
      tuyNext s < tuyIndex (passTo (y.frameAt + 160 + len) s).tick),
   decide (y.running = true ∧ due ∧ ¬ passed),
   decide (y.running = true ∧ due ∧ ended),
   decide (y.running = true ∧ y.staged = false),
   decide (y.staged = true),
   decide (y.running = true),
   decide (y.clearing = true ∧ s.now < y.clearAt + 262144),
   decide (y.clearing = false),
   decide (y.clearAt + 262144 ≤ s.now)]

theorem test_meets_TuyereFramesAndInputs_TuyereFrames : covered
    [meetsTuyereFrames (tuyereAt true false true 10416 262144),
     meetsTuyereFrames (tuyereAt true true false 31250 100),
     meetsTuyereFrames (tuyereAt false true true 10416 100)] = true := by
  decide +kernel

/-- The hypotheses of the clauses of TuyereFramesAndInputs (TuyereInputs). -/
def meetsTuyereInputs (s : State) (v u k n : Nat) (slots : List Word) : List Bool :=
  let y := s.tuy
  let x := s.conv k
  let ctrl := tuyEff s (0x200 + 0x20 * n)
  let settles := y.running = true ∧ 6240 ≤ x.age.getD 0 ∧ x.settled = false ∧ x.lost = false ∧ x.rateErr = false
  let loses := y.running = true ∧ x.age ≠ none ∧ inputGone s k = true
  let given := decide (v < 512 ∧ u < 2 ^ 26 ∧ k < 32 ∧ n < 8)
  [given && decide (isFrozen s 0 5 = true),
   given && decide (isFrozen s 0 5 = false ∧ (s.mem 0).soft = [] ∧ (s.mem 0).hard = []),
   given && decide (settles),
   given && decide (¬ settles),
   given && decide (loses),
   given && decide (¬ loses),
   given && decide (y.running = false),
   given && decide (ctrl.getLsbD 0 = false),
   given && decide (y.running = true ∧ ctrl.getLsbD 0 = true)]

theorem test_meets_TuyereFramesAndInputs_TuyereInputs : covered
    [meetsTuyereInputs (converter false true none 0#32 0 0#32) 511 (2 ^ 26 - 1) 7 7 [9#32],
     meetsTuyereInputs (converter true false (some 6240) 1#32 0x200000000 0x20#32) 511 (2 ^ 26 - 1) 7 7 [9#32]] = true := by
  decide +kernel

/-- The hypotheses of the clauses of TuyereCommands. -/
def meetsTuyereCommands (s : State) (v bus : Nat) (w : Word) (u : Word) : List Bool :=
  let y := s.tuy
  let pacc := s.reg 0x808028
  let word := fld pacc 14 0
  let place := (if pacc.getLsbD 16 then 24576 else 0) + word
  let slot := fld w 13 0
  let others := y.ramps.filter (fun r => r.slot ≠ slot)
  let given := decide (v < 512 ∧ bus < 64)
  [given && decide (y.cmds.length < 1024),
   given && decide (1024 ≤ y.cmds.length),
   given,
   given && decide (word < 24576 ∧ word % 2 = 1),
   given && decide (word < 24576 ∧ word % 2 = 0 ∧ y.progLatch = none),
   given && decide (word < 24576 ∧ word % 2 = 0 ∧ y.progLatch = some (place + 1, u)),
   given && decide (y.running = true),
   given && decide (y.running = false),
   given && decide (12288 ≤ slot),
   given && decide (slot < 12288 ∧ others.length < 64),
   given && decide (slot < 12288 ∧ 64 ≤ others.length)]

theorem test_meets_TuyereCommands : covered
    [meetsTuyereCommands (put (tuyere true 1023 63 none) [(0x808028, 0x15FFF#32)]) 511 63 12287#32 9#32,
     meetsTuyereCommands (put (tuyere false 1024 63 none) [(0x808028, 0x15FFE#32)]) 511 63 12288#32 9#32,
     meetsTuyereCommands (put (tuyere true 1023 64 (some (24576 + 24575, 9#32))) [(0x808028, 0x15FFE#32)]) 511 63 12287#32 9#32] = true := by
  decide +kernel

/-- The hypotheses of the clauses of LanesAndFrames (LaneModeAndLink). -/
def meetsLaneModeAndLink (s : State) (b l : Nat) (v : Word) (up : Bool) : List Bool :=
  let a := b * 0x100000 + 0x90000 + 0x40 * l
  let changed := fld v 6 0 ≠ fld (s.reg a) 6 0
  let foreign := fld v 3 1 = 6 ∧ ¬ (b < 2 ∧ 2 ≤ l)
  let off := v.getLsbD 0 = false ∨ fld v 3 1 = 0 ∨ fld v 3 1 = 7 ∨ foreign
  let given := decide (s.present b = true ∧ l < 4)
  [given && decide (¬ changed),
   given && decide (changed ∧ off),
   given && decide (changed ∧ ¬ off),
   given && decide (laneMode s b l = 0),
   given && decide (laneMode s b l ≠ 0)]

theorem test_meets_LanesAndFrames_LaneModeAndLink : covered
    [meetsLaneModeAndLink (lane13 1#32 0xF#32 [] 0#32) 1 3 0#32 true,
     meetsLaneModeAndLink (lane13 3#32 0xF#32 [] 0#32) 1 3 3#32 true,
     meetsLaneModeAndLink (lane13 1#32 0xF#32 [] 0#32) 1 3 3#32 true] = true := by
  decide +kernel

/-- The hypotheses of the clauses of LanesAndFrames (LaneFrames). -/
def meetsLaneFrames (s : State) (b l : Nat) (p q : List TxFrame) (f : TxFrame) (d : List Byte) : List Bool :=
  let a := b * 0x100000 + 0x90000 + 0x40 * l
  let x := s.lane b l
  let up := etherUp s b l = true
  let good := 64 ≤ d.length ∧ d.length ≤ 9022 ∧ leNat (d.drop (d.length - 4)) = crc32 (d.take (d.length - 4))
  let body := d.take (d.length - 4)
  let dst := be body 0 6
  let foreign := dst ≠ laneMac s b l ∧ dst / 2 ^ 40 % 2 = 0
  let ring := b * 0x100000 + 0x93000
  let size := 2 ^ min 9 (fld (s.reg ring) 3 0)
  let head := fld (s.reg (ring + 4)) 24 16
  let given := decide (s.present b = true ∧ l < 4)
  [given && decide (x.queue = []),
   given && decide (x.idleAt ≤ s.now ∧ (x.queue = p ++ f :: q ∧ f.cls < 4 ∧ (∀ g ∈ p, f.cls < g.cls) ∧
      ∀ g ∈ q, f.cls ≤ g.cls) ∧ up),
   given && decide (x.idleAt ≤ s.now ∧ (x.queue = p ++ f :: q ∧ f.cls < 4 ∧ (∀ g ∈ p, f.cls < g.cls) ∧
      ∀ g ∈ q, f.cls ≤ g.cls) ∧ ¬ up ∧ f.stat ≠ a + 4 ∧ f.stat ≠ a + 0x24),
   given && decide (¬ up),
   given && decide (up ∧ ¬ good),
   given && decide (up ∧ good ∧ foreign),
   given && decide (up ∧ good ∧ be body 12 2 = 0x8808),
   given && decide (up ∧ good ∧ ¬ foreign ∧ be body 12 2 = 0x0806 ∧ (s.reg (ring + 0x10)).getLsbD 0 = false),
   given && decide (up ∧ good ∧ ¬ foreign ∧ be body 12 2 = 0x0806 ∧ (s.reg (ring + 0x10)).getLsbD 0 = true ∧
      (head + 1) % size ≠ fld (s.reg (ring + 4)) 8 0 % size ∧ body.length ≤ 2032)]

theorem test_meets_LanesAndFrames_LaneFrames : covered
    [meetsLaneFrames (lane13 3#32 0xF#32 ([] : List TxFrame) 0#32) 1 3 [⟨3, [1#8], 0⟩] [] ⟨2, [5#8], 0⟩ [5#8],
     meetsLaneFrames (lane13 3#32 0xF#32 [⟨3, [1#8], 0⟩, ⟨2, [5#8], 0⟩] 0#32) 1 3 [⟨3, [1#8], 0⟩] [] ⟨2, [5#8], 0⟩ (frame 0xAB12345678 0x806 46),
     meetsLaneFrames (lane13 3#32 0#32 [⟨3, [1#8], 0⟩, ⟨2, [5#8], 0⟩] 0#32) 1 3 [⟨3, [1#8], 0⟩] [] ⟨2, [5#8], 0⟩ [5#8],
     meetsLaneFrames (lane13 3#32 0xF#32 ([] : List TxFrame) 0#32) 1 3 [⟨3, [1#8], 0⟩] [] ⟨2, [5#8], 0⟩ (frame 0xAB12345679 0x806 46),
     meetsLaneFrames (lane13 3#32 0xF#32 ([] : List TxFrame) 0#32) 1 3 [⟨3, [1#8], 0⟩] [] ⟨2, [5#8], 0⟩ (frame 0xFFFFFFFFFFFF 0x8808 46),
     meetsLaneFrames (lane13 3#32 0xF#32 ([] : List TxFrame) 1#32) 1 3 [⟨3, [1#8], 0⟩] [] ⟨2, [5#8], 0⟩ (frame 0xAB12345678 0x806 46)] = true := by
  decide +kernel

/-- The hypotheses of the clauses of LaneSenders. -/
def meetsLaneSenders (s : State) (b i j g : Nat) (fr : RxFrame) (done : List RxFrame) (slot : Nat) (e : HeldPacket) (k : Nat) (w : List Byte) : List Bool :=
  let x := s.flow b j
  let r := s.raster b i
  let aud := 0x92400 + 0x40 * g
  let ring := b * 0x100000 + 0x93008
  let size := 2 ^ min 9 (fld (s.reg ring) 3 0)
  let head := fld (s.reg (ring + 4)) 24 16 % size
  let waits := head = fld (s.reg (ring + 4)) 8 0 % size ∨ fwWaiting s b = true
  let given := decide (s.present b = true ∧ i < 4 ∧ j < 16 ∧ g < 8)
  [given && decide (x.done = []),
   given && decide (x.done = fr :: done ∧ fr.slot = none),
   given && decide (x.done = fr :: done ∧ fr.slot = some slot ∧ (s.reg 0x802000).getLsbD 0 = false),
   given && decide (x.done = fr :: done ∧ fr.slot = some slot ∧ (s.reg 0x802000).getLsbD 5 = false),
   given && decide (r.held = []),
   given && decide (rasterFirst r = some e ∧ e.copies = [(k, w)] ∧ e.due ≤ 4 * s.now ∧ etherUp s b k = true ∧
      laneUsed (s.lane b k) + w.length ≤ 262144),
   given && decide (waits),
   given && decide (¬ waits),
   given && decide ((s.reg aud).getLsbD 31 = false),
   given && decide ((s.reg aud).getLsbD 31 = true ∧ (audioEnd s g * 125000 + 5) / 6 ≤ s.tick)]

theorem test_meets_LaneSenders : covered
    [meetsLaneSenders (laneTime 0 (senders [⟨5, 2, some 3, false, none⟩] ([] : List HeldPacket) 0#32 0#32 0#32)) 1 3 15 7 ⟨5, 2, some 3, false, none⟩ [] 3 heldPkt 3 (List.replicate 64 5#8),
     meetsLaneSenders (laneTime 100000000 (senders ([] : List RxFrame) [heldPkt] 0#32 0x10000#32 0x80000000#32)) 1 3 15 7 (⟨5, 2, none, false, none⟩ : RxFrame) [] 3 heldPkt 3 (List.replicate 64 5#8),
     meetsLaneSenders (laneTime 0 (senders [⟨5, 2, none, false, none⟩] ([] : List HeldPacket) 0#32 0#32 0#32)) 1 3 15 7 (⟨5, 2, none, false, none⟩ : RxFrame) [] 3 heldPkt 3 (List.replicate 64 5#8)] = true := by
  decide +kernel

/-- The hypotheses of the clauses of PtpCommands. -/
def meetsPtpCommands (s : State) (v : Word) (t1 : Int) (t2 : Int) (cs : Int) : List Bool :=
  let p := s.ptp
  let ctrl := s.reg 0x93800
  let stat := s.reg 0x9381C
  let st := fld stat 2 0
  [decide (ctrl.getLsbD 31 = true),
   decide (ctrl.getLsbD 31 = false),
   decide (st ≠ 2 ∧ st ≠ 3),
   decide (st = 2 ∧ holdoverTick s ≤ s.tick),
   decide (st = 3 ∧ holdoverTick s ≤ s.tick),
   decide (p.last = none),
   decide (p.last = some (t1, t2, cs) ∧ ctrl.getLsbD 31 = true ∧ delayReqTick s ≤ s.tick)]

theorem test_meets_PtpCommands : covered
    [meetsPtpCommands (ptpAt 0#32 1#32 none 0) 0xFFFFFFFF#32 1 2 3,
     meetsPtpCommands (ptpAt 0x80000000#32 2#32 (some ((1, 2, 3) : Int × Int × Int)) 0x4000000000) 0xFFFFFFFF#32 1 2 3,
     meetsPtpCommands (ptpAt 0#32 3#32 none 0x4000000000) 0xFFFFFFFF#32 1 2 3] = true := by
  decide +kernel

/-- The hypotheses of the clauses of QuenchRolesAndTakeover (QuenchRoles). -/
def meetsQuenchRoles (s : State) (level : Bool) : List Bool :=
  let q := s.quench
  let c := s.reg 0x802000
  let starts := c.getLsbD 0 = false ∧ lanesUp (s.orReg 0x802000 1) = false
  let falls := q.peer = true ∧ level = false ∧ q.link = false ∧ q.st ≠ 5 ∧ c.getLsbD 7 = false ∧ c.getLsbD 0 = true ∧
    q.active = false
  [decide (starts ∧ c.getLsbD 2 = false),
   decide (starts ∧ c.getLsbD 2 = true ∧ c.getLsbD 1 = true),
   decide (starts ∧ c.getLsbD 2 = true ∧ c.getLsbD 1 = false),
   decide (c.getLsbD 0 = false),
   decide (q.deciding = false),
   decide (c.getLsbD 0 = true ∧ q.deciding = true ∧ s.now < q.decideAt ∧ lineEnd s ≤ q.decideAt),
   decide (c.getLsbD 0 = true ∧ q.deciding = true ∧ s.now < q.decideAt ∧ q.decideAt < lineEnd s ∧ s.pkgQueue = []),
   decide (c.getLsbD 0 = true ∧ q.deciding = true ∧ q.decideAt ≤ s.now),
   decide (¬ falls),
   decide (q.pend ≠ none),
   decide (falls ∧ q.pend = none)]

theorem test_meets_QuenchRolesAndTakeover_QuenchRoles : covered
    [meetsQuenchRoles (decidingTo (pair 0#32 1 false false true false (some (1, 2, 5, true))) 0) false,
     meetsQuenchRoles (decidingTo (pair 1#32 1 false false true true none) 0) false,
     meetsQuenchRoles (decidingTo (pair 4#32 1 false false true true none) 0) false,
     meetsQuenchRoles (decidingTo (pair 6#32 1 false false true true none) 0) false,
     meetsQuenchRoles (decidingTo (pair 1#32 1 false false true true none) 5) false,
     meetsQuenchRoles (decidingTo (pair 1#32 1 false false true true none) 0x10000000000) false] = true := by
  decide +kernel

/-- The hypotheses of the clauses of QuenchRolesAndTakeover (QuenchTakeover). -/
def meetsQuenchTakeover (s : State) (m : TakeMsg) (f : Nat) (l : Nat) (c : Nat) (own : Bool) : List Bool :=
  let q := s.quench
  let on := (s.reg 0x802000).getLsbD 0 = true
  let shadow := on ∧ q.active = false
  let yields := on ∧ q.active = true ∧ q.st ≠ 5
  let hears := on ∧ q.link = true ∧ ¬ (q.st = 5 ∧ q.active = false ∧ m.cause ≠ 1)
  [decide (shadow ∧ q.pend = none),
   decide (¬ shadow),
   decide (q.pend ≠ none),
   decide (yields ∧ q.pend = none),
   decide (¬ yields),
   decide (¬ hears),
   decide (hears ∧ q.pend = none),
   decide (hears ∧ q.pend = some (f, l, c, own) ∧ linePrec (m.frame, m.line) (f, l) = true),
   decide (hears ∧ q.pend = some (f, l, c, own) ∧ linePrec (m.frame, m.line) (f, l) = false),
   decide (¬ on),
   decide ((q.twin = none ∧ q.link = false)),
   decide (on ∧ q.twin ≠ none),
   decide (on ∧ q.link = true)]

theorem test_meets_QuenchRolesAndTakeover_QuenchTakeover : covered
    [meetsQuenchTakeover (pair 0#32 2 true false true false (some (10, 6, 2, true))) ⟨9, 5, 1⟩ 9 6 2 true,
     meetsQuenchTakeover (pair 1#32 2 true true true false none) ⟨9, 5, 1⟩ 9 6 2 true,
     meetsQuenchTakeover (pair 1#32 2 true true true false (some (10, 6, 2, true))) ⟨9, 5, 1⟩ 10 6 2 true,
     meetsQuenchTakeover (pair 1#32 2 true true true false (some (9, 6, 2, true))) ⟨9, 6, 1⟩ 9 6 2 true,
     meetsQuenchTakeover (pair 1#32 2 false true true false none) ⟨9, 5, 1⟩ 9 6 2 true] = true := by
  decide +kernel

/-- The hypotheses of the clauses of QuenchRecordsAndNotices (QuenchRecords). -/
def meetsQuenchRecords (s : State) (m : TwinStamp) (r : LineRec) (w : RecWait) (own : List RecWait) : List Bool :=
  let q := s.quench
  let heard := (s.reg 0x802000).getLsbD 0 = true ∧ q.link = true
  let compared := (q.st = 2 ∨ q.st = 3) ∧ q.falign = true ∧ q.ready.testBit r.port = true ∧
    (s.reg 0x802014).getLsbD r.port = true
  let partner := w.port = r.port ∧ w.frame = r.frame % 2 ^ 16 ∧ w.line = r.line
  let old := w.ends + 4 ≤ s.beam.ends
  [decide (¬ heard),
   decide (heard ∧ fld (s.reg 0) 1 0 ≠ 3),
   decide (¬ (heard ∧ compared)),
   decide (heard ∧ compared ∧ q.own = w :: own ∧ partner ∧ w.crc = r.crc),
   decide (heard ∧ compared ∧ q.own = w :: own ∧ partner ∧ w.crc ≠ r.crc),
   decide (heard ∧ compared ∧ q.own = []),
   decide ((∀ v ∈ q.own ++ q.theirs, s.beam.ends < v.ends + 4)),
   decide (q.own = w :: own ∧ old ∧ (∀ v ∈ q.theirs, w.ends ≤ v.ends))]

theorem test_meets_QuenchRecordsAndNotices_QuenchRecords : covered
    [meetsQuenchRecords (records 0#32 true []) ⟨5, false, true, true, [], 26⟩ ⟨1, 65541, 7, 0xAB, false⟩ (rec1 0xAB 6) [],
     meetsQuenchRecords (records 1#32 true [rec1 0xAB 6]) ⟨5, false, true, true, [], 26⟩ ⟨1, 65541, 7, 0xAB, false⟩ (rec1 0xAB 6) [],
     meetsQuenchRecords (records 1#32 true []) ⟨5, false, true, true, [], 26⟩ ⟨1, 65541, 7, 0xAB, false⟩ (rec1 0xAB 6) [],
     meetsQuenchRecords (records 1#32 true [rec1 0xAB 6]) ⟨5, false, true, true, [], 26⟩ ⟨1, 65541, 7, 0xAC, false⟩ (rec1 0xAB 6) []] = true := by
  decide +kernel

/-- The hypotheses of the clauses of QuenchRecordsAndNotices (QuenchNoticesAndMailbox). -/
def meetsQuenchNoticesAndMailbox (s : State) (m : Notice) (w : NoticeWait) (rest : List NoticeWait) (v : Word) (ws : List Word) : List Bool :=
  let q := s.quench
  let on := (s.reg 0x802000).getLsbD 0 = true
  let hears := on ∧ q.link = true ∧ (s.reg 0x802000).getLsbD 5 = true
  let same := w.billet = m.billet ∧ w.layer = m.layer ∧ w.ident = m.ident
  let wait := max 1 (fld (s.reg 0x802040) 7 0) * s.beam.vtotal
  let here := absLine s (s.beam.frame, s.beam.line)
  let old := fun (x : NoticeWait) => absLine s (x.frame, x.line) + wait ≤ here
  [decide (¬ hears),
   decide (hears ∧ q.notices = []),
   decide (hears ∧ q.notices = w :: rest ∧ same ∧ s.present w.billet = true ∧ w.layer < 4),
   decide ((∀ x ∈ q.notices, ¬ old x)),
   decide (q.notices = w :: rest ∧ old w ∧ slotState (s.video w.billet w.layer) w.slot = 1 ∧ w.slot < 4 ∧
      s.present w.billet = true ∧ w.layer < 4),
   decide (¬ (on ∧ q.link = true)),
   decide (on ∧ q.link = true)]

theorem test_meets_QuenchRecordsAndNotices_QuenchNoticesAndMailbox : covered
    [meetsQuenchNoticesAndMailbox (noticed 0#32 []) ⟨7, 2, 77, 5, 2⟩ (⟨7, 2, 77, 3, 3, 3⟩ : NoticeWait) [] 7#32 [],
     meetsQuenchNoticesAndMailbox (noticed 0x21#32 [⟨7, 2, 77, 3, 3, 3⟩]) ⟨7, 2, 77, 5, 2⟩ (⟨7, 2, 77, 3, 3, 3⟩ : NoticeWait) [] 7#32 [],
     meetsQuenchNoticesAndMailbox (noticed 0x21#32 []) ⟨7, 2, 77, 5, 2⟩ (⟨7, 2, 77, 3, 3, 3⟩ : NoticeWait) [] 7#32 []] = true := by
  decide +kernel

/-- The hypotheses of the clauses of QuenchResync. -/
def meetsQuenchResync (s : State) (d : ResyncData) (part step ctrl porten : Nat) : List Bool :=
  let q := s.quench
  let c := s.reg 0x802000
  let on := c.getLsbD 0 = true
  let attached := q.st = 2 ∨ q.st = 3 ∨ q.st = 5
  let heard := on ∧ q.link = true
  let regions := fld (s.reg 0x802080) 5 0
  let spec := s.reg 0x802104
  let n := (s.reg 0x802108).toNat * 64
  [decide ((on ∧ attached)),
   decide ((heard ∧ attached)),
   decide ((on ∧ q.st = 4)),
   decide ((heard ∧ q.st = 4)),
   decide (¬ (on ∧ attached)),
   decide (¬ (heard ∧ attached)),
   decide (¬ (on ∧ q.st = 4)),
   decide (¬ (heard ∧ q.st = 4)),
   decide (¬ heard),
   decide (q.st ≠ 5),
   decide ((heard ∧ q.active = false ∧ q.st ≠ 6)),
   decide ((heard ∧ q.active = true ∧ q.st ≠ 6)),
   decide (¬ (heard ∧ q.active = false ∧ q.st ≠ 6)),
   decide (heard),
   decide (q.st = 5 ∧ regions = 0),
   decide (q.st = 5 ∧ regions ≠ 0 ∧ s.present (fld spec 2 0) = false),
   decide (q.st = 5 ∧ regions ≠ 0 ∧ fld spec 31 30 = 3),
   decide (q.st = 5 ∧ regions = 1 ∧ s.present (fld spec 2 0) = true ∧ fld spec 31 30 = 1 ∧ on ∧ q.active = false ∧
      n ≤ 2 ^ 21 ∧ n ≤ d.mem.length)]

theorem test_meets_QuenchResync : covered
    [meetsQuenchResync (resyncing 1#32 4 true 0#32 0x40000007#32) ⟨[], [], []⟩ 1 2 3 4,
     meetsQuenchResync (resyncing 1#32 5 false 0#32 0x40000007#32) ⟨[], [], []⟩ 1 2 3 4,
     meetsQuenchResync (resyncing 0#32 5 true 1#32 0xC0000000#32) ⟨[], [], []⟩ 1 2 3 4,
     meetsQuenchResync (resyncing 1#32 5 false 1#32 0x40000007#32) ⟨[], [], []⟩ 1 2 3 4,
     meetsQuenchResync { resyncing 1#32 5 false 1#32 0x40000002#32 with variant := .ux8_2 } ⟨[], [], []⟩ 1 2 3 4] = true := by
  decide +kernel

/-- The hypotheses of the clauses of PinsBanksAndMatchers (PinLevelsAndSwitches). -/
def meetsPinLevelsAndSwitches (s : State) (b n : Nat) (level : Bool) (v : Word) : List Bool :=
  let x := s.pin b n
  let ok := (s.bank b (n / 16)).ok = true
  let awake := s.ember.on = false
  let cfg := b * 0x100000 + 0xA0000 + 4 * n
  let old := s.reg cfg
  let e := fld old 10 9
  let selected := e = 3 ∨ (e = 1 ∧ level = true) ∨ (e = 2 ∧ level = false)
  let idle := ∀ k : Nat, k < 16 → (s.reg (b * 0x100000 + 0xA0200 + 0x20 * k)).getLsbD 31 = false
  let given := decide (s.present b = true ∧ n < 48)
  [given && decide (¬ ok),
   given && decide (x.switching = true),
   given && decide (¬ awake),
   given && decide (ok ∧ awake ∧ x.switching = false ∧ x.filt = level),
   given && decide (ok ∧ awake ∧ x.switching = false ∧ x.filt ≠ level ∧ ¬ selected ∧ idle),
   given && decide (ok ∧ awake ∧ x.switching = false ∧ x.filt ≠ level),
   given && decide (x.switching = false ∧ s.now < x.swEnd ∧ x.swEnd ≤ lineEnd s ∧ s.pkgQueue = []),
   given && decide (x.switching = false ∧ x.swEnd ≤ s.now),
   given && decide (x.switching = false),
   given && decide (x.switching = true ∧ s.now + 1 < x.swEnd),
   given && decide (x.switching = true ∧ x.swEnd ≤ s.now + 1 ∧ x.held = none ∧ ¬ ok),
   given && decide (x.switching = true ∧ x.swEnd ≤ s.now + 1 ∧ x.held = none ∧ ok),
   given && decide (x.switching = true ∧ x.swEnd ≤ s.now + 1 ∧ x.held = some v)]

theorem test_meets_PinsBanksAndMatchers_PinLevelsAndSwitches : covered
    [meetsPinLevelsAndSwitches (asleep false (switchTo 0 (pin147 0#32 true true false none))) 1 47 false 5#32,
     meetsPinLevelsAndSwitches (asleep true (switchTo 0 (pin147 0#32 false true true none))) 1 47 false 5#32,
     meetsPinLevelsAndSwitches (asleep false (switchTo 1 (pin147 0#32 true false false none))) 1 47 false 5#32,
     meetsPinLevelsAndSwitches (asleep false (switchTo 0 (pin147 0#32 true true true none))) 1 47 false 5#32,
     meetsPinLevelsAndSwitches (asleep false (switchTo 5 (pin147 0#32 true true true none))) 1 47 false 5#32,
     meetsPinLevelsAndSwitches (asleep false (switchTo 0 (pin147 0#32 true true true (some 5#32)))) 1 47 false 5#32] = true := by
  decide +kernel

/-- The hypotheses of the clauses of PinsBanksAndMatchers (BanksAndMatchers). -/
def meetsBanksAndMatchers (s : State) (b k j r : Nat) (v : Word) (cls : BankSupply) : List Bool :=
  let pm := b * 0x100000 + 0xA0200 + 0x20 * j
  let m := s.matcher b j
  let ctrl := s.reg pm
  let waits := ctrl.getLsbD 31 = true ∧ fld ctrl 30 29 = 2 ∧ fld ctrl 15 0 ≠ 0 ∧ m.st ≠ 0
  let due := m.advAt + fld ctrl 15 0 * 1024
  let given := decide (s.present b = true ∧ k < 3 ∧ j < 16)
  [given,
   given && decide (r % 4 = 0 ∧ r < 0x18),
   given && decide (waits ∧ s.now < due ∧ lineEnd s ≤ due),
   given && decide (waits ∧ s.now < due ∧ due < lineEnd s ∧ s.pkgQueue = []),
   given && decide (waits ∧ due ≤ s.now),
   given && decide (¬ waits)]

theorem test_meets_PinsBanksAndMatchers_BanksAndMatchers : covered
    [meetsBanksAndMatchers (clockAt 0 0 (matcher115 0xC0000001#32 0)) 1 2 15 0x14 5#32 .v33,
     meetsBanksAndMatchers (clockAt 0 0 (matcher115 0xC0000001#32 1)) 1 2 15 0x14 5#32 .v33,
     meetsBanksAndMatchers (clockAt 10000000 0 (matcher115 0xC0000001#32 1)) 1 2 15 0x14 5#32 .v33,
     meetsBanksAndMatchers (clockAt 0 0 (matcher115 0xC000FFFF#32 1)) 1 2 15 0x14 5#32 .v33] = true := by
  decide +kernel

/-- The hypotheses of the clauses of TickAndCompare. -/
def meetsTickAndCompare (s : State) (b k : Nat) (v : Word) (due : Nat) (d : Nat) (rest : List (Nat × Nat)) : List Bool :=
  let c := s.tickCtl
  let a := b * 0x100000 + 0xA1000 + 0x20 * k
  let x := s.compare b k
  let ctrl := s.reg a
  let fireAt := s.now + cyclesTo s x.t
  let endAt := s.now + cyclesTo s (s.tick + (x.per - x.count))
  let given := decide (s.present b = true ∧ k < 64)
  [given,
   given && decide (c.steps = []),
   given && decide (c.steps = (due, d) :: rest ∧ s.now < due),
   given && decide (c.steps = (due, d) :: rest ∧ due ≤ s.now),
   given && decide (v.getLsbD 31 = true),
   given && decide (ctrl.getLsbD 31 = true),
   given && decide (ctrl.getLsbD 31 = false),
   given && decide (v.getLsbD 31 = false),
   given && decide (x.armed = false),
   given && decide (x.armed = true ∧ s.tick < x.t ∧ lineEnd s ≤ fireAt),
   given && decide (x.armed = true ∧ s.tick < x.t ∧ x.t ≤ (passTo fireAt s).tick),
   given && decide (x.armed = true ∧ x.t ≤ s.tick ∧ x.period = false),
   given && decide (x.armed = true ∧ x.t ≤ s.tick ∧ x.period = true),
   given && decide (x.running = false),
   given && decide (x.running = true ∧ x.count + 1 < x.per ∧ lineEnd s ≤ endAt),
   given && decide (x.running = true ∧ x.count + 1 < x.per ∧ x.per ≤ ((passTo endAt s).compare b k).count + 1),
   given && decide (x.running = true ∧ x.per ≤ x.count + 1)]

theorem test_meets_TickAndCompare : covered
    [meetsTickAndCompare (clockAt 10000000 44 (compare163 0#32 true true true 45 0 [])) 1 63 0x7FFFFFFF#32 5 7 [],
     meetsTickAndCompare (clockAt 0 44 (compare163 0x80000000#32 true true true 44 4 [(5, 7)])) 1 63 0x80000000#32 5 7 [],
     meetsTickAndCompare (clockAt 10 44 (compare163 0#32 true false false 44 0 [(5, 7)])) 1 63 0x7FFFFFFF#32 5 7 [],
     meetsTickAndCompare (clockAt 0 44 (compare163 0#32 false true true 44 0 [])) 1 63 0x7FFFFFFF#32 5 7 []] = true := by
  decide +kernel

/-- The hypotheses of the clauses of CaptureAndTally. -/
def meetsCaptureAndTally (s : State) (b c : Nat) (v : Word) : List Bool :=
  let a := b * 0x100000 + 0xA1800 + 0x20 * c
  let ctrl := s.reg a
  let n := fld ctrl 5 0
  let p := s.pin b n
  let x := s.capture b c
  let e := fld ctrl 27 26
  let flt := s.reg (a + 4)
  let every := 2 ^ fld flt 11 8
  let at' := ((p.edgeAt + 2 + every - 1) / every + (max 1 (fld flt 7 0) - 1)) * every
  let full := (s.reg (a + 0x1C)).getLsbD 1 = true
  let keeps := full ∧ ctrl.getLsbD 28 = false
  let once := ctrl.getLsbD 30 = true
  let moves := ctrl.getLsbD 31 = true ∧ n < 48 ∧ p.sync ≠ x.level
  let selected := e = 3 ∨ (e = 1 ∧ p.sync = true) ∨ (e = 2 ∧ p.sync = false)
  let takes := moves ∧ at' ≤ s.now ∧ selected ∧ fld flt 23 16 = 0 ∧ ¬ (once ∧ ctrl.getLsbD 29 = false)
  let y := s.tally b c
  let given := decide (s.present b = true ∧ c < 16)
  [given && decide ((ctrl.getLsbD 31 = false)),
   given && decide (48 ≤ n),
   given && decide (moves ∧ s.now < at' ∧ lineEnd s ≤ at'),
   given && decide (moves ∧ s.now < at' ∧ at' < lineEnd s ∧ s.pkgQueue = []),
   given && decide (moves ∧ at' ≤ s.now ∧ ¬ selected),
   given && decide (moves ∧ at' ≤ s.now ∧ selected ∧ fld flt 23 16 = 0 ∧ once ∧ ctrl.getLsbD 29 = false),
   given && decide (takes ∧ keeps),
   given && decide (takes ∧ ¬ keeps),
   given,
   given && decide (y.cnt ≠ 2 ^ 48 - 1),
   given && decide (y.cnt = 2 ^ 48 - 1 ∧ y.countAt ≠ s.now + 1 ∧ y.snapAt ≠ s.now + 1)]

theorem test_meets_CaptureAndTally : covered
    [meetsCaptureAndTally (clockAt 0 0 (put (capture115 0#32 0#32 true (2 ^ 48 - 1)) [(0x1A19E4, 0#32)])) 1 15 5#32,
     meetsCaptureAndTally (clockAt 0 0 (put (capture115 0x80000030#32 0#32 true (2 ^ 48 - 2)) [(0x1A19E4, 0#32)])) 1 15 5#32,
     meetsCaptureAndTally (clockAt 0 0 (put (capture115 0x80000003#32 0#32 false (2 ^ 48 - 1)) [(0x1A19E4, 0#32)])) 1 15 5#32,
     meetsCaptureAndTally (clockAt 0 0 (put (capture115 0x80000003#32 0#32 false (2 ^ 48 - 1)) [(0x1A19E4, 0xFFF#32)])) 1 15 5#32,
     meetsCaptureAndTally (clockAt 10 0 (put (capture115 0x80000003#32 0#32 false (2 ^ 48 - 1)) [(0x1A19E4, 0#32)])) 1 15 5#32,
     meetsCaptureAndTally (clockAt 10 0 (put (capture115 0xCC000003#32 0#32 false (2 ^ 48 - 1)) [(0x1A19E4, 0#32)])) 1 15 5#32,
     meetsCaptureAndTally (clockAt 10 0 (put (capture115 0xEC000003#32 0#32 false (2 ^ 48 - 1)) [(0x1A19E4, 0#32)])) 1 15 5#32,
     meetsCaptureAndTally (clockAt 10 0 (put (capture115 0xEC000003#32 2#32 false (2 ^ 48 - 1)) [(0x1A19E4, 0#32)])) 1 15 5#32] = true := by
  decide +kernel

/-- The hypotheses of the clauses of ResetsAndTestAccess (PackageResets). -/
def meetsPackageResets (s : State) (v : Word) (sel : Nat) (b : Nat) (l : Nat) : List Bool :=
  let key := fld v 31 24 = 0x5A ∧ v.getLsbD 0 = true
  let runs := (s.reg 0x812108).getLsbD 31 = true
  let ends := s.boot.wdogAt + fld (s.reg 0x812108) 15 0 * 1200000
  let ir := s.hostPort.ir
  let holds := ir = 0 ∨ (3 ≤ ir ∧ ir ≤ 6)
  [decide (s.present b = true ∧ l < 4),
   decide (key),
   decide (¬ key),
   decide (fld v 7 0 = 0xC3),
   decide (fld v 7 0 ≠ 0xC3),
   decide (runs ∧ s.now < ends ∧ lineEnd s ≤ ends),
   decide (runs ∧ s.now < ends ∧ ends < lineEnd s ∧ s.pkgQueue = []),
   decide (runs ∧ ends ≤ s.now),
   decide (¬ runs),
   decide (s.boot.held = false),
   decide (s.boot.hot = true),
   decide (holds),
   decide (s.boot.held = true ∧ s.boot.hot = false ∧ ¬ holds)]

theorem test_meets_ResetsAndTestAccess_PackageResets : covered
    [meetsPackageResets (hotAt 0 0 true (package false 6 0#32)) 0x5A000001#32 1 7 3,
     meetsPackageResets (hotAt 0 0 false (package true 1 0x80000000#32)) 0xC3#32 1 7 3,
     meetsPackageResets (hotAt 1 0 true (package true 1 0x80000000#32)) 0x5A000001#32 1 7 3,
     meetsPackageResets (hotAt 0 0 true (package true 1 0x80000001#32)) 0x5A000001#32 1 7 3] = true := by
  decide +kernel

/-- The hypotheses of the clauses of ResetsAndTestAccess (TestAccess). -/
def meetsTestAccess (s : State) (op : FuseOp) : List Bool :=
  let ir := s.hostPort.ir
  let held := ir = 0 ∨ (3 ≤ ir ∧ ir ≤ 6)
  [decide (¬ held),
   decide (held ∧ s.boot.held = false),
   decide (held ∧ s.boot.hot = true),
   decide (held ∧ s.boot.held = true ∧ s.boot.hot = false)]

theorem test_meets_ResetsAndTestAccess_TestAccess : covered
    [meetsTestAccess (hotAt 0 0 true (package false 6 0#32)) .svn,
     meetsTestAccess (hotAt 0 0 true (package true 1 0#32)) .svn,
     meetsTestAccess (hotAt 0 0 false (package true 6 0#32)) .svn] = true := by
  decide +kernel

/-- The hypotheses of the clauses of BootSteps. -/
def meetsBootSteps (s : State) (ok : Bool) : List Bool :=
  let x := s.boot
  let ready := x.held = false ∧ stepsAsked s = []
  let imageA := ready ∧ x.host = false ∧ x.imgB = false
  let h := x.header
  let flash := memBytes s.flash (if x.imgB = true then 0x1000000 else 0)
  let slot := keySlot s h
  [decide (stepsAsked s = [] ∧ x.held = true),
   decide (stepsAsked s = [] ∧ x.step = 0),
   decide (imageA ∧ x.step = 1 ∧ ok = false),
   decide (imageA ∧ x.step = 3 ∧ ok = false),
   decide (imageA ∧ x.step = 5 ∧ ok = false),
   decide (imageA ∧ x.step = 1 ∧ ok = true ∧ leNat ((flash 1024).take 4) ≠ 0x42385855),
   decide (ready ∧ x.step = 2 ∧ trained s = false),
   decide (imageA ∧ x.step = 2 ∧ trained s = true ∧ (∃ b : Nat, b < s.n ∧
      fld (s.reg (b * 0x100000 + 0x70004)) 3 0 ≠ 15)),
   decide (ready ∧ x.step = 2 ∧ trained s = true ∧
      (∀ b : Nat, b < s.n → fld (s.reg (b * 0x100000 + 0x70004)) 3 0 = 15)),
   decide (ready ∧ x.step = 3 ∧ ok = true ∧ x.host = true),
   decide (ready ∧ x.step = 3 ∧ ok = true ∧ x.host = false),
   decide (imageA ∧ x.step = 4 ∧ slot = none ∧ s.otp.secure = true),
   decide (imageA ∧ x.step = 4 ∧ slot ≠ none ∧ signatureOk s h = false),
   decide (imageA ∧ x.step = 4 ∧ s.otp.secure = false ∧ signatureOk s h = false),
   decide (imageA ∧ x.step = 4 ∧ slot ≠ none ∧ signatureOk s h = true ∧ hdrSvn h < s.otp.svn),
   decide (imageA ∧ x.step = 4 ∧ s.otp.secure = false ∧ signatureOk s h = true ∧ hdrSvn h < s.otp.svn),
   decide (ready ∧ x.step = 4 ∧ slot ≠ none ∧ signatureOk s h = true ∧ s.otp.svn ≤ hdrSvn h),
   decide (ready ∧ x.step = 5 ∧ ok = true ∧ hdrNsec h = 0),
   decide (ready ∧ x.step = 6),
   decide (accessible s = false),
   decide (x.waiting = false),
   decide (accessible s = true ∧ x.waiting = true)]

theorem test_meets_BootSteps : covered
    [meetsBootSteps (booting 4 false (imageHeader 4 true) (some keyHash) false 15#32) true,
     meetsBootSteps (booting 4 false (imageHeader 5 false) (some keyHash) false 15#32) true,
     meetsBootSteps { (booting 2 false [] none false 15#32).setMem 7 { MemCtl.init with training := true } with boot := { Boot.init with held := true, step := 2, waiting := true } } true,
     meetsBootSteps { (booting 2 false [] none false 15#32).setMem 7 { MemCtl.init with training := true } with boot := { Boot.init with held := false, step := 2, waiting := true } } true,
     meetsBootSteps (booting 0 true [] none false 7#32) true,
     meetsBootSteps (booting 1 false [] none false 7#32) true,
     meetsBootSteps (booting 1 false [] none false 7#32) false,
     meetsBootSteps (booting 2 true [] none false 15#32) true,
     meetsBootSteps (booting 2 false [] none false 7#32) true,
     meetsBootSteps (booting 3 true [] none false 7#32) true,
     meetsBootSteps (booting 3 false [] none false 7#32) true,
     meetsBootSteps (booting 3 false [] none false 7#32) false,
     meetsBootSteps (booting 5 true [] none false 7#32) true,
     meetsBootSteps (booting 5 false [] none false 7#32) false,
     meetsBootSteps (booting 6 true [] none false 7#32) true,
     meetsBootSteps (booting 4 false (imageHeader 5 true) none true 15#32) true,
     meetsBootSteps (booting 4 false (imageHeader 5 true) (some keyHash) true 15#32) true] = true := by
  decide +kernel

/-- The hypotheses of the clauses of ClocksAndTemper. -/
def meetsClocksAndTemper (s : State) (b l : Nat) (dom : ClkDomain) (use : List Nat) (tc tj : Int) (v : Word) : List Bool :=
  let chans := channelsOf dom
  let lane := dom = .laneTx l ∨ dom = .laneRx l ∨ dom = .lanePcs l
  let known := (b, dom) ∈ s.heldDoms
  let plain := dom ∈ [.anvil, .flux, .sensing, .retention, .pciePhy, .pcieCore, .spi, .jtag, .ember, .temper, .retimer l]
  let x := s.temper
  let want := if fld v 2 0 ≤ 3 then fld v 2 0 else 0
  let given := decide (s.present b = true ∧ l < 4)
  [given && decide (dom = .forge),
   given && decide (dom = .fluxRx l),
   given && decide (dom = .port l),
   given && decide (plain),
   given && decide (dom = .reference),
   given && decide (chans ≠ []),
   given && decide (lane),
   given && decide (dom = .cluster l ∧ l < 2),
   given && decide (¬ known),
   given && decide (known),
   given,
   given && decide (x.checkAt + 1200 ≤ s.now),
   given && decide (s.boot.held = false),
   given && decide (s.boot.held = false ∧ x.sensorAt + 1200000 ≤ s.now),
   given && decide (s.boot.held = true),
   given && decide ((want = x.state ∧ x.req = none)),
   given && decide (¬ (want = x.state ∧ x.req = none) ∧ x.state ≠ 2),
   given && decide (¬ (want = x.state ∧ x.req = none) ∧ x.state = 2)]

theorem test_meets_ClocksAndTemper : covered
    [meetsClocksAndTemper (temperAt 1200000 false (temper 1 none [])) 7 3 (ClkDomain.forge) [] 0 0 1#32,
     meetsClocksAndTemper (temperAt 0 true (temper 1 (some 0) [(7, ClkDomain.laneTx 3)])) 7 3 ((ClkDomain.laneTx 3)) [] 0 0 1#32,
     meetsClocksAndTemper (temperAt 0 true (temper 2 none [])) 7 3 ((ClkDomain.fluxRx 3)) [] 0 0 1#32,
     meetsClocksAndTemper (temperAt 0 true (temper 1 none [])) 7 3 ((ClkDomain.port 3)) [] 0 0 1#32,
     meetsClocksAndTemper (temperAt 0 true (temper 1 none [])) 7 3 ((ClkDomain.retimer 3)) [] 0 0 1#32,
     meetsClocksAndTemper (temperAt 0 true (temper 1 none [])) 7 3 (ClkDomain.reference) [] 0 0 1#32,
     meetsClocksAndTemper (temperAt 0 true (temper 1 none [])) 7 3 ((ClkDomain.writeClock 1)) [] 0 0 1#32,
     meetsClocksAndTemper (temper 1 none []) 7 1 (.cluster 1) [] 0 0 1#32] = true := by
  decide +kernel

/-- The hypotheses of the clauses of EmberSleepAndWake. -/
def meetsEmberSleepAndWake (s : State) (ins : List Nat) : List Bool :=
  let awake := s.ember.on = false
  let enters := awake ∧ s.boot.held = false
  let now := wakeLevels s ins
  let asserted := ∃ k : Nat, k < 48 ∧ levelAsserted s now k = true
  let hit := ∃ k : Nat, k < 48 ∧ slotHit s s.ember.levels now k = true
  [decide (¬ enters),
   decide (enters ∧ asserted),
   decide (enters ∧ ¬ asserted),
   decide (awake),
   decide (¬ awake),
   decide (¬ awake ∧ ¬ hit),
   decide (¬ awake ∧ hit)]

theorem test_meets_EmberSleepAndWake : covered
    [meetsEmberSleepAndWake (temperAt 0 true (emberSlot true 0#32 [])) [],
     meetsEmberSleepAndWake (temperAt 0 false (emberSlot false 0#32 [])) [],
     meetsEmberSleepAndWake (temperAt 0 true (emberSlot true 0x81000000#32 [])) [512],
     meetsEmberSleepAndWake (temperAt 0 false (emberSlot false 0x81000000#32 [])) [512]] = true := by
  decide +kernel

/-- The hypotheses of the clauses of HostTransactions. -/
def meetsHostTransactions (s : State) (a n : Nat) (v : Word) (d : List Byte) (cmd : Nat) (e : Posted) (q : List Posted) : List Bool :=
  let open' := accessible s = true
  let h := s.hostPort
  let gone := open' ∧ h.posted = [e] ∧ h.wait = [] ∧ linePassed s e.dead = true
  let given := decide (stepsAsked s = [] ∧ a < 2 ^ 24)
  [given && decide (¬ open'),
   given && decide (open' ∧ a % 4 = 0),
   given && decide (open' ∧ a < 0xC00000 ∧ a % 4 + d.length ≤ 4 ∧ 0 < d.length ∧ d.length < 4),
   given && decide (open' ∧ 0 < d.length ∧ d.length < 4),
   given && decide (open' ∧ a % 4 = 0 ∧ a < 0xC00000),
   given && decide (open' ∧ h.posted = [] ∧ h.wait = []),
   given && decide (open' ∧ h.wait ≠ []),
   given && decide (open'),
   given && decide (open' ∧ cmd ∉ [2, 5, 0xB]),
   given && decide (cmd ∈ [2, 5, 0xB]),
   given && decide (open' ∧ h.posted = [] ∧ linePassed s h.waitDead = false),
   given && decide (open' ∧ h.posted = [] ∧ h.wait = [a] ∧ linePassed s h.waitDead = true),
   given && decide (open' ∧ h.posted = e :: q ∧ linePassed s e.dead = false),
   given && decide (gone ∧ e.port < 4),
   given && decide (gone ∧ 4 ≤ e.port)]

theorem test_meets_HostTransactions : covered
    [meetsHostTransactions (hostWaits [] 9 (hostPosted false [])) 0xBFFFFC 8 9#32 [1#8] 0xB ((post 3 0)) [],
     meetsHostTransactions (hostWaits [0xBFFFFC] 0 (hostPosted false [])) 0xBFFFFC 8 9#32 [1#8] 9 ((post 3 0)) [],
     meetsHostTransactions (hostWaits [] 0 (hostPosted true [])) 0xBFFFFC 8 9#32 [1#8] 0xB ((post 3 0)) [],
     meetsHostTransactions (hostWaits [] 0 (hostPosted false [post 3 0])) 0xBFFFFC 8 9#32 [1#8] 0xB ((post 3 0)) [],
     meetsHostTransactions (hostWaits [] 0 (hostPosted false [post 3 9])) 0xBFFFFC 8 9#32 [1#8] 0xB ((post 3 9)) [],
     meetsHostTransactions (hostWaits [] 0 (hostPosted false [post 4 0])) 0xBFFFFC 8 9#32 [1#8] 0xB ((post 4 0)) []] = true := by
  decide +kernel

/-- The hypotheses of the clauses of HostTransactions (HostDoorbellAndReset). -/
def meetsHostDoorbellAndReset (s : State) (v : Word) (up : Bool) (width speed reg : Nat) : List Bool :=
  let b := fld v 10 8
  let given := decide (accessible s = true)
  [given && decide (s.present b = false),
   given && decide (s.present b = true),
   given,
   given && decide (reg % 4 = 0)]

theorem test_meets_HostTransactions_HostDoorbellAndReset : covered
    [meetsHostDoorbellAndReset { State.reset with variant := .ux8_2 } 0xFFFF070F#32 true 16 5 0x10,
     meetsHostDoorbellAndReset { State.reset with variant := .ux8_8 } 0xFFFF070F#32 true 16 5 0x10] = true := by
  decide +kernel

/-- The hypotheses of the clauses of DataPorts. -/
def meetsDataPorts (s : State) (k : Nat) (v : Word) (e : Posted) (rest : List Posted) (w : Word) (q : List (Nat × Word)) : List Bool :=
  let a := 0x820000 + 0x40 * k
  let h := s.hostPort
  let x := s.dport k
  let idle := h.posted = [] ∧ h.wait = []
  let ctl := s.reg a
  let addr := (s.reg (a + 4)).toNat
  let b := fld ctl 10 8
  let hearth := s.present b = true ∧ fld ctl 13 12 = 1 ∧ s.hbad b (addr % 2 ^ 21) 4 = false
  let stalled := ∃ c ∈ s.commits.live, c.accepted = false ∧ c.billet = 0 ∧ c.ctx = 16
  let given := decide (stepsAsked s = [] ∧ k < 4 ∧ accessible s = true)
  [given,
   given && decide ((h.posted.filter (fun p => p.port = k)).length < 1024),
   given && decide (idle ∧ x.pref = [] ∧ hearth),
   given && decide (idle ∧ x.pref = (addr, w) :: q ∧ dpFrozen s ctl = false),
   given && decide (ctl.getLsbD 31 = false),
   given && decide (ctl.getLsbD 31 = true ∧ x.pref = [] ∧ hearth),
   given && decide ((∀ p ∈ h.posted, p.port ≠ k)),
   given && decide (h.posted = e :: rest ∧ h.wait = [] ∧ e.port = k ∧ fld e.ctl 13 12 = 1 ∧
      s.present (fld e.ctl 10 8) = true ∧ ¬ stalled)]

theorem test_meets_DataPorts : covered
    [meetsDataPorts (dataPort3 0x1700#32 [] []) 3 9#32 (post 3 0) [] 5#32 [],
     meetsDataPorts (dataPort3 0x80001700#32 [] [post 3 0]) 3 9#32 (post 3 0) [] 5#32 [],
     meetsDataPorts (dataPort3 0x1700#32 [(0x1FFFFC, 5#32)] []) 3 9#32 (post 3 0) [] 5#32 []] = true := by
  decide +kernel

/-- A state and a step of it that meet the hypotheses of StepKeepsInvariant. -/
theorem test_meets_StepKeepsInvariant : ∃ s t, Inv s ∧ Sys2Proof.Machine.step s = .next t :=
  ⟨{ State.reset with pending := [.mailboxSend 5#32] }, _, ⟨by decide, by decide, by decide⟩, rfl⟩

/-- A state that meets the hypothesis of EveryCommandCompletes: bytes stand in both memories. -/
theorem test_meets_EveryCommandCompletes :
    Inv { State.reset with gddr := [⟨0, 5⟩, ⟨2 ^ 35 - 1, 7⟩], hearth := [⟨3, 1⟩] } :=
  ⟨by decide, by decide, by decide⟩

/-! ### A word of each encoding of a hammer's program memory, written out from the tables of R230-R238 -/

/-- R230, R231: the forerunner class. -/
theorem test_decode_forerunner :
    ([(0b00_000_000000000#14, 0#14, HOp.nop, 1),
      (0b00_000_000000010#14, 0#14, .reti, 1),
      (0b00_000_000000110#14, 0x3ABC#14, .jmp (.page 0xABC), 2),
      (0b00_000_000000111#14, 0x1005#14, .call (.page 0x005), 2),
      (0b00_000_000001000#14, 0#14, .illegal, 1),
      (0b00_000_000010101#14, 0#14, .jmp (.pageReg 5), 1),
      (0b00_000_000011111#14, 0#14, .call (.pageReg 7), 1),
      (0b00_000_100000000#14, 0#14, .rpt 1, 1),
      (0b00_000_111111111#14, 0#14, .rpt 256, 1),
      (0b00_001_010_101_010#14, 0#14, .alu .sub 5 (.reg 2), 1),
      (0b00_001_111_111_000#14, 0#14, .alu .shr 7 (.reg 0), 1),
      (0b00_010_001_001_110#14, 0#14, .alu .cne 1 (.reg 6), 1),
      (0b00_010_110_011_100#14, 0#14, .alu .carry 3 (.reg 4), 1),
      (0b00_010_111_010_101#14, 0#14, .alu .not 2 (.reg 5), 1),
      (0b00_011_0_110_11111#14, 0#14, .alu .mov 6 (.imm 31#16), 1),
      (0b00_011_1_001_10000#14, 0#14, .alu .add 1 (.imm 0xFFF0#16), 1),
      (0b00_100_000_011_100#14, 0#14, .ld 3 (.reg 4), 1),
      (0b00_100_001_011_100#14, 0#14, .st (.reg 4) 3, 1),
      (0b00_100_010_011_100#14, 0#14, .ldInc 3 4, 1),
      (0b00_100_011_011_100#14, 0#14, .stInc 4 3, 1),
      (0b00_100_100_011_100#14, 0#14, .illegal, 1),
      (0b00_101_0_01011010#14, 0#14, .ld 0 (.imm 0x5A#16), 1),
      (0b00_101_1_11111111#14, 0#14, .st (.imm 0xFF#16) 0, 1),
      (0b00_11_00_101_11111#14, 0#14, .branch .zero 5 (.rel 31), 1),
      (0b00_11_01_101_00000#14, 0#14, .branch .nonZero 5 (.rel 0), 1),
      (0b00_11_10_010_00101#14, 0#14, .branch .dec 2 (.rel 5), 1),
      (0b00_11_11_000_10000#14, 0#14, .branch .always 0 (.rel 16), 1)]).all
      (fun e => decide (decodeHammer e.1 e.2.1 = (e.2.2.1, e.2.2.2))) = true := by
  decide +kernel

/-- R232, R234: the register class and the near bits. -/
theorem test_decode_register_and_bit_classes :
    ([(0b01_1000_1111_1000#14, 0#14, HOp.alu .asr 15 (.reg 8), 1),
      (0b01_1110_0000_1001#14, 0#14, .alu .cleu 0 (.reg 9), 1),
      (0b01_1111_0000_1001#14, 0#14, .alu .carry 0 (.reg 9), 1),
      (0b10_00_1111111111#14, 0#14, .bitw 1023 .set, 1),
      (0b10_01_0000000101#14, 0#14, .bitw 5 .clr, 1),
      (0b10_10_1000000000#14, 0#14, .bitw 512 .tgl, 1),
      (0b10_11_1010000000#14, 0#14, .waitb 640 true, 1)]).all
      (fun e => decide (decodeHammer e.1 e.2.1 = (e.2.2.1, e.2.2.2))) = true := by
  decide +kernel

/-- R235, R236: the register and immediate group; the immediate's two high bits stand in the first word. -/
theorem test_decode_immediates :
    ([(0b11_00_0000_1001_11#14, 0x0005#14, HOp.alu .mov 9 (.imm 0xC005#16), 2),
      (0b11_00_0101_1111_00#14, 0x3FFF#14, .alu .xor 15 (.imm 0x3FFF#16), 2),
      (0b11_00_0110_0001_00#14, 0x0001#14, .alu .ceq 1 (.imm 1#16), 2),
      (0b11_00_1001_1111_10#14, 0x0001#14, .alu .cltu 15 (.imm 0x8001#16), 2),
      (0b11_00_1011_0000_01#14, 0x0000#14, .alu .cleu 0 (.imm 0x4000#16), 2),
      (0b11_00_1100_0111_01#14, 0x3FFF#14, .ld 7 (.imm 0x7FFF#16), 2),
      (0b11_00_1101_0111_00#14, 0x2000#14, .st (.imm 0x2000#16) 7, 2),
      (0b11_00_1110_0011_00#14, 0x2345#14, .branch .zero 3 (.abs 0x2345), 2),
      (0b11_00_1111_0011_00#14, 0x2345#14, .branch .nonZero 3 (.abs 0x2345), 2)]).all
      (fun e => decide (decodeHammer e.1 e.2.1 = (e.2.2.1, e.2.2.2))) = true := by
  decide +kernel

/-- R237: the bit group. -/
theorem test_decode_bit_group :
    ([(0b11_0100_0000_0100#14, 0x0FFF#14, HOp.bitr .mov 4 4095, 2),
      (0b11_0100_0001_0100#14, 0x0400#14, .stb 1024 4, 2),
      (0b11_0100_0100_1111#14, 0x0007#14, .bitr .xor 15 7, 2),
      (0b11_0100_0110_0000#14, 0x0800#14, .bitw 2048 .clr, 2),
      (0b11_0100_1000_0000#14, 0x1ABC#14, .waitb 0xABC true, 2),
      (0b11_0100_1000_0000#14, 0x0ABC#14, .waitb 0xABC false, 2),
      (0b11_0100_1001_1110#14, 0x3FFF#14, .branch .dec 14 (.abs 0x3FFF), 2),
      (0b11_0100_1010_0000#14, 0x1234#14, .jmp (.abs 0x1234), 2),
      (0b11_0100_1011_0000#14, 0x1234#14, .call (.abs 0x1234), 2),
      (0b11_0100_1100_0001#14, 0b000000_0011_1100#14, .macd true 3 12, 2),
      (0b11_0100_1101_0000#14, 0#14, .illegal, 2)]).all
      (fun e => decide (decodeHammer e.1 e.2.1 = (e.2.2.1, e.2.2.2))) = true := by
  decide +kernel

/-- R235, R238: the single-word groups. -/
theorem test_decode_single_words :
    ([(0b11_0101_1010_1011#14, 0#14, HOp.ld 10 (.reg 11), 1),
      (0b11_0110_1010_1011#14, 0#14, .st (.reg 10) 11, 1),
      (0b11_0111_1010_1111#14, 0#14, .alu .shl 10 (.imm 15#16), 1),
      (0b11_1001_1010_0001#14, 0#14, .alu .asr 10 (.imm 1#16), 1),
      (0b11_1010_0001_1111#14, 0#14, .mul 1 15, 1),
      (0b11_1011_0001_1111#14, 0#14, .mac false 1 15, 1),
      (0b11_1100_0001_1111#14, 0#14, .mac true 1 15, 1),
      (0b11_1101_0010_0011#14, 0#14, .tli 2 3, 1),
      (0b11_1110_0000_1001#14, 0#14, .alu .not 9 (.reg 9), 1),
      (0b11_1110_0001_1001#14, 0#14, .neg 9, 1),
      (0b11_1110_0010_1001#14, 0#14, .jmp (.reg 9), 1),
      (0b11_1110_0100_1001#14, 0#14, .rpti 9, 1),
      (0b11_1110_0111_1001#14, 0#14, .movh 9 false, 1),
      (0b11_1110_1000_1001#14, 0#14, .movl 9 true, 1),
      (0b11_1110_1011_1001#14, 0#14, .sath 9 true, 1),
      (0b11_1110_1100_1001#14, 0#14, .mova false 9, 1),
      (0b11_1110_1110_1001#14, 0#14, .swapb 9, 1),
      (0b11_1110_1111_1001#14, 0#14, .illegal, 1),
      (0b11_1111_00000000#14, 0#14, .ret, 1),
      (0b11_1111_00000101#14, 0#14, .svc, 1),
      (0b11_1111_00001000#14, 0#14, .str .movs, 1),
      (0b11_1111_00001011#14, 0#14, .str .scans, 1),
      (0b11_1111_00010001#14, 0#14, .clrAcc true, 1),
      (0b11_1111_00010010#14, 0#14, .adda, 1),
      (0b11_1111_00010011#14, 0#14, .illegal, 1)]).all
      (fun e => decide (decodeHammer e.1 e.2.1 = (e.2.2.1, e.2.2.2))) = true := by
  decide +kernel

/-! ### Ill-formed commands, one or more for each check -/

/-- A billet above 7 (R2). -/
theorem test_wf_billet :
    ([Instr.commitHold 8 0, .commitReceive 0 8 false, .sealSetReceive 0 8, .portLineStart 8 0, .fetchDataReturn 8 0 .none,
      .hammerRun .host 8 0, .hNop ⟨8, 0, 1⟩, .swageFill 8 0, .tongsGo 8 0, .memTrain 8, .fluxRequest 0 8 none 0 0 false,
      .pinCfgWrite 8 0 0#32, .compareFire 8 0, .capture 8 0, .tallyClear 8 0, .clockLoss 8 .anvil,
      .hammerRun (.hammer 8 0) 0 0, .registerWrite (.unit 8) 0 0#32]).all (fun c => !c.wf) = true := by decide

/-- A port or lane above 3; a fifth match; a stamp register above 4 (R74, R69). -/
theorem test_wf_port :
    ([Instr.portLineStart 0 4, .portMatch 0 4 0, .portMatch 0 0 4, .beamStampLatchRead .host 0 5, .groupDeadline 0 4 0,
      .strikeSwapRequest 0 4, .linkStateChange 0 4 true, .frameReceive 0 4 [], .gddr6Slot 0 4, .synthLock 0 4,
      .clockLoss 0 (.port 4), .domainClockReturn 0 (.laneTx 4)]).all (fun c => !c.wf) = true := by decide

/-- A hammer above 15, a hammer register above 15, an instruction of no words or of three (R192, R206, R225). -/
theorem test_wf_hammer :
    ([Instr.hammerReset .host 0 16, .hNop ⟨0, 16, 1⟩, .claim 0 16, .complete 0 16 5, .hNop ⟨0, 0, 0⟩, .hNop ⟨0, 0, 3⟩,
      .hMov ⟨0, 0, 1⟩ 16 (.reg 0), .hMov ⟨0, 0, 1⟩ 0 (.reg 16), .hCarry ⟨0, 0, 1⟩ 0 16, .hMul ⟨0, 0, 1⟩ 16 0,
      .hLd ⟨0, 0, 1⟩ 0 (.reg 16), .hRpti ⟨0, 0, 1⟩ 16, .hammerRun (.hammer 0 16) 0 0]).all (fun c => !c.wf) = true := by decide

/-- A short immediate above 31, a bit above 4,095, a repeat of 0 or of 257, a target outside its field (R231, R244). -/
theorem test_wf_operands :
    ([Instr.hMovi ⟨0, 0, 1⟩ 0 32, .hAddi ⟨0, 0, 1⟩ 0 32, .hSetb ⟨0, 0, 1⟩ 4096, .hMovb ⟨0, 0, 2⟩ 0 4096,
      .hRpt ⟨0, 0, 1⟩ 0, .hRpt ⟨0, 0, 1⟩ 257, .hJmp ⟨0, 0, 2⟩ (.abs 16384), .hJmp ⟨0, 0, 2⟩ (.page 4096),
      .hJmp ⟨0, 0, 1⟩ (.reg 16), .hCall ⟨0, 0, 1⟩ (.pageReg 8), .hBz ⟨0, 0, 1⟩ 0 (.rel 32)]).all (fun c => !c.wf) = true := by
  decide

/-- A register address outside BAR0 or not of a word (R38, R40); a commit context above 16 (R29). -/
theorem test_wf_addresses :
    ([Instr.registerWrite .host 0x1000000 0#32, .registerWrite .host 2 0#32, .broadcastAliasWrite .host 0x100000 0#32,
      .broadcastAliasWrite .host 0x10001 0#32, .lineCommitIssue .host 0x10002 0#32, .commitHold 0 17,
      .commitGroupIssue 0 17]).all (fun c => !c.wf) = true := by decide

/-- Indices of the units: a reflex, a pin-ownership word, an interrupt source, a software source, a wake input. -/
theorem test_wf_units :
    ([Instr.reflexArm 0 16, .pioOwnWrite .host 0 12 0#32, .irqSourceSense 0 31, .irqStateMessage 0 1024, .complete 0 0 1024,
      .icSrcWrite 0 31 0#32, .softwareSourceSet 0 16 0#32, .softwareSourceClear 0 16 0#32, .emberEnter [4096],
      .emberWake [0, 4096]]).all (fun c => !c.wf) = true := by decide

/-- A third Swage engine, a Tongs channel above 31, a requester above 11, an address of 4 Gbyte, no data or 65 bytes. -/
theorem test_wf_memory :
    ([Instr.swageCopy 0 2, .swageAbort 0 2, .tongsGo 0 32, .tongsTrigger 0 32, .gddr6WriteAccept 0 12 0 ⟨[5#8], false⟩,
      .gddr6WriteAccept 0 0 0x100000000 ⟨[5#8], false⟩, .gddr6WriteAccept 0 0 0 ⟨[], false⟩, .gddr6WriteAccept 0 0 0 ⟨List.replicate 65 5#8, false⟩,
      .gddr6ReadReturn 0 12 0 .none]).all (fun c => !c.wf) = true := by decide

/-- A voice above 511, a bus above 63, a converter above 31, a TDM input above 7 or with 17 slots, a flow above 15. -/
theorem test_wf_audio :
    ([Instr.keyon 512, .voiceReadReturn 512 0, .voiceReadReturn 0 0x4000000, .busGminRead 64, .busPeakRead 64,
      .converterSettled 32, .tdmFrameSync 8 [], .tdmFrameSync 0 (List.replicate 17 0#32), .receiveFrameEnd 0 16,
      .audioPacketBuild 8]).all (fun c => !c.wf) = true := by decide

/-- Mailbox words but sixteen; a pin above 47, a bank above 2, a matcher, compare, capture or Tally number or register. -/
theorem test_wf_pins :
    ([Instr.mailboxReceive [], .pinCfgWrite 0 48 0#32, .bankVselWrite 0 3 0#32, .bankSupplyChange 0 3 .off,
      .matcherConfigWrite 0 16 0 0#32, .matcherConfigWrite 0 0 0x18 0#32, .matcherConfigWrite 0 0 2 0#32,
      .compareArm 0 64 0 0#32, .compareArm 0 0 8 0#32, .compareStop 0 0 1 0#32, .compareWrap 0 64, .capture 0 16,
      .captureLatchRead .host 0 16, .tallyWrap 0 16, .tallyLatchRead .host 0 16 true]).all (fun c => !c.wf) = true := by decide

/-- BOOT_SEL above two bits, an SPI command above a byte, a fifth data port, a capture register but CTRL and FILT. -/
theorem test_wf_host_and_late :
    (Instr.resetRelease 4).wf = false ∧ (Instr.spiBadCommand 256).wf = false ∧ (Instr.dataPortAccess 4 none).wf = false ∧
    (Instr.dataPortPrefetch 4).wf = false ∧ (Instr.portBeamFlagChange 0 4 .activeStart).wf = false ∧
    (Instr.retrainComplete 8).wf = false ∧ (Instr.portEnWrite 0 4 0#32).wf = false ∧
    (Instr.laneCtrlWrite 0 4 0#32).wf = false ∧ (Instr.captureChannelWrite 0 0 8 0#32).wf = false ∧
    (Instr.captureChannelWrite 0 16 0 0#32).wf = false := by decide

/-! ### Single commands whose results the rules give -/

/-- Register `g` of 1.H3 after a command. -/
def regAfter (o : Host.Outcome State Fault Refusal) (g : Nat) : HWord :=
  match o with
  | .next t => (t.hammer 1 3).reg g
  | _ => 0#16

/-- A BAR0 register after a command. -/
def wordAfter (o : Host.Outcome State Fault Refusal) (a : Nat) : Word :=
  match o with
  | .next t => t.reg a
  | _ => 0#32

/-- R233: 0xFFFF + 1 wraps to 0, and CARRY writes its carry. -/
theorem test_add_wraps :
    regAfter (exec (.hAdd u13 15 (.imm 1#16)) (run13 [(15, 0xFFFF#16)])) 15 = 0#16 ∧
    regAfter (exec (.hCarry u13 15 2) (run13 [(15, 0xFFFF#16), (2, 1#16)])) 15 = 1#16 := by decide +kernel

/-- R233: a shift takes gs[3:0] places; ASR copies bit 15, SHR fills with zeros. -/
theorem test_shifts :
    regAfter (exec (.hAsr u13 15 (.reg 2)) (run13 [(15, 0x8000#16), (2, 0x1F#16)])) 15 = 0xFFFF#16 ∧
    regAfter (exec (.hShr u13 15 (.reg 2)) (run13 [(15, 0x8000#16), (2, 0x1F#16)])) 15 = 1#16 := by decide +kernel

/-- R233: 0x8000 is below 1 signed, not unsigned. -/
theorem test_compares :
    regAfter (exec (.hClt u13 15 (.imm 1#16)) (run13 [(15, 0x8000#16)])) 15 = 1#16 ∧
    regAfter (exec (.hCltu u13 15 (.imm 1#16)) (run13 [(15, 0x8000#16)])) 15 = 0#16 := by decide +kernel

/-- R241: the product of two signed registers in a0; SATH saturates what does not fit 32 bits. -/
theorem test_multiply_and_saturate :
    regAfter (exec (.hSath u13 1 false) (acc13 0x0080000000#40)) 1 = 0x7FFF#16 ∧
    regAfter (exec (.hSath u13 1 false) (acc13 0xFF7FFFFFFF#40)) 1 = 0x8000#16 ∧
    regAfter (exec (.hMovh u13 1 true) (acc13 0xFF8123FFFF#40)) 1 = 0x8123#16 := by decide +kernel

/-- R240: with y0 = 10, y1 = 20 and f = 0x80, TLI gives 10 + floor((10 × 128 + 128) / 256) = 15. -/
theorem test_tli :
    regAfter (exec (.hTli u13 1 2) { put (run13 [(2, 0x0080#16)]) [(haddr 1 3 0x1C, 5#32)] with
      banks := [(hidx 1 3 * 8192 + 5, 10#16), (hidx 1 3 * 8192 + 6, 20#16)] }) 1 = 15#16 := by decide +kernel

/-- R386: the HCRC of "123456789" is 0x29B1. -/
theorem test_crc16 : crc16 [0x31#8, 0x32#8, 0x33#8, 0x34#8, 0x35#8, 0x36#8, 0x37#8, 0x38#8, 0x39#8] = 0x29B1 := by
  decide +kernel

/-- FIPS 180-4: the SHA-256 of "abc" (PRESUMED, log 12). -/
theorem test_sha256 :
    sha256 [0x61#8, 0x62#8, 0x63#8] = 0xBA7816BF8F01CFEA414140DE5DAE2223B00361A396177A9CB410FF61F20015AD := by
  decide +kernel

end Sys2Proof.Tests
end

section
/-! Register results (R233): what each register operation computes, in the words of the rules, and the frame of the
register instructions. -/

namespace Sys2Proof.Machine

/-! ### What the operations compute -/

theorem aluValue_shl (d v : HWord) : aluValue .shl d v = BitVec.ofNat 16 (d.toNat * 2 ^ (v.toNat % 16)) := by
  refine BitVec.eq_of_toNat_eq ?_
  rw [BitVec.toNat_ofNat, ← Nat.shiftLeft_eq]
  exact BitVec.toNat_shiftLeft

theorem aluValue_shr (d v : HWord) : aluValue .shr d v = BitVec.ofNat 16 (d.toNat / 2 ^ (v.toNat % 16)) := by
  refine BitVec.eq_of_toNat_eq ?_
  rw [BitVec.toNat_ofNat, Nat.mod_eq_of_lt ((Nat.div_le_self _ _).trans_lt d.isLt), ← Nat.shiftRight_eq_div_pow]
  exact BitVec.toNat_ushiftRight d _

theorem aluValue_asr (d v : HWord) : aluValue .asr d v = BitVec.ofInt 16 (d.toInt / 2 ^ (v.toNat % 16)) := by
  change d.sshiftRight (v.toNat % 16) = _
  rw [BitVec.sshiftRight, Int.shiftRight_eq_div_pow]
  norm_cast

theorem aluValue_ceq (d v : HWord) : aluValue .ceq d v = truth (d == v) := rfl

theorem aluValue_cne (d v : HWord) : aluValue .cne d v = truth (d != v) :=
  congrArg truth decide_not

theorem aluValue_clt (d v : HWord) : aluValue .clt d v = truth (d.slt v) := rfl

theorem aluValue_cltu (d v : HWord) : aluValue .cltu d v = truth (d.ult v) := rfl

theorem aluValue_cle (d v : HWord) : aluValue .cle d v = truth (d.sle v) := rfl

theorem aluValue_cleu (d v : HWord) : aluValue .cleu d v = truth (d.ule v) := rfl

theorem aluValue_carry (d v : HWord) : aluValue .carry d v = truth (decide (65535 < d.toNat + v.toNat)) := rfl

/-- SWAPB turns the word by half its width. -/
theorem rotateLeft_eight (v : HWord) : v.rotateLeft 8 = v.extractLsb' 0 8 ++ v.extractLsb' 8 8 := by
  refine BitVec.eq_of_getLsbD_eq fun i hi => ?_
  rw [BitVec.getLsbD_rotateLeft, BitVec.getLsbD_append]
  by_cases low : i < 8
  · simp [low]
  · have high : i - 8 < 8 := by omega
    simp [low, hi, high]

/-- The model's sign helper reads the low bits as `BitVec.toInt` does. -/
theorem sx_five (n : Nat) : sx 5 n = (BitVec.ofNat 5 n).toInt := by
  rw [BitVec.toInt_eq_toNat_cond, BitVec.toNat_ofNat]
  unfold sx
  grind

theorem ofInt_sx_five (n : Nat) : BitVec.ofInt 16 (sx 5 n) = (BitVec.ofNat 5 n).signExtend 16 :=
  congrArg (BitVec.ofInt 16) (sx_five n)

/-! ### What the instructions change -/

section
variable {c : Instr} {s : State} {u : HAt}

/-- A register operation whose value is known: it goes to gd, and nothing else changes but the PC. -/
theorem runs_alu_value {f : AluOp} {gd : Nat} {x : Opd} {v : HWord}
    (hc : Sys2Proof.Machine.exec c s = .next (hIssue u (.alu f gd x) s)) (hi : Issues s u (gd :: Opd.regs x))
    (hv : aluValue f ((past s u).reg gd) (x.val (past s u)) = v) : Runs c s u ((past s u).setReg gd v) :=
  hv ▸ runs_alu hc hi

theorem runs_neg {gd : Nat} (hi : Issues s u [gd]) :
    Runs (.hNeg u gd) s u ((past s u).setReg gd (0#16 - (past s u).reg gd)) :=
  runs_onHammer (op := .neg gd) (f := fun y => y.setReg gd (0#16 - y.reg gd)) rfl hi (fun _ => rfl) rfl

theorem runs_swapb {gd : Nat} (hi : Issues s u [gd]) :
    Runs (.hSwapb u gd) s u
      ((past s u).setReg gd (((past s u).reg gd).extractLsb' 0 8 ++ ((past s u).reg gd).extractLsb' 8 8)) := by
  rw [← rotateLeft_eight]
  exact runs_onHammer (op := .swapb gd) (f := fun y => y.setReg gd ((y.reg gd).rotateLeft 8)) rfl hi (fun _ => rfl) rfl

/-- MOVI zero-extends its five bits. -/
theorem runs_movi {gd n : Nat} (hn : n < 32) (hi : Issues s u [gd]) :
    Runs (.hMovi u gd n) s u ((past s u).setReg gd (BitVec.ofNat 16 n)) :=
  runs_alu_value (x := .imm (BitVec.ofNat 16 (n % 32))) rfl hi (congrArg (BitVec.ofNat 16) (Nat.mod_eq_of_lt hn))

/-- ADDI sign-extends its five bits. -/
theorem runs_addi {gd n : Nat} (hi : Issues s u [gd]) :
    Runs (.hAddi u gd n) s u ((past s u).setReg gd ((past s u).reg gd + (BitVec.ofNat 5 n).signExtend 16)) :=
  runs_alu_value (x := .imm (BitVec.ofInt 16 (sx 5 n))) rfl hi (congrArg _ (ofInt_sx_five n))

end

/-- Settles O7: every register instruction writes the value of its operation to gd; the values are those above. -/
theorem hammerRegisterResults : Obligations.HammerRegisterResults := by
  refine ⟨fun s u gd gs x hi => ?_, fun s u gd x hi => ?_, fun s u gd gs x hi => ?_⟩
  · refine ⟨runs_alu (f := .mov) rfl hi, runs_alu (f := .add) rfl hi, runs_alu (f := .sub) rfl hi,
      runs_alu (f := .and) rfl hi, runs_alu (f := .or) rfl hi, runs_alu (f := .xor) rfl hi, ?_, ?_⟩
    · rintro rfl
      exact runs_alu (f := .not) rfl hi
    · rintro rfl imm5 h5
      exact ⟨runs_neg hi, runs_swapb hi, runs_movi h5 hi, runs_addi hi⟩
  · exact ⟨runs_alu_value rfl hi (aluValue_shl _ _), runs_alu_value rfl hi (aluValue_shr _ _),
      runs_alu_value rfl hi (aluValue_asr _ _)⟩
  · refine ⟨runs_alu_value rfl hi (aluValue_ceq _ _), runs_alu_value rfl hi (aluValue_cne _ _),
      runs_alu_value rfl hi (aluValue_clt _ _), runs_alu_value rfl hi (aluValue_cltu _ _),
      runs_alu_value rfl hi (aluValue_cle _ _), runs_alu_value rfl hi (aluValue_cleu _ _), ?_⟩
    rintro rfl
    exact runs_alu_value rfl hi (aluValue_carry _ _)

end Sys2Proof.Machine
end

section
/-! System instructions (R193, R217, R249, R250): traps from RUNNING and the double trap. -/

namespace Sys2Proof.Machine

/-! ### The double trap (R217) -/

/-- The hammer after a double trap that would have saved `pc`. -/
def Hammer.doubleTrapped (x : Hammer) (pc : Nat) : Hammer :=
  { x with run := .halted, wait := none, rptLeft := 0, trapDue := none, haltAsk := false, pc := pc % 2 ^ 14 }

/-- With nothing waiting for the boundary, a double trap has nothing to forget. -/
theorem Hammer.doubleTrapped_of_calm {x : Hammer} (hx : x.calm) (pc : Nat) :
    x.doubleTrapped pc = { x with run := .halted, wait := none, rptLeft := 0, pc := pc % 2 ^ 14 } := by
  obtain ⟨noHalt, noTrap, -⟩ := hx
  simp only [Hammer.doubleTrapped, noHalt, noTrap]

theorem Hammer.doubleTrapped_calm {x : Hammer} (hx : x.calm) (pc : Nat) : (x.doubleTrapped pc).calm := by
  obtain ⟨-, -, noFail⟩ := hx
  exact ⟨rfl, rfl, noFail⟩

theorem getLsbD_reg_orReg {s : State} {a i : Nat} (h : (s.reg a).getLsbD i = true) (a' m : Nat) :
    ((s.orReg a' m).reg a).getLsbD i = true := by
  unfold State.orReg
  rw [State.reg_setReg]
  split
  · next e => rw [BitVec.getLsbD_or, ← e, h, Bool.true_or]
  · exact h

theorem reg_takeTrigger (s : State) (cause a : Nat) : (takeTrigger s cause).reg a = s.reg a := by
  unfold takeTrigger
  split <;> rfl

/-- A local fault clears no bit of a register. -/
theorem getLsbD_reg_localFault {s : State} {a i : Nat} (h : (s.reg a).getLsbD i = true) (k : Nat) :
    ((localFault s k).reg a).getLsbD i = true := by
  unfold localFault
  split
  · have hevt : ((qchEvt s 8).reg a).getLsbD i = true := getLsbD_reg_orReg h _ _
    dsimp only
    split
    · rw [reg_takeTrigger]
      exact hevt
    · exact hevt
  · exact h

theorem getLsbD_reg_setStat_dbltrap (s : State) (b h : Nat) :
    ((setStat s b h 8).reg (haddr b h 4)).getLsbD 8 = true := by
  unfold setStat State.orReg
  rw [State.reg_setReg_same, BitVec.getLsbD_or]
  exact Bool.or_eq_true_iff.mpr (.inr rfl)

section
variable {s : State} {b h cause pc : Nat}

theorem trapEnter_double (ht : (s.hammer b h).trapAct = true) :
    trapEnter s b h cause pc =
      localFault (setStat (s.setHammer b h ((s.hammer b h).doubleTrapped pc)) b h 8) 0 := by
  unfold trapEnter
  exact if_pos ht

theorem trapEnter_double_hammers (ht : (s.hammer b h).trapAct = true) :
    (trapEnter s b h cause pc).hammers = (s.setHammer b h ((s.hammer b h).doubleTrapped pc)).hammers := by
  rw [trapEnter_double ht]
  exact (localFault_side (setStat_side (Side.refl _))).hammers_eq

theorem trapEnter_double_hammer (ht : (s.hammer b h).trapAct = true) :
    (trapEnter s b h cause pc).hammer b h = (s.hammer b h).doubleTrapped pc := by
  unfold State.hammer
  rw [trapEnter_double_hammers ht]
  exact hammer_setHammer

theorem trapEnter_double_dbltrap (ht : (s.hammer b h).trapAct = true) :
    ((trapEnter s b h cause pc).reg (haddr b h 4)).getLsbD 8 = true := by
  rw [trapEnter_double ht]
  exact getLsbD_reg_localFault (getLsbD_reg_setStat_dbltrap _ b h) 0

end

/-! ### The issue of a system instruction -/

section
variable {c : Instr} {s : State} {u : HAt} {op : HOp} {cause pc : Nat}

theorem Issues.noStep {regs : List Nat} (hi : Issues s u regs) : stepsAsked s = [] := by
  obtain ⟨-, -, noStep, -, -⟩ := hi
  exact noStep

/-- An instruction that ends in a double trap halts the hammer, with DBLTRAP (STAT bit 8). -/
theorem halts_of_doubleTrap (hc : Sys2Proof.Machine.exec c s = .next (hIssue u op s)) (hi : Issues s u op.regs)
    (ht : (s.hammer u.b u.h).trapAct = true)
    (e : opRun (s.setHammer u.b u.h (past s u)) u.b u.h (s.hammer u.b u.h).pc u.words op =
      .trap (trapEnter (s.setHammer u.b u.h (past s u)) u.b u.h cause pc)) :
    ∃ t, Sys2Proof.Machine.exec c s = .next t ∧
      t.hammer u.b u.h =
        { past s u with run := .halted, wait := none, rptLeft := 0, pc := (t.hammer u.b u.h).pc } ∧
      (t.reg (haddr u.b u.h 4)).getLsbD 8 = true := by
  have noStep : (past s u).stepReq = false := past_stepReq hi.noStep
  have calm : (past s u).calm := calm_of hi rfl
  have ht' : ((s.setHammer u.b u.h (past s u)).hammer u.b u.h).trapAct = true := by
    rw [hammer_setHammer]
    exact ht
  have hx := trapEnter_double_hammer (cause := cause) (pc := pc) ht'
  rw [hammer_setHammer] at hx
  have hstep := stepsAsked_same (stepsAsked_setHammer (stepsAsked_setHammer hi.noStep noStep)
    (by rw [hammer_setHammer]; exact noStep)) (trapEnter_double_hammers (cause := cause) (pc := pc) ht')
  refine ⟨_, hc, ?_⟩
  rw [hIssue_trap hi e (hx ▸ Hammer.doubleTrapped_calm calm pc) hstep]
  refine ⟨?_, trapEnter_double_dbltrap ht'⟩
  rw [hx, Hammer.doubleTrapped_of_calm calm]

/-- SVC and TRAP enter their trap with the address of the following instruction, which the PC already holds. -/
theorem opSystem_past :
    opSystem (s.setHammer u.b u.h (past s u)) u.b u.h cause =
      .trap (trapEnter (s.setHammer u.b u.h (past s u)) u.b u.h cause (past s u).pc) := by
  unfold opSystem
  rw [hammer_setHammer]

/-- A saved PC counts modulo the program memory's size. -/
theorem TrapsAt.of_mod (k : TrapsAt c s u.b u.h cause (pc % 2 ^ 14)) : TrapsAt c s u.b u.h cause pc := by
  unfold TrapsAt at k
  rw [Nat.mod_mod] at k
  exact k

/-- HALT with nothing to wait for (R193). -/
theorem runs_halt (hi : Issues s u []) (hs : (s.hammer u.b u.h).stores = []) (hk : commitStalled s u.b u.h = false) :
    Runs (.hHalt u) s u { past s u with run := if (past s u).ie then .sleeping else .halted } := by
  refine runs_done (op := .halt) rfl hi ?_ rfl
  have done : afterStores (s.setHammer u.b u.h (past s u)) u.b u.h = .done (s.setHammer u.b u.h (past s u)) :=
    afterStores_none (by rw [hammer_setHammer]; exact hs) hk
  change opHalt _ _ _ = _
  unfold opHalt
  rw [done]
  simp only [Issue.andThen, hammer_setHammer]

end

/-- Settles O15: NOP, EI, DI and HALT change the hammer's own record; the others enter `trapEnter`, which is the trap of
their cause while TRAPACT = 0 and the double trap while TRAPACT = 1. -/
theorem hammerSystem : Obligations.HammerSystem := by
  intro s u hi hs hk
  refine ⟨runs_same (op := .nop) rfl hi rfl,
    runs_onHammer (op := .ei) (f := fun y => { y with ie := true }) rfl hi (fun _ => rfl) rfl,
    runs_onHammer (op := .di) (f := fun y => { y with ie := false }) rfl hi (fun _ => rfl) rfl,
    fun on => ?_, fun off => ?_, fun ht => ?_, fun ht c hc => ?_⟩
  · simpa only [on, if_true] using runs_halt hi hs hk
  · simpa only [off, Bool.false_eq_true, if_false] using runs_halt hi hs hk
  · exact ⟨(trapsAt_of (op := .svc) rfl hi ht opSystem_past).of_mod,
      (trapsAt_of (op := .trap) rfl hi ht opSystem_past).of_mod, trapsAt_of (op := .illegal) rfl hi ht rfl⟩
  · rcases hc with rfl | rfl | rfl
    · exact halts_of_doubleTrap (op := .svc) rfl hi ht opSystem_past
    · exact halts_of_doubleTrap (op := .trap) rfl hi ht opSystem_past
    · exact halts_of_doubleTrap (op := .illegal) rfl hi ht rfl

end Sys2Proof.Machine
end

section
/-! EMBER (R270-R273, R438, R477): what the entry stops and what it leaves, the timer, and what the last stages of a
wake leave. -/

namespace Sys2Proof.Machine

/-! ### Folds over billets and units -/

/-- A fact that one element's turn brings about, and that no turn undoes, holds after the fold. -/
theorem foldl_reaches {σ α : Type} {P : σ → Prop} {f : σ → α → σ} {l : List α} {a : α}
    (keeps : ∀ s, ∀ e ∈ l, P s → P (f s e)) (ha : a ∈ l) (makes : ∀ s, P (f s a)) (s : σ) : P (l.foldl f s) := by
  induction l generalizing s with
  | nil => exact absurd ha List.not_mem_nil
  | cons e l ih =>
    have keepsTail : ∀ s, ∀ e ∈ l, P s → P (f s e) := fun s e' h' => keeps s e' (List.mem_cons_of_mem _ h')
    rcases List.mem_cons.mp ha with rfl | h
    · exact List.foldlRecOn l f (makes s) (fun s hs e' h' => keepsTail s e' h' hs)
    · exact ih keepsTail h (f s e)

theorem present_of_mem_upto {s : State} {b : Nat} (h : b ∈ upto s.n) : s.present b = true :=
  decide_eq_true (List.mem_range.mp h)

theorem mem_upto_of_present {s : State} {b : Nat} (h : s.present b = true) : b ∈ upto s.n :=
  List.mem_range.mpr (of_decide_eq_true h)

theorem any_upto {n : Nat} {p : Nat → Bool} : (upto n).any p = true ↔ ∃ k, k < n ∧ p k = true := by
  simp only [upto, List.any_eq_true, List.mem_range]

/-! ### Fields of a register word -/

theorem getLsbD_setFld_below {w : Word} {hi lo v i : Nat} (h : i < lo) (hlo : lo < 32) :
    (setFld w hi lo v).getLsbD i = w.getLsbD i := by
  have hi32 : i < 32 := h.trans hlo
  have clear : ∀ m : Nat, (BitVec.ofNat 32 (m <<< lo)).getLsbD i = false := fun m => by
    rw [BitVec.getLsbD_ofNat, Nat.testBit_shiftLeft, decide_eq_false (by omega : ¬ i ≥ lo), Bool.false_and,
      Bool.and_false]
  simp only [setFld, BitVec.getLsbD_or, BitVec.getLsbD_and, BitVec.getLsbD_not, clear, hi32, decide_true,
    Bool.not_false, Bool.and_true, Bool.or_false]

theorem fld_setFld_same {w : Word} {hi lo v : Nat} (hlo : lo ≤ hi) (hhi : hi < 32) (hv : v < 2 ^ (hi + 1 - lo)) :
    fld (setFld w hi lo v) hi lo = v := by
  refine Nat.eq_of_testBit_eq fun i => ?_
  unfold fld bits
  rw [Nat.testBit_mod_two_pow, Nat.testBit_shiftRight]
  by_cases hin : i < hi + 1 - lo
  · have h32 : lo + i < 32 := by omega
    rw [decide_eq_true hin, Bool.true_and, ← BitVec.getLsbD]
    have ones : (2 ^ (hi + 1 - lo) - 1).testBit i = true := by
      rw [Nat.testBit_two_pow_sub_one]
      exact decide_eq_true hin
    simp only [setFld, BitVec.getLsbD_or, BitVec.getLsbD_and, BitVec.getLsbD_not, BitVec.getLsbD_ofNat,
      Nat.testBit_shiftLeft, h32, decide_true, Bool.true_and, Nat.le_add_right, ge_iff_le,
      Nat.add_sub_cancel_left, ones, Bool.not_true, Bool.and_false, Bool.false_or, Nat.mod_eq_of_lt hv]
  · rw [decide_eq_false hin, Bool.false_and]
    exact (Nat.testBit_lt_two_pow (hv.trans_le (Nat.pow_le_pow_right (by decide) (by omega)))).symm

/-! ### Stopping -/

/-- `t` comes from `s` by stopping: what is off, not running or down in `s` is so in `t`, and the pins, the OTP, the
flash and the waiting commands are those of `s`. -/
structure Stops (s t : State) : Prop where
  variant : t.variant = s.variant
  pins : t.pins = s.pins
  otp : t.otp = s.otp
  flash : t.flash = s.flash
  pending : t.pending = s.pending
  off : ∀ b h, (s.hammer b h).run = .off → (t.hammer b h).run = .off
  still : ∀ b p, (s.port b p).running = false → (t.port b p).running = false
  down : ∀ b l, s.lane b l = .init → t.lane b l = .init

theorem Stops.refl (s : State) : Stops s s :=
  ⟨rfl, rfl, rfl, rfl, rfl, fun _ _ h => h, fun _ _ h => h, fun _ _ h => h⟩

theorem Stops.trans {r s t : State} (h1 : Stops r s) (h2 : Stops s t) : Stops r t where
  variant := h2.variant.trans h1.variant
  pins := h2.pins.trans h1.pins
  otp := h2.otp.trans h1.otp
  flash := h2.flash.trans h1.flash
  pending := h2.pending.trans h1.pending
  off b h k := h2.off b h (h1.off b h k)
  still b p k := h2.still b p (h1.still b p k)
  down b l k := h2.down b l (h1.down b l k)

/-- What events reach does not run again what is stopped. -/
theorem Stops.of_side {s t : State} (h : Side s t) : Stops s t where
  variant := h.variant_eq
  pins := h.pins_eq
  otp := h.otp_eq
  flash := h.flash_eq
  pending := h.pending_eq
  off b i k := by
    unfold State.hammer
    rw [h.hammers_eq]
    exact k
  still b p k := by
    unfold State.port
    rw [h.ports_eq]
    exact k
  down b l k := by
    unfold State.lane
    rw [h.lanes_eq]
    exact k

theorem Stops.foldl {α : Type} {r s : State} {f : State → α → State} {l : List α} (h : Stops r s)
    (hf : ∀ s e, Stops s (f s e)) : Stops r (l.foldl f s) :=
  List.foldlRecOn l f h fun t ht e _ => ht.trans (hf t e)

section
variable (s : State) (b p : Nat)

theorem stops_setHammer {h : Nat} {x : Hammer} (hx : (s.hammer b h).run = .off → x.run = .off) :
    Stops s (s.setHammer b h x) := by
  refine { Stops.refl s with off := fun b' h' k => ?_ }
  by_cases e : hidx b' h' = hidx b h
  · have same : ∀ t : State, t.hammer b' h' = t.hammer b h := fun t => congrArg (Tbl.get Hammer.init t.hammers) e
    rw [same] at k ⊢
    rw [State.hammer_setHammer_same]
    exact hx k
  · rw [State.hammer_setHammer_other (h := e)]
    exact k

theorem stops_setPort {x : Port} (hx : x.running = false) : Stops s (s.setPort b p x) := by
  refine { Stops.refl s with still := fun b' p' k => ?_ }
  by_cases e : pidx b' p' = pidx b p
  · have same : ∀ t : State, t.port b' p' = t.port b p := fun t => congrArg (Tbl.get (fun _ => Port.init) t.ports) e
    rw [same, State.port_setPort_same]
    exact hx
  · rw [State.port_setPort_other (h := e)]
    exact k

theorem stops_setLane : Stops s (s.setLane b p .init) := by
  refine { Stops.refl s with down := fun b' l' k => ?_ }
  by_cases e : 4 * b' + l' = 4 * b + p
  · have same : ∀ t : State, t.lane b' l' = t.lane b p := fun t => congrArg (Tbl.get (fun _ => Lane.init) t.lanes) e
    rw [same, State.lane_setLane_same]
  · rw [State.lane_setLane_other (hn := e)]
    exact k

theorem stops_setOut (x : PortOut) : Stops s (s.setOut b p x) := { Stops.refl s with }

theorem stops_stopPort : Stops s (stopPort s b p) :=
  (stops_setPort s b p rfl).trans (.of_side (setFreq_side (Side.refl _)))

theorem stops_endWait {h : Nat} {miss noRun : Bool} (hr : (s.hammer b h).run = .waiting) :
    Stops s (endWait s b h miss noRun) := by
  unfold endWait
  dsimp only
  split
  · exact .refl s
  · have ended := fun x => stops_setHammer s b (h := h) (x := x) (fun k => by rw [hr] at k; cases k)
    split
    · exact (ended _).trans (.of_side (raiseDlMiss_side (Side.refl _)))
    · exact ended _

theorem stops_waitersStop : Stops s (waitersStop s b p) := by
  refine Stops.foldl (.refl s) fun s h => ?_
  dsimp only
  split
  · next hr _ =>
    split
    · exact stops_endWait s b hr
    · exact .refl s
  · exact .refl s

theorem stops_lppPortStop : Stops s (lppPortStop s b p) := by
  unfold lppPortStop lppSet
  dsimp only
  have set : ∀ x, Stops s (s.setLegacy b x) := fun x => { Stops.refl s with }
  split
  · split
    · exact (set _).trans (.of_side (State.orReg_side (Side.refl _)))
    · exact set _
  · exact .refl s

theorem stops_discardStopped (fl : Option (Nat × Nat)) : Stops s (discardStopped s b p fl) :=
  Stops.foldl (.refl s) fun s q =>
    Stops.foldl (s := s.setCursor b q _) { Stops.refl s with } fun s _ => .of_side (strikeSkip_side (Side.refl s))

theorem stops_wbCount : Stops s (wbCount s b p) := .of_side (wbCount_side (Side.refl s))

theorem stops_dropSlot (n k : Nat) : Stops s (dropSlot s b n k) := by
  unfold dropSlot
  dsimp only
  have set : ∀ x, Stops s (s.setVideo b n x) := fun x => { Stops.refl s with }
  split
  · exact (set _).trans (.of_side (vidBufstat_side (Side.refl _)))
  · exact .refl s

theorem stops_wbLose : Stops s (wbLose s b p) := (stops_setOut s b p _).trans (stops_wbCount _ b p)

theorem stops_wbStop : Stops s (wbStop s b p) := by
  unfold wbStop
  extract_lets o old s1 _ s2
  have counted : Stops s s1 := Stops.foldl (.refl s) fun s _ => stops_wbCount s b p
  have dropped : Stops s s2 := by
    refine counted.trans ?_
    unfold s2
    split
    · split
      · exact .refl s1
      · split
        · exact (stops_setOut s1 b p _).trans (stops_dropSlot _ b _ _)
        · exact stops_setOut s1 b p _
    · exact .refl s1
  split
  · exact (dropped.trans (stops_setOut s2 b p _)).foldl fun s _ => stops_wbLose s b p
  · exact dropped

theorem stops_portGone : Stops s (portGone s b p) :=
  (((stops_waitersStop s b p).trans (stops_lppPortStop _ b p)).trans (stops_discardStopped _ b p none)).trans
    ((stops_wbStop _ b p).trans (stops_setOut _ b p _))

end

/-! ### What the entry stops (R271, R477) -/

/-- The pad of pin `b.n` takes the sleep state that `s` gives it, if its bank is supplied (R438). -/
def sleepPin (s t : State) (b n : Nat) : State :=
  if (s.bank b (n / 16)).supply = .off then t else t.setPin b n { t.pin b n with sleep := some (sleepOf s b n) }

/-- The hammers of a billet but its keeper go off (R271). -/
def hammersOff (s : State) (b : Nat) : State :=
  (upto 16).foldl (fun s h => if h = 0 then s else s.setHammer b h { Hammer.init (hidx b h) with run := .off }) s

/-- A port stops, with what depends on it if it ran (R271). -/
def portHalted (s : State) (b p : Nat) : State :=
  if (s.port b p).running then portGone (stopPort s b p) b p else stopPort s b p

/-- A port stops and its lane goes down (R271). -/
def portDown (s : State) (b p : Nat) : State := laneLink ((portHalted s b p).setLane b p .init) b p false

/-- The ports of a billet stop and its lanes go down (R271). -/
def portsDown (s : State) (b : Nat) : State := (upto 4).foldl (fun s p => portDown s b p) s

theorem sleepPins_eq (s : State) :
    sleepPins s = s.eachBillet (fun t b => (upto 48).foldl (fun t n => sleepPin s t b n) t) := rfl

theorem emberStops_eq (s : State) :
    emberStops s = linkJudge (((sleepPins s).eachBillet hammersOff).eachBillet portsDown) := rfl

theorem Stops.eachBillet {r s : State} {f : State → Nat → State} (h : Stops r s) (hf : ∀ s b, Stops s (f s b)) :
    Stops r (s.eachBillet f) := h.foldl hf

theorem stops_hammersOff (s : State) (b : Nat) : Stops s (hammersOff s b) := by
  refine Stops.foldl (.refl s) fun s h => ?_
  split
  · exact .refl s
  · exact stops_setHammer s b fun _ => rfl

theorem stops_portHalted (s : State) (b p : Nat) : Stops s (portHalted s b p) := by
  unfold portHalted
  split
  · exact (stops_stopPort s b p).trans (stops_portGone _ b p)
  · exact stops_stopPort s b p

theorem stops_portDown (s : State) (b p : Nat) : Stops s (portDown s b p) :=
  ((stops_portHalted s b p).trans (stops_setLane _ b p)).trans (.of_side (laneLink_side (Side.refl _)))

theorem stops_portsDown (s : State) (b : Nat) : Stops s (portsDown s b) :=
  (Stops.refl s).foldl fun s p => stops_portDown s b p

theorem stops_emberStops (s : State) : Stops (sleepPins s) (emberStops s) := by
  rw [emberStops_eq]
  exact (((Stops.refl _).eachBillet stops_hammersOff).eachBillet stops_portsDown).trans
    (.of_side (linkJudge_side (Side.refl _)))

theorem pinsOnly_setPin {s t : State} (h : t = { s with pins := t.pins }) (b n : Nat) (x : Pin) :
    t.setPin b n x = { s with pins := (t.setPin b n x).pins } :=
  congrArg (fun u : State => { u with pins := (t.setPin b n x).pins }) h

theorem pinsOnly_sleepPins (s : State) : sleepPins s = { s with pins := (sleepPins s).pins } := by
  rw [sleepPins_eq]
  refine List.foldlRecOn (motive := fun t : State => t = { s with pins := t.pins }) _ _ rfl fun t ht b _ => ?_
  refine List.foldlRecOn (motive := fun t : State => t = { s with pins := t.pins }) _ _ ht fun t ht n _ => ?_
  unfold sleepPin
  split
  · exact ht
  · exact pinsOnly_setPin ht b n _

theorem present_sleepPins (s : State) (b : Nat) : (sleepPins s).present b = s.present b := by
  rw [pinsOnly_sleepPins]
  rfl

section
variable {s : State} {b : Nat}

theorem State.eachBillet_reaches {P : State → Prop} {f : State → Nat → State} (hb : s.present b = true)
    (keeps : ∀ t b', P t → P (f t b')) (makes : ∀ t, P (f t b)) : P (s.eachBillet f) :=
  foldl_reaches (fun t b' _ => keeps t b') (mem_upto_of_present hb) makes s

theorem sleepPin_sleeps (t : State) {n : Nat} (hs : (s.bank b (n / 16)).supply ≠ .off) :
    ((sleepPin s t b n).pin b n).sleep = some (sleepOf s b n) := by
  unfold sleepPin
  rw [if_neg hs, State.pin_setPin_same]

theorem sleepPin_keeps {t : State} {n b' n' : Nat} (hn : n < 48) (hn' : n' < 48)
    (h : (t.pin b n).sleep = some (sleepOf s b n)) :
    ((sleepPin s t b' n').pin b n).sleep = some (sleepOf s b n) := by
  unfold sleepPin
  split
  · exact h
  · by_cases e : 48 * b + n = 48 * b' + n'
    · obtain ⟨rfl, rfl⟩ : b = b' ∧ n = n' := by omega
      rw [State.pin_setPin_same]
    · rw [State.pin_setPin_other (hn := e)]
      exact h

/-- The pads of a supplied bank sleep (R438). -/
theorem emberStops_sleep {n : Nat} (hb : s.present b = true) (hn : n < 48) (hs : (s.bank b (n / 16)).supply ≠ .off) :
    ((emberStops s).pin b n).sleep = some (sleepOf s b n) := by
  have asleep : ((sleepPins s).pin b n).sleep = some (sleepOf s b n) := by
    rw [sleepPins_eq]
    refine State.eachBillet_reaches (P := fun t => (t.pin b n).sleep = some (sleepOf s b n)) hb (fun t b' h => ?_)
      fun t => ?_
    · exact List.foldlRecOn (motive := fun t : State => (t.pin b n).sleep = some (sleepOf s b n)) _ _ h
        fun t h n' hn' => sleepPin_keeps hn (List.mem_range.mp hn') h
    · exact foldl_reaches (P := fun t => (t.pin b n).sleep = some (sleepOf s b n))
        (fun t n' hn' h => sleepPin_keeps hn (List.mem_range.mp hn') h) (List.mem_range.mpr hn)
        (fun t => sleepPin_sleeps t hs) t
  unfold State.pin at asleep ⊢
  rw [(stops_emberStops s).pins]
  exact asleep

/-- The hammers but the keepers are off (R271). -/
theorem emberStops_off {h : Nat} (hb : s.present b = true) (h0 : 0 < h) (h16 : h < 16) :
    ((emberStops s).hammer b h).run = .off := by
  have turn : ∀ t, ((hammersOff t b).hammer b h).run = .off := by
    refine foldl_reaches (P := fun t : State => (t.hammer b h).run = .off) (fun t i _ k => ?_)
      (List.mem_range.mpr h16) fun t => ?_
    · split
      · exact k
      · exact (stops_setHammer t b fun _ => rfl).off b h k
    · rw [if_neg (Nat.ne_of_gt h0), State.hammer_setHammer_same]
  have off : (((sleepPins s).eachBillet hammersOff).hammer b h).run = .off :=
    State.eachBillet_reaches (P := fun t => (t.hammer b h).run = .off) (present_sleepPins s b ▸ hb)
      (fun t b' => (stops_hammersOff t b').off b h) turn
  rw [emberStops_eq]
  exact (((Stops.refl _).eachBillet stops_portsDown).trans (.of_side (linkJudge_side (Side.refl _)))).off b h off

/-- After its turn a port stands and its lane is down. -/
theorem portDown_stopped (s : State) (b p : Nat) :
    ((portDown s b p).port b p).running = false ∧ (portDown s b p).lane b p = .init := by
  have stopped : ((stopPort s b p).port b p).running = false :=
    (Stops.of_side (setFreq_side (Side.refl _))).still b p (congrArg Port.running (State.port_setPort_same s b p _))
  have halted : ((portHalted s b p).port b p).running = false := by
    unfold portHalted
    split
    · exact (stops_portGone _ b p).still b p stopped
    · exact stopped
  have linked := fun t => Stops.of_side (laneLink_side (b := b) (l := p) (up := false) (Side.refl t))
  exact ⟨(linked _).still b p halted, (linked _).down b p (State.lane_setLane_same _ b p _)⟩

/-- The ports stand and the lanes are down (R271). -/
theorem emberStops_stopped {p : Nat} (hb : s.present b = true) (hp : p < 4) :
    ((emberStops s).port b p).running = false ∧ (emberStops s).lane b p = .init := by
  have keeps : ∀ {t u : State}, Stops t u → ((t.port b p).running = false ∧ t.lane b p = .init) →
      (u.port b p).running = false ∧ u.lane b p = .init := fun h k => ⟨h.still b p k.1, h.down b p k.2⟩
  have turn : ∀ t, ((portsDown t b).port b p).running = false ∧ (portsDown t b).lane b p = .init :=
    foldl_reaches (P := fun t : State => (t.port b p).running = false ∧ t.lane b p = .init)
      (fun t p' _ => keeps (stops_portDown t b p')) (List.mem_range.mpr hp) fun t => portDown_stopped t b p
  have hb' : ((sleepPins s).eachBillet hammersOff).present b = true := by
    rw [← present_sleepPins] at hb
    unfold State.present at hb ⊢
    rw [((Stops.refl _).eachBillet stops_hammersOff).variant]
    exact hb
  rw [emberStops_eq]
  exact keeps (.of_side (linkJudge_side (Side.refl _)))
    (State.eachBillet_reaches (P := fun t => (t.port b p).running = false ∧ t.lane b p = .init) hb'
      (fun t b' => keeps (stops_portsDown t b')) turn)

end

/-- The entry leaves the OTP, the flash and the waiting commands. -/
theorem emberStops_leaves (s : State) :
    (emberStops s).otp = s.otp ∧ (emberStops s).flash = s.flash ∧ (emberStops s).pending = s.pending := by
  have stops := stops_emberStops s
  rw [stops.otp, stops.flash, stops.pending, pinsOnly_sleepPins]
  exact ⟨rfl, rfl, rfl⟩

/-! ### What the entry leaves where no port runs -/

/-- `t` is `s` but for registers, hammers, ports, pins, lanes and the twin's link, and the keepers are as before. -/
structure LeavesKeepers (s t : State) : Prop where
  frame : t = { s with regs := t.regs, hammers := t.hammers, ports := t.ports, pins := t.pins, lanes := t.lanes,
                       quench := t.quench }
  keeper : ∀ b, t.hammer b 0 = s.hammer b 0

theorem LeavesKeepers.refl (s : State) : LeavesKeepers s s := ⟨rfl, fun _ => rfl⟩

theorem LeavesKeepers.trans {r s t : State} (h1 : LeavesKeepers r s) (h2 : LeavesKeepers s t) :
    LeavesKeepers r t := by
  refine ⟨?_, fun b => (h2.keeper b).trans (h1.keeper b)⟩
  have e := h2.frame
  rw [h1.frame] at e
  exact e

section
variable {r s t : State}

theorem LeavesKeepers.setReg (h : LeavesKeepers r s) (a : Nat) (v : Word) : LeavesKeepers r (s.setReg a v) :=
  h.trans ⟨rfl, fun _ => rfl⟩

theorem LeavesKeepers.setQch (h : LeavesKeepers r s) (x : Quench) : LeavesKeepers r (setQch s x) :=
  h.trans ⟨rfl, fun _ => rfl⟩

theorem LeavesKeepers.setPort (h : LeavesKeepers r s) (b p : Nat) (x : Port) : LeavesKeepers r (s.setPort b p x) :=
  h.trans ⟨rfl, fun _ => rfl⟩

theorem LeavesKeepers.setLane (h : LeavesKeepers r s) (b l : Nat) (x : Lane) : LeavesKeepers r (s.setLane b l x) :=
  h.trans ⟨rfl, fun _ => rfl⟩

theorem LeavesKeepers.setHammer (h : LeavesKeepers r s) (b : Nat) {i : Nat} (h0 : i ≠ 0) (h16 : i < 16) (x : Hammer) :
    LeavesKeepers r (s.setHammer b i x) :=
  h.trans ⟨rfl, fun b' => State.hammer_setHammer_other s x (by unfold hidx; omega)⟩

theorem LeavesKeepers.ite {c : Prop} [Decidable c] (h1 : LeavesKeepers r s) (h2 : LeavesKeepers r t) :
    LeavesKeepers r (if c then s else t) := by
  split
  · exact h1
  · exact h2

theorem leavesKeepers_setSt (h : LeavesKeepers r s) (n : Nat) : LeavesKeepers r (setSt s n) := by
  unfold setSt
  extract_lets old _ s1 s2
  have entered : LeavesKeepers r s1 := h.setQch _
  have noted : LeavesKeepers r s2 := .ite (entered.setReg _ _) entered
  exact .ite noted (noted.setQch _)

theorem leavesKeepers_resyncFail (h : LeavesKeepers r s) : LeavesKeepers r (resyncFail s) := (h.setReg _ _).setReg _ _

theorem leavesKeepers_linkDown (h : LeavesKeepers r s) : LeavesKeepers r (linkDown s) := by
  unfold linkDown
  extract_lets s1 _ s2
  have failed : LeavesKeepers r s1 := .ite (leavesKeepers_resyncFail h) h
  have down : LeavesKeepers r s2 := failed.setQch _
  exact .ite (leavesKeepers_setSt down 1) down

theorem leavesKeepers_pairCheck (h : LeavesKeepers r s) : LeavesKeepers r (pairCheck s) := by
  unfold pairCheck
  split
  · exact h
  · refine .ite h (.ite (.ite (leavesKeepers_setSt (h.setQch _) 2) h) (leavesKeepers_setSt ?_ 6))
    exact (LeavesKeepers.ite (leavesKeepers_resyncFail h) h).setReg _ _

theorem leavesKeepers_linkJudge (h : LeavesKeepers r s) : LeavesKeepers r (linkJudge s) :=
  .ite h (.ite (leavesKeepers_pairCheck ((h.setQch _).setReg _ _)) (.ite (leavesKeepers_linkDown h) h))

theorem leavesKeepers_laneLink (h : LeavesKeepers r s) (b l : Nat) (up : Bool) :
    LeavesKeepers r (laneLink s b l up) := by
  unfold laneLink
  extract_lets a s1
  have told : LeavesKeepers r s1 := .ite (h.setReg _ _) h
  exact .ite h (.ite (told.setReg _ _) (told.setReg _ _))

theorem leavesKeepers_hammersOff (s : State) (b : Nat) : LeavesKeepers s (hammersOff s b) := by
  refine List.foldlRecOn _ _ (LeavesKeepers.refl s) fun t ht h hh => ?_
  split
  · exact ht
  · next h0 => exact ht.setHammer b h0 (List.mem_range.mp hh) _

/-- The turn of a port that stands. -/
theorem leavesKeepers_portDown {b p : Nat} (hp : (s.port b p).running = false) :
    LeavesKeepers s (portDown s b p) := by
  unfold portDown portHalted
  rw [hp, if_neg Bool.false_ne_true]
  have stopped : LeavesKeepers s (stopPort s b p) := ((LeavesKeepers.refl s).setPort b p _).setReg _ _
  exact leavesKeepers_laneLink (stopped.setLane b p .init) b p false

theorem leavesKeepers_portsDown {b : Nat} (hs : ∀ p, p < 4 → (s.port b p).running = false) :
    LeavesKeepers s (portsDown s b) := by
  have kept : LeavesKeepers s (portsDown s b) ∧ Stops s (portsDown s b) :=
    List.foldlRecOn (motive := fun t => LeavesKeepers s t ∧ Stops s t) _ _ ⟨.refl s, .refl s⟩ fun t ⟨ht, st⟩ p hp =>
      ⟨ht.trans (leavesKeepers_portDown (st.still b p (hs p (List.mem_range.mp hp)))),
        st.trans (stops_portDown t b p)⟩
  exact kept.1

/-- No port of the package runs. -/
def PortsStill (s : State) : Prop := ∀ b p, s.present b = true → p < 4 → (s.port b p).running = false

theorem leavesKeepers_eachBillet_portsDown (hs : PortsStill s) :
    LeavesKeepers s (s.eachBillet portsDown) := by
  have kept : LeavesKeepers s (s.eachBillet portsDown) ∧ Stops s (s.eachBillet portsDown) :=
    List.foldlRecOn (motive := fun t => LeavesKeepers s t ∧ Stops s t) _ _ ⟨.refl s, .refl s⟩ fun t ⟨ht, st⟩ b hb =>
      ⟨ht.trans (leavesKeepers_portsDown fun p hp => st.still b p (hs b p (present_of_mem_upto hb) hp)),
        st.trans (stops_portsDown t b)⟩
  exact kept.1

theorem leavesKeepers_sleepPins (s : State) : LeavesKeepers s (sleepPins s) := by
  rw [pinsOnly_sleepPins]
  exact ⟨rfl, fun _ => rfl⟩

theorem leavesKeepers_eachBillet_hammersOff (s : State) : LeavesKeepers s (s.eachBillet hammersOff) :=
  List.foldlRecOn (motive := fun t => LeavesKeepers s t) _ _ (.refl s) fun t ht b _ =>
    ht.trans (leavesKeepers_hammersOff t b)

/-- Where no port runs, the entry stops nothing else (R271). -/
theorem leavesKeepers_emberStops (hs : PortsStill s) :
    LeavesKeepers s (emberStops s) := by
  have off := Stops.eachBillet (.refl (sleepPins s)) stops_hammersOff
  have still : PortsStill ((sleepPins s).eachBillet hammersOff) := fun b p hb hp => by
    refine off.still b p ?_
    unfold State.present at hb
    rw [off.variant] at hb
    rw [pinsOnly_sleepPins] at hb ⊢
    exact hs b p hb hp
  rw [emberStops_eq]
  exact leavesKeepers_linkJudge (((leavesKeepers_sleepPins s).trans (leavesKeepers_eachBillet_hammersOff _)).trans
    (leavesKeepers_eachBillet_portsDown still))

end

/-! ### The entry (R271) -/

/-- The part in EMBER, entered from `s`; `t` is `s` with its units stopped, and the beam and Tuyere stand too (R271). -/
def inEmber (s : State) (ins : List Nat) (t : State) : State :=
  { t with ember := ⟨true, wakeLevels s ins, s.temper.state⟩, temper := { s.temper with state := 3, req := none },
           tuy := { s.tuy with running := false }, beam := { s.beam with running := false } }

section
variable {s : State} {ins : List Nat}

theorem emberEnter_refused (h : ¬ (s.ember.on = false ∧ s.boot.held = false)) : emberEnter s ins = s := by
  unfold emberEnter
  refine if_pos ?_
  rw [Bool.or_eq_true]
  by_contra k
  rw [not_or, Bool.not_eq_true, Bool.not_eq_true] at k
  exact h k

theorem emberEnter_abandoned {k : Nat} (h : s.ember.on = false ∧ s.boot.held = false)
    (hk : (upto 48).find? (levelAsserted s (wakeLevels s ins)) = some k) :
    emberEnter s ins =
      setTmp (s.setReg 0x803004 (setFld (s.reg 0x803004 ||| 2#32) 13 8 k)) { s.temper with req := none } := by
  obtain ⟨on, held⟩ := h
  unfold emberEnter
  rw [on, held, if_neg (by decide)]
  dsimp only
  rw [hk]
  rfl

theorem emberEnter_asleep (h : s.ember.on = false ∧ s.boot.held = false)
    (hn : (upto 48).find? (levelAsserted s (wakeLevels s ins)) = none) :
    emberEnter s ins = inEmber s ins (emberStops s) := by
  obtain ⟨on, held⟩ := h
  unfold emberEnter
  rw [on, held, if_neg (by decide)]
  dsimp only
  rw [hn]
  rfl

end

/-! ### The wake (R272-R275, R79) -/

/-- What the last stages of a wake leave as its first ones set it. -/
def wakeView (s : State) : Ember × Beam × Otp × List Host.Cell × List Instr × Nat × Word :=
  (s.ember, s.beam, s.otp, s.flash, s.pending, s.now, s.reg 0x803004)

section
variable (s : State) (b : Nat)

theorem wakeView_setReg {a : Nat} (v : Word) (h : 0x803004 ≠ a) : wakeView (s.setReg a v) = wakeView s :=
  congrArg (fun w => (s.ember, s.beam, s.otp, s.flash, s.pending, s.now, w)) (State.reg_setReg_other s v h)

/-- Ember's status register is in no billet's window. -/
theorem emberStatus_ne_baddr {off : Nat} (h : off < 0x100000) (ho : off ≠ 0x3004) : 0x803004 ≠ baddr b off := by
  unfold baddr windowSize
  omega

theorem wakeView_foldl {α : Type} {f : State → α → State} (l : List α) (hf : ∀ t e, wakeView (f t e) = wakeView t) :
    wakeView (l.foldl f s) = wakeView s :=
  List.foldlRecOn (motive := fun t => wakeView t = wakeView s) l f rfl fun t ht e _ => (hf t e).trans ht

theorem wakeView_irqEvent (id : Nat) : wakeView (irqEvent s b id) = wakeView s := by
  unfold irqEvent
  dsimp only
  split
  · exact (wakeView_setReg _ _ (emberStatus_ne_baddr b (by decide) (by decide))).trans
      (wakeView_setReg _ _ (emberStatus_ne_baddr b (by decide) (by decide)))
  · rfl

theorem wakeView_markWithdrawn (id tb : Nat) : wakeView (markWithdrawn s b id tb) = wakeView s :=
  wakeView_foldl s _ fun t h => wakeView_foldl t _ fun u l => by
    dsimp only
    split <;> rfl

theorem wakeView_irqSense (id : Nat) : wakeView (irqSense s b id) = wakeView s := by
  unfold irqSense
  dsimp only
  split
  · rfl
  · split
    · split
      · exact wakeView_irqEvent _ b id
      · rfl
    · split
      · exact wakeView_markWithdrawn _ b id b
      · rfl

theorem wakeView_irqQuiet (n : Nat) : wakeView (irqQuiet s b n) = wakeView s := by
  unfold irqQuiet
  split
  · rfl
  · exact wakeView_irqSense s b _

theorem wakeView_capQuiet (n : Nat) : wakeView (capQuiet s b n) = wakeView s :=
  wakeView_foldl s _ fun t c => by
    dsimp only
    split <;> rfl

theorem wakeView_pmQuiet : wakeView (pmQuiet s b) = wakeView s := wakeView_foldl s _ fun _ _ => rfl

theorem wakeView_loadObserve (ns : List Nat) : wakeView (loadObserve s b ns) = wakeView s := by
  unfold loadObserve
  extract_lets s1
  have seen : wakeView s1 = wakeView s :=
    wakeView_foldl s ns fun t n => (wakeView_irqQuiet _ b n).trans (wakeView_capQuiet _ b n)
  exact (wakeView_pmQuiet s1 b).trans seen

theorem wakeView_bankJudge {k : Nat} (hk : k < 3) : wakeView (bankJudge s b k) = wakeView s := by
  unfold bankJudge
  dsimp only
  split
  · exact wakeView_setReg _ _ (emberStatus_ne_baddr b (by omega) (by omega))
  · split
    · exact wakeView_loadObserve _ b _
    · rfl

theorem wakeView_judgeBanks : wakeView (judgeBanks s) = wakeView s :=
  wakeView_foldl s _ fun t b =>
    List.foldlRecOn (motive := fun u => wakeView u = wakeView t) _ _ rfl fun u hu _ hk =>
      (wakeView_bankJudge u b (List.mem_range.mp hk)).trans hu

theorem wakeView_wakePorts : wakeView (wakePorts s) = wakeView s :=
  wakeView_foldl s _ fun t b => wakeView_foldl t _ fun u p => by
    dsimp only
    split <;> rfl

theorem wakeView_wakeSources : wakeView (wakeSources s) = wakeView s :=
  wakeView_foldl s _ fun t _ => wakeView_foldl t _ fun _ _ => rfl

theorem wakeView_raisePrivate_keeper (id : Nat) : wakeView (raisePrivate s b 0 id) = wakeView s := by
  unfold raisePrivate
  dsimp only
  split
  · exact wakeView_setReg _ _ (emberStatus_ne_baddr b (by decide) (by decide))
  · rfl

theorem Tbl.get_filter {α : Type} {d : Nat → α} {p : Nat → Bool} {k : Nat} (h : p k = true) (m : Tbl α) :
    Tbl.get d (m.filter fun kv => p kv.1) k = Tbl.get d m k := by
  induction m with
  | nil => rfl
  | cons e t ih =>
    obtain ⟨k', v⟩ := e
    rw [List.filter_cons]
    split
    · simp only [Tbl.get, ih]
    · next drop =>
      have other : k ≠ k' := fun e => drop (e ▸ h)
      simp only [Tbl.get, if_neg other, ih]

/-- Retained registers are as they were (R273). -/
theorem reg_wakeBase {a : Nat} (h : isRetained a = true) : (wakeBase s).reg a = s.reg a := Tbl.get_filter h s.regs

theorem reg_setTickFull (n a : Nat) : (setTickFull s n).reg a = s.reg a := rfl

/-- A wake keeps the OTP, the flash, the waiting commands and the clock, and the part is out of EMBER (R273). -/
theorem wakeBase_fields :
    (wakeBase s).ember = Ember.init ∧ (wakeBase s).otp = s.otp ∧ (wakeBase s).flash = s.flash ∧
      (wakeBase s).pending = s.pending ∧ (wakeBase s).now = s.now := by
  unfold wakeBase
  exact ⟨rfl, rfl, rfl, rfl, rfl⟩

/-- The state `u` in which a wake starts its beam: what comes after keeps the view. -/
theorem emberWake_view (now : List Nat) : ∃ u : State,
    wakeView (emberWake s now) = wakeView (wakeBeam u s.beam.frame) ∧ u.ember.on = false ∧ u.otp = s.otp ∧
    u.flash = s.flash ∧ u.pending = s.pending ∧ u.now = s.now ∧ u.reg 4 = s.reg 4 ∧
    (u.reg 0x803004).getLsbD 0 = true := by
  unfold emberWake
  extract_lets hits n periods timer s0 s1 s2 s3 s4
  obtain ⟨ember, otp, flash, pending, clock⟩ := wakeBase_fields s.nextFree
  have late : Side s1 s3 :=
    State.orReg_side (State.setReg_side (State.setReg_side (State.setReg_side (State.setReg_side (Side.refl s1)))))
  refine ⟨s3, ?_, ?_, late.otp_eq.trans otp, late.flash_eq.trans flash, late.pending_eq.trans pending,
    late.now_eq.trans clock, ?_, ?_⟩
  · have stages : wakeView s4 = wakeView (wakeBeam s3 s.beam.frame) :=
      ((wakeView_wakeSources _).trans (wakeView_judgeBanks _)).trans (wakeView_wakePorts _)
    exact (wakeView_foldl s4 _ fun t b => wakeView_raisePrivate_keeper t b 27).trans stages
  · rw [late.ember_eq]
    exact congrArg Ember.on ember
  · have timing : s1.reg 4 = s.reg 4 := by
      rw [reg_setTickFull, State.reg_setReg_other (h := by decide), reg_wakeBase _ rfl]
      rfl
    simp only [s3, s2, State.orReg, State.reg_setReg, emba, Nat.reduceAdd, Nat.reduceEqDiff, if_false, timing]
  · have status : s3.reg 0x803004 = setFld (s1.reg 0x803004 ||| 1#32) 13 8 (hits.headD 0) := by
      simp only [s3, s2, State.orReg, State.reg_setReg, emba, Nat.reduceAdd, Nat.reduceEqDiff, if_false, if_true]
    rw [status, getLsbD_setFld_below (by decide) (by decide), BitVec.getLsbD_or]
    exact Bool.or_true _

end

/-- What a wake leaves (R79, R272): the part out of EMBER, the beam at L0:D0 of the next frame, WAKE shown. -/
theorem emberWake_wakes {s : State} {now : List Nat} :
    (emberWake s now).ember.on = false ∧ (emberWake s now).beam.running = true ∧ (emberWake s now).beam.line = 0 ∧
      (emberWake s now).beam.dot = 0 ∧ (emberWake s now).beam.frame = (s.beam.frame + 1) % 2 ^ 48 ∧
      (emberWake s now).beam.htotal = fld (s.reg 4) 15 0 ∧ (emberWake s now).otp = s.otp ∧
      (emberWake s now).flash = s.flash ∧ (emberWake s now).pending = s.pending ∧
      ((emberWake s now).reg 0x803004).getLsbD 0 = true ∧ (emberWake s now).now = s.now := by
  obtain ⟨u, view, asleep, otp, flash, pending, clock, timing, status⟩ := emberWake_view s now
  simp only [wakeView, Prod.mk.injEq] at view
  obtain ⟨ember', beam', otp', flash', pending', clock', status'⟩ := view
  rw [ember', beam', otp', flash', pending', clock', status', ← timing]
  exact ⟨asleep, rfl, rfl, rfl, rfl, rfl, otp, flash, pending, status, clock⟩

/-! ### The statement -/

section
variable {s : State} {ins : List Nat}

theorem find_levelAsserted_none {now : List Nat} (h : ¬ ∃ k, k < 48 ∧ levelAsserted s now k = true) :
    (upto 48).find? (levelAsserted s now) = none :=
  List.find?_eq_none.mpr fun k hk ha => h ⟨k, List.mem_range.mp hk, ha⟩

/-- An abandoned entry (R271) names the first asserted slot and ends the request. -/
theorem emberEnter_abandons (h : s.ember.on = false ∧ s.boot.held = false)
    (ha : ∃ k, k < 48 ∧ levelAsserted s (wakeLevels s ins) k = true) :
    ∃ t, Sys2Proof.Machine.exec (.emberEnter ins) s = .next t ∧
      t = { s with regs := t.regs, temper := { s.temper with req := none } } ∧ (t.reg 0x803004).getLsbD 1 = true ∧
      levelAsserted s (wakeLevels s ins) (fld (t.reg 0x803004) 13 8) = true ∧
      (∀ k, k < fld (t.reg 0x803004) 13 8 → levelAsserted s (wakeLevels s ins) k = false) ∧
      ∀ a, a ≠ 0x803004 → t.reg a = s.reg a := by
  obtain ⟨j, hj, asserted⟩ := ha
  obtain ⟨k, hk⟩ := Option.isSome_iff_exists.mp
    (List.find?_isSome.mpr ⟨j, (List.mem_range.mpr hj : j ∈ upto 48), asserted⟩)
  obtain ⟨first, inRange, before⟩ := List.find?_range_eq_some.mp hk
  have status : (emberEnter s ins).reg 0x803004 = setFld (s.reg 0x803004 ||| 2#32) 13 8 k := by
    rw [emberEnter_abandoned h hk]
    exact State.reg_setReg_same s _ _
  have slot : fld ((emberEnter s ins).reg 0x803004) 13 8 = k := by
    rw [status]
    exact fld_setFld_same (by decide) (by decide) ((List.mem_range.mp inRange).trans (by decide))
  refine ⟨emberEnter s ins, rfl, ?_, ?_, ?_, ?_, ?_⟩
  · rw [emberEnter_abandoned h hk]
    rfl
  · rw [status, getLsbD_setFld_below (by decide) (by decide), BitVec.getLsbD_or]
    exact Bool.or_true _
  · rw [slot]
    exact first
  · rw [slot]
    exact fun i hi => Bool.not_eq_true' _ ▸ before i hi
  · rw [emberEnter_abandoned h hk]
    exact fun a ha => State.reg_setReg_other s _ ha

/-- A hit in EMBER wakes the part (R272). -/
theorem emberSample_wakes (on : s.ember.on = true)
    (hit : ∃ k, k < 48 ∧ slotHit s s.ember.levels (wakeLevels s ins) k = true) :
    emberSample s ins = emberWake s (wakeLevels s ins) := by
  unfold emberSample
  rw [on, if_neg (by decide)]
  exact if_pos (any_upto.mpr hit)

/-- A sample without a hit is only noted (R272). -/
theorem emberSample_notes (on : s.ember.on = true)
    (hit : ¬ ∃ k, k < 48 ∧ slotHit s s.ember.levels (wakeLevels s ins) k = true) :
    emberSample s ins = { s with ember := { s.ember with levels := wakeLevels s ins } } := by
  unfold emberSample
  rw [on, if_neg (by decide)]
  exact if_neg (any_upto.not.mpr hit)

end

/-- Settles O58: the entry is abandoned or stops what `emberStops` stops, whose frame is `Stops` and, where no port
runs, `LeavesKeepers`; the last stages of a wake keep what `wakeView` names. -/
theorem emberSleepAndWake : Obligations.EmberSleepAndWake := by
  intro s ins
  refine ⟨fun h => ?_, emberEnter_abandons, fun h ha => ?_, fun off => ?_, fun on => ?_, fun off => ?_,
    fun on hit => ?_, fun on hit => ?_⟩
  · exact congrArg Host.Outcome.next (emberEnter_refused h)
  · obtain ⟨otp, flash, pending⟩ := emberStops_leaves s
    refine ⟨_, congrArg Host.Outcome.next (emberEnter_asleep h (find_levelAsserted_none ha)), rfl, rfl, rfl, rfl, otp,
      flash, pending, fun b i hb h0 h16 => emberStops_off hb h0 h16, fun b p hb hp => emberStops_stopped hb hp,
      fun b n hb hn hs => emberStops_sleep hb hn hs, fun still => ?_⟩
    have leaves := leavesKeepers_emberStops still
    exact ⟨fun b _ => leaves.keeper b, congrArg (inEmber s ins) leaves.frame⟩
  · exact congrArg Host.Outcome.next (if_neg (Bool.eq_false_iff.mp off))
  · refine ⟨_, congrArg Host.Outcome.next (if_pos (eq_true_of_ne_false on)), State.reg_setReg_same s _ _, ?_, rfl⟩
    exact fun a ha => State.reg_setReg_other s _ ha
  · exact congrArg Host.Outcome.next (if_pos (by rw [off]; rfl))
  · exact congrArg Host.Outcome.next (emberSample_notes (eq_true_of_ne_false on) hit)
  · exact ⟨_, congrArg Host.Outcome.next (emberSample_wakes (eq_true_of_ne_false on) hit), emberWake_wakes⟩

end Sys2Proof.Machine
end

section
/-! Package resets, their release and the test access port (R467, R478-R480, R484, R526-R529): what a reset leaves, what
the release and the passing of time leave of the boot logic and its registers, and what selecting an instruction
does. -/

namespace Sys2Proof.Machine

/-! ### What a package reset leaves (R478, R479) -/

theorem Tbl.get_filter_dropped {α : Type} {d : Nat → α} {p : Nat → Bool} {k : Nat} (h : p k = false)
    (m : Tbl α) :
    Tbl.get d (m.filter fun kv => p kv.1) k = d k := by
  induction m with
  | nil => rfl
  | cons e t ih =>
    obtain ⟨k', v⟩ := e
    rw [List.filter_cons]
    split
    · next kept =>
      have other : k ≠ k' := fun e => Bool.false_ne_true ((e ▸ h).symm.trans kept)
      simp only [Tbl.get, if_neg other, ih]
    · exact ih

theorem isEmberReg_iff {a : Nat} : isEmberReg a = true ↔ 0x803000 ≤ a ∧ a < 0x804000 := by
  simp only [isEmberReg, Bool.and_eq_true, decide_eq_true_eq]

/-- After a reset no pin drives, and no level is past its synchroniser: only pads are kept (R434). -/
theorem padsOnly_idle (keep : Bool) (t : Tbl Pin) (k : Nat) :
    (Tbl.get (fun _ => Pin.init) (padsOnly keep t) k).oe = false ∧
      (Tbl.get (fun _ => Pin.init) (padsOnly keep t) k).sync = false := by
  refine List.foldlRecOn (motive := fun m => (Tbl.get (fun _ => Pin.init) m k).oe = false ∧
    (Tbl.get (fun _ => Pin.init) m k).sync = false) t _ ⟨rfl, rfl⟩ fun m hm kv _ => ?_
  rw [Tbl.get_set]
  split
  · exact ⟨rfl, rfl⟩
  · exact hm

/-- `t` is the part after a package reset of `s` with cause `k`: held, and at reset but for what a reset keeps. -/
def ResetBy (s t : State) (k : Nat) : Prop :=
  t.reg 0x812100 = BitVec.ofNat 32 k ∧
  (∀ a, 0x803000 ≤ a → a < 0x804000 → t.reg a = if k = 1 then regReset s.variant a else s.reg a) ∧
  (∀ a, a ≠ 0x812100 → ¬ (0x803000 ≤ a ∧ a < 0x804000) → t.reg a = regReset s.variant a) ∧
  t.boot.held = true ∧ t.boot.hot = (decide (k = 3) || (s.boot.held && s.boot.hot)) ∧
  t.beam.running = false ∧ t.tick = 0 ∧ t.hammers = State.reset.hammers ∧
  t.ports = State.reset.ports ∧ t.commits = State.reset.commits ∧ t.variant = s.variant ∧ t.otp = s.otp ∧
  t.flash = s.flash ∧ t.pending = s.pending ∧ ∀ b n, (t.pin b n).oe = false ∧ (t.pin b n).sync = false

section
variable {s : State} {k a : Nat}

/-- The register words of a reset, before its cause is noted. -/
def resetRegs (s : State) (k : Nat) : Tbl Word := if k = 1 then [] else s.regs.filter fun kv => isEmberReg kv.1

theorem reg_packageReset (h : a ≠ 0x812100) :
    (packageReset s k).reg a = Tbl.get (regReset s.variant) (resetRegs s k) a := State.reg_setReg_other _ _ h

theorem reg_packageReset_ember (h : 0x803000 ≤ a ∧ a < 0x804000) :
    (packageReset s k).reg a = if k = 1 then regReset s.variant a else s.reg a := by
  rw [reg_packageReset (by omega)]
  unfold resetRegs
  split
  · rfl
  · exact Tbl.get_filter (isEmberReg_iff.mpr h) s.regs

theorem reg_packageReset_other (hc : a ≠ 0x812100) (h : ¬ (0x803000 ≤ a ∧ a < 0x804000)) :
    (packageReset s k).reg a = regReset s.variant a := by
  rw [reg_packageReset hc]
  unfold resetRegs
  split
  · rfl
  · exact Tbl.get_filter_dropped (Bool.eq_false_iff.mpr (isEmberReg_iff.not.mpr h)) s.regs

theorem packageReset_resets (s : State) (k : Nat) : ResetBy s (packageReset s k) k :=
  ⟨State.reg_setReg_same _ _ _, fun _ lo hi => reg_packageReset_ember ⟨lo, hi⟩, fun _ => reg_packageReset_other,
    rfl, rfl, rfl, rfl, rfl, rfl, rfl, rfl, rfl, rfl, rfl, fun _ _ => padsOnly_idle false s.pins _⟩

end

/-! ### What the release sets and its last stages leave -/

/-- What the release sets, what it leaves, and the words of BOOT_OTP and GRST_WDOG: neither the judging of banks and the
training of memories nor what passing time counts reaches them. -/
def partView (s : State) : Variant × Nat × Beam × Boot × Otp × Tbl Hammer × Nat × HostPort × Word × Word :=
  (s.variant, s.now, s.beam, s.boot, s.otp, s.hammers, s.tick, s.hostPort, s.reg 0x811010, s.reg 0x812108)

/-- The register at `a` is neither BOOT_OTP nor GRST_WDOG. -/
def SparesBoot (a : Nat) : Prop := 0x811010 ≠ a ∧ 0x812108 ≠ a

theorem sparesBoot_baddr (b : Nat) {off : Nat} (lo : 0x20000 ≤ off) (hi : off < 0x100000) :
    SparesBoot (baddr b off) := by
  unfold SparesBoot baddr windowSize
  omega

theorem sparesBoot_tuya {o : Nat} (h : o < 0x9000) : SparesBoot (tuya o) := by
  unfold SparesBoot tuya
  omega

section
variable (s : State) (b : Nat)

theorem partView_setReg {a : Nat} (v : Word) (h : SparesBoot a) : partView (s.setReg a v) = partView s := by
  obtain ⟨otp, wdog⟩ := h
  unfold partView
  rw [State.reg_setReg_other s v otp, State.reg_setReg_other s v wdog]
  rfl

theorem partView_foldl {α : Type} {f : State → α → State} (l : List α)
    (hf : ∀ t, ∀ e ∈ l, partView (f t e) = partView t) : partView (l.foldl f s) = partView s :=
  List.foldlRecOn (motive := fun t => partView t = partView s) l f rfl fun t ht e he => (hf t e he).trans ht

theorem partView_irqEvent (id : Nat) : partView (irqEvent s b id) = partView s := by
  unfold irqEvent
  dsimp only
  split
  · exact (partView_setReg _ _ (sparesBoot_baddr b (by decide) (by decide))).trans
      (partView_setReg _ _ (sparesBoot_baddr b (by decide) (by decide)))
  · rfl

theorem partView_pulseIrq (id : Nat) : partView (pulseIrq s b id) = partView s := by
  unfold pulseIrq
  split
  · exact partView_irqEvent s b id
  · rfl

/-! #### Banks judged and memories trained -/

theorem partView_markWithdrawn (id tb : Nat) : partView (markWithdrawn s b id tb) = partView s :=
  partView_foldl s _ fun t h _ => partView_foldl t _ fun u l _ => by
    dsimp only
    split <;> rfl

theorem partView_irqSense (id : Nat) : partView (irqSense s b id) = partView s := by
  unfold irqSense
  dsimp only
  split
  · rfl
  · split
    · split
      · exact partView_irqEvent _ b id
      · rfl
    · split
      · exact partView_markWithdrawn _ b id b
      · rfl

theorem partView_irqQuiet (n : Nat) : partView (irqQuiet s b n) = partView s := by
  unfold irqQuiet
  split
  · rfl
  · exact partView_irqSense s b _

theorem partView_capQuiet (n : Nat) : partView (capQuiet s b n) = partView s :=
  partView_foldl s _ fun t c _ => by
    dsimp only
    split <;> rfl

theorem partView_loadObserve (ns : List Nat) : partView (loadObserve s b ns) = partView s := by
  have quiet : ∀ t, partView (pmQuiet t b) = partView t := fun t => partView_foldl t _ fun _ _ _ => rfl
  exact (quiet _).trans
    (partView_foldl s ns fun t n _ => (partView_irqQuiet _ b n).trans (partView_capQuiet _ b n))

theorem partView_bankJudge {k : Nat} (hk : k < 3) : partView (bankJudge s b k) = partView s := by
  unfold bankJudge
  dsimp only
  split
  · exact partView_setReg _ _ (sparesBoot_baddr b (by omega) (by omega))
  · split
    · exact partView_loadObserve _ b _
    · rfl

theorem partView_judgeBanks : partView (judgeBanks s) = partView s :=
  partView_foldl s _ fun t b _ => partView_foldl t _ fun u _ hk => partView_bankJudge u b (List.mem_range.mp hk)

theorem partView_memTrain : partView (memTrain s b) = partView s := by
  unfold memTrain
  extract_lets x c s0 s1
  have undefined : partView s1 = partView s := by
    unfold s1 s0
    split <;> rfl
  have status : ∀ o, o < 0x1000 → SparesBoot (memReg b o) := fun o ho =>
    sparesBoot_baddr b (by omega) (by omega)
  exact ((partView_setReg _ _ (status 4 (by decide))).trans
    (partView_setReg _ _ (status 0 (by decide)))).trans undefined

/-! #### Forge cycles pass -/

theorem partView_tallyAdd {k : Nat} (hk : k < 16) (n at' : Nat) : partView (tallyAdd s b k n at') = partView s := by
  unfold tallyAdd
  dsimp only
  have noted : ∀ t : State, partView (t.orReg (baddr b (taloff k 0x14)) 1) = partView t := fun t =>
    partView_setReg t _ (sparesBoot_baddr b (by unfold taloff; omega) (by unfold taloff; omega))
  split
  · exact (partView_pulseIrq _ b _).trans (noted _)
  · rfl

theorem partView_tallyPast (src n at' : Nat) : partView (tallyPast s b src n at') = partView s := by
  unfold tallyPast
  split
  · rfl
  · refine partView_foldl s _ fun t k hk => ?_
    dsimp only
    split
    · exact partView_tallyAdd t b (List.mem_range.mp hk) n at'
    · rfl

theorem partView_setTuy (x : Tuyere) : partView { s with tuy := x } = partView s := rfl

theorem partView_tuySat : partView (tuySat s) = partView s :=
  (partView_setReg _ _ (sparesBoot_tuya (by decide))).trans (partView_setReg s _ (sparesBoot_tuya (by decide)))

theorem partView_tuySat_ite (c : Prop) [Decidable c] : partView (if c then tuySat s else s) = partView s := by
  split
  · exact partView_tuySat s
  · rfl

theorem partView_setNode (i : Nat) (v : Int) : partView (setNode s i v) = partView s :=
  partView_tuySat_ite (setNodeRaw s i (sat32 v).1) _

/-- One slot of the program works on Tuyere's record, and a saturation is noted in Tuyere's registers (R344, R355). -/
theorem partView_runSlot (i : Nat) : partView (runSlot s i) = partView s := by
  unfold runSlot
  dsimp only
  split
  · exact partView_tuySat_ite s _
  · exact (partView_setNode _ _ _).trans (partView_tuySat_ite s _)
  · exact partView_setNode s _ _
  · exact partView_setNode s _ _
  · rfl
  · exact partView_tuySat_ite (setSlotState' s i _) _
  · exact partView_tuySat_ite (setSlotState' s i _) _
  · unfold delaySlot
    dsimp only
    split <;> rfl
  · rfl

theorem partView_tuySlots : partView (tuySlots s) = partView s := partView_foldl s _ fun t i _ => partView_runSlot t i

theorem partView_silEvent (hb : b < 64) (nsil : Bool) : partView (silEvent s b nsil) = partView s :=
  partView_setReg s _ (sparesBoot_tuya (by split <;> omega))

theorem partView_silence (hb : b < 64) (x : Bus) (a : Nat) : partView (silence s b x a).1 = partView s := by
  unfold silence
  extract_lets r thr peak x1
  have told : ∀ (c nsil : Bool) (t : State) (y z : Bus),
      partView (if c then (silEvent t b nsil, y) else (t, z)).1 = partView t := fun c nsil t y z => by
    split
    · exact partView_silEvent t b hb nsil
    · rfl
  split
  next s2 x2 heard =>
    have first : partView s2 = partView s := by
      have := told (thr < a && !x1.loud) true s { x1 with loud := true, quiet := 0 } x1
      rw [heard] at this
      exact this
    split
    · exact first
    · exact (told _ false s2 _ _).trans first

theorem partView_busFrame (hb : b < 64) : partView (busFrame s b) = partView s := by
  unfold busFrame
  extract_lets lim old x inp
  split
  · split <;> rfl
  · split
    next s1 x1 heard =>
      have first := partView_silence s b hb x inp.natAbs
      rw [heard] at first
      exact first

theorem partView_busOutputs : partView (busOutputs s) = partView s := by
  unfold busOutputs
  extract_lets m s1
  have noted : partView s1 = partView s :=
    (partView_setReg _ _ (sparesBoot_tuya (by decide))).trans (partView_setReg s _ (sparesBoot_tuya (by decide)))
  exact (partView_setTuy s1 _).trans noted

theorem partView_busStage : partView (busStage s) = partView s :=
  ((partView_setTuy _ _).trans (partView_busOutputs _)).trans
    (partView_foldl s _ fun t b hb => partView_busFrame t b (List.mem_range.mp hb))

theorem partView_tuyStages : partView (tuyStages s) = partView s := by
  unfold tuyStages
  dsimp only
  split
  · rfl
  · split
    · exact (partView_busStage _).trans (partView_tuySlots s)
    · exact partView_tuySlots s

end

section
variable {s : State} {t : Nat}

/-- The passing of forge cycles moves the clock and leaves the boot record and GRST_WDOG. -/
theorem passCycles_clock (k : Nat) (s : State) : (passCycles k s).now = s.now + k ∧ (passCycles k s).boot = s.boot ∧
    (passCycles k s).reg 0x812108 = s.reg 0x812108 := by
  unfold passCycles
  extract_lets t0 t1 tb unit at' tick s1
  have counted : partView (s1.eachBillet fun s b =>
      tallyPast (tallyPast (tallyPast s b 224 k (s.now + 1)) b 225 (t1 / unit - t0 / unit) (at' unit)) b 226
        (t1 / (1000 * unit) - t0 / (1000 * unit)) (at' (1000 * unit))) = partView s1 :=
    partView_foldl s1 _ fun t b _ =>
      ((partView_tallyPast _ b _ _ _).trans (partView_tallyPast _ b _ _ _)).trans (partView_tallyPast t b _ _ _)
  have view := (partView_tuyStages _).trans counted
  simp only [partView, Prod.mk.injEq] at view
  obtain ⟨-, now, -, boot, -, -, -, -, -, wdog⟩ := view
  exact ⟨now, boot, wdog⟩

theorem passTo_clock (h : s.now ≤ t) : (passTo t s).now = t ∧ (passTo t s).boot = s.boot ∧
    (passTo t s).reg 0x812108 = s.reg 0x812108 := by
  unfold passTo
  split
  · obtain ⟨now, boot, wdog⟩ := passCycles_clock (t - s.now) s
    exact ⟨now.trans (Nat.add_sub_cancel' h), boot, wdog⟩
  · next late => exact ⟨h.antisymm (Nat.le_of_not_lt late), rfl, rfl⟩

/-! ### Events at their instant (log entry 1) -/

variable {inst : State → Nat} {f : State → State}

theorem atInstant_reached (h : inst s ≤ s.now) : atInstant inst f s = f s := if_pos h

theorem atInstant_beyond (h : s.now < inst s) (hl : lineEnd s ≤ inst s) : atInstant inst f s = s :=
  (if_neg h.not_ge).trans (if_neg hl.not_gt)

/-- The clock comes to an instant that stays where it is as cycles pass, and the event is judged again there. -/
theorem atInstant_ahead (h : s.now < inst s) (hl : inst s < lineEnd s) (hq : s.pkgQueue = [])
    (stays : inst (passTo (inst s) s) = inst s) : atInstant inst f s = atInstant inst f (passTo (inst s) s) := by
  have come : bring inst s = passTo (inst s) s := by
    unfold bring
    rw [if_pos h, hq]
    rfl
  have reached : inst (passTo (inst s) s) ≤ (passTo (inst s) s).now :=
    (stays.trans (passTo_clock h.le).1.symm).le
  rw [atInstant_reached reached]
  unfold atInstant
  rw [if_neg h.not_ge, if_pos hl, come]
  exact if_pos reached

end

/-! ### The watchdog (R480) -/

section
variable {s : State}

theorem exec_watchdogExpiry_stopped (h : ¬ (s.reg 0x812108).getLsbD 31 = true) :
    Sys2Proof.Machine.exec .watchdogExpiry s = .next s := congrArg Host.Outcome.next (if_neg h)

theorem exec_watchdogExpiry_running (h : (s.reg 0x812108).getLsbD 31 = true) :
    Sys2Proof.Machine.exec .watchdogExpiry s = .next (atInstant wdogEnd (fun s => packageReset s 6) s) :=
  congrArg Host.Outcome.next (if_pos h)

theorem exec_watchdogExpiry_passTo (h : (s.reg 0x812108).getLsbD 31 = true) (ahead : s.now < wdogEnd s)
    (hl : wdogEnd s < lineEnd s) (hq : s.pkgQueue = []) :
    Sys2Proof.Machine.exec .watchdogExpiry s = Sys2Proof.Machine.exec .watchdogExpiry (passTo (wdogEnd s) s) := by
  obtain ⟨-, boot, wdog⟩ := passTo_clock ahead.le
  have stays : wdogEnd (passTo (wdogEnd s) s) = wdogEnd s := by
    rw [wdogEnd, boot, wdog]
    rfl
  rw [exec_watchdogExpiry_running h, exec_watchdogExpiry_running (wdog ▸ h), atInstant_ahead ahead hl hq stays]

end

/-! ### The release (R475, R479) -/

theorem holdsPart_iff {ir : Nat} : holdsPart ir = true ↔ ir = 0 ∨ (3 ≤ ir ∧ ir ≤ 6) := by
  simp only [holdsPart, Bool.or_eq_true, Bool.and_eq_true, decide_eq_true_eq]

section
variable {s : State} {sel : Nat}

theorem resetRelease_waits (h : s.boot.held = false ∨ s.boot.hot = true ∨ holdsPart s.hostPort.ir = true) :
    resetRelease s sel = s := by
  refine if_pos ?_
  rw [Bool.or_assoc, ← holdsPart, Bool.or_eq_true, Bool.or_eq_true, Bool.not_eq_true']
  exact or_assoc.mpr h

/-- The part as the release sets it, before banks are judged and memories trained. -/
def releaseBase (s : State) (sel : Nat) : State :=
  let s1 := { s with now := 0, beam := Beam.init,
                     boot := { Boot.init with sel := sel % 4, host := decide (sel % 4 = 1 ∨ sel % 4 = 2) } }
  s1.setReg 0x811010 (otpWord s1)

theorem resetRelease_releases (held : s.boot.held = true) (cool : s.boot.hot = false)
    (free : holdsPart s.hostPort.ir = false) :
    resetRelease s sel =
      if sel % 4 = 1 ∨ sel % 4 = 2 then (judgeBanks (releaseBase s sel)).eachBillet memTrain
      else judgeBanks (releaseBase s sel) := by
  unfold resetRelease
  rw [Bool.or_assoc, ← holdsPart, held, cool, free, if_neg (by decide)]
  simp only [decide_eq_true_eq]
  rfl

/-- The last stages of a release leave what it sets. -/
theorem partView_resetRelease (held : s.boot.held = true) (cool : s.boot.hot = false)
    (free : holdsPart s.hostPort.ir = false) : partView (resetRelease s sel) = partView (releaseBase s sel) := by
  rw [resetRelease_releases held cool free]
  split
  · exact (partView_foldl _ _ fun t b _ => partView_memTrain t b).trans (partView_judgeBanks _)
  · exact partView_judgeBanks _

theorem resetRelease_sets (held : s.boot.held = true) (cool : s.boot.hot = false)
    (free : holdsPart s.hostPort.ir = false) :
    (resetRelease s sel).now = 0 ∧ (resetRelease s sel).beam = Beam.init ∧
      (resetRelease s sel).boot =
        { Boot.init with sel := sel % 4, host := decide (sel % 4 = 1 ∨ sel % 4 = 2) } ∧
      (resetRelease s sel).reg 0x811010 = otpWord s ∧ (resetRelease s sel).otp = s.otp ∧
      (resetRelease s sel).hammers = s.hammers ∧ (resetRelease s sel).tick = s.tick ∧
      (resetRelease s sel).hostPort = s.hostPort := by
  have view := partView_resetRelease (sel := sel) held cool free
  simp only [partView, Prod.mk.injEq] at view
  obtain ⟨-, now, beam, boot, otp, hammers, tick, host, word, -⟩ := view
  exact ⟨now, beam, boot, word.trans (State.reg_setReg_same _ _ _), otp, hammers, tick, host⟩

theorem otpWord_eq (s : State) : otpWord s =
    BitVec.ofNat 32 ((if s.otp.secure = true then 2 ^ 16 else 0) + s.otp.revoke % 4 * 2 ^ 12 + s.otp.svn % 128) := by
  unfold otpWord wd b2n
  split
  · rfl
  · rw [Nat.zero_mul]

theorem State.mem_setReg (t : State) (a : Nat) (v : Word) (b : Nat) : (t.setReg a v).mem b = t.mem b := rfl

theorem training_memTrain_same (t : State) (b : Nat) : ((memTrain t b).mem b).training = true := by
  unfold memTrain
  extract_lets x c s0 s1
  rw [State.mem_setReg, State.orReg, State.mem_setReg]
  exact congrArg MemCtl.training (State.mem_setMem_same s0 b _)

theorem mem_memTrain_other (t : State) {b b' : Nat} (h : b' ≠ b) : (memTrain t b).mem b' = t.mem b' := by
  unfold memTrain
  extract_lets x c s0 s1
  have undefined : s0.mem b' = t.mem b' := by
    unfold s0
    split <;> rfl
  rw [State.mem_setReg, State.orReg, State.mem_setReg]
  exact (State.mem_setMem_other s0 _ h).trans undefined

theorem training_memTrain {t : State} {b : Nat} (b' : Nat) (h : (t.mem b).training = true) :
    ((memTrain t b').mem b).training = true := by
  by_cases e : b = b'
  · exact e ▸ training_memTrain_same t b
  · rw [mem_memTrain_other t e]
    exact h

/-- For a host boot the release trains the memories of every billet (R485). -/
theorem resetRelease_trains (held : s.boot.held = true) (cool : s.boot.hot = false)
    (free : holdsPart s.hostPort.ir = false) (host : sel % 4 = 1 ∨ sel % 4 = 2) {b : Nat} (hb : s.present b = true) :
    ((resetRelease s sel).mem b).training = true := by
  rw [resetRelease_releases held cool free, if_pos host]
  have variant : (judgeBanks (releaseBase s sel)).variant = s.variant :=
    congrArg Prod.fst (partView_judgeBanks (releaseBase s sel))
  have hb' : (judgeBanks (releaseBase s sel)).present b = true := by
    unfold State.present
    rw [variant]
    exact hb
  exact State.eachBillet_reaches (P := fun t => (t.mem b).training = true) hb' (fun t b' => training_memTrain b')
    fun t => training_memTrain_same t b

end

/-! ### The test access port (R526-R529) -/

section
variable {s : State} {k : Nat}

/-- The test access port of `s` holds the instruction `k`. -/
def tapHolds (s : State) (k : Nat) : State := setHost s { s.hostPort with ir := k }

/-- A test instruction that follows another only takes its place. -/
theorem selectTap_test_held (hk : holdsPart k = true) (h : holdsPart s.hostPort.ir = true) :
    selectTap s k = tapHolds s k := by
  unfold selectTap
  rw [if_pos hk]
  dsimp only
  rw [if_pos h]
  rfl

/-- The first test instruction resets the part as PIN does (R529). -/
theorem selectTap_test_resets (hk : holdsPart k = true) (h : ¬ holdsPart s.hostPort.ir = true) :
    selectTap s k = tapHolds (packageReset s 2) k := by
  unfold selectTap
  rw [if_pos hk]
  dsimp only
  rw [if_neg h]
  rfl

theorem selectTap_other_free (hk : holdsPart k = false) (h : ¬ holdsPart s.hostPort.ir = true) :
    selectTap s k = tapHolds s k := by
  unfold selectTap
  rw [if_neg (Bool.eq_false_iff.mp hk)]
  dsimp only
  rw [if_neg h]
  rfl

/-- After a test an instruction that does not hold the part releases it, with BOOT_SEL a free value. -/
theorem selectTap_other_held (hk : holdsPart k = false) (h : holdsPart s.hostPort.ir = true) :
    selectTap s k = resetRelease (tapHolds s k).nextFree ((tapHolds s k).freeNat % 4) := by
  unfold selectTap
  rw [if_neg (Bool.eq_false_iff.mp hk)]
  dsimp only
  rw [if_pos h]
  rfl

/-- Leaving a test releases no part that is not held in reset, or is hot: one more free value is used. -/
theorem selectTap_leaves (hk : holdsPart k = false) (h : holdsPart s.hostPort.ir = true)
    (hs : s.boot.held = false ∨ s.boot.hot = true) : selectTap s k = (tapHolds s k).nextFree :=
  (selectTap_other_held hk h).trans (resetRelease_waits (hs.imp_right Or.inl))

theorem selectTap_releases (hk : holdsPart k = false) (h : holdsPart s.hostPort.ir = true)
    (held : s.boot.held = true) (cool : s.boot.hot = false) :
    (selectTap s k).boot.held = false ∧ (selectTap s k).hostPort.ir = k ∧ (selectTap s k).beam = Beam.init ∧
      (selectTap s k).now = 0 := by
  rw [selectTap_other_held hk h]
  obtain ⟨now, beam, boot, -, -, -, -, host⟩ :=
    resetRelease_sets (s := (tapHolds s k).nextFree) (sel := (tapHolds s k).freeNat % 4) held cool hk
  exact ⟨congrArg Boot.held boot, congrArg HostPort.ir host, beam, now⟩

/-- The instructions that leave a test, FUSE apart, and the codes the port then holds. -/
def testExits : List (Instr × Nat) :=
  [(.idcode, 1), (.tapReset, 1), (.samplePreload, 2), (.bypass, 0xFF), (.testResetExit, 0xFF)]

theorem exec_testExits (h : holdsPart s.hostPort.ir = true) {c : Instr} (hc : (c, k) ∈ testExits) :
    Sys2Proof.Machine.exec c s = .next (selectTap s k) ∧ holdsPart k = false := by
  simp only [testExits, List.mem_cons, Prod.mk.injEq, List.not_mem_nil, or_false] at hc
  rcases hc with ⟨rfl, rfl⟩ | ⟨rfl, rfl⟩ | ⟨rfl, rfl⟩ | ⟨rfl, rfl⟩ | ⟨rfl, rfl⟩
  · exact ⟨rfl, rfl⟩
  · exact ⟨rfl, rfl⟩
  · exact ⟨rfl, rfl⟩
  · exact ⟨rfl, rfl⟩
  · exact ⟨congrArg Host.Outcome.next (if_pos h), rfl⟩

/-- What FUSE asks of an OTP (R484), in the words of the statement. -/
def fuseBlown (o : Otp) (op : FuseOp) : Otp :=
  match op with
  | .keyHash 0 x => if o.slot0 = none then { o with slot0 := some (x % 2 ^ 256) } else o
  | .keyHash 1 x => if o.slot1 = none then { o with slot1 := some (x % 2 ^ 256) } else o
  | .keyHash _ _ => o
  | .revoke k => if k < 2 then { o with revoke := o.revoke ||| 1 <<< k } else o
  | .secure => { o with secure := true }
  | .svn => { o with svn := min 64 (o.svn + 1) }

theorem blowFuse_eq (o : Otp) (op : FuseOp) : blowFuse o op = fuseBlown o op := by
  cases op with
  | keyHash slot x =>
    match slot with
    | 0 => rfl
    | 1 => rfl
    | n + 2 => rfl
  | revoke k => rfl
  | secure => rfl
  | svn => rfl

/-- FUSE selects its code and blows the fuses of the state it then stands in. -/
theorem exec_fuse_free (op : FuseOp) (h : ¬ holdsPart s.hostPort.ir = true) :
    Sys2Proof.Machine.exec (.fuse op) s = .next { tapHolds s 0x80 with otp := fuseBlown s.otp op } := by
  change Host.Outcome.next { selectTap s 0x80 with otp := blowFuse (selectTap s 0x80).otp op } = _
  rw [selectTap_other_free rfl h, blowFuse_eq]
  rfl

end

/-! ### The statement -/

/-- A command that is a package reset leaves what a package reset leaves. -/
theorem resetBy_of_exec {s : State} {c : Instr} {k : Nat}
    (hc : Sys2Proof.Machine.exec c s = .next (packageReset s k)) :
    ∃ t, Sys2Proof.Machine.exec c s = .next t ∧ ResetBy s t k := ⟨_, hc, packageReset_resets s k⟩

/-- The loss of a clock that resets the package (R467). -/
theorem exec_clockLoss_resets {s : State} {b : Nat} (hb : s.present b = true) {dom : ClkDomain}
    (hd : clockLost s b dom = packageReset s 4) :
    Sys2Proof.Machine.exec (.clockLoss b dom) s = .next (packageReset s 4) :=
  congrArg Host.Outcome.next ((if_pos hb).trans hd)

theorem grstWrite_key {s : State} {v : Word} (h : fld v 31 24 = 0x5A ∧ v.getLsbD 0 = true) :
    grstWrite s v = packageReset s 5 :=
  if_pos (by rw [Bool.and_eq_true, decide_eq_true_eq]; exact h)

theorem grstWrite_other {s : State} {v : Word} (h : ¬ (fld v 31 24 = 0x5A ∧ v.getLsbD 0 = true)) :
    grstWrite s v = s :=
  if_neg (by rw [Bool.and_eq_true, decide_eq_true_eq]; exact h)

/-- Settles O55: every reset command is `packageReset`, whose frame is `ResetBy`; what follows a release or the passing
of time keeps `partView`; the test access port goes by `selectTap`. -/
theorem resetsAndTestAccess : Obligations.ResetsAndTestAccess := by
  refine ⟨fun s v sel => ?_, fun s op => ?_⟩
  · intro resets key runs ends ir holds host
    refine ⟨resetBy_of_exec rfl, resetBy_of_exec rfl, resetBy_of_exec rfl, resetBy_of_exec rfl, fun b l hb _ => ?_,
      fun h => ?_, fun h => ?_, fun h => ?_, fun h => ?_, fun run ahead beyond => ?_, fun run ahead hl hq => ?_,
      fun run elapsed => ?_, fun stopped => ?_, fun h => ?_, fun held cool free => ?_⟩
    · exact ⟨resetBy_of_exec (exec_clockLoss_resets hb rfl), resetBy_of_exec (exec_clockLoss_resets hb rfl)⟩
    · exact resetBy_of_exec (congrArg Host.Outcome.next (grstWrite_key h))
    · exact congrArg Host.Outcome.next (grstWrite_other h)
    · exact congrArg Host.Outcome.next (if_pos h)
    · exact resetBy_of_exec (congrArg Host.Outcome.next (if_neg h))
    · exact (exec_watchdogExpiry_running run).trans (congrArg Host.Outcome.next (atInstant_beyond ahead beyond))
    · exact exec_watchdogExpiry_passTo run ahead hl hq
    · exact resetBy_of_exec
        ((exec_watchdogExpiry_running run).trans (congrArg Host.Outcome.next (atInstant_reached elapsed)))
    · exact exec_watchdogExpiry_stopped stopped
    · exact congrArg Host.Outcome.next (resetRelease_waits (h.imp_right (Or.imp_right holdsPart_iff.mpr)))
    · have free' : holdsPart s.hostPort.ir = false := Bool.eq_false_iff.mpr (holdsPart_iff.not.mpr free)
      obtain ⟨now, beam, boot, word, otp, hammers, tick, -⟩ := resetRelease_sets (sel := sel) held cool free'
      exact ⟨_, rfl, now, beam, boot, word.trans (otpWord_eq s), otp, hammers, tick,
        fun hh b hb => resetRelease_trains held cool free' hh hb⟩
  · intro ir held o selects holds blown
    have held_iff : holdsPart s.hostPort.ir = true ↔ held := holdsPart_iff
    have tests : ∀ {c k}, Sys2Proof.Machine.exec c s = .next (selectTap s k) → holdsPart k = true → holds c k :=
      fun hc hk =>
      ⟨fun h => hc.trans (congrArg Host.Outcome.next (selectTap_test_held hk (held_iff.mpr h))),
        fun h => ⟨_, _, hc, rfl, selectTap_test_resets hk (held_iff.not.mpr h)⟩⟩
    refine ⟨tests rfl rfl, tests rfl rfl, tests rfl rfl, tests rfl rfl, tests rfl rfl, fun free => ?_,
      fun h hs c k hc => ?_, fun h hheld cool c k hc => ?_⟩
    · have free' := held_iff.not.mpr free
      have selected : ∀ {c k}, Sys2Proof.Machine.exec c s = .next (selectTap s k) → holdsPart k = false →
          Gives c s (selects k) :=
        fun hc hk => hc.trans (congrArg Host.Outcome.next (selectTap_other_free hk free'))
      exact ⟨selected rfl rfl, selected rfl rfl, selected rfl rfl, selected rfl rfl,
        congrArg Host.Outcome.next (if_neg free'), exec_fuse_free op free'⟩
    · obtain ⟨runs, other⟩ := exec_testExits (held_iff.mpr h) hc
      exact runs.trans (congrArg Host.Outcome.next (selectTap_leaves other (held_iff.mpr h) hs))
    · rcases List.mem_append.mp (show (c, k) ∈ testExits ++ [(.fuse op, 0x80)] from hc) with exits | fuse
      · obtain ⟨runs, other⟩ := exec_testExits (held_iff.mpr h) exits
        exact ⟨_, runs, selectTap_releases other (held_iff.mpr h) hheld cool⟩
      · obtain ⟨rfl, rfl⟩ := Prod.mk.inj (List.mem_singleton.mp fuse)
        exact ⟨_, rfl, selectTap_releases rfl (held_iff.mpr h) hheld cool⟩

end Sys2Proof.Machine
end
